-- ==== Sys2Proof/Word.lean ====
section
/-! DEFINITION. The word types of the hart and the identifiers of the parts of a pod. -/

namespace Sys2Proof

/-- A scalar register, a CSR, an address (R10, R12). -/
abbrev Word := BitVec 64
/-- One byte of memory. -/
abbrev Byte := BitVec 8
/-- One vector register (R10). -/
abbrev VecReg := BitVec 8192
/-- One predicate register (R10). -/
abbrev PredBits := BitVec 2048

/-- A hart's position, the fields of `hpos` (R188): package 9, die 3, quad 5, core 2, hart 2. -/
abbrev HartId := BitVec 21
/-- A core's position: package 9, die 3, quad 5, core 2. -/
abbrev CoreId := BitVec 19
/-- A quad's position: package 9, die 3, quad 5. -/
abbrev QuadId := BitVec 17
/-- A die's position as addresses name it (R225): package 9, die 4 (die 8 is the I/O die). -/
abbrev DieId := BitVec 13
/-- A package of the pod. -/
abbrev PkgId := BitVec 9
/-- The identity of a team (R187). -/
abbrev TeamId := BitVec 32

end Sys2Proof
end

