-- ==== Sys2Proof/Config.lean ====
section
/-! DEFINITION. What the part fixes, and the free values: constants without a body, of which no proof can see a value. -/

namespace Sys2Proof.Config

/-- Bytes of one HBM channel (R226). -/
def channelBytes : Nat := 2 ^ 31
/-- Bytes of a quad scratchpad (R226, R229). -/
def scratchBytes : Nat := 2 ^ 21
/-- Bytes of die SRAM (R226, R229). -/
def sramBytes : Nat := 2 ^ 27
/-- Bytes of a TCM (R226, R229). -/
def tcmBytes : Nat := 2 ^ 18
/-- Bytes of the die interleave window (R226, R228). -/
def interleaveBytes : Nat := 2 ^ 37

/-- Free value: after the `n`-th such choice a vector or predicate register keeps its value (R26, R246). -/
opaque deadKeeps : Nat → Bool
/-- Free value: the ticks of the pod time base that pass before the `n`-th reading of it (R344). -/
opaque ticksElapsed : Nat → Nat
/-- Free value: a held line of a read-only window serves the `n`-th load of it (R248). -/
opaque windowHit : Nat → Bool
/-- Free value: which of several free slots or entries the hardware takes (R239, R342). -/
opaque pick : Nat → Nat
/-- The bank, in the low 6 bits, and the row of it that hold a row of a channel, by the row's number in address order
(R400). -/
opaque bankRow : Nat → BitVec 23
/-- Free value: bits of a structure after an uncorrectable soft error (R308). -/
opaque unpredictable : (n w : Nat) → BitVec w
/-- Free value: an element of a destination keeps its bytes when its collective fails, rather than all ones (R362). -/
opaque collKeeps : Nat → Bool
/-- Free value: which entry of a full lane TLB bank gives way to the entry of a page (R236). -/
opaque evicted : (n page : Nat) → Nat
/-- Free value: the element at a position is performed before the fault of a remote word of the `fm` class (R158). -/
opaque remotePerforms : (n k : Nat) → Bool
/-- Free value: what became of the atomics of a word at an address whose target is lost, modulo 3 (R86, R340): not performed,
or indeterminate with the update not made, or made. -/
opaque lostAtomic : (n : Nat) → Word → Nat
/-- The part's implementation code, IMPL of a context image (R314). -/
opaque implCode : Word
/-- The check value of the opaque synchronisation block of a context image (R314). -/
opaque syncCheck : List Byte → Word
/-- Free value: a line stored to during a checkpoint is in the image as it then stands (R402). -/
opaque lateLine : Nat → Bool

end Sys2Proof.Config
end

