-- ==== Sys2Proof/Syntax.lean ====
section
/-! DEFINITION. The instructions: operand types, then `Instr`, one constructor per row of the opcode table. -/

namespace Sys2Proof

/-- A field that names a scalar register. -/
abbrev SReg := BitVec 5
/-- A field that names a vector register or the first register of a group. -/
abbrev VReg := BitVec 5
/-- A vector operand field of a link-major word (R64): 0 to 23 name `v0` to `v23`, 24 to 31 name `dl0` to `dl7`. -/
abbrev LReg := BitVec 5
/-- A field that names a predicate register, 0 to 23 (R50). -/
abbrev PReg := BitVec 5
/-- A governing predicate (R50): 0 to 23, or 31 for none. In a non-blocking form, the completion semaphore. -/
abbrev PSel := BitVec 5

/-- Source width of `sext` and `zext` (R56). -/
inductive ExtW where
  | w8 | w16 | w32
  deriving DecidableEq, Repr

/-- Type of a scalar load (R58, R82). -/
inductive LdTy where
  | i8 | i16 | i32 | i64 | n8 | n16 | n32
  deriving DecidableEq, Repr

/-- Width of a scalar store (R58, R82). -/
inductive StW where
  | w8 | w16 | w32 | w64
  deriving DecidableEq, Repr

/-- Type of a scalar atomic (R58, R84). -/
inductive AmoTy where
  | i32 | i64 | n32 | n64
  deriving DecidableEq, Repr

/-- Operation of a scalar atomic (R58, R84). -/
inductive AmoOp where
  | add | and | or | xor | min | max | swap | cas
  deriving DecidableEq, Repr

/-- Scalar floating-point format (R60). -/
inductive FFmt where
  | f64 | f32 | bf16 | f16
  deriving DecidableEq, Repr

/-- Relation of `fcmp` (R60). -/
inductive FRel where
  | eq | lt | le | un
  deriving DecidableEq, Repr

/-- Either side of `fcvt` (R60). -/
inductive CvtTy where
  | f64 | f32 | bf16 | f16 | i64 | n64
  deriving DecidableEq, Repr

/-- Element formats: the FMT codes 0 to 11 of R14, and code 12 of `vcvt.q` (R66), E2M1 without a block scale. -/
inductive Format where
  | i | n | f64 | f32 | bf16 | f16 | e4m3 | e5m2 | mxfp8 | mxfp6 | mxfp4 | ox4 | e2m1
  deriving DecidableEq, Repr

/-- What a conversion makes of its source (R50, R66): the destination format, and the predicate that governs it. -/
structure CvtTo where
  fmt : Format
  p   : PSel
  deriving DecidableEq, Repr

/-- Scopes, `.lane` to `.pod` (R61, R70). -/
inductive Scope where
  | lane | core | quad | die | pkg | pod
  deriving DecidableEq, Repr

/-- Path of a vector access (R68): by `fthr`, packet or circuit. -/
inductive Path where
  | thr | pkt | ckt
  deriving DecidableEq, Repr

/-- Operation of `vamo` (R68, R166). -/
inductive VamoOp where
  | add | min | max | and | or | xor | swap | fadd
  deriving DecidableEq, Repr

/-- Operation of a collective (R70). -/
inductive CollOp where
  | sum | prod | min | max | and | or | xor
  deriving DecidableEq, Repr

/-- Operation of `vscan` (R67). -/
inductive ScanOp where
  | add | min | max | and | or | xor
  deriving DecidableEq, Repr

/-- The identity of a master outside the cores (R387): its die, its unit code and the ASID of its access. -/
structure Origin where
  die  : BitVec 13
  unit : BitVec 8
  asid : BitVec 9
  deriving DecidableEq, Repr

/-- A word that a master outside the cores stores to a device register. -/
structure Sent where
  origin : Origin
  word   : BitVec 64
  deriving DecidableEq, Repr

/-- A package that a master outside the cores asks something of. -/
structure Asked where
  origin : Origin
  pkg    : BitVec 9
  deriving DecidableEq, Repr

/-- A load from a core's CRES, and the hart that makes it (R269, R270). -/
structure CresRead where
  hart : BitVec 21
  core : BitVec 19
  deriving DecidableEq, Repr

/-- The bytes that a host request names: its address and their number. -/
structure HostAddr where
  addr  : BitVec 64
  bytes : BitVec 13
  deriving DecidableEq, Repr

/-- The CSRs, under the names of R12 and of the chapters that define them. -/
inductive Csr where
  | vl | vty | vix | fcsr | xlm | rerr | fthr | zlr | zlb | zls | tick | flw
  | hrk | htm | hpos | qmap | fst | fpc | fva
  | tcause | tval | tepc | tvec | tsr | tscr | psa
  | fm (k : BitVec 5)
  deriving DecidableEq, Repr

/-- The instructions and events of the machine, one constructor per row of the opcode table: the 303 instruction
words (R56 to R70), then the 112 events, with the agent, unit or data each concerns. -/
inductive Instr where
  -- Scalar instructions (majors 0x01 to 0x13)
  /-- ADD (R78). Writes the 64-bit sum s[A] + s[B] to s[D]. -/
  | add (d a b : SReg)
  /-- SUB (R78). Writes the 64-bit difference s[A] - s[B] to s[D]. -/
  | sub (d a b : SReg)
  /-- MUL (R78). Writes the low 64 bits of the product to s[D]. -/
  | mul (d a b : SReg)
  /-- MULH (R78). Writes the high 64 bits of the signed 128-bit product. -/
  | mulh (d a b : SReg)
  /-- MULHN (R78). Writes the high 64 bits of the unsigned 128-bit product. -/
  | mulhn (d a b : SReg)
  /-- DIV (R78). Writes the signed quotient, under the division rules of R28. -/
  | div (d a b : SReg)
  /-- DIVN (R78). Writes the unsigned quotient, under R28. -/
  | divn (d a b : SReg)
  /-- REM (R78). Writes the signed remainder, under R28. -/
  | rem (d a b : SReg)
  /-- REMN (R78). Writes the unsigned remainder, under R28. -/
  | remn (d a b : SReg)
  /-- AND (R78). Writes the bitwise AND of s[A] and s[B]. -/
  | and (d a b : SReg)
  /-- OR (R78). Writes the bitwise OR of s[A] and s[B]. -/
  | or (d a b : SReg)
  /-- XOR (R78). Writes the bitwise XOR of s[A] and s[B]. -/
  | xor (d a b : SReg)
  /-- ANDN (R78). Writes s[A] AND NOT s[B]. -/
  | andn (d a b : SReg)
  /-- SHL (R78). Writes s[A] shifted left by the amount in s[B] bits [5:0]. -/
  | shl (d a b : SReg)
  /-- SHR (R78). Writes s[A] shifted right logically by the amount in s[B] bits [5:0]. -/
  | shr (d a b : SReg)
  /-- SRA (R78). Writes s[A] shifted right arithmetically by the amount in s[B] bits [5:0]. -/
  | sra (d a b : SReg)
  /-- ROL (R78). Writes s[A] rotated left by the amount in s[B] bits [5:0]. -/
  | rol (d a b : SReg)
  /-- SLT (R78). Writes 1 if s[A] < s[B] as signed values, and 0 otherwise. -/
  | slt (d a b : SReg)
  /-- SLTN (R78). Writes 1 if s[A] < s[B] as unsigned values, and 0 otherwise. -/
  | sltn (d a b : SReg)
  /-- MIN (R78). Writes the signed lesser of s[A] and s[B]. -/
  | min (d a b : SReg)
  /-- MAX (R78). Writes the signed greater of s[A] and s[B]. -/
  | max (d a b : SReg)
  /-- MINN (R78). Writes the unsigned lesser of s[A] and s[B]. -/
  | minn (d a b : SReg)
  /-- MAXN (R78). Writes the unsigned greater of s[A] and s[B]. -/
  | maxn (d a b : SReg)
  /-- CLZ (R78). Writes the number of leading zero bits of s[A], or 64 for zero. -/
  | clz (d a : SReg)
  /-- CTZ (R78). Writes the number of trailing zero bits of s[A], or 64 for zero. -/
  | ctz (d a : SReg)
  /-- POPC (R78). Writes the number of one bits of s[A]. -/
  | popc (d a : SReg)
  /-- SEXT (R78). Sign-extends the low 8, 16 or 32 bits of s[A], the width being coded in B. -/
  | sext (d a : SReg) (w : ExtW)
  /-- ZEXT (R78). Zero-extends the low 8, 16 or 32 bits of s[A], the width being coded in B. -/
  | zext (d a : SReg) (w : ExtW)
  /-- SEL (R78). Writes s[A] if the prior s[D] is non-zero, and s[B] otherwise. -/
  | sel (d a b : SReg)
  /-- ADDI (R80). Adds the sign-extended imm16 to s[A]. -/
  | addi (d a : SReg) (i : BitVec 16)
  /-- ANDI (R80). ANDs s[A] with the sign-extended imm16. -/
  | andi (d a : SReg) (i : BitVec 16)
  /-- ORI (R80). ORs s[A] with the zero-extended imm16. -/
  | ori (d a : SReg) (i : BitVec 16)
  /-- XORI (R80). XORs s[A] with the zero-extended imm16. -/
  | xori (d a : SReg) (i : BitVec 16)
  /-- SHLI (R80). Shifts s[A] left by an immediate amount. -/
  | shli (d a : SReg) (n : BitVec 6)
  /-- SHRI (R80). Shifts s[A] right logically by an immediate amount. -/
  | shri (d a : SReg) (n : BitVec 6)
  /-- SRAI (R80). Shifts s[A] right arithmetically by an immediate amount. -/
  | srai (d a : SReg) (n : BitVec 6)
  /-- SLTI (R80). Writes 1 if s[A] is less than the sign-extended imm16, as signed values. -/
  | slti (d a : SReg) (i : BitVec 16)
  /-- KSET (R81). Sets s[D] to imm16 placed in half H, with the other halves zero. -/
  | kset (d : SReg) (h : BitVec 2) (i : BitVec 16)
  /-- KINS (R81). Inserts imm16 into half H of s[D]. -/
  | kins (d : SReg) (h : BitVec 2) (i : BitVec 16)
  /-- LD (R82). Loads an aligned scalar of size and signedness SZ from s[A] + off13, after the checks of R87. -/
  | ld (d a : SReg) (t : LdTy) (o : BitVec 13)
  /-- ST (R82). Stores the low bytes of s[D] to s[A] + off13, after the checks of R87. -/
  | st (d a : SReg) (w : StW) (o : BitVec 13)
  /-- AMO (R84). Performs an indivisible read-modify-write of the selected operation and width at s[A], returning the old value. -/
  | amo (d a b : SReg) (t : AmoTy) (op : AmoOp)
  /-- CLN (R85). Writes any dirty copy of the line back to its home and keeps it valid. -/
  | cln (a : SReg)
  /-- INV (R85). Writes back the line and discards it from the L1 and the die L2. -/
  | inv (a : SReg)
  /-- BEQ (R88). Branches if s[D] equals s[A]. -/
  | beq (d a : SReg) (o : BitVec 13)
  /-- BNE (R88). Branches if s[D] differs from s[A]. -/
  | bne (d a : SReg) (o : BitVec 13)
  /-- BLT (R88). Branches if s[D] < s[A], signed. -/
  | blt (d a : SReg) (o : BitVec 13)
  /-- BGE (R88). Branches if s[D] >= s[A], signed. -/
  | bge (d a : SReg) (o : BitVec 13)
  /-- BLTN (R88). Branches if s[D] < s[A], unsigned. -/
  | bltn (d a : SReg) (o : BitVec 13)
  /-- BGEN (R88). Branches if s[D] >= s[A], unsigned. -/
  | bgen (d a : SReg) (o : BitVec 13)
  /-- JAL (R88). Writes pc + 4 to s[D] and jumps by off21 words. -/
  | jal (d : SReg) (o : BitVec 21)
  /-- JALR (R88). Jumps to s[A] + imm16, writing pc + 4 to s[D], or traps on a misaligned target. -/
  | jalr (d a : SReg) (i : BitVec 16)
  /-- SMINE (R89). At a grant point, advances the pointers, lowers the count, grants again and loops while elements remain. -/
  | smine (d a : SReg) (n : BitVec 3) (o : BitVec 13)
  /-- ZOL (R93). Reads and checks a nest record and starts a zero-overhead loop over the following body words. -/
  | zol (a : SReg) (l : BitVec 5)
  /-- FADD (R95). Scalar FP addition in the format given by FMT, rounded under fcsr.RM. -/
  | fadd (d a b : SReg) (f : FFmt)
  /-- FSUB (R95). Scalar FP subtraction. -/
  | fsub (d a b : SReg) (f : FFmt)
  /-- FMUL (R95). Scalar FP multiplication. -/
  | fmul (d a b : SReg) (f : FFmt)
  /-- FFMA (R95). Scalar fused s[A] x s[B] + s[D], rounded once. -/
  | ffma (d a b : SReg) (f : FFmt)
  /-- FDIV (R95). Scalar FP division. -/
  | fdiv (d a b : SReg) (f : FFmt)
  /-- FSQRT (R95). Scalar FP square root. -/
  | fsqrt (d a : SReg) (f : FFmt)
  /-- FMIN (R95). Scalar IEEE 754-2019 minimum, with a canonical NaN result. -/
  | fmin (d a b : SReg) (f : FFmt)
  /-- FMAX (R95). Scalar IEEE 754-2019 maximum, with a canonical NaN result. -/
  | fmax (d a b : SReg) (f : FFmt)
  /-- FCMP (R95). Scalar FP compare for the relation in SUB, writing 1 or 0. -/
  | fcmp (d a b : SReg) (f : FFmt) (r : FRel)
  /-- FCVT (R96). Converts from source type SUB to destination type FMT, rounding once or saturating. -/
  | fcvt (d a : SReg) (dst src : CvtTy)
  /-- FMV (R95). Moves and zero-extends the bits of the format width, with no flags. -/
  | fmv (d a : SReg) (f : FFmt)
  /-- CSRR (R98). Reads a CSR into s[D], waiting under R99 where the CSR requires it. -/
  | csrr (d : SReg) (c : Csr)
  /-- CSRW (R98). Writes s[D] to a CSR under its field rules. -/
  | csrw (d : SReg) (c : Csr)
  /-- CSRS (R98). ORs s[D] into a CSR. -/
  | csrs (d : SReg) (c : Csr)
  /-- CSRC (R98). Clears the bits of s[D] in a CSR. -/
  | csrc (d : SReg) (c : Csr)
  /-- SYS (R100). Retires and then traps with the system service cause 0x3C0. -/
  | sys (n : BitVec 16)
  /-- BKPT (R100). Retires and then traps with the breakpoint cause 0x3C1. -/
  | bkpt (n : BitVec 16)
  /-- ERET (R302). Leaves handler state, restores the loop and Fife state and resumes at (tepc, vix). -/
  | eret
  /-- WFI (R101). Waits until an asynchronous trap or a pre-emption request becomes pending, or retires earlier. -/
  | wfi
  /-- FENCE (R102). Orders the selected kinds of access pairs at the given scope. -/
  | fence (k : BitVec 7) (sc : Scope)
  /-- TICK (R103). Writes the pod time base to s[D]. -/
  | tick (d : SReg)
  /-- TLBI_PAGE (R103). Removes the core's lane-TLB entries that map the page of s[D]. -/
  | tlbiPage (d : SReg)
  /-- TLBI_ASID (R103). Removes the core's lane-TLB entries tagged with the ASID in s[D]. -/
  | tlbiAsid (d : SReg)
  /-- TLBI_ALL (R103). Removes every entry of the core's lane TLB banks. -/
  | tlbiAll (d : SReg)
  /-- IFL (R103). Discards the hart's fetched and buffered instruction words. -/
  | ifl
  /-- CTXSV (R313). Writes the hart's context image and surrenders the hart if a pre-emption request is pending. -/
  | ctxsv (d : SReg)
  /-- CTXLD (R316). Checks a context image and loads it whole, ending with the effect of eret. -/
  | ctxld (d : SReg)
  /-- FLOW (R415). Requests a new coolant heat class for the team and returns the status in flw. -/
  | flow (d : SReg) (c : BitVec 4)
  /-- SETVL (R106). At a grant point, grants a vector length under Grant and writes it to s[D]. -/
  | setvl (d a : SReg)
  /-- SETVT (R108). Writes vty under the legality rules of R15 and returns the result. -/
  | setvt (d a : SReg)
  /-- SETTL (R174). Computes the granted matrix tile extents M, N and K from the remaining extents. -/
  | settl (d a : SReg)
  -- Vector integer, register forms (0x14)
  /-- VADD (R112). Element-wise integer addition. -/
  | vadd (d a b : VReg) (p : PSel)
  /-- VSUB (R112). Element-wise integer subtraction. -/
  | vsub (d a b : VReg) (p : PSel)
  /-- VMUL (R112). Element-wise integer product, low EW bits. -/
  | vmul (d a b : VReg) (p : PSel)
  /-- VMULH (R112). High EW bits of the signed product. -/
  | vmulh (d a b : VReg) (p : PSel)
  /-- VMULHN (R112). High EW bits of the unsigned product. -/
  | vmulhn (d a b : VReg) (p : PSel)
  /-- VMAC (R112). Integer multiply-accumulate d + a x b. -/
  | vmac (d a b : VReg) (p : PSel)
  /-- VDIV (R112). Signed integer quotient. -/
  | vdiv (d a b : VReg) (p : PSel)
  /-- VDIVN (R112). Unsigned integer quotient. -/
  | vdivn (d a b : VReg) (p : PSel)
  /-- VREM (R112). Signed integer remainder. -/
  | vrem (d a b : VReg) (p : PSel)
  /-- VREMN (R112). Unsigned integer remainder. -/
  | vremn (d a b : VReg) (p : PSel)
  /-- VMIN (R112). Signed element minimum. -/
  | vmin (d a b : VReg) (p : PSel)
  /-- VMINN (R112). Unsigned element minimum. -/
  | vminn (d a b : VReg) (p : PSel)
  /-- VMAX (R112). Signed element maximum. -/
  | vmax (d a b : VReg) (p : PSel)
  /-- VMAXN (R112). Unsigned element maximum. -/
  | vmaxn (d a b : VReg) (p : PSel)
  /-- VAND (R112). Element-wise bitwise AND. -/
  | vand (d a b : VReg) (p : PSel)
  /-- VOR (R112). Element-wise bitwise OR. -/
  | vor (d a b : VReg) (p : PSel)
  /-- VXOR (R112). Element-wise bitwise XOR. -/
  | vxor (d a b : VReg) (p : PSel)
  /-- VANDN (R112). Element-wise a AND NOT b. -/
  | vandn (d a b : VReg) (p : PSel)
  /-- VSHL (R112). Element-wise left shift. -/
  | vshl (d a b : VReg) (p : PSel)
  /-- VSHR (R112). Element-wise logical right shift. -/
  | vshr (d a b : VReg) (p : PSel)
  /-- VSRA (R112). Element-wise arithmetic right shift. -/
  | vsra (d a b : VReg) (p : PSel)
  /-- VADDS (R112). Signed saturating addition. -/
  | vadds (d a b : VReg) (p : PSel)
  /-- VADDSN (R112). Unsigned saturating addition. -/
  | vaddsn (d a b : VReg) (p : PSel)
  /-- VSUBS (R112). Signed saturating subtraction. -/
  | vsubs (d a b : VReg) (p : PSel)
  /-- VSUBSN (R112). Unsigned saturating subtraction, clamped at 0. -/
  | vsubsn (d a b : VReg) (p : PSel)
  /-- VABS (R112). Signed absolute value. -/
  | vabs (d a : VReg) (p : PSel)
  /-- VNEG (R112). Negation 0 - a. -/
  | vneg (d a : VReg) (p : PSel)
  /-- VCLZ (R112). Count of leading zero bits. -/
  | vclz (d a : VReg) (p : PSel)
  /-- VPOPC (R112). Count of one bits. -/
  | vpopc (d a : VReg) (p : PSel)
  /-- VCMP_EQ (R113). Sets predicate bits where a = b. -/
  | vcmpEq (d : PReg) (a b : VReg) (p : PSel)
  /-- VCMP_NE (R113). Sets predicate bits where a != b. -/
  | vcmpNe (d : PReg) (a b : VReg) (p : PSel)
  /-- VCMP_LT (R113). Sets predicate bits where a < b, signed. -/
  | vcmpLt (d : PReg) (a b : VReg) (p : PSel)
  /-- VCMP_GE (R113). Sets predicate bits where a >= b, signed. -/
  | vcmpGe (d : PReg) (a b : VReg) (p : PSel)
  /-- VCMP_LTN (R113). Sets predicate bits where a < b, unsigned. -/
  | vcmpLtn (d : PReg) (a b : VReg) (p : PSel)
  /-- VCMP_GEN (R113). Sets predicate bits where a >= b, unsigned. -/
  | vcmpGen (d : PReg) (a b : VReg) (p : PSel)
  /-- VSEL (R113). Selects a or b at each position below vl by the predicate. -/
  | vsel (d a b : VReg) (p : PSel)
  -- Vector floating point (0x16)
  /-- VFADD (R114). Element-wise FP addition, correctly rounded. -/
  | vfadd (d a b : VReg) (p : PSel)
  /-- VFSUB (R114). Element-wise FP subtraction. -/
  | vfsub (d a b : VReg) (p : PSel)
  /-- VFMUL (R114). Element-wise FP multiplication. -/
  | vfmul (d a b : VReg) (p : PSel)
  /-- VFFMA (R114). Fused a x b + d, rounded once. -/
  | vffma (d a b : VReg) (p : PSel)
  /-- VFFMS (R114). Fused a x b - d, rounded once. -/
  | vffms (d a b : VReg) (p : PSel)
  /-- VFNMA (R114). Fused -(a x b) + d, rounded once. -/
  | vfnma (d a b : VReg) (p : PSel)
  /-- VFDIV (R114). Element-wise FP division. -/
  | vfdiv (d a b : VReg) (p : PSel)
  /-- VFSQRT (R114). Element-wise FP square root. -/
  | vfsqrt (d a : VReg) (p : PSel)
  /-- VFRSQA (R118). Table-defined approximation of 1/sqrt(x). -/
  | vfrsqa (d a : VReg) (p : PSel)
  /-- VFRCPA (R117). Table-defined approximation of 1/x. -/
  | vfrcpa (d a : VReg) (p : PSel)
  /-- VFEXA (R119). Table-defined approximation of 2^x. -/
  | vfexa (d a : VReg) (p : PSel)
  /-- VFLGA (R120). Table-defined approximation of log2 x. -/
  | vflga (d a : VReg) (p : PSel)
  /-- VFMIN (R114). IEEE 754-2019 element minimum. -/
  | vfmin (d a b : VReg) (p : PSel)
  /-- VFMAX (R114). IEEE 754-2019 element maximum. -/
  | vfmax (d a b : VReg) (p : PSel)
  /-- VFCMP_EQ (R114). FP equality compare into a predicate. -/
  | vfcmpEq (d : PReg) (a b : VReg) (p : PSel)
  /-- VFCMP_LT (R114). FP less-than compare into a predicate. -/
  | vfcmpLt (d : PReg) (a b : VReg) (p : PSel)
  /-- VFCMP_LE (R114). FP less-or-equal compare into a predicate. -/
  | vfcmpLe (d : PReg) (a b : VReg) (p : PSel)
  /-- VFCMP_UN (R114). FP unordered compare into a predicate. -/
  | vfcmpUn (d : PReg) (a b : VReg) (p : PSel)
  /-- VFABS (R115). Clears the sign bit. -/
  | vfabs (d a : VReg) (p : PSel)
  /-- VFNEG (R115). Inverts the sign bit. -/
  | vfneg (d a : VReg) (p : PSel)
  /-- VFSGN (R115). Gives a the sign bit of b. -/
  | vfsgn (d a b : VReg) (p : PSel)
  /-- VFCLS (R115). Writes the class code of each element. -/
  | vfcls (d a : VReg) (p : PSel)
  -- Conversions and dlfl (0x17)
  /-- VCVT_H (R147). Converts elements to half width, rounding or clamping. -/
  | vcvtH (d a : VReg) (b : CvtTo)
  /-- VCVT_D (R147). Converts elements to double width, exactly. -/
  | vcvtD (d a : VReg) (b : CvtTo)
  /-- VCVT_FI (R147). Converts FP elements to integers of the same width. -/
  | vcvtFi (d a : VReg) (b : CvtTo)
  /-- VCVT_IF (R147). Converts integer elements to FP of the same width. -/
  | vcvtIf (d a : VReg) (b : CvtTo)
  /-- VCVT_Q (R149). Encodes FP32 elements as MXFP4, E2M1 or OX4 blocks. -/
  | vcvtQ (d a : VReg) (b : CvtTo)
  /-- VCVT_MX (R148). Encodes BF16 or FP16 elements as MXFP8 or MXFP6 blocks. -/
  | vcvtMx (d a : VReg) (b : CvtTo)
  /-- VDEQ (R147). Decodes MX or OX4 blocks into a narrower FP format. -/
  | vdeq (d a : VReg) (b : CvtTo)
  /-- DLFL (R129). Empties a digit link, waiting for a pending producer to retire. -/
  | dlfl (d : BitVec 3)
  -- Permute, reduce, predicate (0x18 to 0x1A)
  /-- VSLUP (R138). Slides the elements up by s[B] positions. -/
  | vslup (d a : VReg) (b : SReg) (p : PSel)
  /-- VSLDN (R138). Slides the elements down by s[B] positions. -/
  | vsldn (d a : VReg) (b : SReg) (p : PSel)
  /-- VPERM (R138). Permutes the elements by an index vector. -/
  | vperm (d a b : VReg) (p : PSel)
  /-- VCOMP (R139). Packs the selected elements toward position 0. -/
  | vcomp (d a : VReg) (p : PSel)
  /-- VEXP (R139). Spreads consecutive elements to the selected positions. -/
  | vexp (d a : VReg) (p : PSel)
  /-- VBC (R138). Broadcasts the low EW bits of s[A]. -/
  | vbc (d : VReg) (a : SReg) (p : PSel)
  /-- VID (R138). Writes each element's index i modulo 2^EW. -/
  | vid (d : VReg) (p : PSel)
  /-- VMVS (R140). Moves element k of a vector into a scalar register. -/
  | vmvs (d : SReg) (a : VReg) (b : SReg)
  /-- VMSV (R140). Moves a scalar register into element k of a vector. -/
  | vmsv (d : VReg) (a b : SReg)
  /-- VRSUM (R142). Unordered sum reduction in the fixed 64-lane tree. -/
  | vrsum (d a : VReg) (p : PSel)
  /-- VROSUM (R144). Strictly ascending sum reduction, resumable. -/
  | vrosum (d a : VReg) (p : PSel)
  /-- VRMIN (R141). Unordered minimum reduction. -/
  | vrmin (d a : VReg) (p : PSel)
  /-- VRMAX (R141). Unordered maximum reduction. -/
  | vrmax (d a : VReg) (p : PSel)
  /-- VRAND (R141). Bitwise AND reduction. -/
  | vrand (d a : VReg) (p : PSel)
  /-- VROR (R141). Bitwise OR reduction. -/
  | vror (d a : VReg) (p : PSel)
  /-- VRXOR (R141). Bitwise XOR reduction. -/
  | vrxor (d a : VReg) (p : PSel)
  /-- VSCAN (R145). Inclusive ordered scan with the operation held in B. -/
  | vscan (d a : VReg) (b : ScanOp) (p : PSel)
  /-- PAND (R133). Predicate AND. -/
  | pand (d a b : PReg)
  /-- POR (R133). Predicate OR. -/
  | por (d a b : PReg)
  /-- PXOR (R133). Predicate XOR. -/
  | pxor (d a b : PReg)
  /-- PANDN (R133). Predicate AND NOT. -/
  | pandn (d a b : PReg)
  /-- PNOT (R133). Predicate NOT. -/
  | pnot (d a : PReg)
  /-- PSET (R133). Sets predicate bits below s[A]. -/
  | pset (d : PReg) (a : SReg)
  /-- PFFS (R133). Finds the first set predicate bit below vl. -/
  | pffs (d : SReg) (a : PReg)
  /-- PCNT (R133). Counts the set predicate bits below vl. -/
  | pcnt (d : SReg) (a : PReg)
  /-- PMVV (R133). Sets a predicate bit for each element with a nonzero bit. -/
  | pmvv (d : PReg) (a : VReg)
  -- Vector memory (0x1B to 0x1D)
  /-- VLD (R151). Unit-stride vector load, blocking or non-blocking by NB. -/
  | vld (d : VReg) (a : SReg) (p : PSel) (nb : Bool) (t : Path)
  /-- VLDS (R151). Strided vector load. -/
  | vlds (d : VReg) (a b : SReg) (p : PSel) (nb : Bool) (t : Path)
  /-- VLDX (R151). Indexed vector load, resuming under fm. -/
  | vldx (d : VReg) (a : SReg) (b : VReg) (p : PSel) (nb : Bool) (t : Path)
  /-- VLDSG (R151). Segment vector load of n fields. -/
  | vldsg (d : VReg) (a : SReg) (n : BitVec 5) (p : PSel) (nb : Bool) (t : Path)
  /-- VLDFF (R163). Fault-only-first load that trims vl at a later faulting element. -/
  | vldff (d : VReg) (a : SReg) (p : PSel) (t : Path)
  /-- VPROBE (R164). Computes indexed addresses and sets predicate bits where the checks pass, without access. -/
  | vprobe (d : PReg) (a : SReg) (b : VReg) (p : PSel)
  /-- VST (R151). Ordered unit-stride vector store. -/
  | vst (d : VReg) (a : SReg) (p : PSel) (nb : Bool) (t : Path)
  /-- VSTS (R151). Ordered strided vector store. -/
  | vsts (d : VReg) (a b : SReg) (p : PSel) (nb : Bool) (t : Path)
  /-- VSTX (R151). Ordered indexed vector store. -/
  | vstx (d : VReg) (a : SReg) (b : VReg) (p : PSel) (nb : Bool) (t : Path)
  /-- VSTSG (R151). Unordered segment vector store. -/
  | vstsg (d : VReg) (a : SReg) (n : BitVec 5) (p : PSel) (nb : Bool) (t : Path)
  /-- VSTU (R151). Unordered unit-stride vector store. -/
  | vstu (d : VReg) (a : SReg) (p : PSel) (nb : Bool) (t : Path)
  /-- VSTXU (R151). Unordered indexed vector store. -/
  | vstxu (d : VReg) (a : SReg) (b : VReg) (p : PSel) (nb : Bool) (t : Path)
  /-- VAMO (R166). Indexed vector atomic, merged per address in ascending element order. -/
  | vamo (d : VReg) (a : SReg) (b : VReg) (p : PSel) (nb : Bool) (op : VamoOp) (t : Path)
  -- Binding, rows, matrix (0x1E, 0x1F)
  /-- BIND (R246). Binds a register group to a memory stream described by a binding descriptor. -/
  | bind (d : BitVec 3) (a : VReg) (b : SReg)
  /-- UNBIND (R246). Makes a binding record inactive. -/
  | unbind (d : BitVec 3)
  /-- BNDQ (R246). Returns the state of a binding record. -/
  | bndq (d : SReg) (a : BitVec 3)
  /-- ROWPIN (R239). Pins the DRAM row holding a byte for the team and returns its handle. -/
  | rowpin (d a : SReg)
  /-- ROWREL (R240). Writes back and releases a pinned row and raises its slot generation. -/
  | rowrel (a : SReg)
  /-- ROWQ (R244). Returns the team's row counts, or the state of a handle. -/
  | rowq (d a : SReg)
  /-- OMCL (R170). Claims an operand-memory slot for the hart. -/
  | omcl (b : BitVec 4)
  /-- OMRL (R170). Releases a held slot and starts its clearing. -/
  | omrl (b : BitVec 4)
  /-- TLD (R175). Writes vector elements column by column into a slot, ending the fill when FIN is set. -/
  | tld (d : SReg) (a : VReg) (b : BitVec 4)
  /-- MMA (R176). Indivisibly accumulates A x B into an accumulator tile and advances the slot's K cursor. -/
  | mma (d : BitVec 3) (a : VReg) (b : BitVec 4)
  /-- ACCX (R179). Narrows accumulator entries, or writes their save images, into a register group. -/
  | accx (d : VReg) (a : BitVec 3) (b : SReg) (p : PSel)
  /-- ACCX_LINK (R179). Narrows accumulator entries into a digit link as a producer. -/
  | accxLink (d a : BitVec 3) (b : SReg) (p : PSel)
  /-- ACCZ (R171). Claims an accumulator tile and sets every entry to +0. -/
  | accz (d : BitVec 3)
  -- Synchronisation and teams (0x20)
  /-- BAR (R209). Arrives at a team barrier at the given scope and waits for its completion. -/
  | bar (sc : Scope)
  /-- IPOST (R222). Posts iteration i on a channel once C = i, or resets C. -/
  | ipost (a : SReg) (c : BitVec 3)
  /-- IWAIT (R223). Waits until the channel count reaches i, then acquires at .die. -/
  | iwait (a : SReg) (c : BitVec 3)
  /-- SACQ (R213). Waits for a semaphore count and subtracts it, acquiring at the scope. -/
  | sacq (a : SReg) (sc : Scope) (n : BitVec 6)
  /-- SREL (R214). Releases at the scope and adds to a semaphore count. -/
  | srel (a : SReg) (sc : Scope) (n : BitVec 6)
  /-- STRY (R215). Makes one acquire attempt, optionally clears the status bits, and returns the state. -/
  | stry (d a : SReg) (sc : Scope) (n : BitVec 6)
  /-- QCNT (R218). Returns the number of entries in an architectural queue. -/
  | qcnt (d : SReg) (q : BitVec 3)
  /-- QFL (R219). Discards every entry of an architectural queue. -/
  | qfl (q : BitVec 3)
  /-- TSPLIT (R201). Splits the current team by key, or rejoins the parent, as a barrier. -/
  | tsplit (d a : SReg)
  /-- SPAWN (R200). Reads a launch record and enqueues a new team in the die's spawn queue. -/
  | spawn (d a : SReg)
  /-- EXIT (R202). Ends the hart and releases its links, queues, slots, tiles, rows and context. -/
  | exit
  /-- YIELD (R203). Acts as a pre-emption point, trapping on a live link or a pending request. -/
  | yield
  -- Engines (0x21)
  /-- CPY (R283). Issues a copy command block to the quad copy engine and returns its ticket. -/
  | cpy (d a b : SReg)
  /-- GSP (R290). Issues row requests that gather tensor rows into a scratchpad, trimming vl to the free room. -/
  | gsp (d : VReg) (a b : SReg) (p : PSel)
  /-- SHP (R280). Reads a shape descriptor and defines a shape record. -/
  | shp (d a : SReg)
  /-- ENQ (R270). Pushes s[B] into an engine or queue port. -/
  | enq (a b : SReg)
  /-- DEQ (R270). Pops the next entry of an engine or queue port. -/
  | deq (d a : SReg)
  /-- DNODE (R292). Defines a dependence-graph node, launching it when it has no predecessors. -/
  | dnode (d a : SReg)
  /-- DGO (R293). Gives a node one predecessor completion, launching it at zero. -/
  | dgo (a : SReg)
  /-- FGO (R272). Starts the core's Fife at s[A], or stops it when s[A] is 0. -/
  | fgo (a : SReg)
  /-- FWAIT (R277). In a hart, waits until the Fife is released; in the Fife, ends its program. -/
  | fwait
  -- Collectives and windows (0x22)
  /-- CRED (R352). Register-form reduction of the group's contributions to rank 0. -/
  | cred (d a : VReg) (b : BitVec 4) (p : PSel) (op : CollOp)
  /-- CALL (R352). Register-form all-reduce of the group's contributions. -/
  | call (d a : VReg) (b : BitVec 4) (p : PSel) (op : CollOp)
  /-- CGAT (R352). Register-form all-gather. -/
  | cgat (d a : VReg) (b : BitVec 4) (p : PSel)
  /-- CSCT (R352). Register-form scatter from rank 0. -/
  | csct (d a : VReg) (b : BitVec 4) (p : PSel)
  /-- CBC (R352). Register-form broadcast from rank 0. -/
  | cbc (d a : VReg) (b : BitVec 4) (p : PSel)
  /-- CGRP (R348). Reads and checks a group descriptor and sets, or clears, a group register. -/
  | cgrp (d : BitVec 4) (a : SReg)
  /-- CGATE (R361). Releases, polls the context's rings and opens the held bucket requests of the group. -/
  | cgate (a : BitVec 4)
  /-- RWIN (R342). Maps a read-only cached window onto another die's memory. -/
  | rwin (d a b : SReg)
  /-- RUNMAP (R343). Releases a window and discards its cached lines. -/
  | runmap (a : SReg)
  -- Vector integer, link forms (0x15)
  /-- VADD_LINK (R112). vadd in the link major; operands may name digit links. -/
  | vaddLink (d a b : LReg) (p : PSel)
  /-- VSUB_LINK (R112). vsub in the link major. -/
  | vsubLink (d a b : LReg) (p : PSel)
  /-- VMUL_LINK (R112). vmul in the link major; D may name a link. -/
  | vmulLink (d a b : LReg) (p : PSel)
  /-- VMULH_LINK (R112). vmulh in the link major. -/
  | vmulhLink (d a b : LReg) (p : PSel)
  /-- VMULHN_LINK (R112). vmulhn in the link major. -/
  | vmulhnLink (d a b : LReg) (p : PSel)
  /-- VMAC_LINK (R112). vmac in the link major. -/
  | vmacLink (d a b : LReg) (p : PSel)
  /-- VDIV_LINK (R112). vdiv in the link major. -/
  | vdivLink (d a b : LReg) (p : PSel)
  /-- VDIVN_LINK (R112). vdivn in the link major. -/
  | vdivnLink (d a b : LReg) (p : PSel)
  /-- VREM_LINK (R112). vrem in the link major. -/
  | vremLink (d a b : LReg) (p : PSel)
  /-- VREMN_LINK (R112). vremn in the link major. -/
  | vremnLink (d a b : LReg) (p : PSel)
  /-- VMIN_LINK (R112). vmin in the link major. -/
  | vminLink (d a b : LReg) (p : PSel)
  /-- VMINN_LINK (R112). vminn in the link major. -/
  | vminnLink (d a b : LReg) (p : PSel)
  /-- VMAX_LINK (R112). vmax in the link major. -/
  | vmaxLink (d a b : LReg) (p : PSel)
  /-- VMAXN_LINK (R112). vmaxn in the link major. -/
  | vmaxnLink (d a b : LReg) (p : PSel)
  /-- VAND_LINK (R112). vand in the link major. -/
  | vandLink (d a b : LReg) (p : PSel)
  /-- VOR_LINK (R112). vor in the link major. -/
  | vorLink (d a b : LReg) (p : PSel)
  /-- VXOR_LINK (R112). vxor in the link major. -/
  | vxorLink (d a b : LReg) (p : PSel)
  /-- VANDN_LINK (R112). vandn in the link major. -/
  | vandnLink (d a b : LReg) (p : PSel)
  /-- VSHL_LINK (R112). vshl in the link major. -/
  | vshlLink (d a b : LReg) (p : PSel)
  /-- VSHR_LINK (R112). vshr in the link major. -/
  | vshrLink (d a b : LReg) (p : PSel)
  /-- VSRA_LINK (R112). vsra in the link major. -/
  | vsraLink (d a b : LReg) (p : PSel)
  /-- VADDS_LINK (R112). vadds in the link major. -/
  | vaddsLink (d a b : LReg) (p : PSel)
  /-- VADDSN_LINK (R112). vaddsn in the link major. -/
  | vaddsnLink (d a b : LReg) (p : PSel)
  /-- VSUBS_LINK (R112). vsubs in the link major. -/
  | vsubsLink (d a b : LReg) (p : PSel)
  /-- VSUBSN_LINK (R112). vsubsn in the link major. -/
  | vsubsnLink (d a b : LReg) (p : PSel)
  /-- VABS_LINK (R112). vabs in the link major. -/
  | vabsLink (d a : LReg) (p : PSel)
  /-- VNEG_LINK (R112). vneg in the link major. -/
  | vnegLink (d a : LReg) (p : PSel)
  /-- VCLZ_LINK (R112). vclz in the link major. -/
  | vclzLink (d a : LReg) (p : PSel)
  /-- VPOPC_LINK (R112). vpopc in the link major. -/
  | vpopcLink (d a : LReg) (p : PSel)
  /-- VCMP_EQ_LINK (R113). vcmp.eq in the link major. -/
  | vcmpEqLink (d : PReg) (a b : LReg) (p : PSel)
  /-- VCMP_NE_LINK (R113). vcmp.ne in the link major. -/
  | vcmpNeLink (d : PReg) (a b : LReg) (p : PSel)
  /-- VCMP_LT_LINK (R113). vcmp.lt in the link major. -/
  | vcmpLtLink (d : PReg) (a b : LReg) (p : PSel)
  /-- VCMP_GE_LINK (R113). vcmp.ge in the link major. -/
  | vcmpGeLink (d : PReg) (a b : LReg) (p : PSel)
  /-- VCMP_LTN_LINK (R113). vcmp.ltn in the link major. -/
  | vcmpLtnLink (d : PReg) (a b : LReg) (p : PSel)
  /-- VCMP_GEN_LINK (R113). vcmp.gen in the link major. -/
  | vcmpGenLink (d : PReg) (a b : LReg) (p : PSel)
  /-- VSEL_LINK (R113). vsel in the link major. -/
  | vselLink (d a b : LReg) (p : PSel)
  /-- VCMP_EQ_K (R127). Cancelling equality compare on a digit link. -/
  | vcmpEqK (d : PReg) (a b : LReg) (p : PSel)
  /-- VCMP_NE_K (R127). Cancelling inequality compare on a digit link. -/
  | vcmpNeK (d : PReg) (a b : LReg) (p : PSel)
  /-- VCMP_LT_K (R127). Cancelling signed less-than compare on a digit link. -/
  | vcmpLtK (d : PReg) (a b : LReg) (p : PSel)
  /-- VCMP_GE_K (R127). Cancelling signed greater-or-equal compare on a digit link. -/
  | vcmpGeK (d : PReg) (a b : LReg) (p : PSel)
  /-- VCMP_LTN_K (R127). Cancelling unsigned less-than compare on a digit link. -/
  | vcmpLtnK (d : PReg) (a b : LReg) (p : PSel)
  /-- VCMP_GEN_K (R127). Cancelling unsigned greater-or-equal compare on a digit link. -/
  | vcmpGenK (d : PReg) (a b : LReg) (p : PSel)
  /-- VMIN_K (R127). Cancelling signed minimum on a digit link. -/
  | vminK (d a b : LReg) (p : PSel)
  /-- VMINN_K (R127). Cancelling unsigned minimum on a digit link. -/
  | vminnK (d a b : LReg) (p : PSel)
  /-- VMAX_K (R127). Cancelling signed maximum on a digit link. -/
  | vmaxK (d a b : LReg) (p : PSel)
  /-- VMAXN_K (R127). Cancelling unsigned maximum on a digit link. -/
  | vmaxnK (d a b : LReg) (p : PSel)
  -- Vector floating point, link forms (0x17)
  /-- VFADD_LINK (R114). vfadd in the link major; D may name a link. -/
  | vfaddLink (d a b : LReg) (p : PSel)
  /-- VFSUB_LINK (R114). vfsub in the link major. -/
  | vfsubLink (d a b : LReg) (p : PSel)
  /-- VFMUL_LINK (R114). vfmul in the link major. -/
  | vfmulLink (d a b : LReg) (p : PSel)
  /-- VFFMA_LINK (R114). vffma in the link major. -/
  | vffmaLink (d a b : LReg) (p : PSel)
  /-- VFFMS_LINK (R114). vffms in the link major. -/
  | vffmsLink (d a b : LReg) (p : PSel)
  /-- VFNMA_LINK (R114). vfnma in the link major. -/
  | vfnmaLink (d a b : LReg) (p : PSel)
  /-- VFDIV_LINK (R114). vfdiv in the link major. -/
  | vfdivLink (d a b : LReg) (p : PSel)
  /-- VFSQRT_LINK (R114). vfsqrt in the link major. -/
  | vfsqrtLink (d a : LReg) (p : PSel)
  /-- VFRSQA_LINK (R118). vfrsqa in the link major. -/
  | vfrsqaLink (d a : LReg) (p : PSel)
  /-- VFRCPA_LINK (R117). vfrcpa in the link major. -/
  | vfrcpaLink (d a : LReg) (p : PSel)
  /-- VFEXA_LINK (R119). vfexa in the link major. -/
  | vfexaLink (d a : LReg) (p : PSel)
  /-- VFLGA_LINK (R120). vflga in the link major. -/
  | vflgaLink (d a : LReg) (p : PSel)
  /-- VFMIN_LINK (R114). vfmin in the link major. -/
  | vfminLink (d a b : LReg) (p : PSel)
  /-- VFMAX_LINK (R114). vfmax in the link major. -/
  | vfmaxLink (d a b : LReg) (p : PSel)
  /-- VFCMP_EQ_LINK (R114). vfcmp.eq in the link major. -/
  | vfcmpEqLink (d : PReg) (a b : LReg) (p : PSel)
  /-- VFCMP_LT_LINK (R114). vfcmp.lt in the link major. -/
  | vfcmpLtLink (d : PReg) (a b : LReg) (p : PSel)
  /-- VFCMP_LE_LINK (R114). vfcmp.le in the link major. -/
  | vfcmpLeLink (d : PReg) (a b : LReg) (p : PSel)
  /-- VFCMP_UN_LINK (R114). vfcmp.un in the link major. -/
  | vfcmpUnLink (d : PReg) (a b : LReg) (p : PSel)
  /-- VFMIN_K (R127). Cancelling FP minimum on a digit link. -/
  | vfminK (d a b : LReg) (p : PSel)
  /-- VFMAX_K (R127). Cancelling FP maximum on a digit link. -/
  | vfmaxK (d a b : LReg) (p : PSel)
  /-- VFCMP_EQ_K (R127). Cancelling FP equality compare on a digit link. -/
  | vfcmpEqK (d : PReg) (a b : LReg) (p : PSel)
  /-- VFCMP_LT_K (R127). Cancelling FP less-than compare on a digit link. -/
  | vfcmpLtK (d : PReg) (a b : LReg) (p : PSel)
  /-- VFCMP_LE_K (R127). Cancelling FP less-or-equal compare on a digit link. -/
  | vfcmpLeK (d : PReg) (a b : LReg) (p : PSel)
  /-- VFCMP_UN_K (R127). Cancelling FP unordered compare on a digit link. -/
  | vfcmpUnK (d : PReg) (a b : LReg) (p : PSel)
  -- Events (rows of the table without bits)
  /-- ELEMENT_GROUP_ISSUE (R185). Each cycle each lane group picks one candidate element group, urgent first, then home, then lent. -/
  | elementGroupIssue (core : CoreId)
  /-- URGENT_WORD_AGING (R185). A queue-head word with a candidate that has not issued for 255 cycles becomes urgent. -/
  | urgentWordAging (core : CoreId)
  /-- ASYNC_TRAP_TAKE (R303). A pending asynchronous trap is taken at the next precise point in program state. -/
  | asyncTrapTake (h : HartId)
  /-- HART_DEADLOCK_DETECT (R220). Within 256 cycles of a hart deadlocking on its own queues and links, it traps with 0x206. -/
  | hartDeadlockDetect (h : HartId)
  /-- BARRIER_MISMATCH_DETECT (R210). Mismatched barrier or split waits are detected and every waiting hart traps with 0x207. -/
  | barrierMismatchDetect (t : TeamId)
  /-- BARRIER_RELEASE (R209). A barrier instance whose participants have all arrived releases them after ordering their accesses. -/
  | barrierRelease (h : HartId)
  /-- SACQ_WAIT_COMPLETE (R213). A waiting sacq whose amount has become available subtracts it and acquires. -/
  | sacqWaitComplete (h : HartId)
  /-- IPOST_WAIT_COMPLETE (R222). A waiting ipost whose channel has reached its iteration sets C to i + 1. -/
  | ipostWaitComplete (h : HartId)
  /-- IWAIT_WAIT_COMPLETE (R223). A waiting iwait whose channel count has reached i acquires and retires. -/
  | iwaitWaitComplete (h : HartId)
  /-- QUEUE_WAIT_COMPLETE (R217). A push blocked on a full queue, or a pop blocked on an empty one, completes when room or data arrives. -/
  | queueWaitComplete (h : HartId)
  /-- SEMAPHORE_RELEASE (R212). A semaphore is released and cleared once its team has no live hart on the core and no outstanding post. -/
  | semaphoreRelease (core : CoreId) (n : BitVec 6)
  /-- NB_ACCESS_POST (R165). A completed non-blocking vector access posts its byte count to its semaphore, with RERR on failure. -/
  | nbAccessPost (h : HartId) (k : Nat)
  /-- SLOT_CLEAR_COMPLETE (R170). The clearing of a released slot ends, and a waiting claim proceeds. -/
  | slotClearComplete (core : CoreId) (n : BitVec 4)
  /-- TILE_CLEAR_COMPLETE (R171). The clearing of a released accumulator tile ends, and a waiting claim proceeds. -/
  | tileClearComplete (core : CoreId) (n : BitVec 3)
  /-- RING_POLL (R193). The package distributor reads TAIL and CFG of an enabled launch ring. -/
  | ringPoll (pkg : PkgId) (asid : BitVec 9) (k : BitVec 2)
  /-- DISTRIBUTOR_CHOICE (R195). The distributor chooses the next launch or resuming team by strict priority and round-robin. -/
  | distributorChoice (pkg : PkgId)
  /-- TEAM_PLACE (R196). A chosen launch is placed whole once its reserved resources are free. -/
  | teamPlace (team : TeamId) (places : List HartId)
  /-- TCM_IMAGE_LOAD (R199). The distributor copies a launch's TCM image into each core of the team before its start tick. -/
  | tcmImageLoad (team : TeamId)
  /-- TEAM_START (R198). At start tick T every hart of the team starts in the state of R23. -/
  | teamStart (team : TeamId)
  /-- TEAM_COMPLETE (R194). After the last hart exits and every access is performed, the team completes and its record is written. -/
  | teamComplete (team : TeamId)
  /-- FORCED_PREEMPTION (R311). A hart not surrendered within 20 us, or waiting, is stopped and its whole context saved to psa. -/
  | forcedPreemption (h : HartId)
  /-- TEAM_PREEMPT_COMPLETE (R312). Once every hart is saved and outstanding work has posted, the distributor takes custody of the team's resources. -/
  | teamPreemptComplete (team : TeamId)
  /-- GANG_START_PROPOSAL (R345). The launching distributor proposes a start tick to every spanned package. -/
  | gangStartProposal (team : TeamId)
  /-- GANG_START_REPLY (R345). A reply that a spanned package's reservation holds arrives, and the proposer commits T when all have replied. -/
  | gangStartReply (team : TeamId) (pkg : PkgId)
  /-- GANG_START_RETRY (R345). When replies are missing at T - 1 us, T advances by 4 us and the proposal repeats. -/
  | gangStartRetry (team : TeamId)
  /-- RTINV_PAGE (R236). An RTINV write of kind 0 removes the remote translations of one page. -/
  | rtinvPage (d : DieId) (x : Sent)
  /-- RTINV_ASID (R236). An RTINV write of kind 1 removes the remote translations of one ASID. -/
  | rtinvAsid (d : DieId) (x : Sent)
  /-- RTINV_ALL (R236). An RTINV write of kind 2 removes every remote translation of the die. -/
  | rtinvAll (d : DieId) (x : Sent)
  /-- LEASE_BOUNCE (R242). At least every 2 us the channel writes back, refreshes and reopens each pinned row. -/
  | leaseBounce (die : DieId) (ch : BitVec 6)
  /-- STRIP_READ_AHEAD (R247). The hardware reads up to 4 strips of a bound stream ahead of their consuming words. -/
  | stripReadAhead (h : HartId) (k : BitVec 3)
  /-- FIFE_WORD (R273). The Fife executes one word of its admitted subset. -/
  | fifeWord (core : CoreId)
  /-- CPYQ_PUSH (R269). An 8-byte store to CPYQ issues a copy command block under the checks of cpy. -/
  | cpyqPush (h : HartId) (core : CoreId) (x : Word)
  /-- DGQ_PUSH (R269). An 8-byte store to DGQ acts as dgo on a node. -/
  | dgqPush (h : HartId) (core : CoreId) (x : Word)
  /-- CRES_POP (R270). An 8-byte load from CRES pops and acquires one result element. -/
  | cresPop (core : CresRead)
  /-- QP_PUSH (R269). An 8-byte store to QP4-QP7 pushes an entry into q4-q7. -/
  | qpPush (h : HartId) (q : BitVec 2) (x : Word)
  /-- QP_POP (R269). An 8-byte load from QP4-QP7 pops an entry of q4-q7. -/
  | qpPop (h : HartId) (q : BitVec 2)
  /-- QCE_CHUNK (R289). The quad copy engine serves one 512-byte chunk of a core's command, round-robin. -/
  | qceChunk (quad : QuadId)
  /-- COPY_COMPLETE (R287). A copy, gsp or graph command completes, posts its bytes, pushes its result and readies its slot. -/
  | copyComplete (core : CoreId)
  /-- SOFT_ERROR (R308). An uncorrectable soft error in hart state makes machine check 0x382 pending. -/
  | softError (h : HartId) (struct_ : BitVec 3)
  /-- PART_FAILURE (R396). A core, quad, die or other part fails, and the teams on it complete with status 1. -/
  | partFailure (kind : BitVec 2) (part : BitVec 19)
  /-- POWER_LIMIT_APPLIED (R307). A package power limit is applied and logged as 0x308. -/
  | powerLimitApplied (pkg : PkgId)
  /-- DERNY_READ (R333). A read flit arrives, is checked and delivered in SEQ order, and is performed once at the target. -/
  | dernyRead (f : BitVec 2048)
  /-- DERNY_WRITE (R333). A write flit arrives and is performed once at the target. -/
  | dernyWrite (f : BitVec 2048)
  /-- DERNY_ATOMIC (R333). An atomic flit arrives and is performed once at the target, or answered from the replay cache. -/
  | dernyAtomic (f : BitVec 2048)
  /-- DERNY_READ_RESPONSE (R333). A read response flit arrives and completes its elements. -/
  | dernyReadResponse (f : BitVec 2048)
  /-- DERNY_WRITE_RESPONSE (R333). A write or atomic response flit arrives and completes its elements. -/
  | dernyWriteResponse (f : BitVec 2048)
  /-- DERNY_ACK (R334). An ACK frees every flit that its ACKSEQ covers. -/
  | dernyAck (f : BitVec 2048)
  /-- DERNY_NACK (R334). A NACK makes the sender resend from the expected SEQ. -/
  | dernyNack (f : BitVec 2048)
  /-- DERNY_CREDIT (R333). A credit flit arrives for its stream. -/
  | dernyCredit (f : BitVec 2048)
  /-- DERNY_TIME_LAUNCH (R344). A time-base flit arrives for time transfer across the pod. -/
  | dernyTimeLaunch (f : BitVec 2048)
  /-- DERNY_MANAGEMENT (R333). A management flit arrives. -/
  | dernyManagement (f : BitVec 2048)
  /-- FLIT_RESEND_TIMEOUT (R334). A flit unacknowledged for 2 us is sent again. -/
  | flitResendTimeout (src dst : DieId) (c : BitVec 3)
  /-- PCNX_WRITE (R332). A PCNX write while ARM = 0 sets a port's next destination and starts back-bank tuning. -/
  | pcnxWrite (pkg : PkgId) (port : BitVec 8) (x : Sent)
  /-- POD_BANK_READY (R332). The back banks finish tuning and training, and RDY becomes 1. -/
  | podBankReady (pkg : PkgId)
  /-- PCSW_WRITE (R332). A PCSW write while RDY = 1 schedules the switch tick and sets ARM. -/
  | pcswWrite (pkg : PkgId) (x : Sent)
  /-- POD_STEP_SWITCH (R332). At the switch tick every port changes to its back bank and unacknowledged flits are resent. -/
  | podStepSwitch (pkg : PkgId)
  /-- PACKAGE_REMOVAL_RECOGNISED (R338). Loss of light and packet link-down mark a package lost, and peers isolate it. -/
  | packageRemovalRecognised (pkg gone : PkgId)
  /-- PACKAGE_RESPONSE_TIMEOUT (R338). No response from a package for 100 us over every path marks it lost. -/
  | packageResponseTimeout (pkg gone : PkgId)
  /-- COLLECTIVE_INSTANCE_COMPLETE (R352). A matched register-form collective instance writes each member's result and retires. -/
  | collectiveInstanceComplete (h : HartId)
  /-- COLL_RING_POLL (R358). The collective engine polls an enabled collective ring and accepts its requests. -/
  | collRingPoll (pkg : PkgId) (asid : BitVec 9) (k : BitVec 6)
  /-- COLL_REQUEST_COMPLETE (R362). A matched ring request computes, writes DST and residuals, and writes STATUS once. -/
  | collRequestComplete (gid : BitVec 32) (tag : BitVec 16) (seq : BitVec 32)
  /-- UL_PAUSE (R375). Writing ULCTL.PAUSE = 1 starts pausing an active module. -/
  | ulPause (d : DieId) (m : BitVec 4) (x : Sent)
  /-- UL_RETRAIN (R375). Writing ULCTL.RETRAIN = 1 on a paused module starts a retraining. -/
  | ulRetrain (d : DieId) (m : BitVec 4) (x : Sent)
  /-- UL_RESUME (R375). Writing ULCTL.PAUSE = 0 returns a paused module to active. -/
  | ulResume (d : DieId) (m : BitVec 4) (x : Sent)
  /-- UL_PAUSE_DONE (R375). Every sent flit is acknowledged and the module reaches STATE 4. -/
  | ulPauseDone (d : DieId) (m : BitVec 4)
  /-- UL_RETRAIN_DONE (R376). A retraining ends, succeeding with spared lanes or failing with RFAIL. -/
  | ulRetrainDone (d : DieId) (m : BitVec 4) (failT failR : Word)
  /-- UL_RETRY_THRESHOLD (R377). Retries crossing THR within a window set THX, log 0x303 and, under AUTO, start the hardware repair. -/
  | ulRetryThreshold (d : DieId) (m : BitVec 4)
  /-- UL_PACKET_FALLBACK (R378). A module out of STATE 2 for 50 us has its traffic moved to the packet network. -/
  | ulPacketFallback (d : DieId) (m : BitVec 4)
  /-- PORT_LANE_SPARE (R379). A packet-port lane crossing its error threshold is retrained onto the spare lane. -/
  | portLaneSpare (pkg : PkgId) (p : BitVec 3) (lane : BitVec 2)
  /-- PORT_DOWN (R379). A further lane failure with the spare in use takes the port down. -/
  | portDown (pkg : PkgId) (p : BitVec 3)
  /-- HOST_LINK_DOWN (R381). The PCIe host link goes down; host rings stop being polled and host accesses fail. -/
  | hostLinkDown (pkg : PkgId)
  /-- HOST_LINK_UP (R381). The host trains a new link; host rings stay disabled until registered again. -/
  | hostLinkUp (pkg : PkgId)
  /-- WAVELENGTH_FAIL (R382). A failed wavelength moves to its spare, or its traffic to the rest of the group or the packet network. -/
  | wavelengthFail (d : DieId) (g : BitVec 5) (w : BitVec 4)
  /-- WAVELENGTH_PARK (R383). A wavelength idle for IDLE us parks. -/
  | wavelengthPark (d : DieId) (g : BitVec 5) (w : BitVec 4)
  /-- WAVELENGTH_WAKE (R383). A parked wavelength wakes on queued flits, a failure or a PCNX need. -/
  | wavelengthWake (d : DieId) (g : BitVec 5) (w : BitVec 4)
  /-- CHANTER_WATCHDOG_EXPIRY (R384). The Chanter watchdog expires; settings hold and the Chanter reboots. -/
  | chanterWatchdogExpiry (d : DieId)
  /-- CHANTER_REBOOT (R384). The Chanter reboots, re-adopts its shadow state and logs 0x300. -/
  | chanterReboot (d : DieId)
  /-- HOST_REQUEST (R388). A host request through PCIe is checked only against the access tables and served or aborted. -/
  | hostRequest (pkg : PkgId) (kind : BitVec 2) (op : AmoOp) (a : HostAddr) (x y : List (BitVec 8))
  /-- ENDPOINT_REQUEST (R401). A base-die endpoint serves a read or whole-line write of its stack to an admitted master. -/
  | endpointRequest (die : DieId) (stack : BitVec 1) (by_ : DieId) (unit : BitVec 8) (asid : BitVec 9) (write : Bool) (ch : BitVec 5) (line : BitVec 25) (x : BitVec 512)
  /-- BURUP_LOCKSTEP_MISMATCH (R397). Burup's lockstep cores disagree and begin reloading their image. -/
  | burupLockstepMismatch (pkg : PkgId)
  /-- BURUP_RELOAD_COMPLETE (R397). Burup finishes reloading and replays its management journal. -/
  | burupReloadComplete (pkg : PkgId)
  /-- PATROL_SCRUB_LINE (R398). Patrol scrub checks and rewrites one line, under the next key during a rotation. -/
  | patrolScrubLine (die : DieId) (ch : BitVec 6) (line : BitVec 25) (found : BitVec 2)
  /-- KEY_ROTATION_START (R398). Burup loads key k + 1 and starts a rotation pass. -/
  | keyRotationStart (pkg : PkgId)
  /-- ROW_REPAIR (R400). A row with 3 corrected events in a pass is replaced by a spare row at its next refresh. -/
  | rowRepair (die : DieId) (ch bank : BitVec 6) (row : BitVec 17)
  /-- CHECKPOINT_START (R402). CKCTL START with RST 0 writes back the caches and streams every stack to the tier. -/
  | checkpointStart (pkg : PkgId) (x : Sent)
  /-- RESTORE_START (R402). CKCTL START with RST 1 invalidates the caches and streams an image back into the stacks. -/
  | restoreStart (pkg : PkgId) (x : Sent)
  /-- CKCTL_OPERATION_END (R402). A checkpoint or restore ends, with ERR on failure, and BUSY clears. -/
  | ckctlOperationEnd (pkg : PkgId) (served : Bool)
  /-- PACKAGE_RESET (R406). A package reset starts bring-up; memory is not preserved. -/
  | packageReset (pkg : PkgId)
  /-- BRINGUP_STEP (R406). A bring-up step completes and the next one begins. -/
  | bringupStep (pkg : PkgId)
  /-- GET_VERSION (R405). SPDM request answered by the root of trust over DOE. -/
  | getVersion (pkg : PkgId)
  /-- GET_CAPABILITIES (R405). SPDM request answered by the root of trust. -/
  | getCapabilities (pkg : PkgId)
  /-- NEGOTIATE_ALGORITHMS (R405). SPDM request answered with ECDSA P-521 and SHA-512 only. -/
  | negotiateAlgorithms (pkg : PkgId)
  /-- GET_DIGESTS (R405). SPDM request answered by the root of trust. -/
  | getDigests (pkg : PkgId)
  /-- GET_CERTIFICATE (R405). SPDM request answered with the device identity certificate chain. -/
  | getCertificate (pkg : PkgId)
  /-- CHALLENGE (R405). SPDM challenge answered by the root of trust. -/
  | challenge (pkg : PkgId)
  /-- GET_MEASUREMENTS (R405). SPDM request answered with the six SHA-512 measurements. -/
  | getMeasurements (pkg : PkgId)
  /-- ZONE_SENSOR_SAMPLE (R411). Every 1 ms a zone's sensors refresh and its coolant causes and halts are raised as their conditions begin. -/
  | zoneSensorSample (pkg : PkgId) (z : BitVec 8) (flow dp : BitVec 16) (temp : BitVec 8)
  /-- DRY_DETECT (R416). DRY asserts, and the zone is capped, emptied and its teams pre-empted. -/
  | dryDetect (pkg : PkgId) (z : BitVec 8)
  /-- DRY_CLEAR (R416). After DRY reads clear for 1 s and EV bit 4 is cleared, DRYZ returns to 0. -/
  | dryClear (pkg : PkgId) (z : BitVec 8)
  /-- ZONE_MOVE_COMPLETE (R412). A valve move ends, or a raised flow is met for 1 ms, and CLS takes the new class. -/
  | zoneMoveComplete (pkg : PkgId) (z : BitVec 8)
  /-- FLCAP_WRITE (R409). A CAP write sets the pool and, below USED, lowers zones until USED fits. -/
  | flcapWrite (pkg : PkgId) (x : Sent)
  /-- ZTHR_WRITE (R410). A ZTHR write is taken whole only if its thresholds are consistent. -/
  | zthrWrite (pkg : PkgId) (z : BitVec 8) (x : Sent)
  /-- ZST_EV_CLEAR (R411). A W1C write to ZST.EV re-arms a cause, raising it again if its condition holds. -/
  | zstEvClear (pkg : PkgId) (z : BitVec 8) (x : Sent)
  /-- FLOW_GRANT (R415). A pending heat-class raise is granted once its zone moves are done. -/
  | flowGrant (team : TeamId)
  /-- EVACUATION_START (R417). EVCTL START begins dry-channel evacuation, or is refused. -/
  | evacuationStart (a : Asked)
  /-- EVACUATION_PHASE_END (R417). An evacuation phase ends and the next begins, or PHASE 8 reports failure. -/
  | evacuationPhaseEnd (pkg : PkgId)
  /-- REGISTER_WRITE (R7). A write to a device register with no row of its own stores its RW fields and W1C bits. -/
  | registerWrite (d : DieId) (off : BitVec 44) (x : Sent)
  /-- ILLEGAL_INSTRUCTION (R52). A hart reaches a word that is not a legal instruction (all-zero, major 0x3F, unassigned major or function, nonzero reserved field) and traps with its decode cause. -/
  | illegalInstruction (w : BitVec 32)
  /-- FETCH_FAULT (R21). A fetch from a non-executable region, a page without X, or a lost die traps with 0x102 or 0x140 at the fetched address. -/
  | fetchFault
  /-- LINK_LEVEL_RETRY (R374). A UCIe flit error causes a link-level retry that advances ULRC.TOTAL and the worst-lane count. -/
  | linkLevelRetry (d : DieId) (m : BitVec 4) (dir : BitVec 1) (lane : BitVec 6)
  /-- LANE_ERROR_DETECTED (R379). A packet-port lane error is detected and PPST.ERR is incremented. -/
  | laneErrorDetected (pkg : PkgId) (p : BitVec 3)
  /-- PORT_RETRAIN_COMPLETE (R379). A packet-port retraining onto the spare lane ends, STATE returns to 2, held flits resume and 0x306 is logged. -/
  | portRetrainComplete (pkg : PkgId) (p : BitVec 3)
  deriving DecidableEq, Repr

end Sys2Proof
end

