-- ==== Sys2Proof/WellFormed.lean ====
section
/-! DEFINITION. Which terms of `Instr` are instruction words: the reserved values of R56 to R70 that the operand types
do not already exclude (tests 6 and 7 of R52, which depend on the word alone). -/

namespace Sys2Proof

/-- A field that names a predicate register holds 0 to 23 (R50). -/
def predOk (p : BitVec 5) : Bool := decide (p.toNat < 24)

/-- A governing predicate field holds 0 to 23, or 31 (R50). -/
def selOk (p : BitVec 5) : Bool := predOk p || p == 31

/-- A link-major operand names a link (R64). -/
def isLink (r : BitVec 5) : Bool := decide (24 ≤ r.toNat)

/-- A link-major operand names a vector register (R64). -/
def isVec (r : BitVec 5) : Bool := decide (r.toNat < 24)

/-- Two fields of one word do not name one link (R64). -/
def distinctLinks (x y : BitVec 5) : Bool := isVec x || x != y

/-- NP of `smine` is 0 to 4, and with NP at least 1 the pointers are `s1` to `s31` (R59). -/
def smineOk (a : BitVec 5) (n : BitVec 3) : Bool :=
  decide (n.toNat ≤ 4) && (n == 0 || (a != 0 && decide (a.toNat + n.toNat ≤ 32)))

/-- `n` - 1 fields of a segment form, `n` from 2 to 8 (R68). -/
def segOk (n : BitVec 5) : Bool := decide (1 ≤ n.toNat) && decide (n.toNat ≤ 7)

/-- A side of `fcvt` that is an integer. -/
def CvtTy.isInt : CvtTy → Bool
  | .i64 | .n64 => true
  | .f64 | .f32 | .bf16 | .f16 => false

/-- `fcvt` has two different types, not both integers (R60). -/
def cvtOk (dst src : CvtTy) : Bool := dst != src && !(dst.isInt && src.isInt)

/-- The instruction is one that a word can encode, or an event. -/
def Instr.wellFormed : Instr → Bool
  | .add _ _ _ => true
  | .sub _ _ _ => true
  | .mul _ _ _ => true
  | .mulh _ _ _ => true
  | .mulhn _ _ _ => true
  | .div _ _ _ => true
  | .divn _ _ _ => true
  | .rem _ _ _ => true
  | .remn _ _ _ => true
  | .and _ _ _ => true
  | .or _ _ _ => true
  | .xor _ _ _ => true
  | .andn _ _ _ => true
  | .shl _ _ _ => true
  | .shr _ _ _ => true
  | .sra _ _ _ => true
  | .rol _ _ _ => true
  | .slt _ _ _ => true
  | .sltn _ _ _ => true
  | .min _ _ _ => true
  | .max _ _ _ => true
  | .minn _ _ _ => true
  | .maxn _ _ _ => true
  | .clz _ _ => true
  | .ctz _ _ => true
  | .popc _ _ => true
  | .sext _ _ _ => true
  | .zext _ _ _ => true
  | .sel _ _ _ => true
  | .addi _ _ _ => true
  | .andi _ _ _ => true
  | .ori _ _ _ => true
  | .xori _ _ _ => true
  | .shli _ _ _ => true
  | .shri _ _ _ => true
  | .srai _ _ _ => true
  | .slti _ _ _ => true
  | .kset _ _ _ => true
  | .kins _ _ _ => true
  | .ld _ _ _ _ => true
  | .st _ _ _ _ => true
  | .amo _ _ _ _ _ => true
  | .cln _ => true
  | .inv _ => true
  | .beq _ _ _ => true
  | .bne _ _ _ => true
  | .blt _ _ _ => true
  | .bge _ _ _ => true
  | .bltn _ _ _ => true
  | .bgen _ _ _ => true
  | .jal _ _ => true
  | .jalr _ _ _ => true
  | .smine _ a n _ => smineOk a n
  | .zol _ _ => true
  | .fadd _ _ _ _ => true
  | .fsub _ _ _ _ => true
  | .fmul _ _ _ _ => true
  | .ffma _ _ _ _ => true
  | .fdiv _ _ _ _ => true
  | .fsqrt _ _ _ => true
  | .fmin _ _ _ _ => true
  | .fmax _ _ _ _ => true
  | .fcmp _ _ _ _ _ => true
  | .fcvt _ _ dst src => cvtOk dst src
  | .fmv _ _ _ => true
  | .csrr _ _ => true
  | .csrw _ _ => true
  | .csrs _ _ => true
  | .csrc _ _ => true
  | .sys _ => true
  | .bkpt _ => true
  | .eret => true
  | .wfi => true
  | .fence k _ => k != 0
  | .tick _ => true
  | .tlbiPage _ => true
  | .tlbiAsid _ => true
  | .tlbiAll _ => true
  | .ifl => true
  | .ctxsv _ => true
  | .ctxld _ => true
  | .flow _ _ => true
  | .setvl _ _ => true
  | .setvt _ _ => true
  | .settl d a => decide (d.toNat ≤ 29) && decide (a.toNat ≤ 29) && d != 0
  | .vadd _ _ _ p => selOk p
  | .vsub _ _ _ p => selOk p
  | .vmul _ _ _ p => selOk p
  | .vmulh _ _ _ p => selOk p
  | .vmulhn _ _ _ p => selOk p
  | .vmac _ _ _ p => selOk p
  | .vdiv _ _ _ p => selOk p
  | .vdivn _ _ _ p => selOk p
  | .vrem _ _ _ p => selOk p
  | .vremn _ _ _ p => selOk p
  | .vmin _ _ _ p => selOk p
  | .vminn _ _ _ p => selOk p
  | .vmax _ _ _ p => selOk p
  | .vmaxn _ _ _ p => selOk p
  | .vand _ _ _ p => selOk p
  | .vor _ _ _ p => selOk p
  | .vxor _ _ _ p => selOk p
  | .vandn _ _ _ p => selOk p
  | .vshl _ _ _ p => selOk p
  | .vshr _ _ _ p => selOk p
  | .vsra _ _ _ p => selOk p
  | .vadds _ _ _ p => selOk p
  | .vaddsn _ _ _ p => selOk p
  | .vsubs _ _ _ p => selOk p
  | .vsubsn _ _ _ p => selOk p
  | .vabs _ _ p => selOk p
  | .vneg _ _ p => selOk p
  | .vclz _ _ p => selOk p
  | .vpopc _ _ p => selOk p
  | .vcmpEq d _ _ p => predOk d && selOk p
  | .vcmpNe d _ _ p => predOk d && selOk p
  | .vcmpLt d _ _ p => predOk d && selOk p
  | .vcmpGe d _ _ p => predOk d && selOk p
  | .vcmpLtn d _ _ p => predOk d && selOk p
  | .vcmpGen d _ _ p => predOk d && selOk p
  | .vsel _ _ _ p => predOk p
  | .vaddLink d a b p => isVec d && distinctLinks a b && selOk p
  | .vsubLink d a b p => isVec d && distinctLinks a b && selOk p
  | .vmulLink d a b p => distinctLinks d a && distinctLinks d b && distinctLinks a b && selOk p
  | .vmulhLink d a b p => distinctLinks d a && distinctLinks d b && distinctLinks a b && selOk p
  | .vmulhnLink d a b p => distinctLinks d a && distinctLinks d b && distinctLinks a b && selOk p
  | .vmacLink d a b p => isVec d && distinctLinks a b && selOk p
  | .vdivLink d a b p => distinctLinks d a && distinctLinks d b && distinctLinks a b && selOk p
  | .vdivnLink d a b p => distinctLinks d a && distinctLinks d b && distinctLinks a b && selOk p
  | .vremLink d a b p => distinctLinks d a && distinctLinks d b && distinctLinks a b && selOk p
  | .vremnLink d a b p => distinctLinks d a && distinctLinks d b && distinctLinks a b && selOk p
  | .vminLink d a b p => isVec d && distinctLinks a b && selOk p
  | .vminnLink d a b p => isVec d && distinctLinks a b && selOk p
  | .vmaxLink d a b p => isVec d && distinctLinks a b && selOk p
  | .vmaxnLink d a b p => isVec d && distinctLinks a b && selOk p
  | .vandLink d a b p => isVec d && distinctLinks a b && selOk p
  | .vorLink d a b p => isVec d && distinctLinks a b && selOk p
  | .vxorLink d a b p => isVec d && distinctLinks a b && selOk p
  | .vandnLink d a b p => isVec d && distinctLinks a b && selOk p
  | .vshlLink d a b p => isVec d && distinctLinks a b && selOk p
  | .vshrLink d a b p => isVec d && distinctLinks a b && selOk p
  | .vsraLink d a b p => isVec d && distinctLinks a b && selOk p
  | .vaddsLink d a b p => isVec d && distinctLinks a b && selOk p
  | .vaddsnLink d a b p => isVec d && distinctLinks a b && selOk p
  | .vsubsLink d a b p => isVec d && distinctLinks a b && selOk p
  | .vsubsnLink d a b p => isVec d && distinctLinks a b && selOk p
  | .vabsLink d _ p => isVec d && selOk p
  | .vnegLink d _ p => isVec d && selOk p
  | .vclzLink d _ p => isVec d && selOk p
  | .vpopcLink d _ p => isVec d && selOk p
  | .vcmpEqLink d a b p => distinctLinks a b && predOk d && selOk p
  | .vcmpNeLink d a b p => distinctLinks a b && predOk d && selOk p
  | .vcmpLtLink d a b p => distinctLinks a b && predOk d && selOk p
  | .vcmpGeLink d a b p => distinctLinks a b && predOk d && selOk p
  | .vcmpLtnLink d a b p => distinctLinks a b && predOk d && selOk p
  | .vcmpGenLink d a b p => distinctLinks a b && predOk d && selOk p
  | .vselLink d a b p => isVec d && distinctLinks a b && predOk p
  | .vcmpEqK d a b p => distinctLinks a b && (isLink a || isLink b) && predOk d && selOk p
  | .vcmpNeK d a b p => distinctLinks a b && (isLink a || isLink b) && predOk d && selOk p
  | .vcmpLtK d a b p => distinctLinks a b && (isLink a || isLink b) && predOk d && selOk p
  | .vcmpGeK d a b p => distinctLinks a b && (isLink a || isLink b) && predOk d && selOk p
  | .vcmpLtnK d a b p => distinctLinks a b && (isLink a || isLink b) && predOk d && selOk p
  | .vcmpGenK d a b p => distinctLinks a b && (isLink a || isLink b) && predOk d && selOk p
  | .vminK d a b p => isVec d && distinctLinks a b && (isLink a || isLink b) && selOk p
  | .vminnK d a b p => isVec d && distinctLinks a b && (isLink a || isLink b) && selOk p
  | .vmaxK d a b p => isVec d && distinctLinks a b && (isLink a || isLink b) && selOk p
  | .vmaxnK d a b p => isVec d && distinctLinks a b && (isLink a || isLink b) && selOk p
  | .vfadd _ _ _ p => selOk p
  | .vfsub _ _ _ p => selOk p
  | .vfmul _ _ _ p => selOk p
  | .vffma _ _ _ p => selOk p
  | .vffms _ _ _ p => selOk p
  | .vfnma _ _ _ p => selOk p
  | .vfdiv _ _ _ p => selOk p
  | .vfsqrt _ _ p => selOk p
  | .vfrsqa _ _ p => selOk p
  | .vfrcpa _ _ p => selOk p
  | .vfexa _ _ p => selOk p
  | .vflga _ _ p => selOk p
  | .vfmin _ _ _ p => selOk p
  | .vfmax _ _ _ p => selOk p
  | .vfcmpEq d _ _ p => predOk d && selOk p
  | .vfcmpLt d _ _ p => predOk d && selOk p
  | .vfcmpLe d _ _ p => predOk d && selOk p
  | .vfcmpUn d _ _ p => predOk d && selOk p
  | .vfabs _ _ p => selOk p
  | .vfneg _ _ p => selOk p
  | .vfsgn _ _ _ p => selOk p
  | .vfcls _ _ p => selOk p
  | .vfaddLink d a b p => distinctLinks d a && distinctLinks d b && distinctLinks a b && selOk p
  | .vfsubLink d a b p => distinctLinks d a && distinctLinks d b && distinctLinks a b && selOk p
  | .vfmulLink d a b p => distinctLinks d a && distinctLinks d b && distinctLinks a b && selOk p
  | .vffmaLink d a b p => isVec d && distinctLinks a b && selOk p
  | .vffmsLink d a b p => isVec d && distinctLinks a b && selOk p
  | .vfnmaLink d a b p => isVec d && distinctLinks a b && selOk p
  | .vfdivLink d a b p => distinctLinks d a && distinctLinks d b && distinctLinks a b && selOk p
  | .vfsqrtLink d a p => distinctLinks d a && selOk p
  | .vfrsqaLink d a p => distinctLinks d a && selOk p
  | .vfrcpaLink d a p => distinctLinks d a && selOk p
  | .vfexaLink d a p => distinctLinks d a && selOk p
  | .vflgaLink d a p => distinctLinks d a && selOk p
  | .vfminLink d a b p => distinctLinks d a && distinctLinks d b && distinctLinks a b && selOk p
  | .vfmaxLink d a b p => distinctLinks d a && distinctLinks d b && distinctLinks a b && selOk p
  | .vfcmpEqLink d a b p => distinctLinks a b && predOk d && selOk p
  | .vfcmpLtLink d a b p => distinctLinks a b && predOk d && selOk p
  | .vfcmpLeLink d a b p => distinctLinks a b && predOk d && selOk p
  | .vfcmpUnLink d a b p => distinctLinks a b && predOk d && selOk p
  | .vfminK d a b p => isVec d && distinctLinks a b && (isLink a || isLink b) && selOk p
  | .vfmaxK d a b p => isVec d && distinctLinks a b && (isLink a || isLink b) && selOk p
  | .vfcmpEqK d a b p => distinctLinks a b && (isLink a || isLink b) && predOk d && selOk p
  | .vfcmpLtK d a b p => distinctLinks a b && (isLink a || isLink b) && predOk d && selOk p
  | .vfcmpLeK d a b p => distinctLinks a b && (isLink a || isLink b) && predOk d && selOk p
  | .vfcmpUnK d a b p => distinctLinks a b && (isLink a || isLink b) && predOk d && selOk p
  | .vcvtH _ _ b => selOk b.p
  | .vcvtD _ _ b => selOk b.p
  | .vcvtFi _ _ b => selOk b.p
  | .vcvtIf _ _ b => selOk b.p
  | .vcvtQ _ _ b => selOk b.p
  | .vcvtMx _ _ b => selOk b.p
  | .vdeq _ _ b => selOk b.p
  | .dlfl _ => true
  | .vslup _ _ _ p => selOk p
  | .vsldn _ _ _ p => selOk p
  | .vperm _ _ _ p => selOk p
  | .vcomp _ _ p => predOk p
  | .vexp _ _ p => predOk p
  | .vbc _ _ p => selOk p
  | .vid _ p => selOk p
  | .vmvs _ _ _ => true
  | .vmsv _ _ _ => true
  | .vrsum _ _ p => selOk p
  | .vrosum _ _ p => selOk p
  | .vrmin _ _ p => selOk p
  | .vrmax _ _ p => selOk p
  | .vrand _ _ p => selOk p
  | .vror _ _ p => selOk p
  | .vrxor _ _ p => selOk p
  | .vscan _ _ _ p => selOk p
  | .pand d a b => predOk d && predOk a && predOk b
  | .por d a b => predOk d && predOk a && predOk b
  | .pxor d a b => predOk d && predOk a && predOk b
  | .pandn d a b => predOk d && predOk a && predOk b
  | .pnot d a => predOk d && predOk a
  | .pset d _ => predOk d
  | .pffs _ a => predOk a
  | .pcnt _ a => predOk a
  | .pmvv d _ => predOk d
  | .vld _ _ p nb _ => (nb || selOk p)
  | .vlds _ _ _ p nb _ => (nb || selOk p)
  | .vldx _ _ _ p nb _ => (nb || selOk p)
  | .vldsg _ _ n p nb _ => segOk n && (nb || selOk p)
  | .vldff _ _ p _ => selOk p
  | .vprobe d _ _ p => predOk d && selOk p
  | .vst _ _ p nb _ => (nb || selOk p)
  | .vsts _ _ _ p nb _ => (nb || selOk p)
  | .vstx _ _ _ p nb _ => (nb || selOk p)
  | .vstsg _ _ n p nb _ => segOk n && (nb || selOk p)
  | .vstu _ _ p nb _ => (nb || selOk p)
  | .vstxu _ _ _ p nb _ => (nb || selOk p)
  | .vamo _ _ _ p nb _ _ => (nb || selOk p)
  | .bind _ _ _ => true
  | .unbind _ => true
  | .bndq _ _ => true
  | .rowpin _ _ => true
  | .rowrel _ => true
  | .rowq _ _ => true
  | .omcl _ => true
  | .omrl _ => true
  | .tld _ _ _ => true
  | .mma _ _ _ => true
  | .accx _ _ _ p => selOk p
  | .accxLink _ _ _ p => selOk p
  | .accz _ => true
  | .bar _ => true
  | .ipost _ _ => true
  | .iwait _ _ => true
  | .sacq _ _ _ => true
  | .srel _ _ _ => true
  | .stry _ _ _ _ => true
  | .qcnt _ _ => true
  | .qfl _ => true
  | .tsplit _ _ => true
  | .spawn _ _ => true
  | .exit => true
  | .yield => true
  | .cpy _ _ _ => true
  | .gsp _ _ _ p => selOk p
  | .shp _ _ => true
  | .enq _ _ => true
  | .deq _ _ => true
  | .dnode _ _ => true
  | .dgo _ => true
  | .fgo _ => true
  | .fwait => true
  | .cred _ _ _ p _ => selOk p
  | .call _ _ _ p _ => selOk p
  | .cgat _ _ _ p => selOk p
  | .csct _ _ _ p => selOk p
  | .cbc _ _ _ p => selOk p
  | .cgrp _ _ => true
  | .cgate _ => true
  | .rwin _ _ _ => true
  | .runmap _ => true
  | .elementGroupIssue _ => true
  | .urgentWordAging _ => true
  | .asyncTrapTake _ => true
  | .hartDeadlockDetect _ => true
  | .barrierMismatchDetect _ => true
  | .barrierRelease _ => true
  | .sacqWaitComplete _ => true
  | .ipostWaitComplete _ => true
  | .iwaitWaitComplete _ => true
  | .queueWaitComplete _ => true
  | .semaphoreRelease _ _ => true
  | .nbAccessPost _ _ => true
  | .slotClearComplete _ _ => true
  | .tileClearComplete _ _ => true
  | .ringPoll _ _ _ => true
  | .distributorChoice _ => true
  | .teamPlace _ _ => true
  | .tcmImageLoad _ => true
  | .teamStart _ => true
  | .teamComplete _ => true
  | .forcedPreemption _ => true
  | .teamPreemptComplete _ => true
  | .gangStartProposal _ => true
  | .gangStartReply _ _ => true
  | .gangStartRetry _ => true
  | .rtinvPage _ _ => true
  | .rtinvAsid _ _ => true
  | .rtinvAll _ _ => true
  | .leaseBounce _ _ => true
  | .stripReadAhead _ _ => true
  | .fifeWord _ => true
  | .cpyqPush _ _ _ => true
  | .dgqPush _ _ _ => true
  | .cresPop _ => true
  | .qpPush _ _ _ => true
  | .qpPop _ _ => true
  | .qceChunk _ => true
  | .copyComplete _ => true
  | .softError _ _ => true
  | .partFailure _ _ => true
  | .powerLimitApplied _ => true
  | .dernyRead _ => true
  | .dernyWrite _ => true
  | .dernyAtomic _ => true
  | .dernyReadResponse _ => true
  | .dernyWriteResponse _ => true
  | .dernyAck _ => true
  | .dernyNack _ => true
  | .dernyCredit _ => true
  | .dernyTimeLaunch _ => true
  | .dernyManagement _ => true
  | .flitResendTimeout _ _ _ => true
  | .pcnxWrite _ _ _ => true
  | .podBankReady _ => true
  | .pcswWrite _ _ => true
  | .podStepSwitch _ => true
  | .packageRemovalRecognised _ _ => true
  | .packageResponseTimeout _ _ => true
  | .collectiveInstanceComplete _ => true
  | .collRingPoll _ _ _ => true
  | .collRequestComplete _ _ _ => true
  | .ulPause _ _ _ => true
  | .ulRetrain _ _ _ => true
  | .ulResume _ _ _ => true
  | .ulPauseDone _ _ => true
  | .ulRetrainDone _ _ _ _ => true
  | .ulRetryThreshold _ _ => true
  | .ulPacketFallback _ _ => true
  | .portLaneSpare _ _ _ => true
  | .portDown _ _ => true
  | .hostLinkDown _ => true
  | .hostLinkUp _ => true
  | .wavelengthFail _ _ _ => true
  | .wavelengthPark _ _ _ => true
  | .wavelengthWake _ _ _ => true
  | .chanterWatchdogExpiry _ => true
  | .chanterReboot _ => true
  | .hostRequest _ _ _ _ _ _ => true
  | .endpointRequest _ _ _ _ _ _ _ _ _ => true
  | .burupLockstepMismatch _ => true
  | .burupReloadComplete _ => true
  | .patrolScrubLine _ _ _ _ => true
  | .keyRotationStart _ => true
  | .rowRepair _ _ _ _ => true
  | .checkpointStart _ _ => true
  | .restoreStart _ _ => true
  | .ckctlOperationEnd _ _ => true
  | .packageReset _ => true
  | .bringupStep _ => true
  | .getVersion _ => true
  | .getCapabilities _ => true
  | .negotiateAlgorithms _ => true
  | .getDigests _ => true
  | .getCertificate _ => true
  | .challenge _ => true
  | .getMeasurements _ => true
  | .zoneSensorSample _ _ _ _ _ => true
  | .dryDetect _ _ => true
  | .dryClear _ _ => true
  | .zoneMoveComplete _ _ => true
  | .flcapWrite _ _ => true
  | .zthrWrite _ _ _ => true
  | .zstEvClear _ _ _ => true
  | .flowGrant _ => true
  | .evacuationStart _ => true
  | .evacuationPhaseEnd _ => true
  | .registerWrite _ _ _ => true
  | .illegalInstruction _ => true
  | .fetchFault => true
  | .linkLevelRetry _ _ _ _ => true
  | .laneErrorDetected _ _ => true
  | .portRetrainComplete _ _ => true

/-- The instruction has an encoding: it is a word, not an event. -/
def Instr.isWord : Instr → Bool
  | .add _ _ _ => true
  | .sub _ _ _ => true
  | .mul _ _ _ => true
  | .mulh _ _ _ => true
  | .mulhn _ _ _ => true
  | .div _ _ _ => true
  | .divn _ _ _ => true
  | .rem _ _ _ => true
  | .remn _ _ _ => true
  | .and _ _ _ => true
  | .or _ _ _ => true
  | .xor _ _ _ => true
  | .andn _ _ _ => true
  | .shl _ _ _ => true
  | .shr _ _ _ => true
  | .sra _ _ _ => true
  | .rol _ _ _ => true
  | .slt _ _ _ => true
  | .sltn _ _ _ => true
  | .min _ _ _ => true
  | .max _ _ _ => true
  | .minn _ _ _ => true
  | .maxn _ _ _ => true
  | .clz _ _ => true
  | .ctz _ _ => true
  | .popc _ _ => true
  | .sext _ _ _ => true
  | .zext _ _ _ => true
  | .sel _ _ _ => true
  | .addi _ _ _ => true
  | .andi _ _ _ => true
  | .ori _ _ _ => true
  | .xori _ _ _ => true
  | .shli _ _ _ => true
  | .shri _ _ _ => true
  | .srai _ _ _ => true
  | .slti _ _ _ => true
  | .kset _ _ _ => true
  | .kins _ _ _ => true
  | .ld _ _ _ _ => true
  | .st _ _ _ _ => true
  | .amo _ _ _ _ _ => true
  | .cln _ => true
  | .inv _ => true
  | .beq _ _ _ => true
  | .bne _ _ _ => true
  | .blt _ _ _ => true
  | .bge _ _ _ => true
  | .bltn _ _ _ => true
  | .bgen _ _ _ => true
  | .jal _ _ => true
  | .jalr _ _ _ => true
  | .smine _ _ _ _ => true
  | .zol _ _ => true
  | .fadd _ _ _ _ => true
  | .fsub _ _ _ _ => true
  | .fmul _ _ _ _ => true
  | .ffma _ _ _ _ => true
  | .fdiv _ _ _ _ => true
  | .fsqrt _ _ _ => true
  | .fmin _ _ _ _ => true
  | .fmax _ _ _ _ => true
  | .fcmp _ _ _ _ _ => true
  | .fcvt _ _ _ _ => true
  | .fmv _ _ _ => true
  | .csrr _ _ => true
  | .csrw _ _ => true
  | .csrs _ _ => true
  | .csrc _ _ => true
  | .sys _ => true
  | .bkpt _ => true
  | .eret => true
  | .wfi => true
  | .fence _ _ => true
  | .tick _ => true
  | .tlbiPage _ => true
  | .tlbiAsid _ => true
  | .tlbiAll _ => true
  | .ifl => true
  | .ctxsv _ => true
  | .ctxld _ => true
  | .flow _ _ => true
  | .setvl _ _ => true
  | .setvt _ _ => true
  | .settl _ _ => true
  | .vadd _ _ _ _ => true
  | .vsub _ _ _ _ => true
  | .vmul _ _ _ _ => true
  | .vmulh _ _ _ _ => true
  | .vmulhn _ _ _ _ => true
  | .vmac _ _ _ _ => true
  | .vdiv _ _ _ _ => true
  | .vdivn _ _ _ _ => true
  | .vrem _ _ _ _ => true
  | .vremn _ _ _ _ => true
  | .vmin _ _ _ _ => true
  | .vminn _ _ _ _ => true
  | .vmax _ _ _ _ => true
  | .vmaxn _ _ _ _ => true
  | .vand _ _ _ _ => true
  | .vor _ _ _ _ => true
  | .vxor _ _ _ _ => true
  | .vandn _ _ _ _ => true
  | .vshl _ _ _ _ => true
  | .vshr _ _ _ _ => true
  | .vsra _ _ _ _ => true
  | .vadds _ _ _ _ => true
  | .vaddsn _ _ _ _ => true
  | .vsubs _ _ _ _ => true
  | .vsubsn _ _ _ _ => true
  | .vabs _ _ _ => true
  | .vneg _ _ _ => true
  | .vclz _ _ _ => true
  | .vpopc _ _ _ => true
  | .vcmpEq _ _ _ _ => true
  | .vcmpNe _ _ _ _ => true
  | .vcmpLt _ _ _ _ => true
  | .vcmpGe _ _ _ _ => true
  | .vcmpLtn _ _ _ _ => true
  | .vcmpGen _ _ _ _ => true
  | .vsel _ _ _ _ => true
  | .vaddLink _ _ _ _ => true
  | .vsubLink _ _ _ _ => true
  | .vmulLink _ _ _ _ => true
  | .vmulhLink _ _ _ _ => true
  | .vmulhnLink _ _ _ _ => true
  | .vmacLink _ _ _ _ => true
  | .vdivLink _ _ _ _ => true
  | .vdivnLink _ _ _ _ => true
  | .vremLink _ _ _ _ => true
  | .vremnLink _ _ _ _ => true
  | .vminLink _ _ _ _ => true
  | .vminnLink _ _ _ _ => true
  | .vmaxLink _ _ _ _ => true
  | .vmaxnLink _ _ _ _ => true
  | .vandLink _ _ _ _ => true
  | .vorLink _ _ _ _ => true
  | .vxorLink _ _ _ _ => true
  | .vandnLink _ _ _ _ => true
  | .vshlLink _ _ _ _ => true
  | .vshrLink _ _ _ _ => true
  | .vsraLink _ _ _ _ => true
  | .vaddsLink _ _ _ _ => true
  | .vaddsnLink _ _ _ _ => true
  | .vsubsLink _ _ _ _ => true
  | .vsubsnLink _ _ _ _ => true
  | .vabsLink _ _ _ => true
  | .vnegLink _ _ _ => true
  | .vclzLink _ _ _ => true
  | .vpopcLink _ _ _ => true
  | .vcmpEqLink _ _ _ _ => true
  | .vcmpNeLink _ _ _ _ => true
  | .vcmpLtLink _ _ _ _ => true
  | .vcmpGeLink _ _ _ _ => true
  | .vcmpLtnLink _ _ _ _ => true
  | .vcmpGenLink _ _ _ _ => true
  | .vselLink _ _ _ _ => true
  | .vcmpEqK _ _ _ _ => true
  | .vcmpNeK _ _ _ _ => true
  | .vcmpLtK _ _ _ _ => true
  | .vcmpGeK _ _ _ _ => true
  | .vcmpLtnK _ _ _ _ => true
  | .vcmpGenK _ _ _ _ => true
  | .vminK _ _ _ _ => true
  | .vminnK _ _ _ _ => true
  | .vmaxK _ _ _ _ => true
  | .vmaxnK _ _ _ _ => true
  | .vfadd _ _ _ _ => true
  | .vfsub _ _ _ _ => true
  | .vfmul _ _ _ _ => true
  | .vffma _ _ _ _ => true
  | .vffms _ _ _ _ => true
  | .vfnma _ _ _ _ => true
  | .vfdiv _ _ _ _ => true
  | .vfsqrt _ _ _ => true
  | .vfrsqa _ _ _ => true
  | .vfrcpa _ _ _ => true
  | .vfexa _ _ _ => true
  | .vflga _ _ _ => true
  | .vfmin _ _ _ _ => true
  | .vfmax _ _ _ _ => true
  | .vfcmpEq _ _ _ _ => true
  | .vfcmpLt _ _ _ _ => true
  | .vfcmpLe _ _ _ _ => true
  | .vfcmpUn _ _ _ _ => true
  | .vfabs _ _ _ => true
  | .vfneg _ _ _ => true
  | .vfsgn _ _ _ _ => true
  | .vfcls _ _ _ => true
  | .vfaddLink _ _ _ _ => true
  | .vfsubLink _ _ _ _ => true
  | .vfmulLink _ _ _ _ => true
  | .vffmaLink _ _ _ _ => true
  | .vffmsLink _ _ _ _ => true
  | .vfnmaLink _ _ _ _ => true
  | .vfdivLink _ _ _ _ => true
  | .vfsqrtLink _ _ _ => true
  | .vfrsqaLink _ _ _ => true
  | .vfrcpaLink _ _ _ => true
  | .vfexaLink _ _ _ => true
  | .vflgaLink _ _ _ => true
  | .vfminLink _ _ _ _ => true
  | .vfmaxLink _ _ _ _ => true
  | .vfcmpEqLink _ _ _ _ => true
  | .vfcmpLtLink _ _ _ _ => true
  | .vfcmpLeLink _ _ _ _ => true
  | .vfcmpUnLink _ _ _ _ => true
  | .vfminK _ _ _ _ => true
  | .vfmaxK _ _ _ _ => true
  | .vfcmpEqK _ _ _ _ => true
  | .vfcmpLtK _ _ _ _ => true
  | .vfcmpLeK _ _ _ _ => true
  | .vfcmpUnK _ _ _ _ => true
  | .vcvtH _ _ _ => true
  | .vcvtD _ _ _ => true
  | .vcvtFi _ _ _ => true
  | .vcvtIf _ _ _ => true
  | .vcvtQ _ _ _ => true
  | .vcvtMx _ _ _ => true
  | .vdeq _ _ _ => true
  | .dlfl _ => true
  | .vslup _ _ _ _ => true
  | .vsldn _ _ _ _ => true
  | .vperm _ _ _ _ => true
  | .vcomp _ _ _ => true
  | .vexp _ _ _ => true
  | .vbc _ _ _ => true
  | .vid _ _ => true
  | .vmvs _ _ _ => true
  | .vmsv _ _ _ => true
  | .vrsum _ _ _ => true
  | .vrosum _ _ _ => true
  | .vrmin _ _ _ => true
  | .vrmax _ _ _ => true
  | .vrand _ _ _ => true
  | .vror _ _ _ => true
  | .vrxor _ _ _ => true
  | .vscan _ _ _ _ => true
  | .pand _ _ _ => true
  | .por _ _ _ => true
  | .pxor _ _ _ => true
  | .pandn _ _ _ => true
  | .pnot _ _ => true
  | .pset _ _ => true
  | .pffs _ _ => true
  | .pcnt _ _ => true
  | .pmvv _ _ => true
  | .vld _ _ _ _ _ => true
  | .vlds _ _ _ _ _ _ => true
  | .vldx _ _ _ _ _ _ => true
  | .vldsg _ _ _ _ _ _ => true
  | .vldff _ _ _ _ => true
  | .vprobe _ _ _ _ => true
  | .vst _ _ _ _ _ => true
  | .vsts _ _ _ _ _ _ => true
  | .vstx _ _ _ _ _ _ => true
  | .vstsg _ _ _ _ _ _ => true
  | .vstu _ _ _ _ _ => true
  | .vstxu _ _ _ _ _ _ => true
  | .vamo _ _ _ _ _ _ _ => true
  | .bind _ _ _ => true
  | .unbind _ => true
  | .bndq _ _ => true
  | .rowpin _ _ => true
  | .rowrel _ => true
  | .rowq _ _ => true
  | .omcl _ => true
  | .omrl _ => true
  | .tld _ _ _ => true
  | .mma _ _ _ => true
  | .accx _ _ _ _ => true
  | .accxLink _ _ _ _ => true
  | .accz _ => true
  | .bar _ => true
  | .ipost _ _ => true
  | .iwait _ _ => true
  | .sacq _ _ _ => true
  | .srel _ _ _ => true
  | .stry _ _ _ _ => true
  | .qcnt _ _ => true
  | .qfl _ => true
  | .tsplit _ _ => true
  | .spawn _ _ => true
  | .exit => true
  | .yield => true
  | .cpy _ _ _ => true
  | .gsp _ _ _ _ => true
  | .shp _ _ => true
  | .enq _ _ => true
  | .deq _ _ => true
  | .dnode _ _ => true
  | .dgo _ => true
  | .fgo _ => true
  | .fwait => true
  | .cred _ _ _ _ _ => true
  | .call _ _ _ _ _ => true
  | .cgat _ _ _ _ => true
  | .csct _ _ _ _ => true
  | .cbc _ _ _ _ => true
  | .cgrp _ _ => true
  | .cgate _ => true
  | .rwin _ _ _ => true
  | .runmap _ => true
  | .elementGroupIssue _ => false
  | .urgentWordAging _ => false
  | .asyncTrapTake _ => false
  | .hartDeadlockDetect _ => false
  | .barrierMismatchDetect _ => false
  | .barrierRelease _ => false
  | .sacqWaitComplete _ => false
  | .ipostWaitComplete _ => false
  | .iwaitWaitComplete _ => false
  | .queueWaitComplete _ => false
  | .semaphoreRelease _ _ => false
  | .nbAccessPost _ _ => false
  | .slotClearComplete _ _ => false
  | .tileClearComplete _ _ => false
  | .ringPoll _ _ _ => false
  | .distributorChoice _ => false
  | .teamPlace _ _ => false
  | .tcmImageLoad _ => false
  | .teamStart _ => false
  | .teamComplete _ => false
  | .forcedPreemption _ => false
  | .teamPreemptComplete _ => false
  | .gangStartProposal _ => false
  | .gangStartReply _ _ => false
  | .gangStartRetry _ => false
  | .rtinvPage _ _ => false
  | .rtinvAsid _ _ => false
  | .rtinvAll _ _ => false
  | .leaseBounce _ _ => false
  | .stripReadAhead _ _ => false
  | .fifeWord _ => false
  | .cpyqPush _ _ _ => false
  | .dgqPush _ _ _ => false
  | .cresPop _ => false
  | .qpPush _ _ _ => false
  | .qpPop _ _ => false
  | .qceChunk _ => false
  | .copyComplete _ => false
  | .softError _ _ => false
  | .partFailure _ _ => false
  | .powerLimitApplied _ => false
  | .dernyRead _ => false
  | .dernyWrite _ => false
  | .dernyAtomic _ => false
  | .dernyReadResponse _ => false
  | .dernyWriteResponse _ => false
  | .dernyAck _ => false
  | .dernyNack _ => false
  | .dernyCredit _ => false
  | .dernyTimeLaunch _ => false
  | .dernyManagement _ => false
  | .flitResendTimeout _ _ _ => false
  | .pcnxWrite _ _ _ => false
  | .podBankReady _ => false
  | .pcswWrite _ _ => false
  | .podStepSwitch _ => false
  | .packageRemovalRecognised _ _ => false
  | .packageResponseTimeout _ _ => false
  | .collectiveInstanceComplete _ => false
  | .collRingPoll _ _ _ => false
  | .collRequestComplete _ _ _ => false
  | .ulPause _ _ _ => false
  | .ulRetrain _ _ _ => false
  | .ulResume _ _ _ => false
  | .ulPauseDone _ _ => false
  | .ulRetrainDone _ _ _ _ => false
  | .ulRetryThreshold _ _ => false
  | .ulPacketFallback _ _ => false
  | .portLaneSpare _ _ _ => false
  | .portDown _ _ => false
  | .hostLinkDown _ => false
  | .hostLinkUp _ => false
  | .wavelengthFail _ _ _ => false
  | .wavelengthPark _ _ _ => false
  | .wavelengthWake _ _ _ => false
  | .chanterWatchdogExpiry _ => false
  | .chanterReboot _ => false
  | .hostRequest _ _ _ _ _ _ => false
  | .endpointRequest _ _ _ _ _ _ _ _ _ => false
  | .burupLockstepMismatch _ => false
  | .burupReloadComplete _ => false
  | .patrolScrubLine _ _ _ _ => false
  | .keyRotationStart _ => false
  | .rowRepair _ _ _ _ => false
  | .checkpointStart _ _ => false
  | .restoreStart _ _ => false
  | .ckctlOperationEnd _ _ => false
  | .packageReset _ => false
  | .bringupStep _ => false
  | .getVersion _ => false
  | .getCapabilities _ => false
  | .negotiateAlgorithms _ => false
  | .getDigests _ => false
  | .getCertificate _ => false
  | .challenge _ => false
  | .getMeasurements _ => false
  | .zoneSensorSample _ _ _ _ _ => false
  | .dryDetect _ _ => false
  | .dryClear _ _ => false
  | .zoneMoveComplete _ _ => false
  | .flcapWrite _ _ => false
  | .zthrWrite _ _ _ => false
  | .zstEvClear _ _ _ => false
  | .flowGrant _ => false
  | .evacuationStart _ => false
  | .evacuationPhaseEnd _ => false
  | .registerWrite _ _ _ => false
  | .illegalInstruction _ => false
  | .fetchFault => false
  | .linkLevelRetry _ _ _ _ => false
  | .laneErrorDetected _ _ => false
  | .portRetrainComplete _ _ => false

end Sys2Proof
end

