-- ==== Sys2Proof/Decode.lean ====
section
/-! DEFINITION. Instruction words (R49 to R70): the layouts, the decoder, which rejects by the tests 1 to 7 of R52 in
their order, and the encoder, written from the same tables. `decode` is noncomputable only
because Lean's runtime cannot build a constructor whose number is above 244; the kernel evaluates every definition. -/

namespace Sys2Proof

/-- Why a word is no instruction: tests 1 to 7 of R52, in their order. -/
inductive Reject where
  | allZeroWord | permanentlyIllegal | unassignedMajor | unassignedFunction
  | reservedField | reservedValue | reservedPredicate
  deriving DecidableEq, Repr

/-- What a word is: an instruction, or no instruction and the test it fails. -/
inductive Decoded where
  | ok (i : Instr)
  | error (r : Reject)
  deriving DecidableEq, Repr

/-- The cause a rejected word traps with (R52). -/
def Reject.cause : Reject → BitVec 10
  | .allZeroWord => 0x000
  | .permanentlyIllegal => 0x001
  | .unassignedMajor => 0x002
  | .unassignedFunction => 0x003
  | .reservedField => 0x004
  | .reservedValue => 0x005
  | .reservedPredicate => 0x006

/-! ### Layouts (R49) -/

/-- Major opcode, [31:26]. -/
def majorOf (w : BitVec 32) : BitVec 6 := w.extractLsb' 26 6
/-- D, [25:21]. -/
def fieldD (w : BitVec 32) : BitVec 5 := w.extractLsb' 21 5
/-- A, [20:16]. -/
def fieldA (w : BitVec 32) : BitVec 5 := w.extractLsb' 16 5
/-- B, [15:11]. -/
def fieldB (w : BitVec 32) : BitVec 5 := w.extractLsb' 11 5
/-- P, [10:6]. -/
def fieldP (w : BitVec 32) : BitVec 5 := w.extractLsb' 6 5
/-- F6, [5:0]. -/
def fieldF6 (w : BitVec 32) : BitVec 6 := w.extractLsb' 0 6
/-- F11, [10:0]. -/
def fieldF11 (w : BitVec 32) : BitVec 11 := w.extractLsb' 0 11
/-- imm16, [15:0]. -/
def fieldImm16 (w : BitVec 32) : BitVec 16 := w.extractLsb' 0 16
/-- imm10 of the sync layout, [15:6]. -/
def fieldImm10 (w : BitVec 32) : BitVec 10 := w.extractLsb' 6 10
/-- SZ or CN, [15:13]. -/
def fieldZ (w : BitVec 32) : BitVec 3 := w.extractLsb' 13 3
/-- off13, [12:0]. -/
def fieldOff13 (w : BitVec 32) : BitVec 13 := w.extractLsb' 0 13
/-- off21, [20:0]. -/
def fieldOff21 (w : BitVec 32) : BitVec 21 := w.extractLsb' 0 21

/-- Register layout, and loop. -/
def encReg (m : BitVec 6) (d a b : BitVec 5) (f : BitVec 11) : BitVec 32 := m ++ d ++ a ++ b ++ f
/-- Immediate layout, and system with F5 where A stands. -/
def encImm (m : BitVec 6) (d a : BitVec 5) (i : BitVec 16) : BitVec 32 := m ++ d ++ a ++ i
/-- Memory and compare layouts. -/
def encMem (m : BitVec 6) (d a : BitVec 5) (z : BitVec 3) (o : BitVec 13) : BitVec 32 := m ++ d ++ a ++ z ++ o
/-- Jump layout. -/
def encJump (m : BitVec 6) (d : BitVec 5) (o : BitVec 21) : BitVec 32 := m ++ d ++ o
/-- Vector layout. -/
def encVec (m : BitVec 6) (d a b p : BitVec 5) (f : BitVec 6) : BitVec 32 := m ++ d ++ a ++ b ++ p ++ f
/-- Sync layout. -/
def encSync (m : BitVec 6) (d a : BitVec 5) (i : BitVec 10) (f : BitVec 6) : BitVec 32 := m ++ d ++ a ++ i ++ f

/-! ### Codes of the small fields -/

/-- The code of a `ExtW` in its field. -/
def ExtW.toBits : ExtW → BitVec 5
  | .w8 => 0
  | .w16 => 1
  | .w32 => 2

/-- The `ExtW` of a field; the codes it lacks are reserved values. -/
def ExtW.ofBits (b : BitVec 5) : Option ExtW :=
  match b.toNat with
  | 0 => some .w8
  | 1 => some .w16
  | 2 => some .w32
  | _ => none

/-- The code of a `LdTy` in its field. -/
def LdTy.toBits : LdTy → BitVec 3
  | .i8 => 0
  | .i16 => 1
  | .i32 => 2
  | .i64 => 3
  | .n8 => 4
  | .n16 => 5
  | .n32 => 6

/-- The `LdTy` of a field; the codes it lacks are reserved values. -/
def LdTy.ofBits (b : BitVec 3) : Option LdTy :=
  match b.toNat with
  | 0 => some .i8
  | 1 => some .i16
  | 2 => some .i32
  | 3 => some .i64
  | 4 => some .n8
  | 5 => some .n16
  | 6 => some .n32
  | _ => none

/-- The code of a `StW` in its field. -/
def StW.toBits : StW → BitVec 3
  | .w8 => 0
  | .w16 => 1
  | .w32 => 2
  | .w64 => 3

/-- The `StW` of a field; the codes it lacks are reserved values. -/
def StW.ofBits (b : BitVec 3) : Option StW :=
  match b.toNat with
  | 0 => some .w8
  | 1 => some .w16
  | 2 => some .w32
  | 3 => some .w64
  | _ => none

/-- The code of a `AmoTy` in its field. -/
def AmoTy.toBits : AmoTy → BitVec 2
  | .i32 => 0
  | .i64 => 1
  | .n32 => 2
  | .n64 => 3

/-- The `AmoTy` of a field; the codes it lacks are reserved values. -/
def AmoTy.ofBits (b : BitVec 2) : Option AmoTy :=
  match b.toNat with
  | 0 => some .i32
  | 1 => some .i64
  | 2 => some .n32
  | 3 => some .n64
  | _ => none

/-- The code of a `AmoOp` in its field. -/
def AmoOp.toBits : AmoOp → BitVec 4
  | .add => 0
  | .and => 1
  | .or => 2
  | .xor => 3
  | .min => 4
  | .max => 5
  | .swap => 6
  | .cas => 7

/-- The `AmoOp` of a field; the codes it lacks are reserved values. -/
def AmoOp.ofBits (b : BitVec 4) : Option AmoOp :=
  match b.toNat with
  | 0 => some .add
  | 1 => some .and
  | 2 => some .or
  | 3 => some .xor
  | 4 => some .min
  | 5 => some .max
  | 6 => some .swap
  | 7 => some .cas
  | _ => none

/-- The code of a `FFmt` in its field. -/
def FFmt.toBits : FFmt → BitVec 3
  | .f64 => 0
  | .f32 => 1
  | .bf16 => 2
  | .f16 => 3

/-- The `FFmt` of a field; the codes it lacks are reserved values. -/
def FFmt.ofBits (b : BitVec 3) : Option FFmt :=
  match b.toNat with
  | 0 => some .f64
  | 1 => some .f32
  | 2 => some .bf16
  | 3 => some .f16
  | _ => none

/-- The code of a `FRel` in its field. -/
def FRel.toBits : FRel → BitVec 4
  | .eq => 0
  | .lt => 1
  | .le => 2
  | .un => 3

/-- The `FRel` of a field; the codes it lacks are reserved values. -/
def FRel.ofBits (b : BitVec 4) : Option FRel :=
  match b.toNat with
  | 0 => some .eq
  | 1 => some .lt
  | 2 => some .le
  | 3 => some .un
  | _ => none

/-- The code of a `CvtTy` in its field. -/
def CvtTy.toBits : CvtTy → BitVec 4
  | .f64 => 0
  | .f32 => 1
  | .bf16 => 2
  | .f16 => 3
  | .i64 => 4
  | .n64 => 5

/-- The `CvtTy` of a field; the codes it lacks are reserved values. -/
def CvtTy.ofBits (b : BitVec 4) : Option CvtTy :=
  match b.toNat with
  | 0 => some .f64
  | 1 => some .f32
  | 2 => some .bf16
  | 3 => some .f16
  | 4 => some .i64
  | 5 => some .n64
  | _ => none

/-- The code of a `Format` in its field. -/
def Format.toBits : Format → BitVec 5
  | .i => 0
  | .n => 1
  | .f64 => 2
  | .f32 => 3
  | .bf16 => 4
  | .f16 => 5
  | .e4m3 => 6
  | .e5m2 => 7
  | .mxfp8 => 8
  | .mxfp6 => 9
  | .mxfp4 => 10
  | .ox4 => 11
  | .e2m1 => 12

/-- The `Format` of a field; the codes it lacks are reserved values. -/
def Format.ofBits (b : BitVec 5) : Option Format :=
  match b.toNat with
  | 0 => some .i
  | 1 => some .n
  | 2 => some .f64
  | 3 => some .f32
  | 4 => some .bf16
  | 5 => some .f16
  | 6 => some .e4m3
  | 7 => some .e5m2
  | 8 => some .mxfp8
  | 9 => some .mxfp6
  | 10 => some .mxfp4
  | 11 => some .ox4
  | 12 => some .e2m1
  | _ => none

/-- The code of a `Scope` in its field. -/
def Scope.toBits : Scope → BitVec 3
  | .lane => 0
  | .core => 1
  | .quad => 2
  | .die => 3
  | .pkg => 4
  | .pod => 5

/-- The `Scope` of a field; the codes it lacks are reserved values. -/
def Scope.ofBits (b : BitVec 3) : Option Scope :=
  match b.toNat with
  | 0 => some .lane
  | 1 => some .core
  | 2 => some .quad
  | 3 => some .die
  | 4 => some .pkg
  | 5 => some .pod
  | _ => none

/-- The code of a `Path` in its field. -/
def Path.toBits : Path → BitVec 2
  | .thr => 0
  | .pkt => 1
  | .ckt => 2

/-- The `Path` of a field; the codes it lacks are reserved values. -/
def Path.ofBits (b : BitVec 2) : Option Path :=
  match b.toNat with
  | 0 => some .thr
  | 1 => some .pkt
  | 2 => some .ckt
  | _ => none

/-- The code of a `VamoOp` in its field. -/
def VamoOp.toBits : VamoOp → BitVec 3
  | .add => 0
  | .min => 1
  | .max => 2
  | .and => 3
  | .or => 4
  | .xor => 5
  | .swap => 6
  | .fadd => 7

/-- The `VamoOp` of a field; the codes it lacks are reserved values. -/
def VamoOp.ofBits (b : BitVec 3) : Option VamoOp :=
  match b.toNat with
  | 0 => some .add
  | 1 => some .min
  | 2 => some .max
  | 3 => some .and
  | 4 => some .or
  | 5 => some .xor
  | 6 => some .swap
  | 7 => some .fadd
  | _ => none

/-- The code of a `CollOp` in its field. -/
def CollOp.toBits : CollOp → BitVec 3
  | .sum => 0
  | .prod => 1
  | .min => 2
  | .max => 3
  | .and => 4
  | .or => 5
  | .xor => 6

/-- The `CollOp` of a field; the codes it lacks are reserved values. -/
def CollOp.ofBits (b : BitVec 3) : Option CollOp :=
  match b.toNat with
  | 0 => some .sum
  | 1 => some .prod
  | 2 => some .min
  | 3 => some .max
  | 4 => some .and
  | 5 => some .or
  | 6 => some .xor
  | _ => none

/-- The code of a `ScanOp` in its field. -/
def ScanOp.toBits : ScanOp → BitVec 5
  | .add => 0
  | .min => 1
  | .max => 2
  | .and => 3
  | .or => 4
  | .xor => 5

/-- The `ScanOp` of a field; the codes it lacks are reserved values. -/
def ScanOp.ofBits (b : BitVec 5) : Option ScanOp :=
  match b.toNat with
  | 0 => some .add
  | 1 => some .min
  | 2 => some .max
  | 3 => some .and
  | 4 => some .or
  | 5 => some .xor
  | _ => none

/-- The number of a CSR (R12 and the chapters that define the others). -/
def Csr.num : Csr → BitVec 16
  | .vl => 0x0001
  | .vty => 0x0002
  | .vix => 0x0003
  | .fcsr => 0x0004
  | .xlm => 0x0005
  | .rerr => 0x0006
  | .fthr => 0x0007
  | .zlr => 0x0008
  | .zlb => 0x0009
  | .zls => 0x000A
  | .tick => 0x000C
  | .flw => 0x000D
  | .hrk => 0x0010
  | .htm => 0x0011
  | .hpos => 0x0012
  | .qmap => 0x0014
  | .fst => 0x0018
  | .fpc => 0x0019
  | .fva => 0x001A
  | .tcause => 0x0020
  | .tval => 0x0021
  | .tepc => 0x0022
  | .tvec => 0x0023
  | .tsr => 0x0024
  | .tscr => 0x0025
  | .psa => 0x0026
  | .fm k => 0x0040 + k.setWidth 16

/-- The CSR of a number; a number that names no CSR is a reserved value (R61). -/
def Csr.ofNum (c : BitVec 16) : Option Csr :=
  match c.toNat with
  | 0x0001 => some .vl
  | 0x0002 => some .vty
  | 0x0003 => some .vix
  | 0x0004 => some .fcsr
  | 0x0005 => some .xlm
  | 0x0006 => some .rerr
  | 0x0007 => some .fthr
  | 0x0008 => some .zlr
  | 0x0009 => some .zlb
  | 0x000A => some .zls
  | 0x000C => some .tick
  | 0x000D => some .flw
  | 0x0010 => some .hrk
  | 0x0011 => some .htm
  | 0x0012 => some .hpos
  | 0x0014 => some .qmap
  | 0x0018 => some .fst
  | 0x0019 => some .fpc
  | 0x001A => some .fva
  | 0x0020 => some .tcause
  | 0x0021 => some .tval
  | 0x0022 => some .tepc
  | 0x0023 => some .tvec
  | 0x0024 => some .tsr
  | 0x0025 => some .tscr
  | 0x0026 => some .psa
  | _ => if 0x40 ≤ c.toNat ∧ c.toNat < 0x60 then some (.fm (c.setWidth 5)) else none

/-! ### The tests within a function (R52) -/

/-- Test 5: every reserved field is zero, and an unused P is 31. -/
def zeros (ok : Bool) (k : Decoded) : Decoded := if ok then k else .error .reservedField
/-- Test 6: no field holds a reserved value. -/
def values (ok : Bool) (k : Decoded) : Decoded := if ok then k else .error .reservedValue
/-- Test 6, for a field with a code. -/
def legal {α : Type} (x : Option α) (k : α → Decoded) : Decoded :=
  match x with
  | some v => k v
  | none => .error .reservedValue
/-- Test 7: no reserved predicate value. -/
def preds (ok : Bool) (k : Decoded) : Decoded := if ok then k else .error .reservedPredicate

/-! ### Function tables -/

/-- Major 0x01, scalar ALU (R56). -/
def decodeAlu (d a b : BitVec 5) (f : BitVec 11) : Decoded :=
  match f.toNat with
  | 0x000 => .ok (.add d a b)
  | 0x001 => .ok (.sub d a b)
  | 0x002 => .ok (.mul d a b)
  | 0x003 => .ok (.mulh d a b)
  | 0x004 => .ok (.mulhn d a b)
  | 0x005 => .ok (.div d a b)
  | 0x006 => .ok (.divn d a b)
  | 0x007 => .ok (.rem d a b)
  | 0x008 => .ok (.remn d a b)
  | 0x010 => .ok (.and d a b)
  | 0x011 => .ok (.or d a b)
  | 0x012 => .ok (.xor d a b)
  | 0x013 => .ok (.andn d a b)
  | 0x018 => .ok (.shl d a b)
  | 0x019 => .ok (.shr d a b)
  | 0x01A => .ok (.sra d a b)
  | 0x01B => .ok (.rol d a b)
  | 0x020 => .ok (.slt d a b)
  | 0x021 => .ok (.sltn d a b)
  | 0x022 => .ok (.min d a b)
  | 0x023 => .ok (.max d a b)
  | 0x024 => .ok (.minn d a b)
  | 0x025 => .ok (.maxn d a b)
  | 0x028 => zeros (b == 0) <| .ok (.clz d a)
  | 0x029 => zeros (b == 0) <| .ok (.ctz d a)
  | 0x02A => zeros (b == 0) <| .ok (.popc d a)
  | 0x02C => legal (ExtW.ofBits b) fun x => .ok (.sext d a x)
  | 0x02D => legal (ExtW.ofBits b) fun x => .ok (.zext d a x)
  | 0x030 => .ok (.sel d a b)
  | _ => .error .unassignedFunction

/-- Major 0x06, shifts (R57): [15:8] zero, OP [7:6]. -/
def decodeShift (d a : BitVec 5) (i : BitVec 16) : Decoded :=
  match (i.extractLsb' 6 2).toNat with
  | 0 => zeros (i.extractLsb' 8 8 == 0) <| .ok (.shli d a (i.extractLsb' 0 6))
  | 1 => zeros (i.extractLsb' 8 8 == 0) <| .ok (.shri d a (i.extractLsb' 0 6))
  | 2 => zeros (i.extractLsb' 8 8 == 0) <| .ok (.srai d a (i.extractLsb' 0 6))
  | _ => .error .unassignedFunction

/-- Major 0x08, constants (R57): [20:19] zero, K [18], H [17:16]. -/
def decodeConst (d a : BitVec 5) (i : BitVec 16) : Decoded :=
  zeros (a.extractLsb' 3 2 == 0) <|
    .ok (if a.getLsbD 2 then .kins d (a.extractLsb' 0 2) i else .kset d (a.extractLsb' 0 2) i)

/-- Major 0x0B (R58): `amo` with F11 bit 10 clear, `cln` 0x400, `inv` 0x401. -/
def decodeAmo (d a b : BitVec 5) (f : BitVec 11) : Decoded :=
  if f.getLsbD 10 then
    match f.toNat with
    | 0x400 => zeros (d == 0 && b == 0) <| .ok (.cln a)
    | 0x401 => zeros (d == 0 && b == 0) <| .ok (.inv a)
    | _ => .error .unassignedFunction
  else
    match AmoOp.ofBits (f.extractLsb' 0 4) with
    | none => .error .unassignedFunction
    | some op =>
      zeros (f.extractLsb' 8 2 == 0 && f.extractLsb' 4 2 == 0) <|
        legal (AmoTy.ofBits (f.extractLsb' 6 2)) fun t => .ok (.amo d a b t op)

/-- Major 0x0C, branches (R59). -/
def decodeBranch (d a : BitVec 5) (c : BitVec 3) (o : BitVec 13) : Decoded :=
  match c.toNat with
  | 0 => .ok (.beq d a o)
  | 1 => .ok (.bne d a o)
  | 2 => .ok (.blt d a o)
  | 3 => .ok (.bge d a o)
  | 4 => .ok (.bltn d a o)
  | 5 => .ok (.bgen d a o)
  | _ => .error .reservedValue

/-- Major 0x11, scalar floating point (R60): FMT [10:8], OP [7:4], SUB [3:0]. -/
def decodeFp (d a b : BitVec 5) (f : BitVec 11) : Decoded :=
  let fmt := f.extractLsb' 8 3
  let sub := f.extractLsb' 0 4
  match (f.extractLsb' 4 4).toNat with
  | 0 => zeros (sub == 0) <| legal (FFmt.ofBits fmt) fun x => .ok (.fadd d a b x)
  | 1 => zeros (sub == 0) <| legal (FFmt.ofBits fmt) fun x => .ok (.fsub d a b x)
  | 2 => zeros (sub == 0) <| legal (FFmt.ofBits fmt) fun x => .ok (.fmul d a b x)
  | 3 => zeros (sub == 0) <| legal (FFmt.ofBits fmt) fun x => .ok (.ffma d a b x)
  | 4 => zeros (sub == 0) <| legal (FFmt.ofBits fmt) fun x => .ok (.fdiv d a b x)
  | 5 => zeros (sub == 0 && b == 0) <| legal (FFmt.ofBits fmt) fun x => .ok (.fsqrt d a x)
  | 6 => zeros (sub == 0) <| legal (FFmt.ofBits fmt) fun x => .ok (.fmin d a b x)
  | 7 => zeros (sub == 0) <| legal (FFmt.ofBits fmt) fun x => .ok (.fmax d a b x)
  | 8 => legal (FFmt.ofBits fmt) fun x => legal (FRel.ofBits sub) fun r => .ok (.fcmp d a b x r)
  | 9 => zeros (b == 0) <| legal (CvtTy.ofBits (fmt.setWidth 4)) fun x => legal (CvtTy.ofBits sub) fun y =>
      values (cvtOk x y) <| .ok (.fcvt d a x y)
  | 10 => zeros (sub == 0 && b == 0) <| legal (FFmt.ofBits fmt) fun x => .ok (.fmv d a x)
  | _ => .error .unassignedFunction

/-- Major 0x12, CSR and system (R61): F5 where A stands. `tlbi` of kind `all` is taken with any D: its form is written with
`s0`, and R61 does not list it among the words whose D is zero (DESIGN CHOICE, log entry 39). -/
def decodeSystem (d f : BitVec 5) (i : BitVec 16) : Decoded :=
  match f.toNat with
  | 0 => legal (Csr.ofNum i) fun c => .ok (.csrr d c)
  | 1 => legal (Csr.ofNum i) fun c => .ok (.csrw d c)
  | 2 => legal (Csr.ofNum i) fun c => .ok (.csrs d c)
  | 3 => legal (Csr.ofNum i) fun c => .ok (.csrc d c)
  | 4 => zeros (d == 0) <| .ok (.sys i)
  | 5 => zeros (d == 0) <| .ok (.bkpt i)
  | 6 => zeros (d == 0 && i == 0) <| .ok .eret
  | 7 => zeros (d == 0 && i == 0) <| .ok .wfi
  | 8 => zeros (d == 0 && i.extractLsb' 10 6 == 0) <| legal (Scope.ofBits (i.extractLsb' 0 3)) fun sc =>
      values (i.extractLsb' 3 7 != 0) <| .ok (.fence (i.extractLsb' 3 7) sc)
  | 9 => zeros (i == 0) <| .ok (.tick d)
  | 10 => zeros (i.extractLsb' 2 14 == 0) <|
      match (i.extractLsb' 0 2).toNat with
      | 0 => .ok (.tlbiPage d)
      | 1 => .ok (.tlbiAsid d)
      | 2 => .ok (.tlbiAll d)
      | _ => .error .reservedValue
  | 11 => zeros (d == 0 && i == 0) <| .ok .ifl
  | 12 => zeros (i == 0) <| .ok (.ctxsv d)
  | 13 => zeros (i == 0) <| .ok (.ctxld d)
  | 14 => zeros (i.extractLsb' 4 12 == 0) <| .ok (.flow d (i.extractLsb' 0 4))
  | _ => .error .unassignedFunction

/-- Major 0x13 (R62). -/
def decodeConfig (d a b : BitVec 5) (f : BitVec 11) : Decoded :=
  match f.toNat with
  | 0x000 => zeros (b == 0) <| .ok (.setvl d a)
  | 0x001 => zeros (b == 0) <| .ok (.setvt d a)
  | 0x002 => zeros (b == 0) <|
      values (decide (d.toNat ≤ 29) && decide (a.toNat ≤ 29) && d != 0) <| .ok (.settl d a)
  | _ => .error .unassignedFunction

/-- Major 0x14, vector integer, register forms (R63). Of a unary function only B is held to zero: D names the destination that
its form writes, though R112 calls the D field zero too (log entry 39). -/
def decodeVInt (d a b p : BitVec 5) (f : BitVec 6) : Decoded :=
  match f.toNat with
  | 0x00 => preds (selOk p) <| .ok (.vadd d a b p)
  | 0x01 => preds (selOk p) <| .ok (.vsub d a b p)
  | 0x02 => preds (selOk p) <| .ok (.vmul d a b p)
  | 0x03 => preds (selOk p) <| .ok (.vmulh d a b p)
  | 0x04 => preds (selOk p) <| .ok (.vmulhn d a b p)
  | 0x05 => preds (selOk p) <| .ok (.vmac d a b p)
  | 0x06 => preds (selOk p) <| .ok (.vdiv d a b p)
  | 0x07 => preds (selOk p) <| .ok (.vdivn d a b p)
  | 0x08 => preds (selOk p) <| .ok (.vrem d a b p)
  | 0x09 => preds (selOk p) <| .ok (.vremn d a b p)
  | 0x0A => preds (selOk p) <| .ok (.vmin d a b p)
  | 0x0B => preds (selOk p) <| .ok (.vminn d a b p)
  | 0x0C => preds (selOk p) <| .ok (.vmax d a b p)
  | 0x0D => preds (selOk p) <| .ok (.vmaxn d a b p)
  | 0x10 => preds (selOk p) <| .ok (.vand d a b p)
  | 0x11 => preds (selOk p) <| .ok (.vor d a b p)
  | 0x12 => preds (selOk p) <| .ok (.vxor d a b p)
  | 0x13 => preds (selOk p) <| .ok (.vandn d a b p)
  | 0x14 => preds (selOk p) <| .ok (.vshl d a b p)
  | 0x15 => preds (selOk p) <| .ok (.vshr d a b p)
  | 0x16 => preds (selOk p) <| .ok (.vsra d a b p)
  | 0x18 => preds (selOk p) <| .ok (.vadds d a b p)
  | 0x19 => preds (selOk p) <| .ok (.vaddsn d a b p)
  | 0x1A => preds (selOk p) <| .ok (.vsubs d a b p)
  | 0x1B => preds (selOk p) <| .ok (.vsubsn d a b p)
  | 0x20 => zeros (b == 0) <| preds (selOk p) <| .ok (.vabs d a p)
  | 0x21 => zeros (b == 0) <| preds (selOk p) <| .ok (.vneg d a p)
  | 0x22 => zeros (b == 0) <| preds (selOk p) <| .ok (.vclz d a p)
  | 0x23 => zeros (b == 0) <| preds (selOk p) <| .ok (.vpopc d a p)
  | 0x28 => preds (predOk d && selOk p) <| .ok (.vcmpEq d a b p)
  | 0x29 => preds (predOk d && selOk p) <| .ok (.vcmpNe d a b p)
  | 0x2A => preds (predOk d && selOk p) <| .ok (.vcmpLt d a b p)
  | 0x2B => preds (predOk d && selOk p) <| .ok (.vcmpGe d a b p)
  | 0x2C => preds (predOk d && selOk p) <| .ok (.vcmpLtn d a b p)
  | 0x2D => preds (predOk d && selOk p) <| .ok (.vcmpGen d a b p)
  | 0x2E => preds (predOk p) <| .ok (.vsel d a b p)
  | _ => .error .unassignedFunction

/-- How a link-major function uses its fields (R64): whether its unit is online, so that D may name a link; one or two
sources; a compare, whose D names a predicate; `vsel`; the cancelling `.k` forms. -/
inductive LinkClass where
  | online2 | plain2 | online1 | plain1 | compare | select | compareK | lesserK
  deriving DecidableEq, Repr

/-- Tests 5 to 7 of R52 for a link-major word of a class (R64); none when it passes. -/
def LinkClass.reject (c : LinkClass) (d a b p : BitVec 5) : Option Reject :=
  let test (ok : Bool) (r : Reject) (k : Option Reject) : Option Reject := if ok then k else some r
  match c with
  | .online2 => test (distinctLinks d a && distinctLinks d b && distinctLinks a b) .reservedValue <|
      test (selOk p) .reservedPredicate none
  | .plain2 => test (isVec d && distinctLinks a b) .reservedValue <| test (selOk p) .reservedPredicate none
  | .online1 => test (b == 0) .reservedField <| test (distinctLinks d a) .reservedValue <|
      test (selOk p) .reservedPredicate none
  | .plain1 => test (b == 0) .reservedField <| test (isVec d) .reservedValue <| test (selOk p) .reservedPredicate none
  | .compare => test (distinctLinks a b) .reservedValue <| test (predOk d && selOk p) .reservedPredicate none
  | .select => test (isVec d && distinctLinks a b) .reservedValue <| test (predOk p) .reservedPredicate none
  | .compareK => test (distinctLinks a b && (isLink a || isLink b)) .reservedValue <|
      test (predOk d && selOk p) .reservedPredicate none
  | .lesserK => test (isVec d && distinctLinks a b && (isLink a || isLink b)) .reservedValue <|
      test (selOk p) .reservedPredicate none

/-- Classes of the functions of major 0x15 (R63, R64). -/
def linkClassInt (f : BitVec 6) : Option LinkClass :=
  match f.toNat with
  | 0x00 | 0x01 | 0x05 | 0x0A | 0x0B | 0x0C | 0x0D | 0x10 | 0x11 | 0x12 | 0x13 | 0x14 | 0x15 | 0x16 | 0x18 | 0x19 | 0x1A | 0x1B => some .plain2
  | 0x02 | 0x03 | 0x04 | 0x06 | 0x07 | 0x08 | 0x09 => some .online2
  | 0x20 | 0x21 | 0x22 | 0x23 => some .plain1
  | 0x28 | 0x29 | 0x2A | 0x2B | 0x2C | 0x2D => some .compare
  | 0x2E => some .select
  | 0x30 | 0x31 | 0x32 | 0x33 | 0x34 | 0x35 => some .compareK
  | 0x38 | 0x39 | 0x3A | 0x3B => some .lesserK
  | _ => none

/-- Classes of the functions of major 0x17 below 0x38 (R64, R65). -/
def linkClassFp (f : BitVec 6) : Option LinkClass :=
  match f.toNat with
  | 0x00 | 0x01 | 0x02 | 0x06 | 0x0C | 0x0D => some .online2
  | 0x03 | 0x04 | 0x05 => some .plain2
  | 0x07 | 0x08 | 0x09 | 0x0A | 0x0B => some .online1
  | 0x10 | 0x11 | 0x12 | 0x13 => some .compare
  | 0x2C | 0x2D => some .lesserK
  | 0x30 | 0x31 | 0x32 | 0x33 => some .compareK
  | _ => none

/-- A link-major word that fails a test; none when it is an instruction. -/
def linkReject (c : Option LinkClass) (d a b p : BitVec 5) : Option Decoded :=
  match c with
  | none => some (.error .unassignedFunction)
  | some c => (c.reject d a b p).map .error

/-- The instructions of major 0x15 (R63). -/
noncomputable def linkInstrInt (d a b p : BitVec 5) (f : BitVec 6) : Option Instr :=
  match f.toNat with
  | 0x00 => some (.vaddLink d a b p)
  | 0x01 => some (.vsubLink d a b p)
  | 0x02 => some (.vmulLink d a b p)
  | 0x03 => some (.vmulhLink d a b p)
  | 0x04 => some (.vmulhnLink d a b p)
  | 0x05 => some (.vmacLink d a b p)
  | 0x06 => some (.vdivLink d a b p)
  | 0x07 => some (.vdivnLink d a b p)
  | 0x08 => some (.vremLink d a b p)
  | 0x09 => some (.vremnLink d a b p)
  | 0x0A => some (.vminLink d a b p)
  | 0x0B => some (.vminnLink d a b p)
  | 0x0C => some (.vmaxLink d a b p)
  | 0x0D => some (.vmaxnLink d a b p)
  | 0x10 => some (.vandLink d a b p)
  | 0x11 => some (.vorLink d a b p)
  | 0x12 => some (.vxorLink d a b p)
  | 0x13 => some (.vandnLink d a b p)
  | 0x14 => some (.vshlLink d a b p)
  | 0x15 => some (.vshrLink d a b p)
  | 0x16 => some (.vsraLink d a b p)
  | 0x18 => some (.vaddsLink d a b p)
  | 0x19 => some (.vaddsnLink d a b p)
  | 0x1A => some (.vsubsLink d a b p)
  | 0x1B => some (.vsubsnLink d a b p)
  | 0x20 => some (.vabsLink d a p)
  | 0x21 => some (.vnegLink d a p)
  | 0x22 => some (.vclzLink d a p)
  | 0x23 => some (.vpopcLink d a p)
  | 0x28 => some (.vcmpEqLink d a b p)
  | 0x29 => some (.vcmpNeLink d a b p)
  | 0x2A => some (.vcmpLtLink d a b p)
  | 0x2B => some (.vcmpGeLink d a b p)
  | 0x2C => some (.vcmpLtnLink d a b p)
  | 0x2D => some (.vcmpGenLink d a b p)
  | 0x2E => some (.vselLink d a b p)
  | 0x30 => some (.vcmpEqK d a b p)
  | 0x31 => some (.vcmpNeK d a b p)
  | 0x32 => some (.vcmpLtK d a b p)
  | 0x33 => some (.vcmpGeK d a b p)
  | 0x34 => some (.vcmpLtnK d a b p)
  | 0x35 => some (.vcmpGenK d a b p)
  | 0x38 => some (.vminK d a b p)
  | 0x39 => some (.vminnK d a b p)
  | 0x3A => some (.vmaxK d a b p)
  | 0x3B => some (.vmaxnK d a b p)
  | _ => none

/-- The instructions of major 0x17 below 0x38 (R65). -/
noncomputable def linkInstrFp (d a b p : BitVec 5) (f : BitVec 6) : Option Instr :=
  match f.toNat with
  | 0x00 => some (.vfaddLink d a b p)
  | 0x01 => some (.vfsubLink d a b p)
  | 0x02 => some (.vfmulLink d a b p)
  | 0x03 => some (.vffmaLink d a b p)
  | 0x04 => some (.vffmsLink d a b p)
  | 0x05 => some (.vfnmaLink d a b p)
  | 0x06 => some (.vfdivLink d a b p)
  | 0x07 => some (.vfsqrtLink d a p)
  | 0x08 => some (.vfrsqaLink d a p)
  | 0x09 => some (.vfrcpaLink d a p)
  | 0x0A => some (.vfexaLink d a p)
  | 0x0B => some (.vflgaLink d a p)
  | 0x0C => some (.vfminLink d a b p)
  | 0x0D => some (.vfmaxLink d a b p)
  | 0x10 => some (.vfcmpEqLink d a b p)
  | 0x11 => some (.vfcmpLtLink d a b p)
  | 0x12 => some (.vfcmpLeLink d a b p)
  | 0x13 => some (.vfcmpUnLink d a b p)
  | 0x2C => some (.vfminK d a b p)
  | 0x2D => some (.vfmaxK d a b p)
  | 0x30 => some (.vfcmpEqK d a b p)
  | 0x31 => some (.vfcmpLtK d a b p)
  | 0x32 => some (.vfcmpLeK d a b p)
  | 0x33 => some (.vfcmpUnK d a b p)
  | _ => none

/-- Major 0x16, vector floating point (R65). Of the unary functions 0x07 to 0x0B only B is held to zero: D names the
destination that their form writes, though R114 calls the D field zero too (DESIGN CHOICE, log entry 39). -/
def decodeVFp (d a b p : BitVec 5) (f : BitVec 6) : Decoded :=
  match f.toNat with
  | 0x00 => preds (selOk p) <| .ok (.vfadd d a b p)
  | 0x01 => preds (selOk p) <| .ok (.vfsub d a b p)
  | 0x02 => preds (selOk p) <| .ok (.vfmul d a b p)
  | 0x03 => preds (selOk p) <| .ok (.vffma d a b p)
  | 0x04 => preds (selOk p) <| .ok (.vffms d a b p)
  | 0x05 => preds (selOk p) <| .ok (.vfnma d a b p)
  | 0x06 => preds (selOk p) <| .ok (.vfdiv d a b p)
  | 0x07 => zeros (b == 0) <| preds (selOk p) <| .ok (.vfsqrt d a p)
  | 0x08 => zeros (b == 0) <| preds (selOk p) <| .ok (.vfrsqa d a p)
  | 0x09 => zeros (b == 0) <| preds (selOk p) <| .ok (.vfrcpa d a p)
  | 0x0A => zeros (b == 0) <| preds (selOk p) <| .ok (.vfexa d a p)
  | 0x0B => zeros (b == 0) <| preds (selOk p) <| .ok (.vflga d a p)
  | 0x0C => preds (selOk p) <| .ok (.vfmin d a b p)
  | 0x0D => preds (selOk p) <| .ok (.vfmax d a b p)
  | 0x10 => preds (predOk d && selOk p) <| .ok (.vfcmpEq d a b p)
  | 0x11 => preds (predOk d && selOk p) <| .ok (.vfcmpLt d a b p)
  | 0x12 => preds (predOk d && selOk p) <| .ok (.vfcmpLe d a b p)
  | 0x13 => preds (predOk d && selOk p) <| .ok (.vfcmpUn d a b p)
  | 0x18 => zeros (b == 0) <| preds (selOk p) <| .ok (.vfabs d a p)
  | 0x19 => zeros (b == 0) <| preds (selOk p) <| .ok (.vfneg d a p)
  | 0x1A => preds (selOk p) <| .ok (.vfsgn d a b p)
  | 0x1B => zeros (b == 0) <| preds (selOk p) <| .ok (.vfcls d a p)
  | _ => .error .unassignedFunction

/-- Major 0x17 from 0x38, conversions and `dlfl` (R66). -/
def decodeConvert (d a b p : BitVec 5) (f : BitVec 6) : Decoded :=
  match f.toNat with
  | 0x38 => legal (Format.ofBits b) fun x => preds (selOk p) <| .ok (.vcvtH d a ⟨x, p⟩)
  | 0x39 => legal (Format.ofBits b) fun x => preds (selOk p) <| .ok (.vcvtD d a ⟨x, p⟩)
  | 0x3A => legal (Format.ofBits b) fun x => preds (selOk p) <| .ok (.vcvtFi d a ⟨x, p⟩)
  | 0x3B => legal (Format.ofBits b) fun x => preds (selOk p) <| .ok (.vcvtIf d a ⟨x, p⟩)
  | 0x3C => legal (Format.ofBits b) fun x => preds (selOk p) <| .ok (.vcvtQ d a ⟨x, p⟩)
  | 0x3D => legal (Format.ofBits b) fun x => preds (selOk p) <| .ok (.vcvtMx d a ⟨x, p⟩)
  | 0x3E => legal (Format.ofBits b) fun x => preds (selOk p) <| .ok (.vdeq d a ⟨x, p⟩)
  | 0x3F => zeros (a == 0 && b == 0 && p == 31) <| values (decide (d.toNat < 8)) <| .ok (.dlfl (d.setWidth 3))
  | _ => .error .unassignedFunction

/-- Major 0x18, permutes (R67). -/
def decodePermute (d a b p : BitVec 5) (f : BitVec 6) : Decoded :=
  match f.toNat with
  | 0x00 => preds (selOk p) <| .ok (.vslup d a b p)
  | 0x01 => preds (selOk p) <| .ok (.vsldn d a b p)
  | 0x02 => preds (selOk p) <| .ok (.vperm d a b p)
  | 0x03 => zeros (b == 0) <| preds (predOk p) <| .ok (.vcomp d a p)
  | 0x04 => zeros (b == 0) <| preds (predOk p) <| .ok (.vexp d a p)
  | 0x05 => zeros (b == 0) <| preds (selOk p) <| .ok (.vbc d a p)
  | 0x06 => zeros (a == 0 && b == 0) <| preds (selOk p) <| .ok (.vid d p)
  | 0x07 => zeros (p == 31) <| .ok (.vmvs d a b)
  | 0x08 => zeros (p == 31) <| .ok (.vmsv d a b)
  | _ => .error .unassignedFunction

/-- Major 0x19, reductions (R67). -/
def decodeReduce (d a b p : BitVec 5) (f : BitVec 6) : Decoded :=
  match f.toNat with
  | 0x00 => zeros (b == 0) <| preds (selOk p) <| .ok (.vrsum d a p)
  | 0x01 => zeros (b == 0) <| preds (selOk p) <| .ok (.vrosum d a p)
  | 0x02 => zeros (b == 0) <| preds (selOk p) <| .ok (.vrmin d a p)
  | 0x03 => zeros (b == 0) <| preds (selOk p) <| .ok (.vrmax d a p)
  | 0x04 => zeros (b == 0) <| preds (selOk p) <| .ok (.vrand d a p)
  | 0x05 => zeros (b == 0) <| preds (selOk p) <| .ok (.vror d a p)
  | 0x06 => zeros (b == 0) <| preds (selOk p) <| .ok (.vrxor d a p)
  | 0x07 => legal (ScanOp.ofBits b) fun x => preds (selOk p) <| .ok (.vscan d a x p)
  | _ => .error .unassignedFunction

/-- Major 0x1A, predicates (R67). -/
def decodePred (d a b p : BitVec 5) (f : BitVec 6) : Decoded :=
  match f.toNat with
  | 0x00 => zeros (p == 31) <| preds (predOk d && predOk a && predOk b) <| .ok (.pand d a b)
  | 0x01 => zeros (p == 31) <| preds (predOk d && predOk a && predOk b) <| .ok (.por d a b)
  | 0x02 => zeros (p == 31) <| preds (predOk d && predOk a && predOk b) <| .ok (.pxor d a b)
  | 0x03 => zeros (p == 31) <| preds (predOk d && predOk a && predOk b) <| .ok (.pandn d a b)
  | 0x04 => zeros (b == 0 && p == 31) <| preds (predOk d && predOk a) <| .ok (.pnot d a)
  | 0x05 => zeros (b == 0 && p == 31) <| preds (predOk d) <| .ok (.pset d a)
  | 0x06 => zeros (b == 0 && p == 31) <| preds (predOk a) <| .ok (.pffs d a)
  | 0x07 => zeros (b == 0 && p == 31) <| preds (predOk a) <| .ok (.pcnt d a)
  | 0x08 => zeros (b == 0 && p == 31) <| preds (predOk d) <| .ok (.pmvv d a)
  | _ => .error .unassignedFunction

/-- NB, bit 5 of F6 in majors 0x1B to 0x1D (R68). -/
def fieldNb (f : BitVec 6) : Bool := f.getLsbD 5
/-- PATH, bits [1:0] of F6 in majors 0x1B to 0x1D (R68). -/
def fieldPath (f : BitVec 6) : BitVec 2 := f.extractLsb' 0 2
/-- OP, bits [4:2] of F6 in majors 0x1B to 0x1D (R68). -/
def fieldOp (f : BitVec 6) : BitVec 3 := f.extractLsb' 2 3

/-- Major 0x1B, vector loads (R68). -/
def decodeVLoad (d a b p : BitVec 5) (f : BitVec 6) : Decoded :=
  let nb := fieldNb f
  let t := fieldPath f
  match (fieldOp f).toNat with
  | 0 => zeros (b == 0) <| legal (Path.ofBits t) fun x => preds (nb || selOk p) <| .ok (.vld d a p nb x)
  | 1 => legal (Path.ofBits t) fun x => preds (nb || selOk p) <| .ok (.vlds d a b p nb x)
  | 2 => legal (Path.ofBits t) fun x => preds (nb || selOk p) <| .ok (.vldx d a b p nb x)
  | 3 => values (segOk b) <| legal (Path.ofBits t) fun x => preds (nb || selOk p) <| .ok (.vldsg d a b p nb x)
  | 4 => if nb then .error .unassignedFunction else
      zeros (b == 0) <| legal (Path.ofBits t) fun x => preds (selOk p) <| .ok (.vldff d a p x)
  | 5 => if nb then .error .unassignedFunction else
      values (t == 0) <| preds (predOk d && selOk p) <| .ok (.vprobe d a b p)
  | _ => .error .unassignedFunction

/-- Major 0x1C, vector stores (R68). -/
def decodeVStore (d a b p : BitVec 5) (f : BitVec 6) : Decoded :=
  let nb := fieldNb f
  let t := fieldPath f
  match (fieldOp f).toNat with
  | 0 => zeros (b == 0) <| legal (Path.ofBits t) fun x => preds (nb || selOk p) <| .ok (.vst d a p nb x)
  | 1 => legal (Path.ofBits t) fun x => preds (nb || selOk p) <| .ok (.vsts d a b p nb x)
  | 2 => legal (Path.ofBits t) fun x => preds (nb || selOk p) <| .ok (.vstx d a b p nb x)
  | 3 => values (segOk b) <| legal (Path.ofBits t) fun x => preds (nb || selOk p) <| .ok (.vstsg d a b p nb x)
  | 4 => zeros (b == 0) <| legal (Path.ofBits t) fun x => preds (nb || selOk p) <| .ok (.vstu d a p nb x)
  | 5 => legal (Path.ofBits t) fun x => preds (nb || selOk p) <| .ok (.vstxu d a b p nb x)
  | _ => .error .unassignedFunction

/-- Major 0x1D, `vamo` (R68). -/
def decodeVamo (d a b p : BitVec 5) (f : BitVec 6) : Decoded :=
  legal (VamoOp.ofBits (fieldOp f)) fun op => legal (Path.ofBits (fieldPath f)) fun x =>
    preds (fieldNb f || selOk p) <| .ok (.vamo d a b p (fieldNb f) op x)

/-- Major 0x1E, binding and rows (R69). -/
def decodeBind (d a b p : BitVec 5) (f : BitVec 6) : Decoded :=
  match f.toNat with
  | 0x00 => zeros (p == 31) <| values (decide (d.toNat < 8)) <| .ok (.bind (d.setWidth 3) a b)
  | 0x01 => zeros (a == 0 && b == 0 && p == 31) <| values (decide (d.toNat < 8)) <| .ok (.unbind (d.setWidth 3))
  | 0x02 => zeros (b == 0 && p == 31) <| values (decide (a.toNat < 8)) <| .ok (.bndq d (a.setWidth 3))
  | 0x03 => zeros (b == 0 && p == 31) <| .ok (.rowpin d a)
  | 0x04 => zeros (d == 0 && b == 0 && p == 31) <| .ok (.rowrel a)
  | 0x05 => zeros (b == 0 && p == 31) <| .ok (.rowq d a)
  | _ => .error .unassignedFunction

/-- Major 0x1F, matrix (R69). -/
def decodeMatrix (d a b p : BitVec 5) (f : BitVec 6) : Decoded :=
  match f.toNat with
  | 0x00 => zeros (d == 0 && a == 0 && p == 31) <| values (decide (b.toNat < 16)) <| .ok (.omcl (b.setWidth 4))
  | 0x01 => zeros (d == 0 && a == 0 && p == 31) <| values (decide (b.toNat < 16)) <| .ok (.omrl (b.setWidth 4))
  | 0x02 => zeros (p == 31) <| values (decide (b.toNat < 16)) <| .ok (.tld d a (b.setWidth 4))
  | 0x03 => zeros (p == 31) <| values (decide (d.toNat < 8) && decide (b.toNat < 16)) <| .ok (.mma (d.setWidth 3) a (b.setWidth 4))
  | 0x04 => values (decide (a.toNat < 8)) <| preds (selOk p) <| .ok (.accx d (a.setWidth 3) b p)
  | 0x05 => values (decide (d.toNat < 8) && decide (a.toNat < 8)) <| preds (selOk p) <| .ok (.accxLink (d.setWidth 3) (a.setWidth 3) b p)
  | 0x06 => zeros (a == 0 && b == 0 && p == 31) <| values (decide (d.toNat < 8)) <| .ok (.accz (d.setWidth 3))
  | _ => .error .unassignedFunction

/-- Major 0x20, synchronisation and teams (R70); unused bits of imm10 are zero. -/
def decodeSync (d a : BitVec 5) (i : BitVec 10) (f : BitVec 6) : Decoded :=
  match f.toNat with
  | 0x00 => zeros (d == 0 && a == 0 && i.extractLsb' 3 7 == 0) <|
      legal (Scope.ofBits (i.extractLsb' 0 3)) fun sc => .ok (.bar sc)
  | 0x01 => zeros (d == 0 && i.extractLsb' 3 7 == 0) <| .ok (.ipost a (i.extractLsb' 0 3))
  | 0x02 => zeros (d == 0 && i.extractLsb' 3 7 == 0) <| .ok (.iwait a (i.extractLsb' 0 3))
  | 0x03 => zeros (d == 0 && i.extractLsb' 9 1 == 0) <|
      legal (Scope.ofBits (i.extractLsb' 6 3)) fun sc => .ok (.sacq a sc (i.extractLsb' 0 6))
  | 0x04 => zeros (d == 0 && i.extractLsb' 9 1 == 0) <|
      legal (Scope.ofBits (i.extractLsb' 6 3)) fun sc => .ok (.srel a sc (i.extractLsb' 0 6))
  | 0x05 => zeros (i.extractLsb' 9 1 == 0) <|
      legal (Scope.ofBits (i.extractLsb' 6 3)) fun sc => .ok (.stry d a sc (i.extractLsb' 0 6))
  | 0x06 => zeros (a == 0 && i.extractLsb' 3 7 == 0) <| .ok (.qcnt d (i.extractLsb' 0 3))
  | 0x07 => zeros (d == 0 && a == 0 && i.extractLsb' 3 7 == 0) <| .ok (.qfl (i.extractLsb' 0 3))
  | 0x08 => zeros (i == 0) <| .ok (.tsplit d a)
  | 0x09 => zeros (i == 0) <| .ok (.spawn d a)
  | 0x0A => zeros (d == 0 && a == 0 && i == 0) <| .ok .exit
  | 0x0B => zeros (d == 0 && a == 0 && i == 0) <| .ok .yield
  | _ => .error .unassignedFunction

/-- Major 0x21, engines (R70). -/
def decodeEngine (d a b p : BitVec 5) (f : BitVec 6) : Decoded :=
  match f.toNat with
  | 0x00 => zeros (p == 31) <| .ok (.cpy d a b)
  | 0x01 => preds (selOk p) <| .ok (.gsp d a b p)
  | 0x02 => zeros (b == 0 && p == 31) <| .ok (.shp d a)
  | 0x03 => zeros (d == 0 && p == 31) <| .ok (.enq a b)
  | 0x04 => zeros (b == 0 && p == 31) <| .ok (.deq d a)
  | 0x05 => zeros (b == 0 && p == 31) <| .ok (.dnode d a)
  | 0x06 => zeros (d == 0 && b == 0 && p == 31) <| .ok (.dgo a)
  | 0x07 => zeros (d == 0 && b == 0 && p == 31) <| .ok (.fgo a)
  | 0x08 => zeros (d == 0 && a == 0 && b == 0 && p == 31) <| .ok .fwait
  | _ => .error .unassignedFunction

/-- Major 0x22, collectives and windows (R70); `cred` and `call` hold OP in F6 [2:0]. -/
def decodeCollective (d a b p : BitVec 5) (f : BitVec 6) : Decoded :=
  match f.toNat with
  | 0x10 => values (decide (b.toNat < 16)) <| preds (selOk p) <| .ok (.cgat d a (b.setWidth 4) p)
  | 0x18 => values (decide (b.toNat < 16)) <| preds (selOk p) <| .ok (.csct d a (b.setWidth 4) p)
  | 0x20 => values (decide (b.toNat < 16)) <| preds (selOk p) <| .ok (.cbc d a (b.setWidth 4) p)
  | 0x28 => zeros (b == 0 && p == 31) <| values (decide (d.toNat < 16)) <| .ok (.cgrp (d.setWidth 4) a)
  | 0x29 => zeros (d == 0 && b == 0 && p == 31) <| values (decide (a.toNat < 16)) <| .ok (.cgate (a.setWidth 4))
  | 0x2A => zeros (p == 31) <| .ok (.rwin d a b)
  | 0x2B => zeros (d == 0 && b == 0 && p == 31) <| .ok (.runmap a)
  | _ =>
    match (f.extractLsb' 3 3).toNat, CollOp.ofBits (f.extractLsb' 0 3) with
    | 0, some op => values (decide (b.toNat < 16)) <| preds (selOk p) <| .ok (.cred d a (b.setWidth 4) p op)
    | 1, some op => values (decide (b.toNat < 16)) <| preds (selOk p) <| .ok (.call d a (b.setWidth 4) p op)
    | _, _ => .error .unassignedFunction

/-- What a word is, but for a link-major word (R64) that is an instruction: for those, none. -/
def decodeBase (w : BitVec 32) : Option Decoded :=
  let d := fieldD w
  let a := fieldA w
  let b := fieldB w
  let p := fieldP w
  let f := fieldF6 w
  if w = 0 then some (.error .allZeroWord) else
  match (majorOf w).toNat with
  | 0x01 => some <| decodeAlu d a b (fieldF11 w)
  | 0x02 => some <| .ok (.addi d a (fieldImm16 w))
  | 0x03 => some <| .ok (.andi d a (fieldImm16 w))
  | 0x04 => some <| .ok (.ori d a (fieldImm16 w))
  | 0x05 => some <| .ok (.xori d a (fieldImm16 w))
  | 0x06 => some <| decodeShift d a (fieldImm16 w)
  | 0x07 => some <| .ok (.slti d a (fieldImm16 w))
  | 0x08 => some <| decodeConst d a (fieldImm16 w)
  | 0x09 => some <| legal (LdTy.ofBits (fieldZ w)) fun t => .ok (.ld d a t (fieldOff13 w))
  | 0x0A => some <| legal (StW.ofBits (fieldZ w)) fun t => .ok (.st d a t (fieldOff13 w))
  | 0x0B => some <| decodeAmo d a b (fieldF11 w)
  | 0x0C => some <| decodeBranch d a (fieldZ w) (fieldOff13 w)
  | 0x0D => some <| .ok (.jal d (fieldOff21 w))
  | 0x0E => some <| .ok (.jalr d a (fieldImm16 w))
  | 0x0F => some <| values (smineOk a (fieldZ w)) <| .ok (.smine d a (fieldZ w) (fieldOff13 w))
  | 0x10 => some <| zeros (d == 0 && fieldF11 w == 0) <| .ok (.zol a b)
  | 0x11 => some <| decodeFp d a b (fieldF11 w)
  | 0x12 => some <| decodeSystem d a (fieldImm16 w)
  | 0x13 => some <| decodeConfig d a b (fieldF11 w)
  | 0x14 => some <| decodeVInt d a b p f
  | 0x15 => linkReject (linkClassInt f) d a b p
  | 0x16 => some <| decodeVFp d a b p f
  | 0x17 => if f.toNat < 0x38 then linkReject (linkClassFp f) d a b p else some (decodeConvert d a b p f)
  | 0x18 => some <| decodePermute d a b p f
  | 0x19 => some <| decodeReduce d a b p f
  | 0x1A => some <| decodePred d a b p f
  | 0x1B => some <| decodeVLoad d a b p f
  | 0x1C => some <| decodeVStore d a b p f
  | 0x1D => some <| decodeVamo d a b p f
  | 0x1E => some <| decodeBind d a b p f
  | 0x1F => some <| decodeMatrix d a b p f
  | 0x20 => some <| decodeSync d a (fieldImm10 w) f
  | 0x21 => some <| decodeEngine d a b p f
  | 0x22 => some <| decodeCollective d a b p f
  | 0x3F => some <| .error .permanentlyIllegal
  | _ => some <| .error .unassignedMajor

/-- The instruction of a word, or the first of tests 1 to 7 of R52 that it fails. -/
noncomputable def decode (w : BitVec 32) : Decoded :=
  match decodeBase w with
  | some x => x
  | none =>
    let i := if majorOf w = 0x15 then linkInstrInt (fieldD w) (fieldA w) (fieldB w) (fieldP w) (fieldF6 w)
      else linkInstrFp (fieldD w) (fieldA w) (fieldB w) (fieldP w) (fieldF6 w)
    match i with
    | some x => .ok x
    | none => .error .unassignedFunction

/-- The first word of a run of bytes, little-endian (R21), and the bytes after it. -/
noncomputable def decodeBytes (bytes : List (BitVec 8)) : Option (Decoded × List (BitVec 8)) :=
  match bytes with
  | b0 :: b1 :: b2 :: b3 :: rest => some (decode (b3 ++ b2 ++ b1 ++ b0), rest)
  | _ => none

/-- The instruction of a row's bits as the opcode table numbers them: one 32-bit word, bit 0 its least significant. -/
noncomputable def decodeTableWord (nbits w : Nat) : Option Instr :=
  match decode (BitVec.ofNat 32 (w % 2 ^ nbits)) with
  | .ok i => some i
  | .error _ => none

/-! ### The encoder -/

/-- The word of an instruction, laid out by R49 from the same function tables; events have none. -/
def encode : Instr → Option (BitVec 32)
  | .add d a b => some (encReg 0x01 d a b 0x000)
  | .sub d a b => some (encReg 0x01 d a b 0x001)
  | .mul d a b => some (encReg 0x01 d a b 0x002)
  | .mulh d a b => some (encReg 0x01 d a b 0x003)
  | .mulhn d a b => some (encReg 0x01 d a b 0x004)
  | .div d a b => some (encReg 0x01 d a b 0x005)
  | .divn d a b => some (encReg 0x01 d a b 0x006)
  | .rem d a b => some (encReg 0x01 d a b 0x007)
  | .remn d a b => some (encReg 0x01 d a b 0x008)
  | .and d a b => some (encReg 0x01 d a b 0x010)
  | .or d a b => some (encReg 0x01 d a b 0x011)
  | .xor d a b => some (encReg 0x01 d a b 0x012)
  | .andn d a b => some (encReg 0x01 d a b 0x013)
  | .shl d a b => some (encReg 0x01 d a b 0x018)
  | .shr d a b => some (encReg 0x01 d a b 0x019)
  | .sra d a b => some (encReg 0x01 d a b 0x01A)
  | .rol d a b => some (encReg 0x01 d a b 0x01B)
  | .slt d a b => some (encReg 0x01 d a b 0x020)
  | .sltn d a b => some (encReg 0x01 d a b 0x021)
  | .min d a b => some (encReg 0x01 d a b 0x022)
  | .max d a b => some (encReg 0x01 d a b 0x023)
  | .minn d a b => some (encReg 0x01 d a b 0x024)
  | .maxn d a b => some (encReg 0x01 d a b 0x025)
  | .clz d a => some (encReg 0x01 d a 0 0x028)
  | .ctz d a => some (encReg 0x01 d a 0 0x029)
  | .popc d a => some (encReg 0x01 d a 0 0x02A)
  | .sext d a w => some (encReg 0x01 d a w.toBits 0x02C)
  | .zext d a w => some (encReg 0x01 d a w.toBits 0x02D)
  | .sel d a b => some (encReg 0x01 d a b 0x030)
  | .addi d a i => some (encImm 0x02 d a i)
  | .andi d a i => some (encImm 0x03 d a i)
  | .ori d a i => some (encImm 0x04 d a i)
  | .xori d a i => some (encImm 0x05 d a i)
  | .shli d a n => some (encImm 0x06 d a (0x00#8 ++ 0#2 ++ n))
  | .shri d a n => some (encImm 0x06 d a (0x00#8 ++ 1#2 ++ n))
  | .srai d a n => some (encImm 0x06 d a (0x00#8 ++ 2#2 ++ n))
  | .slti d a i => some (encImm 0x07 d a i)
  | .kset d h i => some (encImm 0x08 d (0#2 ++ 0#1 ++ h) i)
  | .kins d h i => some (encImm 0x08 d (0#2 ++ 1#1 ++ h) i)
  | .ld d a t o => some (encMem 0x09 d a t.toBits o)
  | .st d a w o => some (encMem 0x0A d a w.toBits o)
  | .amo d a b t op => some (encReg 0x0B d a b (0#3 ++ t.toBits ++ 0#2 ++ op.toBits))
  | .cln a => some (encReg 0x0B 0 a 0 0x400)
  | .inv a => some (encReg 0x0B 0 a 0 0x401)
  | .beq d a o => some (encMem 0x0C d a 0 o)
  | .bne d a o => some (encMem 0x0C d a 1 o)
  | .blt d a o => some (encMem 0x0C d a 2 o)
  | .bge d a o => some (encMem 0x0C d a 3 o)
  | .bltn d a o => some (encMem 0x0C d a 4 o)
  | .bgen d a o => some (encMem 0x0C d a 5 o)
  | .jal d o => some (encJump 0x0D d o)
  | .jalr d a i => some (encImm 0x0E d a i)
  | .smine d a n o => some (encMem 0x0F d a n o)
  | .zol a l => some (encReg 0x10 0 a l 0)
  | .fadd d a b f => some (encReg 0x11 d a b (f.toBits ++ 0#4 ++ 0#4))
  | .fsub d a b f => some (encReg 0x11 d a b (f.toBits ++ 1#4 ++ 0#4))
  | .fmul d a b f => some (encReg 0x11 d a b (f.toBits ++ 2#4 ++ 0#4))
  | .ffma d a b f => some (encReg 0x11 d a b (f.toBits ++ 3#4 ++ 0#4))
  | .fdiv d a b f => some (encReg 0x11 d a b (f.toBits ++ 4#4 ++ 0#4))
  | .fsqrt d a f => some (encReg 0x11 d a 0 (f.toBits ++ 5#4 ++ 0#4))
  | .fmin d a b f => some (encReg 0x11 d a b (f.toBits ++ 6#4 ++ 0#4))
  | .fmax d a b f => some (encReg 0x11 d a b (f.toBits ++ 7#4 ++ 0#4))
  | .fcmp d a b f r => some (encReg 0x11 d a b (f.toBits ++ 8#4 ++ r.toBits))
  | .fcvt d a dst src => some (encReg 0x11 d a 0 (dst.toBits.setWidth 3 ++ 9#4 ++ src.toBits))
  | .fmv d a f => some (encReg 0x11 d a 0 (f.toBits ++ 10#4 ++ 0#4))
  | .csrr d c => some (encImm 0x12 d 0 c.num)
  | .csrw d c => some (encImm 0x12 d 1 c.num)
  | .csrs d c => some (encImm 0x12 d 2 c.num)
  | .csrc d c => some (encImm 0x12 d 3 c.num)
  | .sys n => some (encImm 0x12 0 4 n)
  | .bkpt n => some (encImm 0x12 0 5 n)
  | .eret => some (encImm 0x12 0 6 0)
  | .wfi => some (encImm 0x12 0 7 0)
  | .fence k sc => some (encImm 0x12 0 8 (0#6 ++ k ++ sc.toBits))
  | .tick d => some (encImm 0x12 d 9 0)
  | .tlbiPage d => some (encImm 0x12 d 10 0)
  | .tlbiAsid d => some (encImm 0x12 d 10 1)
  | .tlbiAll d => some (encImm 0x12 d 10 2)
  | .ifl => some (encImm 0x12 0 11 0)
  | .ctxsv d => some (encImm 0x12 d 12 0)
  | .ctxld d => some (encImm 0x12 d 13 0)
  | .flow d c => some (encImm 0x12 d 14 (0#12 ++ c))
  | .setvl d a => some (encReg 0x13 d a 0 0x000)
  | .setvt d a => some (encReg 0x13 d a 0 0x001)
  | .settl d a => some (encReg 0x13 d a 0 0x002)
  | .vadd d a b p => some (encVec 0x14 d a b p 0x00)
  | .vsub d a b p => some (encVec 0x14 d a b p 0x01)
  | .vmul d a b p => some (encVec 0x14 d a b p 0x02)
  | .vmulh d a b p => some (encVec 0x14 d a b p 0x03)
  | .vmulhn d a b p => some (encVec 0x14 d a b p 0x04)
  | .vmac d a b p => some (encVec 0x14 d a b p 0x05)
  | .vdiv d a b p => some (encVec 0x14 d a b p 0x06)
  | .vdivn d a b p => some (encVec 0x14 d a b p 0x07)
  | .vrem d a b p => some (encVec 0x14 d a b p 0x08)
  | .vremn d a b p => some (encVec 0x14 d a b p 0x09)
  | .vmin d a b p => some (encVec 0x14 d a b p 0x0A)
  | .vminn d a b p => some (encVec 0x14 d a b p 0x0B)
  | .vmax d a b p => some (encVec 0x14 d a b p 0x0C)
  | .vmaxn d a b p => some (encVec 0x14 d a b p 0x0D)
  | .vand d a b p => some (encVec 0x14 d a b p 0x10)
  | .vor d a b p => some (encVec 0x14 d a b p 0x11)
  | .vxor d a b p => some (encVec 0x14 d a b p 0x12)
  | .vandn d a b p => some (encVec 0x14 d a b p 0x13)
  | .vshl d a b p => some (encVec 0x14 d a b p 0x14)
  | .vshr d a b p => some (encVec 0x14 d a b p 0x15)
  | .vsra d a b p => some (encVec 0x14 d a b p 0x16)
  | .vadds d a b p => some (encVec 0x14 d a b p 0x18)
  | .vaddsn d a b p => some (encVec 0x14 d a b p 0x19)
  | .vsubs d a b p => some (encVec 0x14 d a b p 0x1A)
  | .vsubsn d a b p => some (encVec 0x14 d a b p 0x1B)
  | .vabs d a p => some (encVec 0x14 d a 0 p 0x20)
  | .vneg d a p => some (encVec 0x14 d a 0 p 0x21)
  | .vclz d a p => some (encVec 0x14 d a 0 p 0x22)
  | .vpopc d a p => some (encVec 0x14 d a 0 p 0x23)
  | .vcmpEq d a b p => some (encVec 0x14 d a b p 0x28)
  | .vcmpNe d a b p => some (encVec 0x14 d a b p 0x29)
  | .vcmpLt d a b p => some (encVec 0x14 d a b p 0x2A)
  | .vcmpGe d a b p => some (encVec 0x14 d a b p 0x2B)
  | .vcmpLtn d a b p => some (encVec 0x14 d a b p 0x2C)
  | .vcmpGen d a b p => some (encVec 0x14 d a b p 0x2D)
  | .vsel d a b p => some (encVec 0x14 d a b p 0x2E)
  | .vaddLink d a b p => some (encVec 0x15 d a b p 0x00)
  | .vsubLink d a b p => some (encVec 0x15 d a b p 0x01)
  | .vmulLink d a b p => some (encVec 0x15 d a b p 0x02)
  | .vmulhLink d a b p => some (encVec 0x15 d a b p 0x03)
  | .vmulhnLink d a b p => some (encVec 0x15 d a b p 0x04)
  | .vmacLink d a b p => some (encVec 0x15 d a b p 0x05)
  | .vdivLink d a b p => some (encVec 0x15 d a b p 0x06)
  | .vdivnLink d a b p => some (encVec 0x15 d a b p 0x07)
  | .vremLink d a b p => some (encVec 0x15 d a b p 0x08)
  | .vremnLink d a b p => some (encVec 0x15 d a b p 0x09)
  | .vminLink d a b p => some (encVec 0x15 d a b p 0x0A)
  | .vminnLink d a b p => some (encVec 0x15 d a b p 0x0B)
  | .vmaxLink d a b p => some (encVec 0x15 d a b p 0x0C)
  | .vmaxnLink d a b p => some (encVec 0x15 d a b p 0x0D)
  | .vandLink d a b p => some (encVec 0x15 d a b p 0x10)
  | .vorLink d a b p => some (encVec 0x15 d a b p 0x11)
  | .vxorLink d a b p => some (encVec 0x15 d a b p 0x12)
  | .vandnLink d a b p => some (encVec 0x15 d a b p 0x13)
  | .vshlLink d a b p => some (encVec 0x15 d a b p 0x14)
  | .vshrLink d a b p => some (encVec 0x15 d a b p 0x15)
  | .vsraLink d a b p => some (encVec 0x15 d a b p 0x16)
  | .vaddsLink d a b p => some (encVec 0x15 d a b p 0x18)
  | .vaddsnLink d a b p => some (encVec 0x15 d a b p 0x19)
  | .vsubsLink d a b p => some (encVec 0x15 d a b p 0x1A)
  | .vsubsnLink d a b p => some (encVec 0x15 d a b p 0x1B)
  | .vabsLink d a p => some (encVec 0x15 d a 0 p 0x20)
  | .vnegLink d a p => some (encVec 0x15 d a 0 p 0x21)
  | .vclzLink d a p => some (encVec 0x15 d a 0 p 0x22)
  | .vpopcLink d a p => some (encVec 0x15 d a 0 p 0x23)
  | .vcmpEqLink d a b p => some (encVec 0x15 d a b p 0x28)
  | .vcmpNeLink d a b p => some (encVec 0x15 d a b p 0x29)
  | .vcmpLtLink d a b p => some (encVec 0x15 d a b p 0x2A)
  | .vcmpGeLink d a b p => some (encVec 0x15 d a b p 0x2B)
  | .vcmpLtnLink d a b p => some (encVec 0x15 d a b p 0x2C)
  | .vcmpGenLink d a b p => some (encVec 0x15 d a b p 0x2D)
  | .vselLink d a b p => some (encVec 0x15 d a b p 0x2E)
  | .vcmpEqK d a b p => some (encVec 0x15 d a b p 0x30)
  | .vcmpNeK d a b p => some (encVec 0x15 d a b p 0x31)
  | .vcmpLtK d a b p => some (encVec 0x15 d a b p 0x32)
  | .vcmpGeK d a b p => some (encVec 0x15 d a b p 0x33)
  | .vcmpLtnK d a b p => some (encVec 0x15 d a b p 0x34)
  | .vcmpGenK d a b p => some (encVec 0x15 d a b p 0x35)
  | .vminK d a b p => some (encVec 0x15 d a b p 0x38)
  | .vminnK d a b p => some (encVec 0x15 d a b p 0x39)
  | .vmaxK d a b p => some (encVec 0x15 d a b p 0x3A)
  | .vmaxnK d a b p => some (encVec 0x15 d a b p 0x3B)
  | .vfadd d a b p => some (encVec 0x16 d a b p 0x00)
  | .vfsub d a b p => some (encVec 0x16 d a b p 0x01)
  | .vfmul d a b p => some (encVec 0x16 d a b p 0x02)
  | .vffma d a b p => some (encVec 0x16 d a b p 0x03)
  | .vffms d a b p => some (encVec 0x16 d a b p 0x04)
  | .vfnma d a b p => some (encVec 0x16 d a b p 0x05)
  | .vfdiv d a b p => some (encVec 0x16 d a b p 0x06)
  | .vfsqrt d a p => some (encVec 0x16 d a 0 p 0x07)
  | .vfrsqa d a p => some (encVec 0x16 d a 0 p 0x08)
  | .vfrcpa d a p => some (encVec 0x16 d a 0 p 0x09)
  | .vfexa d a p => some (encVec 0x16 d a 0 p 0x0A)
  | .vflga d a p => some (encVec 0x16 d a 0 p 0x0B)
  | .vfmin d a b p => some (encVec 0x16 d a b p 0x0C)
  | .vfmax d a b p => some (encVec 0x16 d a b p 0x0D)
  | .vfcmpEq d a b p => some (encVec 0x16 d a b p 0x10)
  | .vfcmpLt d a b p => some (encVec 0x16 d a b p 0x11)
  | .vfcmpLe d a b p => some (encVec 0x16 d a b p 0x12)
  | .vfcmpUn d a b p => some (encVec 0x16 d a b p 0x13)
  | .vfabs d a p => some (encVec 0x16 d a 0 p 0x18)
  | .vfneg d a p => some (encVec 0x16 d a 0 p 0x19)
  | .vfsgn d a b p => some (encVec 0x16 d a b p 0x1A)
  | .vfcls d a p => some (encVec 0x16 d a 0 p 0x1B)
  | .vfaddLink d a b p => some (encVec 0x17 d a b p 0x00)
  | .vfsubLink d a b p => some (encVec 0x17 d a b p 0x01)
  | .vfmulLink d a b p => some (encVec 0x17 d a b p 0x02)
  | .vffmaLink d a b p => some (encVec 0x17 d a b p 0x03)
  | .vffmsLink d a b p => some (encVec 0x17 d a b p 0x04)
  | .vfnmaLink d a b p => some (encVec 0x17 d a b p 0x05)
  | .vfdivLink d a b p => some (encVec 0x17 d a b p 0x06)
  | .vfsqrtLink d a p => some (encVec 0x17 d a 0 p 0x07)
  | .vfrsqaLink d a p => some (encVec 0x17 d a 0 p 0x08)
  | .vfrcpaLink d a p => some (encVec 0x17 d a 0 p 0x09)
  | .vfexaLink d a p => some (encVec 0x17 d a 0 p 0x0A)
  | .vflgaLink d a p => some (encVec 0x17 d a 0 p 0x0B)
  | .vfminLink d a b p => some (encVec 0x17 d a b p 0x0C)
  | .vfmaxLink d a b p => some (encVec 0x17 d a b p 0x0D)
  | .vfcmpEqLink d a b p => some (encVec 0x17 d a b p 0x10)
  | .vfcmpLtLink d a b p => some (encVec 0x17 d a b p 0x11)
  | .vfcmpLeLink d a b p => some (encVec 0x17 d a b p 0x12)
  | .vfcmpUnLink d a b p => some (encVec 0x17 d a b p 0x13)
  | .vfminK d a b p => some (encVec 0x17 d a b p 0x2C)
  | .vfmaxK d a b p => some (encVec 0x17 d a b p 0x2D)
  | .vfcmpEqK d a b p => some (encVec 0x17 d a b p 0x30)
  | .vfcmpLtK d a b p => some (encVec 0x17 d a b p 0x31)
  | .vfcmpLeK d a b p => some (encVec 0x17 d a b p 0x32)
  | .vfcmpUnK d a b p => some (encVec 0x17 d a b p 0x33)
  | .vcvtH d a b => some (encVec 0x17 d a b.fmt.toBits b.p 0x38)
  | .vcvtD d a b => some (encVec 0x17 d a b.fmt.toBits b.p 0x39)
  | .vcvtFi d a b => some (encVec 0x17 d a b.fmt.toBits b.p 0x3A)
  | .vcvtIf d a b => some (encVec 0x17 d a b.fmt.toBits b.p 0x3B)
  | .vcvtQ d a b => some (encVec 0x17 d a b.fmt.toBits b.p 0x3C)
  | .vcvtMx d a b => some (encVec 0x17 d a b.fmt.toBits b.p 0x3D)
  | .vdeq d a b => some (encVec 0x17 d a b.fmt.toBits b.p 0x3E)
  | .dlfl d => some (encVec 0x17 (d.setWidth 5) 0 0 31 0x3F)
  | .vslup d a b p => some (encVec 0x18 d a b p 0x00)
  | .vsldn d a b p => some (encVec 0x18 d a b p 0x01)
  | .vperm d a b p => some (encVec 0x18 d a b p 0x02)
  | .vcomp d a p => some (encVec 0x18 d a 0 p 0x03)
  | .vexp d a p => some (encVec 0x18 d a 0 p 0x04)
  | .vbc d a p => some (encVec 0x18 d a 0 p 0x05)
  | .vid d p => some (encVec 0x18 d 0 0 p 0x06)
  | .vmvs d a b => some (encVec 0x18 d a b 31 0x07)
  | .vmsv d a b => some (encVec 0x18 d a b 31 0x08)
  | .vrsum d a p => some (encVec 0x19 d a 0 p 0x00)
  | .vrosum d a p => some (encVec 0x19 d a 0 p 0x01)
  | .vrmin d a p => some (encVec 0x19 d a 0 p 0x02)
  | .vrmax d a p => some (encVec 0x19 d a 0 p 0x03)
  | .vrand d a p => some (encVec 0x19 d a 0 p 0x04)
  | .vror d a p => some (encVec 0x19 d a 0 p 0x05)
  | .vrxor d a p => some (encVec 0x19 d a 0 p 0x06)
  | .vscan d a b p => some (encVec 0x19 d a b.toBits p 0x07)
  | .pand d a b => some (encVec 0x1A d a b 31 0x00)
  | .por d a b => some (encVec 0x1A d a b 31 0x01)
  | .pxor d a b => some (encVec 0x1A d a b 31 0x02)
  | .pandn d a b => some (encVec 0x1A d a b 31 0x03)
  | .pnot d a => some (encVec 0x1A d a 0 31 0x04)
  | .pset d a => some (encVec 0x1A d a 0 31 0x05)
  | .pffs d a => some (encVec 0x1A d a 0 31 0x06)
  | .pcnt d a => some (encVec 0x1A d a 0 31 0x07)
  | .pmvv d a => some (encVec 0x1A d a 0 31 0x08)
  | .vld d a p nb t => some (encVec 0x1B d a 0 p (BitVec.ofBool nb ++ 0#3 ++ t.toBits))
  | .vlds d a b p nb t => some (encVec 0x1B d a b p (BitVec.ofBool nb ++ 1#3 ++ t.toBits))
  | .vldx d a b p nb t => some (encVec 0x1B d a b p (BitVec.ofBool nb ++ 2#3 ++ t.toBits))
  | .vldsg d a n p nb t => some (encVec 0x1B d a n p (BitVec.ofBool nb ++ 3#3 ++ t.toBits))
  | .vldff d a p t => some (encVec 0x1B d a 0 p (0#1 ++ 4#3 ++ t.toBits))
  | .vprobe d a b p => some (encVec 0x1B d a b p (0#1 ++ 5#3 ++ 0#2))
  | .vst d a p nb t => some (encVec 0x1C d a 0 p (BitVec.ofBool nb ++ 0#3 ++ t.toBits))
  | .vsts d a b p nb t => some (encVec 0x1C d a b p (BitVec.ofBool nb ++ 1#3 ++ t.toBits))
  | .vstx d a b p nb t => some (encVec 0x1C d a b p (BitVec.ofBool nb ++ 2#3 ++ t.toBits))
  | .vstsg d a n p nb t => some (encVec 0x1C d a n p (BitVec.ofBool nb ++ 3#3 ++ t.toBits))
  | .vstu d a p nb t => some (encVec 0x1C d a 0 p (BitVec.ofBool nb ++ 4#3 ++ t.toBits))
  | .vstxu d a b p nb t => some (encVec 0x1C d a b p (BitVec.ofBool nb ++ 5#3 ++ t.toBits))
  | .vamo d a b p nb op t => some (encVec 0x1D d a b p (BitVec.ofBool nb ++ op.toBits ++ t.toBits))
  | .bind d a b => some (encVec 0x1E (d.setWidth 5) a b 31 0x00)
  | .unbind d => some (encVec 0x1E (d.setWidth 5) 0 0 31 0x01)
  | .bndq d a => some (encVec 0x1E d (a.setWidth 5) 0 31 0x02)
  | .rowpin d a => some (encVec 0x1E d a 0 31 0x03)
  | .rowrel a => some (encVec 0x1E 0 a 0 31 0x04)
  | .rowq d a => some (encVec 0x1E d a 0 31 0x05)
  | .omcl b => some (encVec 0x1F 0 0 (b.setWidth 5) 31 0x00)
  | .omrl b => some (encVec 0x1F 0 0 (b.setWidth 5) 31 0x01)
  | .tld d a b => some (encVec 0x1F d a (b.setWidth 5) 31 0x02)
  | .mma d a b => some (encVec 0x1F (d.setWidth 5) a (b.setWidth 5) 31 0x03)
  | .accx d a b p => some (encVec 0x1F d (a.setWidth 5) b p 0x04)
  | .accxLink d a b p => some (encVec 0x1F (d.setWidth 5) (a.setWidth 5) b p 0x05)
  | .accz d => some (encVec 0x1F (d.setWidth 5) 0 0 31 0x06)
  | .bar sc => some (encSync 0x20 0 0 (0#7 ++ sc.toBits) 0x00)
  | .ipost a c => some (encSync 0x20 0 a (0#7 ++ c) 0x01)
  | .iwait a c => some (encSync 0x20 0 a (0#7 ++ c) 0x02)
  | .sacq a sc n => some (encSync 0x20 0 a (0#1 ++ sc.toBits ++ n) 0x03)
  | .srel a sc n => some (encSync 0x20 0 a (0#1 ++ sc.toBits ++ n) 0x04)
  | .stry d a sc n => some (encSync 0x20 d a (0#1 ++ sc.toBits ++ n) 0x05)
  | .qcnt d q => some (encSync 0x20 d 0 (0#7 ++ q) 0x06)
  | .qfl q => some (encSync 0x20 0 0 (0#7 ++ q) 0x07)
  | .tsplit d a => some (encSync 0x20 d a 0 0x08)
  | .spawn d a => some (encSync 0x20 d a 0 0x09)
  | .exit => some (encSync 0x20 0 0 0 0x0A)
  | .yield => some (encSync 0x20 0 0 0 0x0B)
  | .cpy d a b => some (encVec 0x21 d a b 31 0x00)
  | .gsp d a b p => some (encVec 0x21 d a b p 0x01)
  | .shp d a => some (encVec 0x21 d a 0 31 0x02)
  | .enq a b => some (encVec 0x21 0 a b 31 0x03)
  | .deq d a => some (encVec 0x21 d a 0 31 0x04)
  | .dnode d a => some (encVec 0x21 d a 0 31 0x05)
  | .dgo a => some (encVec 0x21 0 a 0 31 0x06)
  | .fgo a => some (encVec 0x21 0 a 0 31 0x07)
  | .fwait => some (encVec 0x21 0 0 0 31 0x08)
  | .cred d a b p op => some (encVec 0x22 d a (b.setWidth 5) p (0#3 ++ op.toBits))
  | .call d a b p op => some (encVec 0x22 d a (b.setWidth 5) p (1#3 ++ op.toBits))
  | .cgat d a b p => some (encVec 0x22 d a (b.setWidth 5) p 0x10)
  | .csct d a b p => some (encVec 0x22 d a (b.setWidth 5) p 0x18)
  | .cbc d a b p => some (encVec 0x22 d a (b.setWidth 5) p 0x20)
  | .cgrp d a => some (encVec 0x22 (d.setWidth 5) a 0 31 0x28)
  | .cgate a => some (encVec 0x22 0 (a.setWidth 5) 0 31 0x29)
  | .rwin d a b => some (encVec 0x22 d a b 31 0x2A)
  | .runmap a => some (encVec 0x22 0 a 0 31 0x2B)
  | .elementGroupIssue _ => none
  | .urgentWordAging _ => none
  | .asyncTrapTake _ => none
  | .hartDeadlockDetect _ => none
  | .barrierMismatchDetect _ => none
  | .barrierRelease _ => none
  | .sacqWaitComplete _ => none
  | .ipostWaitComplete _ => none
  | .iwaitWaitComplete _ => none
  | .queueWaitComplete _ => none
  | .semaphoreRelease _ _ => none
  | .nbAccessPost _ _ => none
  | .slotClearComplete _ _ => none
  | .tileClearComplete _ _ => none
  | .ringPoll _ _ _ => none
  | .distributorChoice _ => none
  | .teamPlace _ _ => none
  | .tcmImageLoad _ => none
  | .teamStart _ => none
  | .teamComplete _ => none
  | .forcedPreemption _ => none
  | .teamPreemptComplete _ => none
  | .gangStartProposal _ => none
  | .gangStartReply _ _ => none
  | .gangStartRetry _ => none
  | .rtinvPage _ _ => none
  | .rtinvAsid _ _ => none
  | .rtinvAll _ _ => none
  | .leaseBounce _ _ => none
  | .stripReadAhead _ _ => none
  | .fifeWord _ => none
  | .cpyqPush _ _ _ => none
  | .dgqPush _ _ _ => none
  | .cresPop _ => none
  | .qpPush _ _ _ => none
  | .qpPop _ _ => none
  | .qceChunk _ => none
  | .copyComplete _ => none
  | .softError _ _ => none
  | .partFailure _ _ => none
  | .powerLimitApplied _ => none
  | .dernyRead _ => none
  | .dernyWrite _ => none
  | .dernyAtomic _ => none
  | .dernyReadResponse _ => none
  | .dernyWriteResponse _ => none
  | .dernyAck _ => none
  | .dernyNack _ => none
  | .dernyCredit _ => none
  | .dernyTimeLaunch _ => none
  | .dernyManagement _ => none
  | .flitResendTimeout _ _ _ => none
  | .pcnxWrite _ _ _ => none
  | .podBankReady _ => none
  | .pcswWrite _ _ => none
  | .podStepSwitch _ => none
  | .packageRemovalRecognised _ _ => none
  | .packageResponseTimeout _ _ => none
  | .collectiveInstanceComplete _ => none
  | .collRingPoll _ _ _ => none
  | .collRequestComplete _ _ _ => none
  | .ulPause _ _ _ => none
  | .ulRetrain _ _ _ => none
  | .ulResume _ _ _ => none
  | .ulPauseDone _ _ => none
  | .ulRetrainDone _ _ _ _ => none
  | .ulRetryThreshold _ _ => none
  | .ulPacketFallback _ _ => none
  | .portLaneSpare _ _ _ => none
  | .portDown _ _ => none
  | .hostLinkDown _ => none
  | .hostLinkUp _ => none
  | .wavelengthFail _ _ _ => none
  | .wavelengthPark _ _ _ => none
  | .wavelengthWake _ _ _ => none
  | .chanterWatchdogExpiry _ => none
  | .chanterReboot _ => none
  | .hostRequest _ _ _ _ _ _ => none
  | .endpointRequest _ _ _ _ _ _ _ _ _ => none
  | .burupLockstepMismatch _ => none
  | .burupReloadComplete _ => none
  | .patrolScrubLine _ _ _ _ => none
  | .keyRotationStart _ => none
  | .rowRepair _ _ _ _ => none
  | .checkpointStart _ _ => none
  | .restoreStart _ _ => none
  | .ckctlOperationEnd _ _ => none
  | .packageReset _ => none
  | .bringupStep _ => none
  | .getVersion _ => none
  | .getCapabilities _ => none
  | .negotiateAlgorithms _ => none
  | .getDigests _ => none
  | .getCertificate _ => none
  | .challenge _ => none
  | .getMeasurements _ => none
  | .zoneSensorSample _ _ _ _ _ => none
  | .dryDetect _ _ => none
  | .dryClear _ _ => none
  | .zoneMoveComplete _ _ => none
  | .flcapWrite _ _ => none
  | .zthrWrite _ _ _ => none
  | .zstEvClear _ _ _ => none
  | .flowGrant _ => none
  | .evacuationStart _ => none
  | .evacuationPhaseEnd _ => none
  | .registerWrite _ _ _ => none
  | .illegalInstruction _ => none
  | .fetchFault => none
  | .linkLevelRetry _ _ _ _ => none
  | .laneErrorDetected _ _ => none
  | .portRetrainComplete _ _ => none

end Sys2Proof
end

