-- ==== Sys2Proof/Machine/Bits.lean ====
section
/-! DEFINITION. Bit-field, extension, counting and byte-order helpers. -/

namespace Sys2Proof.Machine

/-- Bits [lo + n - 1 : lo] of a word, as a number. -/
def bits (x : Word) (lo n : Nat) : Nat := (x.toNat >>> lo) % 2 ^ n

/-- Bit `i` of a word. -/
def bit (x : Word) (i : Nat) : Bool := x.getLsbD i

/-- A value placed at bit `lo` of a word. -/
def place (v lo : Nat) : Word := BitVec.ofNat 64 (v <<< lo)

/-- One bit as a number. -/
def bitNat (b : Bool) : Nat := if b then 1 else 0

/-- 1 or 0 as a word. -/
def flag (b : Bool) : Word := if b then 1 else 0

/-- `SExt(x, n)` of R77, for `n` from 1 to 64. -/
def sext (x : Word) (n : Nat) : Word := (x.setWidth n).signExtend 64

/-- `ZExt(x, n)` of R77. -/
def zext (x : Word) (n : Nat) : Word := (x.setWidth n).setWidth 64

/-- Number of one bits. -/
def popCount {w : Nat} (x : BitVec w) : Nat := (List.range w).countP x.getLsbD

/-- Number of leading zero bits; the width for zero. -/
def leadingZeros {w : Nat} (x : BitVec w) : Nat := if x = 0 then w else w - 1 - x.toNat.log2

/-- Number of trailing zero bits; the width for zero. -/
def trailingZeros {w : Nat} (x : BitVec w) : Nat :=
  match (List.range w).find? x.getLsbD with
  | some i => i
  | none => w

/-- The greatest multiple of `n` that does not exceed `a`. -/
def alignDown (a n : Nat) : Nat := a - a % n

/-- The least multiple of `n` that is not below `a`. -/
def alignUp (a n : Nat) : Nat := (a + n - 1) / n * n

/-- Quotient rounded up. -/
def ceilDiv (a n : Nat) : Nat := (a + n - 1) / n

/-- Little-endian bytes as a number: the first byte is least significant (R6). -/
def bytesToNat : List Byte → Nat
  | [] => 0
  | b :: bs => b.toNat + 256 * bytesToNat bs

/-- A number as `n` little-endian bytes (R6). -/
def natToBytes : Nat → Nat → List Byte
  | 0, _ => []
  | n + 1, x => BitVec.ofNat 8 x :: natToBytes n (x / 256)

/-- The words of a run of bytes, eight little-endian bytes each. -/
def bytesToWords : Nat → List Byte → List Word
  | 0, _ => []
  | n + 1, bs => BitVec.ofNat 64 (bytesToNat (bs.take 8)) :: bytesToWords n (bs.drop 8)

/-- The `i`-th word of a record; 0 past its end. -/
def wordAt (ws : List Word) (i : Nat) : Word := ws.getD i 0

/-- `f` from 0 up to `n` - 1 applied to a value, in ascending order. -/
def forUpTo {α : Type} (n : Nat) (f : Nat → α → α) (x : α) : α := (List.range n).foldl (fun y i => f i y) x

end Sys2Proof.Machine
end

