-- ==== Sys2Proof/Machine/State.lean ====
section
/-! DEFINITION. The state of the pod, as plain data, and the state after a package reset. -/

namespace Sys2Proof.Machine

/-- A table by key: pairs with rising keys; a key that is absent stands for the default record. -/
abbrev Tab (α : Type) := List (Nat × α)

/-! ### The hart -/

/-- One element of a digit link (R123, R315). -/
inductive LinkElem where
  | unproduced
  | final (value : Word)
  | consumed
  deriving DecidableEq, Repr

/-- An occupied digit link: its shape, the address of its producer (an image holds none, R315), and its elements (R123,
R128, R315). -/
structure Link where
  vl    : BitVec 12
  fmt   : BitVec 4
  ew    : BitVec 3
  pc    : Option Word
  elems : List LinkElem
  deriving DecidableEq, Repr

/-- A group register (R346), and the member table of the descriptor that set it (R347). -/
structure Group where
  valid : Bool := false
  scope : BitVec 3 := 0
  tag   : BitVec 16 := 0
  gid   : BitVec 32 := 0
  seq   : BitVec 22 := 0
  nm1   : BitVec 21 := 0
  rank  : BitVec 21 := 0
  mtab  : Word := 0
  deriving DecidableEq, Repr

/-- A stream binding record (R245, R246): the register and type bound, the descriptor as advanced (R247) with its own
FMT, and the strips read ahead, each as the bytes it read. -/
structure Binding where
  reg     : BitVec 5
  gf      : BitVec 2
  fmt     : BitVec 4
  ew      : BitVec 3
  base    : Word
  stride  : Word
  sbase   : Word
  sstride : BitVec 24
  count   : BitVec 24
  planar  : Bool
  dfmt    : BitVec 4
  ahead   : List (List Host.Cell)
  deriving DecidableEq, Repr

/-- The loop state of `zol` (R92) and the hart's copy of the nest record (R93): the record's eight words. -/
structure Zol where
  zlr  : Word := 0
  zlb  : Word := 0
  act  : Bool := false
  sav  : Bool := false
  len  : BitVec 5 := 0
  pass : BitVec 48 := 0
  nest : List Word := []
  deriving DecidableEq, Repr

/-- What a waiting word waits on (R208, R209, R217, R268, R269 and the other chapters); `stopped` is a hart that a forced
pre-emption has stopped and whose outstanding accesses have yet to post before it is saved (R311, R313). -/
inductive Wait where
  | bar (sc : Scope)
  | split (key : BitVec 32) (d : BitVec 5)
  | rejoin (d : BitVec 5)
  | sem (n : BitVec 6) (amount : BitVec 48)
  | ipost (ch : BitVec 3) (i : BitVec 47)
  | iwait (ch : BitVec 3) (i : BitVec 47)
  | queuePop (q : BitVec 3)
  | queuePush (q : BitVec 3)
  | cpyq (c : CoreId)
  | dgq (c : CoreId)
  | cres (c : CoreId)
  | rowQueue
  | burup (p : PkgId)
  | slot (n : BitVec 4)
  | tile (n : BitVec 3)
  | fife
  | shape
  | spawnQueue
  | interlock
  | fence
  | collective
  | interrupt
  | stopped
  deriving DecidableEq, Repr

/-- What a hart context is doing: free (R23), running, or waiting in the word at `pc`. -/
inductive Run where
  | free
  | running
  | waiting (w : Wait)
  deriving DecidableEq, Repr

/-- A pending asynchronous cause (R303): its code and the value for `tval`. -/
structure Pending where
  cause : BitVec 10
  tval  : Word
  deriving DecidableEq, Repr

/-- How an outstanding non-blocking access treats its elements (R165). -/
inductive NbKind where
  | load
  | store
  | amo (op : VamoOp)
  deriving DecidableEq, Repr

/-- One position of a vector memory word, or one block: its number, and the addresses of its fields. -/
structure VItem where
  pos   : Nat
  addrs : List Word
  deriving DecidableEq, Repr

/-- An outstanding non-blocking vector access (R165): what it does, its semaphore, the bytes it posts, its destination or
data group under the type it was issued with, its rounding mode, its items (a local one with the homes of its fields, as
the word's checks found them) and the positions of them that it performs,
the data registers of a store as they stood, the registers a later word waits for (to read or write, or to write), and the
packages found lost while it may have accesses to them under way (R340). -/
structure NbAccess where
  kind    : NbKind
  sem     : BitVec 6
  bytes   : Nat
  d       : BitVec 5
  ew      : Nat
  fmt     : Nat
  gf      : Nat
  rm      : BitVec 3
  items   : List (VItem × Option (List (List Nat)))
  mask    : PredBits
  data    : List (Nat × VecReg)
  noTouch : List Nat
  noWrite : List Nat
  caught  : List PkgId
  deriving DecidableEq, Repr

/-- A collective word that has arrived at its instance (R350): its F6, the group register and what it held, the
operands, the type and length, the contribution, and the queues and the records of bound streams that it was read from, with
the positions they lost (R247). -/
structure CollArrival where
  f6    : BitVec 6
  group : BitVec 4
  reg   : Group
  d     : BitVec 5
  a     : BitVec 5
  p     : BitVec 5
  vl    : BitVec 12
  fmt   : Nat
  ew    : Nat
  xs    : List Nat
  queues  : List Nat
  records : List (Nat × List Nat)
  deriving DecidableEq, Repr

/-- How far a hart's front end has run past the word at `pc` (R181): how many words, and how many positions have been issued
of each queued word that stands so many words past `pc`; the cycles that the oldest queued word has waited (R185); and the
packages found lost since the word at `pc` came there, to which it may have accesses under way (R340); and the `flow` words
that have been performed ahead, by their distance past `pc`, with what they return (R415). -/
structure Front where
  ahead  : Nat := 0
  issued : List (Nat × Nat) := []
  wait   : Nat := 0
  caught : List PkgId := []
  flows  : List (Nat × Word) := []
  deriving DecidableEq, Repr

/-- A digit link that `dlfl` has emptied while its producer was interrupted (R128): its number, the shape that the resumed
producer occupies it under again, the address of the producer, and the position it resumes at. -/
structure Flushed where
  num  : BitVec 3
  vl   : BitVec 12
  fmt  : BitVec 4
  ew   : BitVec 3
  pc   : Option Word
  next : BitVec 11
  deriving DecidableEq, Repr

/-- One hart context (R10, R12, R92, R188, R245, R299, R314, R346). -/
structure Hart where
  pos     : HartId
  run     : Run
  team    : TeamId
  s       : Vector Word 32
  v       : Vector VecReg 32
  p       : Vector PredBits 24
  vq      : Vector (List VecReg) 4
  sq      : Vector (List Word) 4
  dl      : Vector (Option Link) 8
  g       : Vector Group 16
  b       : Vector (Option Binding) 8
  pc      : Word
  vl      : BitVec 12
  vty     : Word
  vix     : BitVec 11
  fcsr    : BitVec 11
  xlm     : Word
  fm      : PredBits
  rerr    : Word
  fthr    : BitVec 20
  zol     : Zol
  hrk     : Word
  depth   : BitVec 4
  levels  : List (BitVec 32 × Word)
  qmap    : BitVec 32
  flw     : Word
  tcause  : BitVec 10
  tval    : Word
  tepc    : Word
  tvec    : Word
  hs      : Bool
  phs     : Bool
  asy     : Bool
  nest    : Bool
  prq     : Bool
  tscr    : Word
  psa     : Word
  sg      : Nat
  pending : List Pending
  tickets : BitVec 16
  handles : List Word
  nb      : List NbAccess
  ibuf    : List (Nat × BitVec 32)
  front   : Front
  flushed : List Flushed
  coll    : Option CollArrival
  deriving DecidableEq, Repr

/-! ### The core -/

/-- A counting semaphore (R211, R212): the claiming team, the sticky status, the count, and the harts that wait, in
the order of their arrival. -/
structure Sema where
  team    : Option TeamId := none
  ovf     : Bool := false
  rerr    : Bool := false
  tfail   : Bool := false
  count   : BitVec 48 := 0
  waiters : List HartId := []
  deriving DecidableEq, Repr

/-- State of an operand slot (R169): empty, filling, ready. -/
inductive SlotSt where
  | empty | filling | ready
  deriving DecidableEq, Repr

/-- An operand slot (R169, R170): owner, state, format, extents, the code bytes and the side store by byte offset. -/
structure Slot where
  own      : Option HartId := none
  clearing : Bool := false
  st       : SlotSt := .empty
  fmt      : BitVec 4 := 0
  ew       : BitVec 3 := 0
  kr       : Nat := 0
  n        : Nat := 0
  kc       : Nat := 0
  codes    : List Host.Cell := []
  side     : List Host.Cell := []
  copies   : Nat := 0
  maxKr    : Nat := 0
  maxN     : Nat := 0
  deriving DecidableEq, Repr

/-- Class of an accumulator entry (R45). -/
inductive AccCls where
  | finite | inf | nan
  deriving DecidableEq, Repr

/-- An accumulator entry in wide accumulator format (R45). -/
structure AccEntry where
  cls  : AccCls := .finite
  sign : Bool := false
  m    : BitVec 96 := 0
  e    : Int := 0
  deriving DecidableEq, Repr

/-- An accumulator tile (R171): owner and the entries that are not +0, by number 0 to 2,047. -/
structure Tile where
  own      : Option HartId := none
  clearing : Bool := false
  entries  : Tab AccEntry := []
  deriving DecidableEq, Repr

/-- State of the Fife (R271). -/
inductive FifeSt where
  | idle | running | paused | faulted
  deriving DecidableEq, Repr

/-- The Fife of a core (R271): its status, its own registers, type, length and loop state; what its word waits on, and whether
R220 counts that wait as one on a queue of its owner; the node whose program it runs, and the hart whose `fgo`, or push of
that node, started it (R102). -/
structure Fife where
  st    : FifeSt := .idle
  owner : BitVec 2 := 0
  rerr  : Bool := false
  cause : BitVec 10 := 0
  fpc   : Word := 0
  fva   : Word := 0
  s     : Vector Word 32 := Vector.replicate 32 0
  vty   : Word := 0
  vl    : BitVec 12 := 0
  zol   : Zol := {}
  wait  : Option Wait := none
  onQueue : Bool := false
  node  : Option (BitVec 8) := none
  pusher : Option HartId := none
  deriving DecidableEq, Repr

/-- A shape record (R279): the claiming team and the descriptor's sixteen words once defined. -/
structure ShapeRec where
  team : Option TeamId := none
  desc : Option (List Word) := none
  deriving DecidableEq, Repr

/-- A graph node (R291): the claiming team, the descriptor's four words, the count, how many of its launches have not
finished, and the hart that defined it. -/
structure Node where
  team  : Option TeamId := none
  desc  : Option (List Word) := none
  count : Nat := 0
  runs  : Nat := 0
  hart  : HartId := 0
  deriving DecidableEq, Repr

/-- What an accepted command of a core's CPYQ moves: a copy command block (R282) from a start position, or the
gathered rows of `gsp` (R290), by position and row number, with the trimmed length. -/
inductive CmdKind where
  | copy (block : List Word) (start : Nat)
  | rows (shape : BitVec 6) (dst : Word) (g : Nat) (rows : List (Nat × Nat))
  deriving DecidableEq, Repr

/-- An accepted command of a core's CPYQ (R283, R288 to R290), with the shape descriptors it was accepted with, and
its progress: the next position, the element within a gathered row, the elements written but not yet performed, newest
first (R258), how it has ended, whether the slot it fills has been released since (R170), and the hart that pushed it, by its
own word or by a push of its node (R102). -/
structure Cmd where
  kind   : CmdKind
  src    : List Word
  dst    : List Word
  cmp    : BitVec 2
  sem    : BitVec 6
  ticket : BitVec 16
  hart   : HartId
  team   : TeamId
  node   : Option (BitVec 8)
  next   : Nat
  col    : Nat
  staged : List (Word × List Host.Cell)
  loose  : Bool
  failed : Option (BitVec 2 × BitVec 10)
  oob    : Bool
  part   : Bool
  clip   : Bool
  canc   : Bool
  pusher : Option HartId
  deriving DecidableEq, Repr

/-- A launched node that waits to run (R294): its number, and the hart whose word pushed it, if one did (R102). -/
structure Launch where
  node   : BitVec 8
  pusher : Option HartId
  deriving DecidableEq, Repr

/-- One entry of a lane TLB bank, or of a die's remote translation cache (R236). -/
structure TlbEntry where
  asid  : BitVec 9
  unit  : BitVec 7
  level : Nat
  page  : Nat
  frame : Nat
  r     : Bool
  w     : Bool
  x     : Bool
  deriving DecidableEq, Repr

/-- One vector core: semaphores, slots, tiles, the Fife, shape records, graph nodes, command queues, the harts of failed
teams as they stood, one for each access they left outstanding (R366), TLB banks. -/
structure Core where
  sm     : Vector Sema 64 := Vector.replicate 64 {}
  slots  : Vector Slot 16 := Vector.replicate 16 {}
  tiles  : Vector Tile 8 := Vector.replicate 8 {}
  fife   : Fife := {}
  shapes : Tab ShapeRec := []
  nodes  : Tab Node := []
  cpyq   : List Cmd := []
  launch : List Launch := []
  cres   : List Word := []
  orphans : List Hart := []
  tlb    : Tab (List TlbEntry) := []
  failed : Bool := false
  deriving DecidableEq, Repr

/-! ### Teams -/

/-- A launch record (R189), sixteen words. -/
abbrev LaunchRec := List Word

/-- Where a launch came from (R193, R200): a ring of the package, with the record's index, or a spawning core. -/
inductive Source where
  | ring (ring : Nat) (seq : Word)
  | spawn (core : CoreId) (team : TeamId)
  deriving DecidableEq, Repr

/-- Where a team stands (R194 to R198, R309 to R312, R345). -/
inductive TeamSt where
  | accepted
  | chosen
  | placed
  | running
  | preempting
  | preempted
  | completed
  deriving DecidableEq, Repr

/-- A read-only remote window of a die (R341): the claiming team, the base, the size in bytes, and the lines held for it
since it was mapped (R248), by line number. -/
structure Window where
  team  : TeamId
  base  : Word
  size  : Nat
  lines : List (Nat × List (BitVec 8)) := []
  deriving DecidableEq, Repr

/-- The core and die resources that travel with a pre-empted team (R312), by team coordinates and number, and the places
that the team has left; of the TCM bytes, the frame that holds them and their offsets; and the launched nodes that wait for a
saved hart (R294). -/
structure Custody where
  places  : List HartId := []
  sems    : List (Nat × Nat × Sema) := []
  shapes  : List (Nat × Nat × ShapeRec) := []
  nodes   : List (Nat × Nat × Node) := []
  iters   : List (Nat × Nat × Nat) := []
  windows : List (Nat × Nat × Window) := []
  tcm     : List (Nat × Word × List Nat) := []
  launch  : List (Nat × Launch) := []
  deriving DecidableEq, Repr

/-- Where a saved hart's image stands (R310, R311): its address, whether that is physical (R313), the hart as it stood,
and the graph node whose program its Fife was running. -/
structure Saved where
  rank     : Nat
  addr     : Word
  physical : Bool
  hart     : Hart
  node     : Option (BitVec 8)
  deriving DecidableEq, Repr

/-- A team (R187 to R202): identity, the package and context it was launched into, priority, record, source, where it
stands, its places in rank order, the ranks that live, heat class and pending request for another (R415), the order of
its choice, its start or its pre-emption, its start tick, the replies for it and whether it is committed (R345), whether
its TCM images are loaded, its status and cause, the frames it holds, and what is saved of it. Of a team placed and not
yet started: the shares at its placement (R184), the causes that await its harts and whether a request to pre-empt it
awaits its start (R306); and the base of its ring at its acceptance (R392). -/
structure Team where
  id      : TeamId
  pkg     : PkgId
  asid    : BitVec 9
  prio    : BitVec 4
  record  : LaunchRec
  source  : Source
  st      : TeamSt
  places  : List HartId
  live    : List Nat
  hc      : BitVec 4
  flow    : Option (Nat × BitVec 4)
  order   : Nat
  start   : Word
  replies : List PkgId
  images  : Bool
  status  : BitVec 8
  cause   : Option (BitVec 10)
  frames  : List (Nat × Word)
  saved   : List Saved
  kept    : Custody
  committed : Bool := false
  sgs     : List Nat := []
  owed    : List (HartId × Pending) := []
  asked   : Bool := false
  ringAt  : Word := 0
  deriving DecidableEq, Repr

/-! ### Quads, dies, packages, the pod -/

/-- The copy engine of a quad (R289) and its row queue (R290), and whether the quad has failed (R396) or halted for its
zone's temperature (R411). -/
structure Quad where
  turn   : BitVec 2 := 0
  rows   : Nat := 0
  failed : Bool := false
  halted : Bool := false
  deriving DecidableEq, Repr

/-- An iteration channel of a die (R221). -/
structure IterChan where
  team  : Option TeamId := none
  count : Nat := 0
  deriving DecidableEq, Repr

/-- A row buffer (R237), one of the 8 of a channel (R229): generation, and while pinned the row, the team, and whether its
page was writable; a row kept for a pre-empted team stays reserved (R243). -/
structure RowBuf where
  gen   : BitVec 24 := 0
  row   : Option Nat := none
  team  : TeamId := 0
  w     : Bool := false
  saved : Bool := false
  deriving DecidableEq, Repr

/-- A group of 8 wavelengths with its spare, number 8 (R382, R383): the failed ones, whether the spare is in use and for
which wavelength, the parked. -/
structure WaveGroup where
  failed : List (BitVec 4) := []
  spare  : Bool := false
  serves : BitVec 4 := 0
  parked : List (BitVec 4) := []
  deriving DecidableEq, Repr

/-- The Chanter of an optical engine (R384): whether it runs, whether its image has failed verification, the ticks of its
expiries, the wavelengths moved since. -/
structure Chanter where
  up    : Bool := false
  held  : Bool := false
  last  : List Word := []
  moved : Nat := 0
  deriving DecidableEq, Repr

/-- The lanes that a module's redundant lanes stand in for (R376), from the die and from the chiplet, by lane number. -/
structure Spared where
  t : Word := 0
  r : Word := 0
  deriving DecidableEq, Repr

/-- A compute die or an I/O die: iteration channels, windows, row buffers, the remote
translation cache, the spawn queue, home bytes older than dirty copies, what has failed, the UCIe modules under a
hardware sequence (R377), the detected errors of each of their lanes and the bad lanes that a retraining began with (R374), the lanes spared (R376),
the start and the retries of each module's window (R377), the modules whose traffic has moved (R378), repaired rows by bank,
corrected events by row and the lines scrubbed in each channel's pass (R398, R400), the channels in a bounce (R242),
wavelength groups and the Chanter. -/
structure Die where
  iters    : Vector IterChan 8 := Vector.replicate 8 {}
  windows  : Tab Window := []
  rows     : Tab RowBuf := []
  remote   : List TlbEntry := []
  spawnq   : List TeamId := []
  unwritten : List Host.Cell := []
  failed   : Bool := false
  spare    : Bool := false
  auto     : List Nat := []
  laneErrs : Tab Nat := []
  badLanes : Tab (Word × Word) := []
  spared   : Tab Spared := []
  window   : Tab (Word × Nat) := []
  moved    : List Nat := []
  repairs  : Tab Nat := []
  corrected : Tab Nat := []
  scrubbed : Tab (List Nat) := []
  bounces  : List (BitVec 6) := []
  waves    : Tab WaveGroup := []
  chanter  : Chanter := {}
  deriving DecidableEq, Repr

/-- An accepted request of a collective ring (R358, R359): context, ring base, number, LN, the request's words, its group
descriptor, whether it is opened, and by which `cgate` (R361). -/
structure CollReq where
  asid   : BitVec 9
  base   : Word
  n      : Nat
  ln     : Nat
  req    : List Word
  desc   : List Word
  opened : Bool
  batch  : Nat
  deriving DecidableEq, Repr

/-- The form of a package (R1, R2): a partner package of `dies + 1` compute dies built from the RLD-D1, the RLD-P8, or
the RLD-M8. -/
inductive Form where
  | d1 (dies : Fin 8)
  | p8
  | m8
  deriving DecidableEq, Repr

/-- A signed firmware image (R404): its SHA-512 digest, the key that signed it, by hash, the digest that the signature
covers, and its security version. -/
structure Firmware where
  digest  : BitVec 512 := 0
  signer  : BitVec 512 := 0
  signed  : BitVec 512 := 0
  version : Nat := 0
  deriving DecidableEq, Repr

/-- What the root of trust and Burup verify at bring-up (R404): the fused vendor key hash and least security version, the
two Burup images, and the Chanter, endpoint and distributor images. -/
structure Boot where
  keyHash  : BitVec 512 := 0
  least    : Nat := 0
  burup    : Firmware := {}
  fallback : Firmware := {}
  chanter  : Firmware := {}
  endpoint : Firmware := {}
  distributor : Firmware := {}
  deriving DecidableEq, Repr

/-- A checkpoint or restore that runs (R402): the tier address it latched, whether it restores, and whether its transfer has
begun. -/
structure TierOp where
  dest    : Word
  restore : Bool
  begun   : Bool
  deriving DecidableEq, Repr

/-- The form and the reload states of a package: its bring-up step (R406), the host link (R381), the source chosen last
(R195), the collective requests outstanding, whether Burup reloads (R397) and the events it has not yet logged, the key
versions that its root of trust holds (R398, R402), for each coolant zone how many samples its differential pressure and
its flow have been out of bounds (R411), whether peers have isolated it since its last reset (R338), its firmware, and the
checkpoint or restore that runs (R402). -/
structure Pkg where
  form    : Form := .p8
  step    : Nat := 0
  hostUp  : Bool := false
  last    : Nat := 0
  reqs    : List CollReq := []
  reload  : Bool := false
  events  : List (List Word) := []
  keys    : List (BitVec 16) := [0]
  zones   : Tab (Nat × Nat) := []
  isolated : Bool := false
  boot    : Boot := {}
  op      : Option TierOp := none
  deriving DecidableEq, Repr

/-! ### The fabric (R333 to R335) -/

/-- A flit (R333): byte i at [8i + 7 : 8i]. -/
abbrev Flit := BitVec 2048

/-- One stream (source die, target die, class): the sender's next sequence number and unacknowledged flits, the number
the receiver expects, flits held out of order, the responses recorded in the replay cache by sequence number, and the
credits. -/
structure Stream where
  next   : BitVec 32 := 0
  sent   : List Flit := []
  expect : BitVec 32 := 0
  held   : List Flit := []
  replay : List (BitVec 32 × Flit) := []
  credit : Nat := 0
  deriving DecidableEq, Repr

/-- A checkpoint image in the memory tier (R402, R403): where it begins, the package that wrote it, its size, its bytes and
poisoned lines by their place in the package, for each channel a line number and the key version of the lines from it, those
below being under the next, and the parts of the tier that later images have overwritten. -/
structure TierImage where
  dest   : Word
  pkg    : PkgId
  size   : Nat
  bytes  : List Host.Cell
  poison : List (Nat × BitVec 10)
  keys   : List (Nat × Nat × BitVec 16)
  torn   : List (Nat × Nat)
  deriving DecidableEq, Repr

/-- A team that has failed with status 1, and its ranks that lived then (R194, R355). -/
structure Fallen where
  team  : TeamId
  ranks : List Nat
  deriving DecidableEq, Repr

/-- A member of a group as its own `cgrp`, or its request in a ring, named it: the ASID, the address of the member table, the
rank, and the entry (R347, R348, R359). -/
structure Enrolled where
  asid  : BitVec 9
  mtab  : Word
  rank  : Nat
  entry : Word
  deriving DecidableEq, Repr

/-- What the host, or a master at an endpoint, has been answered last: served, with the data read; a Completer Abort;
rejected with a cause (R388); or a line as ciphertext, with its key version and its tag (R401). -/
inductive Answer where
  | done (data : List (BitVec 8))
  | abort
  | rejected (cause : BitVec 10)
  | sealed (key : BitVec 16) (line : BitVec 512) (tag : Word)
  deriving DecidableEq, Repr

/-- One entry of the agenda: whose turn is next, or whose front end runs one word ahead (R181), and what reaches the
machine. -/
inductive Turn where
  | hart (h : HartId)
  | group (h : HartId) (n : Nat)
  | front (h : HartId)
  | event (i : Instr)
  deriving DecidableEq, Repr

/-- The pod. `hart` is the hart whose turn it is; `parked` are the other hart contexts; `failedTeams` are the teams that
have failed with status 1 (R355), `roster` the members of groups that have named themselves. `wire` are the Derny flits
under way, `answer` the last answer to the host or at an endpoint. -/
structure State where
  hart   : Hart
  parked : List Hart
  cores  : Tab Core
  quads  : Tab Quad
  dies   : Tab Die
  pkgs   : Tab Pkg
  teams  : Tab Team
  failedTeams : List Fallen
  roster : List Enrolled
  mem    : List Host.Cell
  dev    : Tab Word
  poison : Tab (BitVec 10)
  streams : Tab Stream
  wire   : List Flit
  answer : Option Answer
  tier   : List TierImage
  now    : Word
  agenda : List Turn
  stop   : Option Nat
  free   : Nat
  teamCount : Nat
  deriving DecidableEq, Repr

/-! ### Stops -/

/-- Why the machine stops with a fault: never. Every failure of the specification is a trap, a status or an event, and has a
next state. -/
inductive Fault where
  deriving DecidableEq, Repr

/-- Why the model gives no next state. -/
inductive Refusal where
  /-- Raised by `exec` for an instruction that has no meaning yet. Safe: no claim is proved about it. -/
  | notModelled (mnemonic : String)
  deriving DecidableEq, Repr

/-! ### Reset -/

/-- A hart context as `TEAM_START` finds it, at the start values of R23 and of the CSR tables; the values that the
launch supplies stand at 0 (log entry 3). -/
def Hart.reset : Hart where
  pos := 0
  run := .free
  team := 0
  s := Vector.replicate 32 0
  v := Vector.replicate 32 0
  p := Vector.replicate 24 0
  vq := Vector.replicate 4 []
  sq := Vector.replicate 4 []
  dl := Vector.replicate 8 none
  g := Vector.replicate 16 {}
  b := Vector.replicate 8 none
  pc := 0
  vl := 0
  vty := 0x8000000000000000
  vix := 0
  fcsr := 0
  xlm := 0
  fm := 0
  rerr := 0
  fthr := 0x800
  zol := {}
  hrk := 0
  depth := 0
  levels := []
  qmap := 0
  flw := 0
  tcause := 0
  tval := 0
  tepc := 0
  tvec := 0
  hs := false
  phs := false
  asy := false
  nest := false
  prq := false
  tscr := 0
  psa := 0
  sg := 4
  pending := []
  tickets := 0
  handles := []
  nb := []
  ibuf := []
  front := {}
  flushed := []
  coll := none

/-- The pod after a package reset (R23, R406): no hart runs, memory lists nothing. -/
def State.reset : State where
  hart := Hart.reset
  parked := []
  cores := []
  quads := []
  dies := []
  pkgs := []
  teams := []
  failedTeams := []
  roster := []
  mem := []
  dev := []
  poison := []
  streams := []
  wire := []
  answer := none
  tier := []
  now := 0
  agenda := []
  stop := none
  free := 0
  teamCount := 0

end Sys2Proof.Machine
end

