-- ==== Sys2Proof/Machine/Ops.lean ====
section
/-! DEFINITION. Operations over the registers, the tables and the hart: retirement, taking an exception and returning
from one. -/

namespace Sys2Proof.Machine

/-- What a meaning answers. -/
abbrev Res := Host.Outcome State Fault Refusal

/-! ### Tables -/

/-- The record of a key. -/
def Tab.find {α : Type} (t : Tab α) (k : Nat) : Option α :=
  match t with
  | [] => none
  | (j, x) :: rest => if j = k then some x else Tab.find rest k

/-- The record of a key, or the default. -/
def Tab.getD {α : Type} (t : Tab α) (k : Nat) (d : α) : α := (t.find k).getD d

/-- The table with a record stored, keys rising. -/
def Tab.put {α : Type} (t : Tab α) (k : Nat) (x : α) : Tab α :=
  match t with
  | [] => [(k, x)]
  | (j, y) :: rest => if k < j then (k, x) :: (j, y) :: rest else if j = k then (k, x) :: rest else (j, y) :: Tab.put rest k x

/-- The table without a key. -/
def Tab.drop {α : Type} (t : Tab α) (k : Nat) : Tab α := t.filter fun x => x.1 != k

/-! ### Positions (R188) -/

/-- The core of a hart. -/
def coreOf (h : HartId) : CoreId := h.extractLsb' 2 19
/-- The quad of a core. -/
def quadOf (c : CoreId) : QuadId := c.extractLsb' 2 17
/-- The package of a core. -/
def pkgOfCore (c : CoreId) : PkgId := c.extractLsb' 10 9
/-- The die of a core, as addresses name it. -/
def dieOfCore (c : CoreId) : DieId := c.extractLsb' 10 9 ++ (0#1 ++ c.extractLsb' 7 3)
/-- The number of a core within its die, 4 × QUAD + CORE (R269). -/
def coreInDie (c : CoreId) : Nat := (c.extractLsb' 0 7).toNat
/-- The quad number of a core within its die. -/
def quadInDie (c : CoreId) : Nat := (c.extractLsb' 2 5).toNat
/-- The package of a hart. -/
def pkgOf (h : HartId) : PkgId := pkgOfCore (coreOf h)
/-- The die of a hart. -/
def dieOf (h : HartId) : DieId := dieOfCore (coreOf h)
/-- The hart's number within its core. -/
def hartInCore (h : HartId) : BitVec 2 := h.extractLsb' 0 2
/-- The package of a die. -/
def pkgOfDie (d : DieId) : PkgId := d.extractLsb' 4 9
/-- The die number within its package. -/
def dieInPkg (d : DieId) : BitVec 4 := d.extractLsb' 0 4
/-- A core of a die, by its number within the die. -/
def coreAt (d : DieId) (n : Nat) : CoreId := pkgOfDie d ++ (dieInPkg d).setWidth 3 ++ BitVec.ofNat 7 n
/-- A quad of a die, by its number. -/
def quadAt (d : DieId) (n : Nat) : QuadId := pkgOfDie d ++ (dieInPkg d).setWidth 3 ++ BitVec.ofNat 5 n
/-- The die of a quad. -/
def dieOfQuad (q : QuadId) : DieId := q.extractLsb' 8 9 ++ (0#1 ++ q.extractLsb' 5 3)
/-- The die of a package. -/
def dieAt (p : PkgId) (n : Nat) : DieId := p ++ BitVec.ofNat 4 n

/-! ### Registers of a hart -/

/-- A scalar register; `s0` reads as zero (R10). -/
def Hart.getS (h : Hart) (r : BitVec 5) : Word := if r = 0 then 0 else h.s.get r.toFin

/-- A scalar register written; a write to `s0` is discarded (R10, R79). -/
def Hart.setS (h : Hart) (r : BitVec 5) (x : Word) : Hart :=
  if r = 0 then h else { h with s := h.s.set r.toFin x }

/-- A vector register. -/
def Hart.getV (h : Hart) (r : BitVec 5) : VecReg := h.v.get r.toFin
/-- A vector register written. -/
def Hart.setV (h : Hart) (r : BitVec 5) (x : VecReg) : Hart := { h with v := h.v.set r.toFin x }

/-- A predicate register; the decoder admits 0 to 23 only (R50). -/
def Hart.getP (h : Hart) (r : BitVec 5) : PredBits := if _h : r.toNat < 24 then h.p[r.toNat] else 0
/-- A predicate register written. -/
def Hart.setP (h : Hart) (r : BitVec 5) (x : PredBits) : Hart :=
  if _h : r.toNat < 24 then { h with p := h.p.set r.toNat x } else h

/-- A scalar register of the hart whose turn it is. -/
def State.getS (s : State) (r : BitVec 5) : Word := s.hart.getS r
/-- A scalar register of that hart written. -/
def State.setS (s : State) (r : BitVec 5) (x : Word) : State := { s with hart := s.hart.setS r x }
/-- A vector register of that hart. -/
def State.getV (s : State) (r : BitVec 5) : VecReg := s.hart.getV r
/-- A vector register of that hart written. -/
def State.setV (s : State) (r : BitVec 5) (x : VecReg) : State := { s with hart := s.hart.setV r x }
/-- A predicate register of that hart. -/
def State.getP (s : State) (r : BitVec 5) : PredBits := s.hart.getP r
/-- A predicate register of that hart written. -/
def State.setP (s : State) (r : BitVec 5) (x : PredBits) : State := { s with hart := s.hart.setP r x }

/-! ### Harts, cores, dies, teams of the state -/

/-- Every hart context the state lists. -/
def State.harts (s : State) : List Hart := s.hart :: s.parked

/-- The hart context at a position; a context that is not listed is free. -/
def State.hartAt (s : State) (h : HartId) : Hart :=
  if s.hart.pos = h then s.hart
  else match s.parked.find? (fun x => x.pos == h) with
    | some x => x
    | none => { Hart.reset with pos := h }

/-- A hart context stored at its own position. -/
def State.putHart (s : State) (x : Hart) : State :=
  if s.hart.pos = x.pos then { s with hart := x }
  else if s.parked.any (fun y => y.pos == x.pos) then
    { s with parked := s.parked.map fun y => if y.pos == x.pos then x else y }
  else { s with parked := s.parked ++ [x] }

/-- The turn passes to a hart: its context comes to `hart`, and the one that was there is parked. -/
def State.select (s : State) (h : HartId) : State :=
  if s.hart.pos = h then s
  else { s with hart := s.hartAt h, parked := s.parked.filter (fun x => x.pos != h) ++ [s.hart] }

/-- A change made as the given hart, with the turn returned afterwards. -/
def State.onHart (s : State) (h : HartId) (f : State → State) : State := (f (s.select h)).select s.hart.pos

/-- The record of a core. -/
def State.core (s : State) (c : CoreId) : Core := s.cores.getD c.toNat {}
/-- A core's record stored. -/
def State.setCore (s : State) (c : CoreId) (x : Core) : State := { s with cores := s.cores.put c.toNat x }
/-- The core of the hart whose turn it is. -/
def State.myCore (s : State) : Core := s.core (coreOf s.hart.pos)
/-- That core's record stored. -/
def State.setMyCore (s : State) (x : Core) : State := s.setCore (coreOf s.hart.pos) x
/-- The record of a quad. -/
def State.quad (s : State) (q : QuadId) : Quad := s.quads.getD q.toNat {}
/-- A quad's record stored. -/
def State.setQuad (s : State) (q : QuadId) (x : Quad) : State := { s with quads := s.quads.put q.toNat x }
/-- The record of a die. -/
def State.die (s : State) (d : DieId) : Die := s.dies.getD d.toNat {}
/-- A die's record stored. -/
def State.setDie (s : State) (d : DieId) (x : Die) : State := { s with dies := s.dies.put d.toNat x }
/-- The record of a package. -/
def State.pkg (s : State) (p : PkgId) : Pkg := s.pkgs.getD p.toNat {}
/-- A package's record stored. -/
def State.setPkg (s : State) (p : PkgId) (x : Pkg) : State := { s with pkgs := s.pkgs.put p.toNat x }
/-- Compute dies of a package of a form, numbered from 0 (R1, R2). -/
def Form.dies : Form → Nat
  | .d1 n => n.val + 1
  | .p8 | .m8 => 8
/-- Compute dies that a package holds (R2). -/
def State.computeDies (s : State) (p : PkgId) : Nat := (s.pkg p).form.dies
/-- The record of a team. -/
def State.team (s : State) (t : TeamId) : Option Team := s.teams.find t.toNat
/-- A team's record stored. -/
def State.setTeam (s : State) (x : Team) : State := { s with teams := s.teams.put x.id.toNat x }

/-- A hart context that holds a placed hart. -/
def Hart.placed (h : Hart) : Bool := h.run != .free

/-- A forced pre-emption has stopped the hart, which awaits its save (R311, R313). -/
def Hart.stopped (h : Hart) : Bool := h.run == .waiting .stopped

/-- The placed harts of a core, in no order that matters. -/
def State.hartsOn (s : State) (c : CoreId) : List Hart := s.harts.filter fun h => h.placed && coreOf h.pos == c

/-- Places that a placed team takes at its start: its live ranks' (R183, R197). -/
def Team.coming (t : Team) : List HartId := if t.st == .placed then t.live.filterMap fun r => t.places[r]? else []

/-- Places of live harts that stand in no context: those that a team being pre-empted has surrendered, whose core and die
resources it still holds (R310 to R312), and those of a team that is placed and has not started. -/
def State.offstage (s : State) (t : TeamId) : List HartId :=
  match s.team t with
  | some x => if x.st == .preempting then x.saved.filterMap fun y => x.places[y.rank]? else x.coming
  | none => []

/-- The team has a live hart on a core. -/
def State.liveOnCore (s : State) (t : TeamId) (c : CoreId) : Bool :=
  ((s.hartsOn c).any fun h => h.team == t) || (s.offstage t).any fun h => coreOf h == c

/-- The team has a live hart on a die. -/
def State.liveOnDie (s : State) (t : TeamId) (d : DieId) : Bool :=
  (s.harts.any fun h => h.placed && h.team == t && dieOf h.pos == d) || (s.offstage t).any fun h => dieOf h == d

/-- The ASID of the hart whose turn it is: that of the context its team was launched into (R232). -/
def State.asid (s : State) : BitVec 9 := match s.team s.hart.team with
  | some t => t.asid
  | none => 0

/-- A field of the control word of a team's launch record (R190). -/
def Team.ctl (t : Team) (lo n : Nat) : Nat := bits (wordAt t.record 13) lo n

/-! ### Time (R344, R345) -/

/-- The time base goes on to a tick. It never steps backward, and it does not pass the tick on which a team that has not
started yet has agreed (R345). -/
def State.toTick (s : State) (t : Word) : State :=
  let limit := s.teams.foldl (fun m (_, x) => if x.st == .placed && x.committed && x.start.ult m then x.start else m) t
  if s.now.ult limit then { s with now := limit } else s

/-! ### Free values -/

/-- The next free value is taken. -/
def State.take (s : State) : State := { s with free := s.free + 1 }

/-! ### Retirement (R88, R93) -/

/-- Counts of the dimensions of a nest record, innermost first (R91). -/
def nestCounts (rec : List Word) : List Nat := ((rec.drop 1).take (bits (wordAt rec 0) 0 3)).map fun w => bits w 0 32

/-- The least dimension that advances after `pass` passes: the least d with `pass` mod (C0 × … × Cd) not 0. -/
def advancingDim (pass : Nat) : Nat → List Nat → Nat
  | _, [] => 0
  | acc, c :: cs => if pass % (acc * c) ≠ 0 then 0 else 1 + advancingDim pass (acc * c) cs

/-- The last word of an active body retires (R93): a pass is counted, and the nest ends or the pointers advance and the
body repeats. -/
def Hart.passEnd (h : Hart) : Hart :=
  let z := h.zol
  let pass := z.pass + 1
  let rec0 := wordAt z.nest 0
  let counts := nestCounts z.nest
  if pass.toNat = counts.foldl (· * ·) 1 then
    { h with zol := { z with pass := pass, act := false }, pc := z.zlb + 4 * (z.len.setWidth 64 + 1) }
  else
    let d := advancingDim pass.toNat 1 counts
    let step := sext (wordAt z.nest (d + 1) >>> 32) 32
    let h' := forUpTo (bits rec0 8 3)
      (fun j k => let r := BitVec.ofNat 5 (bits rec0 3 5 + j); k.setS r (k.getS r + step)) h
    { h' with zol := { z with pass := pass }, pc := z.zlb }

/-- The word at `pc` has retired: what the front end has run past stands one word nearer (R181). -/
def Front.passed (f : Front) : Front :=
  { ahead := f.ahead - 1, issued := f.issued.filterMap fun x => if x.1 = 0 then none else some (x.1 - 1, x.2)
    flows := f.flows.filterMap fun x => if x.1 = 0 then none else some (x.1 - 1, x.2) }

/-- The word at `pc` retires and the next follows it: `pc` + 4, or the pass end of an active loop (R88, R93). -/
def Hart.advance (h : Hart) : Hart :=
  if h.zol.act && h.pc == h.zol.zlb + 4 * h.zol.len.setWidth 64 then
    { h with run := .running, front := h.front.passed }.passEnd
  else { h with run := .running, pc := h.pc + 4, front := h.front.passed }

/-- A scalar word retires. -/
def State.advance (s : State) : State := { s with hart := s.hart.advance }

/-- A vector word retires: `vix` becomes 0 (R18). -/
def State.retireV (s : State) : State := { s with hart := { s.hart with vix := 0 }.advance }

/-- A word that transfers control retires at its target. -/
def State.jump (s : State) (target : Word) : State :=
  { s with hart := { s.hart with run := .running, pc := target, front := s.hart.front.passed } }

/-- The word at `pc` waits: it has no effect and executes again (R208). -/
def State.wait (s : State) (w : Wait) : State := { s with hart := { s.hart with run := .waiting w } }

/-! ### The Fife's pause (R278) -/

/-- At trap entry of its owner a running Fife pauses. -/
def Fife.pause (f : Fife) : Fife := match f.st with
  | .running => { f with st := .paused }
  | .idle | .paused | .faulted => f

/-- At `eret` a paused Fife resumes. -/
def Fife.resume (f : Fife) : Fife := match f.st with
  | .paused => { f with st := .running }
  | .idle | .running | .faulted => f

/-- The Fife is held by a hart (R271). -/
def Fife.heldBy (f : Fife) (h : HartId) : Bool := f.st != .idle && f.owner == hartInCore h

/-- The Fife ends and is free (R277). -/
def Fife.free (f : Fife) : Fife := { f with st := .idle, wait := none, onQueue := false, node := none, pusher := none }

/-- The current hart's Fife, if it holds one, changed. -/
def State.onFife (s : State) (f : Fife → Fife) : State :=
  let c := s.myCore
  if c.fife.heldBy s.hart.pos then s.setMyCore { c with fife := f c.fife } else s

/-! ### Ending a hart (R202, R194) -/

/-- Copies that a hart issued into a slot it has released write it no more (R170). -/
def Core.loosen (c : Core) (h : HartId) (slot : Nat → Bool) : Core :=
  { c with cpyq := c.cpyq.map fun x => match x.kind with
      | .copy b _ => if x.hart == h && bit (wordAt b 0) 12 && slot (bits (wordAt b 0) 13 4) then { x with loose := true } else x
      | .rows _ _ _ _ => x }

/-- Slots and tiles of a hart are released and begin to clear (R170, R171). -/
def Core.release (c : Core) (h : HartId) : Core :=
  let c := c.loosen h fun _ => true
  { c with
    slots := c.slots.map fun x => if x.own == some h then { clearing := true } else x
    tiles := c.tiles.map fun x => if x.own == some h then { clearing := true } else x }

/-- Semaphore waiters without a hart. -/
def Core.forget (c : Core) (h : HartId) : Core :=
  { c with sm := c.sm.map fun x => { x with waiters := x.waiters.filter (· != h) } }

/-- A row buffer released with write-back: its generation rises by 1 (R240). -/
def RowBuf.free (r : RowBuf) : RowBuf := { r with gen := r.gen + 1, row := none, saved := false, w := false, team := 0 }

/-- The rows that a team holds on a die are released (R202, R243). -/
def Die.freeRows (d : Die) (t : TeamId) : Die :=
  { d with rows := d.rows.map fun (k, r) => if r.row.isSome && r.team == t then (k, r.free) else (k, r) }

/-- The non-blocking accesses that a hart leaves outstanding on a core that has not failed go on (R194, R366): the hart as
it stands, once for each. -/
def State.orphaned (s : State) (h : HartId) : List Hart :=
  let x := s.hartAt h
  if (s.core (coreOf h)).failed || (s.die (dieOf h)).failed then [] else x.nb.map fun y => { x with nb := [y] }

/-- The hart context is freed, its Fife, slots and tiles with it (R202, R310, R311). -/
def State.vacate (s : State) (h : HartId) : State :=
  let c := s.core (coreOf h)
  let c := { c with orphans := c.orphans ++ s.orphaned h }
  let c := if c.fife.heldBy h then { c with fife := c.fife.free } else c
  (s.setCore (coreOf h) ((c.release h).forget h)).putHart { Hart.reset with pos := h }

/-- The team has a live hart. -/
def State.liveSomewhere (s : State) (t : TeamId) : Bool :=
  (s.harts.any fun h => h.placed && h.team == t) || !(s.offstage t).isEmpty

/-- A hart ends (R202, R194): its context is freed, and the last live hart of the team on a die releases the rows that
the team holds on that die, the last one anywhere those on every die (R243). -/
def State.freeHart (s : State) (h : HartId) : State :=
  let x := s.hartAt h
  let s := s.vacate h
  let held := s.dies.filter fun (k, _) =>
    if k == (dieOf h).toNat then !s.liveOnDie x.team (dieOf h) else !s.liveSomewhere x.team
  held.foldl (fun s (k, _) => s.setDie (BitVec.ofNat 13 k) ((s.die (BitVec.ofNat 13 k)).freeRows x.team)) s

/-- A team fails (R194, R304): it completes with status 1 and the cause, and its surviving harts are stopped and freed.
The completion record is written by `TEAM_COMPLETE`. -/
def State.failTeam (s : State) (t : TeamId) (cause : BitVec 10) : State :=
  let s := match s.team t with
    | some x =>
      { s.setTeam { x with status := 1, cause := some cause, live := [], saved := [] } with
        failedTeams := ⟨t, x.live⟩ :: s.failedTeams }
    | none => s
  ((s.harts.filter fun h => h.placed && h.team == t).map Hart.pos).foldl State.freeHart s

/-! ### Taking an exception and returning from one (R301, R302, R304) -/

/-- A word that waits withdraws its arrival: its place among the waiters of a semaphore, and its arrival at a collective
instance (R208, R213, R350). -/
def State.withdraw (s : State) : State :=
  match s.hart.run with
  | .free | .running => s
  | .waiting (.sem _ _) => s.setMyCore (s.myCore.forget s.hart.pos)
  | .waiting _ => { s with hart := { s.hart with coll := none } }

/-- Trap entry (R301), with the resume address given: the registers saved, handler state entered, the loop and the
Fife paused, `pc` at `tvec`. -/
def State.enter (s : State) (epc : Word) (cause : BitVec 10) (tval : Word) (asyn : Bool) : State :=
  let s := s.withdraw
  let h := s.hart
  { s with hart := { h with
      run := .running, tepc := epc, tcause := cause, tval := tval,
      nest := h.hs, phs := h.hs, asy := asyn, hs := true, front := {},
      zol := { h.zol with sav := h.zol.act, act := false }, pc := h.tvec } }.onFife Fife.pause

/-- A synchronous trap with the resume address given. One at `tvec` while NEST = 1 is a double fault (R304). -/
def State.trapAt (s : State) (epc : Word) (cause : BitVec 10) (tval : Word) : State :=
  if s.hart.nest && epc == s.hart.tvec then s.failTeam s.hart.team 0x385 else s.enter epc cause tval false

/-- A synchronous trap at the word at `pc`. -/
def State.trap (s : State) (cause : BitVec 10) (tval : Word) : State := s.trapAt s.hart.pc cause tval

/-- A meaning that traps before any effect when a condition holds. -/
def trapIf (bad : Bool) (cause : BitVec 10) (tval : Word) (s : State) (k : Res) : Res :=
  if bad then .next (s.trap cause tval) else k

/-- The return of R302, apart from the reading of the nest record. -/
def State.leave (s : State) : State :=
  let h := s.hart
  { s with hart := { h with
      run := .running, hs := h.phs, phs := false, nest := false, asy := false,
      zol := { h.zol with act := h.zol.sav, sav := false }, pc := h.tepc, front := h.front.passed } }.onFife Fife.resume

/-- An asynchronous cause becomes pending at a hart, once (R303, R306). -/
def Hart.pend (h : Hart) (cause : BitVec 10) (tval : Word) : Hart :=
  if h.pending.contains ⟨cause, tval⟩ then h else { h with pending := h.pending ++ [⟨cause, tval⟩] }

/-- A word of an instruction, zero-extended, as `tval` holds it (R53). -/
def wordVal (w : BitVec 32) : Word := w.setWidth 64

/-- A pending cause is a machine check (R300, R308). -/
def Pending.machine (p : Pending) : Bool := p.cause.toNat / 64 == 14

/-- The order in which pending causes are taken: machine checks, class 11, the Fife fault; within a class the lowest first
(R303). -/
def Pending.order (p : Pending) : Nat :=
  (if p.machine then 0 else if p.cause.toNat / 64 == 11 then 1024 else 2048) + p.cause.toNat

/-- The pending cause that a hart takes next: in handler state machine checks only (R298). -/
def Hart.nextPending (h : Hart) : Option Pending :=
  match h.pending.filter fun p => p.machine || !h.hs with
  | [] => none
  | p :: ps => some (ps.foldl (fun b q => if q.order < b.order then q else b) p)

/-- A pending cause is taken at the word at `pc` (R301, R303). -/
def State.takePending (s : State) (p : Pending) : State :=
  let s := { s with hart := { s.hart with pending := s.hart.pending.filter (· != p) } }
  s.enter s.hart.pc p.cause p.tval true

/-- The words of R97 and R299 trap with 0x101 in program state. -/
def handlerOnly (w : BitVec 32) (s : State) (k : Res) : Res := trapIf (!s.hart.hs) 0x101 (wordVal w) s k

end Sys2Proof.Machine
end

