-- ==== Sys2Proof/Machine/Device.lean ====
section
/-! DEFINITION. The device registers of on-die region 36: which offsets name one, reset values, and the bits that a
plain write stores (R7, R227, R233, R236, R331, R372, R374, R379, R381, R383, R389, R391, R392, R398, R400, R402, R403,
R409, R410, R417). -/

namespace Sys2Proof.Machine

/-- An I/O die (DIE 8). -/
def isIo (d : DieId) : Bool := dieInPkg d == 8
/-- The I/O die of a package. -/
def ioDie (p : PkgId) : DieId := p ++ 8#4

/-- `off` is one of `n` registers of 8 bytes, `step` bytes apart from `base`. -/
def oneOf (off base step n : Nat) : Bool := decide (base ≤ off) && decide (off < base + step * n) && (off - base) % step == 0

/-- OFF names a port of an engine page, given the offset within the page (R269). -/
def portOff (o : Nat) : Bool := o == 0 || o == 8 || o == 0x10 || o == 0x40 || o == 0x48 || o == 0x50 || o == 0x58

/-- OFF lies in the engine pages of a compute die, by core number (R269). -/
def enginePage (off : Nat) : Bool := decide (0x100000 ≤ off) && decide (off < 0x180000)
/-- OFF lies in the alias of the core's own engine page (R269). -/
def engineAlias (off : Nat) : Bool := decide (0x80000 ≤ off) && decide (off < 0x81000)

/-- OFF names a register, table or log record of the die, or an engine port of a page (R227), the alias apart. -/
def regKnown (io : Bool) (off : Nat) : Bool :=
  off % 8 == 0 && (off == 0x1000 || off == 0x1008 ||
  if io then
    oneOf off 0x20000 8 256 || oneOf off 0x20800 8 256 || off == 0x21000 || off == 0x21008 ||
    off == 0x50000 || oneOf off 0x51000 8 2048 || oneOf off 0x60000 8 8 || off == 0x70000 ||
    oneOf off 0x80000 8 9 || off == 0x81000 || oneOf off 0x81010 8 4 ||
    (oneOf off 0x90000 8 4096 && off % 64 != 56) || oneOf off 0xA0000 8 3072 ||
    (oneOf off 0xE0000 8 1168 && decide (off % 64 < 32)) || off == 0xE4000 || off == 0xE4008 || off == 0xE4010 ||
    oneOf off 0x100000 8 32768
  else
    (decide (0x30000 ≤ off) && decide (off < 0x30C00) && decide (off % 256 ≤ 0x20)) || off == 0x31000 ||
    (enginePage off && portOff (off % 4096)) ||
    oneOf off 0x200000 8 (1024 * 101) ||
    (decide (0x2D0000 ≤ off) && decide (off < 0x2D1000) && decide (off % 64 ≤ 0x10)) || off == 0x2DF000 ||
    oneOf off 0x2E0000 8 2048)

/-- A package has the zone (R2, R407): one of a compute die that it holds, or one of the I/O die. -/
def State.zoneHeld (s : State) (p : PkgId) (z : Nat) : Bool :=
  if z < 128 then decide (z / 16 < s.computeDies p)
  else if z < 144 then decide ((z - 128) / 2 < s.computeDies p)
  else decide (z < 146)

/-- A die of its package: the I/O die, or a compute die that it holds (R2). -/
def State.dieHeld (s : State) (d : DieId) : Bool := isIo d || decide ((dieInPkg d).toNat < s.computeDies (pkgOfDie d))

/-- A die has the register, table or log record at an offset (R2, R227): the wavelength ports and coolant zones of a package
are those of the compute dies that it holds. -/
def State.hasReg (s : State) (d : DieId) (off : Nat) : Bool :=
  s.dieHeld d && regKnown (isIo d) off &&
    (!isIo d ||
      if decide (0x20000 ≤ off) && decide (off < 0x21000) then
        decide ((off - 0x20000) / 8 % 256 / 32 < s.computeDies (pkgOfDie d))
      else if decide (0xE0000 ≤ off) && decide (off < 0xE2480) then s.zoneHeld (pkgOfDie d) ((off - 0xE0000) / 64)
      else true)

/-- The table of a target starts here (R389). -/
def tableOff (io : Bool) (t : Nat) : Nat := if io then 0xA0000 + 0x2000 * t else 0x200000 + 0x2000 * t

/-- The value of a register at package reset; 0 where its table gives none (log entry 3). -/
def regReset (pkg : PkgId) (io : Bool) (off : Nat) : Word :=
  let table := if io then oneOf off 0xA0000 8 3072 else oneOf off 0x200000 8 (1024 * 101)
  if table then
    match off % 0x2000 with
    | 0 => 1
    | 8 => 0xFFFFFFFFFFFF0000
    | 16 => place 240 13 ||| place 8 9 ||| pkg.setWidth 64
    | 24 => 0xF
    | _ => 0
  else if io then
    if decide (0xE0000 ≤ off) && decide (off < 0xE2480) then
      if off % 64 == 8 then place 600 32 ||| place 50 16 ||| place 100 8 ||| 85
      else if off % 64 == 0 && decide (0xE2000 ≤ off) then 1 else 0
    else if off == 0xE4000 then 3876 else 0
  else if decide (0x30000 ≤ off) && decide (off < 0x30C00) && off % 256 == 0 then
    place 100 32 ||| place 64 16 ||| place 1 5
  else if off == 0x31000 then place 100 16 ||| 64 else 0

/-- The key of a device register: its global address. -/
def regKey (d : DieId) (off : Nat) : Nat := d.toNat * 2 ^ 51 + 2 ^ 50 + 36 * 2 ^ 44 + off

/-- The value a device register holds. -/
def State.reg (s : State) (d : DieId) (off : Nat) : Word :=
  match s.dev.find (regKey d off) with
  | some x => x
  | none => regReset (pkgOfDie d) (isIo d) off

/-- A device register given a value. -/
def State.setReg (s : State) (d : DieId) (off : Nat) (x : Word) : State := { s with dev := s.dev.put (regKey d off) x }

/-- Bits of a register that a plain write stores, and bits that a one clears (R7). Registers whose write starts
something are written through their own operations. The reserved bits of an access-table word are stored and read back,
against R7, since R388 gives an entry that has one set a meaning (log entry 39). -/
def regMasks (io : Bool) (off : Nat) : Word × Word :=
  if off == 0x1000 then (0xFFFFFFFFFFF80001, 0)
  else if off == 0x1008 then (0, 0)
  else if io then
    if oneOf off 0x80000 8 1 then (0x3FF, 0)
    else if oneOf off 0x80008 8 8 then (0xFFFFFFFFFFFFFFFF, 0)
    else if oneOf off 0x90000 8 4096 then
      match off % 64 with
      | 0 => (0xFFFFFFFFFFFFFFFC, 0)
      | 8 => (0xFFFFFFFFFFF00000, 0)
      | 16 => (0x80000000000FFFFF, 0)
      | _ => (0xFFFFFFFFFFFFF001, 0)
    else if oneOf off 0xA0000 8 3072 then (0xFFFFFFFFFFFFFFFF, 0)
    else if oneOf off 0x100000 8 32768 then (0xFFFFFFFFFFFFF001, 0)
    else (0, 0)
  else if decide (0x30000 ≤ off) && decide (off < 0x30C00) then
    match off % 256 with
    | 0x00 => (0x000000FFFFFF0038, 0)
    | 0x08 => (0, 0x200)
    | 0x10 => (0xFFFFFFFF, 0)
    | _ => (0xFFFFFFFFFFFFFFFF, 0)
  else if off == 0x31000 then (0x1FFFFFFFF, 0)
  else if oneOf off 0x200000 8 (1024 * 101) then (0xFFFFFFFFFFFFFFFF, 0)
  else (0, 0)

/-- A plain register write: RW bits stored, W1C bits cleared, the rest ignored (R7). -/
def State.plainWrite (s : State) (d : DieId) (off : Nat) (x : Word) : State :=
  let (rw, w1c) := regMasks (isIo d) off
  let old := s.reg d off
  s.setReg d off ((old &&& ~~~rw &&& ~~~(w1c &&& x)) ||| (x &&& rw))

/-! ### The pod map (R391) and contexts (R392) -/

/-- P, the configured pod size, as a package holds it. -/
def State.podSize (s : State) (p : PkgId) : Nat := bits (s.reg (ioDie p) 0x80000) 0 10

/-- Package `q` is in the present set that package `p` holds (R391), which has a bit for `p` itself. -/
def State.present (s : State) (p q : PkgId) : Bool := bit (s.reg (ioDie p) (0x80008 + 8 * (q.toNat / 64))) (q.toNat % 64)

/-- A word of a context's registers. -/
def State.ctxReg (s : State) (p : PkgId) (a : Nat) (off : Nat) : Word := s.reg (ioDie p) (0x90000 + 64 * a + off)

end Sys2Proof.Machine
end

