-- ==== Sys2Proof/Machine/Address.lean ====
section
/-! DEFINITION. The global address (R225 to R228), memory by home byte, translation (R232 to R236), row handles
(R237, R241), access tables (R387, R388), and the checks of an access in their order (R87, R156, R327, R340). -/

namespace Sys2Proof.Machine

/-! ### Fields of an address (R225) -/

/-- PKG. -/
def aPkg (a : Word) : PkgId := a.extractLsb' 55 9
/-- DIE. -/
def aDie (a : Word) : BitVec 4 := a.extractLsb' 51 4
/-- PKG and DIE. -/
def aDieId (a : Word) : DieId := a.extractLsb' 51 13
/-- SP. -/
def aSp (a : Word) : Bool := a.getLsbD 50
/-- UNIT. -/
def aUnit (a : Word) : Nat := (a.extractLsb' 44 6).toNat
/-- OFF. -/
def aOff (a : Word) : Nat := (a.extractLsb' 0 44).toNat

/-- The physical global address with the given unit fields and offset, as a number: the home of a byte. -/
def homeKey (d : DieId) (sp : Bool) (unit off : Nat) : Nat :=
  d.toNat * 2 ^ 51 + bitNat sp * 2 ^ 50 + unit * 2 ^ 44 + off

/-- What an address names (R226, R386). -/
inductive Space where
  | channel (c : Nat)
  | scratch (q : Nat)
  | sram
  | rows
  | tcm
  | regs
  | interleave
  | ioSram
  | host
  deriving DecidableEq, Repr

/-- The space an address names on its die; none where the unit is unassigned (R226, R386). -/
def spaceOf (a : Word) : Option Space :=
  let u := aUnit a
  if aDie a == 8 then
    if !aSp a then none
    else if u == 32 then some .ioSram else if u == 34 then some .host else if u == 36 then some .regs else none
  else if !aSp a then some (.channel u)
  else if u < 32 then some (.scratch u)
  else if u == 32 then some .sram else if u == 33 then some .rows else if u == 35 then some .tcm
  else if u == 36 then some .regs else if u == 40 then some .interleave else none

/-- Bytes of a translated unit (R226, R229, R386): the sizes of R229's table that an address reaches. Of its caches, the L1 and
the L2 hold no bytes of their own here (R230), and its 8 pinned rows a channel are the slots of `Die.rows` (R237). -/
def Space.capacity : Space → Nat
  | .channel _ => Config.channelBytes
  | .scratch _ => Config.scratchBytes
  | .sram => Config.sramBytes
  | .tcm => Config.tcmBytes
  | .interleave => Config.interleaveBytes
  | .ioSram => 2 ^ 24
  | .rows => 2 ^ 43
  | .regs | .host => 2 ^ 44

/-- Unit index of a translated unit (R232, R233). -/
def Space.index : Space → Option (BitVec 7)
  | .channel c => some (BitVec.ofNat 7 c)
  | .scratch q => some (BitVec.ofNat 7 (64 + q))
  | .sram | .ioSram => some 96
  | .tcm => some 99
  | .interleave => some 104
  | .rows | .regs | .host => none

/-- The unit takes atomics (R84, R156, R386). -/
def Space.atomics : Space → Bool
  | .rows | .regs | .host => false
  | .channel _ | .scratch _ | .sram | .tcm | .interleave | .ioSram => true

/-! ### Memory by home byte -/

/-- What a byte that nothing has written reads as (log entry 2). -/
def emptyByte : Byte := 0

/-- A byte at its home. -/
def memGet (m : List Host.Cell) (k : Nat) : Byte :=
  match m with
  | [] => emptyByte
  | (j, x) :: rest => if j = k then x else memGet rest k

/-- A byte listed at its home, the addresses rising. -/
def memSet (m : List Host.Cell) (k : Nat) (x : Byte) : List Host.Cell :=
  match m with
  | [] => [(k, x)]
  | (j, y) :: rest =>
    if k < j then (k, x) :: (j, y) :: rest else if j = k then (k, x) :: rest else (j, y) :: memSet rest k x

/-- A byte written at its home; the list keeps rising addresses and lists no byte that reads as an unlisted one. -/
def memPut (m : List Host.Cell) (k : Nat) (x : Byte) : List Host.Cell :=
  if x = emptyByte then m.filter fun c => c.1 != k else memSet m k x

/-- The canonical form of memory: addresses rise strictly, and no entry equals an unlisted byte. -/
def Memory.wf : List Host.Cell → Bool
  | [] => true
  | [(_, x)] => x != emptyByte
  | (j, x) :: (k, y) :: rest => decide (j < k) && x != emptyByte && Memory.wf ((k, y) :: rest)

/-- A byte of the pod's memory. -/
def State.byte (s : State) (k : Nat) : Byte := memGet s.mem k

/-- Bytes at their homes. -/
def State.bytes (s : State) (ks : List Nat) : List Byte := ks.map s.byte

/-- The line of 64 bytes that holds a home byte. -/
def lineOf (k : Nat) : Nat := k / 64

/-- The copies of a line that scalar caches hold dirty are written back (R85, R162, R230). -/
def State.writeBack (s : State) (line : Nat) : State :=
  let d := BitVec.ofNat 13 (line * 64 / 2 ^ 51)
  let x := s.die d
  if x.unwritten.any (fun c => lineOf c.1 == line) then
    s.setDie d { x with unwritten := x.unwritten.filter fun c => lineOf c.1 != line }
  else s

/-- Every copy that a scalar cache holds dirty of the lines of some bytes is written back (R162, R230). -/
def State.recall (s : State) (ks : List Nat) : State := (ks.map lineOf).eraseDups.foldl State.writeBack s

/-- Marks of poisoned lines that a write covers whole are cleared (R400). -/
def clearPoison (poison : Tab (BitVec 10)) (ks : List Nat) : Tab (BitVec 10) :=
  poison.filter fun (l, _) => !(List.range 64).all fun i => ks.contains (64 * l + i)

/-- Bytes stored at their homes, past every cache: the dirty copies of the lines are written back first (R162). -/
def State.store (s : State) (ks : List Nat) (bs : List Byte) : State :=
  let s := s.recall ks
  { s with mem := (ks.zip bs).foldl (fun m c => memPut m c.1 c.2) s.mem, poison := clearPoison s.poison ks }

/-- The cause a read of poisoned bytes raises (R308, R400). -/
def State.poisonCause (s : State) (ks : List Nat) : Option (BitVec 10) :=
  (ks.map lineOf).findSome? fun l => s.poison.find l

/-! ### Translation (R232 to R236) -/

/-- Bytes that a page of a level maps (R234). -/
def pageBytes (level : Nat) : Nat := if level == 1 then 2 ^ 30 else if level == 2 then 2 ^ 21 else 2 ^ 16

/-- A physical address that a table may stand at: die SRAM or an HBM channel of the die, or I/O SRAM on an I/O die, 256
byte aligned (R233, R234). -/
def tablePlace (d : DieId) (a : Word) : Bool :=
  aDieId a == d && a.toNat % 256 == 0 &&
  match spaceOf a with
  | some (.channel _) => decide (aOff a < Config.channelBytes)
  | some .sram => decide (aOff a < Config.sramBytes)
  | some .ioSram => decide (aOff a < 2 ^ 24)
  | _ => false

/-- An 8-byte table entry at a physical address. -/
def State.entry (s : State) (a : Nat) : Word :=
  BitVec.ofNat 64 (bytesToNat (s.bytes ((List.range 8).map (a + ·))))

/-- The walk below the root (R234): `fuel` levels remain, `level` is that of the table at `table`. A poisoned entry raises
its cause (R400). -/
def walkFrom (s : State) (d : DieId) (cap off : Nat) : Nat → Nat → Nat → Except (BitVec 10) TlbEntry
  | 0, _, _ => .error 0x0C2
  | fuel + 1, level, table =>
    let idx := if level == 1 then off / 2 ^ 30 else if level == 2 then off / 2 ^ 21 % 512 else off / 2 ^ 16 % 32
    let e := s.entry (table + 8 * idx)
    if let some c := s.poisonCause [table + 8 * idx] then .error c
    else if !bit e 0 then .error 0x0C0
    else if bits e 5 3 ≠ 0 then .error 0x0C2
    else if bit e 1 then
      let frame := bits e 16 28 * 2 ^ 16
      if bits e 44 20 ≠ 0 ∨ bits e 8 8 ≠ 0 then .error 0x0C2
      else if frame % pageBytes level ≠ 0 ∨ cap ≤ frame then .error 0x0C2
      else if cap ≤ frame + off % pageBytes level then .error 0x0C0
      else .ok { asid := 0, unit := 0, level := level, page := off / pageBytes level, frame := frame,
                 r := bit e 2, w := bit e 3, x := bit e 4 }
    else if level == 3 then .error 0x0C2
    else
      let next := e &&& 0xFFFFFFFFFFFFFF00
      if tablePlace d next then walkFrom s d cap off fuel (level + 1) next.toNat else .error 0x0C2

/-- The walk of R234 at the owning die, through PRTB (R233). -/
def State.walk (s : State) (d : DieId) (asid : BitVec 9) (u : BitVec 7) (cap off : Nat) :
    Except (BitVec 10) TlbEntry :=
  let prtb := s.reg d 0x1000
  if !bit prtb 0 then .error 0x0C0
  else
    let base := prtb &&& 0xFFFFFFFFFFF80000
    if !tablePlace d base then .error 0x0C2
    else
      let root := base.toNat + (asid.toNat * 128 + u.toNat) * 8
      let e := s.entry root
      if let some c := s.poisonCause [root] then .error c
      else if !bit e 0 then .error 0x0C0
      else if bits e 5 3 ≠ 0 ∨ bit e 1 then .error 0x0C2
      else
        let next := e &&& 0xFFFFFFFFFFFFFF00
        if !tablePlace d next then .error 0x0C2
        else (walkFrom s d cap off 3 1 next.toNat).map fun t => { t with asid := asid, unit := u }

/-- An entry maps an offset of a partition. -/
def TlbEntry.maps (t : TlbEntry) (asid : BitVec 9) (u : BitVec 7) (off : Nat) : Bool :=
  t.asid == asid && t.unit == u && t.page == off / pageBytes t.level

/-- The offset an entry translates to. -/
def TlbEntry.phys (t : TlbEntry) (off : Nat) : Nat := t.frame + off % pageBytes t.level

/-- A bank of a core's lane TLB with an entry added (R236): of 32 entries a free one gives way (log entry 5). -/
def State.fillBank (s : State) (c : CoreId) (bank : Nat) (t : TlbEntry) : State :=
  let x := s.core c
  let old := x.tlb.getD bank []
  let kept := if old.length < 32 then old else old.eraseIdx (Config.evicted s.free t.page % old.length)
  s.setCore c { x with tlb := x.tlb.put bank (t :: kept) }

/-- Translation by an access: local ones look up and fill a bank of the core (R236), remote ones the remote
translation cache of the owning die. -/
def State.translate (s : State) (viaBank : Option (CoreId × Nat)) (used : List TlbEntry) (d : DieId) (asid : BitVec 9)
    (u : BitVec 7) (cap off : Nat) : Except (BitVec 10) (TlbEntry × State) :=
  match viaBank with
  | some (c, bank) =>
    match ((used ++ (s.core c).tlb.getD bank []).find? fun t => t.maps asid u off) with
    | some t => .ok (t, s)
    | none => (s.walk d asid u cap off).map fun t => (t, s.fillBank c bank t)
  | none =>
    let x := s.die d
    match x.remote.find? fun t => t.maps asid u off with
    | some t => .ok (t, s)
    | none => (s.walk d asid u cap off).map fun t => (t, s.setDie d { x with remote := t :: x.remote })

/-! ### Masters and access tables (R387, R388) -/

/-- The identity of a master (R387), and the core when it is a hart or a Fife. -/
structure Master where
  die  : DieId
  unit : BitVec 8
  asid : BitVec 9
  core : Option CoreId
  deriving DecidableEq, Repr

/-- What an access does. -/
inductive Acc where
  | load | store | atomic | fetch
  deriving DecidableEq, Repr

/-- An entry's four words match an access (R388): valid, no reserved bit, range and master. -/
def entryMatches (w0 w1 w2 w3 : Word) (m : Master) (addr : Word) : Bool :=
  bit w0 0 && bits w0 1 15 == 0 && bits w1 0 16 == 0 && bits w2 34 30 == 0 && bits w3 4 60 == 0 &&
  decide (bits w0 16 48 ≤ bits addr 16 48) && decide (bits addr 16 48 ≤ bits w1 16 48) &&
  (bit w2 33 || bits w2 21 9 == m.asid.toNat) && (bit w2 32 || bits w2 13 8 == m.unit.toNat) &&
  (bit w2 31 || bits w2 9 4 == (dieInPkg m.die).toNat) && (bit w2 30 || bits w2 0 9 == (pkgOfDie m.die).toNat)

/-- The bits of a deciding entry that an access needs (R388). -/
def entryPermits (w3 : Word) : Acc → Bool
  | .load => bit w3 0
  | .store => bit w3 1
  | .atomic => bit w3 0 && bit w3 1 && bit w3 2
  | .fetch => bit w3 3

/-- The access table of a target admits an access (R388): the lowest-numbered matching entry decides. -/
def State.admits (s : State) (d : DieId) (target : Nat) (m : Master) (acc : Acc) (addr : Word) : Bool :=
  let o := tableOff (isIo d) target
  match (List.range 256).find? fun i =>
      entryMatches (s.reg d (o + 32 * i)) (s.reg d (o + 32 * i + 8)) (s.reg d (o + 32 * i + 16))
        (s.reg d (o + 32 * i + 24)) m addr with
  | some i => entryPermits (s.reg d (o + 32 * i + 24)) acc
  | none => false

/-! ### The checks of an access -/

/-- Where an access that passes its checks lands: the space and the homes of its bytes, in order. -/
structure Place where
  space : Space
  die   : DieId
  keys  : List Nat
  deriving DecidableEq, Repr

/-- Why an access does not land: a cause, or a target that is lost (R86, R338, R340). -/
inductive Deny where
  | cause (c : BitVec 10)
  | lost
  deriving DecidableEq, Repr

/-- Channel and channel offset of an interleave offset (R228). -/
def interleaved (o : Nat) : Nat × Nat := (o / 8192 % 64, o / 524288 * 8192 + o % 8192)

/-- Fields of a row-handle offset (R237): GEN, CH, SL, BYTE. -/
def rowFields (off : Nat) : Nat × Nat × Nat × Nat :=
  (off / 2 ^ 19 % 2 ^ 24, off / 2 ^ 13 % 64, off / 2 ^ 10 % 8, off % 1024)

/-- An access of `n` bytes names something of region 36 (R227, R269): on the vector path any byte of a register, for the
check that follows to refuse; else a whole register, or a port by its own offset. -/
def State.namesReg (s : State) (m : Master) (vector : Bool) (a : Word) (n : Nat) : Bool :=
  let off := aOff a
  let mine := m.core.isSome && aDieId a == m.die && engineAlias off
  let port := aDie a != 8 && (mine || enginePage off) && portOff (off % 4096)
  port || if vector then s.hasReg (aDieId a) (off - off % 8) && !(aDie a != 8 && enginePage off)
    else s.hasReg (aDieId a) off && n == 8

/-- Check 2 of R87 and R156 with R227 and R241: the address names something that an access of `n` bytes reaches. -/
def State.namesSpace (s : State) (m : Master) (vector : Bool) (a : Word) (n : Nat) : Option Space :=
  if 9 ≤ (aDie a).toNat then none
  else if decide ((aDie a).toNat < 8) && decide (s.computeDies (aPkg a) ≤ (aDie a).toNat) then none
  else
    match spaceOf a with
    | some .tcm => if m.core.isSome && aDieId a == m.die then some .tcm else none
    | some .rows => if decide (aOff a < 2 ^ 43) && decide (aOff a % 1024 + n ≤ 1024) then some .rows else none
    | some .regs => if s.namesReg m vector a n then some .regs else none
    | x => x

/-- The access-table target that holds an address (R389); none where no table is checked (a TCM). -/
def tableTarget (sp : Space) (a : Word) (physOff : Nat) : Option Nat :=
  match sp with
  | .channel c => some c
  | .scratch q => some (64 + q)
  | .sram => some 96
  | .rows => some (rowFields (aOff a)).2.1
  | .tcm => none
  | .interleave => some (interleaved physOff).1
  | .regs => if aDie a == 8 then some 2 else if enginePage (aOff a) || engineAlias (aOff a) then some 97 else some 98
  | .ioSram => some 0
  | .host => some 1

/-- The home of a byte at a physical offset. -/
def homeOf (m : Master) (sp : Space) (a : Word) (off : Nat) : Nat :=
  match sp with
  | .interleave => let (c, o) := interleaved off; homeKey (aDieId a) false c o
  | .tcm => homeKey (aDieId a) true 35 (off + (match m.core with | some c => coreInDie c | none => 0) * Config.tcmBytes)
  | .channel _ | .scratch _ | .sram | .ioSram | .host | .regs | .rows => homeKey (aDieId a) (aSp a) (aUnit a) off

/-- The page permission an access needs (R234). -/
def permits (t : TlbEntry) : Acc → Bool
  | .load => t.r
  | .store => t.w
  | .atomic => t.r && t.w
  | .fetch => t.x

/-- The target of an address is lost to a master: its package is out of the present set, or its compute die has failed
(R327, R338, R340), or it is host memory and the host link is down (R381). -/
def State.isLost (s : State) (m : Master) (a : Word) : Bool :=
  !s.present (pkgOfDie m.die) (aPkg a) || ((s.die (aDieId a)).failed && aDieId a != m.die) ||
    (spaceOf a == some .host && !(s.pkg (aPkg a)).hostUp)

/-- The hart's access may have left before it was known that the target is lost (R340): the target is a compute die that has
failed, of a package that is still present, or a package found lost while the word or the non-blocking access was under way. -/
def State.lossUnknown (s : State) (m : Master) (a : Word) : Bool :=
  s.isLost m a && ((s.present (pkgOfDie m.die) (aPkg a) && (s.die (aDieId a)).failed) ||
    s.hart.front.caught.contains (aPkg a))

/-- A window covers an address (R341). -/
def Window.holds (w : Window) (a : Word) : Bool :=
  decide (w.base.toNat ≤ a.toNat) && decide (a.toNat < w.base.toNat + w.size)

/-- The address lies in a read-only window of the team on the hart's die (R248, R341). -/
def State.inWindow (s : State) (d : DieId) (t : TeamId) (a : Word) : Bool :=
  (s.die d).windows.any fun (_, w) => w.team == t && w.holds a

/-- The row-handle checks of R241 and the home of the byte: slot current, held by the team, writable for a store. -/
def State.rowCheck (s : State) (t : TeamId) (acc : Acc) (a : Word) : Except (BitVec 10) Nat :=
  let (gen, ch, sl, byte) := rowFields (aOff a)
  let r := (s.die (aDieId a)).rows.getD (8 * ch + sl) {}
  match r.row with
  | none => .error 0x280
  | some row =>
    if r.saved ∨ r.gen.toNat ≠ gen then .error 0x280
    else if r.team ≠ t then .error 0x283
    else if acc == .store && !r.w then .error 0x100
    else .ok (homeKey (aDieId a) false ch (1024 * row + byte))

/-- How an access is made: its master, its team, what it does, and the TLB bank a local translation uses, whether
it takes the vector path, whether its address is physical (R313), the entries the word has used already (R236), and
whether it is made in spite of the failure of the target die, before which it was performed (R340). -/
structure How where
  master : Master
  team   : TeamId
  acc    : Acc
  bank   : Nat
  vector : Bool := false
  physical : Bool := false
  entries : List TlbEntry := []
  late : Bool := false
  deriving DecidableEq, Repr

/-- The translation of an access (R234 to R236): a hart or a Fife on its own die looks in a bank of its core, any other local
master walks the tables, and a remote one asks the owning die. -/
def State.translation (s : State) (how : How) (d : DieId) (u : BitVec 7) (cap off : Nat) :
    Except (BitVec 10) (TlbEntry × State) :=
  let m := how.master
  match m.core, d == m.die with
  | some c, true => s.translate (some (c, how.bank)) how.entries d m.asid u cap off
  | none, true => (s.walk d m.asid u cap off).map fun t => (t, s)
  | _, false => s.translate none how.entries d m.asid u cap off

/-- The page denies an access (R234), or it would write a read-only window (R248, R341). -/
def State.denies (s : State) (how : How) (a : Word) (t : TlbEntry) : Bool :=
  !permits t how.acc || (how.acc != .load && how.acc != .fetch && s.inWindow how.master.die how.team a)

/-- The checks of one byte or one aligned run of `n` bytes after alignment, in their order (R87 checks 2 to 5, R156
checks 2 to 6, R327, R340), and where it lands. A store or an atomic into a read-only window whose target is lost reports the
loss: R83 and R86 set no order between 0x100 and 0x140 (log entry 39). -/
def State.check (s : State) (how : How) (a : Word) (n : Nat) : Except Deny (Place × State) :=
  let m := how.master
  let d := aDieId a
  if how.acc != .fetch && decide (s.podSize (pkgOfDie m.die) ≤ (aPkg a).toNat) then .error (.cause 0x142)
  else
    match s.namesSpace m how.vector a n with
    | none => .error (.cause 0x0C1)
    | some sp =>
      if how.vector && sp == .regs then .error (.cause 0x105)
      else if how.acc == .atomic && !sp.atomics then .error (.cause 0x104)
      else if s.isLost m a && !how.late then
        match sp, how.acc with
        | .channel c, .load =>
          if aPkg a == pkgOfDie m.die && s.present (pkgOfDie m.die) (aPkg a) then
            if Config.channelBytes ≤ aOff a then .error (.cause 0x0C1)
            else if s.admits d (99 + c / 32) m .load a then
              .ok (⟨sp, d, (List.range n).map (homeKey d false c (aOff a) + ·)⟩, s)
            else .error (.cause 0x103)
          else .error .lost
        | _, _ => .error .lost
      else
        match sp.index with
        | none =>
          let admitted := match tableTarget sp a (aOff a) with
            | some t => s.admits d t m how.acc a
            | none => true
          if sp == .rows then
            match s.rowCheck how.team how.acc a with
            | .error c => .error (.cause c)
            | .ok k => if admitted then .ok (⟨sp, d, (List.range n).map (k + ·)⟩, s) else .error (.cause 0x103)
          else if admitted then .ok (⟨sp, d, (List.range n).map (homeOf m sp a (aOff a) + ·)⟩, s)
          else .error (.cause 0x103)
        | some u =>
          let lands (phys : Nat) (s : State) : Except Deny (Place × State) :=
            let pa := (a &&& 0xFFFFF00000000000) ||| BitVec.ofNat 64 phys
            let admitted := match tableTarget sp a phys with
              | some t => s.admits d t m how.acc pa
              | none => true
            if admitted then .ok (⟨sp, d, (List.range n).map (homeOf m sp a phys + ·)⟩, s) else .error (.cause 0x103)
          if how.physical then
            if sp.capacity ≤ aOff a then .error (.cause 0x0C0) else lands (aOff a) s
          else
            match s.translation how d u sp.capacity (aOff a) with
            | .error c => .error (.cause c)
            | .ok (t, s) =>
              if sp.capacity ≤ t.phys (aOff a) then .error (.cause 0x0C0)
              else if s.denies how a t then .error (.cause 0x100)
              else lands (t.phys (aOff a)) s

/-- The master identity of a hart or Fife of a core (R387). -/
def coreMaster (c : CoreId) (asid : BitVec 9) : Master :=
  { die := dieOfCore c, unit := BitVec.ofNat 8 (coreInDie c), asid := asid, core := some c }

/-- How the hart whose turn it is makes a scalar access (R236: bank 16h). -/
def State.scalarHow (s : State) (acc : Acc) : How :=
  { master := coreMaster (coreOf s.hart.pos) s.asid, team := s.hart.team, acc := acc,
    bank := 16 * (hartInCore s.hart.pos).toNat }

/-- A master outside the cores, as access tables see it (R387). -/
def originMaster (o : Origin) : Master := { die := o.die, unit := o.unit, asid := o.asid, core := none }

/-- The package manager of a package runs: its image has been verified and started, and it is not reloading (R397, R406). -/
def State.burupRuns (s : State) (p : PkgId) : Bool := decide (1 ≤ (s.pkg p).step) && !(s.pkg p).reload

/-- Burup writes the registers of its own package whatever the present set holds: it is Burup that puts the package into it
(R391, R406, log entry 41). -/
def ownBurup (by_ : Origin) (d : DieId) : Bool := by_.unit == 240 && pkgOfDie by_.die == pkgOfDie d

/-- A store of a master outside the cores to a register of a die reaches it (R2, R338, R388, R389): the die has the register
and is not lost to the master, the table of the register's target admits it, a store of Burup's needs a Burup that runs, one
of the host's a link that is up (R381). -/
def State.mayStore (s : State) (by_ : Origin) (d : DieId) (off : Nat) : Bool :=
  let a : Word := BitVec.ofNat 64 (regKey d off)
  s.hasReg d off && (ownBurup by_ d || !s.isLost (originMaster by_) a) && s.admits d ((tableTarget .regs a 0).getD 0) (originMaster by_) .store a &&
    (by_.unit != 240 || s.burupRuns (pkgOfDie by_.die)) && (by_.unit != 241 || (s.pkg (pkgOfDie by_.die)).hostUp)

/-- A store of a master outside the cores to a register of a die: one that does not reach it changes nothing. -/
def storesTo (by_ : Origin) (d : DieId) (off : Nat) (s : State) (k : Res) : Res := if s.mayStore by_ d off then k else .next s

/-- The distributor of a package as a master (R192, R387). -/
def distributor (p : PkgId) (asid : BitVec 9) : Master := { die := ioDie p, unit := 169, asid := asid, core := none }

/-- The collective engine of a package as a master (R357, R387). -/
def collEngine (p : PkgId) (asid : BitVec 9) : Master := { die := ioDie p, unit := 168, asid := asid, core := none }

/-- A word that a master outside the cores reads for itself; none where a check fails or the line is poisoned. -/
def State.peek (s : State) (m : Master) (a : Word) : Option Word :=
  match s.check { master := m, team := 0, acc := .load, bank := 0 } a 8 with
  | .error _ => none
  | .ok (p, s) => if (s.poisonCause p.keys).isSome then none else some (BitVec.ofNat 64 (bytesToNat (s.bytes p.keys)))

end Sys2Proof.Machine
end

