-- ==== Sys2Proof/Machine/Flags.lean ====
section
/-! DEFINITION. The floating-point flags of `fcsr` (R17, R33, R35) and the rounding modes (R13, R32). -/

namespace Sys2Proof.Machine

/-- The five sticky flags of R17. -/
structure Flags where
  nv : Bool := false
  dz : Bool := false
  of : Bool := false
  uf : Bool := false
  nx : Bool := false
  deriving DecidableEq, Repr

/-- Flags of both. -/
def Flags.or (a b : Flags) : Flags :=
  ⟨a.nv || b.nv, a.dz || b.dz, a.of || b.of, a.uf || b.uf, a.nx || b.nx⟩

/-- The flags in the places of `fcsr` [4:0]. -/
def Flags.bits (f : Flags) : BitVec 11 :=
  BitVec.ofNat 11 (16 * bitNat f.nv + 8 * bitNat f.dz + 4 * bitNat f.of + 2 * bitNat f.uf + bitNat f.nx)

/-- The flags that a word with a digit-link destination raises: never UF or NX (R35). -/
def Flags.link (f : Flags) : Flags := { f with uf := false, nx := false }

/-- No flag. -/
def noFlags : Flags := {}
/-- NV alone. -/
def invalidFlag : Flags := { nv := true }

/-- Flags are ORed into `fcsr`; hardware only ever sets them (R17, R35). -/
def State.raise (s : State) (f : Flags) : State := { s with hart := { s.hart with fcsr := s.hart.fcsr ||| f.bits } }

/-- Rounding modes (R13). -/
inductive Rounding where
  | nearestEven | nearestAway | zero | down | up
  deriving DecidableEq, Repr

/-- A mode from its code. Codes 5 to 7 are reserved, and no word rounds while one is held (R15, R17). -/
def Rounding.ofBits (b : BitVec 3) : Rounding :=
  match b.toNat with
  | 0 => .nearestEven | 1 => .nearestAway | 2 => .zero | 3 => .down | 4 => .up
  | _ => .nearestEven

/-- `fcsr.RM`. -/
def Hart.fcsrRm (h : Hart) : BitVec 3 := h.fcsr.extractLsb' 8 3

/-- `fcsr.RM` holds a reserved value (R17). -/
def State.rmReserved (s : State) : Bool := decide (5 ≤ s.hart.fcsrRm.toNat)

/-- The mode of scalar FP words (R32). -/
def State.scalarRm (s : State) : Rounding := Rounding.ofBits s.hart.fcsrRm

/-- The code of the mode of vector words that round (R32): `vty.RM`, or `fcsr.RM` when DYN = 1. -/
def State.vectorRmCode (s : State) : BitVec 3 :=
  if bit s.hart.vty 15 then s.hart.fcsrRm else s.hart.vty.extractLsb' 16 3

/-- The mode of vector words that round (R32). -/
def State.vectorRm (s : State) : Rounding := Rounding.ofBits s.vectorRmCode

end Sys2Proof.Machine
end

