-- ==== Sys2Proof/Machine/Float.lean ====
section
/-! DEFINITION. Floating-point values and arithmetic: an exact result, rounded once (R29 to R34). -/

namespace Sys2Proof.Machine

/-- Parameters of a binary format (R29): exponent and fraction widths, bias, the code of the largest finite value, and
which special codes it has. -/
structure FpFormat where
  exp  : Nat
  man  : Nat
  bias : Nat
  maxFinite : Nat
  inf  : Bool
  nan  : Bool
  deriving DecidableEq, Repr

/-- FP64. -/
def fp64 : FpFormat := ⟨11, 52, 1023, 0x7FEFFFFFFFFFFFFF, true, true⟩
/-- FP32. -/
def fp32 : FpFormat := ⟨8, 23, 127, 0x7F7FFFFF, true, true⟩
/-- BF16. -/
def bf16 : FpFormat := ⟨8, 7, 127, 0x7F7F, true, true⟩
/-- FP16. -/
def fp16 : FpFormat := ⟨5, 10, 15, 0x7BFF, true, true⟩
/-- E5M2. -/
def e5m2 : FpFormat := ⟨5, 2, 15, 0x7B, true, true⟩
/-- E4M3: no infinity, one NaN code of either sign. -/
def e4m3 : FpFormat := ⟨4, 3, 7, 0x7E, false, true⟩
/-- E2M3: neither infinity nor NaN. -/
def e2m3 : FpFormat := ⟨2, 3, 1, 0x1F, false, false⟩
/-- E2M1: neither infinity nor NaN. -/
def e2m1 : FpFormat := ⟨2, 1, 1, 0x7, false, false⟩

/-- Bits of a code of the format. -/
def FpFormat.width (f : FpFormat) : Nat := 1 + f.exp + f.man

/-- The canonical NaN (R30). -/
def FpFormat.canonicalNan (f : FpFormat) : Nat :=
  if f.inf then (2 ^ f.exp - 1) * 2 ^ f.man + 2 ^ (f.man - 1) else 0x7F

/-- The code of infinity. -/
def FpFormat.infinity (f : FpFormat) : Nat := (2 ^ f.exp - 1) * 2 ^ f.man

/-- The sign bit, if set. -/
def FpFormat.sign (f : FpFormat) (neg : Bool) : Nat := bitNat neg * 2 ^ (f.exp + f.man)

/-- A decoded value: NaN (signalling or quiet), infinity, or (−1)^neg × m × 2^e. -/
inductive FpNum where
  | nan (signalling : Bool)
  | inf (neg : Bool)
  | fin (neg : Bool) (m : Nat) (e : Int)
  deriving DecidableEq, Repr

/-- The value of a code (R29, R30). -/
def FpFormat.decode (f : FpFormat) (c : Nat) : FpNum :=
  let frac := c % 2 ^ f.man
  let e := c / 2 ^ f.man % 2 ^ f.exp
  let neg := c / 2 ^ (f.exp + f.man) % 2 == 1
  if f.inf && e + 1 == 2 ^ f.exp then
    if frac == 0 then .inf neg else .nan (decide (8 < f.width) && decide (frac < 2 ^ (f.man - 1)))
  else if f.nan && !f.inf && e + 1 == 2 ^ f.exp && frac + 1 == 2 ^ f.man then .nan false
  else if e == 0 then .fin neg frac (1 - f.bias - f.man)
  else .fin neg (2 ^ f.man + frac) (e - f.bias - f.man)

/-- An exact result before its one rounding: a number, with `sticky` for a positive remainder below one unit of `m`. -/
structure Exact where
  num    : FpNum
  sticky : Bool := false
  flags  : Flags := {}
  deriving DecidableEq, Repr

/-- A magnitude with the discarded part given (`half` the first discarded bit, `rest` whether any later one is set) is
rounded up. -/
def Rounding.up? (r : Rounding) (neg odd half rest : Bool) : Bool :=
  match r with
  | .nearestEven => half && (rest || odd)
  | .nearestAway => half
  | .zero => false
  | .down => neg && (half || rest)
  | .up => !neg && (half || rest)

/-- `m` × 2^`e` (and a remainder) rounded to a multiple of 2^`q`: the multiple and whether it is inexact. -/
def roundAt (r : Rounding) (neg : Bool) (m : Nat) (e q : Int) (sticky : Bool) : Nat × Bool :=
  if q ≤ e then (m * 2 ^ (e - q).toNat, sticky)
  else
    let n := (q - e).toNat
    let kept := m / 2 ^ n
    let half := m / 2 ^ (n - 1) % 2 == 1
    let rest := m % 2 ^ (n - 1) != 0 || sticky
    (kept + bitNat (r.up? neg (kept % 2 == 1) half rest), half || rest)

/-- `a` × 2^`e` is at least `b` × 2^`q`. -/
def atLeast (a : Nat) (e : Int) (b : Nat) (q : Int) : Bool :=
  if q ≤ e then decide (b ≤ a * 2 ^ (e - q).toNat) else decide (b * 2 ^ (q - e).toNat ≤ a)

/-- A result that overflows (R34). -/
def FpFormat.overflow (f : FpFormat) (r : Rounding) (neg : Bool) : Nat :=
  f.sign neg +
    (if !f.inf then f.maxFinite
     else match r with
      | .nearestEven | .nearestAway => f.infinity
      | .zero => f.maxFinite
      | .down => if neg then f.infinity else f.maxFinite
      | .up => if neg then f.maxFinite else f.infinity)

/-- An exact result rounded once to a format, with the flags of R33 and the overflow values of R34. -/
def FpFormat.round (f : FpFormat) (r : Rounding) (x : Exact) : Nat × Flags :=
  match x.num with
  | .nan sig => (f.canonicalNan, x.flags.or { nv := sig })
  | .inf neg => if f.inf then (f.sign neg + f.infinity, x.flags) else (f.canonicalNan, x.flags.or invalidFlag)
  | .fin neg m e =>
    if m == 0 then (f.sign neg, x.flags)
    else
      let least : Int := 1 - f.bias - f.man
      let free : Int := e + m.log2 - f.man
      let q := max free least
      let (k, inexact) := roundAt r neg m e q x.sticky
      let (k', _) := roundAt r neg m e free x.sticky
      match f.decode f.maxFinite with
      | .fin _ mm me =>
        if !atLeast mm me k q then (f.overflow r neg, x.flags.or { of := true, nx := true })
        else
          let tiny := !atLeast k' free (2 ^ f.man) least
          (f.sign neg + ((q - least).toNat * 2 ^ f.man + k), x.flags.or { uf := tiny && inexact, nx := inexact })
      | _ => (f.sign neg, x.flags)

/-- An integer as an exact result. -/
def exactInt (i : Int) : Exact := { num := .fin (decide (i < 0)) i.natAbs 0 }

/-- Whether a number is a signalling NaN. -/
def FpNum.isSignalling : FpNum → Bool
  | .nan s => s
  | .inf _ | .fin _ _ _ => false

/-- Whether a number is a NaN. -/
def FpNum.isNan : FpNum → Bool
  | .nan _ => true
  | .inf _ | .fin _ _ _ => false

/-- Negated, a NaN kept. -/
def FpNum.neg : FpNum → FpNum
  | .nan s => .nan s
  | .inf n => .inf (!n)
  | .fin n m e => .fin (!n) m e

/-- A NaN result of these operands: NV for a signalling one (R30, R33). -/
def nanOf (ns : List FpNum) : Exact := { num := .nan false, flags := { nv := ns.any FpNum.isSignalling } }
/-- An invalid operation: a NaN with NV. -/
def invalid : Exact := { num := .nan false, flags := invalidFlag }

/-- The exact sum; an exact zero of opposite signs is +0, or −0 toward −∞ (R32). -/
def FpNum.add (r : Rounding) (a b : FpNum) : Exact :=
  match a, b with
  | .nan _, _ => nanOf [a, b]
  | _, .nan _ => nanOf [a, b]
  | .inf x, .inf y => if x == y then { num := .inf x } else invalid
  | .inf x, .fin _ _ _ => { num := .inf x }
  | .fin _ _ _, .inf y => { num := .inf y }
  | .fin x m e, .fin y n g =>
    let q := min e g
    let p : Int := ((m * 2 ^ (e - q).toNat : Nat) : Int)
    let o : Int := ((n * 2 ^ (g - q).toNat : Nat) : Int)
    let t := (if x then -p else p) + (if y then -o else o)
    if t == 0 then
      { num := .fin (if x == y then x else r == .down) 0 0 }
    else { num := .fin (decide (t < 0)) t.natAbs q }

/-- The exact product. -/
def FpNum.mul (a b : FpNum) : Exact :=
  match a, b with
  | .nan _, _ => nanOf [a, b]
  | _, .nan _ => nanOf [a, b]
  | .inf x, .inf y => { num := .inf (x != y) }
  | .inf x, .fin y n _ => if n == 0 then invalid else { num := .inf (x != y) }
  | .fin x m _, .inf y => if m == 0 then invalid else { num := .inf (x != y) }
  | .fin x m e, .fin y n g => { num := .fin (x != y) (m * n) (e + g) }

/-- a × b + c, to be rounded once. -/
def FpNum.fma (r : Rounding) (a b c : FpNum) : Exact :=
  let p := a.mul b
  if p.flags.nv || a.isNan || b.isNan then
    { num := .nan false, flags := p.flags.or { nv := c.isSignalling } }
  else p.num.add r c

/-- The quotient, with a sticky remainder. -/
def FpNum.div (a b : FpNum) : Exact :=
  match a, b with
  | .nan _, _ => nanOf [a, b]
  | _, .nan _ => nanOf [a, b]
  | .inf _, .inf _ => invalid
  | .inf x, .fin y _ _ => { num := .inf (x != y) }
  | .fin x _ _, .inf y => { num := .fin (x != y) 0 0 }
  | .fin x m e, .fin y n g =>
    if n == 0 then
      if m == 0 then invalid else { num := .inf (x != y), flags := { dz := true } }
    else if m == 0 then { num := .fin (x != y) 0 0 }
    else
      let k : Nat := 66 + n.log2
      let d := m * 2 ^ k
      { num := .fin (x != y) (d / n) (e - g - k), sticky := d % n != 0 }

/-- The integer square root, by bits from 2^(k−1) down. -/
def isqrt (n : Nat) : Nat → Nat → Nat
  | 0, acc => acc
  | k + 1, acc => let t := acc + 2 ^ k; isqrt n k (if t * t ≤ n then t else acc)

/-- The square root, with a sticky remainder; the root of −0 is −0. -/
def FpNum.sqrt (a : FpNum) : Exact :=
  match a with
  | .nan _ => nanOf [a]
  | .inf x => if x then invalid else { num := .inf false }
  | .fin x m e =>
    if m == 0 then { num := .fin x 0 0 }
    else if x then invalid
    else
      let k : Nat := 130 + (if e % 2 == 0 then 0 else 1)
      let d := m * 2 ^ k
      let r := isqrt d 100 0
      { num := .fin false r ((e - k) / 2), sticky := r * r != d }

/-- Order of two numbers that are no NaN: −1, 0 or 1; zeros of either sign are equal. -/
def FpNum.cmp (a b : FpNum) : Int :=
  match a, b with
  | .nan _, _ => 0
  | _, .nan _ => 0
  | .inf x, .inf y => if x == y then 0 else if x then -1 else 1
  | .inf x, .fin _ _ _ => if x then -1 else 1
  | .fin _ _ _, .inf y => if y then 1 else -1
  | .fin x m e, .fin y n g =>
    let q := min e g
    let p : Int := ((m * 2 ^ (e - q).toNat : Nat) : Int)
    let o : Int := ((n * 2 ^ (g - q).toNat : Nat) : Int)
    let t := (if x then -p else p) - (if y then -o else o)
    if t < 0 then -1 else if t == 0 then 0 else 1

/-- Sign of a number; that of a NaN is not used. -/
def FpNum.isNeg : FpNum → Bool
  | .nan _ => false
  | .inf x | .fin x _ _ => x

/-- IEEE 754-2019 minimum or maximum of two codes: a NaN operand gives the canonical NaN, NV for a signalling one only,
and −0 < +0 (R95). -/
def FpFormat.extremum (f : FpFormat) (least : Bool) (a b : Nat) : Nat × Flags :=
  let x := f.decode a
  let y := f.decode b
  if x.isNan || y.isNan then (f.canonicalNan, { nv := x.isSignalling || y.isSignalling })
  else
    let c := x.cmp y
    let first := if c == 0 then (if least then x.isNeg else !x.isNeg) else if least then decide (c < 0) else decide (0 < c)
    (if first then a else b, {})

/-- An FP comparison (R95): equal and unordered raise NV for a signalling NaN, the others for any NaN. -/
def FpFormat.compare (f : FpFormat) (r : FRel) (a b : Nat) : Bool × Flags :=
  let x := f.decode a
  let y := f.decode b
  let un := x.isNan || y.isNan
  let sig : Flags := { nv := x.isSignalling || y.isSignalling }
  match r with
  | .eq => (!un && x.cmp y == 0, sig)
  | .lt => (!un && decide (x.cmp y < 0), { nv := un })
  | .le => (!un && decide (x.cmp y ≤ 0), { nv := un })
  | .un => (un, sig)

/-- A number rounded to an integer. -/
def roundInt (r : Rounding) (neg : Bool) (m : Nat) (e : Int) : Int × Bool :=
  let (k, inexact) := roundAt r neg m e 0 false
  (if neg then -(k : Int) else k, inexact)

/-- Conversion to an integer in a range (R96): out of range saturates with NV and no NX; a NaN gives 0 with NV. -/
def FpNum.toInt (r : Rounding) (lo hi : Int) (a : FpNum) : Int × Flags :=
  match a with
  | .nan _ => (0, invalidFlag)
  | .inf x => (if x then lo else hi, invalidFlag)
  | .fin x m e =>
    let (i, inexact) := roundInt r x m e
    if hi < i then (hi, invalidFlag) else if i < lo then (lo, invalidFlag) else (i, { nx := inexact })

end Sys2Proof.Machine
end

