-- ==== Sys2Proof/Machine/Operands.lean ====
section
/-! DEFINITION. The vector type, the elements of register groups, the decode tests that depend on the type, digit links
and the cross-lane modifier (R11, R13 to R16, R38, R52, R64, R109, R110, R123 to R127, R134 to R136). -/

namespace Sys2Proof.Machine

/-! ### The vector type (R13 to R15) -/

/-- The shape that a legal `vty` gives: element width in bits, format code, group factor. -/
structure VType where
  ew  : Nat
  fmt : Nat
  gf  : Nat
  deriving DecidableEq, Repr

/-- The shape in a value of `vty`. -/
def vtypeOf (x : Word) : VType := ⟨4 * 2 ^ bits x 3 3, bits x 6 4, 2 ^ bits x 10 2⟩

/-- VLMAX (R15). -/
def VType.vlmax (t : VType) : Nat := min 2048 (8192 * t.gf / t.ew)

/-- Bytes of an element at 8 bits and above. -/
def VType.es (t : VType) : Nat := t.ew / 8

/-- FMT and EW go together (R14). -/
def pairOk (fmt ew : Nat) : Bool :=
  match fmt with
  | 0 | 1 => ew == 4 || ew == 8 || ew == 16 || ew == 32 || ew == 64
  | 2 => ew == 64
  | 3 => ew == 32
  | 4 | 5 => ew == 16
  | 6 | 7 | 8 | 9 => ew == 8
  | 10 | 11 => ew == 4
  | _ => false

/-- A value of `vty`, bit 63 apart, is a legal combination (R15). -/
def vtyLegal (x : Word) : Bool :=
  let t := vtypeOf x
  bits x 20 43 == 0 && bits x 0 3 == 0 && decide (bits x 3 3 ≤ 4) && decide (bits x 12 3 ≤ 5) &&
    decide (bits x 16 3 ≤ 4) && pairOk t.fmt t.ew && decide (8192 * t.gf ≤ 2048 * t.ew)

/-- `vty` with ILL set (R15). -/
def vtyIllegal : Word := 0x8000000000000000

/-- A value written to `vty`: taken if legal, else ILL; bit 63 is ignored (R15). -/
def vtyWrite (x : Word) : Word := let y := x &&& 0x7FFFFFFFFFFFFFFF; if vtyLegal y then y else vtyIllegal

/-- A value written to `xlm` (R134, R135). -/
def xlmWrite (x : Word) : Word :=
  let y := x &&& 0x7FFFFFFFFFFFFFFF
  if bits y 20 43 ≠ 0 ∨ bit y 11 ∨ 6 ≤ bits y 15 3 ∨ (bits y 12 3 = 0 ∧ bits y 18 2 ≠ 0) then vtyIllegal else y

/-- The hart's vector type. -/
def State.vtype (s : State) : VType := vtypeOf s.hart.vty

/-- The FP format of an FMT code 2 to 7 (R14). -/
def fpOf (fmt : Nat) : FpFormat :=
  match fmt with
  | 2 => fp64 | 3 => fp32 | 4 => bf16 | 5 => fp16 | 6 => e4m3 | _ => e5m2

/-- FMT is an integer format. -/
def VType.isInt (t : VType) : Bool := decide (t.fmt ≤ 1)
/-- FMT is an FP format. -/
def VType.isFp (t : VType) : Bool := decide (2 ≤ t.fmt) && decide (t.fmt ≤ 7)
/-- FMT is MX or OX4. -/
def VType.isBlock (t : VType) : Bool := decide (8 ≤ t.fmt)

/-! ### Elements of register groups (R11) -/

/-- Element `i`, of `ew` bits, of the group from register `r`. -/
def Hart.elem (h : Hart) (r : BitVec 5) (ew i : Nat) : Nat :=
  ((h.getV (r + BitVec.ofNat 5 (i * ew / 8192))).toNat >>> (i * ew % 8192)) % 2 ^ ew

/-- That element written. -/
def Hart.setElem (h : Hart) (r : BitVec 5) (ew i x : Nat) : Hart :=
  let q := r + BitVec.ofNat 5 (i * ew / 8192)
  let o := i * ew % 8192
  let v := h.getV q
  h.setV q ((v &&& ~~~(BitVec.ofNat 8192 (2 ^ ew - 1) <<< o)) ||| BitVec.ofNat 8192 (x % 2 ^ ew) <<< o)

/-- An element of the hart whose turn it is. -/
def State.elem (s : State) (r : BitVec 5) (ew i : Nat) : Nat := s.hart.elem r ew i
/-- That element written. -/
def State.setElem (s : State) (r : BitVec 5) (ew i x : Nat) : State := { s with hart := s.hart.setElem r ew i x }

/-- The registers of a group. -/
def groupRegs (r : BitVec 5) (n : Nat) : List Nat := (List.range n).map (r.toNat + ·)

/-- The companion register of a group (R38). -/
def companion (r : BitVec 5) (t : VType) : BitVec 5 := r + BitVec.ofNat 5 t.gf

/-- A group with its companion, under the block formats. -/
def groupAll (r : BitVec 5) (t : VType) : List Nat := groupRegs r (if t.isBlock then t.gf + 1 else t.gf)

/-- Two groups have a register in common. -/
def overlaps (a b : List Nat) : Bool := a.any b.contains

/-- Predicate bit of a position. -/
def Hart.pbit (h : Hart) (p : PReg) (i : Nat) : Bool := (h.getP p).getLsbD i
/-- A predicate bit written. -/
def State.setPbit (s : State) (p : PReg) (i : Nat) (x : Bool) : State :=
  let v := s.getP p
  let m : PredBits := 1 <<< i
  s.setP p (if x then v ||| m else v &&& ~~~m)

/-- `Active(i)` of R77 for a governing predicate. -/
def Hart.active (h : Hart) (p : PSel) (i : Nat) : Bool := decide (i < h.vl.toNat) && (p == 31 || h.pbit p i)

/-! ### Decode tests 8 to 13 of R52 and the length check -/

/-- What a vector word names, for the tests: its word, register groups with their sizes, register numbers that end
further groups, the companion
registers of the operands that its description may hold in a block format, whether it admits the type, and whether it rounds
(R32). -/
structure VWord where
  word   : BitVec 32
  groups : List (BitVec 5 × Nat) := []
  ends   : List Nat := []
  companions : List Nat := []
  admits : Bool := true
  rounds : Bool := false
  deriving DecidableEq, Repr

/-- Tests 8 to 13 of R52, in their order. -/
def lateTests (v : VWord) (s : State) (k : Res) : Res :=
  let t := wordVal v.word
  trapIf (bit s.hart.vty 63) 0x040 t s <|
  trapIf (v.groups.any fun g => g.1.toNat % g.2 != 0) 0x041 t s <|
  trapIf ((v.groups.any fun g => decide (32 < g.1.toNat + g.2)) || v.ends.any fun e => decide (32 < e)) 0x042 t s <|
  trapIf (v.companions.any (decide <| 31 < ·)) 0x043 t s <|
  trapIf (!v.admits) 0x044 t s <|
  trapIf (v.rounds && bit s.hart.vty 15 && s.rmReserved) 0x045 t s k

/-- `vl` above the VLMAX of the type: 0x047 (R109). -/
def lengthTest (s : State) (k : Res) : Res :=
  trapIf (decide (s.vtype.vlmax < s.hart.vl.toNat)) 0x047 (s.hart.vl.setWidth 64) s k

/-! ### How the element loop of a word ends -/

/-- How the execution of a vector word ends: it retires, or it stops at a resumable position, or has trapped, or waits;
the state holds what it did. -/
inductive Ended where
  | retire (s : State)
  | stop (s : State)
  deriving DecidableEq, Repr

/-- Where this turn of the word stops: at `vl`, or at the position its element-group turn gives (R18, R182). -/
def State.upto (s : State) : Nat :=
  match s.stop with
  | some n => max s.hart.vix.toNat (min n s.hart.vl.toNat)
  | none => s.hart.vl.toNat

/-- Where this turn of a word that goes by whole blocks stops (R150, R154): at `vl`, or after the last block that lies whole
below its limit. -/
def State.uptoBlock (s : State) : Nat := if s.hart.vl.toNat ≤ s.upto then s.upto else s.upto / 32 * 32

/-- `f` from `lo` up to `hi` − 1, ascending. -/
def forFrom {α : Type} (lo hi : Nat) (f : Nat → α → α) (x : α) : α := (List.range' lo (hi - lo)).foldl (fun y i => f i y) x

/-- The word has done its positions below `n`: it retires if they are all, and else stops with `vix` at `n` (R18). -/
def State.endAt (s : State) (n : Nat) : Ended :=
  if s.hart.vl.toNat ≤ n then .retire s else .stop { s with hart := { s.hart with run := .running, vix := BitVec.ofNat 11 n } }

/-! ### Operands that may be digit links (R64) -/

/-- A vector operand. -/
inductive Operand where
  | none_
  | reg (r : BitVec 5)
  | link (k : BitVec 3)
  | pred (p : PReg)
  deriving DecidableEq, Repr

/-- An operand field of a link-major word: 24 to 31 name links (R64). -/
def linkOperand (r : LReg) : Operand := if 24 ≤ r.toNat then .link (r.extractLsb' 0 3) else .reg r

/-- The link an operand names. -/
def Operand.linkOf : Operand → Option (BitVec 3)
  | .link k => some k
  | .none_ | .reg _ | .pred _ => none

/-- The register an operand names. -/
def Operand.regOf : Operand → Option (BitVec 5)
  | .reg r => some r
  | .none_ | .link _ | .pred _ => none

/-- A digit link of the hart. -/
def Hart.link (h : Hart) (k : BitVec 3) : Option Link := h.dl.get k.toFin
/-- A digit link stored. -/
def Hart.setLink (h : Hart) (k : BitVec 3) (x : Option Link) : Hart := { h with dl := h.dl.set k.toFin x }

/-- Number of a link as `tval` holds it. -/
def linkVal (k : BitVec 3) : Word := k.setWidth 64

/-- Elements of a link that are final, taken or not. -/
def Link.produced (l : Link) : Nat := l.elems.countP fun e => e != .unproduced

/-- The link's producer is interrupted: it has elements that nothing has produced (R123). -/
def Link.interrupted (l : Link) : Bool := l.elems.any fun e => e == .unproduced

/-- A value of a link element; an element that is not there reads as zero. -/
def Link.value (l : Link) (i : Nat) : Nat :=
  match l.elems[i]? with
  | some (.final x) => x.toNat
  | _ => 0

/-- The consumer checks of R126 for one operand. -/
def consumerTest (o : Operand) (s : State) (k : Res) : Res :=
  match o with
  | .none_ | .reg _ | .pred _ => k
  | .link n =>
    match s.hart.link n with
    | none => .next (s.trap 0x201 (linkVal n))
    | some l =>
      trapIf (l.interrupted && decide (l.produced < s.hart.vl.toNat)) 0x201 (linkVal n) s <|
      trapIf (l.vl != s.hart.vl || l.fmt != s.hart.vty.extractLsb' 6 4 || l.ew != s.hart.vty.extractLsb' 3 3)
        0x203 (linkVal n) s k

/-- The occupied link is the resumed producer's own (R128): an interrupted one of the word at `pc`, or one that an image
gave, whose next element is the one at `vix`. That a producer resumed at another `vix` does not own it is read from the
rule (log entry 39). -/
def Link.ownOf (l : Link) (h : Hart) : Bool :=
  l.interrupted && (l.pc.isNone || l.pc == some h.pc) && l.elems.findIdx (fun e => e == .unproduced) == h.vix.toNat

/-- The producer check of R124. -/
def producerTest (o : Operand) (s : State) (k : Res) : Res :=
  match o with
  | .none_ | .reg _ | .pred _ => k
  | .link n =>
    match s.hart.link n with
    | none => k
    | some l => trapIf (!l.ownOf s.hart) 0x202 (linkVal n) s k

/-- A link with an interrupted producer, as `dlfl` remembers it (R128). -/
def Link.flush (l : Link) (n : BitVec 3) : Flushed :=
  { num := n, vl := l.vl, fmt := l.fmt, ew := l.ew, pc := l.pc
    next := BitVec.ofNat 11 (l.elems.findIdx fun e => e == .unproduced) }

/-- `dlfl` empties a link (R129): of one whose producer is interrupted the recorded shape is remembered (R128). -/
def Hart.flushLink (h : Hart) (n : BitVec 3) : Hart :=
  let kept := h.flushed.filter fun f => f.num != n
  match h.link n with
  | some l => { h.setLink n none with flushed := if l.interrupted then l.flush n :: kept else kept }
  | none => h

/-- A link's shape was remembered for the producer at `pc`, which resumes at `vix` (R128). One that resumes at 0 begins
afresh, under the shape in force (log entry 39). -/
def Flushed.serves (f : Flushed) (n : BitVec 3) (h : Hart) : Bool :=
  f.num == n && h.vix != 0 && f.next == h.vix && (f.pc.isNone || f.pc == some h.pc)

/-- A fresh link of the producer at `pc`, its positions below `vix` final zeros (R125, R128): under the shape in force, or
under the recorded one of a link that a handler's `dlfl` emptied. -/
def Hart.freshLink (h : Hart) (n : BitVec 3) : Link :=
  let (vl, fmt, ew) := match h.flushed.find? fun f => f.serves n h with
    | some f => (f.vl, f.fmt, f.ew)
    | none => (h.vl, h.vty.extractLsb' 6 4, h.vty.extractLsb' 3 3)
  { vl := vl, fmt := fmt, ew := ew, pc := some h.pc
    elems := (List.range vl.toNat).map fun i => if i < h.vix.toNat then .final 0 else .unproduced }

/-- The producer's link is occupied, if it is not its own already (R123). -/
def State.occupy (s : State) (o : Operand) : State :=
  match o with
  | .none_ | .reg _ | .pred _ => s
  | .link n =>
    match s.hart.link n with
    | some _ => s
    | none =>
      let h := s.hart.setLink n (some (s.hart.freshLink n))
      { s with hart := { h with flushed := h.flushed.filter fun f => f.num != n } }

/-- An element of a producer becomes final. -/
def State.produce (s : State) (n : BitVec 3) (i x : Nat) : State :=
  match s.hart.link n with
  | some l => { s with hart := s.hart.setLink n (some { l with elems := l.elems.set i (.final (BitVec.ofNat 64 x)) }) }
  | none => s

/-- A consumer that stops at `n` has taken the positions below `n` (R126). -/
def State.consume (s : State) (n : Nat) (o : Operand) : State :=
  match o with
  | .none_ | .reg _ | .pred _ => s
  | .link k =>
    match s.hart.link k with
    | some l =>
      { s with hart := s.hart.setLink k (some { l with
          elems := (l.elems.take n).map (fun _ => LinkElem.consumed) ++ l.elems.drop n }) }
    | none => s

/-- A consumer that retires leaves its link empty (R126). -/
def State.emptyLink (s : State) (o : Operand) : State :=
  match o with
  | .none_ | .reg _ | .pred _ => s
  | .link k => { s with hart := s.hart.setLink k none }

/-! ### The cross-lane modifier (R134 to R136) -/

/-- `xlm.SEL` selects operand A. -/
def Hart.selA (h : Hart) : Bool := bit h.xlm 18
/-- `xlm.SEL` selects operand B. -/
def Hart.selB (h : Hart) : Bool := bit h.xlm 19

/-- The position that a selected operand is read at, or none outside its group (R136). -/
def xlmMap (x : Word) (i : Nat) : Option Nat :=
  let g := 2 ^ bits x 12 3
  let o := i % g
  let amt := bits x 0 11
  let dest : Int := match bits x 15 3 with
    | 0 => o
    | 1 => amt
    | 2 => (o : Int) - amt
    | 3 => (o : Int) + amt
    | 4 => Nat.xor o amt
    | _ => (g : Int) - 1 - o
  if dest < 0 ∨ (g : Int) ≤ dest then none else some (i - o + dest.toNat)

/-- Element `i` of a source operand, read through `xlm` when it is selected. -/
def State.src (s : State) (t : VType) (sel : Bool) (o : Operand) (i : Nat) : Nat :=
  match o with
  | .none_ | .pred _ => 0
  | .link k => match s.hart.link k with
    | some l => l.value i
    | none => 0
  | .reg r =>
    if sel then
      match xlmMap s.hart.xlm i with
      | some j => s.elem r t.ew j
      | none => 0
    else s.elem r t.ew i

/-- The checks that `xlm` brings to a word it governs: 0x048, 0x049, 0x04A (R110, R135, R136). -/
def xlmTest (w : BitVec 32) (d a b : Operand) (s : State) (k : Res) : Res :=
  let t := s.vtype
  let sel := (if s.hart.selA then [a] else []) ++ (if s.hart.selB then [b] else [])
  let regs := fun (o : Operand) => match o with
    | .reg r => groupRegs r t.gf
    | .none_ | .link _ | .pred _ => []
  trapIf (bit s.hart.xlm 63) 0x048 (wordVal w) s <|
  trapIf (sel.any fun o => o.linkOf.isSome) 0x049 (wordVal w) s <|
  trapIf (sel.any fun o => overlaps (regs d) (regs o)) 0x04A (wordVal w) s k

end Sys2Proof.Machine
end

