-- ==== Sys2Proof/Machine/VAccess.lean ====
section
/-! DEFINITION. Vector memory accesses: the addresses of a position, its checks, and the load, store or atomic that it
performs (R153 to R167). -/

namespace Sys2Proof.Machine

/-! ### Block images (R36, R40, R154) -/

/-- Bytes of a block image (R154). -/
def blockSize (fmt : Nat) : Nat :=
  match fmt with
  | 8 => 33 | 9 => 25 | 10 => 17 | _ => 18

/-- Scale and extension bytes of a block: two under OX4, else one. -/
def scaleBytes (fmt : Nat) : Nat := if fmt == 11 then 2 else 1

/-- Bits of a code in a block image. -/
def codeBits (fmt : Nat) : Nat := if fmt == 8 then 8 else if fmt == 9 then 6 else 4

/-- The 32 codes of a block as its packed bytes. -/
def packCodes (fmt : Nat) (codes : List Nat) : List Byte :=
  natToBytes (4 * codeBits fmt) (codes.foldr (fun c acc => acc * 2 ^ codeBits fmt + c % 2 ^ codeBits fmt) 0)

/-- Code `k` of the packed bytes of a block. -/
def codeOf (fmt : Nat) (bs : List Byte) (k : Nat) : Nat := bytesToNat bs / 2 ^ (codeBits fmt * k) % 2 ^ codeBits fmt

/-- The image of block `b` of a group, from its codes and companion bytes. -/
def Hart.blockImage (h : Hart) (t : VType) (r : BitVec 5) (b : Nat) : List Byte :=
  let n := scaleBytes t.fmt
  (List.range n).map (fun j => BitVec.ofNat 8 (h.elem (companion r t) 8 (n * b + j))) ++
    packCodes t.fmt ((List.range 32).map fun k => h.elem r t.ew (32 * b + k))

/-- The companion bytes of block `b` written. -/
def Hart.setScale (h : Hart) (t : VType) (r : BitVec 5) (b : Nat) (bs : List Byte) : Hart :=
  forUpTo (scaleBytes t.fmt) (fun j h => h.setElem (companion r t) 8 (scaleBytes t.fmt * b + j) (bs.getD j 0).toNat) h

/-- A block image written into a group: the companion bytes and the codes of the given positions (R154). -/
def Hart.putBlock (h : Hart) (t : VType) (r : BitVec 5) (b : Nat) (on : Nat → Bool) (bs : List Byte) : Hart :=
  let codes := bs.drop (scaleBytes t.fmt)
  forUpTo 32 (fun k h => if on (32 * b + k) then h.setElem r t.ew (32 * b + k) (codeOf t.fmt codes k) else h)
    (h.setScale t r b bs)

/-! ### Checks of a position -/

/-- A fault of an element: its cause and the address for `tval`. -/
structure VFault where
  cause : BitVec 10
  addr  : Word
  deriving DecidableEq, Repr

/-- Where a checked run of bytes lands; none for a lost target. -/
abbrev Landing := Option (List Nat)

/-- The bytes at one address pass their checks, one by one (R154: a block image needs no alignment); an image in the
row-handle window stays within its row (R241). -/
def State.checkRun (s : State) (how : How) (a : Word) (n : Nat) : Except (BitVec 10) (Landing × State) :=
  if spaceOf a == some .rows && decide (1024 < aOff a % 1024 + n) then .error 0x0C1
  else
    (List.range n).foldl (fun acc j =>
      match acc with
      | .error c => .error c
      | .ok (l, s) =>
        match s.check how (a + BitVec.ofNat 64 j) 1 with
        | .error (.cause c) => .error c
        | .error .lost => .ok (none, s)
        | .ok (p, s) => .ok (l.map (· ++ p.keys), s)) (.ok (some [], s))

/-- The checks of one field of a position: alignment, then R156, then the reading of poisoned bytes (R308). `block`
marks a block image. -/
def State.checkField (s : State) (how : How) (block : Bool) (a : Word) (n : Nat) : Except VFault (Landing × State) :=
  if !block && a.toNat % n != 0 then .error ⟨0x083, a⟩
  else
    let r := if block then s.checkRun how a n
      else match s.check how a n with
        | .error (.cause c) => .error c
        | .error .lost => .ok (none, s)
        | .ok (p, s) => .ok (some p.keys, s)
    match r with
    | .error c => .error ⟨c, a⟩
    | .ok (l, s) =>
      if how.acc == .store then .ok (l, s)
      else match s.poisonCause (l.getD []) with
        | some c => .error ⟨c, a⟩
        | none => .ok (l, s)

/-- The checks of the fields of a position, in order: the first fault decides (R158). -/
def State.checkFields (s : State) (how : How) (block : Bool) (n : Nat) :
    List Word → Except VFault (List Landing × State)
  | [] => .ok ([], s)
  | a :: rest =>
    match s.checkField how block a n with
    | .error f => .error f
    | .ok (l, s) => match s.checkFields how block n rest with
      | .error f => .error f
      | .ok (ls, s) => .ok (l :: ls, s)

/-- How the hart whose turn it is makes the access of a vector position (R236: bank i mod 64). -/
def State.vectorHow (s : State) (acc : Acc) (i : Nat) : How :=
  { s.scalarHow acc with bank := i % 64, vector := true }

/-- The entry that a check has used for an address, which serves the whole page from then on (R236): none where one of the
word's entries served it already. -/
def State.usedEntry (s : State) (how : How) (a : Word) : List TlbEntry :=
  match how.master.core, (spaceOf a).bind Space.index with
  | some c, some u =>
    if how.entries.any fun t => t.maps how.master.asid u (aOff a) then []
    else match ((s.core c).tlb.getD how.bank []).find? fun t => t.maps how.master.asid u (aOff a) with
      | some t => [t]
      | none => []
  | _, _ => []

/-! ### Positions -/

/-- Address modes (R151, R153). -/
inductive VMode where
  | unit
  | strided (step : Word)
  | indexed (r : BitVec 5)
  | segment (n : Nat)
  deriving DecidableEq, Repr

/-- Bytes of one field: an element, or a block image; one byte at EW 4 (R153). -/
def VType.fieldBytes (t : VType) : Nat := if t.isBlock then blockSize t.fmt else if t.ew == 4 then 1 else t.es

/-- Addresses of the fields of a position (R153, R154). -/
def State.addresses (s : State) (t : VType) (mode : VMode) (base : Word) (i : Nat) : List Word :=
  if t.isBlock then
    match mode with
    | .strided step => [base + BitVec.ofNat 64 (i / 32) * step]
    | .unit | .indexed _ | .segment _ => [base + BitVec.ofNat 64 (i / 32 * blockSize t.fmt)]
  else
    match mode with
    | .unit => [base + BitVec.ofNat 64 (if t.ew == 4 then i / 2 else i * t.es)]
    | .strided step => [base + BitVec.ofNat 64 i * step]
    | .indexed r => [base + BitVec.ofNat 64 (s.elem r t.ew i) * BitVec.ofNat 64 t.es]
    | .segment n => (List.range n).map fun f => base + BitVec.ofNat 64 ((i * n + f) * t.es)

/-- Positions per item: a block of 32 under the block formats (R154). -/
def VType.step (t : VType) : Nat := if t.isBlock then 32 else 1

/-- The items of a word that have an active position `on`, in ascending order. -/
def State.items (s : State) (t : VType) (mode : VMode) (base : Word) (on : Nat → Bool) : List VItem :=
  let n := s.hart.vl.toNat
  ((List.range (ceilDiv n t.step)).filter fun b => (List.range t.step).any fun k => on (b * t.step + k)).map fun b =>
    ⟨b * t.step, s.addresses t mode base (b * t.step)⟩

/-- A translation serves a whole page, except under an indexed mode (R236). -/
def VMode.pagewise : VMode → Bool
  | .indexed _ => false
  | .unit | .strided _ | .segment _ => true

/-- The probe over the items (R158): where each lands or how it faults, in order, and the state with its banks. -/
def State.probe (s : State) (acc : Acc) (t : VType) (pagewise : Bool) :
    List TlbEntry → List VItem → List (VItem × Except VFault (List Landing)) × State
  | _, [] => ([], s)
  | es, x :: rest =>
    let how := { s.vectorHow acc x.pos with entries := es }
    match s.checkFields how t.isBlock t.fieldBytes x.addrs with
    | .error f =>
      let (out, s) := s.probe acc t pagewise es rest
      ((x, .error f) :: out, s)
    | .ok (ls, s) =>
      let es := if pagewise then (x.addrs.map (s.usedEntry how)).flatten ++ es else es
      let (out, s) := s.probe acc t pagewise es rest
      ((x, .ok ls) :: out, s)

/-- An element is remote when its address names another die or package than the hart's (R157). -/
def State.remote (s : State) (x : VItem) : Bool := x.addrs.any fun a => aDieId a != dieOf s.hart.pos

/-! ### Performing a position -/

/-- The LOST bit, and for an indeterminate atomic the IND bit, of a position (R339). -/
def State.setRerr (s : State) (i : Nat) (ind : Bool) : State :=
  { s with hart := { s.hart with rerr := s.hart.rerr ||| (1 <<< (i % 32)) ||| (if ind then 1 <<< (32 + i % 32) else 0) } }

/-- The homes of an item that landed whole. -/
def landedKeys (ls : List Landing) : List Nat := ls.flatMap fun l => l.getD []

/-- The bytes of a field as read: all ones for a lost target (R167). -/
def State.fieldRead (s : State) (n : Nat) : Landing → List Byte
  | some ks => s.bytes ks
  | none => List.replicate n 0xFF

/-- A load of one position: dirty scalar copies recalled, its bytes to the registers, the LOST bits of a lost target
(R153, R154, R162, R167). -/
def State.loadItem (s : State) (t : VType) (d : BitVec 5) (on : Nat → Bool) (rerr : Bool) (x : VItem)
    (ls : List Landing) : State :=
  let lost := ls.any Option.isNone
  let s := s.recall (landedKeys ls)
  let s :=
    if t.isBlock then
      let bs := s.fieldRead t.fieldBytes (ls.headD none)
      { s with hart := s.hart.putBlock t d (x.pos / 32) on bs }
    else
      (ls.zip (List.range ls.length)).foldl (fun s (l, f) =>
        let v := bytesToNat (s.fieldRead t.fieldBytes l)
        let v := if t.ew == 4 then v / 2 ^ (4 * (x.pos % 2)) else v
        s.setElem (d + BitVec.ofNat 5 (f * t.gf)) t.ew x.pos v) s
  if lost && rerr then (List.range t.step).foldl (fun s k => if on (x.pos + k) then s.setRerr (x.pos + k) false else s) s
  else s

/-- A store of one position: its bytes to memory; a lost target takes none (R153, R154, R167). -/
def State.storeItem (s : State) (t : VType) (d : BitVec 5) (on : Nat → Bool) (rerr : Bool) (x : VItem)
    (ls : List Landing) : State :=
  let lost := ls.any Option.isNone
  let s :=
    (ls.zip (List.range ls.length)).foldl (fun s (l, f) =>
      match l with
      | none => s
      | some ks =>
        if t.isBlock then s.store ks (s.hart.blockImage t d (x.pos / 32))
        else
          let v := s.elem (d + BitVec.ofNat 5 (f * t.gf)) t.ew x.pos
          if t.ew == 4 then
            let old := bytesToNat (s.bytes ks)
            let new := if x.pos % 2 == 0 then old / 16 * 16 + v else old % 16 + 16 * v
            s.store ks (natToBytes 1 new)
          else s.store ks (natToBytes t.es v)) s
  if lost && rerr then (List.range t.step).foldl (fun s k => if on (x.pos + k) then s.setRerr (x.pos + k) false else s) s
  else s

/-- The update of `vamo` (R166): the new memory value and the flags. -/
def vamoUpdate (op : VamoOp) (t : VType) (rm : Rounding) (m d : Nat) : Nat × Flags :=
  let sgn := fun (x : Nat) => (BitVec.ofNat t.ew x).toInt
  match op with
  | .add => ((m + d) % 2 ^ t.ew, {})
  | .min => (if t.fmt == 0 then (if sgn d < sgn m then d else m) else min m d, {})
  | .max => (if t.fmt == 0 then (if sgn m < sgn d then d else m) else max m d, {})
  | .and => (Nat.land m d, {})
  | .or => (Nat.lor m d, {})
  | .xor => (Nat.xor m d, {})
  | .swap => (d, {})
  | .fadd => let f := fpOf t.fmt; f.round rm (((f.decode m).add rm (f.decode d)))

/-- Memory at some homes updated by one element of `vamo` (R166): the old value, the flags and the state. -/
def State.vamoStore (s : State) (op : VamoOp) (t : VType) (rm : Rounding) (d : BitVec 5) (pos : Nat) (ks : List Nat) :
    Nat × Flags × State :=
  let old := bytesToNat (s.bytes ks)
  let (new, fl) := vamoUpdate op t rm old (s.elem d t.ew pos)
  (old, fl, s.store ks (natToBytes t.es new))

/-- An element of `vamo` whose target is lost (R167, R340): all ones, and not performed where the loss was known before it
left. While the master may not have known, it was turned away, or it is indeterminate, with its update made or not: which,
is free, and one for all elements of the word at its address (R166, R253). -/
def State.lostAmoItem (s : State) (op : VamoOp) (t : VType) (rm : Rounding) (d : BitVec 5) (rerr : Bool) (x : VItem) :
    State :=
  let a := x.addrs.headD 0
  let how := s.vectorHow .atomic x.pos
  let way := if s.lossUnknown how.master a then Config.lostAtomic s.free a % 3 else 0
  let s := if way != 2 then s else
    match s.check { how with late := true } a t.es with
    | .ok (p, s) => (s.vamoStore op t rm d x.pos p.keys).2.2
    | .error _ => s
  let s := s.setElem d t.ew x.pos (2 ^ t.ew - 1)
  if rerr then s.setRerr x.pos (way != 0) else s

/-- An atomic of one position: memory updated, the old value to the register, and the flags of its rounding raised (R166,
R167). Of a `.fadd` that stops under `fm`, `fcsr` holds the flags of the elements performed, whatever their place: the model's
choice between rule 6 of R166 and rule 2 of R35 (log entry 39). -/
def State.amoItem (s : State) (op : VamoOp) (t : VType) (rm : Rounding) (d : BitVec 5) (rerr : Bool) (x : VItem)
    (ls : List Landing) : State :=
  match ls.headD none with
  | some ks =>
    let (old, fl, s) := s.vamoStore op t rm d x.pos ks
    (s.raise fl).setElem d t.ew x.pos old
  | none => s.lostAmoItem op t rm d rerr x

/-! ### Bytes of outstanding non-blocking accesses (R20, R251) -/

/-- What an item does to memory. -/
def NbKind.acc : NbKind → Acc
  | .load => .load
  | .store => .store
  | .amo _ => .atomic

/-- The homes of an item of an outstanding access: those that its word's checks found, or where it would land now. -/
def State.nbHomes (s : State) (x : NbAccess) (i : VItem × Option (List (List Nat))) : List Nat :=
  match i.2 with
  | some ks => ks.flatten
  | none =>
    let t : VType := ⟨x.ew, x.fmt, x.gf⟩
    match s.checkFields (s.vectorHow x.kind.acc i.1.pos) t.isBlock t.fieldBytes i.1.addrs with
    | .ok (ls, _) => landedKeys ls
    | .error _ => []

/-- One of the accesses of the hart, outstanding and earlier in program order, touches one of the bytes, and one of the two
writes it: the later access waits (rules 1 and 3 of R251). -/
def State.afterNb (s : State) (xs : List NbAccess) (acc : Acc) (ks : List Nat) : Bool :=
  xs.any fun x => (acc != .load || x.kind != .load) && x.items.any fun i => (s.nbHomes x i).any ks.contains

@[simp] theorem State.afterNb_nil (s : State) (acc : Acc) (ks : List Nat) : s.afterNb [] acc ks = false := rfl

/-- A word of the hart that accesses some bytes at their homes waits for the outstanding accesses that come before it. -/
def afterOwnNb (acc : Acc) (ks : List Nat) (s : State) (k : Res) : Res :=
  if s.afterNb s.hart.nb acc ks then .next (s.wait .interlock) else k

/-- Items in the order of `vamo`: by address, ties by ascending position (R166). -/
def sortItems {α : Type} (xs : List (VItem × α)) : List (VItem × α) :=
  let key := fun (x : VItem × α) => (x.1.addrs.headD 0).toNat
  let rec insert (x : VItem × α) : List (VItem × α) → List (VItem × α)
    | [] => [x]
    | y :: ys => if key x < key y then x :: y :: ys else y :: insert x ys
  xs.foldl (fun acc x => insert x acc) []

end Sys2Proof.Machine
end

