-- ==== Sys2Proof/Machine/Scalar.lean ====
section
/-! DEFINITION. Scalar-path accesses: the read and the write that words and records make (R82, R83, R86, R87, R248, R341, R342). -/

namespace Sys2Proof.Machine

/-- The window of the hart's team on its die that covers an address (R341). -/
def State.windowOf (s : State) (a : Word) : Option (Nat × Window) :=
  (s.die (dieOf s.hart.pos)).windows.find? fun (_, w) => w.team == s.hart.team && w.holds a

/-- The bytes of an access that passed its checks; a read of a device register has no bytes here. -/
def State.placeBytes (s : State) (p : Place) : Except (BitVec 10) (List Byte) :=
  if p.space == .regs then .error 0x186
  else match s.poisonCause p.keys with
    | some c => .error c
    | none => .ok (s.bytes p.keys)

/-- A scalar read of `n` bytes at its home, after its alignment check (R86, R87, R308). -/
def State.homeRead (s : State) (a : Word) (n : Nat) : Except (BitVec 10) (List Byte × State) :=
  match s.check (s.scalarHow .load) a n with
  | .error .lost => .error 0x140
  | .error (.cause c) => .error c
  | .ok (p, s) => (s.placeBytes p).map fun bs => (bs, s)

/-- A read of `n` bytes of one line of a window (R248, R342): from the line as it is held, without a further check, or
from the home, when the line is filled. Which, is free. -/
def State.windowLine (s : State) (i : Nat) (w : Window) (a : Word) (n : Nat) : Except (BitVec 10) (List Byte × State) :=
  let line := a.toNat / 64
  let slice := fun (l : List Byte) => (l.drop (a.toNat % 64)).take n
  let held := (w.lines.find? fun l => l.1 == line).filter fun _ => Config.windowHit s.free
  match held with
  | some l => .ok (slice l.2, s.take)
  | none =>
    (s.take.homeRead (BitVec.ofNat 64 (64 * line)) 64).map fun (bs, s) =>
      let d := dieOf s.hart.pos
      let x := s.die d
      let lines := (line, bs) :: w.lines.filter fun l => l.1 != line
      (slice bs, s.setDie d { x with windows := Tab.put (α := Window) x.windows i { w with lines := lines } })

/-- A scalar load of `n` bytes apart from the device registers, after its alignment check: the bytes, or the cause (R86,
R87, R308). One in a read-only window reads line by line. -/
def State.scalarRead (s : State) (a : Word) (n : Nat) : Except (BitVec 10) (List Byte × State) :=
  match s.windowOf a with
  | none => s.homeRead a n
  | some (i, _) =>
    let pieces := ceilDiv (a.toNat % 64 + n) 64
    (List.range pieces).foldl (fun acc j => acc.bind fun (bs, s) =>
      let start := if j == 0 then a.toNat else (a.toNat / 64 + j) * 64
      let m := min (a.toNat + n) ((a.toNat / 64 + j + 1) * 64) - start
      match (s.die (dieOf s.hart.pos)).windows.find i with
      | some w => (s.windowLine i w (BitVec.ofNat 64 start) m).map fun (x, s) => (bs ++ x, s)
      | none => (s.homeRead (BitVec.ofNat 64 start) m).map fun (x, s) => (bs ++ x, s)) (.ok ([], s))

/-- The bytes of a scalar store to its own die's channels stay in the caches until they are written back (R83, R229,
R230). -/
def State.cached (s : State) (p : Place) : Bool :=
  p.die == dieOf s.hart.pos && match p.space with
    | .channel _ | .interleave => true
    | .scratch _ | .sram | .rows | .tcm | .regs | .ioSram | .host => false

/-- Bytes stored through the scalar path: a cached line becomes dirty, its home keeping the old bytes until a write-back
(R85, R230, R251). -/
def State.scalarStore (s : State) (p : Place) (bs : List Byte) : State :=
  if s.cached p then
    let x := s.die p.die
    let old := p.keys.filterMap fun k => if x.unwritten.any (fun c => c.1 == k) then none else some (k, s.byte k)
    let s := s.setDie p.die { x with unwritten := x.unwritten ++ old }
    { s with mem := (p.keys.zip bs).foldl (fun m c => memPut m c.1 c.2) s.mem, poison := clearPoison s.poison p.keys }
  else s.store p.keys bs

/-- The homes that a scalar read of `n` bytes reads; none in a read-only window, where a load may return older bytes (R248). -/
def State.readHomes (s : State) (a : Word) (n : Nat) : List Nat :=
  match s.windowOf a, s.check (s.scalarHow .load) a n with
  | none, .ok (p, _) => p.keys
  | _, _ => []

/-- A record read by a word: it traps with the failing cause, the record's address in `tval`, and waits for an outstanding
access of the hart that writes a byte of it (R251). -/
def readRecord (a : Word) (n : Nat) (s : State) (k : List Word → State → Res) : Res :=
  afterOwnNb .load (s.readHomes a n) s <|
    match s.scalarRead a n with
    | .error c => .next (s.trap c a)
    | .ok (bs, s) => k (bytesToWords (n / 8) bs) s

end Sys2Proof.Machine
end

