-- ==== Sys2Proof/Machine/Strips.lean ====
section
/-! DEFINITION. Operands that do not come from the registers they name: strips of bound streams (R246, R247) and queues
mapped by `qmap` (R275, R276); the registers that a non-blocking access holds back (R165); and the run of a vector word
over them. -/

namespace Sys2Proof.Machine

/-! ### Bound streams -/

/-- The type of a binding record. -/
def Binding.vtype (b : Binding) : VType := ⟨4 * 2 ^ b.ew.toNat, b.fmt.toNat, 2 ^ b.gf.toNat⟩

/-- The registers of a bound group. -/
def Binding.group (b : Binding) : List Nat := groupRegs b.reg b.vtype.gf
/-- The registers of a bound group and its companion. -/
def Binding.regs (b : Binding) : List Nat := groupAll b.reg b.vtype

/-- The active records, with their numbers. -/
def Hart.bindings (h : Hart) : List (Nat × Binding) :=
  (List.range 8).filterMap fun k => if hk : k < 8 then (h.b[k]).map fun b => (k, b) else none

/-- A byte of a PLANAR strip: a byte of codes, or a companion byte, by its place in its stream. -/
inductive PlanarByte where
  | code (j : Nat)
  | scale (j : Nat)
  deriving DecidableEq, Repr

/-- The bytes of a PLANAR strip of `n` positions, block by block: the codes of a block, then its companion bytes. -/
def planarBytes (t : VType) (n : Nat) : List PlanarByte :=
  let codes := ceilDiv (n * t.ew) 8
  (List.range (ceilDiv n 32)).flatMap fun k =>
    ((List.range (4 * t.ew)).filterMap fun j => if 4 * t.ew * k + j < codes then some (.code (4 * t.ew * k + j)) else none) ++
    (List.range (scaleBytes t.fmt)).map fun j => .scale (scaleBytes t.fmt * k + j)

/-- The item that reads a byte of a PLANAR strip: its block's first position (R154) and its address. -/
def Binding.planarItem (b : Binding) : PlanarByte → VItem
  | .code j => ⟨alignDown (j * 8 / b.vtype.ew) 32, [b.base + BitVec.ofNat 64 j]⟩
  | .scale j => ⟨j / scaleBytes b.vtype.fmt * 32, [b.sbase + BitVec.ofNat 64 j]⟩

/-- The items that a strip reads (R247): those of `vld`, or under PLANAR the bytes of codes and companions, one address
each. -/
def State.stripItems (s : State) (b : Binding) : List VItem :=
  let n := s.hart.vl.toNat
  if b.planar then (planarBytes b.vtype n).map b.planarItem
  else s.items b.vtype .unit b.base fun i => decide (i < n)

/-- Bytes of one address of a strip. -/
def Binding.runBytes (b : Binding) : Nat := if b.planar then 1 else b.vtype.fieldBytes

/-- Bytes that were read ahead at an address, if all were. -/
def aheadBytes (cells : List Host.Cell) (a : Word) (n : Nat) : Option (List Byte) :=
  (List.range n).foldr (fun j acc =>
    match acc, cells.find? (fun c => c.1 == (a + BitVec.ofNat 64 j).toNat) with
    | some bs, some c => some (c.2 :: bs)
    | _, _ => none) (some [])

/-- The bytes of one item of a strip: those read ahead, or memory after the checks of `vld`; none for a lost target. -/
def State.stripBytes (s : State) (b : Binding) (cells : List Host.Cell) (used : List TlbEntry) (x : VItem) :
    Except VFault (Option (List Byte) × List TlbEntry × State) :=
  let a := x.addrs.headD 0
  match aheadBytes cells a b.runBytes with
  | some bs => .ok (some bs, used, s)
  | none =>
    let how := { s.vectorHow .load x.pos with entries := used }
    match s.checkField how (b.planar || b.vtype.isBlock) a b.runBytes with
    | .error f => .error f
    | .ok (l, s) =>
      let s := s.recall (l.getD [])
      .ok (l.map s.bytes, s.usedEntry how a ++ used, s)

/-- An outstanding access of the hart still has to write a byte that a strip reads from memory (R251). -/
def State.stripBehind (s : State) (b : Binding) (cells : List Host.Cell) (items : List VItem) : Bool :=
  items.any fun x =>
    let a := x.addrs.headD 0
    (aheadBytes cells a b.runBytes).isNone && s.afterNb s.hart.nb .load
      (match s.checkField (s.vectorHow .load x.pos) (b.planar || b.vtype.isBlock) a b.runBytes with
      | .ok (l, _) => l.getD []
      | .error _ => [])

/-- The strip's bytes, item by item, up to the first fault. -/
def State.readStrip (s : State) (b : Binding) (cells : List Host.Cell) :
    List TlbEntry → List VItem → List (VItem × Option (List Byte)) × Option (VItem × VFault) × State
  | _, [] => ([], none, s)
  | used, x :: rest =>
    match s.stripBytes b cells used x with
    | .error f => ([], some (x, f), s)
    | .ok (bs, used, s) =>
      let (out, f, s) := s.readStrip b cells used rest
      ((x, bs) :: out, f, s)

/-- A byte of a PLANAR strip placed in the bound group or its companion. -/
def State.placePlanar (s : State) (b : Binding) (n v : Nat) : PlanarByte → State
  | .code j =>
    if b.vtype.ew == 4 && decide (n ≤ 2 * j + 1) then s.setElem b.reg 4 (2 * j) v else s.setElem b.reg 8 j v
  | .scale j => s.setElem (companion b.reg b.vtype) 8 j v

/-- The strip's bytes placed in the bound group in place of its registers (R247). -/
def State.placeStrip (s : State) (b : Binding) (items : List (VItem × Option (List Byte))) : State :=
  let t := b.vtype
  let n := s.hart.vl.toNat
  let bytesOf := fun (bs : Option (List Byte)) => bs.getD (List.replicate b.runBytes 0xFF)
  if b.planar then
    (items.zip (planarBytes t n)).foldl (fun s ((_, bs), k) => s.placePlanar b n (bytesToNat (bytesOf bs)) k) s
  else
    items.foldl (fun s (x, bs) =>
      if t.isBlock then
        { s with hart := s.hart.putBlock t b.reg (x.pos / 32) (fun i => decide (i < n)) (bytesOf bs) }
      else
        let v := bytesToNat (bytesOf bs)
        s.setElem b.reg t.ew x.pos (if t.ew == 4 then v / 2 ^ (4 * (x.pos % 2)) else v)) s

/-- Positions of a strip whose target was lost: those of a lost byte of codes, a whole block for a lost image or companion
byte. -/
def lostOf (b : Binding) (n : Nat) (items : List (VItem × Option (List Byte))) : List Nat :=
  let t := b.vtype
  if b.planar then
    ((items.zip (planarBytes t n)).filter fun x => x.1.2.isNone).flatMap fun x => match x.2 with
      | .code j => (List.range (8 / t.ew)).map (j * 8 / t.ew + ·)
      | .scale _ => (List.range 32).map (x.1.1.pos + ·)
  else
    (items.filter fun x => x.2.isNone).flatMap fun x => (List.range t.step).map (x.1.pos + ·)

/-- A record that a retired word consumed advances (R247). -/
def Binding.advance (b : Binding) : Binding :=
  { b with base := b.base + b.stride, sbase := b.sbase + b.sstride.signExtend 64, count := b.count - 1,
           ahead := b.ahead.drop 1 }

/-- A record stored. -/
def State.setBinding (s : State) (k : Nat) (b : Option Binding) : State :=
  if h : k < 8 then { s with hart := { s.hart with b := s.hart.b.set k b } } else s

/-- Registers given back the values they had in another state. -/
def State.restoreRegs (s : State) (from_ : State) (rs : List Nat) : State :=
  rs.foldl (fun s r => s.setV (BitVec.ofNat 5 r) (from_.getV (BitVec.ofNat 5 r))) s

/-! ### Queues mapped onto registers -/

/-- ENk of `qmap`. -/
def Hart.mapped (h : Hart) (k : Nat) : Bool := h.qmap.getLsbD (8 * k + 7)
/-- VRk of `qmap`. -/
def Hart.mappedReg (h : Hart) (k : Nat) : Nat := (h.qmap.toNat >>> (8 * k)) % 32

/-- The vector queue `q[k]`. -/
def Hart.vqueue (h : Hart) (k : Nat) : List VecReg := if hk : k < 4 then h.vq[k] else []
/-- That queue stored. -/
def Hart.setVqueue (h : Hart) (k : Nat) (x : List VecReg) : Hart := if hk : k < 4 then { h with vq := h.vq.set k x } else h

/-! ### Registers held back by non-blocking accesses (R165) -/

/-- A word that reads and writes these registers waits for an outstanding non-blocking access. -/
def Hart.heldBack (h : Hart) (reads writes : List Nat) : Bool :=
  h.nb.any fun x => overlaps x.noTouch (reads ++ writes) || overlaps x.noWrite writes

/-! ### Running a vector word -/

/-- What a word took in place of registers: queues, bound records with the positions they lost, and the registers to
give back. -/
structure Taken where
  queues  : List Nat := []
  records : List (Nat × List Nat) := []
  regs    : List Nat := []
  deriving DecidableEq, Repr

/-- After the word: the registers come back; if it retired, entries leave their queues and records advance; if it did
not, strips read ahead are read again (R247, R276). -/
def State.settle (s : State) (before : State) (tk : Taken) (retired : Bool) : State :=
  let s := s.restoreRegs before tk.regs
  if retired then
    let s := tk.queues.foldl (fun s k => { s with hart := s.hart.setVqueue k ((s.hart.vqueue k).drop 1) }) s
    tk.records.foldl (fun s (k, lost) =>
      let s := lost.foldl (fun s i => if i < before.hart.vl.toNat then s.setRerr i false else s) s
      match (s.hart.b[k]?).join with
      | some b => s.setBinding k (some b.advance)
      | none => s) s
  else
    tk.records.foldl (fun s (k, _) => match (s.hart.b[k]?).join with
      | some b => s.setBinding k (some { b with ahead := [] })
      | none => s) s

/-- A word whose body has ended: it retires with `vix` at 0, or stays at its resumable position. -/
def finish (before : State) (tk : Taken) : Ended → Res
  | .retire s => .next (s.settle before tk true).retireV
  | .stop s => .next (s.settle before tk false)

/-- The strips of the bound records that a word reads are put in place of their registers, one record after another; a
fault at position k lets a resumable word do its positions below k first, when the strip is remote (R158, R247). A word
that reads a source across positions (`vsldn`, `vperm`, `xlm`) then reads the register's own bits at and above k, and the
positions below k count as done: R158 and R247 do not say (log entry 39). -/
def runStrips (resumes : Bool) (before : State) (body : Taken → State → Ended) : List (Nat × Binding) → Taken → State → Res
  | [], tk, s => finish before tk (body tk s)
  | (k, b) :: rest, tk, s =>
    trapIf (b.fmt != before.hart.vty.extractLsb' 6 4 || b.ew != before.hart.vty.extractLsb' 3 3 ||
      b.gf != before.hart.vty.extractLsb' 10 2) 0x052 (BitVec.ofNat 64 k) before <|
    trapIf (b.count == 0) 0x050 (BitVec.ofNat 64 k) before <|
    let items := s.stripItems b
    let (out, fault, s') := s.readStrip b (b.ahead.headD []) [] items
    if s.stripBehind b (b.ahead.headD []) items then .next (before.wait .interlock)
    else match fault with
    | none =>
      runStrips resumes before body rest
        { tk with records := tk.records ++ [(k, lostOf b s.hart.vl.toNat out)], regs := tk.regs ++ b.regs } (s'.placeStrip b out)
    | some (x, f) =>
      if resumes && items.any s.remote && decide (s.hart.vix.toNat < x.pos) then
        let tk := { tk with records := tk.records ++ [(k, lostOf b s.hart.vl.toNat out)], regs := tk.regs ++ b.regs }
        match body tk { (s'.placeStrip b out) with stop := some x.pos } with
        | .retire t | .stop t => .next ((t.settle before tk false).trap f.cause f.addr)
      else .next (({ s' with hart := before.hart }).trap f.cause f.addr)

/-- Entries of the mapped queues that a word reads are put in place of their registers; an empty one makes it wait. -/
def runQueues (resumes : Bool) (before : State) (bound : List (Nat × Binding)) (body : Taken → State → Ended) :
    List Nat → Taken → State → Res
  | [], tk, s => runStrips resumes before body bound tk s
  | k :: rest, tk, s =>
    match s.hart.vqueue k with
    | [] => .next (before.wait (.queuePop (BitVec.ofNat 3 k)))
    | x :: _ =>
      runQueues resumes before bound body rest
        { tk with queues := tk.queues ++ [k], regs := tk.regs ++ [s.hart.mappedReg k] }
        (s.setV (BitVec.ofNat 5 (s.hart.mappedReg k)) x)

/-- A vector word that has passed its own checks runs, with a body that is told what was taken: the checks of bound and mapped registers (0x04F, 0x056, 0x044),
the wait for non-blocking accesses, the operands from streams and queues, the body, and retirement. `reads` and `writes`
are its registers; `resumes` says that it can stop at a position. -/
def runWordTaking (word : BitVec 32) (resumes : Bool) (reads writes : List Nat) (s : State)
    (body : Taken → State → Ended) : Res :=
  let h := s.hart
  let bound := h.bindings
  let queues := (List.range 4).filter fun k => h.mapped k && reads.contains (h.mappedReg k)
  let w := wordVal word
  trapIf (bound.any fun b => overlaps b.2.regs writes) 0x04F w s <|
  trapIf ((List.range 4).any (fun k => h.mapped k && writes.contains (h.mappedReg k)) ||
    queues.any (fun k => bound.any (fun b => b.2.regs.contains (h.mappedReg k)) ||
      (List.range 4).any fun j => j != k && h.mapped j && h.mappedReg j == h.mappedReg k)) 0x056 w s <|
  trapIf (!queues.isEmpty && s.vtype.gf != 1) 0x044 w s <|
  if h.heldBack reads writes then .next (s.wait .interlock)
  else runQueues resumes s (bound.filter fun b => overlaps b.2.group reads) body queues {} s

/-- A vector word that has passed its own checks runs. -/
def runWord (word : BitVec 32) (resumes : Bool) (reads writes : List Nat) (s : State) (body : State → Ended) : Res :=
  runWordTaking word resumes reads writes s fun _ => body

end Sys2Proof.Machine
end

