-- ==== Sys2Proof/Machine/Bind.lean ====
section
/-! DEFINITION. Stream binding: `bind`, `unbind`, `bndq`, and the reading ahead of strips (R245 to R247). -/

namespace Sys2Proof.Machine

/-- A binding descriptor is malformed (R245). -/
def descMalformed (w : List Word) : Bool :=
  let w3 := wordAt w 3
  bits w3 9 7 != 0 || bits w3 4 4 != 0 || bits w3 40 24 == 0 ||
    (bit w3 8 && decide (bits w3 0 4 < 8)) || (!bit w3 8 && (wordAt w 2 != 0 || bits w3 16 24 != 0))

/-- `bind` (R246). -/
def execBind (d : BitVec 3) (a : VReg) (b : SReg) (s : State) : Res :=
  let t := s.vtype
  let r := s.getS b
  let n : Word := d.setWidth 64
  lateTests { word := encVec 0x1E (d.setWidth 5) a b 31 0x00, groups := [(a, t.gf)]
              companions := if t.isBlock then [a.toNat + t.gf] else [] } s <|
  trapIf ((s.hart.b.get d.toFin).isSome || s.hart.bindings.any fun x => overlaps (groupAll a t) x.2.regs) 0x053 n s <|
  trapIf (bits r 0 5 != 0) 0x086 r s <|
  readRecord r 32 s fun w s =>
  let w3 := wordAt w 3
  trapIf (descMalformed w) 0x051 r s <|
  trapIf (bits w3 0 4 != t.fmt) 0x052 n s <|
    .next (s.setBinding d.toNat (some
      { reg := a, gf := s.hart.vty.extractLsb' 10 2, fmt := s.hart.vty.extractLsb' 6 4, ew := s.hart.vty.extractLsb' 3 3
        base := wordAt w 0, stride := wordAt w 1, sbase := wordAt w 2, sstride := w3.extractLsb' 16 24
        count := w3.extractLsb' 40 24, planar := bit w3 8, dfmt := w3.extractLsb' 0 4, ahead := [] })).retireV

/-- A register that is dead: its value from before, or zeros, a free choice (R26, R246). -/
def State.deadReg (s : State) (r : Nat) : State :=
  if Config.deadKeeps s.free then s.take else s.take.setV (BitVec.ofNat 5 r) 0

/-- `unbind` (R246). -/
def execUnbind (d : BitVec 3) (s : State) : Res :=
  lateTests { word := encVec 0x1E (d.setWidth 5) 0 0 31 0x01 } s <|
    match s.hart.b.get d.toFin with
    | none => .next s.retireV
    | some b => .next ((b.regs.foldl State.deadReg s).setBinding d.toNat none).retireV

/-- `bndq` (R246). -/
def execBndq (d : SReg) (a : BitVec 3) (s : State) : Res :=
  lateTests { word := encVec 0x1E d (a.setWidth 5) 0 31 0x02 } s <|
    let x : Word := match s.hart.b.get a.toFin with
      | some b => 1 <<< 63 ||| place b.reg.toNat 32 ||| b.count.setWidth 64
      | none => 0
    .next (s.setS d x).retireV

/-- The bytes of a strip that can be read now, with their addresses. -/
def State.aheadCells (s : State) (b : Binding) : List TlbEntry → List VItem → List Host.Cell × State
  | _, [] => ([], s)
  | used, x :: rest =>
    match s.stripBytes b [] used x with
    | .ok (some bs, used, s) =>
      let a := x.addrs.headD 0
      let (out, s) := s.aheadCells b used rest
      ((List.range bs.length).map (fun j => ((a + BitVec.ofNat 64 j).toNat, bs.getD j 0)) ++ out, s)
    | .ok (none, used, s) => s.aheadCells b used rest
    | .error _ => s.aheadCells b used rest

/-- STRIP_READ_AHEAD (R247): one more strip of a bound record is read, up to four ahead. -/
def execStripReadAhead (h : HartId) (k : BitVec 3) (s : State) : Res :=
  match (s.hartAt h).b.get k.toFin with
  | none => .next s
  | some b =>
    if 4 ≤ b.ahead.length ∨ b.count.toNat ≤ b.ahead.length then .next s
    else .next <| s.onHart h fun s =>
      let there := forUpTo b.ahead.length (fun _ x => x.advance) b
      let (cells, t) := s.aheadCells b [] (s.stripItems there)
      if s.stripBehind b [] (s.stripItems there) then s else t.setBinding k.toNat (some { b with ahead := b.ahead ++ [cells] })

end Sys2Proof.Machine
end

