-- ==== Sys2Proof/Machine/Block.lean ====
section
/-! DEFINITION. Block formats: decoding of MX and OX4 elements, and the encoding of a block (R36 to R41, R148, R149). -/

namespace Sys2Proof.Machine

/-- A number scaled by an E8M0 byte; 0xFF makes every element a quiet NaN (R37). -/
def scaled (scale : Nat) (x : FpNum) : FpNum :=
  if scale == 0xFF then .nan false
  else match x with
    | .nan _ => .nan false
    | .inf n => .inf n
    | .fin n m e => .fin n m (e + scale - 127)

/-- The element format of MXFP8, MXFP6 and MXFP4 (R36). -/
def mxElement (fmt : Nat) : FpFormat := if fmt == 8 then e4m3 else if fmt == 9 then e2m3 else e2m1

/-- A small two's complement code as a number (R40). -/
def nibbleNum (c : Nat) : FpNum := let i := (BitVec.ofNat 4 c).toInt; .fin (decide (i < 0)) i.natAbs 0

/-- The codes of a pair under OX4: the numbers of both slots, and the markers found so far (R41). -/
def oxPair (ext found x y : Nat) : FpNum × FpNum × Nat :=
  let nib := if found == 0 then ext % 16 else ext / 16 % 16
  let zero : FpNum := .fin false 0 0
  let plain := fun c => if c == 8 then zero else nibbleNum c
  if x == 8 then
    if found < 2 then (e4m3.decode (nib * 16 + y), zero, found + 1) else (zero, plain y, found + 1)
  else if y == 8 then
    if found < 2 then (zero, e4m3.decode (nib * 16 + x), found + 1) else (plain x, zero, found + 1)
  else (nibbleNum x, nibbleNum y, found)

/-- The numbers of the pairs of an OX4 block, unscaled (R41). -/
def oxPairs (ext : Nat) : Nat → List Nat → List FpNum
  | found, x :: y :: rest => let r := oxPair ext found x y; r.1 :: r.2.1 :: oxPairs ext r.2.2 rest
  | _, _ => []

/-- The 32 numbers of a block from its codes, scale and extension byte (R37, R40, R41). -/
def decodeBlock (fmt scale ext : Nat) (codes : List Nat) : List FpNum :=
  if fmt == 11 then (oxPairs ext 0 codes).map (scaled scale)
  else codes.map fun c => scaled scale ((mxElement fmt).decode c)

/-- The numbers of block `b` of a register group. -/
def Hart.blockNums (h : Hart) (t : VType) (r : BitVec 5) (b : Nat) : List FpNum :=
  let n := scaleBytes t.fmt
  let c := companion r t
  decodeBlock t.fmt (h.elem c 8 (n * b)) (if n == 2 then h.elem c 8 (n * b + 1) else 0)
    ((List.range 32).map fun k => let x := h.elem r t.ew (32 * b + k); if t.fmt == 9 then x % 64 else x)

/-- An encoded block: codes, scale, extension byte, flags. -/
structure BlockCode where
  codes : List Nat
  scale : Nat
  ext   : Nat := 0
  flags : Flags
  deriving DecidableEq, Repr

/-- Magnitude order. -/
def FpNum.absLt (a b : FpNum) : Bool :=
  let abs := fun (x : FpNum) => if x.isNeg then x.neg else x
  decide ((abs a).cmp (abs b) < 0)

/-- NaN or infinite. -/
def FpNum.nonFinite : FpNum → Bool
  | .nan _ | .inf _ => true
  | .fin _ _ _ => false

/-- Two numbers have one value; any NaN is the same. -/
def FpNum.same (a b : FpNum) : Bool :=
  match a, b with
  | .nan _, .nan _ => true
  | .nan _, _ | _, .nan _ => false
  | _, _ => a.cmp b == 0

/-- Some active element decodes to another value than its source (R148, R149). -/
def differs (xs : List (Option FpNum)) (ys : List FpNum) : Bool :=
  (xs.zip ys).any fun (x, y) => match x with
    | some a => !a.same y
    | none => false

/-- The block that an active NaN or infinity gives, if there is one (R148, R149): NaN scale, codes 0, NV for a
signalling NaN or an infinity. -/
def nanBlock (xs : List (Option FpNum)) : Option BlockCode :=
  if xs.any fun x => x.any FpNum.nonFinite then
    some { codes := List.replicate 32 0, scale := 0xFF
           flags := { nv := xs.any fun x => x.any fun a => a.isSignalling || a.nonFinite && !a.isNan
                      nx := xs.any fun x => x.any fun a => !a.isNan } }
  else none

/-- ⌊log2⌋ of a finite non-zero magnitude. -/
def FpNum.log2 : FpNum → Int
  | .fin _ m e => e + m.log2
  | .nan _ | .inf _ => 0

/-- The element that is zero. -/
def FpNum.isZero : FpNum → Bool
  | .fin _ m _ => m == 0
  | .nan _ | .inf _ => false

/-- A number divided by 2^x. -/
def FpNum.shift (a : FpNum) (x : Int) : FpNum :=
  match a with
  | .fin n m e => .fin n m (e - x)
  | .nan _ | .inf _ => a

/-- The greatest of a list of integers and a bound. -/
def maxOf (lo : Int) (xs : List Int) : Int := xs.foldl max lo

/-- A block of MXFP8, MXFP6 or MXFP4 (R148): `none` marks an inactive position. -/
def encodeMx (fmt : Nat) (rm : Rounding) (xs : List (Option FpNum)) : BlockCode :=
  match nanBlock xs with
  | some b => b
  | none =>
    let f := mxElement fmt
    let emax : Int := if fmt == 8 then 8 else 2
    let logs := (xs.filterMap id).filter (fun a => !a.isZero)
    let x := maxOf (-127) (logs.map fun a => a.log2 - emax)
    let codes := xs.map fun o => match o with
      | some a => (f.round rm { num := a.shift x }).1
      | none => 0
    { codes := codes, scale := (x + 127).toNat
      flags := { nx := differs xs (decodeBlock fmt (x + 127).toNat 0 codes) } }

/-- The least integer x with |a| ≤ k × 2^x, for finite non-zero a (R149). -/
def leastScale (k : Nat) : FpNum → Int
  | .fin _ m e =>
    let t : Int := (m.log2 : Int) - k.log2 - 1
    let fits := fun (t : Int) => atLeast k t m 0
    e + (if fits t then t else if fits (t + 1) then t + 1 else t + 2)
  | .nan _ | .inf _ => -127

/-- The active position of largest magnitude apart from one, the lower index on ties (R149). -/
def largest (xs : List (Option FpNum)) (apart : Option Nat) : Option Nat :=
  (List.range xs.length).foldl (fun best i =>
    match xs[i]?.join with
    | none => best
    | some a =>
      if apart == some i then best
      else match best with
        | none => some i
        | some j => match xs[j]?.join with
          | some b => if b.absLt a then some i else best
          | none => some i) none

/-- A block of OX4 (R149). A position that is not active beside an outlier holds the outlier's nibble, as R149 writes it,
against the code 0 of R150 (log entry 39). -/
def encodeOx (rm : Rounding) (xs : List (Option FpNum)) : BlockCode :=
  match nanBlock xs with
  | some b => b
  | none =>
    let c0 := largest xs none
    let c1 := if c0.isSome then largest xs c0 else none
    let nums : List (Nat × FpNum) := (List.range 32).filterMap fun i => (xs[i]?.join).map fun a => (i, a)
    let rest := nums.filter fun x => some x.1 != c0 && some x.1 != c1 && !x.2.isZero
    let top := nums.filter fun x => some x.1 == c0 && !x.2.isZero
    let x := maxOf (-127) ((rest.map fun a => leastScale 7 a.2) ++ top.map fun a => leastScale 448 a.2)
    let above : List (Nat × FpNum) := nums.filter fun a => (some a.1 == c0 || some a.1 == c1) &&
      decide (0 < (if a.2.isNeg then a.2.neg else a.2).cmp (.fin false 7 x))
    let out : List (Nat × FpNum) := match above with
      | [a, b] => if a.1 / 2 == b.1 / 2 then above.filter (fun a => some a.1 == c0) else above
      | _ => above
    let es : List (Nat × Nat) := out.map fun (k, a) =>
      let e := (e4m3.round rm { num := a.shift x }).1
      (k, if k % 2 == 1 && e % 16 == 8 then e - 1 else e)
    let codes := (List.range 32).map fun i =>
      if es.any (fun e => e.1 == i) then 8
      else match es.find? fun e => e.1 == Nat.xor i 1 with
        | some e => e.2 % 16
        | none => match xs[i]?.join with
          | some a => match a.shift x with
            | .fin n m e => (BitVec.ofInt 4 (roundInt rm n m e).1).toNat
            | .nan _ | .inf _ => 0
          | none => 0
    let nib := fun j => match es[j]? with
      | some e => e.2 / 16
      | none => 0
    let ext := nib 0 + 16 * nib 1
    { codes := codes, scale := (x + 127).toNat, ext := ext
      flags := { nx := differs xs (decodeBlock 11 (x + 127).toNat ext codes) } }

end Sys2Proof.Machine
end

