-- ==== Sys2Proof/Machine/Matrix.lean ====
section
/-! DEFINITION. The matrix unit: slots, tiles, `settl`, `tld`, `mma`, `accx` (R45 to R48, R169 to R180). -/

namespace Sys2Proof.Machine

/-! ### Wide entries (R45 to R48) -/

/-- A number rounded to the wide format: nearest, ties to even, on 96 bits (R46). The flag is OF. -/
def roundWide (x : FpNum) : AccEntry × Bool :=
  match x with
  | .nan _ => ({ cls := .nan }, false)
  | .inf neg => ({ cls := .inf, sign := neg }, false)
  | .fin neg m e =>
    if m == 0 then ({ sign := neg }, false)
    else
      let q := max (e + m.log2 - 95) (-32862)
      let (k, _) := roundAt .nearestEven neg m e q false
      let (k, q) := if k == 2 ^ 96 then (2 ^ 95, q + 1) else (k, q)
      if k == 0 then ({ sign := neg }, false)
      else if 32767 < q + 95 then ({ cls := .inf, sign := neg }, true)
      else ({ sign := neg, m := BitVec.ofNat 96 k, e := q + 95 }, false)

/-- The number an entry holds (R45). -/
def AccEntry.num (a : AccEntry) : FpNum :=
  match a.cls with
  | .finite => .fin a.sign a.m.toNat (a.e - 95)
  | .inf => .inf a.sign
  | .nan => .nan false

/-- The canonical image of an entry, 128 bits (R47). -/
def AccEntry.image (a : AccEntry) : BitVec 128 :=
  let cls : BitVec 2 := match a.cls with
    | .finite => 0 | .inf => 1 | .nan => 2
  0#13 ++ cls ++ BitVec.ofBool a.sign ++ BitVec.ofInt 16 a.e ++ a.m

/-- The entry that an image restores; none where it is malformed (R48). An infinity or NaN image with E = −32,768 is taken as
malformed, as item 2 says of any image, against item 3 (log entry 39). -/
def entryOfImage (x : BitVec 128) : Option AccEntry :=
  let cls := (x.extractLsb' 113 2).toNat
  let neg := x.getLsbD 112
  let e := (x.extractLsb' 96 16).toInt
  let m := (x.extractLsb' 0 96).toNat
  if x.extractLsb' 115 13 != 0 || cls == 3 || e == -32768 then none
  else if cls == 1 then some { cls := .inf, sign := neg }
  else if cls == 2 then some { cls := .nan }
  else
    match roundWide (.fin neg m (e - 95)) with
    | (y, ovf) => if ovf then none else some y

/-! ### Slots and tiles -/

/-- A slot of a core. -/
def Core.slot (c : Core) (n : BitVec 4) : Slot := c.slots.get n.toFin
/-- A slot stored. -/
def Core.setSlot (c : Core) (n : BitVec 4) (x : Slot) : Core := { c with slots := c.slots.set n.toFin x }
/-- A tile of a core. -/
def Core.tile (c : Core) (n : BitVec 3) : Tile := c.tiles.get n.toFin
/-- A tile stored. -/
def Core.setTile (c : Core) (n : BitVec 3) (x : Tile) : Core := { c with tiles := c.tiles.set n.toFin x }

/-- An entry of a tile. -/
def Tile.entry (t : Tile) (e : Nat) : AccEntry := t.entries.getD e {}
/-- An entry of a tile stored; +0 is not listed. -/
def Tile.setEntry (t : Tile) (e : Nat) (x : AccEntry) : Tile :=
  { t with entries := if x = {} then t.entries.drop e else t.entries.put e x }

/-- Slot and tile quotas of the current hart (R190). -/
def State.quota (s : State) (lo n : Nat) : Nat :=
  match s.team s.hart.team with
  | some t => t.ctl lo n
  | none => 0

/-- Number of a slot, tile or link as `tval` holds it. -/
def numVal {w : Nat} (n : BitVec w) : Word := n.setWidth 64

/-- `omcl` (R170). -/
def execOmcl (b : BitVec 4) (s : State) : Res :=
  let c := s.myCore
  let x := c.slot b
  let me := s.hart.pos
  lateTests { word := encVec 0x1F 0 0 (b.setWidth 5) 31 0x00 } s <|
    if x.own == some me then .next s.retireV else
    trapIf x.own.isSome 0x242 (numVal b) s <|
    trapIf (decide (s.quota 4 5 ≤ c.slots.toList.countP fun y => y.own == some me)) 0x243 (numVal b) s <|
      if x.clearing then .next (s.wait (.slot b))
      else .next (s.setMyCore (c.setSlot b { x with own := some me })).retireV

/-- `omrl` (R170). -/
def execOmrl (b : BitVec 4) (s : State) : Res :=
  let c := s.myCore
  lateTests { word := encVec 0x1F 0 0 (b.setWidth 5) 31 0x01 } s <|
  trapIf ((c.slot b).own != some s.hart.pos) 0x241 (numVal b) s <|
    .next (s.setMyCore ((c.loosen s.hart.pos (· == b.toNat)).setSlot b { clearing := true })).retireV

/-- SLOT_CLEAR_COMPLETE (R170): the clearing of a released slot ends. -/
def execSlotClearComplete (core : CoreId) (n : BitVec 4) (s : State) : Res :=
  let c := s.core core
  .next (s.setCore core (c.setSlot n { c.slot n with clearing := false }))

/-- TILE_CLEAR_COMPLETE (R171): the clearing of a released tile ends. -/
def execTileClearComplete (core : CoreId) (n : BitVec 3) (s : State) : Res :=
  let c := s.core core
  .next (s.setCore core (c.setTile n { c.tile n with clearing := false }))

/-- `accz` (R171). -/
def execAccz (d : BitVec 3) (s : State) : Res :=
  let c := s.myCore
  let x := c.tile d
  let me := s.hart.pos
  lateTests { word := encVec 0x1F (d.setWidth 5) 0 0 31 0x06 } s <|
  trapIf (x.own.isSome && x.own != some me) 0x245 (numVal d) s <|
  trapIf (x.own.isNone && decide (s.quota 9 4 ≤ c.tiles.toList.countP fun y => y.own == some me)) 0x246 (numVal d) s <|
    if x.clearing then .next (s.wait (.tile d))
    else .next (s.setMyCore (c.setTile d { own := some me })).retireV

/-! ### Formats and shapes (R172 to R174) -/

/-- K-group and slot capacity in rows of a format that the matrix words admit (R172). -/
def VType.matrix (t : VType) : Option (Nat × Nat) :=
  match t.fmt, t.ew with
  | 0, 8 | 1, 8 | 6, 8 | 7, 8 | 8, 8 | 9, 8 => some (8, 256)
  | 10, 4 | 11, 4 => some (16, 512)
  | 4, 16 | 5, 16 => some (4, 128)
  | _, _ => none

/-- M = GF × 2^TS (R173). -/
def State.rowsOfA (s : State) : Nat := s.vtype.gf * 2 ^ bits s.hart.vty 12 3

/-- `settl` (R174): it changes no CSR, `vix` among them. -/
def execSettl (d a : SReg) (s : State) : Res :=
  let t := s.vtype
  let word := encReg 0x13 d a 0 0x002
  let (m, n, k) := (s.getS a, s.getS (a + 1), s.getS (a + 2))
  lateTests { word := word, admits := t.matrix.isSome } s <|
  trapIf (decide (32 < s.rowsOfA)) 0x04B (wordVal word) s <|
    let kc := min (t.vlmax / s.rowsOfA) (t.matrix.getD (8, 0)).2
    let k' := min k.toNat kc
    let k' := if t.isBlock then alignUp k' 32 else k'
    let s := s.setS d (BitVec.ofNat 64 (min m.toNat s.rowsOfA))
    let s := s.setS (d + 1) (BitVec.ofNat 64 (min n.toNat 64))
    .next (s.setS (d + 2) (BitVec.ofNat 64 k')).advance

/-! ### Filling a slot (R175) -/

/-- A code of a slot at a row and column (R169). -/
def Slot.code (x : Slot) (ew row col : Nat) : Nat :=
  let o := (64 * row + col) * ew
  let v := bytesToNat ((List.range (ceilDiv ew 8)).map fun j => memGet x.codes (o / 8 + j))
  v / 2 ^ (o % 8) % 2 ^ ew

/-- A code of a slot stored. -/
def Slot.setCode (x : Slot) (ew row col v : Nat) : Slot :=
  let o := (64 * row + col) * ew
  if ew == 4 then
    let old := (memGet x.codes (o / 8)).toNat
    let new := if o % 8 == 0 then old / 16 * 16 + v % 16 else old % 16 + 16 * (v % 16)
    { x with codes := memPut x.codes (o / 8) (BitVec.ofNat 8 new) }
  else
    let put := fun m (c : Byte × Nat) => memPut m (o / 8 + c.2) c.1
    { x with codes := ((natToBytes (ew / 8) v).zip (List.range (ew / 8))).foldl put x.codes }

/-- The companion bytes of block `j` of a group stored in the side store (R169). -/
def Slot.setSide (x : Slot) (kb col : Nat) (bs : List Byte) : Slot :=
  let put := fun m (c : Byte × Nat) => memPut m (2 * (64 * kb + col) + c.2) c.1
  { x with side := (bs.zip (List.range bs.length)).foldl put x.side }

/-- One position of `tld` (R175). -/
def tldStep (t : VType) (a : VReg) (kl k0 c0 : Nat) (h : Hart) (i : Nat) (x : Slot) : Slot :=
  let row := k0 + i % kl
  let col := c0 + i / kl
  let v := h.elem a t.ew i
  let x := x.setCode t.ew row col (if t.fmt == 9 then v % 64 else v)
  if t.isBlock && i % 32 == 0 then
    let n := scaleBytes t.fmt
    x.setSide (row / 32) col ((List.range n).map fun j => BitVec.ofNat 8 (h.elem (companion a t) 8 (n * (i / 32) + j)))
  else x

/-- `tld` (R175). A fill waits while a copy into the slot is outstanding (R284). A `vl` above VLMAX (0x047) is reported before
what its pseudocode checks (log entry 39). -/
def execTld (d : SReg) (a : VReg) (b : BitVec 4) (s : State) : Res :=
  let t := s.vtype
  let word := encVec 0x1F d a (b.setWidth 5) 31 0x02
  let ctl := s.getS d
  let x := s.myCore.slot b
  let (g, cap) := t.matrix.getD (0, 0)
  let fin := bit ctl 24
  let c0 := bits ctl 18 6
  let kl := bits ctl 9 9 + 1
  let k0 := bits ctl 0 9
  let vl := s.hart.vl.toNat
  let cols := vl / kl
  lateTests { word := word, groups := [(a, t.gf)], companions := if t.isBlock then [a.toNat + t.gf] else []
              admits := decide (0 < g) } s <|
  lengthTest s <|
  trapIf (bits ctl 25 39 != 0) 0x24C ctl s <|
  trapIf (x.own != some s.hart.pos) 0x241 (numVal b) s <|
  if 0 < x.copies then .next (s.wait (.slot b)) else
  let same := x.fmt == s.hart.vty.extractLsb' 6 4 && x.ew == s.hart.vty.extractLsb' 3 3
  trapIf (x.st == .filling && !same) 0x248 (numVal b) s <|
  trapIf (vl % kl != 0 || decide (cap < k0 + kl) || decide (64 < c0 + cols) ||
    (t.isBlock && (k0 % 32 != 0 || kl % 32 != 0)) || (fin && c0 + cols == 0)) 0x249 ctl s <|
    runWord word true (groupAll a t) [] s fun s =>
      let c := s.myCore
      let x := c.slot b
      let x := if x.st == .filling then x
        else { x with st := .filling, fmt := s.hart.vty.extractLsb' 6 4, ew := s.hart.vty.extractLsb' 3 3 }
      let n := s.upto
      let x := forFrom s.hart.vix.toNat n (tldStep t a kl k0 c0 s.hart) x
      let x := if fin && decide (vl ≤ n) then { x with kr := k0 + kl, n := c0 + cols, kc := 0, st := .ready } else x
      (s.setMyCore (c.setSlot b x)).endAt n

/-! ### Multiply-accumulate (R46, R176) -/

/-- The value of an element that is no block code. -/
def plainNum (fmt ew x : Nat) : FpNum :=
  if fmt ≤ 1 then
    let i : Int := if fmt == 0 then (BitVec.ofNat ew x).toInt else x
    .fin (decide (i < 0)) i.natAbs 0
  else (fpOf fmt).decode x

/-- A run of codes as numbers, with the companion bytes of each block (R37 to R41). -/
def decodeRun (t : VType) (scale ext : Nat → Nat) (codes : List Nat) : List FpNum :=
  if t.isBlock then
    (List.range (codes.length / 32)).flatMap fun j =>
      decodeBlock t.fmt (scale j) (ext j) ((codes.drop (32 * j)).take 32)
  else codes.map (plainNum t.fmt t.ew)

/-- The exact sum of finite numbers, as a signed significand at an exponent. -/
def sumExact : List FpNum → Int × Int
  | [] => (0, 0)
  | .fin neg m e :: rest =>
    let (v, q) := sumExact rest
    let v' : Int := if neg then -(m : Int) else m
    if m == 0 then (v, q)
    else if v == 0 then (v', e)
    else if e ≤ q then (v * 2 ^ (q - e).toNat + v', e) else (v + v' * 2 ^ (e - q).toNat, q)
  | .nan _ :: rest | .inf _ :: rest => sumExact rest

/-- The sum of one K-group (R46): the number, and whether NV is raised. -/
def groupSum (xs : List (FpNum × FpNum)) : FpNum × Bool :=
  let ps := xs.map fun (a, b) => FpNum.mul a b
  let infs := ps.filterMap fun p => match p.num with
    | .inf neg => some neg
    | .nan _ | .fin _ _ _ => none
  let clash := infs.contains true && infs.contains false
  let nv := clash || ps.any fun p => p.flags.nv
  if clash || ps.any (fun p => p.num.isNan) then (.nan false, nv)
  else match infs with
    | neg :: _ => (.inf neg, nv)
    | [] =>
      let (v, e) := sumExact (ps.map fun p => p.num)
      (.fin (decide (v < 0)) v.natAbs e, nv)

/-- One K-group added to an entry (R46): the entry, and the flags NV and OF. -/
def addGroup (x : AccEntry × Flags) (g : List (FpNum × FpNum)) : AccEntry × Flags :=
  let (t, nv) := groupSum g
  let r := x.1.num.add .nearestEven t
  let (y, ovf) := roundWide r.num
  (y, x.2.or { nv := nv || r.flags.nv, of := ovf })

/-- A list cut into runs of `g`, at most `n` of them. -/
def chunks {α : Type} (g : Nat) : Nat → List α → List (List α)
  | 0, _ => []
  | _, [] => []
  | n + 1, xs => xs.take g :: chunks g n (xs.drop g)

/-- Row `i` of A, of `k` columns (R173). -/
def rowOfA (t : VType) (a : VReg) (h : Hart) (i k : Nat) : List FpNum :=
  let n := scaleBytes t.fmt
  let at_ := fun j o => h.elem (companion a t) 8 (n * ((i * k) / 32 + j) + o)
  decodeRun t (fun j => at_ j 0) (fun j => at_ j 1) ((List.range k).map fun c => h.elem a t.ew (i * k + c))

/-- Column `j` of B, `k` rows from the cursor, each under the scale of its own K-block (R169): whole blocks are decoded, from
the one that the cursor stands in. -/
def colOfB (t : VType) (x : Slot) (j k : Nat) : List FpNum :=
  let r := x.kc % 32
  let at_ := fun b o => (memGet x.side (2 * (64 * (x.kc / 32 + b) + j) + o)).toNat
  let codes := (List.range (alignUp (r + k) 32)).map fun i => x.code t.ew (x.kc - r + i) j
  ((decodeRun t (fun b => at_ b 0) (fun b => at_ b 1) codes).drop r).take k

/-- The tile and flags after an `mma` of `k` columns (R176). -/
def mmaTile (t : VType) (a : VReg) (h : Hart) (m g k : Nat) (x : Slot) (tile : Tile) : Tile × Flags :=
  let rows := (List.range m).map fun i => (i, rowOfA t a h i k)
  (List.range (min x.n 64)).foldl (fun acc j =>
    let col := colOfB t x j k
    rows.foldl (fun (tl, fl) (i, row) =>
      let (y, fl) := (chunks g (ceilDiv k g) (row.zip col)).foldl addGroup (tl.entry (64 * i + j), fl)
      (tl.setEntry (64 * i + j) y, fl)) acc) (tile, noFlags)

/-- `mma` (R176, R177): indivisible. A `vl` above VLMAX (0x047) is reported before what its pseudocode checks (log entry
39). -/
def execMma (d : BitVec 3) (a : VReg) (b : BitVec 4) (s : State) : Res :=
  let t := s.vtype
  let word := encVec 0x1F (d.setWidth 5) a (b.setWidth 5) 31 0x03
  let x := s.myCore.slot b
  let (g, _) := t.matrix.getD (0, 0)
  let m := s.rowsOfA
  let vl := s.hart.vl.toNat
  let k := vl / m
  lateTests { word := word, groups := [(a, t.gf)], companions := if t.isBlock then [a.toNat + t.gf] else []
              admits := decide (0 < g) } s <|
  lengthTest s <|
  trapIf (decide (32 < m)) 0x04B (wordVal word) s <|
  trapIf ((s.myCore.tile d).own != some s.hart.pos) 0x244 (numVal d) s <|
  trapIf (x.own != some s.hart.pos) 0x241 (numVal b) s <|
  trapIf (x.st != .ready) 0x247 (numVal b) s <|
  trapIf (x.fmt != s.hart.vty.extractLsb' 6 4 || x.ew != s.hart.vty.extractLsb' 3 3) 0x248 (numVal b) s <|
  if vl == 0 then .next s.retireV else
  trapIf (vl % m != 0 || decide (x.kr < x.kc + k) || (t.isBlock && k % 32 != 0)) 0x24A (s.hart.vl.setWidth 64) s <|
    runWord word false (groupAll a t) [] s fun s =>
      let c := s.myCore
      let (tile, fl) := mmaTile t a s.hart m g k (c.slot b) (c.tile d)
      let x := { c.slot b with kc := if x.kc + k == x.kr then 0 else x.kc + k }
      .retire ((s.setMyCore ((c.setSlot b x).setTile d tile)).raise fl)

/-! ### Extraction (R178, R179) -/

/-- Narrow(x) of R179. -/
def AccEntry.narrow (x : AccEntry) (t : VType) (rm : Rounding) : Nat × Flags :=
  if t.fmt ≤ 1 then
    let lo : Int := if t.fmt == 0 then -2 ^ (t.ew - 1) else 0
    let hi : Int := if t.fmt == 0 then 2 ^ (t.ew - 1) - 1 else 2 ^ t.ew - 1
    let r := x.num.toInt rm lo hi
    ((BitVec.ofInt t.ew r.1).toNat, r.2)
  else (fpOf t.fmt).round rm { num := x.num }

/-- One position of `accx` (R179). -/
def accxStep (t : VType) (rm : Rounding) (d : Operand) (tile : Tile) (e0 : Nat) (img : Bool) (p : PSel) (i : Nat)
    (s : State) : State :=
  if s.hart.active p i then
    if img then
      match d with
      | .reg r => s.setElem r 64 i ((tile.entry (e0 + i / 2)).image.toNat / 2 ^ (64 * (i % 2)))
      | .none_ | .link _ | .pred _ => s
    else
      let r := (tile.entry (e0 + i)).narrow t rm
      match d with
      | .reg v => (s.setElem v t.ew i r.1).raise r.2
      | .link k => (s.produce k i r.1).raise r.2.link
      | .none_ | .pred _ => s
  else match d with
    | .link k => s.produce k i 0
    | .none_ | .reg _ | .pred _ => s

/-- `accx` in both forms (R178, R179). A `vl` above VLMAX (0x047) is reported before what its pseudocode checks (log entry
39). -/
def accxWord (word : BitVec 32) (d : Operand) (a : BitVec 3) (b : SReg) (p : PSel) (s : State) : Res :=
  let t := s.vtype
  let ctl := s.getS b
  let img := bit ctl 12
  let e0 := bits ctl 0 11
  let vl := s.hart.vl.toNat
  let n := if img then vl / 2 else vl
  let isLink := d.linkOf.isSome
  lateTests { word := word, groups := d.regOf.toList.map fun r => (r, t.gf)
              admits := !t.isBlock && t.ew != 4, rounds := !img } s <|
  lengthTest s <|
  trapIf (bits ctl 13 51 != 0 || (img && (isLink || decide (1 < t.fmt) || t.ew != 64))) 0x24C ctl s <|
  trapIf ((s.myCore.tile a).own != some s.hart.pos) 0x244 (numVal a) s <|
  trapIf ((img && vl % 2 == 1) || decide (2048 < e0 + n)) 0x24B ctl s <|
  producerTest d s <|
    runWord word true [] (d.regOf.toList.flatMap fun r => groupRegs r t.gf) s fun s =>
      let n := s.upto
      let s := forFrom s.hart.vix.toNat n (accxStep t s.vectorRm d (s.myCore.tile a) e0 img p) (s.occupy d)
      let s := if bit ctl 11 && decide (vl ≤ n) then s.setMyCore (s.myCore.setTile a { clearing := true }) else s
      s.endAt n

/-- `accx` to a register group (R178, R179). -/
def execAccx (d : VReg) (a : BitVec 3) (b : SReg) (p : PSel) (s : State) : Res :=
  accxWord (encVec 0x1F d (a.setWidth 5) b p 0x04) (.reg d) a b p s

/-- `accx` to a digit link (R178, R179). -/
def execAccxLink (d a : BitVec 3) (b : SReg) (p : PSel) (s : State) : Res :=
  accxWord (encVec 0x1F (d.setWidth 5) (a.setWidth 5) b p 0x05) (.link d) a b p s

end Sys2Proof.Machine
end

