-- ==== Sys2Proof/Machine/Sema.lean ====
section
/-! DEFINITION. Counting semaphores of a core: claim, release and posts (R211, R212, R216). -/

namespace Sys2Proof.Machine

/-- A semaphore of a core. -/
def Core.sema (c : Core) (n : BitVec 6) : Sema := c.sm.get n.toFin
/-- A semaphore of a core stored. -/
def Core.setSema (c : Core) (n : BitVec 6) (x : Sema) : Core := { c with sm := c.sm.set n.toFin x }

/-- The team is pre-empted, and its semaphores are in custody (R312). -/
def State.away (s : State) (t : TeamId) : Bool :=
  match s.team t with
  | some x => !x.kept.places.isEmpty
  | none => false

/-- A post to the semaphore is still outstanding: an engine command of the core, a graph node, or a spawned team (R212). -/
def State.postsOutstanding (s : State) (c : CoreId) (n : BitVec 6) : Bool :=
  (s.core c).cpyq.any (fun x => x.sem == n && x.cmp.getLsbD 0) ||
  (s.core c).orphans.any (fun x => x.nb.any fun y => y.sem == n) ||
  (s.core c).nodes.any (fun x => x.2.runs != 0 && bits (wordAt (x.2.desc.getD []) 1) 8 2 == 2 &&
    bits (wordAt (x.2.desc.getD []) 1) 10 6 == n.toNat) ||
  s.teams.any fun (_, t) => t.st != .completed && t.ctl 30 6 == n.toNat && t.ctl 28 1 == 1 &&
    match t.source with
    | .spawn k u => k == c && !s.away u
    | .ring _ _ => false

/-- The claim of a semaphore still stands: its team is live on the core, or a post is outstanding (R212). -/
def State.semaHeld (s : State) (c : CoreId) (n : BitVec 6) (t : TeamId) : Bool :=
  s.liveOnCore t c || s.postsOutstanding c n

/-- A word of a team names a semaphore: it is the team's, or becomes the team's with every field zero; none when another
team holds it (0x204). -/
def State.claimSema (s : State) (c : CoreId) (n : BitVec 6) (t : TeamId) : Option State :=
  let x := s.core c
  let take := some (s.setCore c (x.setSema n { team := some t }))
  match (x.sema n).team with
  | none => take
  | some u => if u = t then some s else if s.semaHeld c n u then none else take

/-- A word names a semaphore of its own core, or traps with 0x204. -/
def namingSema (n : BitVec 6) (s : State) (k : State → Res) : Res :=
  match s.claimSema (coreOf s.hart.pos) n s.hart.team with
  | some s => k s
  | none => .next (s.trap 0x204 (n.setWidth 64))

/-- A semaphore after a post: the amount, saturated with OVF, and the failure marks (R216). -/
def Sema.post (m : Sema) (amount : Nat) (rerr tfail : Bool) : Sema :=
  let total := m.count.toNat + amount
  { m with
    ovf := m.ovf || decide (2 ^ 48 ≤ total), rerr := m.rerr || rerr, tfail := m.tfail || tfail,
    count := BitVec.ofNat 48 (min total (2 ^ 48 - 1)) }

/-- A post of an agent, in one step (R216). -/
def State.post (s : State) (c : CoreId) (n : BitVec 6) (amount : Nat) (rerr tfail : Bool) : State :=
  let x := s.core c
  s.setCore c (x.setSema n ((x.sema n).post amount rerr tfail))

/-! ### Accesses of engine commands (R102) -/

/-- The command still has accesses to perform. -/
def Cmd.busy (x : Cmd) : Bool :=
  x.failed.isNone && match x.kind with
    | .copy b _ => decide (x.next < ((List.range 6).map fun d => bits (wordAt b (2 + 2 * d)) 0 32).foldl (· * ·) 1)
    | .rows _ _ _ rows => decide (x.next < rows.length)

/-- The Fife runs a program: one that is blocked waits for its owner or an engine, and makes no access (log entry 39). -/
def Fife.busy (f : Fife) : Bool := f.st == .running && f.wait.isNone

/-- A launched node of the core that has not begun will make accesses: a copy, and a Fife program unless the Fife that it
waits for stands still. -/
def Core.launchBusy (c : Core) (n : BitVec 8) : Bool :=
  match bits (wordAt (((c.nodes.getD n.toNat {}).desc).getD []) 1) 8 2 with
  | 0 => true
  | 1 => c.fife.busy
  | _ => false

/-- An engine command that a hart has pushed, to any core, still has accesses to perform: a copy or a gather, a node that
waits to run, or a Fife program (R102). -/
def State.engineBusy (s : State) (h : HartId) : Bool :=
  s.cores.any fun (_, c) =>
    (c.cpyq.any fun x => x.pusher == some h && x.busy) || (c.fife.pusher == some h && c.fife.busy) ||
      c.launch.any fun x => x.pusher == some h && c.launchBusy x.node

end Sys2Proof.Machine
end

