-- ==== Sys2Proof/Machine/Engine.lean ====
section
/-! DEFINITION. Shape records, copy commands, gathered rows, the dependence graph and the quad copy engine (R268, R272,
R277, R279 to R296). -/

namespace Sys2Proof.Machine

/-! ### Shape records (R279, R280) -/

/-- Element bytes of a shape descriptor. -/
def shEs (w : List Word) : Nat := 2 ^ bits (wordAt w 1) 0 3
/-- Dimensions. -/
def shNd (w : List Word) : Nat := bits (wordAt w 1) 4 3
/-- Extent of a dimension; 1 from ND up. -/
def shExt (w : List Word) (d : Nat) : Nat := if d < shNd w then bits (wordAt w (5 + 2 * d)) 0 32 else 1
/-- Stride of a dimension; 0 from ND up. -/
def shStr (w : List Word) (d : Nat) : Int := if d < shNd w then (wordAt w (4 + 2 * d)).toInt else 0
/-- Bytes of the pad of one element. -/
def shPad (w : List Word) : List Byte :=
  let p := (wordAt w 2).toNat
  if shEs w == 16 then natToBytes 8 p ++ natToBytes 8 p else natToBytes (shEs w) p

/-- A shape descriptor is malformed (R279). -/
def shapeMalformed (w : List Word) : Bool :=
  let nd := shNd w
  nd == 0 || nd == 7 || decide (4 < bits (wordAt w 1) 0 3) || wordAt w 1 &&& 0xFFFFFFFFFFFFC088 != 0 ||
    wordAt w 3 != 0 || (decide (shEs w < 8) && bits (wordAt w 2) (8 * shEs w) (64 - 8 * shEs w) != 0) ||
    (List.range 6).any (fun d => bits (wordAt w (5 + 2 * d)) 32 32 != 0) ||
    (List.range nd).any (fun d => bits (wordAt w (5 + 2 * d)) 0 32 == 0) ||
    (List.range 6).any fun d => decide (nd ≤ d) && (wordAt w (4 + 2 * d) != 0 || wordAt w (5 + 2 * d) != 0)

/-- Shape records that a command uses: none where its block could not be read. -/
def Cmd.uses (c : Cmd) : List Nat :=
  match c.kind with
  | .copy b _ =>
    if b.isEmpty then [] else bits (wordAt b 0) 0 6 :: (if bit (wordAt b 0) 12 then [] else [bits (wordAt b 0) 6 6])
  | .rows sh _ _ _ => [sh.toNat]

/-- An outstanding command of the core uses the record. -/
def Core.shapeBusy (c : Core) (n : Nat) : Bool := c.cpyq.any fun x => x.uses.contains n

/-- The team and descriptor of a record whose claim stands (R279). -/
def State.shapeAt (s : State) (c : CoreId) (n : Nat) : Option (TeamId × List Word) :=
  match (s.core c).shapes.find n with
  | some ⟨some t, some w⟩ => if s.liveOnCore t c || (s.core c).shapeBusy n then some (t, w) else none
  | _ => none

/-- A record that a command names must be the team's: its descriptor, or 0x184 or 0x183 with the number. -/
def State.needShape (s : State) (c : CoreId) (t : TeamId) (n : Nat) : Except (BitVec 10 × Word) (List Word) :=
  match s.shapeAt c n with
  | none => .error (0x184, BitVec.ofNat 64 n)
  | some (u, w) => if u = t then .ok w else .error (0x183, BitVec.ofNat 64 n)

/-- The first of BASE and the strides that is no multiple of the element bytes. -/
def shapeMisaligned (w : List Word) : Option Word :=
  (wordAt w 0 :: (List.range (shNd w)).map fun d => wordAt w (4 + 2 * d)).find? fun x => x.toNat % shEs w != 0

/-- `shp` (R280). -/
def execShp (d a : SReg) (s : State) : Res :=
  let x := s.getS a
  let c := coreOf s.hart.pos
  lateTests { word := encVec 0x21 d a 0 31 0x02 } s <|
  trapIf (bits x 0 7 != 0) 0x087 x s <|
  readRecord x 128 s fun w s =>
  trapIf (shapeMalformed w) 0x054 x s <|
  trapIf (shapeMisaligned w).isSome 0x087 ((shapeMisaligned w).getD 0) s <|
    let n := bits (wordAt w 1) 8 6
    let other := match s.shapeAt c n with
      | some (u, _) => u != s.hart.team
      | none => false
    trapIf other 0x183 (BitVec.ofNat 64 n) s <|
      let k := s.core c
      if k.shapeBusy n then .next (s.wait .shape)
      else
        .next ((s.setCore c { k with shapes := k.shapes.put n { team := some s.hart.team, desc := some w } }).setS d
          (BitVec.ofNat 64 n)).advance

/-! ### Copy command blocks (R282, R286) -/

/-- A field of CTL. -/
def blkCtl (b : List Word) (lo n : Nat) : Nat := bits (wordAt b 0) lo n
/-- DK: the destination is a slot. -/
def blkToSlot (b : List Word) : Bool := bit (wordAt b 0) 12
/-- TLd. -/
def blkTl (b : List Word) (d : Nat) : Nat := bits (wordAt b (2 + 2 * d)) 0 32
/-- SORGd. -/
def blkSrc (b : List Word) (d : Nat) : Int := ((wordAt b (1 + 2 * d)).extractLsb' 0 32).toInt
/-- DORGd. -/
def blkDst (b : List Word) (d : Nat) : Int := ((wordAt b (1 + 2 * d)).extractLsb' 32 32).toInt
/-- Elements of the tile. -/
def blkCount (b : List Word) : Nat := ((List.range 6).map (blkTl b)).foldl (· * ·) 1

/-- The fields that R282 judges without a record. -/
def blkMalformed (b : List Word) (start : Word) : Bool :=
  let n := blkCount b
  blkCtl b 30 34 != 0 || (List.range 6).any (fun d => bits (wordAt b (2 + 2 * d)) 32 32 != 0 || blkTl b d == 0) ||
    wordAt b 13 != 0 || wordAt b 14 != 0 || wordAt b 15 != 0 || decide (2 ^ 28 < n) || decide (n ≤ start.toNat) ||
    (if blkToSlot b then decide (7 < blkCtl b 17 4) || blkCtl b 6 6 != 0 || (List.range 4).any fun d => blkTl b (d + 2) != 1
     else blkCtl b 13 8 != 0)

/-- Element bits of a slot format SFMT (R282): an integer format takes the width of the source elements. -/
def slotWidth (sfmt es : Nat) : Nat :=
  match sfmt with
  | 0 | 1 => if es ≤ 8 then 8 * es else 0
  | 2 => 64
  | 3 => 32
  | 4 | 5 => 16
  | _ => 8

/-- The element sizes agree (R282). -/
def blkSizesAgree (b src dst : List Word) : Bool :=
  if blkToSlot b then slotWidth (blkCtl b 17 4) (shEs src) == 8 * shEs src else shEs src == shEs dst

/-- A dimension of a tile lies wholly outside a record. -/
def dimOutside (w : List Word) (org : Int) (tl d : Nat) : Bool := decide (org + tl ≤ 0) || decide ((shExt w d : Int) ≤ org)

/-- Every element of a tile lies outside a record (R284). -/
def tileOutside (w : List Word) (org tl : Nat → Int) : Bool :=
  (List.range 6).any fun d => dimOutside w (org d) (tl d).toNat d

/-- The span of the elements of a tile that lie inside a record: its lowest and highest byte (R286). -/
def tileSpan (w : List Word) (org tl : Nat → Int) : Option (Int × Int) :=
  if tileOutside w org tl then none
  else
    let ends := (List.range 6).map fun d =>
      let lo := max 0 (org d) * shStr w d
      let hi := min ((shExt w d : Int) - 1) (org d + tl d - 1) * shStr w d
      (min lo hi, max lo hi)
    let base : Int := (wordAt w 0).toNat
    some (base + (ends.map Prod.fst).foldl (· + ·) 0, base + (ends.map Prod.snd).foldl (· + ·) 0 + shEs w - 1)

/-- Tile coordinates of element L (R284). -/
def tileCoords : List Nat → Nat → List Nat
  | [], _ => []
  | x :: xs, l => l % x :: tileCoords xs (l / x)

/-- The elements of a tile from or up to one of them in the order of L, as boxes: a first coordinate and a length for each
dimension. -/
def tileBoxes (b : List Word) (l : Nat) (up : Bool) : List (Nat → Nat × Nat) :=
  let t := fun d => (tileCoords ((List.range 6).map (blkTl b)) l).getD d 0
  (fun d => (t d, 1)) :: ((List.range 6).map fun k d =>
    if k < d then (t d, 1)
    else if d < k then (0, blkTl b d)
    else if up then (t d + 1, blkTl b d - (t d + 1)) else (0, t d)).filter fun x => (List.range 6).all fun d => (x d).2 != 0

/-- Two spans as one. -/
def spanJoin : Option (Int × Int) → Option (Int × Int) → Option (Int × Int)
  | some (a, b), some (c, d) => some (min a c, max b d)
  | none, x => x
  | x, none => x

/-- The span of the elements that a command from position `start` reads or writes in a record (R286). -/
def restSpan (b w : List Word) (org : Nat → Int) (start : Nat) : Option (Int × Int) :=
  let down := bit (wordAt b 0) 21
  ((tileBoxes b (if down then blkCount b - 1 - start else start) !down).map fun x =>
    tileSpan w (fun d => org d + (x d).1) (fun d => (x d).2)).foldl spanJoin none

/-- The command overlaps without the matching direction (R286). -/
def blkOverlap (b src dst : List Word) (start : Nat) : Bool :=
  match restSpan b src (blkSrc b) start, restSpan b dst (blkDst b) start with
  | some (s0, s1), some (d0, d1) =>
    decide (s0 ≤ d1) && decide (d0 ≤ s1) && (s0 == d0 || bit (wordAt b 0) 21 != decide (s0 < d0))
  | _, _ => false

/-- Checks 3 to 8 of R283, on a core, for a hart and its team: the descriptors, and the state with the semaphore
claimed. -/
def State.copyChecks (s : State) (c : CoreId) (h : HartId) (t : TeamId) (a : Word) (b : List Word) (start : Word) :
    Except (BitVec 10 × Word) (List Word × List Word × State) :=
  if blkMalformed b start then .error (0x055, a)
  else
    match s.needShape c t (blkCtl b 0 6) with
    | .error e => .error e
    | .ok src =>
      match (if blkToSlot b then .ok [] else s.needShape c t (blkCtl b 6 6)) with
      | .error e => .error e
      | .ok dst =>
        let slot := BitVec.ofNat 4 (blkCtl b 13 4)
        let sem := BitVec.ofNat 6 (blkCtl b 22 6)
        if !blkSizesAgree b src dst then .error (0x055, a)
        else if blkToSlot b && (coreOf h != c || ((s.core c).slot slot).own != some h) then .error (0x241, numVal slot)
        else if !blkToSlot b && blkOverlap b src dst start.toNat then .error (0x185, a)
        else if bit (wordAt b 0) 28 then
          match s.claimSema c sem t with
          | none => .error (0x204, sem.setWidth 64)
          | some s => .ok (src, dst, s)
        else .ok (src, dst, s)

/-! ### Acceptance (R283, R288) -/

/-- A command before its first position. -/
def newCmd (kind : CmdKind) (src dst : List Word) (cmp : BitVec 2) (sem : BitVec 6) (ticket : BitVec 16) (h : HartId)
    (t : TeamId) (node : Option (BitVec 8)) (next : Nat) (oob : Bool) (pusher : Option HartId) : Cmd where
  kind := kind
  src := src
  dst := dst
  cmp := cmp
  sem := sem
  ticket := ticket
  hart := h
  team := t
  node := node
  next := next
  col := 0
  staged := []
  loose := false
  failed := none
  oob := oob
  part := false
  clip := false
  canc := false
  pusher := pusher

/-- The command of a block. -/
def copyCmd (b src dst : List Word) (start : Nat) (ticket : BitVec 16) (h : HartId) (t : TeamId)
    (node : Option (BitVec 8)) (pusher : Option HartId) : Cmd :=
  newCmd (.copy b start) src dst (BitVec.ofNat 2 (blkCtl b 28 2)) (BitVec.ofNat 6 (blkCtl b 22 6)) ticket h t node start
    (tileOutside src (blkSrc b) fun d => blkTl b d) pusher

/-- A slot that a copy is accepted into (R170, R284): filling until its copies complete. -/
def Slot.accept (x : Slot) (b : List Word) (es : Nat) : Slot :=
  let sfmt := blkCtl b 17 4
  let ew := slotWidth sfmt es
  let x := if x.st == .filling then x
    else { x with st := .filling, fmt := BitVec.ofNat 4 sfmt, ew := BitVec.ofNat 3 (ew.log2 - 2), maxKr := 0, maxN := 0 }
  let x := if x.copies == 0 then { x with maxKr := 0, maxN := 0 } else x
  { x with
    copies := x.copies + 1
    maxKr := max x.maxKr (min (2048 / ew) (blkDst b 1 + blkTl b 1).toNat)
    maxN := max x.maxN (min 64 (blkDst b 0 + blkTl b 0).toNat) }

/-- A command enters the CPYQ of a core. -/
def State.enqueue (s : State) (c : CoreId) (x : Cmd) : State :=
  let k := s.core c
  let k := match x.kind with
    | .copy b _ =>
      if blkToSlot b && x.failed.isNone then
        let n := BitVec.ofNat 4 (blkCtl b 13 4)
        k.setSlot n ((k.slot n).accept b (shEs x.src))
      else k
    | .rows _ _ _ _ => k
  s.setCore c { k with cpyq := k.cpyq ++ [x] }

/-- The next ticket of the hart whose turn it is. -/
def State.ticket (s : State) : BitVec 16 × State :=
  (s.hart.tickets, { s with hart := { s.hart with tickets := s.hart.tickets + 1 } })

/-- A copy command block issued by a hart, on a core (R269, R283): the checks in order, the wait for room, and the ticket
to the continuation. -/
def issueCopy (c : CoreId) (a start : Word) (s : State) (k : BitVec 16 → State → Res) : Res :=
  trapIf (bits a 0 7 != 0) 0x088 a s <|
  readRecord a 128 s fun b s' =>
  match s'.copyChecks c s.hart.pos s.hart.team a b start with
  | .error (x, v) => .next (s'.trap x v)
  | .ok (src, dst, t) =>
    if 16 ≤ (t.core c).cpyq.length then .next (s.wait (.cpyq c))
    else
      let (n, t) := t.ticket
      k n (t.enqueue c (copyCmd b src dst start.toNat n s.hart.pos s.hart.team none (some s.hart.pos)))

/-- `cpy` (R283). -/
def execCpy (d a b : SReg) (s : State) : Res :=
  lateTests { word := encVec 0x21 d a b 31 0x00 } s <|
    issueCopy (coreOf s.hart.pos) (s.getS a) (s.getS b) s fun n s => .next (s.setS d (n.setWidth 64)).advance

/-! ### Gathered rows (R290) -/

/-- Bytes from one gathered row to the next. -/
def rowBytes (w : List Word) : Nat := alignUp (shExt w 0 * shEs w) 32

/-- `gsp` (R290). The semaphore that it posts to is claimed with the acceptance: a word that waits or traps claims none (R268,
R276). -/
def execGsp (d : VReg) (a b : SReg) (p : PSel) (s : State) : Res :=
  let t := s.vtype
  let word := encVec 0x21 d a b p 0x01
  let ctl := s.getS a
  let dst := s.getS b
  let c := coreOf s.hart.pos
  let n := bits ctl 0 6
  lateTests { word := word, groups := [(d, t.gf)], admits := t.isInt && decide (16 ≤ t.ew) } s <|
  lengthTest s <|
  trapIf (bits ctl 14 50 != 0 || (match s.shapeAt c n with
    | some (_, w) => shNd w != 2
    | none => false)) 0x055 ctl s <|
  match s.needShape c s.hart.team n with
  | .error (x, v) => .next (s.trap x v)
  | .ok src =>
    trapIf (dst.toNat % 32 != 0) 0x088 dst s <|
    trapIf (match spaceOf dst with
      | some (.scratch _) => false
      | _ => true) 0x055 dst s <|
    let cmp := BitVec.ofNat 2 (bits ctl 12 2)
    let sem := BitVec.ofNat 6 (bits ctl 6 6)
    let q := quadOf c
    let vl := s.hart.vl.toNat
    let room := 512 - (s.quad q).rows
    let claim := fun (s : State) => if cmp.getLsbD 0 then s.claimSema c sem s.hart.team else some s
    trapIf (claim s).isNone 0x204 (sem.setWidth 64) s <|
      if room < min vl 64 ∨ 16 ≤ (s.core c).cpyq.length then .next (s.wait .rowQueue)
      else
        runWord word false (groupRegs d t.gf) [] s fun s =>
          let s := (claim s).getD s
          let g := min vl room
          let rows := ((List.range g).filter fun i => s.hart.active p i).map fun i => (i, s.elem d t.ew i)
          let (k, s) := s.ticket
          let out := rows.all fun r => decide (shExt src 1 ≤ r.2)
          let s := s.enqueue c
            (newCmd (.rows (BitVec.ofNat 6 n) dst g rows) src [] cmp sem k s.hart.pos s.hart.team none 0 out (some s.hart.pos))
          let s := s.setQuad q { s.quad q with rows := (s.quad q).rows + rows.length }
          .retire { s with hart := { s.hart with vl := BitVec.ofNat 12 g } }

/-! ### Elements of a command (R284, R285, R290) -/

/-- How the copy engine of a core's quad makes an access for a command (R387). -/
def State.qceHow (s : State) (c : CoreId) (t : TeamId) (acc : Acc) : How :=
  { master := { die := dieOfCore c, unit := BitVec.ofNat 8 (128 + quadInDie c)
                asid := (match s.team t with
                  | some x => x.asid
                  | none => 0), core := none }
    team := t, acc := acc, bank := 0, vector := true }

/-- Where an element is read, dirty scalar copies recalled, or how it fails: STAT and cause. -/
def State.qceRead (s : State) (c : CoreId) (t : TeamId) (a : Word) (n : Nat) :
    Except (BitVec 2 × BitVec 10) (List Nat × State) :=
  match s.check (s.qceHow c t .load) a n with
  | .error .lost => .error (2, 0)
  | .error (.cause x) => .error (1, x)
  | .ok (p, s) => match s.poisonCause p.keys with
    | some x => .error (1, x)
    | none => .ok (p.keys, s.recall p.keys)

/-- Bytes as a command reads them: what it has itself written comes before what is performed (R284). -/
def Cmd.sees (x : Cmd) (s : State) (ks : List Nat) : List Byte :=
  ks.map fun k => (x.staged.findSome? fun e => (e.2.find? fun c => c.1 == k).map Prod.snd).getD (s.byte k)

/-- An element written by a command, not yet performed (R258). -/
def Cmd.stage (x : Cmd) (a : Word) (ks : List Nat) (bs : List Byte) : Cmd := { x with staged := (a, ks.zip bs) :: x.staged }

/-- Elements that a command has written are performed, the oldest first. -/
def State.performStaged (s : State) (xs : List (Word × List Host.Cell)) : State :=
  let cells := xs.reverse.flatMap Prod.snd
  s.store (cells.map Prod.fst) (cells.map Prod.snd)

/-- Where an element is written, or how it fails. -/
def State.qceWrite (s : State) (c : CoreId) (t : TeamId) (a : Word) (n : Nat) :
    Except (BitVec 2 × BitVec 10) (List Nat × State) :=
  match s.check (s.qceHow c t .store) a n with
  | .error .lost => .error (2, 0)
  | .error (.cause x) => .error (1, x)
  | .ok (p, s) => .ok (p.keys, s)

/-- Coordinates lie inside a record. -/
def inside (w : List Word) (cs : List Int) : Bool :=
  (cs.zip (List.range 6)).all fun (x, d) => decide (0 ≤ x) && decide (x < shExt w d)

/-- The address of an element of a record. -/
def elemAddr (w : List Word) (cs : List Int) : Word :=
  BitVec.ofInt 64 ((wordAt w 0).toNat + ((cs.zip (List.range 6)).map fun (x, d) => x * shStr w d).foldl (· + ·) 0)

/-- An element of a source, by its coordinates: its bytes, or the pad. -/
def State.elemRead (s : State) (c : CoreId) (x : Cmd) (cs : List Int) (padded : Bool) :
    Except (BitVec 2 × BitVec 10) (List Byte × State) :=
  if padded then .ok (shPad x.src, s)
  else (s.qceRead c x.team (elemAddr x.src cs) (shEs x.src)).map fun (ks, s) => (x.sees s ks, s)

/-- An element put into the slot that a copy fills, while the slot is still its own (R170, R284). -/
def State.slotWrite (s : State) (c : CoreId) (x : Cmd) (b : List Word) (cd : List Int) (v : List Byte) : State × Cmd :=
  let ew := slotWidth (blkCtl b 17 4) (shEs x.src)
  let n := BitVec.ofNat 4 (blkCtl b 13 4)
  let row := cd.getD 1 0
  let col := cd.getD 0 0
  if 0 ≤ row ∧ row < (2048 / ew : Nat) ∧ 0 ≤ col ∧ col < 64 then
    let k := s.core c
    if x.loose then (s, x)
    else (s.setCore c (k.setSlot n ((k.slot n).setCode ew row.toNat col.toNat (bytesToNat v))), x)
  else (s, { x with clip := true })

/-- Position `j` of a copy command (R284): the state and the command after it, or its failure. An element written to memory
is not yet performed. -/
def State.copyAt (s : State) (c : CoreId) (x : Cmd) (b : List Word) (j : Nat) :
    Except (BitVec 2 × BitVec 10) (State × Cmd) :=
  let ts := tileCoords ((List.range 6).map (blkTl b)) (if bit (wordAt b 0) 21 then blkCount b - 1 - j else j)
  let cs : List Int := (ts.zip (List.range 6)).map fun (t, d) => blkSrc b d + t
  let cd : List Int := (ts.zip (List.range 6)).map fun (t, d) => blkDst b d + t
  let padded := x.oob || !inside x.src cs
  match s.elemRead c x cs padded with
  | .error e => .error e
  | .ok (v, s) =>
    let x := { x with part := x.part || padded }
    if blkToSlot b then .ok (s.slotWrite c x b cd v)
    else if inside x.dst cd then
      (s.qceWrite c x.team (elemAddr x.dst cd) (shEs x.src)).map fun (ks, s) => (s, x.stage (elemAddr x.dst cd) ks v)
    else .ok (s, { x with clip := true })

/-- The next element of gathered row `r`, for position `i` (R290); it is not yet performed. -/
def State.rowElem (s : State) (c : CoreId) (x : Cmd) (dst : Word) (i r : Nat) :
    Except (BitVec 2 × BitVec 10) (State × Cmd) :=
  let padded := decide (shExt x.src 1 ≤ r)
  let a := dst + BitVec.ofNat 64 (i * rowBytes x.src + x.col * shEs x.src)
  match s.elemRead c x [(x.col : Int), (r : Int)] padded with
  | .error e => .error e
  | .ok (v, s) => (s.qceWrite c x.team a (shEs x.src)).map fun (ks, s) =>
      (s, { x.stage a ks v with col := x.col + 1, part := x.part || padded })

/-- Positions of a command, in its own count. -/
def Cmd.count (x : Cmd) : Nat :=
  match x.kind with
  | .copy b _ => blkCount b
  | .rows _ _ _ rows => rows.length

/-- The command has ended: each position performed, or one failed. -/
def Cmd.ended (x : Cmd) : Bool := x.failed.isSome || decide (x.count ≤ x.next)

/-- Elements of a chunk of 512 bytes (R289). -/
def Cmd.chunk (x : Cmd) : Nat := max 1 (512 / shEs x.src)

/-- The destination addresses of a tile rise with L: each stride passes what the dimensions below it span. -/
def tileRises (b dst : List Word) : Bool :=
  ((List.range 6).foldl (fun (ok, span) d =>
    if blkTl b d ≤ 1 then (ok, span)
    else (ok && decide (span < shStr dst d), span + ((blkTl b d : Int) - 1) * shStr dst d)) (true, (0 : Int))).1

/-- The elements of a command that are performed now, and those that wait (R258): all once it has ended; while the
addresses go in the order of the command, all but those in the 64-byte line of the last one. -/
def Cmd.ripe (x : Cmd) : List (Word × List Host.Cell) × List (Word × List Host.Cell) :=
  if x.ended then (x.staged, [])
  else
    match x.kind, x.staged with
    | .copy b _, (a, _) :: _ =>
      if tileRises b x.dst then x.staged.partition fun e => e.1.toNat / 64 != a.toNat / 64 else ([], x.staged)
    | _, _ => ([], x.staged)

/-- A gathered row whose elements have all been written is performed (R290). -/
def State.endRow (s : State) (c : CoreId) (x : Cmd) : State × Cmd :=
  if x.col < shExt x.src 0 then (s, x)
  else
    let s := s.performStaged x.staged
    let q := quadOf c
    (s.setQuad q { s.quad q with rows := (s.quad q).rows - 1 }, { x with next := x.next + 1, col := 0, staged := [] })

/-- The next element of a command. A failure in a gathered row performs nothing of that row (R290). -/
def State.cmdStep (s : State) (c : CoreId) (x : Cmd) : State × Cmd :=
  if x.ended then (s, x)
  else
    let q := quadOf c
    match x.kind with
    | .copy b _ =>
      match s.copyAt c x b x.next with
      | .error e => (s, { x with failed := some e })
      | .ok (s, x) => (s, { x with next := x.next + 1 })
    | .rows _ dst _ rows =>
      let (i, r) := rows.getD x.next (0, 0)
      match s.rowElem c x dst i r with
      | .error e =>
        (s.setQuad q { s.quad q with rows := (s.quad q).rows - (rows.length - x.next) },
          { x with failed := some e, staged := [] })
      | .ok (s, x) => s.endRow c x

/-- One chunk of a command (R258, R289). -/
def State.cmdChunk (s : State) (c : CoreId) (x : Cmd) : State × Cmd :=
  let (s, x) := forUpTo x.chunk (fun _ (s, x) => State.cmdStep s c x) (s, x)
  let (now, later) := x.ripe
  (s.performStaged now, { x with staged := later })

/-- QCE_CHUNK (R289): the next core of the quad, in turn, that has a command to serve gets one chunk. -/
def execQceChunk (quad : QuadId) (s : State) : Res :=
  let q := s.quad quad
  let busy := fun (k : BitVec 2) => match (s.core (quad ++ k)).cpyq with
    | x :: _ => !x.ended
    | [] => false
  match ([0, 1, 2, 3].map fun k => q.turn + k).find? busy with
  | none => .next s
  | some k =>
    if q.failed then .next s
    else
      let c : CoreId := quad ++ k
      match (s.core c).cpyq with
      | [] => .next s
      | x :: _ =>
        let (s, x) := (s.setQuad quad { q with turn := k + 1 }).cmdChunk c x
        let y := s.core c
        .next (s.setCore c { y with cpyq := x :: y.cpyq.drop 1 })

/-! ### The dependence graph (R291 to R295) -/

/-- Successors of a node descriptor. -/
def nodeSuccs (w : List Word) : List Nat :=
  (List.range 4).filterMap fun i =>
    let x := bits (wordAt w 2) (16 * i) 16
    if 2 ^ 15 ≤ x then some (x % 256) else none

/-- PRED of a node descriptor. -/
def nodePred (w : List Word) : Nat := bits (wordAt w 1) 16 8
/-- KIND of a node descriptor. -/
def nodeKind (w : List Word) : Nat := bits (wordAt w 1) 8 2

/-- A node descriptor is malformed (R291, R292). -/
def nodeMalformed (w : List Word) : Bool :=
  bits (wordAt w 1) 24 40 != 0 || nodeKind w == 3 || wordAt w 2 &&& 0x7F007F007F007F00 != 0 || wordAt w 3 != 0 ||
    (nodeKind w == 2 && bits (wordAt w 0) 48 16 != 0)

/-- A node of a core whose claim stands (R291). -/
def State.nodeAt (s : State) (c : CoreId) (n : Nat) : Option Node :=
  match (s.core c).nodes.find n with
  | none => none
  | some x =>
    match x.team with
    | none => none
    | some t => if s.liveOnCore t c || x.runs != 0 then some x else none

/-- A node stored. -/
def State.setNode (s : State) (c : CoreId) (n : Nat) (x : Node) : State :=
  let k := s.core c
  s.setCore c { k with nodes := k.nodes.put n x }

/-- A node is launched (R294), by the push of a hart or as a successor: its count reloads, and it stands in the launch
queue. -/
def State.launchNode (s : State) (c : CoreId) (n : Nat) (x : Node) (pusher : Option HartId) : State :=
  let s := s.setNode c n { x with count := nodePred (x.desc.getD []), runs := x.runs + 1 }
  let k := s.core c
  s.setCore c { k with launch := k.launch ++ [⟨BitVec.ofNat 8 n, pusher⟩] }

/-- A finished predecessor: one less, and a launch at 0 (R294). -/
def State.decNode (s : State) (c : CoreId) (t : TeamId) (n : Nat) : State :=
  match s.nodeAt c n with
  | none => s
  | some x =>
    if x.team != some t then s
    else if 1 < x.count then s.setNode c n { x with count := x.count - 1 }
    else if x.count == 1 || x.runs == 0 then s.launchNode c n x none
    else s

/-- Nodes are cancelled with their successors in turn: each count reloads (R295). The first argument bounds the walk. -/
def State.cancelNodes (s : State) (c : CoreId) (t : TeamId) : Nat → List Nat → List Nat → State
  | 0, _, _ => s
  | _, [], _ => s
  | fuel + 1, n :: rest, seen =>
    if seen.contains n then s.cancelNodes c t fuel rest seen
    else
      match s.nodeAt c n with
      | none => s.cancelNodes c t fuel rest (n :: seen)
      | some x =>
        if x.team != some t then s.cancelNodes c t fuel rest (n :: seen)
        else
          let w := x.desc.getD []
          (s.setNode c n { x with count := nodePred w }).cancelNodes c t fuel (nodeSuccs w ++ rest) (n :: seen)

/-- A node finishes (R294, R295). -/
def State.finishNode (s : State) (c : CoreId) (n : BitVec 8) (ok : Bool) : State :=
  match (s.core c).nodes.find n.toNat with
  | none => s
  | some x =>
    let s := s.setNode c n.toNat { x with runs := x.runs - 1 }
    let w := x.desc.getD []
    match x.team with
    | none => s
    | some t =>
      if ok then (nodeSuccs w).foldl (fun s k => s.decNode c t k) s
      else s.cancelNodes c t 2048 (nodeSuccs w) []

/-- The block of a copy node, read on behalf of the defining hart (R294), or the cause. -/
def State.readBlock (s : State) (c : CoreId) (h : HartId) (t : TeamId) (a : Word) :
    Except (BitVec 10) (List Word × State) :=
  if bits a 0 7 != 0 then .error 0x088
  else
    let how : How :=
      { master := coreMaster c (s.qceHow c t .load).master.asid, team := t, acc := .load
        bank := 16 * (hartInCore h).toNat }
    match s.check how a 128 with
    | .error .lost => .error 0x140
    | .error (.cause x) => .error x
    | .ok (p, s) =>
      if p.space == .regs then .error 0x186
      else match s.poisonCause p.keys with
        | some x => .error x
        | none => .ok (bytesToWords 16 (s.bytes p.keys), s)

/-- The ticket of a command launched for a defining hart (R288); free where that hart has ended. -/
def State.ticketFor (s : State) (h : HartId) (t : TeamId) : BitVec 16 × State :=
  let x := s.hartAt h
  if x.placed && x.team == t then (x.tickets, s.putHart { x with tickets := x.tickets + 1 })
  else (BitVec.ofNat 16 (Config.pick s.free), s.take)

/-- A copy node enters CPYQ; one that fails a check of R283 enters as a command that has failed at position 0 (R294). Where
the block cannot be read, and its CMP with it, the failure is reported in a result element (R296, log entry 39). -/
def State.launchCopy (s : State) (c : CoreId) (n : BitVec 8) (x : Node) (t : TeamId) (pusher : Option HartId) : State :=
  let a := wordAt (x.desc.getD []) 0
  match s.readBlock c x.hart t a with
  | .error e =>
    let (k, s) := s.ticketFor x.hart t
    s.enqueue c { newCmd (.copy [] 0) [] [] 2 0 k x.hart t (some n) 0 false pusher with failed := some (1, e) }
  | .ok (b, s) =>
    match s.copyChecks c x.hart t a b 0 with
    | .error (e, _) =>
      let (k, s) := s.ticketFor x.hart t
      let sem := BitVec.ofNat 6 (blkCtl b 22 6)
      let (mine, s) := match if bit (wordAt b 0) 28 then s.claimSema c sem t else none with
        | some s => (true, s)
        | none => (false, s)
      let cmp := BitVec.ofNat 2 (2 * blkCtl b 29 1 + bitNat mine)
      s.enqueue c { newCmd (.copy b 0) [] [] cmp sem k x.hart t (some n) 0 false pusher with failed := some (1, e) }
    | .ok (src, dst, s) =>
      let (k, s) := s.ticketFor x.hart t
      s.enqueue c (copyCmd b src dst 0 k x.hart t (some n) pusher)

/-- The Fife started at an address for a hart (R272). -/
def Fife.start (f : Fife) (h : Hart) (a : Word) (node : Option (BitVec 8)) (pusher : Option HartId) : Fife :=
  { f with
    st := .running, owner := hartInCore h.pos, rerr := false, fpc := a
    s := h.s.set 0 0, vty := h.vty, vl := h.vl, zol := {}, wait := none, onQueue := false, node := node, pusher := pusher }

/-- The first attempt or a later one to run a launched node: the state, and whether it left the launch queue (R294). A Fife
node waits while its hart is pre-empted (R312). A post to a semaphore of another team is not made, and the node fails
(R212, log entry 39). -/
def State.tryLaunch (s : State) (c : CoreId) (y : Launch) : State × Bool :=
  let n := y.node
  match (s.core c).nodes.find n.toNat with
  | none => (s, true)
  | some x =>
    match x.team with
    | none => (s, true)
    | some t =>
      let w := x.desc.getD []
      let arg := wordAt w 0
      match nodeKind w with
      | 0 => if 16 ≤ (s.core c).cpyq.length then (s, false) else (s.launchCopy c n x t y.pusher, true)
      | 1 =>
        let h := s.hartAt x.hart
        let k := s.core c
        if !h.placed || h.team != t then
          if (s.offstage t).contains x.hart then (s, false) else (s.setNode c n.toNat { x with runs := x.runs - 1 }, true)
        else if k.fife.st != .idle then (s, false)
        else if arg = 0 then (s.finishNode c n true, true)
        else
          let f := k.fife.start h arg (some n) y.pusher
          if bits arg 0 2 == 0 then (s.setCore c { k with fife := f }, true)
          else ((s.setCore c { k with fife := { f with st := .faulted, cause := 0x080, fva := arg } }).putHart
            (h.pend 0x180 arg), true)
      | _ =>
        let sem := BitVec.ofNat 6 (bits (wordAt w 1) 10 6)
        let others := s.setNode c n.toNat { x with runs := x.runs - 1 }
        match (others.claimSema c sem t).map fun s => s.setNode c n.toNat x with
        | some s => ((s.post c sem (bits arg 0 48) false false).finishNode c n true, true)
        | none => (s.finishNode c n false, true)

/-- The walker of a core tries each launch that waits, in order, once. -/
def State.walker (s : State) (c : CoreId) : State :=
  let k := s.core c
  let (s, left) := k.launch.foldl (fun (s, left) n =>
    let (s, gone) := State.tryLaunch s c n
    (s, if gone then left else left ++ [n])) (s.setCore c { k with launch := [] }, [])
  let k := s.core c
  s.setCore c { k with launch := left ++ k.launch }

/-- `dnode` (R292). -/
def execDnode (d a : SReg) (s : State) : Res :=
  let x := s.getS a
  let c := coreOf s.hart.pos
  lateTests { word := encVec 0x21 d a 0 31 0x05 } s <|
  trapIf (bits x 0 5 != 0) 0x089 x s <|
  readRecord x 32 s fun w s =>
  trapIf (nodeMalformed w) 0x057 x s <|
    let n := bits (wordAt w 1) 0 8
    let v : Word := BitVec.ofNat 64 n
    let old := s.nodeAt c n
    trapIf (old.any fun y => y.team != some s.hart.team) 0x189 v s <|
    trapIf (old.any fun y => y.runs != 0) 0x187 v s <|
      let y : Node := { team := some s.hart.team, desc := some w, count := nodePred w, hart := s.hart.pos }
      let s := (s.setNode c n y).setS d v
      let s := if nodePred w == 0 then (s.launchNode c n y (some s.hart.pos)).walker c else s
      .next s.advance

/-- A node of a core is given one predecessor by a word or a port (R293): the traps, the wait for room to launch, and the
continuation. -/
def giveNode (c : CoreId) (x : Word) (s : State) (k : State → Res) : Res :=
  trapIf (bits x 8 56 != 0) 0x057 x s <|
    match s.nodeAt c x.toNat with
    | none => .next (s.trap 0x188 x)
    | some y =>
      trapIf (y.team != some s.hart.team) 0x189 x s <|
      trapIf y.desc.isNone 0x188 x s <|
      trapIf (y.count == 0 && y.runs != 0) 0x187 x s <|
        if 1 < y.count then k (s.setNode c x.toNat { y with count := y.count - 1 })
        else if 16 ≤ (s.core c).launch.length then .next (s.wait (.dgq c))
        else k ((s.launchNode c x.toNat y (some s.hart.pos)).walker c)

/-- `dgo` (R293). -/
def execDgo (a : SReg) (s : State) : Res :=
  lateTests { word := encVec 0x21 0 a 0 31 0x06 } s <|
    giveNode (coreOf s.hart.pos) (s.getS a) s fun s => .next s.advance

/-! ### Completion (R287, R288) -/

/-- Bytes that a command posts (R287, R290). -/
def Cmd.posted (x : Cmd) : Nat :=
  match x.kind with
  | .copy _ start => (x.next - start) * shEs x.src
  | .rows _ _ _ _ => x.next * (shExt x.src 0 * shEs x.src)

/-- ELEM of a result: the positions of the whole command, or the one that failed. -/
def Cmd.elem (x : Cmd) : Nat :=
  match x.kind with
  | .copy _ _ => x.next
  | .rows _ _ g rows => if x.failed.isSome then (rows.getD x.next (0, 0)).1 else g

/-- The result element of a command (R288). -/
def Cmd.result (x : Cmd) (canc : Bool) : Word :=
  let (stat, cause) := x.failed.getD (0, 0)
  place x.ticket.toNat 48 ||| place (hartInCore x.hart).toNat 46 ||| place stat.toNat 43 ||| place (bitNat x.oob) 42 |||
    place (bitNat x.part) 41 ||| place (bitNat x.clip) 40 ||| place (bitNat canc) 39 ||| place cause.toNat 29 |||
    BitVec.ofNat 64 (x.elem % 2 ^ 29)

/-- A slot after one of its copies has completed (R284). -/
def Slot.copyDone (x : Slot) : Slot :=
  if x.copies == 1 then { x with copies := 0, kr := x.maxKr, n := x.maxN, kc := 0, st := .ready }
  else { x with copies := x.copies - 1 }

/-- The head command of a core completes (R287): post, result, slot, and the node it ran. -/
def State.completeCmd (s : State) (c : CoreId) (x : Cmd) : State :=
  let canc := x.failed.isSome && match x.node with
    | some n => !(nodeSuccs (((s.core c).nodes.getD n.toNat {}).desc.getD [])).isEmpty
    | none => false
  let k := s.core c
  let k := { k with cpyq := k.cpyq.drop 1, cres := if x.cmp.getLsbD 1 then k.cres ++ [x.result canc] else k.cres }
  let k := match x.kind with
    | .copy b _ =>
      let n := BitVec.ofNat 4 (blkCtl b 13 4)
      if blkToSlot b && !x.loose && (k.slot n).st == .filling && 0 < (k.slot n).copies && !x.src.isEmpty then
        k.setSlot n (k.slot n).copyDone
      else k
    | .rows _ _ _ _ => k
  let s := s.setCore c k
  let s := if x.cmp.getLsbD 0 then s.post c x.sem x.posted x.failed.isSome false else s
  match x.node with
  | some n => s.finishNode c n x.failed.isNone
  | none => s

/-- The Fife of a core ends its program (R277), and with it the node that started it. -/
def State.endFife (s : State) (c : CoreId) : State :=
  let k := s.core c
  let s := s.setCore c { k with fife := k.fife.free }
  match k.fife.node with
  | some n => (s.finishNode c n true).walker c
  | none => s.walker c

/-- The program of a Fife node is saved with its hart, which has left a place on the core or has yet to resume there (R310 to
R312). -/
def State.nodeSaved (s : State) (c : CoreId) (x : Node) (n : BitVec 8) : Bool :=
  match x.team.bind s.team with
  | some t => t.saved.any fun y => y.node == some n && (t.places[y.rank]?).any fun h => coreOf h == c
  | none => false

/-- Fife nodes whose program was ended by its owner's end finish (R202, R277, R294); not those whose program is saved. -/
def State.endedNodes (s : State) (c : CoreId) : State :=
  let k := s.core c
  k.nodes.foldl (fun s (n, x) =>
    let m := BitVec.ofNat 8 n
    if x.runs != 0 && nodeKind (x.desc.getD []) == 1 && k.fife.node != some m && !k.launch.any (·.node == m) &&
        !s.nodeSaved c x m then
      s.finishNode c m true
    else s) s

/-- COPY_COMPLETE (R287): the oldest command of a core completes once it has ended and its result has room; the walker
goes on. -/
def execCopyComplete (core : CoreId) (s : State) : Res :=
  let s := match (s.core core).cpyq with
    | [] => s
    | x :: _ =>
      if !x.ended || (x.cmp.getLsbD 1 && decide (64 ≤ (s.core core).cres.length)) then s else s.completeCmd core x
  .next ((s.endedNodes core).walker core)

/-! ### Starting and waiting for the Fife (R272, R277) -/

/-- `fgo` (R272). -/
def execFgo (a : SReg) (s : State) : Res :=
  let x := s.getS a
  let c := coreOf s.hart.pos
  let k := s.core c
  lateTests { word := encVec 0x21 0 a 0 31 0x07 } s <|
    if x = 0 then .next (if k.fife.heldBy s.hart.pos then s.endFife c else s).advance
    else
      trapIf (bits x 0 2 != 0) 0x080 x s <|
      trapIf (k.fife.st != .idle) 0x181 x s <|
        .next (s.setCore c { k with fife := k.fife.start s.hart x none (some s.hart.pos) }).advance

/-- `fwait` of a hart (R277). -/
def execFwait (s : State) : Res :=
  lateTests { word := encVec 0x21 0 0 0 31 0x08 } s <|
    if s.myCore.fife.heldBy s.hart.pos then .next (s.wait .fife) else .next s.advance

end Sys2Proof.Machine
end

