-- ==== Sys2Proof/Machine/Preempt.lean ====
section
/-! DEFINITION. What a team holds, its frames, and a request to pre-empt it (R187, R196, R309, R393). -/

namespace Sys2Proof.Machine

/-! ### The shape of a team (R187) -/

/-- The shape word of a record. -/
def shapeOf (rec : LaunchRec) : Word := wordAt rec 12
/-- Harts per core. -/
def shapeH (x : Word) : Nat := bits x 0 2 + 1
/-- Cores per quad. -/
def shapeC (x : Word) : Nat := bits x 2 2 + 1
/-- Quads per die. -/
def shapeQ (x : Word) : Nat := bits x 4 5 + 1
/-- Dies per package. -/
def shapeD (x : Word) : Nat := bits x 9 3 + 1
/-- Packages. -/
def shapeK (x : Word) : Nat := bits x 12 9 + 1
/-- Harts of a team. -/
def shapeSize (x : Word) : Nat := shapeH x * shapeC x * shapeQ x * shapeD x * shapeK x
/-- The core coordinate of a rank. -/
def coreCoord (x : Word) (rank : Nat) : Nat := rank / shapeH x
/-- The die coordinate of a rank. -/
def dieCoord (x : Word) (rank : Nat) : Nat := rank / (shapeH x * shapeC x * shapeQ x)

/-- The rank of a place in its launched team. -/
def Team.rankOf (t : Team) (h : HartId) : Nat := t.places.findIdx (· == h)

/-- A rank of the team holds its place: live, and in its hart context or about to come to it. -/
def Team.stands (t : Team) (rank : Nat) : Bool :=
  t.live.contains rank && (t.st == .placed || !t.saved.any fun x => x.rank == rank)

/-- Places that the team holds (R197). -/
def Team.holding (t : Team) : List HartId :=
  match t.st with
  | .placed | .running | .preempting =>
    (t.places.zip (List.range t.places.length)).filterMap fun (h, r) => if t.stands r then some h else none
  | .accepted | .chosen | .preempted | .completed => []

/-- The teams of the pod. -/
def State.teamList (s : State) : List Team := s.teams.map Prod.snd

/-- Teams that hold a place on a quad. -/
def State.teamsOn (s : State) (q : QuadId) : List Team :=
  s.teamList.filter fun t => t.holding.any fun h => quadOf (coreOf h) == q

/-! ### Frames (R309, R392, R393) -/

/-- Frames of a context's save region. -/
def State.framesOf (s : State) (p : PkgId) (a : Nat) : List Word :=
  (List.range (bits (s.ctxReg p a 16) 0 16)).map fun i =>
    (s.ctxReg p a 8 &&& 0xFFFFFFFFFFF00000) + BitVec.ofNat 64 (i * 2 ^ 20)

/-- Frames of a context's save region that no team holds. -/
def State.freeFrames (s : State) (p : PkgId) (a : BitVec 9) : List Word :=
  let used := (s.teamList.filter fun t => t.pkg == p && t.asid == a).flatMap fun t => t.frames.map Prod.snd
  (s.framesOf p a.toNat).filter fun f => !used.contains f

/-- Frames that a team needs: one for each live hart, one for each core that it occupies (R393). -/
def Team.framesNeeded (t : Team) : Nat := t.live.length + (t.holding.map coreOf).eraseDups.length

/-- The team's context has the frames that its pre-emption needs. -/
def State.canPreempt (s : State) (t : Team) : Bool :=
  decide (t.framesNeeded ≤ (s.freeFrames t.pkg t.asid).length)

/-- A request to pre-empt a running team (R309, R393): PRQ and `psa` at every live hart, and a frame for each core. A hart
for which the context has no frame left gets 0. A team that has not started yet is asked at its start (R306). -/
def State.requestPreempt (s : State) (t : TeamId) : State :=
  match s.team t with
  | none => s
  | some x =>
    if x.st == .placed then s.setTeam { x with asked := true }
    else if x.st != .running then s
    else
      let cores := (x.holding.map coreOf).eraseDups.map fun c => 2 ^ 21 + c.toNat
      let frames := (x.live ++ cores).zip (s.freeFrames x.pkg x.asid)
      let s := s.setTeam { x with st := .preempting, frames := frames }
      x.live.foldl (fun s r =>
        match x.places[r]? with
        | none => s
        | some h =>
          let y := s.hartAt h
          if y.placed && y.team == t then
            s.putHart { y with prq := true, psa := (frames.find? fun f => f.1 == r).elim 0 Prod.snd }
          else s) s

end Sys2Proof.Machine
end

