-- ==== Sys2Proof/Machine/Grant.lean ====
section
/-! DEFINITION. Lane shares, grants and grant points (R26, R107, R183, R184). -/

namespace Sys2Proof.Machine

/-- Lane weight of a placed hart (R190). -/
def State.weight (s : State) (h : Hart) : Nat :=
  match s.team h.team with
  | some t => t.ctl 0 4
  | none => 1

/-- One more lane group, to the hart with the greatest WT / (L + 1); ties to the lower number (R183). The list holds
number, weight and share by rising number. -/
def giveLane (xs : List (Nat × Nat × Nat)) : List (Nat × Nat × Nat) :=
  match xs with
  | [] => []
  | x :: rest =>
    let best := rest.foldl (fun b y => if b.2.1 * (y.2.2 + 1) < y.2.1 * (b.2.2 + 1) then y else b) x
    xs.map fun y => if y.1 == best.1 then (y.1, y.2.1, y.2.2 + 1) else y

/-- Number and weight of the harts that teams placed and not yet started have on a core (R183, R197). -/
def State.comingOn (s : State) (c : CoreId) : List (Nat × Nat) :=
  s.teams.flatMap fun (_, t) => (t.coming.filter fun h => coreOf h == c).map fun h => ((hartInCore h).toNat, t.ctl 0 4)

/-- The shares of the harts placed on a core, by hart number (R183). -/
def State.shares (s : State) (c : CoreId) : List (Nat × Nat × Nat) :=
  let here := (s.hartsOn c).map fun h => ((hartInCore h.pos).toNat, s.weight h)
  let xs := (List.range 4).filterMap fun n =>
    ((here ++ s.comingOn c).find? fun x => x.1 == n).map fun x => (n, x.2, 1)
  forUpTo (4 - xs.length) (fun _ ys => giveLane ys) xs

/-- The share of a hart in lane groups. -/
def State.share (s : State) (h : HartId) : Nat :=
  match (s.shares (coreOf h)).find? fun x => x.1 == (hartInCore h).toNat with
  | some x => x.2.2
  | none => 1

/-- The length that `Grant(n)` gives (R107). -/
def State.grantLength (s : State) (n : Word) : Nat :=
  let max := s.vtype.vlmax
  let share := s.share s.hart.pos
  if bit s.hart.vty 19 || decide (s.hart.sg ≤ share) then min n.toNat max else min n.toNat (max * share / 4)

/-- A grant: `vl` set, the share recorded as SG (R184). -/
def State.grant (s : State) (n : Word) : State :=
  { s with hart := { s.hart with vl := BitVec.ofNat 12 (s.grantLength n), sg := s.share s.hart.pos } }

/-- After a grant point each vector and predicate register holds its value or zeros: free values (R26). -/
def State.deaden (s : State) : State :=
  let h := s.hart
  { s with
    free := s.free + 56
    hart := { h with
      v := Vector.ofFn fun i : Fin 32 => if Config.deadKeeps (s.free + i.val) then h.v[i] else 0
      p := Vector.ofFn fun i : Fin 24 => if Config.deadKeeps (s.free + 32 + i.val) then h.p[i] else 0 } }

/-- A digit link is occupied. -/
def Hart.liveLink (h : Hart) : Bool := h.dl.any Option.isSome

/-- The checks of a grant point: 0x200, then 0x340 while a pre-emption request is pending in program state (R26, R89,
R106, R203, R310). `setvl` and `smine` wait until every non-blocking access has posted (R165). -/
def grantPoint (s : State) (k : Res) : Res :=
  trapIf s.hart.liveLink 0x200 0 s <|
  trapIf (s.hart.prq && !s.hart.hs) 0x340 0 s k

end Sys2Proof.Machine
end

