-- ==== Sys2Proof/Machine/Control.lean ====
section
/-! DEFINITION. Control transfer, strip-mining, zero-overhead loops, lengths and types: majors 0x0C to 0x10 and 0x13,
`settl` apart (R88 to R94, R106 to R108). -/

namespace Sys2Proof.Machine

/-- The word at `pc` is in the body of an active loop (R94). -/
def Hart.inBody (h : Hart) : Bool :=
  h.zol.act && decide ((h.pc - h.zol.zlb).toNat ≤ 4 * h.zol.len.toNat)

/-- A control transfer in an active body traps with 0x007 before any effect (R94). -/
def transfer (word : BitVec 32) (s : State) (k : Res) : Res := trapIf s.hart.inBody 0x007 (wordVal word) s k

/-- A conditional branch (R88): the word, its offset and whether it is taken. -/
def branch (cn : BitVec 3) (d a : SReg) (o : BitVec 13) (taken : Bool) (s : State) : Res :=
  transfer (encMem 0x0C d a cn o) s <|
    if taken then .next (s.jump (s.hart.pc + o.signExtend 64 * 4)) else .next s.advance

/-- `beq` (R88). -/
def execBeq (d a : SReg) (o : BitVec 13) (s : State) : Res := branch 0 d a o (s.getS d == s.getS a) s
/-- `bne` (R88). -/
def execBne (d a : SReg) (o : BitVec 13) (s : State) : Res := branch 1 d a o (s.getS d != s.getS a) s
/-- `blt` (R88): signed. -/
def execBlt (d a : SReg) (o : BitVec 13) (s : State) : Res := branch 2 d a o ((s.getS d).slt (s.getS a)) s
/-- `bge` (R88): signed. -/
def execBge (d a : SReg) (o : BitVec 13) (s : State) : Res := branch 3 d a o (!(s.getS d).slt (s.getS a)) s
/-- `bltn` (R88): unsigned. -/
def execBltn (d a : SReg) (o : BitVec 13) (s : State) : Res := branch 4 d a o ((s.getS d).ult (s.getS a)) s
/-- `bgen` (R88): unsigned. -/
def execBgen (d a : SReg) (o : BitVec 13) (s : State) : Res := branch 5 d a o (!(s.getS d).ult (s.getS a)) s

/-- `jal` (R88). -/
def execJal (d : SReg) (o : BitVec 21) (s : State) : Res :=
  transfer (encJump 0x0D d o) s <|
    .next ((s.setS d (s.hart.pc + 4)).jump (s.hart.pc + o.signExtend 64 * 4))

/-- `jalr` (R88): the target is a byte address; 0x080 leaves `s[D]` unchanged. -/
def execJalr (d a : SReg) (i : BitVec 16) (s : State) : Res :=
  let t := s.getS a + i.signExtend 64
  transfer (encImm 0x0E d a i) s <|
  trapIf (bits t 0 2 != 0) 0x080 t s <|
    .next ((s.setS d (s.hart.pc + 4)).jump t)

/-- Bytes of the granted elements, companion bytes apart (R89). -/
def State.stripBytesOf (s : State) : Word := BitVec.ofNat 64 (ceilDiv (s.hart.vl.toNat * s.vtype.ew) 8)

/-- `smine` (R89, R90): a grant point; the count is read before the pointers advance, and written after them. -/
def execSmine (d a : SReg) (n : BitVec 3) (o : BitVec 13) (s : State) : Res :=
  let word := encMem 0x0F d a n o
  trapIf (bit s.hart.vty 63) 0x040 (wordVal word) s <|
  transfer word s <|
  if !s.hart.nb.isEmpty then .next (s.wait .interlock) else
  grantPoint s <|
    let c := s.getS d
    let vl : Word := s.hart.vl.setWidth 64
    let bytes := s.stripBytesOf
    let s := s.deaden
    let s := forUpTo n.toNat (fun j s => let r := a + BitVec.ofNat 5 j; s.setS r (s.getS r + bytes)) s
    let left := if vl.ule c then c - vl else 0
    let s := s.setS d left
    if s.getS d != 0 then .next ((s.grant (s.getS d)).jump (s.hart.pc + o.signExtend 64 * 4))
    else .next { s with hart := { s.hart with vl := 0 } }.advance

/-- A nest record is malformed (R91); its reserved fields are no part of the list. -/
def nestMalformed (rec : List Word) : Bool :=
  let w0 := wordAt rec 0
  let nd := bits w0 0 3
  let pr := bits w0 3 5
  let np := bits w0 8 3
  nd == 0 || nd == 7 || decide (4 < np) || (decide (1 ≤ np) && (pr == 0 || decide (32 < pr + np))) ||
    ((rec.drop 1).take nd).any (fun w => bits w 0 32 == 0) || ((rec.drop (1 + nd)).take (6 - nd)).any (· != 0) ||
    decide (2 ^ 48 - 1 < (nestCounts rec).foldl (· * ·) 1)

/-- `zol` (R91 to R93). -/
def execZol (a : SReg) (l : BitVec 5) (s : State) : Res :=
  let r := s.getS a
  trapIf s.hart.zol.act 0x007 (wordVal (encReg 0x10 0 a l 0)) s <|
  trapIf (bits r 0 6 != 0) 0x082 r s <|
  readRecord r 64 s fun rec s =>
  trapIf (nestMalformed rec) 0x046 r s <|
    .next { s with hart := { s.hart with
      run := .running, pc := s.hart.pc + 4, front := s.hart.front.passed
      zol := { zlr := r, zlb := s.hart.pc + 4, act := true, sav := false, len := l, pass := 0, nest := rec } } }

/-- `setvl` (R106): a grant point, exempt from test 8 of R52; under ILL the length is 0. -/
def execSetvl (d a : SReg) (s : State) : Res :=
  if !s.hart.nb.isEmpty then .next (s.wait .interlock) else
  grantPoint s <|
    let n := s.getS a
    let s := s.deaden
    let s := if bit s.hart.vty 63 then { s with hart := { s.hart with vl := 0 } } else s.grant n
    .next (s.setS d (s.hart.vl.setWidth 64)).retireV

/-- `setvt` (R108): `vty` under R15, and its value to `s[D]`. -/
def execSetvt (d a : SReg) (s : State) : Res :=
  let x := vtyWrite (s.getS a)
  .next ({ s with hart := { s.hart with vty := x } }.setS d x).retireV

end Sys2Proof.Machine
end

