-- ==== Sys2Proof/Machine/System.lean ====
section
/-! DEFINITION. CSRs and the system words of major 0x12, context words and `flow` apart (R97 to R103, R299 to R302). -/

namespace Sys2Proof.Machine

/-! ### CSR values (R12, R17, R92, R188, R271, R299, R300, R414) -/

/-- `zls` (R92). -/
def Zol.status (z : Zol) : Word :=
  place (bitNat z.act) 63 ||| place (bitNat z.sav) 62 ||| place z.len.toNat 48 ||| z.pass.setWidth 64

/-- The loop state with `zls` written (R92). The hart's copy of the nest record stays, and nothing is read: which record
governs a loop that a handler activates so is not stated (log entry 39). -/
def Zol.setStatus (z : Zol) (x : Word) : Zol :=
  { z with act := bit x 63, sav := bit x 62, len := x.extractLsb' 48 5, pass := x.extractLsb' 0 48 }

/-- `tsr` (R300). -/
def Hart.tsr (h : Hart) : Word :=
  place (bitNat (h.pending.any Pending.machine)) 7 ||| place (bitNat h.prq) 6 |||
  place (bitNat (h.pending.any fun p => !p.machine)) 5 ||| place (bitNat h.nest) 4 ||| place (bitNat h.asy) 3 |||
  place (bitNat h.phs) 1 ||| flag h.hs

/-- State of the Fife as `fst` codes it (R271). -/
def FifeSt.code : FifeSt → Nat
  | .idle => 0
  | .running => 1
  | .paused => 2
  | .faulted => 3

/-- `fst` as its owner reads it (R271). -/
def Fife.status (f : Fife) : Word :=
  place f.st.code 62 ||| place f.owner.toNat 60 ||| place (bitNat f.rerr) 59 ||| f.cause.setWidth 64

/-- `htm` (R188). -/
def Hart.htm (h : Hart) : Word := place h.depth.toNat 32 ||| h.team.setWidth 64

/-- The heat class of a hart's team (R414). -/
def State.heat (s : State) : Nat := match s.team s.hart.team with
  | some t => t.hc.toNat
  | none => 0

/-- `flw`: ST and REQ of the hart, HC of its team (R414). -/
def State.flw (s : State) : Word := (s.hart.flw &&& 0xC000000000000F00) ||| BitVec.ofNat 64 s.heat

/-- A 64-bit word of the fault mask: `fmK` (R12). -/
def Hart.fmWord (h : Hart) (k : BitVec 5) : Word := h.fm.extractLsb' (64 * k.toNat) 64

/-- A word of the fault mask written. -/
def Hart.setFmWord (h : Hart) (k : BitVec 5) (x : Word) : Hart :=
  let o := 64 * k.toNat
  { h with fm := (h.fm &&& ~~~((0xFFFFFFFFFFFFFFFF : PredBits) <<< o)) ||| x.setWidth 2048 <<< o }

/-- The value of a CSR. `tick` reads the pod time base as it stands. A hart that does not hold the Fife reads STATE as
0 (R271). -/
def State.readCsr (s : State) (c : Csr) : Word :=
  let h := s.hart
  let f := s.myCore.fife
  match c with
  | .vl => h.vl.setWidth 64
  | .vty => h.vty
  | .vix => h.vix.setWidth 64
  | .fcsr => h.fcsr.setWidth 64
  | .xlm => h.xlm
  | .rerr => h.rerr
  | .fthr => h.fthr.setWidth 64
  | .zlr => h.zol.zlr
  | .zlb => h.zol.zlb
  | .zls => h.zol.status
  | .tick => s.now
  | .flw => s.flw
  | .hrk => h.hrk
  | .htm => h.htm
  | .hpos => h.pos.setWidth 64
  | .qmap => h.qmap.setWidth 64
  | .fst => if f.heldBy h.pos then f.status else f.status &&& 0x3FFFFFFFFFFFFFFF
  | .fpc => f.fpc
  | .fva => f.fva
  | .tcause => h.tcause.setWidth 64
  | .tval => h.tval
  | .tepc => h.tepc
  | .tvec => h.tvec
  | .tsr => h.tsr
  | .tscr => h.tscr
  | .psa => h.psa
  | .fm k => h.fmWord k

/-- CSRs whose writes trap with 0x101 in program state (R97, R271, R299). -/
def csrGuarded : Csr → Bool
  | .zlr | .zlb | .zls | .tepc | .tcause | .tval | .tvec | .tsr | .tscr | .fst | .fpc | .fva => true
  | .vl | .vty | .vix | .fcsr | .xlm | .rerr | .fthr | .tick | .flw | .hrk | .htm | .hpos | .qmap | .psa | .fm _ => false

/-- `fst` written by a hart: STATE 3 to 2, RERR by W1C, only by the owner (R271). -/
def Fife.writeStatus (f : Fife) (x : Word) : Fife :=
  { f with
    rerr := f.rerr && !bit x 59
    st := match f.st with
      | .faulted => if bits x 62 2 == 2 then .paused else .faulted
      | .idle | .running | .paused => f.st }

/-- `fpc` written by a hart, while STATE is 2 or 3 (R271). -/
def Fife.writePc (f : Fife) (x : Word) : Fife :=
  match f.st with
  | .paused | .faulted => { f with fpc := x &&& ~~~3 }
  | .idle | .running => f

/-- A CSR written: reserved and read-only fields ignore the value (R7, R12, R98). -/
def State.writeCsr (s : State) (c : Csr) (x : Word) : State :=
  let h := s.hart
  match c with
  | .vty => { s with hart := { h with vty := vtyWrite x } }
  | .vix => { s with hart := { h with vix := x.extractLsb' 0 11 } }
  | .fcsr => { s with hart := { h with fcsr := x.extractLsb' 0 11 &&& 0x71F } }
  | .xlm => { s with hart := { h with xlm := xlmWrite x } }
  | .rerr => { s with hart := { h with rerr := x } }
  | .fthr => { s with hart := { h with fthr := x.extractLsb' 0 20 } }
  | .zlr => { s with hart := { h with zol := { h.zol with zlr := x } } }
  | .zlb => { s with hart := { h with zol := { h.zol with zlb := x &&& ~~~3 } } }
  | .zls => { s with hart := { h with zol := h.zol.setStatus x } }
  | .qmap => { s with hart := { h with qmap := x.extractLsb' 0 32 &&& 0x9F9F9F9F } }
  | .fst => s.onFife fun f => f.writeStatus x
  | .fpc => s.onFife fun f => f.writePc x
  | .tcause => { s with hart := { h with tcause := x.extractLsb' 0 10 } }
  | .tval => { s with hart := { h with tval := x } }
  | .tepc => { s with hart := { h with tepc := x &&& ~~~3 } }
  | .tvec => { s with hart := { h with tvec := x &&& ~~~3 } }
  | .tsr => { s with hart := { h with nest := bit x 4, asy := bit x 3, phs := bit x 1 } }
  | .tscr => { s with hart := { h with tscr := x } }
  | .fm k => { s with hart := h.setFmWord k x }
  | .vl | .tick | .flw | .hrk | .htm | .hpos | .fva | .psa => s

/-- The pod time base advances by a free number of ticks before it is read, and never steps backward (R103, R344). -/
def State.passTime (s : State) : State :=
  (s.toTick (BitVec.ofNat 64 (min (s.now.toNat + Config.ticksElapsed s.free) (2 ^ 64 - 1)))).take

/-- The word of a CSR form or another system word: the function stands where A does (R61). -/
def sysWord (d : SReg) (f : BitVec 5) (i : BitVec 16) : BitVec 32 := encImm 0x12 d f i

/-- A CSR write word: 0x101 where R97 guards the CSR, then the write. One that a handler stands at the end of the body of
the loop it activates counts its own retirement under the loop state it has written: R98 and R93 do not say (log entry 39). -/
def csrWord (f d : BitVec 5) (c : Csr) (x : Word) (s : State) : Res :=
  trapIf (csrGuarded c && !s.hart.hs) 0x101 (wordVal (sysWord d f c.num)) s <|
    .next (s.writeCsr c x).advance

/-- `csrr` (R98, R99). -/
def execCsrr (d : SReg) (c : Csr) (s : State) : Res :=
  let s := match c with
    | .tick => s.passTime
    | _ => s
  .next (s.setS d (s.readCsr c)).advance

/-- `csrw` (R98). -/
def execCsrw (d : SReg) (c : Csr) (s : State) : Res := csrWord 1 d c (s.getS d) s
/-- `csrs` (R98). -/
def execCsrs (d : SReg) (c : Csr) (s : State) : Res := csrWord 2 d c (s.readCsr c ||| s.getS d) s
/-- `csrc` (R98). -/
def execCsrc (d : SReg) (c : Csr) (s : State) : Res := csrWord 3 d c (s.readCsr c &&& ~~~(s.getS d)) s

/-! ### System words -/

/-- `sys` (R100): retires, then traps at the `pc` that follows. -/
def execSys (n : BitVec 16) (s : State) : Res := let t := s.advance; .next (t.trap 0x3C0 (n.setWidth 64))

/-- `bkpt` (R100). -/
def execBkpt (n : BitVec 16) (s : State) : Res := let t := s.advance; .next (t.trap 0x3C1 (n.setWidth 64))

/-- The nest record read again when `eret` activates a loop (R94): a failure traps at the resumed word. -/
def rejoinLoop (s : State) : Res :=
  if s.hart.zol.act then
    let r := s.hart.zol.zlr
    trapIf (bits r 0 6 != 0) 0x082 r s <|
    readRecord r 64 s fun rec s =>
    trapIf (nestMalformed rec) 0x046 r s <|
      .next { s with hart := { s.hart with zol := { s.hart.zol with nest := rec } } }
  else .next s

/-- Execution goes on after a return: a pending cause is taken at the first point (R303), or else the nest record of an
active loop is read again (R302). -/
def State.resume (s : State) : Res :=
  match s.hart.nextPending with
  | some p => .next (s.takePending p)
  | none => rejoinLoop s

/-- `eret` (R101, R302): handler state only. -/
def execEret (s : State) : Res := handlerOnly (sysWord 0 6 0) s s.leave.resume

/-- `wfi` (R101): it may retire at once. -/
def execWfi (s : State) : Res := .next s.advance

/-- `fence` (R102): the hart's accesses are performed in program order here. Those made for an engine command are not: a
fence whose kinds include `eng` waits until the commands that the hart has pushed, Fife programs among them, have performed
theirs. -/
def execFence (k : BitVec 7) (_sc : Scope) (s : State) : Res :=
  if k.getLsbD 5 && k.extractLsb' 0 4 != 0 && s.engineBusy s.hart.pos then .next (s.wait .fence) else .next s.advance

/-- `tick` (R103, R344). -/
def execTick (d : SReg) (s : State) : Res := let s := s.passTime; .next (s.setS d s.now).advance

/-- The lane TLB banks of the executing core with entries removed (R103). -/
def State.dropTlb (s : State) (gone : TlbEntry → Bool) : State :=
  let c := s.myCore
  s.setMyCore { c with tlb := (c.tlb.map fun b => (b.1, b.2.filter fun t => !gone t)) }

/-- An outstanding non-blocking access of the core has elements that the lane TLB has translated (R165, R236). -/
def State.usesTlb (s : State) (c : CoreId) : Bool :=
  let far := fun (h : Hart) => h.nb.any fun x => x.items.any fun i => i.2.isSome
  ((s.hartsOn c).any far) || (s.core c).orphans.any far

/-- `tlbi`, in handler state: it retires only when no access that used a removed entry is outstanding (R103). Which entry an
access used is not kept, so that any access the banks have translated is waited for. -/
def tlbiWord (d : SReg) (kind : BitVec 16) (gone : TlbEntry → Bool) (s : State) : Res :=
  handlerOnly (sysWord d 10 kind) s <|
    if s.usesTlb (coreOf s.hart.pos) then .next (s.wait .interlock) else .next (s.dropTlb gone).advance

/-- An entry maps the page that holds an address of the core's own die (R103, R236). -/
def TlbEntry.holds (t : TlbEntry) (own : DieId) (a : Word) : Bool :=
  aDieId a == own && (spaceOf a).bind Space.index == some t.unit && t.page == aOff a / pageBytes t.level

/-- `tlbi page` (R103). -/
def execTlbiPage (d : SReg) (s : State) : Res :=
  tlbiWord d 0 (fun t => t.holds (dieOf s.hart.pos) (s.getS d)) s

/-- `tlbi asid` (R103). -/
def execTlbiAsid (d : SReg) (s : State) : Res :=
  tlbiWord d 1 (fun t => t.asid == (s.getS d).extractLsb' 0 9) s

/-- `tlbi all` (R103). -/
def execTlbiAll (d : SReg) (s : State) : Res := tlbiWord d 2 (fun _ => true) s

/-- `ifl` (R103, R22). -/
def execIfl (s : State) : Res := .next { s with hart := { s.hart with ibuf := [] } }.advance

end Sys2Proof.Machine
end

