-- ==== Sys2Proof/Machine/Context.lean ====
section
/-! DEFINITION. Context images: the layout, `ctxsv` and `ctxld` (R313 to R317). -/

namespace Sys2Proof.Machine

/-! ### The image as 64-bit words (R314) -/

/-- Words with zeros after them, up to `n` in all. -/
def padTo (n : Nat) (ws : List Word) : List Word := ws ++ List.replicate (n - ws.length) 0

/-- Words with zeros after them, up to the next multiple of 256 bytes. -/
def padSection (ws : List Word) : List Word := padTo (alignUp ws.length 32) ws

/-- The words of a bit string, the least significant first. -/
def bitWords {w : Nat} (n : Nat) (x : BitVec w) : List Word := (List.range n).map fun i => x.extractLsb' (64 * i) 64

/-- The number that words spell, the least significant first. -/
def wordsNat (ws : List Word) : Nat := ws.foldr (fun w n => w.toNat + 2 ^ 64 * n) 0

/-- `n` words from position `o`. -/
def sliceWords (ws : List Word) (o n : Nat) : List Word := (ws.drop o).take n

/-- The 19 CSR words of the header. -/
def State.csrWords (s : State) : List Word :=
  let h := s.hart
  [h.vl.setWidth 64, h.vty, h.vix.setWidth 64, h.fcsr.setWidth 64, h.xlm, h.qmap.setWidth 64, h.zol.zlr, h.zol.zlb,
   h.zol.status, h.tepc, h.tcause.setWidth 64, h.tval, h.tsr, h.tscr, h.tvec, h.rerr, h.fthr.setWidth 64, s.flw,
   BitVec.ofNat 64 h.sg]

/-- Bits of each CSR word that are not reserved (R12, R17, R92, R184, R299, R300, R414). -/
def csrMasks : List Word :=
  [0xFFF, 0x80000000000FFFF8, 0x7FF, 0x71F, 0x80000000000FF7FF, 0x9F9F9F9F, 0xFFFFFFFFFFFFFFFF, 0xFFFFFFFFFFFFFFFC,
   0xC01FFFFFFFFFFFFF, 0xFFFFFFFFFFFFFFFC, 0x3FF, 0xFFFFFFFFFFFFFFFF, 0xFB, 0xFFFFFFFFFFFFFFFF, 0xFFFFFFFFFFFFFFFC,
   0xFFFFFFFFFFFFFFFF, 0xFFFFF, 0xC000000000000F0F, 7]

/-- Section QUE: counts, then the scalar queues, then the vector queues, oldest first. -/
def Hart.queWords (h : Hart) : List Word :=
  padTo 128 ((h.vq.toList.map fun q => BitVec.ofNat 64 q.length) ++ (h.sq.toList.map fun q => BitVec.ofNat 64 q.length) ++
    h.sq.toList.flatMap fun q => padTo 16 q) ++
  h.vq.toList.flatMap fun q => padTo 512 (q.flatMap (bitWords 128))

/-- The queues of an image. -/
def Hart.setQue (h : Hart) (ws : List Word) : Hart :=
  let count := fun k => (wordAt ws k).toNat
  { h with
    vq := Vector.ofFn fun (k : Fin 4) => (List.range (min 4 (count k.val))).map fun j =>
      BitVec.ofNat 8192 (wordsNat (sliceWords ws (128 + 512 * k.val + 128 * j) 128))
    sq := Vector.ofFn fun (k : Fin 4) => sliceWords ws (8 + 16 * k.val) (min 16 (count (4 + k.val))) }

/-- One record of section BIND. -/
def bindingWords (b : Option Binding) : List Word :=
  padTo 8 (match b with
    | none => []
    | some b =>
      [place 1 63 ||| place b.ew.toNat 16 ||| place b.fmt.toNat 12 ||| place b.gf.toNat 8 ||| b.reg.setWidth 64,
       b.base, b.stride, b.sbase,
       place b.count.toNat 40 ||| place b.sstride.toNat 16 ||| place (bitNat b.planar) 8 ||| b.dfmt.setWidth 64])

/-- A record of section BIND; an inactive one is none. Strips read ahead are read again. -/
def bindingOf (ws : List Word) : Option Binding :=
  let w0 := wordAt ws 0
  let w4 := wordAt ws 4
  if bit w0 63 then
    some { reg := w0.extractLsb' 0 5, gf := w0.extractLsb' 8 2, fmt := w0.extractLsb' 12 4, ew := w0.extractLsb' 16 3
           base := wordAt ws 1, stride := wordAt ws 2, sbase := wordAt ws 3, sstride := w4.extractLsb' 16 24
           count := w4.extractLsb' 40 24, planar := bit w4 8, dfmt := w4.extractLsb' 0 4, ahead := [] }
  else none

/-- Section BIND. -/
def Hart.bindWords (h : Hart) : List Word := h.b.toList.flatMap bindingWords

/-- The bindings of an image. -/
def Hart.setBind (h : Hart) (ws : List Word) : Hart :=
  { h with b := Vector.ofFn fun (k : Fin 8) => bindingOf (sliceWords ws (8 * k.val) 8) }

/-- Reserved bits and bytes of section BIND are zero. -/
def bindClean (ws : List Word) : Bool :=
  (List.range 8).all fun k =>
    let r := sliceWords ws (8 * k) 8
    wordAt r 0 &&& 0x7FFFFFFFFFF80CE0 == 0 && wordAt r 4 &&& 0xFEF0 == 0 && (r.drop 5).all (· == 0)

/-- Section FIFE. -/
def Fife.words (f : Fife) : List Word :=
  padTo 64 (f.s.toList ++ [f.fpc, f.vty, f.vl.setWidth 64, f.zol.zlr, f.zol.zlb, f.zol.status, f.status, f.fva])

/-- The Fife of an image, held by a hart of the core: paused (R316). A node whose program the hart's Fife runs stays the
one it runs (R317). -/
def Fife.load (f : Fife) (owner : BitVec 2) (ws : List Word) : Fife :=
  let w := fun i => wordAt ws (32 + i)
  { f with
    st := .paused, owner := owner, rerr := bit (w 6) 59, cause := (w 6).extractLsb' 0 10, fpc := w 0, fva := w 7
    s := Vector.ofFn fun (k : Fin 32) => if k.val = 0 then 0 else wordAt ws k.val
    vty := if w 1 == vtyIllegal then vtyIllegal else vtyWrite (w 1), vl := (w 2).extractLsb' 0 12
    zol := ({ zlr := w 3, zlb := w 4 : Zol }).setStatus (w 5), wait := none
    node := if f.st != .idle && f.owner == owner then f.node else none }

/-- Reserved bits and bytes of section FIFE are zero. -/
def fifeClean (ws : List Word) : Bool :=
  let masks : List Word := [0xFFFFFFFFFFFFFFFC, 0x80000000000FFFF8, 0xFFF, 0xFFFFFFFFFFFFFFFF, 0xFFFFFFFFFFFFFFFC,
    0xC01FFFFFFFFFFFFF, 0xF8000000000003FF, 0xFFFFFFFFFFFFFFFF]
  (masks.zip (ws.drop 32)).all (fun (m, w) => w &&& ~~~m == 0) && (ws.drop 40).all (· == 0)

/-- The image of a link element (R315). -/
def LinkElem.words : LinkElem → List Word
  | .unproduced => [0, 0]
  | .final x => [x, 1]
  | .consumed => [0, 2]

/-- A block of section LINK. -/
def linkWords (n : Nat) (l : Link) : List Word :=
  padSection (padTo 32 [BitVec.ofNat 64 n, place l.ew.toNat 16 ||| place l.fmt.toNat 12 ||| l.vl.setWidth 64] ++
    l.elems.flatMap LinkElem.words)

/-- The link of a block, whose producer no image names (R315). -/
def linkOf (ws : List Word) : Link :=
  let sh := wordAt ws 1
  let vl : BitVec 12 := sh.extractLsb' 0 12
  { vl := vl, fmt := sh.extractLsb' 12 4, ew := sh.extractLsb' 16 3, pc := none
    elems := (List.range vl.toNat).map fun i =>
      match (wordAt ws (33 + 2 * i)).toNat with
      | 1 => LinkElem.final (wordAt ws (32 + 2 * i))
      | 2 => .consumed
      | _ => .unproduced }

/-- The code of a slot state in an image. -/
def SlotSt.code : SlotSt → Nat
  | .empty => 0
  | .filling => 1
  | .ready => 2

/-- Bytes from offset 0 of a sparse store, as words. -/
def storeWords (n : Nat) (m : List Host.Cell) : List Word :=
  (List.range n).map fun i => BitVec.ofNat 64 (bytesToNat ((List.range 8).map fun j => memGet m (8 * i + j)))

/-- A sparse store from its words. -/
def storeOf (ws : List Word) : List Host.Cell :=
  let bs := ws.flatMap fun w => natToBytes 8 w.toNat
  ((List.range bs.length).zip bs).filter fun c => c.2 != emptyByte

/-- A block of section SLOT. -/
def slotWords (n : Nat) (x : Slot) : List Word :=
  padTo 32 [BitVec.ofNat 64 n, BitVec.ofNat 64 x.st.code, x.fmt.setWidth 64, x.ew.setWidth 64, BitVec.ofNat 64 x.kr,
    BitVec.ofNat 64 x.n, BitVec.ofNat 64 x.kc] ++ storeWords 2048 x.codes ++ storeWords 256 x.side

/-- The slot of a block, held by a hart. The copies into it that the hart has issued go on, and ready it with the extents that
they reach (R170, R284): `y` is the slot as it stands, and it fills while a copy into it is outstanding (log entry 40). -/
def slotOf (own : HartId) (y : Slot) (ws : List Word) : Slot :=
  let w := fun i => (wordAt ws i).toNat
  let out := y.own == some own && decide (0 < y.copies)
  { own := some own
    st := if out then .filling else match w 1 with
      | 1 => .filling
      | 2 => .ready
      | _ => .empty
    fmt := BitVec.ofNat 4 (w 2), ew := BitVec.ofNat 3 (w 3), kr := w 4, n := w 5, kc := w 6
    codes := storeOf (sliceWords ws 32 2048), side := storeOf (sliceWords ws 2080 256)
    copies := if out then y.copies else 0
    maxKr := if out then y.maxKr else w 4
    maxN := if out then y.maxN else w 5 }

/-- The fields of a block of section SLOT hold assigned values. -/
def slotClean (ws : List Word) : Bool :=
  let w := fun i => (wordAt ws i).toNat
  decide (w 1 ≤ 2) && decide (w 2 ≤ 11) && decide (w 3 ≤ 4) && decide (w 4 ≤ 512) && decide (w 5 ≤ 64) &&
    decide (w 6 ≤ 512) && (sliceWords ws 7 25).all (· == 0)

/-- A block of section ACC. -/
def tileWords (n : Nat) (x : Tile) : List Word :=
  padTo 32 [BitVec.ofNat 64 n] ++ (List.range 2048).flatMap fun e => bitWords 2 (x.entry e).image

/-- The entries of a block of section ACC, by number; none for one that R48 turns away. -/
def tileEntries (ws : List Word) : List (Nat × Option AccEntry) :=
  (List.range 2048).map fun e => (e, entryOfImage (BitVec.ofNat 128 (wordsNat (sliceWords ws (32 + 2 * e) 2))))

/-- The tile of a block, held by a hart. -/
def tileOf (own : HartId) (ws : List Word) : Tile :=
  { own := some own
    entries := (tileEntries ws).filterMap fun (e, x) => match x with
      | some y => if y = {} then none else some (e, y)
      | none => none }

/-- A copy of a nest record in a synchronisation block: whether there is one, and its eight words. -/
def nestWords (nest : List Word) : List Word := padTo 9 (if nest.isEmpty then [] else 1 :: nest)

/-- The copy of a nest record that a synchronisation block holds from a word on. -/
def nestOf (ws : List Word) (o : Nat) : List Word := if wordAt ws o == 1 then sliceWords ws (o + 1) 8 else []

/-- The links that `dlfl` has emptied under an interrupted producer, in a synchronisation block. -/
def flushedWords (fs : List Flushed) : List Word :=
  padTo 16 (fs.flatMap fun f =>
    [place 1 63 ||| place (bitNat f.pc.isSome) 62 ||| place f.num.toNat 40 ||| place f.next.toNat 24 ||| place f.ew.toNat 16 |||
      place f.fmt.toNat 12 ||| f.vl.setWidth 64, f.pc.getD 0])

/-- The emptied links that a synchronisation block holds from a word on. -/
def flushedOf (ws : List Word) (o : Nat) : List Flushed :=
  (List.range 8).filterMap fun i =>
    let w := wordAt ws (o + 2 * i)
    if bit w 63 then
      some { num := w.extractLsb' 40 3, vl := w.extractLsb' 0 12, fmt := w.extractLsb' 12 4, ew := w.extractLsb' 16 3
             pc := if bit w 62 then some (wordAt ws (o + 2 * i + 1)) else none, next := w.extractLsb' 24 11 }
    else none

/-- The front end's position in a synchronisation block: how far it is ahead, what is issued of the queued words of its
window, and the `flow` words that it has performed, as many as the block takes. -/
def frontWords (f : Front) : List Word :=
  BitVec.ofNat 64 f.ahead :: padTo 4 (f.issued.map fun x => BitVec.ofNat 64 (x.1 * 2 ^ 32 + x.2)) ++
    ((f.flows.take 200).flatMap fun x => [place 1 63 ||| BitVec.ofNat 64 x.1, x.2])

/-- The front end's position that a synchronisation block holds from a word on. -/
def frontOf (ws : List Word) (o : Nat) : Front :=
  { ahead := (wordAt ws o).toNat
    issued := ((sliceWords ws (o + 1) 4).filter (· != 0)).map fun x => (bits x 32 32, bits x 0 32)
    flows := (List.range 200).filterMap fun i =>
      let w := wordAt ws (o + 5 + 2 * i)
      if bit w 63 then some (bits w 0 63, wordAt ws (o + 6 + 2 * i)) else none }

/-- The synchronisation block of a hart: its `pc`, the state of its Fife, the copies of the nest records that the hart and
its Fife hold (R93), the links it has emptied (R128), its front end's position, and the check value (R314, log entry 30). -/
def syncWords (h : Hart) (f : Fife) : List Word :=
  let ws := padTo 511 ([h.pc, BitVec.ofNat 64 f.st.code] ++ nestWords h.zol.nest ++ nestWords f.zol.nest ++
    flushedWords h.flushed ++ frontWords h.front)
  ws ++ [Config.syncCheck (ws.flatMap fun w => natToBytes 8 w.toNat)]

/-- The check value of a synchronisation block is right. -/
def syncClean (ws : List Word) : Bool :=
  wordAt ws 511 == Config.syncCheck ((ws.take 511).flatMap fun w => natToBytes 8 w.toNat)

/-- Elements of a vector with their numbers. -/
def numbered {α : Type} {n : Nat} (v : Vector α n) : List (Nat × α) := (List.range n).zip v.toList

/-- The image of the hart whose turn it is, of a kind: 0 light, 1 full, 2 forced (R314). -/
def State.imageWords (s : State) (kind : Nat) : List Word :=
  let h := s.hart
  let c := s.myCore
  let me := h.pos
  let links := if kind == 0 then [] else (numbered h.dl).filterMap fun (n, l) => l.map (linkWords n)
  let slots := (numbered c.slots).filterMap fun (n, x) => if x.own == some me then some (slotWords n x) else none
  let tiles := (numbered c.tiles).filterMap fun (n, x) => if x.own == some me then some (tileWords n x) else none
  let when_ := fun (b : Bool) (ws : List Word) => if b then ws else []
  let sections : List (List Word) :=
    [when_ (kind != 0) (h.v.toList.flatMap (bitWords 128)), when_ (kind != 0) (h.p.toList.flatMap (bitWords 32)),
     h.queWords, h.bindWords, when_ (c.fife.heldBy me) c.fife.words, links.flatten, slots.flatten, tiles.flatten,
     when_ (!h.handles.isEmpty) (padSection (BitVec.ofNat 64 h.handles.length :: h.handles)),
     when_ (kind == 2) (syncWords h c.fife)]
  let sect := ((List.range 10).filter fun i => !(sections.getD i []).isEmpty).map (2 ^ ·)
  let body := sections.flatten
  padTo 128
    ([place sect.sum 32 ||| place kind 16 ||| 1, BitVec.ofNat 64 (1024 + 8 * body.length), Config.implCode,
      BitVec.ofNat 64 (links.length + 2 ^ 8 * slots.length + 2 ^ 16 * tiles.length)] ++
     (h.s.toList.drop 1) ++ s.csrWords ++ bitWords 32 h.fm) ++ body

/-! ### Reading an image (R316) -/

/-- An image taken apart: the header, and the sections by SECT bit, each as its blocks. -/
structure Image where
  head  : List Word
  parts : List (Nat × List (List Word))
  deriving DecidableEq, Repr

/-- KIND. -/
def Image.kind (x : Image) : Nat := bits (wordAt x.head 0) 16 2
/-- A section is present. -/
def Image.has (x : Image) (i : Nat) : Bool := bit (wordAt x.head 0) (32 + i)
/-- The blocks of a section; none where it is absent. -/
def Image.blocks (x : Image) (i : Nat) : List (List Word) := (Tab.find x.parts i).getD []
/-- The words of a section that has one block. -/
def Image.part (x : Image) (i : Nat) : List Word := (x.blocks i).flatten
/-- A CSR word of the header. -/
def Image.csr (x : Image) (i : Nat) : Word := wordAt x.head (35 + i)

/-- Words of the next block of a section: fixed, or from its own header. -/
def blockLength (i : Nat) (ws : List Word) : Nat :=
  match i with
  | 0 => 4096
  | 1 => 768
  | 2 => 2176
  | 3 => 64
  | 4 => 64
  | 5 => 32 + alignUp (2 * bits (wordAt ws 1) 0 12) 32
  | 6 => 2336
  | 7 => 4128
  | 8 => alignUp (1 + (wordAt ws 0).toNat) 32
  | _ => 512

/-- Blocks of a section cut off a run of words. -/
def cutBlocks (i : Nat) : Nat → List Word → Option (List (List Word) × List Word)
  | 0, ws => some ([], ws)
  | n + 1, ws =>
    let k := blockLength i ws
    if k ≤ ws.length then (cutBlocks i n (ws.drop k)).map fun (bs, rest) => (ws.take k :: bs, rest) else none

/-- Blocks that a section present in SECT holds. -/
def blockCount (cnt : Word) (i : Nat) : Nat :=
  match i with
  | 5 => bits cnt 0 4
  | 6 => bits cnt 8 5
  | 7 => bits cnt 16 4
  | _ => 1

/-- The sections from a SECT bit on; none where they do not fill the words. -/
def cutSections (sect cnt : Word) : List Nat → List Word → Option (List (Nat × List (List Word)))
  | [], ws => if ws.isEmpty then some [] else none
  | i :: rest, ws =>
    if bit sect i then
      match cutBlocks i (blockCount cnt i) ws with
      | some (bs, ws) => (cutSections sect cnt rest ws).map ((i, bs) :: ·)
      | none => none
    else cutSections sect cnt rest ws

/-- The numbers of blocks rise, and lie below a limit. -/
def numbersRise (limit : Nat) (bs : List (List Word)) : Bool :=
  let ns := bs.map fun b => (wordAt b 0).toNat
  ns.all (fun n => decide (n < limit)) && (ns.zip (ns.drop 1)).all fun (a, b) => decide (a < b)

/-- Check 2 of R316 on the header: version, kind, reserved bits, CNT against SECT and its limits, and which sections the
kind carries. -/
def headOk (ws : List Word) : Bool :=
  let h := wordAt ws 0
  let cnt := wordAt ws 3
  bits h 0 16 == 1 && bits h 16 2 != 3 && bits h 18 14 == 0 && bits h 42 22 == 0 && cnt &&& ~~~0xF1F0F == 0 &&
    [5, 6, 7].all (fun i => bit h (32 + i) == (blockCount cnt i != 0)) && decide (bits cnt 0 4 ≤ 8) &&
    decide (bits cnt 8 5 ≤ 16) && decide (bits cnt 16 4 ≤ 8) &&
    (bits h 16 2 != 0 || h &&& place 0x223 32 == 0) && (bits h 16 2 != 1 || !bit h 41) &&
    ((csrMasks.zip (ws.drop 35)).all fun (m, w) => w &&& ~~~m == 0) && ((ws.drop 86).take 42).all (· == 0)

/-- Check 2 of R316 on the sections: no reserved bit or byte is set, and every field that a section's layout bounds holds
an assigned value. -/
def Image.clean (x : Image) : Bool :=
  let que := x.part 2
  let bind := x.part 3
  (!x.has 2 || (Hart.reset.setQue que).queWords == que) && (!x.has 3 || bindClean bind) &&
    (!x.has 4 || fifeClean (x.part 4)) && numbersRise 8 (x.blocks 5) && numbersRise 16 (x.blocks 6) &&
    numbersRise 8 (x.blocks 7) &&
    (x.blocks 5).all (fun b => decide (bits (wordAt b 1) 0 12 ≤ 2048) && linkWords (wordAt b 0).toNat (linkOf b) == b) &&
    (x.blocks 6).all slotClean && (x.blocks 7).all (fun b => (sliceWords b 1 31).all (· == 0)) &&
    (x.blocks 8).all (fun b => (b.drop (1 + (wordAt b 0).toNat)).all (· == 0)) &&
    (!x.has 9 || (wordAt x.head 2 == Config.implCode && syncClean (x.part 9)))

/-- The image that words hold; none where check 2 fails. -/
def imageOf (ws : List Word) : Option Image :=
  let head := ws.take 128
  if headOk head then
    match cutSections (wordAt head 0 >>> 32) (wordAt head 3) (List.range 10) (ws.drop 128) with
    | some parts => let x : Image := ⟨head, parts⟩; if x.clean then some x else none
    | none => none
  else none

/-! ### Accesses to an image (R313) -/

/-- How an image is accessed: a physical one by the distributor with the context's ASID, another as by a scalar access
of the hart. -/
def State.imageHow (s : State) (physical : Bool) (acc : Acc) : How :=
  if physical then
    let p := match s.team s.hart.team with
      | some t => t.pkg
      | none => pkgOf s.hart.pos
    { master := distributor p s.asid, team := s.hart.team, acc := acc, bank := 0, physical := true }
  else s.scalarHow acc

/-- Where 8 bytes of an image stand, or the cause. -/
def State.imagePlace (s : State) (physical : Bool) (acc : Acc) (a : Word) : Except (BitVec 10) (Place × State) :=
  match s.check (s.imageHow physical acc) a 8 with
  | .error .lost => .error 0x140
  | .error (.cause c) => .error c
  | .ok (p, s) => if p.space == .regs then .error 0x0C1 else .ok (p, s)

/-- The words of an image stored in order: the first failure gives its cause and address, and the state with the words
before it stored. -/
def writeImage (physical : Bool) : Word → List Word → State → Except (BitVec 10 × Word × State) State
  | _, [], s => .ok s
  | a, w :: ws, s =>
    match s.imagePlace physical .store a with
    | .error c => .error (c, a, s)
    | .ok (p, s) => writeImage physical (a + 8) ws (s.store p.keys (natToBytes 8 w.toNat))

/-- `n` words of an image read in order: the words last read first. -/
def readImage (physical : Bool) : Nat → Word → List Word → State → Except (BitVec 10 × Word) (List Word × State)
  | 0, _, out, s => .ok (out, s)
  | n + 1, a, out, s =>
    match s.imagePlace physical .load a with
    | .error c => .error (c, a)
    | .ok (p, s) =>
      match s.poisonCause p.keys with
      | some c => .error (c, a)
      | none => readImage physical n (a + 8) (BitVec.ofNat 64 (bytesToNat (s.bytes p.keys)) :: out) s

/-! ### Saving (R310, R313) -/

/-- The address that `ctxsv` and `ctxld` use, and whether it is physical: `s[D]`, `psa`, or `tscr`. -/
def State.imageAddr (s : State) (d : SReg) : Word × Bool :=
  if d != 0 then (s.getS d, false) else if s.hart.psa != 0 then (s.hart.psa, true) else (s.hart.tscr, false)

/-- The address checks of R313. -/
def imageAddress (d : SReg) (s : State) (k : Word → Bool → Res) : Res :=
  let (a, physical) := s.imageAddr d
  trapIf (d == 0 && a == 0) 0x059 0 s <| trapIf (bits a 0 12 != 0) 0x08A a s <|
    if s.hart.nb.isEmpty then k a physical else .next (s.wait .interlock)

/-- The hart leaves its context with an image at an address (R310, R311): what no image holds is kept with the team. -/
def State.surrender (s : State) (a : Word) (physical : Bool) : State :=
  let h := s.hart
  let f := s.myCore.fife
  let s := match s.team h.team with
    | none => s
    | some t =>
      let y : Saved :=
        { rank := t.rankOf h.pos, addr := a, physical := physical, hart := h
          node := if f.heldBy h.pos then f.node else none }
      s.setTeam { t with saved := t.saved ++ [y] }
  s.vacate h.pos

/-- A copy that a hart has issued into a slot of its own is outstanding: an image of the slot would miss what it writes
(R170, R312). -/
def State.copiesOut (s : State) (h : HartId) : Bool :=
  (s.core (coreOf h)).slots.any fun x => x.own == some h && decide (0 < x.copies)

/-- `ctxsv` (R313). One that surrenders waits for the copies into the hart's slots (log entry 40). -/
def execCtxsv (d : SReg) (s : State) : Res :=
  handlerOnly (sysWord d 12 0) s <| imageAddress d s fun a physical =>
    if s.hart.prq && s.copiesOut s.hart.pos then .next (s.wait .interlock) else
    let kind := if s.hart.tcause == 0x340 then 0 else 1
    match writeImage physical a (s.imageWords kind) s with
    | .error (c, x, t) => .next (t.trap c x)
    | .ok t => if t.hart.prq then .next (t.surrender a physical) else .next t.advance

/-! ### Loading (R316) -/

/-- Checks 1 and 2 of R316: the image at an address. All that SIZE spans is read before check 2; of an image whose SIZE no
image has, only the header (log entry 30). -/
def State.fetchImage (s : State) (a : Word) (physical : Bool) : Except (BitVec 10 × Word) (Image × State) :=
  match readImage physical 128 a [] s with
  | .error e => .error e
  | .ok (head, s) =>
    let size := (wordAt head.reverse 1).toNat
    if size % 8 != 0 || decide (size < 1024) || decide (2 ^ 20 < size) then .error (0x058, a)
    else
      match readImage physical ((size - 1024) / 8) (a + 1024) head s with
      | .error e => .error e
      | .ok (ws, s) =>
        match imageOf ws.reverse with
        | some x => .ok (x, s)
        | none => .error (0x058, a)

/-- Words before section `i` of an image, the header among them. -/
def Image.wordsBefore (x : Image) (i : Nat) : Nat :=
  128 + ((x.parts.filter fun p => p.1 < i).map fun p => p.2.flatten.length).sum

/-- Check 3 of R316: the address of the first tile image that R48 turns away. -/
def Image.badEntry (x : Image) (a : Word) : Option Word :=
  let bs := x.blocks 7
  ((List.range bs.length).zip bs).findSome? fun (j, b) =>
    ((tileEntries b).find? fun e => e.2.isNone).map fun e =>
      a + BitVec.ofNat 64 (8 * x.wordsBefore 7 + 33024 * j + 256 + 16 * e.1)

/-- Checks 3 to 5 of R316, for the hart whose turn it is: the cause and the value of the first that fails. -/
def State.imageFault (s : State) (x : Image) (a : Word) : Option (BitVec 10 × Word) :=
  let c := s.myCore
  let me := s.hart.pos
  let slots := (x.blocks 6).map fun b => wordAt b 0
  let tiles := (x.blocks 7).map fun b => wordAt b 0
  let foreign := fun (own : Option HartId) => own.isSome && own != some me
  let badSlot := slots.find? fun n => foreign (c.slot (n.setWidth 4)).own
  let badTile := tiles.find? fun n => foreign (c.tile (n.setWidth 3)).own
  match x.badEntry a, badSlot, badTile, slots[s.quota 4 5]?, tiles[s.quota 9 4]? with
  | some p, _, _, _, _ => some (0x240, p)
  | none, some n, _, _, _ => some (0x242, n)
  | none, none, some n, _, _ => some (0x245, n)
  | none, none, none, some n, _ => some (0x243, n)
  | none, none, none, none, some n => some (0x246, n)
  | none, none, none, none, none =>
    if x.has 4 && c.fife.st != .idle && !c.fife.heldBy me then some (0x181, a) else none

/-- A slot or tile that the image takes is still clearing (R170, R171). -/
def State.imageBlocked (s : State) (x : Image) : Option Wait :=
  let c := s.myCore
  let slot := (x.blocks 6).find? fun b => (c.slot ((wordAt b 0).setWidth 4)).clearing
  let tile := (x.blocks 7).find? fun b => (c.tile ((wordAt b 0).setWidth 3)).clearing
  match slot, tile with
  | some b, _ => some (.slot ((wordAt b 0).setWidth 4))
  | none, some b => some (.tile ((wordAt b 0).setWidth 3))
  | none, none => none

/-- `vty` of an image (R15, R317): the value that stands for an illegal type loads as itself. -/
def vtyLoad (x : Word) : Word := if x == vtyIllegal then vtyIllegal else vtyWrite x

/-- `xlm` of an image (R135, R317). -/
def xlmLoad (x : Word) : Word := if x == vtyIllegal then vtyIllegal else xlmWrite x

/-- The registers of an image (R316, effects 1, 3 and 4). -/
def Hart.loadImage (h : Hart) (x : Image) : Hart :=
  let c := x.csr
  let tsr := c 12
  let words := fun (i o n : Nat) => wordsNat (sliceWords (x.part i) o n)
  let h := { h with
    run := .running
    s := Vector.ofFn fun (k : Fin 32) => if k.val = 0 then 0 else wordAt x.head (3 + k.val)
    v := Vector.ofFn fun (k : Fin 32) => BitVec.ofNat 8192 (words 0 (128 * k.val) 128)
    p := Vector.ofFn fun (k : Fin 24) => BitVec.ofNat 2048 (words 1 (32 * k.val) 32)
    dl := Vector.ofFn fun (k : Fin 8) =>
      ((x.blocks 5).find? fun b => (wordAt b 0).toNat == k.val).map linkOf
    fm := BitVec.ofNat 2048 (wordsNat (sliceWords x.head 54 32)) }
  let h := { h with
    vl := (c 0).extractLsb' 0 12, vty := vtyLoad (c 1), vix := (c 2).extractLsb' 0 11, fcsr := (c 3).extractLsb' 0 11
    xlm := xlmLoad (c 4), qmap := (c 5).extractLsb' 0 32
    zol := { ({ zlr := c 6, zlb := c 7 : Zol }).setStatus (c 8) with nest := nestOf (x.part 9) 2 }
    flushed := flushedOf (x.part 9) 20
    tepc := c 9, tcause := (c 10).extractLsb' 0 10, tval := c 11, nest := bit tsr 4, asy := bit tsr 3, phs := bit tsr 1
    hs := bit tsr 0, tscr := c 13, tvec := c 14, rerr := c 15, fthr := (c 16).extractLsb' 0 20, flw := c 17
    sg := (c 18).toNat, coll := none
    handles := sliceWords (x.part 8) 1 (wordAt (x.part 8) 0).toNat }
  (h.setQue (x.part 2)).setBind (x.part 3)

/-- Slots, tiles and Fife of an image (R316, effects 1, 2 and 5). Copies into a slot that the hart releases write it no more
(R170). With a synchronisation block the Fife stands as it stood. -/
def Core.loadImage (c : Core) (me : HartId) (x : Image) : Core :=
  let c := c.loosen me fun n => !(x.blocks 6).any fun b => (wordAt b 0).toNat == n
  let slot := fun (n : Nat) (y : Slot) =>
    match (x.blocks 6).find? fun b => (wordAt b 0).toNat == n with
    | some b => slotOf me y b
    | none => if y.own == some me then { clearing := true } else y
  let tile := fun (n : Nat) (y : Tile) =>
    match (x.blocks 7).find? fun b => (wordAt b 0).toNat == n with
    | some b => tileOf me b
    | none => if y.own == some me then { clearing := true } else y
  let fife :=
    if x.has 4 then
      let f := c.fife.load (hartInCore me) (x.part 4)
      if x.has 9 then
        { f with
          zol := { f.zol with nest := nestOf (x.part 9) 11 }
          st := match (wordAt (x.part 9) 1).toNat with
            | 1 => .running
            | 3 => .faulted
            | _ => .paused }
      else f
    else c.fife
  { c with
    slots := Vector.ofFn fun (k : Fin 16) => slot k.val (c.slots.get k)
    tiles := Vector.ofFn fun (k : Fin 8) => tile k.val (c.tiles.get k)
    fife := fife }

/-- The registers, slots, tiles and Fife of an image, with the hart whose turn it is (R316, effects 1 to 5). -/
def State.appliedImage (s : State) (x : Image) : State :=
  let s := { s with hart := s.hart.loadImage x }
  s.setMyCore (s.myCore.loadImage s.hart.pos x)

/-- The effects of R316 on the hart whose turn it is: execution goes on as after `eret`, or from the synchronisation
block, which holds the nest records: the program does not see that it was pre-empted (R311). -/
def State.applyImage (s : State) (x : Image) : Res :=
  let s := s.appliedImage x
  if x.has 9 then .next { s with hart := { s.hart with pc := wordAt (x.part 9) 0, front := frontOf (x.part 9) 36 } } else s.leave.resume

/-- `ctxld` (R316). -/
def execCtxld (d : SReg) (s : State) : Res :=
  handlerOnly (sysWord d 13 0) s <| imageAddress d s fun a physical =>
    match s.fetchImage a physical with
    | .error (c, v) => .next (s.trap c v)
    | .ok (x, t) =>
      match t.imageFault x a with
      | some (c, v) => .next (t.trap c v)
      | none =>
        match t.imageBlocked x with
        | some w => .next (s.wait w)
        | none => t.applyImage x

end Sys2Proof.Machine
end

