-- ==== Sys2Proof/Machine/Coolant.lean ====
section
/-! DEFINITION. Coolant: zones and classes, `flow`, reallocation, sensors, the dry zone, evacuation (R407 to R417). -/

namespace Sys2Proof.Machine

/-! ### Zones and registers -/

/-- Offset of a zone's registers (R410). -/
def zoneOff (z : Nat) : Nat := 0xE0000 + 64 * z

/-- A zone covers a quad of the package, by die and quad number (R407). -/
def zoneCovers (z die quad : Nat) : Bool :=
  if z < 128 then z / 16 == die && z % 16 == quad / 2
  else if z < 144 then (z - 128) / 2 == die
  else true

/-- Allocated zones of a package: 16 for each compute die that it holds (R2, R407). -/
def State.flowZones (s : State) (p : PkgId) : List Nat := List.range (16 * s.computeDies p)

/-- The allocated zone of a place. -/
def zoneOf (h : HartId) : Nat := 16 * (dieInPkg (dieOf h)).toNat + quadInDie (coreOf h) / 2

/-- ZCLS as stored: REQ, CLS and MOV. -/
def State.zcls (s : State) (p : PkgId) (z : Nat) : Word := s.reg (ioDie p) (zoneOff z)
/-- CLS of a zone. -/
def State.cls (s : State) (p : PkgId) (z : Nat) : Nat := bits (s.zcls p z) 8 4
/-- REQ of a zone. -/
def State.zreq (s : State) (p : PkgId) (z : Nat) : Nat := bits (s.zcls p z) 12 4
/-- MOV of a zone. -/
def State.moving (s : State) (p : PkgId) (z : Nat) : Bool := bit (s.zcls p z) 1
/-- Nominal flow of a class (R408). -/
def classFlow (c : Nat) : Nat := 3 * c + 3

/-- The differential pressure of a zone is out of its bounds (R411). -/
def State.dpOut (s : State) (p : PkgId) (z : Nat) : Bool :=
  let dp := bits (s.reg (ioDie p) (zoneOff z + 16)) 8 16
  let thr := s.reg (ioDie p) (zoneOff z + 8)
  decide (dp < bits thr 16 16) || decide (bits thr 32 16 < dp)

/-- The flow of an allocated zone at rest is below 90 % of its class's nominal flow (R411). -/
def State.flowLow (s : State) (p : PkgId) (z : Nat) : Bool :=
  decide (z < 128) && !s.moving p z &&
    decide (bits (s.reg (ioDie p) (zoneOff z + 16)) 24 16 < 9 * classFlow (s.cls p z))

/-- The counts of samples for which a zone's conditions have held without a break: one that does not hold begins anew, one
that holds counts on by `n` (R411). -/
def State.countHeld (s : State) (p : PkgId) (z n : Nat) : State :=
  let x := s.pkg p
  let (d, f) := x.zones.getD z (0, 0)
  s.setPkg p { x with zones := x.zones.put z (if s.dpOut p z then d + n else 0, if s.flowLow p z then f + n else 0) }

/-- REQ, CLS and MOV of a zone stored. -/
def State.setZone (s : State) (p : PkgId) (z req cls : Nat) (mov : Bool) : State :=
  (s.setReg (ioDie p) (zoneOff z) (place req 12 ||| place cls 8 ||| place (bitNat mov) 1)).countHeld p z 0

/-- Teams with a place on a quad that the zone covers. -/
def State.zoneTeams (s : State) (p : PkgId) (z : Nat) : List Team :=
  s.teamList.filter fun t => t.holding.any fun h =>
    pkgOf h == p && zoneCovers z (dieInPkg (dieOf h)).toNat (quadInDie (coreOf h))

/-- HCMAX of an allocated zone (R410). -/
def State.hcmax (s : State) (p : PkgId) (z : Nat) : Nat := (s.zoneTeams p z).foldl (fun m t => max m t.hc.toNat) 0

/-- USED (R409), over the allocated zones that the package has (R2). -/
def State.flowUsed (s : State) (p : PkgId) : Nat :=
  ((s.flowZones p).map fun z => classFlow (max (s.cls p z) (s.zreq p z))).sum
/-- CAP (R409). -/
def State.flowCap (s : State) (p : PkgId) : Nat := bits (s.reg (ioDie p) 0xE4000) 0 13

/-- Zone registers and FLCAP as read, with the fields that follow the state (R409, R410); EVCTL and EVST read 0 on the forms
that have none (R417). -/
def State.coolantRead (s : State) (p : PkgId) (off : Nat) : Word :=
  if (off == 0xE4008 || off == 0xE4010) && (s.pkg p).form != .m8 then 0
  else if off == 0xE4000 then place (s.flowUsed p) 16 ||| BitVec.ofNat 64 (s.flowCap p)
  else if off % 64 == 0 && decide (off < 0xE2000) then
    s.reg (ioDie p) off ||| place (s.hcmax p ((off - 0xE0000) / 64)) 4
  else s.reg (ioDie p) off

/-! ### Requests and reallocation (R412, R413, R415) -/

/-- Places that a team occupies or is to occupy: those of its live ranks, or all of a launch that is yet to be placed. -/
def Team.standing (t : Team) : List HartId :=
  if t.st == .chosen && t.saved.isEmpty then t.places
  else ((t.places.zip (List.range t.places.length)).filter fun x => t.live.contains x.2).map Prod.fst

/-- Allocated zones of a team's places on a package (R197, R415). -/
def Team.zones (t : Team) (p : PkgId) : List Nat := ((t.standing.filter fun h => pkgOf h == p).map zoneOf).eraseDups

/-- The class that a team asks of every zone it occupies, or is to occupy: what is requested for it, or the heat class of a
choice that waits for its zones (R197, R415). -/
def Team.want (t : Team) : Option Nat :=
  match t.st, t.flow with
  | .running, some (_, c) => some c.toNat
  | .chosen, _ => some t.hc.toNat
  | _, _ => none

/-- The packages a team has places on. -/
def Team.pkgs (t : Team) : List PkgId := (t.places.map pkgOf).eraseDups

/-- The class cannot be met in the pool of a package, other zones at their minimum (R409, R415). -/
def State.beyondCap (s : State) (t : Team) (c : Nat) (p : PkgId) : Bool :=
  decide (s.flowCap p < ((s.flowZones p).map fun z =>
    classFlow (if (t.zones p).contains z then max c (s.hcmax p z) else s.hcmax p z)).sum)

/-- The class below which the reallocation for a team, the last of those given, does not lower a zone: HCMAX, or what one of
them wants of it that can be met. A zone that a later team wants has surplus above HCMAX as any other (R412, log entry 44). -/
def State.zoneFloor (s : State) (p : PkgId) (ts : List Team) (z : Nat) : Nat :=
  ts.foldl (fun m t =>
    let c := t.want.getD 0
    if (t.zones p).contains z && !t.pkgs.any (s.beyondCap t c) then max m c else m) (s.hcmax p z)

/-- Allocated zones at rest above their floor, in ascending order (R412). -/
def State.surplus (s : State) (p : PkgId) (ts : List Team) : List Nat :=
  (s.flowZones p).filter fun z => !s.moving p z && decide (s.zoneFloor p ts z < s.cls p z)

/-- Flow that lowerings under way will free. -/
def State.freeing (s : State) (p : PkgId) : Nat :=
  ((s.flowZones p).map fun z => if s.moving p z then 3 * (s.cls p z - s.zreq p z) else 0).sum

/-- Surplus zones are lowered to their floor until `need` is freed; the lowest number first (R412, log entry 44). -/
def State.reclaim (s : State) (p : PkgId) (ts : List Team) (need : Nat) : State :=
  (s.surplus p ts).foldl (fun (acc : State × Nat) z =>
    let (s, need) := acc
    if need == 0 then (s, need)
    else
      let c := s.cls p z
      let f := s.zoneFloor p ts z
      (s.setZone p z f c true, need - 3 * (c - f))) (s, need) |>.1

/-- What the reallocation for one team can start now, of the flow that is left, after those for the teams before it (R412):
all its raises, where they fit; else the lowerings that make room for them, which it then keeps. One that no lowering can
make room for leaves the flow to others. -/
def State.pursue (s : State) (p : PkgId) (before : List Team) (t : Team) (left : Nat × Nat) : State × Nat × Nat :=
  let (room, coming) := left
  let ts := before ++ [t]
  let c := t.want.getD 0
  let short := (t.zones p).filter fun z => !s.moving p z && decide (s.cls p z < c)
  let cost := (short.map fun z => 3 * (c - s.cls p z)).sum
  let spare := ((s.surplus p ts).map fun z => 3 * (s.cls p z - s.zoneFloor p ts z)).sum
  if cost ≤ room then (short.foldl (fun s z => s.setZone p z c (s.cls p z) true) s, room - cost, coming)
  else if room + coming + spare < cost then (s, room, coming)
  else (s.reclaim p ts (cost - room - coming), 0, room + coming - cost)

/-- What the reallocations of a package can start now, those of earlier teams first. -/
def State.pump (s : State) (p : PkgId) : State :=
  (s.teamList.foldl (fun (acc : List Team × State × Nat × Nat) t =>
    (acc.1 ++ [t], acc.2.1.pursue p acc.1 t acc.2.2)) ([], s, s.flowCap p - s.flowUsed p, s.freeing p)).2.1

/-- Every reallocation that a team's wants start. -/
def State.pumpTeam (s : State) (t : TeamId) : State :=
  match s.team t with
  | some x => x.pkgs.foldl State.pump s
  | none => s

/-- `flw` of a hart, by rank of a team, given ST; a rank that is saved keeps what its image holds. -/
def State.setFlowSt (s : State) (t : Team) (rank : Nat) (st : Nat) : State :=
  match t.places[rank]? with
  | none => s
  | some h =>
    let x := s.hartAt h
    if x.placed && x.team == t.id then
      s.putHart { x with flw := (x.flw &&& 0x3FFFFFFFFFFFFFFF) ||| place st 62 }
    else s

/-- The current hart's ST and REQ (R414). -/
def State.setFlow (s : State) (st : Nat) (c : BitVec 4) : State :=
  { s with hart := { s.hart with flw := place st 62 ||| place c.toNat 8 } }

/-- A later request replaces a pending one, whose hart gets ST 3 (R415). -/
def State.replaceFlow (s : State) (t : Team) (next : Option (Nat × BitVec 4)) : State :=
  let s := match t.flow with
    | some (r, _) => s.setFlowSt t r 3
    | none => s
  s.setTeam { t with flow := next }

/-- The effect of a `flow` apart from its register (R415). -/
def State.performFlow (s : State) (c : BitVec 4) : State :=
  match s.team s.hart.team with
  | none => s.setFlow (if c == 0 then 2 else 3) c
  | some t =>
    if c ≤ t.hc then (((s.replaceFlow t none).setTeam { t with flow := none, hc := c }).setFlow 2 c).pumpTeam t.id
    else if t.pkgs.any (s.beyondCap t c.toNat) then (s.replaceFlow t none).setFlow 3 c
    else ((s.replaceFlow t (some (t.rankOf s.hart.pos, c))).setFlow 1 c).pumpTeam t.id

/-- What the `flow` at `pc` returned when the front end performed it ahead of older vector words (R415). -/
def Hart.flowDone (h : Hart) : Option Word := (h.front.flows.find? fun x => x.1 == 0).map Prod.snd

/-- `flow` (R415). One that has been performed ahead writes what it returned. -/
def execFlow (d : SReg) (c : BitVec 4) (s : State) : Res :=
  match s.hart.flowDone with
  | some x => .next (s.setS d x).advance
  | none =>
    let s := s.performFlow c
    .next (s.setS d s.flw).advance

/-- FLOW_GRANT (R415): every zone of the team stands at the class requested, or the request is pursued. -/
def execFlowGrant (team : TeamId) (s : State) : Res :=
  match s.team team with
  | none => .next s
  | some t =>
    match t.st, t.flow with
    | .running, some (r, c) =>
      if t.pkgs.all fun p => (t.zones p).all fun z => decide (c.toNat ≤ s.cls p z) && !s.moving p z then
        .next ((s.setTeam { t with flow := none, hc := c }).setFlowSt t r 2)
      else .next (s.pumpTeam team)
    | _, _ => .next s

/-! ### Causes (R306, R411) -/

/-- An asynchronous cause becomes pending at every hart of a team; at those of a team that has not started yet, with its
start (R303, R306). -/
def State.pendTeam (s : State) (t : Team) (cause : BitVec 10) (tval : Word) : State :=
  let s := match s.team t.id with
    | some u => if u.st == .placed then s.setTeam { u with owed := u.owed ++ u.coming.map fun h => (h, ⟨cause, tval⟩) } else s
    | none => s
  t.holding.foldl (fun s h =>
    let x := s.hartAt h
    if x.placed && x.team == t.id then s.putHart (x.pend cause tval) else s) s

/-- EV of a zone. -/
def State.zoneEv (s : State) (p : PkgId) (z : Nat) : Word := s.reg (ioDie p) (zoneOff z + 24)

/-- Cause 0x2C0 + `n` of a zone is raised while its EV bit is clear (R411), with a pre-emption request where R306 says so.
The request of R413, to a team whose heat class exceeds CLS, does not depend on the bit. -/
def State.raiseZone (s : State) (p : PkgId) (z n : Nat) : State :=
  let ts := (s.zoneTeams p z).filter fun t => n != 5 || decide (s.cls p z < t.hc.toNat)
  if bit (s.zoneEv p z) n then
    if n == 5 then ts.foldl (fun s t => s.requestPreempt t.id) s else s
  else
    let s := s.setReg (ioDie p) (zoneOff z + 24) (s.zoneEv p z ||| place 1 n)
    ts.foldl (fun s t =>
      let s := s.pendTeam t (BitVec.ofNat 10 (0x2C0 + n)) (BitVec.ofNat 64 z)
      if n == 1 || n == 4 || n == 5 then s.requestPreempt t.id else s) s

/-- Evacuation is running: dry assertions raise nothing (R417). -/
def State.evacuating (s : State) (p : PkgId) : Bool :=
  let n := bits (s.reg (ioDie p) 0xE4010) 0 4
  decide (1 ≤ n) && decide (n ≤ 6)

/-- The condition of cause 0x2C0 + `n` holds in a zone (R411). -/
def State.zoneCondition (s : State) (p : PkgId) (z n : Nat) : Bool :=
  let sns := s.reg (ioDie p) (zoneOff z + 16)
  let thr := s.reg (ioDie p) (zoneOff z + 8)
  let (dp, fl) := (s.pkg p).zones.getD z (0, 0)
  match n with
  | 0 => decide (bits thr 0 8 ≤ bits sns 0 8)
  | 1 => decide (bits thr 8 8 ≤ bits sns 0 8)
  | 2 => s.dpOut p z && decide (10 ≤ dp)
  | 3 => s.flowLow p z && decide (50 ≤ fl)
  | 4 => bit sns 40 && !s.evacuating p
  | _ => decide (z < 128) && decide (s.cls p z < s.hcmax p z)

/-- The causes of a zone whose conditions hold are raised. -/
def State.raiseHeld (s : State) (p : PkgId) (z : Nat) (ns : List Nat) : State :=
  ns.foldl (fun s n => if s.zoneCondition p z n then s.raiseZone p z n else s) s

/-! ### Parts that stop (R396, R411) -/

/-- Teams placed on a part, or whose harts have been there, fail with a cause (R194, R395). -/
def State.failPlaced (s : State) (on : HartId → Bool) (cause : BitVec 10) : State :=
  let there := fun (t : Team) => t.status == 0 && match t.st with
    | .placed | .running | .preempting => t.places.any on
    | .accepted | .chosen | .preempted | .completed => false
  (s.teamList.filter there).foldl (fun s t => s.failTeam t.id cause) s

/-- A quad stops: its teams fail with 0x384, and nothing of its cores is left (R396, R411). -/
def State.stopQuad (s : State) (q : QuadId) : State :=
  let s := s.failPlaced (fun h => quadOf (coreOf h) == q) 0x384
  ([0, 1, 2, 3].map fun k => (q ++ BitVec.ofNat 2 k : CoreId)).foldl (fun s c => s.setCore c {}) s

/-- The quads that a zone covers halt (R411), until the package resets (log entry 44). -/
def State.haltZone (s : State) (p : PkgId) (z : Nat) : State :=
  forUpTo (s.computeDies p) (fun d s => forUpTo 32 (fun n s =>
    let q := quadAt (dieAt p d) n
    if zoneCovers z d n && !(s.quad q).halted then
      let s := s.stopQuad q
      s.setQuad q { s.quad q with halted := true, rows := 0 }
    else s) s) s

/-- ZONE_SENSOR_SAMPLE (R410, R411): every 1 ms the sensors of a zone are read into ZSNS. -/
def execZoneSensorSample (pkg : PkgId) (z : BitVec 8) (flow dp : BitVec 16) (temp : BitVec 8) (s : State) : Res :=
  let n := z.toNat
  if !s.zoneHeld pkg n then .next s
  else
    let off := zoneOff n + 16
    let s := s.setReg (ioDie pkg) off ((s.reg (ioDie pkg) off &&& 0x10000000000) ||| place flow.toNat 24 |||
      place dp.toNat 8 ||| temp.setWidth 64)
    let s := (s.countHeld pkg n 1).raiseHeld pkg n [0, 1, 2, 3]
    .next (if 110 ≤ temp.toNat then s.haltZone pkg n else s)

/-- DRY_DETECT (R416): the detector of a zone asserts. -/
def execDryDetect (pkg : PkgId) (z : BitVec 8) (s : State) : Res :=
  let n := z.toNat
  if !s.zoneHeld pkg n then .next s
  else
    let d := ioDie pkg
    let s := s.setReg d (zoneOff n + 16) (s.reg d (zoneOff n + 16) ||| place 1 40)
    .next ((s.setReg d (zoneOff n + 24) (s.zoneEv pkg n ||| place 1 8)).raiseHeld pkg n [4])

/-- DRYZ returns to 0 once DRY has read clear for 1 s, as DRY_CLEAR reports it, and software has cleared EV bit 4 (R416). -/
def State.endDry (s : State) (p : PkgId) (z : Nat) : State :=
  let ev := s.zoneEv p z
  if bit ev 4 || bit (s.reg (ioDie p) (zoneOff z + 16)) 40 then s
  else s.setReg (ioDie p) (zoneOff z + 24) (ev &&& ~~~(place 1 8))

/-- DRY_CLEAR (R416): the detector has read clear for 1 s. -/
def execDryClear (pkg : PkgId) (z : BitVec 8) (s : State) : Res :=
  let n := z.toNat
  if !s.zoneHeld pkg n then .next s
  else
    let d := ioDie pkg
    .next ((s.setReg d (zoneOff n + 16) (s.reg d (zoneOff n + 16) &&& ~~~(place 1 40))).endDry pkg n)

/-- ZONE_MOVE_COMPLETE (R412, R413): a move ends, CLS takes its class, and what waited for it starts. A raise ends only once
the flow measured has met the class's nominal flow. -/
def execZoneMoveComplete (pkg : PkgId) (z : BitVec 8) (s : State) : Res :=
  let n := z.toNat
  let flow := bits (s.reg (ioDie pkg) (zoneOff n + 16)) 24 16
  let raised := decide (s.cls pkg n < s.zreq pkg n)
  if 128 ≤ n ∨ !s.zoneHeld pkg n ∨ !s.moving pkg n ∨ (raised && decide (flow < 10 * classFlow (s.zreq pkg n))) then .next s
  else
    let s := s.setZone pkg n (s.zreq pkg n) (s.zreq pkg n) false
    .next ((s.raiseHeld pkg n [5]).pump pkg)

/-- Targets of all zones lowered one class at a time until they fit (R409): surplus above HCMAX first, then the highest
class, ties to the lower zone. -/
def lowerTargets (cap : Nat) (floor : Nat → Nat) : Nat → List (Nat × Nat) → List (Nat × Nat)
  | 0, ts => ts
  | fuel + 1, ts =>
    if (ts.map fun t => classFlow t.2).sum ≤ cap then ts
    else
      let surplus := ts.filter fun t => decide (floor t.1 < t.2)
      let pool := if surplus.isEmpty then ts.filter fun t => decide (0 < t.2) else surplus
      match pool with
      | [] => ts
      | x :: rest =>
        let best := rest.foldl (fun b t => if b.2 < t.2 then t else b) x
        lowerTargets cap floor fuel (ts.map fun t => if t.1 == best.1 then (t.1, t.2 - 1) else t)

/-- CAP written (R409): clamped; below USED, lowerings start at once. R2 gives a package of fewer than 8 compute dies no CAP
of its own, since 3,876 is no per-die figure: its limits and its reset value are those of 8 (log entry 44). -/
def State.writeCap (s : State) (p : PkgId) (x : Word) : State :=
  let c := max 384 (min 3876 (bits x 0 13))
  let s := s.setReg (ioDie p) 0xE4000 (BitVec.ofNat 64 c)
  let s := if s.flowUsed p ≤ c then s
    else
      let ts := (s.flowZones p).map fun z => (z, s.zreq p z)
      (lowerTargets c (s.hcmax p) 2048 ts).foldl (fun s t =>
        if t.2 != s.zreq p t.1 then s.setZone p t.1 t.2 (s.cls p t.1) (t.2 != s.cls p t.1) else s) s
  s.pump p

/-- ZTHR written (R410): taken whole when its thresholds are consistent, else ignored. A pressure that comes within the new
bounds begins anew (R411). -/
def State.writeThresholds (s : State) (p : PkgId) (z : Nat) (x : Word) : State :=
  if bits x 0 8 < bits x 8 8 ∧ bits x 8 8 ≤ 105 ∧ bits x 16 16 < bits x 32 16 then
    ((s.setReg (ioDie p) (zoneOff z + 8) (x &&& 0x0000FFFFFFFFFFFF)).countHeld p z 0).raiseHeld p z [0, 1]
  else s

/-- ZST written (R411, R416): ones clear EV bits, a cause whose condition still holds is raised again, and the dry state of a
zone whose detector reads clear ends with EV bit 4. -/
def State.clearEv (s : State) (p : PkgId) (z : Nat) (x : Word) : State :=
  let ns := (List.range 6).filter fun n => bit x n && bit (s.zoneEv p z) n
  ((s.setReg (ioDie p) (zoneOff z + 24) (s.zoneEv p z &&& ~~~(x &&& 0x3F))).raiseHeld p z ns).endDry p z

/-! ### Evacuation (R417) -/

/-- CFG of a ring is valid (R192, R357): LN 4 to 16, `reserved` bits clear. -/
def ringCfgOk (cfg reserved : Word) : Bool :=
  decide (4 ≤ bits cfg 0 5) && decide (bits cfg 0 5 ≤ 16) && cfg &&& reserved == 0

/-- Reserved bits of CFG of a launch ring (R192). -/
def launchCfgReserved : Word := 0xFFFFFFFFFFFFE0E0
/-- Reserved bits of CFG of a collective ring (R357). -/
def collCfgReserved : Word := 0xFFFFFFFFFFFFEFE0

/-- The ring that a registration names is enabled, its context apart: the registration is, and its header holds a valid CFG
with EN (R192, R357, R392). One whose header cannot be read is not polled, and counts as disabled (log entry 44). -/
def State.ringOn (s : State) (m : Master) (reg reserved : Word) : Bool :=
  bit reg 0 && match s.peek m ((reg &&& 0xFFFFFFFFFFFFF000) + 16) with
    | some cfg => ringCfgOk cfg reserved && bit cfg 12
    | none => false

/-- Some ring of some context of the package is registered and enabled (R392, R417). -/
def State.ringEnabled (s : State) (p : PkgId) : Bool :=
  (List.range 512).any fun a => bit (s.ctxReg p a 16) 63 &&
    ((List.range 4).any (fun k => s.ringOn (distributor p (BitVec.ofNat 9 a)) (s.ctxReg p a (24 + 8 * k)) launchCfgReserved) ||
      (List.range 64).any fun k =>
        s.ringOn (collEngine p (BitVec.ofNat 9 a)) (s.reg (ioDie p) (0x100000 + 512 * a + 8 * k)) collCfgReserved)

/-- A team is placed, pre-empted or waiting on the package (R402, R417). -/
def State.teamsWith (s : State) (p : PkgId) : Bool :=
  s.teamList.any fun t => t.pkg == p || t.places.any fun h => pkgOf h == p

/-- START written to EVCTL (R417): ignored once an evacuation has begun, since only a package reset undoes one. -/
def State.startEvacuation (s : State) (p : PkgId) : State :=
  if s.evacuating p || bits (s.reg (ioDie p) 0xE4010) 0 4 == 8 then s
  else s.setReg (ioDie p) 0xE4010 (if s.teamsWith p || s.ringEnabled p then 7 else 1)

/-- Package `gone` leaves the present set that package `p` holds (R338, R391). -/
def State.dropPresent (s : State) (p gone : PkgId) : State :=
  let off := 0x80008 + 8 * (gone.toNat / 64)
  s.setReg (ioDie p) off (s.reg (ioDie p) off &&& ~~~(place 1 (gone.toNat % 64)))

end Sys2Proof.Machine
end

