-- ==== Sys2Proof/Machine/Links.lean ====
section
/-! DEFINITION. The event log, UCIe modules, packet ports, the host link, wavelengths and the Chanter (R307, R372 to
R384). -/

namespace Sys2Proof.Machine

/-! ### The event log (R372) -/

/-- The next record written to the log of a package. -/
def State.writeLog (s : State) (p : PkgId) (rec : List Word) : State :=
  let d := ioDie p
  let n := s.reg d 0x50000
  let o := 0x51000 + 32 * (n.toNat % 512)
  (rec.zip (List.range 4)).foldl (fun s (w, i) => s.setReg d (o + 8 * i) w) (s.setReg d 0x50000 (n + 1))

/-- An event recorded with its tick; while the package manager reloads, it waits for it (R372, R397). -/
def State.logEvent (s : State) (d : DieId) (cause : Nat) (kind index : Nat) (data : Word) : State :=
  let s := s.passTime
  let p := pkgOfDie d
  let word := BitVec.ofNat 64 cause ||| place p.toNat 10 ||| place (dieInPkg d).toNat 19 ||| place kind 23 |||
    place index 26
  let rec_ := [s.now, word, data, 0]
  let x := s.pkg p
  if x.reload then s.setPkg p { x with events := x.events ++ [rec_] } else s.writeLog p rec_

/-! ### UCIe modules (R374 to R378) -/

/-- Offset of a module's registers. -/
def ulOff (m : Nat) : Nat := 0x30000 + 0x100 * m
/-- STATE of a module. -/
def State.ulState (s : State) (d : DieId) (m : Nat) : Nat := bits (s.reg d (ulOff m + 8)) 0 4
/-- STATE of a module set. An active module has its traffic back (R378); a retraining takes up the bad lanes as they are
marked when it begins (R374). -/
def State.setUlState (s : State) (d : DieId) (m st : Nat) : State :=
  let x := s.die d
  let x := match st with
    | 2 => { x with moved := x.moved.filter (· != m) }
    | 5 => { x with badLanes := x.badLanes.put m (s.reg d (ulOff m + 0x18), s.reg d (ulOff m + 0x20)) }
    | _ => x
  (s.setDie d x).setReg d (ulOff m + 8) ((s.reg d (ulOff m + 8) &&& ~~~0xF) ||| BitVec.ofNat 64 st)
/-- The hardware sequence of R377 runs on the module. -/
def State.ulAuto (s : State) (d : DieId) (m : Nat) : Bool := (s.die d).auto.contains m

/-- ULCTL written (R374, R375, R377). -/
def State.writeUlctl (s : State) (d : DieId) (m : Nat) (x : Word) : State :=
  let o := ulOff m
  let auto := s.ulAuto d m
  let rw : Word := if auto then 0x000000FFFFFF0020 else 0x000000FFFFFF003A
  let s := s.setReg d o ((s.reg d o &&& ~~~rw) ||| (x &&& rw))
  if auto then s
  else
    match s.ulState d m, bit x 2, bit x 1 with
    | 2, _, true => s.setUlState d m 3
    | 4, true, _ => s.setUlState d m 5
    | 4, false, false => s.setUlState d m 2
    | _, _, _ => s

/-- ULBADT or ULBADR written: ignored while the hardware sequence runs (R377); a retraining that runs does not see it
(R374). -/
def State.writeUlbad (s : State) (d : DieId) (off : Nat) (x : Word) : State :=
  if s.ulAuto d ((off - 0x30000) / 256) then s else s.setReg d off x

/-- UL_PAUSE_DONE (R375, R377): every sent flit is acknowledged; the hardware sequence goes on to retrain. -/
def execUlPauseDone (d : DieId) (m : BitVec 4) (s : State) : Res :=
  let n := m.toNat
  if 12 ≤ n ∨ s.ulState d n != 3 then .next s
  else if s.ulAuto d n then .next (s.setUlState d n 5)
  else .next (s.setUlState d n (if bit (s.reg d (ulOff n)) 1 then 4 else 2))

/-- The lanes in use: all 64 at x64, or the half (R376). -/
def lanesUsed (narrow upper : Bool) : Word :=
  if narrow then (if upper then 0xFFFFFFFF00000000 else 0xFFFFFFFF) else 0xFFFFFFFFFFFFFFFF

/-- Bad lanes among those in use. -/
def badInUse (bad : Word) (narrow upper : Bool) : Nat := popCount (bad &&& lanesUsed narrow upper)

/-- The lanes of a module that its redundant lanes stand in for, as a training that succeeds leaves them: the bad ones in
use (R376). -/
def State.spare (s : State) (d : DieId) (m : Nat) (t r : Word) (narrow upper : Bool) : State :=
  let x := s.die d
  let u := lanesUsed narrow upper
  s.setDie d { x with spared := x.spared.put m { t := t &&& u, r := r &&& u } }

/-- Spared lanes are only added: none is dropped, and there is one more (R376). -/
def Spared.grows (x y : Spared) : Bool := x.t &&& ~~~y.t == 0 && x.r &&& ~~~y.r == 0 && x != y

/-- A choice of width and half succeeds: 4 bad lanes or fewer in each direction (R376). -/
def trains (t r : Word) (narrow upper : Bool) : Bool :=
  decide (badInUse t narrow upper ≤ 4) && decide (badInUse r narrow upper ≤ 4)

/-- UL_RETRAIN_DONE (R376, R377): the lanes that failed training are marked bad, and the configuration chosen succeeds or
fails. 0x305 is logged where WIDTH is left at x32, 0x304 where lanes are only added to those spared (R376). The hardware
sequence resumes the module either way (R377). -/
def execUlRetrainDone (d : DieId) (m : BitVec 4) (failT failR : Word) (s : State) : Res :=
  let n := m.toNat
  if 12 ≤ n ∨ s.ulState d n != 5 then .next s
  else
    let o := ulOff n
    let (markedT, markedR) := (s.die d).badLanes.getD n (s.reg d (o + 0x18), s.reg d (o + 0x20))
    let t := markedT ||| failT
    let r := markedR ||| failR
    let ctl := s.reg d o
    let auto := s.ulAuto d n
    let lower := badInUse t true false + badInUse r true false
    let higher := badInUse t true true + badInUse r true true
    let narrow := if auto then !trains t r false false else bit ctl 3
    let upper := if auto then narrow && decide (higher < lower) else narrow && bit ctl 4
    let old := s.reg d (o + 8)
    let s := ((s.setReg d (o + 0x18) (s.reg d (o + 0x18) ||| failT)).setReg d (o + 0x20)
      (s.reg d (o + 0x20) ||| failR)).setReg d (o + 0x10) (s.reg d (o + 0x10) &&& 0xFFFFFFFF)
    let x := s.die d
    let s := s.setDie d { x with
      auto := x.auto.filter (· != n), laneErrs := x.laneErrs.filter (fun e => e.1 / 128 != n)
      badLanes := x.badLanes.drop n }
    if trains t r narrow upper then
      let (nt, nr) := (badInUse t narrow upper, badInUse r narrow upper)
      let st := if auto || !bit ctl 1 then 2 else 4
      let new := (old &&& 0x200) ||| place nr 13 ||| place nt 10 ||| place (bitNat upper) 5 ||| place (bitNat narrow) 4 |||
        BitVec.ofNat 64 st
      let before := (s.die d).spared.getD n {}
      let s := ((s.setReg d (o + 8) new).setUlState d n st).spare d n t r narrow upper
      let more := !bit old 4 && before.grows ((s.die d).spared.getD n {})
      if narrow then .next (s.logEvent d 0x305 0 n new)
      else if more then .next (s.logEvent d 0x304 0 n new)
      else .next s
    else
      let st := if auto then 2 else 4
      let new := (old &&& 0xFE30) ||| 0x100 ||| BitVec.ofNat 64 st
      let s := (s.setReg d (o + 8) new).setUlState d n st
      .next (if bit old 4 then s.logEvent d 0x305 0 n new else s)

/-- A module trained at bring-up (R374, R406): the lanes that fail are marked bad, and where no more than 4 in each direction do
(R376) the module is active at x64 with redundant lanes for them; else it stays down (log entry 25). -/
def State.trainModule (s : State) (d : DieId) (m : Nat) (failT failR : Word) : State :=
  let o := ulOff m
  let t := s.reg d (o + 0x18) ||| failT
  let r := s.reg d (o + 0x20) ||| failR
  let s := (s.setReg d (o + 0x18) t).setReg d (o + 0x20) r
  if trains t r false false then
    ((s.setReg d (o + 8) (place (badInUse r false false) 13 ||| place (badInUse t false false) 10)).setUlState d m 2).spare d m t r
      false false
  else s.setUlState d m 0

/-- A retry counted in the window of its module: a window of WINUS µs begins with the first retry after the last one ended
(R377, log entry 42). -/
def State.countRetry (s : State) (d : DieId) (m : Nat) : State :=
  let s := s.passTime
  let x := s.die d
  let len := 1000 * bits (s.reg d (ulOff m)) 32 8
  let w := match x.window.find m with
    | some (t, n) => if (s.now - t).toNat < len then (t, n + 1) else (s.now, 1)
    | none => (s.now, 1)
  s.setDie d { x with window := x.window.put m w }

/-- LINK_LEVEL_RETRY (R374): TOTAL advances, and the lane with the most detected errors is kept. `dir` 1 is the direction
from the chiplet. -/
def execLinkLevelRetry (d : DieId) (m : BitVec 4) (dir : BitVec 1) (lane : BitVec 6) (s : State) : Res :=
  let n := m.toNat
  if 12 ≤ n then .next s
  else
    let o := ulOff n + 0x10
    let s := s.countRetry d n
    let x := s.die d
    let key := fun (b : Nat) (l : Nat) => n * 128 + b * 64 + l
    let errs := x.laneErrs.getD (key dir.toNat lane.toNat) 0 + 1
    let x := { x with laneErrs := x.laneErrs.put (key dir.toNat lane.toNat) errs }
    let rc := s.reg d o
    let worst := x.laneErrs.getD (key (bits rc 63 1) (bits rc 56 6)) 0
    let (b, l, w) := if worst < errs then (dir.toNat, lane.toNat, errs) else (bits rc 63 1, bits rc 56 6, worst)
    .next ((s.setDie d x).setReg d o (place b 63 ||| place l 56 ||| place (min w (2 ^ 24 - 1)) 32 |||
      BitVec.ofNat 64 ((bits rc 0 32 + 1) % 2 ^ 32)))

/-- UL_RETRY_THRESHOLD (R377): TOTAL has grown by THR within one window. THX and the log, and the window is spent; under
AUTO the worst lane is marked bad and the hardware sequence starts with a pause. -/
def execUlRetryThreshold (d : DieId) (m : BitVec 4) (s : State) : Res :=
  let n := m.toNat
  let o := ulOff n
  let ctl := s.reg d o
  let grown := ((s.die d).window.getD n (0, 0)).2
  if 12 ≤ n ∨ bits ctl 16 16 == 0 ∨ bits ctl 32 8 == 0 ∨ grown < bits ctl 16 16 then .next s
  else
    let rc := s.reg d (o + 0x10)
    let s := s.setDie d { s.die d with window := (s.die d).window.drop n }
    let s := (s.setReg d (o + 8) (s.reg d (o + 8) ||| 0x200)).logEvent d 0x303 0 n rc
    if !bit ctl 5 || s.ulState d n != 2 then .next s
    else
      let bad := o + (if bit rc 63 then 0x20 else 0x18)
      let s := s.setReg d bad (s.reg d bad ||| place 1 (bits rc 56 6))
      .next ((s.setDie d { s.die d with auto := n :: (s.die d).auto }).setUlState d n 3)

/-- UL_PACKET_FALLBACK (R378): a module out of STATE 2 for 50 µs has its traffic moved, once until it is active again; no
flit is lost. -/
def execUlPacketFallback (d : DieId) (m : BitVec 4) (s : State) : Res :=
  let x := s.die d
  if 12 ≤ m.toNat ∨ s.ulState d m.toNat == 2 ∨ x.moved.contains m.toNat then .next s
  else .next ((s.setDie d { x with moved := x.moved ++ [m.toNat] }).logEvent d 0x302 0 m.toNat 0)

/-! ### Packet ports (R379) -/

/-- PPST of a port. -/
def ppOff (p : BitVec 3) : Nat := 0x60000 + 8 * p.toNat

/-- LANE_ERROR_DETECTED (R379): ERR rises, saturating. -/
def execLaneErrorDetected (pkg : PkgId) (p : BitVec 3) (s : State) : Res :=
  let d := ioDie pkg
  let x := s.reg d (ppOff p)
  .next (s.setReg d (ppOff p) ((x &&& 0xFF) ||| place (min (bits x 8 32 + 1) (2 ^ 32 - 1)) 8))

/-- PORT_LANE_SPARE (R379): a lane crosses the error threshold, and the port retrains onto its spare. -/
def execPortLaneSpare (pkg : PkgId) (p : BitVec 3) (lane : BitVec 2) (s : State) : Res :=
  let d := ioDie pkg
  let x := s.reg d (ppOff p)
  if bits x 0 2 != 2 || bit x 7 then .next s
  else .next (s.setReg d (ppOff p) ((x &&& 0xFFFFFFFF00) ||| 0x80 ||| place lane.toNat 4 ||| 3))

/-- PORT_RETRAIN_COMPLETE (R379). -/
def execPortRetrainComplete (pkg : PkgId) (p : BitVec 3) (s : State) : Res :=
  let d := ioDie pkg
  let x := s.reg d (ppOff p)
  if bits x 0 2 != 3 then .next s
  else
    let y := (x &&& ~~~3) ||| 2
    .next ((s.setReg d (ppOff p) y).logEvent d 0x306 2 p.toNat y)

/-- PORT_DOWN (R379): a further lane fails while the spare is in use. -/
def execPortDown (pkg : PkgId) (p : BitVec 3) (s : State) : Res :=
  let d := ioDie pkg
  let x := s.reg d (ppOff p)
  if bits x 0 2 == 0 || !bit x 7 then .next s
  else
    let y := x &&& ~~~3
    .next ((s.setReg d (ppOff p) y).logEvent d 0x306 2 p.toNat y)

/-! ### The host link (R381) -/

/-- A registration of a ring in the host memory behind a package, disabled; another one stays. -/
def hostRingOff (p : PkgId) (x : Word) : Word :=
  if spaceOf (x &&& 0xFFFFFFFFFFFFF000) == some .host && aPkg x == p then x &&& ~~~1 else x

/-- A device register is the registration of a launch ring or a collective ring of some package (R392). -/
def isRegistration (k : Nat) : Bool :=
  let off := k % 2 ^ 44
  isIo (BitVec.ofNat 13 (k / 2 ^ 51)) &&
    ((oneOf off 0x90000 8 4096 && decide (24 ≤ off % 64) && off % 64 != 56) || oneOf off 0x100000 8 32768)

/-- HOST_LINK_DOWN (R381): the rings in the memory behind the link, of whatever package, are polled no more. -/
def execHostLinkDown (pkg : PkgId) (s : State) : Res :=
  let d := ioDie pkg
  if !(s.pkg pkg).hostUp then .next s
  else
    let s := s.setPkg pkg { s.pkg pkg with hostUp := false }
    let s := { s with dev := s.dev.map fun (k, x) =>
      (k, if isRegistration k then hostRingOff pkg x else x) }
    .next (s.logEvent d 0x307 3 0 0)

/-- HOST_LINK_UP (R381): host rings stay disabled until they are registered again. No link comes up before bring-up step 4
has trained the port (R406). -/
def execHostLinkUp (pkg : PkgId) (s : State) : Res :=
  let x := s.pkg pkg
  if x.step < 4 then .next s else .next (s.setPkg pkg { x with hostUp := true })

/-! ### Wavelengths (R382, R383) -/

/-- A group of wavelengths of a die's chiplet. -/
def State.waves (s : State) (d : DieId) (g : BitVec 5) : WaveGroup := (s.die d).waves.getD g.toNat {}
/-- A group stored. -/
def State.setWaves (s : State) (d : DieId) (g : BitVec 5) (x : WaveGroup) : State :=
  let y := s.die d
  s.setDie d { y with waves := y.waves.put g.toNat x }

/-- Wavelengths of a group that carry traffic: 8, the spare among them once it is in use. -/
def WaveGroup.awake (x : WaveGroup) : List Nat :=
  (List.range 9).filter fun w => (w != 8 || x.spare) && !x.failed.contains (BitVec.ofNat 4 w) &&
    !x.parked.contains (BitVec.ofNat 4 w)

/-- The groups of a die's chiplet (R326, R331, log entry 25): 0 to 3 are the die's four pod fibres, 4 + e the standing path
to compute die e of the package. -/
def State.waveGroupOk (s : State) (d : DieId) (g : Nat) : Bool :=
  !isIo d && decide ((dieInPkg d).toNat < s.computeDies (pkgOfDie d)) &&
    (decide (g < 4) || (decide (g - 4 < s.computeDies (pkgOfDie d)) && g - 4 != (dieInPkg d).toNat))

/-- The wavelength that a number of a group stands for: the spare carries that of the one it serves. -/
def WaveGroup.wave (x : WaveGroup) (w : Nat) : Nat := if w == 8 then x.serves.toNat else w

/-- The wavelength port of a wavelength (R331, R372): that of its fibre; past the pod ports for a standing path. -/
def wavePort (d : DieId) (g w : Nat) : Nat := if g < 4 then 8 * (4 * (dieInPkg d).toNat + g) + w else 256 + 8 * (g - 4) + w

/-- The destination of a wavelength now: the package of its port's circuit, or its standing path; none for a dark port. -/
def State.lit (s : State) (d : DieId) (g w : Nat) : Option (PkgId ⊕ DieId) :=
  if 4 ≤ g then some (.inr (dieAt (pkgOfDie d) (g - 4)))
  else
    let x := s.reg (ioDie (pkgOfDie d)) (0x20800 + 8 * wavePort d g w)
    if bit x 9 then some (.inl (x.extractLsb' 0 9)) else none

/-- The other wavelengths awake on the path of one (R383): those of its group for a standing path, those of every pod port
of the package with the same destination for a pod circuit. -/
def State.othersAwake (s : State) (d : DieId) (g : BitVec 5) (w : Nat) : Nat :=
  let x := s.waves d g
  let dest := s.lit d g.toNat (x.wave w)
  if 4 ≤ g.toNat then x.awake.countP fun v => v != w
  else
    ((List.range (s.computeDies (pkgOfDie d))).map fun e => ((List.range 4).map fun h =>
      let f := dieAt (pkgOfDie d) e
      let y := s.waves f (BitVec.ofNat 5 h)
      y.awake.countP fun v => s.lit f h (y.wave v) == dest && !(f == d && h == g.toNat && v == w)).sum).sum

/-- Every parked wavelength on the path of one wakes (R383). -/
def State.wakePath (s : State) (d : DieId) (g : BitVec 5) (w : Nat) : State :=
  let dest := s.lit d g.toNat ((s.waves d g).wave w)
  if 4 ≤ g.toNat then s.setWaves d g { s.waves d g with parked := [] }
  else
    forUpTo (s.computeDies (pkgOfDie d)) (fun e s => forUpTo 4 (fun h s =>
      let f := dieAt (pkgOfDie d) e
      let y := s.waves f (BitVec.ofNat 5 h)
      s.setWaves f (BitVec.ofNat 5 h) { y with parked := y.parked.filter fun v => s.lit f h v.toNat != dest }) s) s

/-- The wavelength of a pod port wakes (R332, R383). -/
def State.wakePort (s : State) (p : PkgId) (port : Nat) : State :=
  let d := dieAt p (port / 32)
  let g := BitVec.ofNat 5 (port / 8 % 4)
  let y := s.waves d g
  s.setWaves d g { y with parked := y.parked.filter (· != BitVec.ofNat 4 (port % 8)) }

/-- Wavelengths of a package's pod ports: 32 for each compute die that it holds (R2, R331). -/
def State.podPorts (s : State) (p : PkgId) : Nat := 32 * s.computeDies p

/-- Every pod port that carries a circuit has a wavelength awake on its path: where none is, its own wakes (R383). -/
def State.wakeLit (s : State) (p : PkgId) : State :=
  forUpTo (s.podPorts p) (fun i s =>
    let d := dieAt p (i / 32)
    let g := BitVec.ofNat 5 (i / 8 % 4)
    match s.lit d g.toNat (i % 8) with
    | some _ => if s.othersAwake d g (i % 8) == 0 then s.wakePort p i else s
    | none => s) s

/-- The flits sent on streams between dies, and not acknowledged, are sent again (R332, R335, R337). -/
def State.resend (s : State) (on : DieId → DieId → Bool) : State :=
  { s with wire := s.wire ++ s.streams.flatMap fun (k, x) =>
      if on (BitVec.ofNat 13 (k / 2 ^ 16)) (BitVec.ofNat 13 (k / 8)) then x.sent else [] }

/-- Streams whose flits a wavelength may have carried: those to the package of its circuit, or those of its standing path. -/
def carried (d : DieId) (dest : Option (PkgId ⊕ DieId)) (src dst : DieId) : Bool :=
  match dest with
  | some (.inl q) => pkgOfDie src == pkgOfDie d && pkgOfDie dst == q
  | some (.inr e) => src == d && dst == e
  | none => false

/-- WAVELENGTH_FAIL (R337, R382 to R384): wavelength `w` of a group, 8 for the spare. A spare that has not failed takes the
place of the first one that does; what it carried and is not acknowledged is sent again; parked wavelengths of a path whose
last awake one fails wake. -/
def execWavelengthFail (d : DieId) (g : BitVec 5) (w : BitVec 4) (s : State) : Res :=
  let x := s.waves d g
  if !s.waveGroupOk d g.toNat ∨ 8 < w.toNat ∨ x.failed.contains w then .next s
  else
    let y := { x with failed := x.failed ++ [w], parked := x.parked.filter (· != w) }
    let port := wavePort d g.toNat (x.wave w.toNat)
    let spared := !x.spare && w != 8 && !x.failed.contains 8
    let s := s.setWaves d g (if spared then { y with spare := true, serves := w } else y)
    let s := s.resend (carried d (s.lit d g.toNat (x.wave w.toNat)))
    let s := if s.othersAwake d g w.toNat == 0 then s.wakePath d g w.toNat else s
    let c := (s.die d).chanter
    let s := if spared && !c.up then s.setDie d { s.die d with chanter := { c with moved := c.moved + 1 } } else s
    let s := if spared then s.logEvent d 0x301 1 port 0 else s
    .next (if 9 ≤ y.failed.length then s.logEvent d 0x302 1 port 0 else s)

/-- A wavelength may park (R383): parking is allowed, it is no spare, and its path keeps one awake; the banks of a dark port
that no next step needs park freely. -/
def State.mayPark (s : State) (d : DieId) (g : BitVec 5) (w : BitVec 4) : Bool :=
  s.waveGroupOk d g.toNat && bit (s.reg d 0x31000) 32 && decide (w.toNat < 8) && (s.waves d g).awake.contains w.toNat &&
    match s.lit d g.toNat w.toNat with
    | some _ => decide (0 < s.othersAwake d g w.toNat)
    | none => !bit (s.reg (ioDie (pkgOfDie d)) (0x20000 + 8 * wavePort d g.toNat w.toNat)) 9

/-- WAVELENGTH_PARK (R383): a wavelength idle for IDLE µs parks. -/
def execWavelengthPark (d : DieId) (g : BitVec 5) (w : BitVec 4) (s : State) : Res :=
  let x := s.waves d g
  if s.mayPark d g w then .next (s.setWaves d g { x with parked := x.parked ++ [w] }) else .next s

/-- WAVELENGTH_WAKE (R383). -/
def execWavelengthWake (d : DieId) (g : BitVec 5) (w : BitVec 4) (s : State) : Res :=
  let x := s.waves d g
  .next (s.setWaves d g { x with parked := x.parked.filter (· != w) })

/-! ### The Chanter (R384) -/

/-- Three expiries lie within 10 s: the Chanter stays in reset. -/
def Chanter.stuck (c : Chanter) : Bool :=
  match c.last with
  | a :: _ :: b :: _ => decide ((a - b).toNat < 10000000000)
  | _ => false

/-- CHANTER_WATCHDOG_EXPIRY (R384): settings hold; PCST.RDY is 0 during the gap. -/
def execChanterWatchdogExpiry (d : DieId) (s : State) : Res :=
  let s := s.passTime
  let c := (s.die d).chanter
  if !c.up then .next s
  else
    let s := s.setDie d { s.die d with chanter := { up := false, last := (s.now :: c.last).take 3, moved := 0 } }
    let io := ioDie (pkgOfDie d)
    .next (s.setReg io 0x21008 (s.reg io 0x21008 &&& ~~~1))

/-- An image verifies (R404): its signature is the vendor's, over its own digest. Signature and digest are taken as sound:
one that verifies was made with the key over those bytes (log entry 43). -/
def Boot.verifies (b : Boot) (x : Firmware) : Bool := x.signer == b.keyHash && x.signed == x.digest

/-- CHANTER_REBOOT (R384): a Chanter reset too often, or whose image fails verification, stays in reset. -/
def execChanterReboot (d : DieId) (s : State) : Res :=
  let c := (s.die d).chanter
  let b := (s.pkg (pkgOfDie d)).boot
  if c.up || c.stuck || c.held || (s.pkg (pkgOfDie d)).step < 3 then .next s
  else if !b.verifies b.chanter then .next (s.setDie d { s.die d with chanter := { c with held := true } })
  else .next ((s.setDie d { s.die d with chanter := { c with up := true } }).logEvent d 0x300 4 0 (BitVec.ofNat 64 c.moved))

/-- POWER_LIMIT_APPLIED (R307, R372). -/
def execPowerLimitApplied (pkg : PkgId) (s : State) : Res := .next (s.logEvent (ioDie pkg) 0x308 5 0 0)

end Sys2Proof.Machine
end

