-- ==== Sys2Proof/Machine/Fabric.lean ====
section
/-! DEFINITION. The fabric: pod circuits, Derny flits, lost packages, read-only remote windows (R326 to R343). -/

namespace Sys2Proof.Machine

/-! ### Pod circuits (R331, R332) -/

/-- ARM of a package. -/
def State.podArm (s : State) (p : PkgId) : Bool := bit (s.reg (ioDie p) 0x21008) 1

/-- PCNX written (R332): ignored while ARM = 1; the back bank tunes again, and a parked wavelength that the entry needs wakes
(R383). -/
def State.writePcnx (s : State) (p : PkgId) (port : Nat) (x : Word) : State :=
  let d := ioDie p
  if s.podArm p then s
  else
    let s := (s.setReg d (0x20000 + 8 * port) (x &&& 0x3FF)).setReg d 0x21008 0
    if bit x 9 then s.wakePort p port else s

/-- PCNX_WRITE (R331, R332): by a master that the I/O die's table admits. -/
def execPcnxWrite (pkg : PkgId) (port : BitVec 8) (x : Sent) (s : State) : Res :=
  storesTo x.origin (ioDie pkg) (0x20000 + 8 * port.toNat) s <| .next (s.writePcnx pkg port.toNat x.word)

/-- The Chanter of every compute die of a package runs (R384). -/
def State.chantersUp (s : State) (p : PkgId) : Bool :=
  (List.range (s.computeDies p)).all fun d => (s.die (dieAt p d)).chanter.up

/-- POD_BANK_READY (R332, R384). -/
def execPodBankReady (pkg : PkgId) (s : State) : Res :=
  let d := ioDie pkg
  if s.podArm pkg || !s.chantersUp pkg then .next s else .next (s.setReg d 0x21008 1)

/-- PCSW written (R332): ignored while RDY = 0; a tick less than 1 µs ahead is taken as 1 µs ahead, and that is what
PCSW then reads (R7, log entry 39). -/
def State.writePcsw (s : State) (p : PkgId) (x : Word) : State :=
  let d := ioDie p
  if !bit (s.reg d 0x21008) 0 then s
  else
    let s := s.passTime
    let soon := s.now + 1000
    (s.setReg d 0x21000 (if x.ult soon then soon else x)).setReg d 0x21008 3

/-- PCSW_WRITE (R331, R332): by a master that the I/O die's table admits. -/
def execPcswWrite (pkg : PkgId) (x : Sent) (s : State) : Res :=
  storesTo x.origin (ioDie pkg) 0x21000 s <| .next (s.writePcsw pkg x.word)

/-- A package has a circuit to another in the current step (R331). -/
def State.circuit (s : State) (p q : PkgId) : Bool :=
  (List.range (s.podPorts p)).any fun i => let x := s.reg (ioDie p) (0x20800 + 8 * i); bit x 9 && bits x 0 9 == q.toNat

/-- The flits that a package has sent by circuit and that are not acknowledged are sent again (R332, R335). -/
def State.resendCircuits (s : State) (p : PkgId) : State :=
  s.resend fun src dst => pkgOfDie src == p && pkgOfDie dst != p && s.circuit p (pkgOfDie dst)

/-- POD_STEP_SWITCH (R332, R383): at the tick every port takes its back bank, what was sent on the old circuits and not
acknowledged is sent again, and each lit destination has a wavelength awake. -/
def execPodStepSwitch (pkg : PkgId) (s : State) : Res :=
  let d := ioDie pkg
  if !s.podArm pkg then .next s
  else
    let s := (s.passTime).toTick (s.reg d 0x21000)
    if s.now.ult (s.reg d 0x21000) then .next s
    else
      let s := s.resendCircuits pkg
      let s := forUpTo (s.podPorts pkg) (fun i s => s.setReg d (0x20800 + 8 * i) (s.reg d (0x20000 + 8 * i))) s
      .next ((s.setReg d 0x21008 0).wakeLit pkg)

/-! ### Derny flits (R333 to R335) -/

/-- Bytes of a flit from byte `i`, as a number. -/
def Flit.field (f : Flit) (i n : Nat) : Nat := (f.extractLsb' (8 * i) (8 * n)).toNat
/-- TYPE. -/
def Flit.type (f : Flit) : Nat := f.field 0 1 % 16
/-- CLASS. -/
def Flit.cls (f : Flit) : BitVec 3 := f.extractLsb' 4 3
/-- The die that a 2-byte field names. -/
def Flit.dieField (f : Flit) (i : Nat) : DieId := f.extractLsb' (8 * i) 9 ++ f.extractLsb' (8 * i + 9) 4
/-- SRC. -/
def Flit.src (f : Flit) : DieId := f.dieField 1
/-- DST. -/
def Flit.dst (f : Flit) : DieId := f.dieField 3
/-- SEQ. -/
def Flit.seq (f : Flit) : BitVec 32 := f.extractLsb' 64 32
/-- ACKSEQ. -/
def Flit.ackSeq (f : Flit) : BitVec 32 := f.extractLsb' 96 32

/-- One bit of a reflected CRC-64 with polynomial 0x42F0_E1EB_A9EA_3693. -/
def crcBit (c : Word) : Word := if c.getLsbD 0 then (c >>> 1) ^^^ 0xC96C5795D7870F42 else c >>> 1

/-- One byte of it. -/
def crcByte (b : Byte) (c : Nat) : Nat := (forUpTo 8 (fun _ c => crcBit c) (BitVec.ofNat 64 c ^^^ b.setWidth 64)).toNat

/-- The bytes of it in turn; the two arms say the same, and are apart so that an evaluation has each value before the next byte. -/
def crcBytes : List Byte → Nat → Nat
  | [], c => c
  | b :: bs, 0 => crcBytes bs (crcByte b 0)
  | b :: bs, c + 1 => crcBytes bs (crcByte b (c + 1))

/-- CRC-64 of R333: reflected, initial value and final XOR all ones. -/
def crc64 (bs : List Byte) : Word := ~~~(BitVec.ofNat 64 (crcBytes bs 0xFFFFFFFFFFFFFFFF))

/-- Bytes of a flit. -/
def Flit.bytes (f : Flit) : List Byte := (List.range 256).map fun i => f.extractLsb' (8 * i) 8

/-- The CRC of a flit holds. -/
def Flit.intact (f : Flit) : Bool := crc64 (f.bytes.take 248) == f.extractLsb' 1984 64

/-- A flit from its 248 bytes. -/
def Flit.seal (bs : List Byte) : Flit :=
  let bs := bs.take 248
  BitVec.ofNat 2048 (bytesToNat (bs ++ List.replicate (248 - bs.length) 0 ++ natToBytes 8 (crc64 (bs ++
    List.replicate (248 - bs.length) 0)).toNat))

/-- Key of a stream: source die, target die, class (R333). -/
def streamKey (src dst : DieId) (c : BitVec 3) : Nat := src.toNat * 2 ^ 16 + dst.toNat * 8 + c.toNat

/-- A stream. -/
def State.stream (s : State) (k : Nat) : Stream := s.streams.getD k {}
/-- A stream stored. -/
def State.setStream (s : State) (k : Nat) (x : Stream) : State := { s with streams := s.streams.put k x }

/-- A sequence number covers another (R334). -/
def covers (ack seq : BitVec 32) : Bool := decide ((ack - seq).toNat < 2 ^ 31)

/-- The class whose stream a flit's ACKSEQ, or a credit, speaks of: a flit of CLASS 0 names it in its tag (R333). -/
def Flit.ackClass (f : Flit) : BitVec 3 := if f.cls == 0 then f.extractLsb' 192 3 else f.cls

/-- An acknowledgement that arrives in a flit (R334, R335): the reverse stream's sender frees what it covers, and recorded
responses that it covers leave the replay cache. -/
def State.acked (s : State) (f : Flit) : State :=
  let k := streamKey f.dst f.src f.ackClass
  let x := s.stream k
  let s := s.setStream k { x with sent := x.sent.filter fun g => !covers f.ackSeq g.seq }
  forUpTo 8 (fun c s =>
    let j := streamKey f.src f.dst (BitVec.ofNat 3 c)
    let y := s.stream j
    s.setStream j { y with replay := y.replay.filter fun r => !(r.2.cls == f.ackClass && covers f.ackSeq r.2.seq) }) s

/-! ### Lost packages (R338, R345) -/

/-- A launch ends because a package it spans is lost (R345): before the commit of its start tick no hart starts, and no
team has been created; a team otherwise fails (R194). -/
def State.failSpan (s : State) (t : Team) : State :=
  if t.st == .placed && !t.committed && t.saved.isEmpty then
    s.setTeam { t with status := 1, cause := some 0x384, places := [], live := [], start := 0 }
  else s.failTeam t.id 0x384

/-- The words and the non-blocking accesses of a hart that may have accesses to a package under way, as it is found lost
(R340). -/
def Hart.catchLoss (h : Hart) (gone : PkgId) : Hart :=
  { h with front := { h.front with caught := gone :: h.front.caught }
           nb := h.nb.map fun x => { x with caught := gone :: x.caught } }

/-- The harts of a package, and the accesses left by its freed contexts, caught by the loss of another. -/
def State.catchLoss (s : State) (p gone : PkgId) : State :=
  let mark := fun (h : Hart) => if pkgOf h.pos == p then h.catchLoss gone else h
  { s with hart := mark s.hart, parked := s.parked.map mark
           cores := s.cores.map fun (k, c) => (k, { c with orphans := c.orphans.map mark }) }

/-- Package `p` finds package `gone` lost (R338): it leaves the present set, the circuits and streams to it close, and
the teams that span it fail; it is isolated until it resets. While the package manager reloads, the pod map is frozen
(R397). -/
def State.losePackage (s : State) (p gone : PkgId) : State :=
  if p == gone || (s.pkg p).reload || !s.present p gone then s
  else
    let s := (s.dropPresent p gone).catchLoss p gone
    let s := s.setPkg gone { s.pkg gone with isolated := true }
    let d := ioDie p
    let s := forUpTo (s.podPorts p) (fun i s =>
      let x := s.reg d (0x20800 + 8 * i)
      if bit x 9 && bits x 0 9 == gone.toNat then s.setReg d (0x20800 + 8 * i) 0 else s) s
    let s := { s with streams := s.streams.filter fun (k, _) =>
      !((k / 2 ^ 20 == p.toNat && k / 128 % 512 == gone.toNat) || (k / 2 ^ 20 == gone.toNat && k / 128 % 512 == p.toNat)) }
    s.teamList.foldl (fun s t =>
      let on := fun q => t.holding.any fun h => pkgOf h == q
      if on gone && (on p || t.pkg == p) then s.failSpan t else s) s

/-- PACKAGE_REMOVAL_RECOGNISED (R338). -/
def execPackageRemovalRecognised (pkg gone : PkgId) (s : State) : Res := .next (s.losePackage pkg gone)
/-- PACKAGE_RESPONSE_TIMEOUT (R338). -/
def execPackageResponseTimeout (pkg gone : PkgId) (s : State) : Res := .next (s.losePackage pkg gone)

/-- EVACUATION_PHASE_END (R417): the phase ends and the next begins; at the end of phase 1 every peer has removed the
package, as under R338, so it does not end while the package or a peer reloads Burup (R397); phase 5 fails with the zones
still wet, if any. -/
def execEvacuationPhaseEnd (pkg : PkgId) (s : State) : Res :=
  let d := ioDie pkg
  let n := bits (s.reg d 0xE4010) 0 4
  if !s.evacuating pkg then .next s
  else if n == 1 then
    let peers := (List.range 512).map (BitVec.ofNat 9) |>.filter fun q => q != pkg && s.present q pkg
    if (pkg :: peers).any fun q => (s.pkg q).reload then .next s
    else .next ((peers.foldl (fun s q => s.losePackage q pkg) s).setReg d 0xE4010 2)
  else if n == 5 then
    let wet := ((List.range 146).filter fun z => s.zoneHeld pkg z && !bit (s.reg d (zoneOff z + 16)) 40).length
    .next (s.setReg d 0xE4010 (if wet == 0 then 6 else place wet 8 ||| 8))
  else if n == 6 then .next s
  else .next (s.setReg d 0xE4010 (BitVec.ofNat 64 (n + 1)))

/-! ### Read-only remote windows (R341 to R343) -/

/-- The windows of a die whose claim stands (R341). -/
def State.liveWindows (s : State) (d : DieId) : List (Nat × Window) :=
  (s.die d).windows.filter fun (_, w) => s.liveOnDie w.team d

/-- `rwin` (R342). Which of several free entries is taken is free. -/
def execRwin (d a b : SReg) (s : State) : Res :=
  let x := s.getS a
  let n := s.getS b
  let die := dieOf s.hart.pos
  let last := x.toNat + n.toNat - 1
  let ws := s.liveWindows die
  trapIf (x.toNat % 65536 != 0) 0x143 x s <|
  trapIf (n == 0 || n.toNat % 65536 != 0) 0x143 n s <|
  trapIf (x.toNat / 2 ^ 44 != last / 2 ^ 44 || aDieId x == die || aDie x == 8 || spaceOf x == some .rows ||
    spaceOf x == some .regs) 0x143 x s <|
  trapIf (ws.any fun (_, w) => w.team == s.hart.team && decide (w.base.toNat ≤ last) &&
    decide (x.toNat < w.base.toNat + w.size)) 0x143 x s <|
  trapIf (decide (s.podSize (pkgOf s.hart.pos) ≤ (aPkg x).toNat)) 0x142 x s <|
  trapIf (s.namesSpace (s.scalarHow .load).master false x 1).isNone 0x0C1 x s <|
    let free := (List.range 64).filter fun i => !ws.any fun w => w.1 == i
    trapIf free.isEmpty 0x144 x s <|
      let i := free.getD (Config.pick s.free % free.length) 0
      let y := s.die die
      let new := Tab.put (α := Window) ws i { team := s.hart.team, base := x, size := n.toNat }
      let s := s.take.setDie die { y with windows := new }
      .next (s.setS d (BitVec.ofNat 64 i)).retireV

/-- `runmap` (R343). -/
def execRunmap (a : SReg) (s : State) : Res :=
  let x := s.getS a
  let d := dieOf s.hart.pos
  let mine := (s.liveWindows d).find? fun (i, w) => i == x.toNat && w.team == s.hart.team
  match mine with
  | none => .next (s.trap 0x145 x)
  | some (i, _) =>
    let y := s.die d
    .next (s.setDie d { y with windows := y.windows.drop i }).retireV

end Sys2Proof.Machine
end

