-- ==== Sys2Proof/Machine/Sync.lean ====
section
/-! DEFINITION. Barriers, semaphores, queues, iteration post and wait: major 0x20, the team words apart (R206 to R224). -/

namespace Sys2Proof.Machine

/-! ### Subteams and barrier instances (R201, R209) -/

/-- The keys of the subteams a hart is in, the innermost first: its place under its launched team. -/
def Hart.path (h : Hart) : List (BitVec 32) := h.levels.map Prod.fst

/-- A hart is a live hart of the team at a path under a launched team. -/
def Hart.inTeam (h : Hart) (t : TeamId) (path : List (BitVec 32)) : Bool :=
  h.placed && h.team == t && h.path.drop (h.path.length - path.length) == path && decide (path.length ≤ h.path.length)

/-- Two harts lie in the same unit of a scope (R209). -/
def sameUnit (sc : Scope) (a b : HartId) : Bool :=
  match sc with
  | .lane => a == b
  | .core => coreOf a == coreOf b
  | .quad => quadOf (coreOf a) == quadOf (coreOf b)
  | .die => dieOf a == dieOf b
  | .pkg => pkgOf a == pkgOf b
  | .pod => true

/-- The participants of the hart's barrier at a scope (R209). -/
def State.participants (s : State) (sc : Scope) (h : Hart) : List Hart :=
  s.harts.filter fun x => x.inTeam h.team h.path && sameUnit sc x.pos h.pos

/-- Live harts of a team that have left their contexts, as they stood: none of them has arrived (R208). -/
def State.gone (s : State) (t : TeamId) : List Hart :=
  match s.team t with
  | some x => x.saved.map Saved.hart
  | none => []

/-- The participants of the instance that a waiting hart has arrived at: those of its barrier, or the live harts of the team
that its `tsplit` divides or rejoins (R201, R209). -/
def State.instanceHarts (s : State) (h : Hart) : List Hart :=
  match h.run with
  | .waiting (.bar sc) => s.participants sc h
  | .waiting (.split _ _) => s.harts.filter fun x => x.inTeam h.team h.path
  | .waiting (.rejoin _) => s.harts.filter fun x => x.inTeam h.team (h.path.drop 1)
  | _ => []

/-- Every live participant of the instance that a waiting hart has arrived at has arrived, and none has been pre-empted since
(R201, R209). -/
def State.allArrived (s : State) (h : Hart) : Bool :=
  match h.run with
  | .waiting (.bar sc) =>
    ((s.instanceHarts h).all fun x => x.run == .waiting (.bar sc) && x.path == h.path) &&
      !(s.gone h.team).any fun x => x.inTeam h.team h.path && sameUnit sc x.pos h.pos
  | .waiting (.split _ _) =>
    ((s.instanceHarts h).all fun x => x.path == h.path && match x.run with
      | .waiting (.split _ _) => true
      | _ => false) && !(s.gone h.team).any fun x => x.inTeam h.team h.path
  | .waiting (.rejoin _) =>
    ((s.instanceHarts h).all fun x =>
      x.path.length == h.path.length && match x.run with
      | .waiting (.rejoin _) => true
      | _ => false) && !(s.gone h.team).any fun x => x.inTeam h.team (h.path.drop 1)
  | _ => false

/-- The instance that a waiting hart has arrived at is complete: all have arrived, and the accesses of the engine commands
that they have pushed are performed (rule 4 of R209). -/
def State.instanceDone (s : State) (h : Hart) : Bool :=
  s.allArrived h && (s.instanceHarts h).all fun x => !s.engineBusy x.pos

/-- Every participant of a completed barrier retires its word. -/
def State.releaseBar (s : State) (sc : Scope) (h : Hart) : State :=
  ((s.participants sc h).map Hart.pos).foldl (fun s p => s.onHart p State.advance) s

/-- `bar` (R209): the hart arrives; the last arrival completes the instance. `bar.lane` orders as a fence of every kind. -/
def execBar (sc : Scope) (s : State) : Res :=
  if sc = .lane then (if s.engineBusy s.hart.pos then .next (s.wait .fence) else .next s.advance)
  else
    let s := s.wait (.bar sc)
    if s.instanceDone s.hart then .next (s.releaseBar sc s.hart) else .next s

/-- BARRIER_RELEASE (R209): the instance that a waiting hart stands at completes. -/
def execBarrierRelease (h : HartId) (s : State) : Res :=
  let x := s.hartAt h
  match x.run with
  | .waiting (.bar sc) => if s.instanceDone x then .next (s.releaseBar sc x) else .next s
  | _ => .next s

/-- The kind of a barrier wait, as `tval` holds it (R210); none for another wait. -/
def waitKind : Run → Option Nat
  | .waiting (.bar sc) => some sc.toBits.toNat
  | .waiting (.split _ _) => some 6
  | .waiting (.rejoin _) => some 7
  | _ => none

/-- The barrier arrivals of a launched team are mismatched (R210). -/
def State.mismatched (s : State) (t : TeamId) : Bool :=
  let xs := s.harts.filter fun x => x.placed && x.team == t
  let saved := match s.team t with
    | some x => !x.saved.isEmpty
    | none => false
  !xs.isEmpty && !saved && xs.all (fun x => (waitKind x.run).isSome) && xs.all fun x => !s.allArrived x

/-- BARRIER_MISMATCH_DETECT (R210): every waiting hart of the team traps, its arrival withdrawn. -/
def execBarrierMismatchDetect (t : TeamId) (s : State) : Res :=
  if s.mismatched t then
    .next (((s.harts.filter fun x => x.placed && x.team == t).map Hart.pos).foldl (fun s p =>
      match waitKind (s.hartAt p).run with
      | some k => s.onHart p fun s => s.trap 0x207 (BitVec.ofNat 64 k)
      | none => s) s)
  else .next s

/-! ### Semaphores (R213 to R216) -/

/-- Reserved bits of a synchronisation operand are set (R207). -/
def syncOperand (x reserved : Word) (s : State) (k : Res) : Res := trapIf (x &&& reserved != 0) 0x04E x s k

/-- One attempt of a `sacq` (R213): harts are served in the order of their arrival. -/
def State.acquire (s : State) (n : BitVec 6) (amount : BitVec 48) : State :=
  let c := s.myCore
  let m := c.sema n
  let me := s.hart.pos
  let first := match m.waiters with
    | [] => true
    | h :: _ => h == me
  if amount == 0 || (first && decide (amount ≤ m.count)) then
    (s.setMyCore (c.setSema n { m with count := m.count - amount, waiters := m.waiters.filter (· != me) })).advance
  else
    let ws := if m.waiters.contains me then m.waiters else m.waiters ++ [me]
    (s.setMyCore (c.setSema n { m with waiters := ws })).wait (.sem n amount)

/-- `sacq` (R213). -/
def execSacq (a : SReg) (_sc : Scope) (n : BitVec 6) (s : State) : Res :=
  let x := s.getS a
  syncOperand x 0xFFFF000000000000 s <| namingSema n s fun s => .next (s.acquire n (x.setWidth 48))

/-- SACQ_WAIT_COMPLETE (R213). -/
def execSacqWaitComplete (h : HartId) (s : State) : Res :=
  match (s.hartAt h).run with
  | .waiting (.sem n amount) => .next (s.onHart h fun s => s.acquire n amount)
  | _ => .next s

/-- `srel` (R214). -/
def execSrel (a : SReg) (_sc : Scope) (n : BitVec 6) (s : State) : Res :=
  let x := s.getS a
  syncOperand x 0xFFFF000000000000 s <| namingSema n s fun s =>
    let m := s.myCore.sema n
    trapIf (decide (2 ^ 48 ≤ m.count.toNat + x.toNat)) 0x205 (n.setWidth 64) s <|
      .next (s.setMyCore (s.myCore.setSema n { m with count := m.count + x.setWidth 48 })).advance

/-- The state of a semaphore as `stry` returns it, OK apart (R211). -/
def Sema.word (m : Sema) : Word :=
  place (bitNat m.ovf) 62 ||| place (bitNat m.rerr) 61 ||| place (bitNat m.tfail) 60 ||| m.count.setWidth 64

/-- `stry` (R215). -/
def execStry (d a : SReg) (_sc : Scope) (n : BitVec 6) (s : State) : Res :=
  let x := s.getS a
  syncOperand x 0x7FFF000000000000 s <| namingSema n s fun s =>
    let m := s.myCore.sema n
    let amount : BitVec 48 := x.setWidth 48
    let ok := decide (amount ≤ m.count)
    let m' := if ok then { m with count := m.count - amount } else m
    let m' := if bit x 63 then { m' with ovf := false, rerr := false, tfail := false } else m'
    .next ((s.setMyCore (s.myCore.setSema n m')).setS d (m.word ||| place (bitNat ok) 63)).advance

/-- SEMAPHORE_RELEASE (R212). -/
def execSemaphoreRelease (core : CoreId) (n : BitVec 6) (s : State) : Res :=
  match ((s.core core).sema n).team with
  | none => .next s
  | some t => if s.semaHeld core n t then .next s else .next (s.setCore core ((s.core core).setSema n {}))

/-! ### Queues (R217 to R220) -/

/-- Entries of a queue of the hart. -/
def Hart.queueCount (h : Hart) (q : BitVec 3) : Nat :=
  if q.toNat < 4 then (h.vq.get (q.extractLsb' 0 2).toFin).length else (h.sq.get (q.extractLsb' 0 2).toFin).length

/-- Entries a queue has room for (R217). -/
def queueRoom (q : BitVec 3) : Nat := if q.toNat < 4 then 4 else 16

/-- A queue emptied. -/
def Hart.emptyQueue (h : Hart) (q : BitVec 3) : Hart :=
  if q.toNat < 4 then { h with vq := h.vq.set (q.extractLsb' 0 2).toFin [] }
  else { h with sq := h.sq.set (q.extractLsb' 0 2).toFin [] }

/-- `qcnt` (R218). -/
def execQcnt (d : SReg) (q : BitVec 3) (s : State) : Res :=
  .next (s.setS d (BitVec.ofNat 64 (s.hart.queueCount q))).advance

/-- `qfl` (R219). -/
def execQfl (q : BitVec 3) (s : State) : Res := .next { s with hart := s.hart.emptyQueue q }.advance

/-- A wait on a queue stands still: its pop finds the queue empty, or its push finds it full. -/
def Hart.queueBlocked (h : Hart) : Wait → Option (BitVec 3)
  | .queuePop q => if h.queueCount q == 0 then some q else none
  | .queuePush q => if queueRoom q ≤ h.queueCount q then some q else none
  | _ => none

/-- QUEUE_WAIT_COMPLETE (R217): the queue has room or data, and the waiting word goes on: it executes next. Until it does,
it counts as satisfied, and nothing interrupts it (R208). -/
def execQueueWaitComplete (h : HartId) (s : State) : Res :=
  let x := s.hartAt h
  match x.run with
  | .waiting (.queuePop q) =>
    if (x.queueBlocked (.queuePop q)).isNone then .next { s with agenda := .hart h :: s.agenda } else .next s
  | .waiting (.queuePush q) =>
    if (x.queueBlocked (.queuePush q)).isNone then .next { s with agenda := .hart h :: s.agenda } else .next s
  | _ => .next s

/-! ### Iteration channels (R221 to R223) -/

/-- A channel of the hart's die. -/
def State.channel (s : State) (c : BitVec 3) : IterChan := (s.die (dieOf s.hart.pos)).iters.get c.toFin
/-- A channel of the hart's die stored. -/
def State.setChannel (s : State) (c : BitVec 3) (x : IterChan) : State :=
  let d := dieOf s.hart.pos
  s.setDie d { s.die d with iters := (s.die d).iters.set c.toFin x }

/-- A word of the hart names a channel: the team's, or claimed now; another team's traps (R221). -/
def namingChannel (c : BitVec 3) (s : State) (k : State → Res) : Res :=
  let t := s.hart.team
  match (s.channel c).team with
  | none => k (s.setChannel c { team := some t })
  | some u =>
    if u = t then k s
    else if s.liveOnDie u (dieOf s.hart.pos) then .next (s.trap 0x209 (c.setWidth 64))
    else k (s.setChannel c { team := some t })

/-- One attempt of an `ipost` (R222). -/
def State.postIter (s : State) (c : BitVec 3) (i : Nat) : State :=
  let x := s.channel c
  if x.count = i then (s.setChannel c { x with count := i + 1 }).advance else s.wait (.ipost c (BitVec.ofNat 47 i))

/-- `ipost` (R222). The test of C comes before the wait: a word that waits only waits on. -/
def execIpost (a : SReg) (c : BitVec 3) (s : State) : Res :=
  let x := s.getS a
  let i := bits x 0 47
  let waits := s.hart.run == .waiting (.ipost c (BitVec.ofNat 47 i))
  syncOperand x 0x7FFF800000000000 s <| namingChannel c s fun s =>
    if bit x 63 then .next (s.setChannel c { s.channel c with count := i }).advance
    else trapIf (!waits && decide (i < (s.channel c).count)) 0x208 x s <| .next (s.postIter c i)

/-- IPOST_WAIT_COMPLETE (R222). -/
def execIpostWaitComplete (h : HartId) (s : State) : Res :=
  match (s.hartAt h).run with
  | .waiting (.ipost c i) => .next (s.onHart h fun s => s.postIter c i.toNat)
  | _ => .next s

/-- One attempt of an `iwait` (R223). -/
def State.waitIter (s : State) (c : BitVec 3) (i : Nat) : State :=
  if i ≤ (s.channel c).count then s.advance else s.wait (.iwait c (BitVec.ofNat 47 i))

/-- `iwait` (R223). -/
def execIwait (a : SReg) (c : BitVec 3) (s : State) : Res :=
  let x := s.getS a
  syncOperand x 0xFFFF800000000000 s <| namingChannel c s fun s => .next (s.waitIter c (bits x 0 47))

/-- IWAIT_WAIT_COMPLETE (R223). -/
def execIwaitWaitComplete (h : HartId) (s : State) : Res :=
  match (s.hartAt h).run with
  | .waiting (.iwait c i) => .next (s.onHart h fun s => s.waitIter c i.toNat)
  | _ => .next s

/-! ### Interrupting a wait (R208) -/

/-- The condition that a waiting hart waits for holds: its word retires before anything interrupts it (R208, R268, R269). -/
def State.satisfied (s : State) (h : Hart) : Bool :=
  let chan := fun (c : BitVec 3) => ((s.die (dieOf h.pos)).iters.get c.toFin).count
  match h.run with
  | .waiting (.sem n amount) =>
    let m := (s.core (coreOf h.pos)).sema n
    amount == 0 || (m.waiters.head? == some h.pos && decide (amount ≤ m.count))
  | .waiting (.ipost c i) => chan c == i.toNat
  | .waiting (.iwait c i) => decide (i.toNat ≤ chan c)
  | .waiting (.queuePop q) => (h.queueBlocked (.queuePop q)).isNone
  | .waiting (.queuePush q) => (h.queueBlocked (.queuePush q)).isNone
  | .waiting (.cpyq c) => decide ((s.core c).cpyq.length < 16)
  | .waiting (.dgq c) => decide ((s.core c).launch.length < 16)
  | .waiting (.cres c) => !(s.core c).cres.isEmpty
  | .waiting .rowQueue =>
    decide (min h.vl.toNat 64 ≤ 512 - (s.quad (quadOf (coreOf h.pos))).rows) && decide ((s.core (coreOf h.pos)).cpyq.length < 16)
  | .waiting (.burup p) => !(s.pkg p).reload
  | .waiting .fife => !(s.core (coreOf h.pos)).fife.heldBy h.pos
  | _ => s.instanceDone h

end Sys2Proof.Machine
end

