-- ==== Sys2Proof/Machine/Teams.lean ====
section
/-! DEFINITION. Teams: launch records and rings, the distributor, placement, start and completion, the team words (R187
to R205, R344, R345). -/

namespace Sys2Proof.Machine

/-! ### Launch records (R189 to R191) -/

/-- A field of a record's control word. -/
def recCtl (rec : LaunchRec) (lo n : Nat) : Nat := bits (wordAt rec 13) lo n

/-- A record is malformed (R191). -/
def recMalformed (rec : LaunchRec) (fromRing : Bool) : Bool :=
  let cmp := recCtl rec 28 2
  bits (shapeOf rec) 21 43 != 0 || recCtl rec 37 27 != 0 || bits (wordAt rec 0) 0 2 != 0 ||
    bits (wordAt rec 9) 0 4 != 0 || bits (wordAt rec 10) 0 4 != 0 ||
    (decide (2 ≤ cmp) && bits (wordAt rec 14) 0 5 != 0) || (recCtl rec 36 1 == 1 && bits (wordAt rec 8) 0 5 != 0) ||
    recCtl rec 0 4 == 0 || decide (16 < recCtl rec 4 5) || decide (8 < recCtl rec 9 4) ||
    (fromRing && cmp % 2 == 1)

/-- Packages that a package holds present, within the configured pod (R327). -/
def State.packages (s : State) (p : PkgId) : List PkgId :=
  ((List.range (max 1 (s.podSize p))).map (BitVec.ofNat 9)).filter fun q => s.present p q

/-- Compute dies of a package that have not failed. -/
def State.diesUp (s : State) (p : PkgId) : Nat :=
  ((List.range (s.computeDies p)).filter fun d => !(s.die (dieAt p d)).failed).length

/-- Rows that a package can hold: 8 per channel (R191). -/
def rowCapacity (dies : Nat) : Nat := 8 * 64 * dies

/-- A record can never be placed (R191): too few packages that are present hold its dies and its whole row quota. -/
def State.neverPlaced (s : State) (p : PkgId) (rec : LaunchRec) : Bool :=
  let x := shapeOf rec
  let fits := fun q => decide (shapeD x ≤ s.diesUp q) && decide (recCtl rec 13 10 ≤ rowCapacity (s.diesUp q))
  decide (16 < shapeH x * recCtl rec 4 5) || decide (8 < shapeH x * recCtl rec 9 4) ||
    decide (((s.packages p).filter fits).length < shapeK x)

/-! ### Accesses of the distributor (R192) -/

/-- How the distributor of a package accesses an address. -/
def distHow (p : PkgId) (asid : BitVec 9) (acc : Acc) : How :=
  { master := distributor p asid, team := 0, acc := acc, bank := 0 }

/-- `n` bytes read by the distributor, 8 at a time. -/
def State.distRead (s : State) (p : PkgId) (asid : BitVec 9) (a : Word) (n : Nat) :
    Except (BitVec 10) (List Byte × State) :=
  (List.range (n / 8)).foldl (fun acc i =>
    match acc with
    | .error c => .error c
    | .ok (bs, s) =>
      match s.check (distHow p asid .load) (a + BitVec.ofNat 64 (8 * i)) 8 with
      | .error .lost => .error 0x140
      | .error (.cause c) => .error c
      | .ok (q, s) =>
        match s.poisonCause q.keys with
        | some c => .error c
        | none => .ok (bs ++ s.bytes q.keys, s)) (.ok ([], s))

/-- 8 bytes written by the distributor; none where a check fails. -/
def State.distWrite (s : State) (p : PkgId) (asid : BitVec 9) (a : Word) (x : Word) : Option State :=
  match s.check (distHow p asid .store) a 8 with
  | .error _ => none
  | .ok (q, s) => some (s.store q.keys (natToBytes 8 x.toNat))

/-! ### Completion (R194, R200, R381) -/

/-- Registers of ring k of context a (R392). -/
def State.ringReg (s : State) (p : PkgId) (ring : Nat) : Word := s.ctxReg p (ring / 4) (24 + 8 * (ring % 4))
/-- Base of a ring. -/
def State.ringBase (s : State) (p : PkgId) (ring : Nat) : Word := s.ringReg p ring &&& 0xFFFFFFFFFFFFF000

/-- ERRS of a team's ring, at its base when the record was accepted, rises by 1 (R192, R392). -/
def State.countError (s : State) (t : Team) : State :=
  match t.source with
  | .spawn _ _ => s
  | .ring _ _ =>
    let a := t.ringAt + 24
    match s.distRead t.pkg t.asid a 8 with
    | .error _ => s
    | .ok (bs, s) => (s.distWrite t.pkg t.asid a (BitVec.ofNat 64 (bytesToNat bs + 1))).getD s

/-- The host completion record (R194): written when its four words pass their checks; one that a host link that is down
does not take counts in HLOST (R381). -/
def State.writeCompletion (s : State) (t : Team) (created : Bool) : State :=
  let seq : Word := match t.source with
    | .ring _ n => n
    | .spawn _ _ => 0xFFFFFFFFFFFFFFFF
  let stat : Word := place ((t.cause.getD 0).toNat) 8 ||| t.status.setWidth 64
  let words := [seq, stat, s.now, if created then t.id.setWidth 64 else 0]
  let a := wordAt t.record 14
  let out := (words.zip (List.range 4)).foldl (fun acc (w, i) =>
    acc.bind fun s => s.distWrite t.pkg t.asid (a + BitVec.ofNat 64 (8 * i)) w) (some s)
  match out with
  | some s => s
  | none =>
    if spaceOf a == some .host && !(s.pkg (aPkg a)).hostUp then
      let d := ioDie (aPkg a)
      s.setReg d 0x70000 (BitVec.ofNat 64 ((bits (s.reg d 0x70000) 0 32 + 1) % 2 ^ 32))
    else s

/-- The post of a spawned team's end to a semaphore of the spawning core, or to that semaphore in the custody of a team
that is pre-empted (R200, R312). -/
def State.postSpawner (s : State) (c : CoreId) (u : TeamId) (n : Nat) (failed : Bool) : State :=
  match s.team u with
  | none => s.post c (BitVec.ofNat 6 n) 1 false failed
  | some x =>
    if x.kept.places.isEmpty then s.post c (BitVec.ofNat 6 n) 1 false failed
    else
      let k := coreCoord (shapeOf x.record) (x.kept.places.findIdx fun h => coreOf h == c)
      let sems := x.kept.sems.map fun (j, m, y) => (j, m, if j == k && m == n then y.post 1 false failed else y)
      s.setTeam { x with kept := { x.kept with sems := sems } }

/-- A team completes (R194, R200): its record, its post, its ring's error count; it is forgotten, its frames free. -/
def State.finishTeam (s : State) (t : Team) : State :=
  let created := t.status == 0 || (t.status == 1 && !t.places.isEmpty)
  let s := s.passTime
  let cmp := t.ctl 28 2
  let s := if 2 ≤ cmp then s.writeCompletion t created else s
  let s := match t.source with
    | .ring _ _ => s
    | .spawn c u => if cmp % 2 == 1 then s.postSpawner c u (t.ctl 30 6) (t.status == 1) else s
  let s := if decide (2 ≤ t.status.toNat) then s.countError t else s
  { s with teams := s.teams.drop t.id.toNat }

/-- An access of a team is still to be performed (R194): one of an engine command, or one that a stopped hart left
outstanding. -/
def State.accessesOut (s : State) (team : TeamId) : Bool :=
  s.cores.any fun (_, c) => c.cpyq.any (fun x => x.team == team) || c.orphans.any fun h => h.team == team

/-- TEAM_COMPLETE (R194): after the last hart of a team has exited, or the team has ended otherwise, and every access of
it has been performed. -/
def execTeamComplete (team : TeamId) (s : State) : Res :=
  match s.team team with
  | none => .next s
  | some t =>
    match t.st with
    | .accepted | .chosen | .placed => if t.status == 0 then .next s else .next (s.finishTeam t)
    | .running | .preempting | .preempted | .completed =>
      if t.live.isEmpty && !s.accessesOut team then .next (s.finishTeam t) else .next s

/-! ### Acceptance (R187, R193, R200) -/

/-- A fresh identity for a team launched on a package: a nonzero count that no team of the pod uses (R188). -/
def State.freshTeam (s : State) (p : PkgId) : TeamId × State :=
  let id := fun n => p ++ BitVec.ofNat 23 (1 + (s.teamCount + n) % (2 ^ 23 - 1))
  let n := ((List.range (s.teams.length + 1)).find? fun n => (s.team (id n)).isNone).getD 0
  (id n, { s with teamCount := s.teamCount + n + 1, failedTeams := s.failedTeams.filter fun f => f.team != id n })

/-- A launch accepted as a team that waits for its choice. -/
def newTeam (id : TeamId) (p : PkgId) (asid : BitVec 9) (prio : BitVec 4) (rec : LaunchRec) (src : Source) : Team where
  id := id
  pkg := p
  asid := asid
  prio := prio
  record := rec
  source := src
  st := .accepted
  places := []
  live := []
  hc := BitVec.ofNat 4 (recCtl rec 24 4)
  flow := none
  order := 0
  start := 0
  replies := []
  images := false
  status := 0
  cause := none
  frames := []
  saved := []
  kept := {}

/-- A record copied from a ring is accepted: malformed and unplaceable ones complete at once (R193). -/
def State.acceptRecord (s : State) (p : PkgId) (asid : BitVec 9) (prio : BitVec 4) (ring : Nat) (n : Word)
    (rec : Except (BitVec 10) LaunchRec) : State :=
  let (id, s') := s.freshTeam p
  match rec with
  | .error c =>
    s.finishTeam { newTeam id p asid prio [] (.ring ring n) with status := 2, cause := some c, ringAt := s.ringBase p ring }
  | .ok r =>
    let t := { newTeam id p asid prio r (.ring ring n) with ringAt := s.ringBase p ring }
    if recMalformed r true then s.finishTeam { t with status := 2 }
    else if s.neverPlaced p r then s.finishTeam { t with status := 3 }
    else s'.setTeam t

/-- The clocks of a package have stopped for its evacuation (R417). -/
def State.clocksStopped (s : State) (p : PkgId) : Bool :=
  let n := bits (s.reg (ioDie p) 0xE4010) 0 4
  decide (3 ≤ n) && n != 7

/-- The distributor of a package is enabled: bring-up step 7 has completed (R406), its image verifies (R404), and its clocks
run. -/
def State.enabled (s : State) (p : PkgId) : Bool :=
  let b := (s.pkg p).boot
  decide (7 ≤ (s.pkg p).step) && b.verifies b.distributor && !s.clocksStopped p

/-- RING_POLL (R192, R193): the distributor reads TAIL and CFG of a registered ring, and accepts the next record. -/
def execRingPoll (pkg : PkgId) (asid : BitVec 9) (k : BitVec 2) (s : State) : Res :=
  let ring := 4 * asid.toNat + k.toNat
  let reg := s.ringReg pkg ring
  if !s.enabled pkg || !bit reg 0 || !bit (s.ctxReg pkg asid.toNat 16) 63 then .next s
  else
    let base := s.ringBase pkg ring
    match s.distRead pkg asid base 40 with
    | .error _ => .next s
    | .ok (bs, s) =>
      let h := bytesToWords 5 bs
      let (tail, head, cfg) := (wordAt h 0, wordAt h 1, wordAt h 2)
      if !ringCfgOk cfg launchCfgReserved then .next ((s.distWrite pkg asid (base + 32) 1).getD s)
      else
        let s := if wordAt h 4 != 0 then (s.distWrite pkg asid (base + 32) 0).getD s else s
        let prio := BitVec.ofNat 4 (min (bits cfg 8 4) (bits (s.ctxReg pkg asid.toNat 16) 16 4))
        let pending := s.teamList.find? fun t => t.st == .accepted && t.pkg == pkg && match t.source with
          | .ring r _ => r == ring
          | .spawn _ _ => false
        match pending with
        | some t => .next (if t.ringAt == base then s.setTeam { t with prio := prio } else s)
        | none =>
          let ahead := (tail - head).toNat
          if !bit cfg 12 || ahead == 0 || decide (2 ^ bits cfg 0 5 < ahead) then .next s
          else
            let a := base + BitVec.ofNat 64 (128 + 128 * (head.toNat % 2 ^ bits cfg 0 5))
            match s.distWrite pkg asid (base + 8) (head + 1) with
            | none => .next s
            | some t =>
              match s.distRead pkg asid a 128 with
              | .error c => .next (t.acceptRecord pkg asid prio ring head (.error c))
              | .ok (bs, _) => .next (t.acceptRecord pkg asid prio ring head (.ok (bytesToWords 16 bs)))

/-! ### The distributor's choice (R195, R196) -/

/-- Position of a launch's source in the round-robin list of its package: rings, then the spawn queues of the dies. R195 gives
neither the order of the list nor the source that a package starts after; rings stand by context and number, and the first
choice comes after source 0 (log entry 23). -/
def Team.sourceIndex (t : Team) : Nat :=
  match t.source with
  | .ring r _ => r
  | .spawn c _ => 2048 + (dieInPkg (dieOfCore c)).toNat

/-- The launch is at the head of its source: a ring has one accepted at a time, a spawn queue its oldest (R193, R195). -/
def State.atHead (s : State) (t : Team) : Bool :=
  match t.source with
  | .ring _ _ => true
  | .spawn c _ => (s.die (dieOfCore c)).spawnq.head? == some t.id

/-- What the distributor of a package considers, in the order of R195: priority, then resuming teams by the order of
their pre-emption, then the sources after the last one chosen. -/
def State.choiceKey (s : State) (p : PkgId) (t : Team) : Nat × Nat × Nat :=
  if t.st == .preempted then (15 - t.prio.toNat, 0, t.order)
  else (15 - t.prio.toNat, 1, (t.sourceIndex + 4096 - (s.pkg p).last - 1) % 4096)

/-- Order of keys. -/
def keyLt (a b : Nat × Nat × Nat) : Bool :=
  decide (a.1 < b.1) || (a.1 == b.1 && (decide (a.2.1 < b.2.1) || (a.2.1 == b.2.1 && decide (a.2.2 < b.2.2))))

/-- The next choice of a package (R195): one choice at a time. -/
def State.nextChoice (s : State) (p : PkgId) : Option Team :=
  let ts := s.teamList.filter fun t => t.pkg == p
  if ts.any fun t => t.st == .chosen then none
  else
    match ts.filter fun t => t.status == 0 && (t.st == .preempted || (t.st == .accepted && s.atHead t)) with
    | [] => none
    | x :: rest => some (rest.foldl (fun b t => if keyLt (s.choiceKey p t) (s.choiceKey p b) then t else b) x)

/-- Of the harts that hold a core: those of the teams given. -/
def State.coreUse (s : State) (on : Team → Bool) (c : CoreId) : Nat × Nat × Nat :=
  s.teamList.foldl (fun (n, sl, tl) t =>
    if on t then
      let k := t.holding.countP fun h => coreOf h == c
      (n + k, sl + k * t.ctl 4 5, tl + k * t.ctl 9 4)
    else (n, sl, tl)) (0, 0, 0)

/-- A core has room for the harts that a shape puts on it (R197). -/
def State.coreRoom (s : State) (on : Team → Bool) (rec : LaunchRec) (c : CoreId) : Bool :=
  let h := shapeH (shapeOf rec)
  let (n, sl, tl) := s.coreUse on c
  let q := s.quad (quadOf c)
  !(s.core c).failed && !q.failed && !q.halted && decide (n + h ≤ 4) &&
    decide (sl + h * recCtl rec 4 5 ≤ 16) && decide (tl + h * recCtl rec 9 4 ≤ 8)

/-- A zone in the dry state covers the quad (R416). -/
def State.dryQuad (s : State) (q : QuadId) : Bool :=
  let d := dieOfQuad q
  let n := (q.extractLsb' 0 5).toNat
  (List.range 146).any fun z => zoneCovers z (dieInPkg d).toNat n && bit (s.zoneEv (pkgOfDie d) z) 8

/-- A pre-empted team, one chosen to resume among them, keeps rows under save on a package (R197, R243). -/
def Team.keepsRows (t : Team) (p : PkgId) : Bool :=
  (t.st == .preempted || t.st == .chosen) && t.ctl 23 1 == 0 && t.kept.places.any fun h => pkgOf h == p

/-- Row quotas that count on a package: those of the teams placed there and of those that keep rows under save (R197). -/
def State.rowsReserved (s : State) (on : Team → Bool) (p : PkgId) : Nat :=
  ((s.teamList.filter fun t => on t && (t.keepsRows p || (!t.holding.isEmpty && t.places.any fun h => pkgOf h == p))).map
    fun t => t.ctl 13 10).sum

/-- Some placement of a record exists beside the teams given (R196, R197): enough packages with enough dies with enough
quads with enough cores. -/
def State.placementExists (s : State) (p : PkgId) (on : Team → Bool) (rec : LaunchRec) : Bool :=
  let x := shapeOf rec
  let quadOk := fun d n =>
    let q := quadAt d n
    !s.dryQuad q && decide (shapeC x ≤ ((List.range 4).filter fun k => s.coreRoom on rec (coreAt d (4 * n + k))).length)
  let dieOk := fun d => !(s.die d).failed && decide (shapeQ x ≤ ((List.range 32).filter (quadOk d)).length)
  let pkgOk := fun (q : PkgId) =>
    decide (shapeD x ≤ ((List.range (s.computeDies q)).filter fun d => dieOk (dieAt q d)).length) &&
      decide (s.rowsReserved on q + recCtl rec 13 10 ≤ rowCapacity (s.diesUp q))
  decide (shapeK x ≤ ((s.packages p).filter pkgOk).length)

/-- Teams that may be pre-empted for a launch, in the order of R196: lowest priority, then started last. -/
def victimBefore (a b : Team) : Bool := decide (a.prio < b.prio) || (a.prio == b.prio && decide (b.order < a.order))

/-- A list with one element put before the first that it precedes. -/
def insertBy {α : Type} (lt : α → α → Bool) (x : α) : List α → List α
  | [] => [x]
  | y :: ys => if lt x y then x :: y :: ys else y :: insertBy lt x ys

/-- A team keeps what it holds from a launch (R196): it is of lower priority, and not being pre-empted. What teams of
equal or higher priority hold counts as available, since they will end. -/
def Team.keepsFrom (t v : Team) : Bool := decide (v.prio < t.prio) && v.id != t.id && v.st != .preempting

/-- Pre-emption of lower teams for a chosen launch (R196): requested one by one until a placement exists among what is
free and what is being freed. A team whose context lacks the frames is passed over (R393). -/
def State.preemptFor (s : State) (t : Team) : State :=
  let victims := (s.teamList.filter fun v => v.st == .running && t.keepsFrom v).foldl
    (fun acc v => insertBy victimBefore v acc) []
  victims.foldl (fun s v =>
    if s.placementExists t.pkg t.keepsFrom t.record || !s.canPreempt v then s else s.requestPreempt v.id) s

/-- The next number in the order of choices, starts and pre-emptions. -/
def State.nextOrder (s : State) : Nat := s.teamList.foldl (fun m t => max m (t.order + 1)) 1

/-- DISTRIBUTOR_CHOICE (R195, R196): while a choice awaits its placement, it asks for what it still needs. -/
def execDistributorChoice (pkg : PkgId) (s : State) : Res :=
  match (if s.enabled pkg then s.nextChoice pkg else none) with
  | none =>
    match s.teamList.find? fun t => t.pkg == pkg && t.st == .chosen with
    | some t => .next (s.preemptFor t)
    | none => .next s
  | some t =>
    let s := if t.st == .preempted then s else s.setPkg pkg { s.pkg pkg with last := t.sourceIndex }
    let s := match t.source with
      | .ring _ _ => s
      | .spawn c _ =>
        let d := dieOfCore c
        s.setDie d { s.die d with spawnq := (s.die d).spawnq.filter (· != t.id) }
    let t := { t with st := .chosen, places := [], order := s.nextOrder }
    .next ((s.setTeam t).preemptFor t)

/-! ### Placement (R197) -/

/-- The places follow the shape: rank r stands at its core, quad, die and package coordinates, and no context is named
twice. -/
def shapeHolds (x : Word) (places : List HartId) : Bool :=
  let ix := List.range places.length
  let at_ := fun r => places.getD r 0
  let same {α : Type} [DecidableEq α] (f : HartId → α) (n : Nat) : Bool :=
    ix.all fun i => ix.all fun j => decide ((f (at_ i) = f (at_ j)) ↔ i / n = j / n)
  let h := shapeH x
  let c := h * shapeC x
  let q := c * shapeQ x
  let d := q * shapeD x
  places.length == shapeSize x && places.eraseDups.length == places.length &&
    same coreOf h && same (fun y => quadOf (coreOf y)) c && same dieOf q && same pkgOf d

/-- A proposed placement satisfies R197, coolant apart. -/
def State.placementFits (s : State) (t : Team) (places : List HartId) : Bool :=
  let all := fun (u : Team) => u.id != t.id
  shapeHolds (shapeOf t.record) places &&
  places.all (fun h =>
    let c := coreOf h
    s.coreRoom all t.record c && !s.dryQuad (quadOf c) && !(s.die (dieOf h)).failed &&
      !(s.hartAt h).placed && s.present t.pkg (pkgOf h) && decide ((dieInPkg (dieOf h)).toNat < s.computeDies (pkgOf h)) &&
      !(s.teamList.any fun u => u.id != t.id && u.holding.contains h)) &&
  (places.map pkgOf).eraseDups.all fun p =>
    decide (s.rowsReserved all p + t.ctl 13 10 ≤ rowCapacity (s.diesUp p))

/-- The numbers that a pre-empted team's resources take again are free where they go (R221, R312). -/
def State.numbersFree (s : State) (t : Team) (places : List HartId) : Bool :=
  let x := shapeOf t.record
  let coreAtCoord := fun k => coreOf (places.getD (k * shapeH x) 0)
  let dieAtCoord := fun k => dieOf (places.getD (k * (shapeH x * shapeC x * shapeQ x)) 0)
  let heldBy := fun (o : Option TeamId) (live : TeamId → Bool) => match o with
    | some u => u != t.id && live u
    | none => false
  t.kept.sems.all (fun (k, n, _) => let c := coreAtCoord k
    !heldBy ((s.core c).sema (BitVec.ofNat 6 n)).team fun u => s.semaHeld c (BitVec.ofNat 6 n) u) &&
  t.kept.shapes.all (fun (k, n, _) => let c := coreAtCoord k
    !heldBy (((s.core c).shapes.getD n {}).team) fun u => s.liveOnCore u c) &&
  t.kept.nodes.all (fun (k, n, _) => let c := coreAtCoord k
    !heldBy (((s.core c).nodes.getD n {}).team) fun u => s.liveOnCore u c) &&
  t.kept.iters.all (fun (k, n, _) => let d := dieAtCoord k
    !heldBy ((s.die d).iters.get (BitVec.ofNat 3 n).toFin).team fun u => s.liveOnDie u d) &&
  t.kept.windows.all fun (k, n, _) => let d := dieAtCoord k
    ((s.die d).windows.find n).all fun w => !s.liveOnDie w.team d

/-- A chosen launch can use a core, once that is free: its reservation takes it as it frees (R196). -/
def State.couldUse (s : State) (u : Team) (c : CoreId) : Bool :=
  (s.packages u.pkg).contains (pkgOfCore c) && !(s.die (dieOfCore c)).failed && s.coreRoom (fun _ => false) u.record c

/-- A launch placed now takes nothing that the reservation of a launch chosen before it needs (R196): that one still has a
placement among the resources that are free, or could use none of the cores taken (log entry 23). -/
def State.leavesRoom (s : State) (t : Team) : Bool :=
  s.teamList.all fun u => u.st != .chosen || u.id == t.id || decide (t.order ≤ u.order) ||
    (s.setTeam t).placementExists u.pkg (fun v => v.id != u.id) u.record ||
    !t.places.any fun h => s.couldUse u (coreOf h)

/-! ### Gang launch (R345) -/

/-- The packages other than its own that a placed team spans. -/
def Team.spans (t : Team) : Bool := decide (1 < (t.places.map pkgOf).eraseDups.length)

/-- The deadline of the replies for a start tick, 1 µs before it, has passed (R345). -/
def State.late (s : State) (t : Team) : Bool := decide (t.start.toNat ≤ s.now.toNat + 1000)

/-- GANG_START_PROPOSAL (R345). -/
def execGangStartProposal (team : TeamId) (s : State) : Res :=
  match s.team team with
  | none => .next s
  | some t =>
    if t.st != .placed || !t.spans || t.start != 0 then .next s
    else
      let s := s.passTime
      let floor := if t.saved.isEmpty then wordAt t.record 15 else 0
      let soon := s.now + 4000
      .next (s.setTeam { t with start := if floor.ult soon then soon else floor, replies := [] })

/-- Every package that a team spans has replied. -/
def Team.agreed (t : Team) : Bool := (t.places.map pkgOf).eraseDups.all t.replies.contains

/-- GANG_START_REPLY (R345): one that comes before the deadline counts, and the last commits the start tick. -/
def execGangStartReply (team : TeamId) (pkg : PkgId) (s : State) : Res :=
  match s.team team with
  | none => .next s
  | some t =>
    if t.st != .placed || t.start == 0 || t.committed || s.late t || t.replies.contains pkg ||
        !(t.places.any fun h => pkgOf h == pkg) then .next s
    else
      let t := { t with replies := t.replies ++ [pkg] }
      .next (s.setTeam { t with committed := t.agreed })

/-- GANG_START_RETRY (R345): the deadline passes without every reply, and the proposal repeats 4 µs later. -/
def execGangStartRetry (team : TeamId) (s : State) : Res :=
  match s.team team with
  | none => .next s
  | some t =>
    if t.st != .placed || t.start == 0 || t.committed then .next s
    else
      let s := s.passTime
      if s.late t then .next (s.setTeam { t with start := t.start + 4000, replies := [] }) else .next s

/-! ### TCM images (R199) -/

/-- A TCM image descriptor is malformed. -/
def imageMalformed (w : List Word) : Bool :=
  let len := bits (wordAt w 1) 0 19
  let off := bits (wordAt w 2) 0 18
  bits (wordAt w 1) 19 45 != 0 || bits (wordAt w 2) 18 46 != 0 || wordAt w 3 != 0 || decide (len < 4) ||
    decide (262144 < len) || len % 4 != 0 || off % 4 != 0 || decide (262144 < off + len)

/-- Bytes of an image read one by one, since SRC may have any alignment, under the checks of a scalar load (R199). -/
def State.imageBytes (s : State) (t : Team) (src : Word) (n : Nat) : Except (BitVec 10) (List Byte × State) :=
  (List.range n).foldl (fun acc i =>
    match acc with
    | .error c => .error c
    | .ok (bs, s) =>
      match s.check (distHow t.pkg t.asid .load) (src + BitVec.ofNat 64 i) 1 with
      | .error .lost => .error 0x140
      | .error (.cause c) => .error c
      | .ok (p, s) =>
        match s.poisonCause p.keys with
        | some c => .error c
        | none => .ok (bs ++ s.bytes p.keys, s)) (.ok ([], s))

/-- 4 bytes of an image copied into the TCM of a core, written under the checks of a scalar store (R199). -/
def State.imageWord (s : State) (t : Team) (c : CoreId) (src : Word) (off : Nat) : Except (BitVec 10) State :=
  match s.imageBytes t src 4 with
  | .error x => .error x
  | .ok (bs, s) =>
      let a : Word := BitVec.ofNat 64 (homeKey (dieOfCore c) true 35 off)
      let how := { distHow t.pkg t.asid .store with
        master := { distributor t.pkg t.asid with die := dieOfCore c, core := some c } }
      match s.check how a 4 with
      | .error .lost => .error 0x140
      | .error (.cause x) => .error x
      | .ok (q, s) => .ok (s.store q.keys bs)

/-- A launch ends without starting (R194, R199, R345). -/
def State.endLaunch (s : State) (t : Team) (status : BitVec 8) (cause : BitVec 10) : State :=
  s.finishTeam { t with status := status, cause := some cause, places := [], live := [], start := 0 }

/-- TCM_IMAGE_LOAD (R199): the image is copied into each core of a placed team. -/
def execTcmImageLoad (team : TeamId) (s : State) : Res :=
  match s.team team with
  | none => .next s
  | some t =>
    if t.st != .placed || t.ctl 36 1 == 0 || t.images || !t.saved.isEmpty then .next s
    else
      match s.distRead t.pkg t.asid (wordAt t.record 8) 32 with
      | .error c => .next (s.endLaunch t 4 c)
      | .ok (bs, s) =>
        let w := bytesToWords 4 bs
        if imageMalformed w then .next (s.endLaunch t 4 0x04C)
        else
          let n := bits (wordAt w 1) 0 19 / 4
          let off := bits (wordAt w 2) 0 18
          let work := (t.places.map coreOf).eraseDups.flatMap fun c => (List.range n).map fun i => (c, i)
          let out := work.foldl (fun acc (c, i) => match acc with
            | .error e => .error e
            | .ok s => State.imageWord s t c (wordAt w 0 + BitVec.ofNat 64 (4 * i)) (off + 4 * i)) (Except.ok s)
          match out with
          | .error c => .next (s.endLaunch t 4 c)
          | .ok s => .next (s.setTeam { t with images := true })

/-! ### Start (R23, R198) -/

/-- `hrk` of a rank in a team of `n` (R188). -/
def hrkOf (n rank : Nat) : Word := place (n - 1) 21 ||| BitVec.ofNat 64 rank

/-- ENTRY for a hart: in region 35 it takes the PKG and DIE of the hart's die (R199). -/
def entryFor (entry : Word) (h : HartId) : Word :=
  if spaceOf entry == some .tcm then (entry &&& 0x0007FFFFFFFFFFFF) ||| BitVec.ofNat 64 ((dieOf h).toNat * 2 ^ 51)
  else entry

/-- A hart at its start (R23, R188, R299), with the share it was placed with as SG (R184). -/
def State.startHart (s : State) (t : Team) (h : HartId) (rank : Nat) : State :=
  let rec_ := t.record
  let x := { Hart.reset with
    pos := h, run := .running, team := t.id, pc := entryFor (wordAt rec_ 0) h
    hrk := hrkOf t.places.length rank, sg := t.sgs.getD rank 4
    tvec := s.ctxReg t.pkg t.asid.toNat 0 &&& ~~~3 }
  let x := x.setS 2 (wordAt rec_ 9 + BitVec.ofNat 64 (rank + 1) * wordAt rec_ 10)
  let x := x.setS 3 (wordAt rec_ 11)
  s.putHart (forUpTo 8 (fun i x => x.setS (BitVec.ofNat 5 (10 + i)) (wordAt rec_ (1 + i))) x)

/-! ### Team words (R200 to R203) -/

/-- `spawn` (R200): the launch is accepted into the die's spawn queue. -/
def execSpawn (d a : SReg) (s : State) : Res :=
  let x := s.getS a
  trapIf (bits x 0 7 != 0) 0x084 x s <|
  readRecord x 128 s fun rec s =>
  trapIf (recMalformed rec false) 0x04C x s <|
  trapIf (s.neverPlaced (pkgOf s.hart.pos) rec) 0x341 x s <|
  let go := fun (s : State) =>
    let die := dieOf s.hart.pos
    if 64 ≤ (s.die die).spawnq.length then .next (s.wait .spawnQueue)
    else
      let p := pkgOf s.hart.pos
      let prio := match s.team s.hart.team with
        | some t => t.prio
        | none => 0
      let (id, s) := s.freshTeam p
      let s := s.setTeam (newTeam id p s.asid prio rec (.spawn (coreOf s.hart.pos) s.hart.team))
      let s := s.setDie die { s.die die with spawnq := (s.die die).spawnq ++ [id] }
      .next (s.setS d (id.setWidth 64)).advance
  if recCtl rec 28 1 == 1 then namingSema (BitVec.ofNat 6 (recCtl rec 30 6)) s go else go s

/-- The RANK field of `hrk`. -/
def Hart.teamRank (h : Hart) : Nat := bits h.hrk 0 21

/-- A split completes for one member (R201): its place among the members with its key, by ascending rank. -/
def splitHart (members : List Hart) (key : BitVec 32) (d : BitVec 5) (s : State) : State :=
  let mine := members.filter fun x => match x.run with
    | .waiting (.split k _) => k == key
    | _ => false
  let rank := mine.countP fun x => decide (x.teamRank < s.hart.teamRank)
  let h := s.hart
  let hrk := hrkOf mine.length rank
  ({ s with hart := { h with levels := (key, h.hrk) :: h.levels, depth := h.depth + 1, hrk := hrk } }.setS d hrk).advance

/-- A rejoin completes for one member (R201). -/
def rejoinHart (d : BitVec 5) (s : State) : State :=
  let h := s.hart
  let hrk := match h.levels with
    | x :: _ => x.2
    | [] => h.hrk
  ({ s with hart := { h with levels := h.levels.drop 1, depth := h.depth - 1, hrk := hrk } }.setS d hrk).advance

/-- The instance that a waiting `tsplit` stands at, if it is complete, completes for every member (R201). -/
def State.releaseSplit (s : State) (h : Hart) : State :=
  if !s.instanceDone h then s
  else
    match h.run with
    | .waiting (.split _ _) =>
      let ms := s.harts.filter fun x => x.inTeam h.team h.path
      ms.foldl (fun s x => match x.run with
        | .waiting (.split k d) => s.onHart x.pos (splitHart ms k d)
        | _ => s) s
    | .waiting (.rejoin _) =>
      (s.harts.filter fun x => x.inTeam h.team (h.path.drop 1)).foldl (fun s x => match x.run with
        | .waiting (.rejoin d) => s.onHart x.pos (rejoinHart d)
        | _ => s) s
    | _ => s

/-- `tsplit` (R201). -/
def execTsplit (d a : SReg) (s : State) : Res :=
  let k := s.getS a
  let back := k == 0xFFFFFFFFFFFFFFFF
  trapIf (bits k 32 32 != 0 && !back) 0x04D k s <|
  trapIf ((back && s.hart.depth == 0) || (!back && s.hart.depth == 15)) 0x342 k s <|
    let s := s.wait (if back then .rejoin d else .split (k.setWidth 32) d)
    .next (s.releaseSplit s.hart)

/-- Graph nodes, commands and slots of an ending hart need nothing: `exit` waits for its non-blocking accesses, then
frees the context; the instances it was awaited at may complete (R202, R209). -/
def execExit (s : State) : Res :=
  if !s.hart.nb.isEmpty then .next (s.wait .interlock)
  else
    let h := s.hart
    let s := s.freeHart h.pos
    let s := match s.team h.team with
      | none => s
      | some t => s.setTeam { t with live := t.live.filter (· != t.rankOf h.pos) }
    let left := s.harts.filter fun x => x.placed && x.team == h.team
    .next (left.foldl (fun s x =>
      let x := s.hartAt x.pos
      match x.run with
      | .waiting (.bar sc) => if s.instanceDone x then s.releaseBar sc x else s
      | .waiting (.split _ _) => s.releaseSplit x
      | .waiting (.rejoin _) => s.releaseSplit x
      | _ => s) s)

/-- `yield` (R203): a pre-emption point. -/
def execYield (s : State) : Res := grantPoint s <| .next s.deaden.advance

end Sys2Proof.Machine
end

