-- ==== Sys2Proof/Machine/Custody.lean ====
section
/-! DEFINITION. Asynchronous traps, forced pre-emption, the custody of a pre-empted team's resources, and the start and
resume of a team (R198, R303, R309 to R312). -/

namespace Sys2Proof.Machine

/-! ### Asynchronous traps (R303) -/

/-- ASYNC_TRAP_TAKE (R301, R303): the hart takes a pending cause at the word it stands at; a word whose wait is satisfied
retires first (R208). A hart that a forced pre-emption has stopped takes none until it resumes. -/
def execAsyncTrapTake (h : HartId) (s : State) : Res :=
  let x := s.hartAt h
  match x.nextPending with
  | none => .next s
  | some p => if x.placed && !x.stopped && !s.satisfied x then .next (s.onHart h fun s => s.takePending p) else .next s

/-! ### Forced pre-emption (R311) -/

/-- The save of a forced pre-emption (R311): the whole context goes to the `psa` frame, and the hart's resources are freed. -/
def State.saveForced (s : State) : State :=
  let s := { s with hart := { s.hart with run := .running } }
  let a := s.hart.psa
  match writeImage true a (s.imageWords 2) s with
  | .ok t => t.surrender a true
  | .error (_, _, t) => t.surrender a true

/-- FORCED_PREEMPTION (R311): the hart stops, its waiting word left to execute again; one whose wait is satisfied retires
first (R208). The save waits for the hart's non-blocking accesses to post (R313) and for the copies into its slots (log
entry 40): until then the hart stands still. -/
def execForcedPreemption (h : HartId) (s : State) : Res :=
  let x := s.hartAt h
  if !x.placed || !x.prq || x.psa == 0 || s.satisfied x then .next s
  else if !x.nb.isEmpty || s.copiesOut h then .next (s.onHart h fun s => s.withdraw.wait .stopped)
  else .next (s.onHart h fun s => s.withdraw.saveForced)

/-! ### Custody (R312) -/

/-- Where the leaves below a table map: first frame byte and number of bytes. -/
def State.leafRanges (s : State) (d : DieId) (cap : Nat) : Nat → Nat → Nat → List (Nat × Nat)
  | 0, _, _ => []
  | fuel + 1, level, table =>
    (List.range (if level == 1 then 16384 else if level == 2 then 512 else 32)).flatMap fun i =>
      let e := s.entry (table + 8 * i)
      if !bit e 0 || bits e 5 3 != 0 then []
      else if bit e 1 then
        let frame := bits e 16 28 * 2 ^ 16
        if frame % pageBytes level != 0 || decide (cap ≤ frame) then [] else [(frame, min (pageBytes level) (cap - frame))]
      else if level != 3 && tablePlace d (e &&& 0xFFFFFFFFFFFFFF00) then
        s.leafRanges d cap fuel (level + 1) (e &&& 0xFFFFFFFFFFFFFF00).toNat
      else []

/-- Offsets of a TCM of a die that region 35 pages of an ASID map. -/
def State.tcmMapped (s : State) (d : DieId) (asid : BitVec 9) : List Nat :=
  let prtb := s.reg d 0x1000
  let root := s.entry ((prtb &&& 0xFFFFFFFFFFF80000).toNat + (asid.toNat * 128 + 99) * 8)
  let table := root &&& 0xFFFFFFFFFFFFFF00
  let ranges :=
    if bit prtb 0 && bit root 0 && !bit root 1 && tablePlace d table then
      s.leafRanges d Config.tcmBytes 3 1 table.toNat
    else []
  (List.range Config.tcmBytes).filter fun o => ranges.any fun (f, n) => decide (f ≤ o) && decide (o < f + n)

/-- The home of a TCM byte of a core. -/
def tcmKey (c : CoreId) (o : Nat) : Nat := homeKey (dieOfCore c) true 35 (o + coreInDie c * Config.tcmBytes)

/-- The units of a team with their coordinates, in the order of their first ranks. -/
def unitsOf {α : Type} [BEq α] (n : Nat) (f : HartId → α) (places : List HartId) : List (Nat × α) :=
  ((List.range places.length).zip places).filterMap fun (r, h) => if r % n == 0 then some (r / n, f h) else none

/-- Cores of a team by coordinate. -/
def Team.coresAt (t : Team) (places : List HartId) : List (Nat × CoreId) :=
  unitsOf (shapeH (shapeOf t.record)) coreOf places
/-- Dies of a team by coordinate. -/
def Team.diesAt (t : Team) (places : List HartId) : List (Nat × DieId) :=
  let x := shapeOf t.record
  unitsOf (shapeH x * shapeC x * shapeQ x) dieOf places

/-- The rank of a place, in the type of a place: how custody names the hart that defined a node. -/
def Team.rankId (t : Team) (h : HartId) : HartId := BitVec.ofNat 21 (t.rankOf h)

/-- How the distributor accesses a frame of the save region (R313). -/
def frameHow (p : PkgId) (asid : BitVec 9) (team : TeamId) (acc : Acc) : How :=
  { master := distributor p asid, team := team, acc := acc, bank := 0, physical := true }

/-- TCM bytes of a core written into a frame, 8 at a time, each at its own offset (R312, log entry 26). One that the frame
does not take is left. -/
def State.saveTcm (s : State) (t : Team) (c : CoreId) (frame : Word) (offs : List Nat) : State :=
  (offs.filter (· % 8 == 0)).foldl (fun s o =>
    match s.check (frameHow t.pkg t.asid t.id .store) (frame + BitVec.ofNat 64 o) 8 with
    | .error _ => s
    | .ok (q, s) => s.store q.keys (s.bytes ((List.range 8).map fun j => tcmKey c (o + j)))) s

/-- TCM bytes read back from a frame into a core; none where a read fails (R312). -/
def State.loadTcm (s : State) (t : Team) (c : CoreId) (frame : Word) (offs : List Nat) : Option State :=
  (offs.filter (· % 8 == 0)).foldl (fun acc o => acc.bind fun s =>
    match s.check (frameHow t.pkg t.asid t.id .load) (frame + BitVec.ofNat 64 o) 8 with
    | .error _ => none
    | .ok (q, s) =>
      if (s.poisonCause q.keys).isSome then none
      else some (s.store ((List.range 8).map fun j => tcmKey c (o + j)) (s.bytes q.keys))) (some s)

/-- The frame that a team holds for the TCM of a core; 0 for none. -/
def Team.tcmFrame (t : Team) (c : CoreId) : Word := (t.frames.find? fun f => f.1 == 2 ^ 21 + c.toNat).elim 0 Prod.snd

/-- Cores that a team occupies, by coordinate: those of its live ranks (R312). -/
def Team.coresLive (t : Team) : List (Nat × CoreId) :=
  (t.coresAt t.places).filter fun (k, _) => t.live.any fun r => coreCoord (shapeOf t.record) r == k

/-- A team with a frame of its context for the TCM of every core that it occupies; none while the context has too few free
(R312, R393). -/
def State.withTcmFrames (s : State) (t : Team) : Option Team :=
  let need := (t.coresLive.map fun x => 2 ^ 21 + x.2.toNat).filter fun k => !t.frames.any fun f => f.1 == k
  let free := s.freeFrames t.pkg t.asid
  if free.length < need.length then none else some { t with frames := t.frames ++ need.zip free }

/-- A launched node of a team that waits for a hart which is saved: it runs a Fife program, and waits on (R294, R312). -/
def State.waitsSaved (s : State) (t : Team) (c : CoreId) (n : BitVec 8) : Bool :=
  match (s.core c).nodes.find n.toNat with
  | some y => y.team == some t.id && nodeKind (y.desc.getD []) == 1 && (s.offstage t.id).contains y.hart
  | none => false

/-- The bytes of a core's TCM that travel with a team: those that region 35 pages of its ASID map on a core it occupies. -/
def Team.tcmTaken (t : Team) (s : State) (c : CoreId) : List Nat :=
  if t.coresLive.any fun x => x.2 == c then s.tcmMapped (dieOfCore c) t.asid else []

/-- A core's resources of a team taken into custody. -/
def Team.takeCore (t : Team) (s : State) (k : Nat) (c : CoreId) (kept : Custody) : Custody × Core :=
  let x := s.core c
  let sems := (numbered x.sm).filterMap fun (n, m) => if m.team == some t.id then some (k, n, { m with waiters := [] }) else none
  let shapes := x.shapes.filterMap fun (n, y) => if y.team == some t.id then some (k, n, y) else none
  let nodes := x.nodes.filterMap fun (n, y) =>
    if y.team == some t.id then some (k, n, { y with hart := t.rankId y.hart }) else none
  let launch := (x.launch.filter fun y => s.waitsSaved t c y.node).map fun y =>
    (k, { y with pusher := y.pusher.map t.rankId })
  ({ kept with
      sems := kept.sems ++ sems, shapes := kept.shapes ++ shapes, nodes := kept.nodes ++ nodes
      tcm := kept.tcm ++ [(k, t.tcmFrame c, t.tcmTaken s c)], launch := kept.launch ++ launch },
   { x with
      launch := x.launch.filter fun y => !s.waitsSaved t c y.node
      sm := x.sm.map fun m => if m.team == some t.id then {} else m
      shapes := x.shapes.filter fun (_, y) => y.team != some t.id
      nodes := x.nodes.filter fun (_, y) => y.team != some t.id })

/-- A die's resources of a team taken into custody. -/
def Team.takeDie (t : Team) (s : State) (k : Nat) (d : DieId) (kept : Custody) : Custody × Die :=
  let x := s.die d
  let iters := (numbered x.iters).filterMap fun (n, y) => if y.team == some t.id then some (k, n, y.count) else none
  let windows := x.windows.filterMap fun (n, w) => if w.team == t.id then some (k, n, { w with lines := [] }) else none
  ({ kept with iters := kept.iters ++ iters, windows := kept.windows ++ windows },
   { x with
      iters := x.iters.map fun y => if y.team == some t.id then {} else y
      windows := x.windows.filter fun (_, w) => w.team != t.id })

/-- The held rows of a team at its pre-emption, under RPOL (R243). -/
def Die.saveRows (d : Die) (t : Team) : Die :=
  if t.ctl 23 1 == 1 then d.freeRows t.id
  else { d with rows := d.rows.map fun (k, r) => (k, if r.row.isSome && r.team == t.id then { r with saved := true } else r) }

/-- A team's resources in custody, and the state without them. -/
def State.takeCustody (s : State) (t : Team) : Custody × State :=
  let (kept, s) := (t.coresAt t.places).foldl (fun (kept, s) (k, c) =>
    let (kept, x) := t.takeCore s k c kept
    (kept, (s.setCore c x).saveTcm t c (t.tcmFrame c) (t.tcmTaken s c)))
    (({ places := t.places } : Custody), s)
  let (kept, s) := (t.diesAt t.places).foldl (fun (kept, s) (k, d) =>
    let (kept, x) := t.takeDie s k d kept
    (kept, s.setDie d x)) (kept, s)
  (kept, { s with dies := s.dies.map fun (k, d) => (k, d.saveRows t) })

/-- Nothing of the team is outstanding on a core: no engine command, no non-blocking access, and no graph node but those
whose Fife program is saved, or waits for a hart that is (R294, R312). -/
def State.coreQuiet (s : State) (t : Team) (c : CoreId) : Bool :=
  let x := s.core c
  !x.cpyq.any (fun y => y.team == t.id) && !x.orphans.any (fun h => h.team == t.id) &&
    x.nodes.all fun (n, y) => y.team != some t.id ||
      decide (y.runs ≤ (t.saved.countP fun z => z.node == some (BitVec.ofNat 8 n) && coreOf z.hart.pos == c) +
        x.launch.countP fun z => z.node.toNat == n && s.waitsSaved t c z.node)

/-- TEAM_PREEMPT_COMPLETE (R312): every live hart has left, nothing of the team is outstanding, and its context has a frame
for the TCM of each of its cores; the distributor takes custody of its resources. -/
def execTeamPreemptComplete (team : TeamId) (s : State) : Res :=
  match s.team team with
  | none => .next s
  | some t =>
    let ready := t.st == .preempting && !t.live.isEmpty && t.live.all (fun r => t.saved.any fun x => x.rank == r) &&
      (t.coresAt t.places).all fun (_, c) => s.coreQuiet t c
    match (if ready then s.withTcmFrames t else none) with
    | none => .next s
    | some t =>
      let order := s.nextOrder
      let (kept, s) := (s.setTeam t).takeCustody t
      .next (s.setTeam { t with st := .preempted, kept := kept, order := order })

/-! ### The resources restored (R312) -/

/-- A unit of the new placement by its coordinate. -/
def unitAt {α : Type} (us : List (Nat × α)) (k : Nat) : Option α := Tab.find us k

/-- The saved TCM bytes of a team written into the cores of the same coordinates; none where a frame cannot be read. -/
def State.restoreTcm (s : State) (t : Team) : Option State :=
  t.kept.tcm.foldl (fun acc (k, frame, offs) => acc.bind fun s => match unitAt (t.coresAt t.places) k with
    | some c => s.loadTcm t c frame offs
    | none => some s) (some s)

/-- The resources of a team restored to the units of the same coordinates, the TCM bytes apart. -/
def State.restoreCustody (s : State) (t : Team) : State :=
  let cores := t.coresAt t.places
  let dies := t.diesAt t.places
  let onCore := fun (f : Core → Core) (k : Nat) (s : State) => match unitAt cores k with
    | some c => s.setCore c (f (s.core c))
    | none => s
  let onDie := fun (f : Die → Die) (k : Nat) (s : State) => match unitAt dies k with
    | some d => s.setDie d (f (s.die d))
    | none => s
  let s := t.kept.sems.foldl (fun s (k, n, m) => onCore (fun c => c.setSema (BitVec.ofNat 6 n) m) k s) s
  let s := t.kept.shapes.foldl (fun s (k, n, y) => onCore (fun c => { c with shapes := c.shapes.put n y }) k s) s
  let s := t.kept.nodes.foldl (fun s (k, n, y) =>
    let z : Node := { y with hart := t.places.getD y.hart.toNat 0 }
    onCore (fun c => { c with nodes := c.nodes.put n z }) k s) s
  let s := t.kept.launch.foldl (fun s (k, y) =>
    let z : Launch := { y with pusher := y.pusher.map fun r => t.places.getD r.toNat 0 }
    onCore (fun c => { c with launch := c.launch ++ [z] }) k s) s
  let s := t.kept.iters.foldl (fun s (k, n, m) =>
    onDie (fun d => { d with iters := d.iters.set (BitVec.ofNat 3 n).toFin { team := some t.id, count := m } }) k s) s
  let s := t.kept.windows.foldl (fun s (k, n, w) => onDie (fun d => { d with windows := d.windows.put n w }) k s) s
  let reopen := fun (d : Die) =>
    { d with rows := d.rows.map fun (k, r) => (k, if r.saved && r.team == t.id then { r with saved := false } else r) }
  let s := { s with dies := s.dies.map fun (k, d) => (k, reopen d) }
  let old := t.coresAt t.kept.places
  let moved := fun (c : CoreId) =>
    match old.find? fun x => x.2 == c with
    | some (k, _) => (unitAt cores k).getD c
    | none => c
  { s with teams := s.teams.map fun (i, u) => (i, match u.source with
    | .spawn c v => if v == t.id then { u with source := .spawn (moved c) v } else u
    | .ring _ _ => u) }

/-! ### Placement (R197, R312) -/

/-- TEAM_PLACE (R196, R197): the distributor places a chosen launch whole, at places in rank order that leave room for the
launches chosen before it; where a zone falls short, it asks for reallocation and the choice waits. A team that resumes
gets its resources back with its placement (R312). -/
def execTeamPlace (team : TeamId) (places : List HartId) (s : State) : Res :=
  match s.team team with
  | none => .next s
  | some t =>
    let live := if t.saved.isEmpty then List.range places.length else t.live
    let u := { t with st := .placed, places := places, live := live, replies := [], start := 0, committed := false }
    if t.st != .chosen || !s.placementFits t places || !s.numbersFree t places || !s.leavesRoom u then .next s
    else
      let short := places.any fun h => decide (s.cls (pkgOf h) (zoneOf h) < t.hc.toNat) || s.moving (pkgOf h) (zoneOf h)
      if short then .next ((s.setTeam { t with places := places }).pumpTeam t.id)
      else
        let s := s.setTeam { u with kept := {} }
        let s := s.setTeam { u with kept := {}, sgs := places.map s.share }
        let s := if t.kept.places.isEmpty then s else s.restoreCustody u
        match s.restoreTcm u with
        | some s => .next s
        | none => .next (s.failTeam team 0x386)

/-! ### Start and resume (R23, R198, R312) -/

/-- A request that was replaced while its hart was saved reads as superseded (R415). -/
def State.settleFlow (s : State) (t : Team) (rank : Nat) : State :=
  if bits s.hart.flw 62 2 == 1 && !(t.flow.any fun f => f.1 == rank) then
    { s with hart := { s.hart with flw := (s.hart.flw &&& 0x3FFFFFFFFFFFFFFF) ||| place 3 62 } }
  else s

/-- One saved hart takes its place again: its image is loaded as `ctxld` loads it (R312). None where the image fails. -/
def State.resumeHart (s : State) (t : Team) (x : Saved) : Option State :=
  match t.places[x.rank]? with
  | none => none
  | some p =>
    let s := s.putHart { x.hart with pos := p, run := .running, prq := false, psa := 0, ibuf := [] }
    let back := s.hart.pos
    let s := s.select p
    match s.fetchImage x.addr x.physical with
    | .error _ => none
    | .ok (y, s) =>
      match s.imageFault y x.addr with
      | some _ => none
      | none =>
        match s.applyImage y with
        | .next s =>
          let c := s.myCore
          let c := if x.node.isSome && c.fife.heldBy p then { c with fife := { c.fife with node := x.node } } else c
          some (((s.setMyCore c).settleFlow t x.rank).select back)
        | _ => none

/-- Nothing on a core is still being cleared: a resuming image may take any slot or tile (R170, R171). -/
def Core.cleared (c : Core) : Bool := c.slots.all (fun x => !x.clearing) && c.tiles.all fun x => !x.clearing

/-- Every team launched before from the same ring has started (R193). -/
def State.firstOfRing (s : State) (t : Team) : Bool :=
  match t.source with
  | .spawn _ _ => true
  | .ring r n => s.teamList.all fun u => match u.source with
    | .ring q m =>
      !(q == r && u.pkg == t.pkg && m.ult n && u.saved.isEmpty &&
        (u.st == .accepted || u.st == .chosen || u.st == .placed) && u.status == 0)
    | .spawn _ _ => true

/-- The start tick: no earlier than START, than the agreed tick, or than now (R198, R345). -/
def State.startTick (s : State) (t : Team) : Word :=
  let floor := if t.saved.isEmpty then wordAt t.record 15 else 0
  let later := fun (a b : Word) => if a.ult b then b else a
  later s.now (if t.spans then t.start else floor)

/-- A team can start now: its distributors run, the teams before it in its ring have started, and a team that spans
packages has agreed on its tick (R193, R345, R406). The time base may go on to that tick. -/
def State.mayStart (s : State) (t : Team) : Bool :=
  t.st == .placed && t.status == 0 && t.pkgs.all s.enabled && (!t.spans || t.committed) && s.firstOfRing t &&
    (s.toTick (s.startTick t)).now == s.startTick t &&
    (if t.saved.isEmpty then t.ctl 36 1 == 0 || t.images
     else (t.coresAt t.places).all fun (_, c) => (s.core c).cleared)

/-- What awaited a team's start comes to its harts: the causes, and a request to pre-empt it (R306). -/
def State.deliverOwed (s : State) (t : Team) : State :=
  let s := t.owed.foldl (fun s (h, p) =>
    let x := s.hartAt h
    if x.placed && x.team == t.id then s.putHart (x.pend p.cause p.tval) else s) s
  if t.asked then s.requestPreempt t.id else s

/-- TEAM_START (R198, R312): every hart of a placed team starts, or every saved hart resumes, and a request for another heat
class is pursued again (R415). -/
def execTeamStart (team : TeamId) (s : State) : Res :=
  match s.team team with
  | none => .next s
  | some t =>
    if !s.mayStart t then .next s
    else
      let tick := s.startTick t
      let s := s.toTick tick
      let u := { t with
        st := .running, start := tick, order := s.nextOrder, frames := [], saved := [], sgs := [], owed := [], asked := false }
      let s := s.setTeam u
      if t.saved.isEmpty then
        let s := ((List.range t.places.length).zip t.places).foldl (fun s (r, h) => s.startHart t h r) s
        .next (s.deliverOwed t)
      else
        match t.saved.foldl (fun acc x => acc.bind fun s => State.resumeHart s t x) (some s) with
        | some s => .next ((s.deliverOwed t).pumpTeam team)
        | none => .next (s.failTeam team 0x386)

end Sys2Proof.Machine
end

