-- ==== Sys2Proof/Machine/Services.lean ====
section
/-! DEFINITION. Part failure, scrub and keys, repair, checkpoint and restore, reset and bring-up, attestation (R308, R395
to R406). -/

namespace Sys2Proof.Machine

/-! ### Failing parts (R308, R396) -/

/-- A core fails alone (R396). -/
def State.failCore (s : State) (c : CoreId) : State :=
  let queued := ((s.core c).cpyq.map fun x => match x.kind with
    | .rows _ _ _ rows => if x.failed.isSome then 0 else rows.length - x.next
    | .copy _ _ => 0).sum
  let s := (s.failPlaced (fun h => coreOf h == c) 0x383).setCore c { failed := true }
  let q := s.quad (quadOf c)
  s.setQuad (quadOf c) { q with rows := q.rows - queued }

/-- A quad fails (R396): the spare of its die, if it is not in use, takes its number. -/
def State.failQuad (s : State) (q : QuadId) : State :=
  let s := s.stopQuad q
  let d := dieOfQuad q
  if (s.die d).spare then s.setQuad q { failed := true }
  else (s.setQuad q {}).setDie d { s.die d with spare := true }

/-- A compute die fails (R337, R340, R396): its teams fail, nothing of its cores and quads is left, its own requests are
abandoned, and what its caches had not written back is lost (log entry 38). Its HBM channels stay (R401). -/
def State.failDie (s : State) (d : DieId) : State :=
  let s := s.failPlaced (fun h => dieOf h == d) 0x384
  let x := s.die d
  let mine := fun (f : Flit) => decide (f.type ≤ 2) && f.src == d
  let abandon := fun (k : Nat) (y : Stream) =>
    if k / 2 ^ 16 == d.toNat then { y with sent := y.sent.filter fun f => !mine f } else y
  let s := { s with
    mem := x.unwritten.foldl (fun m (c : Host.Cell) => memPut m c.1 c.2) s.mem
    cores := s.cores.filter fun c => dieOfCore (BitVec.ofNat 19 c.1) != d
    quads := s.quads.filter fun q => dieOfQuad (BitVec.ofNat 17 q.1) != d
    streams := s.streams.map fun (k, y) => (k, abandon k y)
    wire := s.wire.filter fun f => !mine f }
  s.setDie d { x with
    iters := Vector.replicate 8 {}, windows := [], rows := [], remote := [], unwritten := [], failed := true }

/-- PART_FAILURE (R396): kind 0 a core, 1 a quad, 2 a compute die, 3 a package; the number in the low bits. -/
def execPartFailure (kind : BitVec 2) (part : BitVec 19) (s : State) : Res :=
  match kind with
  | 0 => .next (s.failCore part)
  | 1 => .next (s.failQuad (part.setWidth 17))
  | 2 => .next (s.failDie (part.setWidth 13))
  | 3 => .next ((List.range (s.computeDies (part.setWidth 9))).foldl (fun s d => s.failDie (dieAt (part.setWidth 9) d)) s)

/-- A vector of free values. -/
def freeVec (n w from_ : Nat) : Vector (BitVec w) n := Vector.ofFn fun i => Config.unpredictable (from_ + i.val) w

/-- A free number of `n` free values. -/
def freeList (w from_ n : Nat) : List (BitVec w) := (List.range n).map fun i => Config.unpredictable (from_ + i) w

/-- An element of a digit link in a free state, with a free value. -/
def freeElem (from_ : Nat) : LinkElem :=
  match (Config.unpredictable from_ 2).toNat with
  | 0 => .unproduced
  | 1 => .consumed
  | _ => .final (Config.unpredictable (from_ + 1) 64)

/-- An accumulator entry with free fields. -/
def freeEntry (from_ : Nat) : AccEntry where
  cls := match (Config.unpredictable from_ 2).toNat with
    | 0 => .inf
    | 1 => .nan
    | _ => .finite
  sign := bit (Config.unpredictable (from_ + 1) 64) 0
  m := Config.unpredictable (from_ + 2) 96
  e := (Config.unpredictable (from_ + 3) 16).toInt

/-- A digit link with a free shape and free elements, as many as the shape says (R126). -/
def Link.scrambled (l : Link) (f : Nat) : Link :=
  let vl := (Config.unpredictable f 12).toNat % 2049
  { l with
    vl := BitVec.ofNat 12 vl, fmt := Config.unpredictable (f + 1) 4, ew := Config.unpredictable (f + 2) 3
    elems := (List.range vl).map fun j => freeElem (f + 4 + 2 * j) }

/-- An operand slot with free contents. -/
def Slot.scrambled (x : Slot) (f : Nat) : Slot :=
  let bytes := fun (i n : Nat) => (List.range n).foldl
    (fun m j => memPut m j (BitVec.ofNat 8 ((Config.unpredictable i (8 * n)).toNat / 256 ^ j))) []
  { x with
    st := match (Config.unpredictable f 2).toNat with
      | 0 => .empty
      | 1 => .filling
      | _ => .ready
    fmt := Config.unpredictable (f + 1) 4, ew := Config.unpredictable (f + 2) 3
    kr := (Config.unpredictable (f + 3) 16).toNat, n := (Config.unpredictable (f + 4) 16).toNat
    kc := (Config.unpredictable (f + 5) 16).toNat, codes := bytes (f + 6) 16384, side := bytes (f + 7) 2048 }

/-- The structure that an uncorrectable soft error names holds unpredictable values (R308): which queues, links, slots and
tiles the hart holds, and whether its Fife runs, stands (log entry 45). -/
def State.scramble (s : State) (struct_ : BitVec 3) : State :=
  let h := s.hart
  let me := h.pos
  let f := s.free
  let c := s.myCore
  let s := { s with free := s.free + 131072 }
  let u := fun (i w : Nat) => Config.unpredictable (f + i) w
  match struct_ with
  | 0 => { s with hart := { h with s := freeVec 32 64 f } }
  | 1 => { s with hart := { h with v := freeVec 32 8192 f } }
  | 2 => { s with hart := { h with p := freeVec 24 2048 f } }
  | 3 => { s with hart := { h with
      vq := Vector.ofFn fun i => freeList 8192 (f + 8 + 4 * i.val) ((u i.val 16).toNat % 5)
      sq := Vector.ofFn fun i => freeList 64 (f + 24 + 16 * i.val) ((u (4 + i.val) 16).toNat % 17) } }
  | 4 => { s with hart := { h with
      dl := Vector.ofFn fun i => (h.dl.get i).map fun l => l.scrambled (f + 8192 * i.val) } }
  | 5 => s.setMyCore { c with
      slots := Vector.ofFn fun i => if (c.slots.get i).own == some me then (c.slots.get i).scrambled (f + 8 * i.val) else c.slots.get i }
  | 6 => s.setMyCore { c with
      tiles := Vector.ofFn fun i =>
        let x := c.tiles.get i
        if x.own == some me then forUpTo 2048 (fun e x => x.setEntry e (freeEntry (f + 8192 * i.val + 4 * e))) x else x }
  | 7 => s.onFife fun y => { y with
      s := freeVec 32 64 f, vty := vtyWrite (u 32 64), vl := u 33 12, fpc := u 34 64 &&& ~~~3, fva := u 35 64
      rerr := bit (u 36 64) 0, cause := u 37 10
      zol := { zlr := u 38 64, zlb := u 39 64 &&& ~~~3, act := bit (u 40 64) 0, sav := bit (u 41 64) 0, len := u 42 5
               pass := u 43 48, nest := freeList 64 (f + 44) 8 } }

/-- SOFT_ERROR (R308): machine check 0x382 becomes pending, with the structure. -/
def execSoftError (h : HartId) (struct_ : BitVec 3) (s : State) : Res :=
  if !(s.hartAt h).placed then .next s
  else .next (s.onHart h fun s =>
    let s := s.scramble struct_
    { s with hart := s.hart.pend 0x382 (struct_.setWidth 64) })

/-! ### Scrub, keys, repair (R398 to R400) -/

/-- Offset of a channel's scrub registers. -/
def scrubOff (ch : BitVec 6) : Nat := 0x2D0000 + 0x40 * ch.toNat

/-- A record of the error history of a die (R400). -/
def State.writeHistory (s : State) (d : DieId) (ch : BitVec 6) (bank : BitVec 6) (row : BitVec 17) (kind : Nat) : State :=
  let s := s.passTime
  let n := s.reg d 0x2DF000
  let o := 0x2E0000 + 16 * (n.toNat % 1024)
  let word := place kind 29 ||| place row.toNat 12 ||| place bank.toNat 6 ||| ch.setWidth 64
  ((s.setReg d 0x2DF000 (n + 1)).setReg d o s.now).setReg d (o + 8) word

/-- A line is marked poisoned (R400). -/
def State.poisonLine (s : State) (line : Nat) (cause : BitVec 10) : State :=
  { s with poison := s.poison.put line cause }

/-- Lines of 64 bytes of a channel. -/
def channelLines : Nat := Config.channelBytes / 64

/-- The key of a row of a die, by channel, bank and row, in the counts of corrected events. -/
def rowKey (ch bank : BitVec 6) (row : BitVec 17) : Nat := ch.toNat * 2 ^ 23 + row.toNat * 2 ^ 6 + bank.toNat

/-- What the scrub of a line finds is recorded (R400): 0 clean, 1 an error corrected, 2 an uncorrectable one, 3 a tag
mismatch. Which bank and row a line lies in is the part's. -/
def State.scrubFinds (s : State) (d : DieId) (ch : BitVec 6) (line : Nat) (found : BitVec 2) : State :=
  let at_ := Config.bankRow (line / 16)
  let (bank, row) := (at_.extractLsb' 0 6, at_.extractLsb' 6 17)
  let home := homeKey d false ch.toNat (64 * line) / 64
  match found with
  | 0 => s
  | 1 =>
    let x := s.die d
    let k := rowKey ch bank row
    (s.setDie d { x with corrected := x.corrected.put k (x.corrected.getD k 0 + 1) }).writeHistory d ch bank row 0
  | 2 => (s.writeHistory d ch bank row 1).poisonLine home 0x380
  | 3 => (s.writeHistory d ch bank row 2).poisonLine home 0x381

/-- A new pass of channels begins (R398, R400): no line is scrubbed yet, and no error is counted; a row with 3 events still
awaits its repair. -/
def Die.newPass (d : Die) (on : Nat → Bool) : Die :=
  { d with
    scrubbed := d.scrubbed.filter fun x => !on x.1
    corrected := d.corrected.filter fun x => !on (x.1 / 2 ^ 23) || decide (3 ≤ x.2) }

/-- The line lies in a pinned row. -/
def State.linePinned (s : State) (d : DieId) (ch : BitVec 6) (line : Nat) : Bool :=
  (List.range 8).any fun sl => ((s.die d).rows.getD (8 * ch.toNat + sl) {}).row == some (line / 16)

/-- The line's row is pinned, and its channel is in no bounce (R242, R399). -/
def State.rowBusy (s : State) (d : DieId) (ch : BitVec 6) (line : Nat) : Bool :=
  s.linePinned d ch line && !(s.die d).bounces.contains ch

/-- A channel has ended the pass of a rotation (R398): its key version rises, and the key is retired once every channel of
the package has finished. -/
def State.endRotation (s : State) (d : DieId) (ch : BitVec 6) : State :=
  let o := scrubOff ch
  let kv := bits (s.reg d o) 0 16
  let st := s.reg d (o + 16)
  let s := ((s.setReg d o (BitVec.ofNat 64 ((kv + 1) % 2 ^ 16))).setReg d (o + 8) 0).setReg d (o + 16) (st &&& ~~~1)
  let p := pkgOfDie d
  let running := (List.range (s.computeDies p)).any fun e => (List.range 64).any fun c =>
    bit (s.reg (dieAt p e) (scrubOff (BitVec.ofNat 6 c) + 16)) 0
  let x := s.pkg p
  if running then s else s.setPkg p { x with keys := x.keys.filter fun k => k.toNat != kv }

/-- PATROL_SCRUB_LINE (R398 to R400): one line is checked and rewritten, its value unchanged; a line of a pinned row only
during a bounce, one line in each. A pass ends once it has taken every line; during a rotation lines follow PTR, and the
last one ends it. -/
def execPatrolScrubLine (die : DieId) (ch : BitVec 6) (line : BitVec 25) (found : BitVec 2) (s : State) : Res :=
  let o := scrubOff ch
  let st := s.reg die (o + 16)
  let ptr := (s.reg die (o + 8)).toNat
  let rot := bit st 0
  let n := line.toNat
  if (s.die die).failed || (rot && n != ptr) || s.rowBusy die ch n then .next s
  else
    let s := if s.linePinned die ch n then
        s.setDie die { s.die die with bounces := (s.die die).bounces.filter (· != ch) }
      else s
    let s := s.scrubFinds die ch n found
    let done := (n :: ((s.die die).scrubbed.getD ch.toNat [])).eraseDups
    let s := if rot then s.setReg die (o + 8) (BitVec.ofNat 64 (ptr + 1)) else s
    if done.length == channelLines then
      let s := s.setReg die (o + 16) (place ((bits st 32 32 + 1) % 2 ^ 32) 32 ||| (st &&& 1))
      let s := s.setDie die ((s.die die).newPass (· == ch.toNat))
      .next (if rot then s.endRotation die ch else s)
    else .next (s.setDie die { s.die die with scrubbed := (s.die die).scrubbed.put ch.toNat done })

/-- KEY_ROTATION_START (R398): key k + 1 is loaded, and every channel of the package starts its pass. -/
def execKeyRotationStart (pkg : PkgId) (s : State) : Res :=
  let chans := (List.range (s.computeDies pkg)).flatMap fun d =>
    (List.range 64).map fun c => (dieAt pkg d, scrubOff (BitVec.ofNat 6 c))
  if chans.any fun (d, o) => bit (s.reg d (o + 16)) 0 then .next s
  else
    let k := bits (s.reg (dieAt pkg 0) (scrubOff 0)) 0 16
    let x := s.pkg pkg
    let s := s.setPkg pkg { x with keys := x.keys ++ [BitVec.ofNat 16 (k + 1)] }
    let s := chans.foldl (fun s (d, o) => (s.setReg d (o + 8) 0).setReg d (o + 16) (s.reg d (o + 16) ||| 1)) s
    .next (forUpTo (s.computeDies pkg) (fun d s => s.setDie (dieAt pkg d) ((s.die (dieAt pkg d)).newPass fun _ => true)) s)

/-- ROW_REPAIR (R400): a row with 3 corrected events in the pass is replaced by a spare row at its next refresh, its data
kept; a bank with more than 16 repaired rows is replaced. -/
def execRowRepair (die : DieId) (ch : BitVec 6) (bank : BitVec 6) (row : BitVec 17) (s : State) : Res :=
  if (s.die die).corrected.getD (rowKey ch bank row) 0 < 3 then .next s else
  let s := s.writeHistory die ch bank row 3
  let x := { s.die die with corrected := (s.die die).corrected.drop (rowKey ch bank row) }
  let key := ch.toNat * 64 + bank.toNat
  let n : Nat := x.repairs.getD key 0 + 1
  if 16 < n then .next ((s.setDie die { x with repairs := x.repairs.drop key }).writeHistory die ch bank row 4)
  else .next (s.setDie die { x with repairs := x.repairs.put key n })

/-! ### Checkpoint and restore (R402, R403) -/

/-- A home byte lies in an HBM channel of a package. -/
def inHbm (p : PkgId) (k : Nat) : Bool :=
  k / 2 ^ 55 == p.toNat && decide (k / 2 ^ 51 % 16 < 8) && k / 2 ^ 50 % 2 == 0

/-- The compute dies of a package changed. -/
def State.mapDies (s : State) (p : PkgId) (f : Die → Die) : State :=
  { s with dies := s.dies.map fun (k, d) => if k / 16 == p.toNat then (k, f d) else (k, d) }

/-- Every dirty line of the package's scalar caches is written back. -/
def State.flushCaches (s : State) (p : PkgId) : State := s.mapDies p fun d => { d with unwritten := [] }

/-- Every scalar cache of the package is invalidated, and what was not written back is lost. -/
def State.dropCaches (s : State) (p : PkgId) : State :=
  let old := (s.dies.filter fun (k, _) => k / 16 == p.toNat).flatMap fun (_, d) => d.unwritten
  { (s.mapDies p fun d => { d with unwritten := [], windows := d.windows.map fun (i, w) => (i, { w with lines := [] }) }) with
    mem := old.foldl (fun m c => memPut m c.1 c.2) s.mem }

/-- The bytes of a stack in the tier (R402). -/
def stackBytes : Nat := 2 ^ 36

/-- Bytes of a package's HBM: 2 stacks for each compute die (R402, R403). -/
def State.hbmBytes (s : State) (p : PkgId) : Nat := 2 * s.computeDies p * stackBytes

/-- The image of a package's HBM as it stands: its bytes and poisoned lines, by their place in the package, and PTR and key
version of each channel, by 64 × die + channel. -/
def State.hbmImage (s : State) (p : PkgId) (dest : Word) : TierImage where
  dest := dest
  pkg := p
  size := s.hbmBytes p
  bytes := (s.mem.filter fun c => inHbm p c.1).map fun c => (c.1 % 2 ^ 55, c.2)
  poison := (s.poison.filter fun l => inHbm p (64 * l.1)).map fun l => (l.1 % 2 ^ 49, l.2)
  keys := (List.range (s.computeDies p)).flatMap fun d => (List.range 64).map fun c =>
    let o := scrubOff (BitVec.ofNat 6 c)
    let die := dieAt p d
    (64 * d + c, if bit (s.reg die (o + 16)) 0 then (s.reg die (o + 8)).toNat else 0, (s.reg die o).extractLsb' 0 16)
  torn := []

/-- Two images lie in one appliance and share bytes of it (R403). -/
def TierImage.overlaps (x y : TierImage) : Bool :=
  bits x.dest 56 8 == bits y.dest 56 8 && decide (x.dest.toNat < y.dest.toNat + y.size) &&
    decide (y.dest.toNat < x.dest.toNat + x.size)

/-- A new image in the tier: one that begins at the same address gives way, and others lose what it overwrites. -/
def State.writeTier (s : State) (x : TierImage) : State :=
  let others := (s.tier.filter fun y => !(y.dest == x.dest)).map fun y =>
    if x.overlaps y then { y with torn := y.torn ++ [(x.dest.toNat, x.size)] } else y
  { s with tier := x :: others }

/-- The bytes of a line in a list of cells. -/
def lineCells (m : List Host.Cell) (line : Nat) : List Host.Cell := m.filter fun c => lineOf c.1 == line

/-- A line that changed while the checkpoint ran is in the image as it was or as it is: a free choice. -/
def TierImage.late (x : TierImage) (now : TierImage) (free : Nat) : TierImage :=
  let lines := ((x.bytes ++ now.bytes).map fun c => lineOf c.1).eraseDups
  let pick := (lines.zip (List.range lines.length)).filter fun (l, i) =>
    lineCells x.bytes l != lineCells now.bytes l && Config.lateLine (free + i)
  let gone := x.bytes.filter fun c => !pick.any fun l => l.1 == lineOf c.1
  { x with bytes := (pick.flatMap fun l => lineCells now.bytes l.1).foldl (fun m c => memPut m c.1 c.2) gone }

/-- CKCTL of a package. -/
def State.ckctl (s : State) (p : PkgId) : Word := s.reg (ioDie p) 0x81000

/-- The image at an address lies in an appliance that the package's endpoints, whose image has been verified, reach
(R402 to R404). -/
def State.reachable (s : State) (p : PkgId) (dest : Word) : Bool :=
  let app := bits dest 56 8
  let b := (s.pkg p).boot
  bit (s.reg (ioDie p) (0x81010 + 8 * (app / 64))) (app % 64) && b.verifies b.endpoint &&
    decide (bits dest 0 56 + s.hbmBytes p ≤ 2 ^ 56)

/-- CKCTL written (R402): START latches what the operation does. -/
def State.writeCkctl (s : State) (p : PkgId) (x : Word) : State :=
  let d := ioDie p
  let old := s.ckctl p
  let dest := x &&& 0xFFFFFFFFFFFFF000
  if bit old 0 && bit x 1 then s
  else
    let kept := (x &&& 0xFFFFFFFFFFFFF004) ||| (old &&& 0x9)
    let begun := (kept &&& ~~~8) ||| 1
    if !bit x 1 then s.setReg d 0x81000 kept
    else if bit x 2 && (s.teamsWith p || s.ringEnabled p) then s.setReg d 0x81000 (kept ||| 8)
    else
      let begun_ := s.reachable p dest
      let s := if bit x 2 then s.dropCaches p
        else
          let s := s.flushCaches p
          if begun_ then s.writeTier (s.hbmImage p dest) else s
      (s.setPkg p { s.pkg p with op := some ⟨dest, bit x 2, begun_⟩ }).setReg d 0x81000 begun

/-- The place in its image of a line of a channel, by 64 × die + channel (R402). -/
def tierPlace (chan line : Nat) : Nat := chan / 32 * stackBytes + chan % 32 * Config.channelBytes + 64 * line

/-- The line of a channel in an image is sound for a package (R402): the package holds its key version, those below PTR being
under k + 1, and nothing has overwritten it. -/
def TierImage.sound (x : TierImage) (p : PkgId) (keys : List (BitVec 16)) (chan line : Nat) : Bool :=
  let key := match Tab.find x.keys chan with
    | some (ptr, k) => if line < ptr then some (k + 1) else some k
    | none => none
  let at_ := x.dest.toNat + tierPlace chan line
  x.pkg == p && (key.any fun k => keys.contains k) &&
    !x.torn.any fun (a, n) => decide (a < at_ + 64) && decide (at_ < a + n)

/-- The channels of a package that a restore writes, by 64 × die + channel: those of compute dies that have not failed
(R401). -/
def State.restored (s : State) (p : PkgId) : List Nat :=
  (List.range (64 * s.computeDies p)).filter fun n => !(s.die (dieAt p (n / 64))).failed

/-- The channel of a byte of a package's HBM, by 64 × die + channel. -/
def chanOf (k : Nat) : Nat := 64 * (k / 2 ^ 51 % 16) + k / 2 ^ 44 % 64

/-- What stands at DEST streamed back (R402): the bytes of the package's channels are those of the image that begins there,
in the restoring package's own places, and lines that are not sound are poisoned. The flag says whether one is not, or was
written with a bad tag. -/
def State.loadImage (s : State) (p : PkgId) (image : Option TierImage) : State × Bool :=
  let chans := s.restored p
  let mine := fun k => inHbm p k && chans.contains (chanOf k)
  let base := p.toNat * 2 ^ 55
  let bad := chans.flatMap fun n =>
    ((List.range channelLines).filter fun l => !(image.any fun x => x.sound p (s.pkg p).keys n l)).map fun l =>
      (homeKey (dieAt p (n / 64)) false (n % 64) (64 * l) / 64, (0x381 : BitVec 10))
  let bytes := (image.elim [] TierImage.bytes).map fun c => (base + c.1, c.2)
  let marks := (image.elim [] TierImage.poison).map fun l => (base / 64 + l.1, l.2)
  let kept := s.poison.filter fun l => !mine (64 * l.1)
  let lines := (marks.filter fun l => mine (64 * l.1)) ++ bad
  ({ s with
      mem := (bytes.filter fun c => mine c.1).foldl (fun m c => memPut m c.1 c.2) (s.mem.filter fun c => !mine c.1)
      poison := lines.foldl (fun (t : Tab (BitVec 10)) (l, c) => t.put l c) kept },
    lines.any fun l => l.2 == 0x381)

/-- CKCTL_OPERATION_END (R402): the stream ends; `served` is false when the appliance refused a transfer or the image
would cross its end. A checkpoint that never reached its appliance leaves what stands there; one that was cut short leaves no
image. -/
def execCkctlOperationEnd (pkg : PkgId) (served : Bool) (s : State) : Res :=
  let d := ioDie pkg
  match (s.pkg pkg).op with
  | none => .next s
  | some ⟨dest, restore, begun⟩ =>
    let ok := served && begun && s.reachable pkg dest
    let here := fun (i : TierImage) => i.dest == dest
    let mine := s.tier.find? here
    let (s, failed) :=
      match mine, ok, restore with
      | some i, true, false =>
        let now := s.hbmImage pkg dest
        let y := i.late now s.free
        let lines := i.bytes.length + now.bytes.length
        ({ s with tier := s.tier.map (fun (j : TierImage) => if here j then y else j), free := s.free + lines }, !i.torn.isEmpty)
      | _, false, false => (if !begun then s else { s with tier := s.tier.filter fun j => !(here j && j.pkg == pkg) }, true)
      | _, true, true => s.loadImage pkg mine
      | _, _, _ => (s, true)
    let x := s.ckctl pkg
    .next ((s.setPkg pkg { s.pkg pkg with op := none }).setReg d 0x81000 ((x &&& ~~~9) ||| (if failed then 8 else 0)))

/-! ### Reset and bring-up (R397, R406) -/

/-- A table without the keys of a package; `shift` is the number of key bits below the package. -/
def dropPkg {α : Type} (t : Tab α) (p : PkgId) (shift : Nat) : Tab α := t.filter fun x => x.1 / 2 ^ shift != p.toNat

/-- PACKAGE_RESET (R406): bring-up starts, and nothing of the package but its form and its firmware is preserved. Teams that
span it fail (R338). -/
def execPackageReset (pkg : PkgId) (s : State) : Res :=
  let spans := fun (t : Team) => t.pkg == pkg || t.places.any fun h => pkgOf h == pkg
  let s := (s.teamList.filter spans).foldl (fun s t => s.failTeam t.id 0x384) s
  .next { s with
    hart := if pkgOf s.hart.pos == pkg then { Hart.reset with pos := s.hart.pos } else s.hart
    parked := s.parked.filter fun h => pkgOf h.pos != pkg
    cores := dropPkg s.cores pkg 10
    quads := dropPkg s.quads pkg 8
    dies := dropPkg s.dies pkg 4
    pkgs := Tab.put (α := Pkg) s.pkgs pkg.toNat { form := (s.pkg pkg).form, boot := (s.pkg pkg).boot }
    teams := s.teams.filter fun (_, t) => t.pkg != pkg
    mem := s.mem.filter fun c => c.1 / 2 ^ 55 != pkg.toNat
    dev := dropPkg s.dev pkg 55
    poison := dropPkg s.poison pkg 49
    streams := s.streams.filter fun (k, _) => k / 2 ^ 20 != pkg.toNat && k / 128 % 512 != pkg.toNat
    wire := s.wire.filter fun f => pkgOfDie f.src != pkg && pkgOfDie f.dst != pkg }

/-- The root of trust accepts both Burup images (R404): each verifies, at no lower than the fused security version. Where
either fails the package stays out of the pod, although the other one starts. -/
def Boot.burupStarts (b : Boot) : Bool :=
  [b.burup, b.fallback].all fun x => b.verifies x && decide (b.least ≤ x.version)

/-- A Chanter boots, or stays in reset where its image does not verify (R384, R404). -/
def Chanter.boot (c : Chanter) (ok : Bool) : Chanter := { c with up := ok, held := !ok }

/-- BRINGUP_STEP (R406): a step completes. Step 1 does not while a Burup image fails, and the package stays out of the pod
(R404); step 3 trains the UCIe modules, of which the lanes that fail are free, and brings up the Chanters, step 4 the packet ports and the host link; what steps 6 and 7
write is Burup's, in register writes. -/
def execBringupStep (pkg : PkgId) (s : State) : Res :=
  let x := s.pkg pkg
  if 7 ≤ x.step || (x.step == 0 && !x.boot.burupStarts) then .next s
  else
    let n := x.step + 1
    let s := s.setPkg pkg { x with step := n, hostUp := x.hostUp || n == 4 }
    let d := ioDie pkg
    if n == 3 then
      .next (forUpTo (s.computeDies pkg) (fun i s =>
        let e := dieAt pkg i
        let s := s.setDie e { s.die e with chanter := (s.die e).chanter.boot (x.boot.verifies x.boot.chanter) }
        forUpTo 12 (fun m s =>
          (s.take.take).trainModule e m (Config.unpredictable s.free 64) (Config.unpredictable (s.free + 1) 64)) s) s)
    else if n == 4 then .next (forUpTo 8 (fun i s => s.setReg d (0x60000 + 8 * i) 2) s)
    else .next s

/-- BURUP_LOCKSTEP_MISMATCH (R397). -/
def execBurupLockstepMismatch (pkg : PkgId) (s : State) : Res :=
  .next (s.setPkg pkg { s.pkg pkg with reload := true })

/-- BURUP_RELOAD_COMPLETE (R397): the records held back are made, with their original ticks. -/
def execBurupReloadComplete (pkg : PkgId) (s : State) : Res :=
  let x := s.pkg pkg
  .next (x.events.foldl (fun s r => s.writeLog pkg r) (s.setPkg pkg { x with reload := false, events := [] }))

/-! ### Attestation (R405) -/

/-- An SPDM request is answered over DOE by the root of trust: no state of the machine changes. -/
def spdm (_pkg : PkgId) (s : State) : Res := .next s

/-- GET_VERSION (R405). -/
def execGetVersion (pkg : PkgId) (s : State) : Res := spdm pkg s
/-- GET_CAPABILITIES (R405). -/
def execGetCapabilities (pkg : PkgId) (s : State) : Res := spdm pkg s
/-- NEGOTIATE_ALGORITHMS (R405). -/
def execNegotiateAlgorithms (pkg : PkgId) (s : State) : Res := spdm pkg s
/-- GET_DIGESTS (R405). -/
def execGetDigests (pkg : PkgId) (s : State) : Res := spdm pkg s
/-- GET_CERTIFICATE (R405). -/
def execGetCertificate (pkg : PkgId) (s : State) : Res := spdm pkg s
/-- CHALLENGE (R405). -/
def execChallenge (pkg : PkgId) (s : State) : Res := spdm pkg s
/-- GET_MEASUREMENTS (R405). -/
def execGetMeasurements (pkg : PkgId) (s : State) : Res := spdm pkg s

end Sys2Proof.Machine
end

