-- ==== Sys2Proof/Machine/Registers.lean ====
section
/-! DEFINITION. Device registers as they are read and written, the engine ports, and the accesses of the host and of the
base-die endpoints (R7, R83, R236, R269, R270, R386 to R392, R401). -/

namespace Sys2Proof.Machine

/-! ### RTINV (R236) -/

/-- The remote translations of a die that RTINV names are removed: KIND 0 a page, 1 an ASID, 2 all. -/
def State.writeRtinv (s : State) (d : DieId) (x : Word) : State :=
  let y := s.die d
  let asid : BitVec 9 := x.extractLsb' 53 9
  let off := bits x 16 28 * 2 ^ 16
  let gone := fun (t : TlbEntry) => match bits x 62 2 with
    | 0 => t.asid == asid && t.unit == x.extractLsb' 46 7 && t.page == off / pageBytes t.level
    | 1 => t.asid == asid
    | 2 => true
    | _ => false
  s.setDie d { y with remote := y.remote.filter fun t => !gone t }

/-- RTINV written by a master outside the cores, with a KIND. -/
def rtinvEvent (kind : Nat) (by_ : Origin) (d : DieId) (x : Word) (s : State) : Res :=
  if bits x 62 2 != kind then .next s else storesTo by_ d 0x1008 s <| .next (s.writeRtinv d x)

/-- RTINV_PAGE (R236). -/
def execRtinvPage (d : DieId) (x : Sent) (s : State) : Res := rtinvEvent 0 x.origin d x.word s
/-- RTINV_ASID (R236). -/
def execRtinvAsid (d : DieId) (x : Sent) (s : State) : Res := rtinvEvent 1 x.origin d x.word s
/-- RTINV_ALL (R236). -/
def execRtinvAll (d : DieId) (x : Sent) (s : State) : Res := rtinvEvent 2 x.origin d x.word s

/-! ### Reading and writing a register -/

/-- A device register as it reads. -/
def State.regRead (s : State) (d : DieId) (off : Nat) : Word :=
  if isIo d && decide (0xE0000 ≤ off) && decide (off < 0xE5000) then s.coolantRead (pkgOfDie d) off else s.reg d off

/-- A register of the pod map (R391). -/
def podMapReg (d : DieId) (off : Nat) : Bool := isIo d && oneOf off 0x80000 8 9

/-- A register that Burup serves: the pod map, CAP and EVCTL (R391, R409, R417). Writes to it wait while Burup reloads
(R397, log entry 25). -/
def burupReg (d : DieId) (off : Nat) : Bool := podMapReg d off || (isIo d && (off == 0xE4000 || off == 0xE4008))

/-- A device register written: those whose write starts something have it started, the others store (R7). The pod map is
Burup's alone to write (R391), and EVCTL exists on the RLD-M8 only (R417). -/
def State.regWrite (s : State) (d : DieId) (off : Nat) (x : Word) : State :=
  let p := pkgOfDie d
  if off == 0x1008 then s.writeRtinv d x
  else if isIo d then
    if podMapReg d off then s
    else if oneOf off 0x20000 8 256 then s.writePcnx p ((off - 0x20000) / 8) x
    else if off == 0x21000 then s.writePcsw p x
    else if off == 0x81000 then s.writeCkctl p x
    else if off == 0xE4000 then s.writeCap p x
    else if off == 0xE4008 then if bit x 0 && (s.pkg p).form == .m8 then s.startEvacuation p else s
    else if decide (0xE0000 ≤ off) && decide (off < 0xE2480) && off % 64 == 8 then s.writeThresholds p ((off - 0xE0000) / 64) x
    else if decide (0xE0000 ≤ off) && decide (off < 0xE2480) && off % 64 == 24 then s.clearEv p ((off - 0xE0000) / 64) x
    else s.plainWrite d off x
  else if decide (0x30000 ≤ off) && decide (off < 0x30C00) && off % 256 == 0 then s.writeUlctl d ((off - 0x30000) / 256) x
  else if decide (0x30000 ≤ off) && decide (off < 0x30C00) && decide (0x18 ≤ off % 256) then s.writeUlbad d off x
  else s.plainWrite d off x

/-- A present-set register written by Burup (R391): a package that peers have isolated is not admitted before its reset
(R338). -/
def State.writePres (s : State) (d : DieId) (off : Nat) (x : Word) : State :=
  let k := (off - 0x80008) / 8
  let barred := forUpTo 64 (fun i (m : Word) => if (s.pkg (BitVec.ofNat 9 (64 * k + i))).isolated then m ||| place 1 i else m) 0
  s.setReg d off ((x &&& ~~~barred) ||| (s.reg d off &&& barred))

/-- A register written by Burup: the pod map, and what it reports in the tier registers (R391, R403), beside those that any
admitted master writes. -/
def State.burupWrite (s : State) (d : DieId) (off : Nat) (x : Word) : State :=
  if isIo d && off == 0x80000 then s.setReg d off (x &&& 0x3FF)
  else if podMapReg d off then s.writePres d off x
  else if isIo d && oneOf off 0x81010 8 4 then s.setReg d off x
  else s.regWrite d off x

/-- A register written for a master outside the cores. -/
def State.writeFor (s : State) (by_ : Origin) (d : DieId) (off : Nat) (x : Word) : State :=
  if by_.unit == 240 then s.burupWrite d off x else s.regWrite d off x

/-- REGISTER_WRITE (R7, R388): a write by a master outside the cores to a register of a die, which the register's table
admits. -/
def execRegisterWrite (d : DieId) (off : BitVec 44) (x : Sent) (s : State) : Res :=
  let o := off.toNat
  if !s.hasReg d o || (!isIo d && enginePage o) || (burupReg d o && (s.pkg (pkgOfDie d)).reload) then .next s
  else storesTo x.origin d o s <| .next (s.writeFor x.origin d o x.word)

/-! ### Registers that have an event of their own, written by a master outside the cores (R7, R388) -/

/-- UL_PAUSE (R375): ULCTL written with PAUSE 1. -/
def execUlPause (d : DieId) (m : BitVec 4) (x : Sent) (s : State) : Res :=
  if 12 ≤ m.toNat ∨ !bit x.word 1 then .next s else storesTo x.origin d (ulOff m.toNat) s <| .next (s.writeUlctl d m.toNat x.word)
/-- UL_RETRAIN (R375): ULCTL written with RETRAIN 1. -/
def execUlRetrain (d : DieId) (m : BitVec 4) (x : Sent) (s : State) : Res :=
  if 12 ≤ m.toNat ∨ !bit x.word 2 then .next s else storesTo x.origin d (ulOff m.toNat) s <| .next (s.writeUlctl d m.toNat x.word)
/-- UL_RESUME (R375): ULCTL written with PAUSE 0. -/
def execUlResume (d : DieId) (m : BitVec 4) (x : Sent) (s : State) : Res :=
  if 12 ≤ m.toNat ∨ bit x.word 1 then .next s else storesTo x.origin d (ulOff m.toNat) s <| .next (s.writeUlctl d m.toNat x.word)

/-- CHECKPOINT_START (R402): CKCTL written with START 1 and RST 0. -/
def execCheckpointStart (pkg : PkgId) (x : Sent) (s : State) : Res :=
  if bit x.word 1 && !bit x.word 2 then storesTo x.origin (ioDie pkg) 0x81000 s <| .next (s.writeCkctl pkg x.word) else .next s
/-- RESTORE_START (R402): CKCTL written with START 1 and RST 1. -/
def execRestoreStart (pkg : PkgId) (x : Sent) (s : State) : Res :=
  if bit x.word 1 && bit x.word 2 then storesTo x.origin (ioDie pkg) 0x81000 s <| .next (s.writeCkctl pkg x.word) else .next s

/-- FLCAP_WRITE (R409). -/
def execFlcapWrite (pkg : PkgId) (x : Sent) (s : State) : Res :=
  if (s.pkg pkg).reload then .next s else storesTo x.origin (ioDie pkg) 0xE4000 s <| .next (s.writeCap pkg x.word)
/-- ZTHR_WRITE (R410). -/
def execZthrWrite (pkg : PkgId) (z : BitVec 8) (x : Sent) (s : State) : Res :=
  if 146 ≤ z.toNat then .next s
  else storesTo x.origin (ioDie pkg) (zoneOff z.toNat + 8) s <| .next (s.writeThresholds pkg z.toNat x.word)
/-- ZST_EV_CLEAR (R411). -/
def execZstEvClear (pkg : PkgId) (z : BitVec 8) (x : Sent) (s : State) : Res :=
  if 146 ≤ z.toNat then .next s
  else storesTo x.origin (ioDie pkg) (zoneOff z.toNat + 24) s <| .next (s.clearEv pkg z.toNat x.word)
/-- EVACUATION_START (R417): EVCTL written with START 1, on an RLD-M8. -/
def execEvacuationStart (a : Asked) (s : State) : Res :=
  if (s.pkg a.pkg).form != .m8 || (s.pkg a.pkg).reload then .next s
  else storesTo a.origin (ioDie a.pkg) 0xE4008 s <| .next (s.startEvacuation a.pkg)

/-! ### Engine ports (R269, R270) -/

/-- The core and the offset within its page that an address of region 36 names, when it lies in an engine page. -/
def portAt (own : CoreId) (a : Word) : Option (CoreId × Nat) :=
  let off := aOff a
  if aDie a == 8 then none
  else if engineAlias off then some (own, off % 4096)
  else if enginePage off then some (coreAt (aDieId a) ((off - 0x100000) / 4096), off % 4096)
  else none

/-- A scalar queue of the hart, `q4` to `q7`, by its port offset. -/
def qpOf (o : Nat) : BitVec 2 := BitVec.ofNat 2 ((o - 0x40) / 8)

/-- An entry appended to a scalar queue of the hart. -/
def State.pushSq (s : State) (q : BitVec 2) (x : Word) : State :=
  { s with hart := { s.hart with sq := s.hart.sq.set q.toFin (s.hart.sq.get q.toFin ++ [x]) } }

/-- The oldest entry of a scalar queue removed. -/
def State.dropSq (s : State) (q : BitVec 2) : State :=
  { s with hart := { s.hart with sq := s.hart.sq.set q.toFin ((s.hart.sq.get q.toFin).drop 1) } }

/-- The number among `q0` to `q7`. -/
def sqNumber (q : BitVec 2) : BitVec 3 := 1#1 ++ q

/-- A push into a port: `a` is the address as issued. -/
def pushPort (c : CoreId) (o : Nat) (a x : Word) (s : State) (k : State → Res) : Res :=
  if o == 0 then issueCopy c x 0 s fun _ s => k s
  else if o == 0x10 then giveNode c x s k
  else if 0x40 ≤ o then
    let q := qpOf o
    if 16 ≤ (s.hart.sq.get q.toFin).length then .next (s.wait (.queuePush (sqNumber q))) else k (s.pushSq q x)
  else .next (s.trap 0x186 a)

/-- A pop from a port: the entry goes to the continuation. -/
def popPort (c : CoreId) (o : Nat) (a : Word) (s : State) (k : Word → State → Res) : Res :=
  if o == 8 then
    match (s.core c).cres with
    | [] => .next (s.wait (.cres c))
    | x :: rest => k x (s.setCore c { s.core c with cres := rest })
  else if 0x40 ≤ o then
    let q := qpOf o
    match s.hart.sq.get q.toFin with
    | [] => .next (s.wait (.queuePop (sqNumber q)))
    | x :: _ => k x (s.dropSq q)
  else .next (s.trap 0x186 a)

/-- The port that `enq` and `deq` name: an offset of the own page, or a global address under the checks of R87. -/
def enginePort (acc : Acc) (a : Word) (s : State) (k : CoreId → Nat → State → Res) : Res :=
  let own := coreOf s.hart.pos
  trapIf (bits a 0 3 != 0) 0x081 a s <|
    if a.toNat < 0x1000 then trapIf (!portOff a.toNat) 0x0C1 a s (k own a.toNat s)
    else
      match s.check (s.scalarHow acc) a 8 with
      | .error .lost => .next (s.trap 0x140 a)
      | .error (.cause c) => .next (s.trap c a)
      | .ok (p, s) =>
        match (if p.space == .regs then portAt own a else none) with
        | none => .next (s.trap 0x186 a)
        | some (c, o) => k c o s

/-- `enq` (R270). -/
def execEnq (a b : SReg) (s : State) : Res :=
  lateTests { word := encVec 0x21 0 a b 31 0x03 } s <|
    enginePort .store (s.getS a) s fun c o s => pushPort c o (s.getS a) (s.getS b) s fun s => .next s.advance

/-- `deq` (R270). -/
def execDeq (d a : SReg) (s : State) : Res :=
  lateTests { word := encVec 0x21 d a 0 31 0x04 } s <|
    enginePort .load (s.getS a) s fun c o s => popPort c o (s.getS a) s fun x s => .next (s.setS d x).advance

/-- The global address of a port of a core's engine page (R269). -/
def portAddr (c : CoreId) (o : Nat) : Word := BitVec.ofNat 64 (regKey (dieOfCore c) (0x100000 + 4096 * coreInDie c + o))

/-- An access to a port that reaches it as an event of a hart, under the checks of R87 with the port's table (R269, R389):
nothing happens while the port is full or empty. -/
def portEvent (h : HartId) (acc : Acc) (c : CoreId) (o : Nat) (s : State) (k : CoreId → Nat → State → Res) : Res :=
  if !(s.hartAt h).placed then .next s
  else
    let back := s.hart.pos
    let run := (s.hartAt h).run
    match enginePort acc (portAddr c o) (s.select h) k with
    | .next t => match t.hart.run with
      | .waiting _ => if t.hart.run == run then .next (t.select back) else .next s
      | .running | .free => .next (t.select back)
    | r => r

/-- A push as an event. -/
def pushEvent (h : HartId) (c : CoreId) (o : Nat) (x : Word) (s : State) : Res :=
  portEvent h .store c o s fun c o s => pushPort c o (portAddr c o) x s fun t => .next t
/-- A pop as an event: the oldest entry leaves. -/
def popEvent (h : HartId) (c : CoreId) (o : Nat) (s : State) : Res :=
  portEvent h .load c o s fun c o s => popPort c o (portAddr c o) s fun _ t => .next t

/-- CPYQ_PUSH (R269). -/
def execCpyqPush (h : HartId) (core : CoreId) (x : Word) (s : State) : Res := pushEvent h core 0 x s
/-- DGQ_PUSH (R269). -/
def execDgqPush (h : HartId) (core : CoreId) (x : Word) (s : State) : Res := pushEvent h core 0x10 x s
/-- QP_PUSH (R269). -/
def execQpPush (h : HartId) (q : BitVec 2) (x : Word) (s : State) : Res := pushEvent h (coreOf h) (0x40 + 8 * q.toNat) x s
/-- CRES_POP (R270): the oldest result element of a core leaves. -/
def execCresPop (core : CresRead) (s : State) : Res := popEvent core.hart core.core 8 s
/-- QP_POP (R269): the oldest entry of a hart's queue leaves. -/
def execQpPop (h : HartId) (q : BitVec 2) (s : State) : Res := popEvent h (coreOf h) (0x40 + 8 * q.toNat) s

/-! ### The host and the endpoints (R386 to R388, R401) -/

/-- The update of a scalar atomic (R84): old, `s[B]` and `s[D]` as `w`-bit values. -/
def amoUpdate {w : Nat} (op : AmoOp) (signed : Bool) (old b d : BitVec w) : BitVec w :=
  match op with
  | .add => old + b
  | .and => old &&& b
  | .or => old ||| b
  | .xor => old ^^^ b
  | .min => if signed then (if b.slt old then b else old) else (if b.ult old then b else old)
  | .max => if signed then (if old.slt b then b else old) else (if old.ult b then b else old)
  | .swap => b
  | .cas => if old = d then b else old

/-- A byte as its home holds it, without the dirty copies of scalar caches: what the host and the endpoints read (R85). -/
def State.homeByte (s : State) (k : Nat) : Byte :=
  match (s.die (BitVec.ofNat 13 (k / 2 ^ 51))).unwritten.find? fun c => c.1 == k with
  | some c => c.2
  | none => s.byte k

/-- Where a byte that the host reaches stands; none where its request is aborted: the address names nothing, its target is
lost, or no table entry admits it (R387, R388). Offsets are physical, and no other check is made. -/
def State.hostByte (s : State) (m : Master) (acc : Acc) (a : Word) : Option Nat :=
  match s.namesSpace m false a 1 with
  | none => none
  | some sp =>
    if sp.capacity ≤ aOff a then none
    else if s.isLost m a then
      match sp, acc with
      | .channel c, .load =>
        if aPkg a == pkgOfDie m.die && s.admits (aDieId a) (99 + c / 32) m .load a then
          some (homeKey (aDieId a) false c (aOff a))
        else none
      | _, _ => none
    else
      let admitted := match tableTarget sp a (aOff a) with
        | some t => s.admits (aDieId a) t m acc a
        | none => true
      if !admitted then none
      else if sp == .rows then
        let (_, ch, sl, byte) := rowFields (aOff a)
        ((s.die (aDieId a)).rows.getD (8 * ch + sl) {}).row.map fun r => homeKey (aDieId a) false ch (1024 * r + byte)
      else some (homeOf m sp a (aOff a))

/-- Where the bytes of a host request stand; none where one of them is aborted. -/
def State.hostKeys (s : State) (m : Master) (acc : Acc) (a : Word) (n : Nat) : Option (List Nat) :=
  (List.range n).foldr (fun i acc' => match s.hostByte m acc (a + BitVec.ofNat 64 i), acc' with
    | some k, some ks => some (k :: ks)
    | _, _ => none) (some [])

/-- An answer given. -/
def State.answered (s : State) (x : Answer) : State := { s with answer := some x }

/-- A host request to a device register: 8 aligned bytes, no port (R386, R387). -/
def State.hostRegister (s : State) (m : Origin) (acc : Acc) (a : Word) (x : Word) : State :=
  let d := aDieId a
  let ok := s.hasReg d (aOff a) && (portAt 0 a).isNone && !s.isLost (originMaster m) a &&
    s.admits d ((tableTarget .regs a 0).getD 0) (originMaster m) acc a
  if !ok then s.answered .abort
  else match acc with
    | .load => s.answered (.done (natToBytes 8 (s.regRead d (aOff a)).toNat))
    | .store => if burupReg d (aOff a) && (s.pkg (pkgOfDie d)).reload then s else (s.writeFor m d (aOff a) x).answered (.done [])
    | .atomic | .fetch => s.answered .abort

/-- HOST_REQUEST (R387, R388): the host behind a package reads (0) or writes (1) bytes at a physical global address, or
updates 4 or 8 of them atomically (2). Only the access tables check it; a denied request, and a read of a poisoned line,
is aborted. A read and a write are the homes', an atomic acts on the coherent value (R85). -/
def execHostRequest (pkg : PkgId) (kind : BitVec 2) (op : AmoOp) (at_ : HostAddr) (x y : List (BitVec 8)) (s : State) : Res :=
  let a := at_.addr
  let n := at_.bytes
  let acc : Acc := match kind with
    | 0 => .load
    | 1 => .store
    | _ => .atomic
  let m : Origin := { die := ioDie pkg, unit := 241, asid := 0 }
  if !(s.pkg pkg).hostUp then .next s
  else if spaceOf a == some .regs then
    if n == 8 then .next (s.hostRegister m acc a (BitVec.ofNat 64 (bytesToNat (x.take 8)))) else .next (s.answered .abort)
  else if acc == .atomic && n != 4 && n != 8 then .next (s.answered .abort)
  else
    match s.hostKeys (originMaster m) acc a n.toNat with
    | none => .next (s.answered .abort)
    | some ks =>
      if acc != .store && (s.poisonCause ks).isSome then .next (s.answered .abort)
      else match acc with
        | .load | .fetch => .next (s.answered (.done (ks.map s.homeByte)))
        | .store => .next ((s.store ks (x ++ List.replicate (n.toNat - x.length) 0)).answered (.done []))
        | .atomic =>
          let w := 8 * n.toNat
          let of := fun (bs : List Byte) => BitVec.ofNat w (bytesToNat bs)
          let old := s.bytes ks
          let new := amoUpdate op false (of old) (of x) (of y)
          .next ((s.store ks (natToBytes n.toNat new.toNat)).answered (.done old))

/-- The key version that a line of a channel is encrypted under: k + 1 below PTR during a rotation (R398, R399). -/
def State.lineKey (s : State) (d : DieId) (ch line : Nat) : BitVec 16 :=
  let o := scrubOff (BitVec.ofNat 6 ch)
  let k := (s.reg d o).extractLsb' 0 16
  if bit (s.reg d (o + 16)) 0 && decide (line < (s.reg d (o + 8)).toNat) then k + 1 else k

/-- ENDPOINT_REQUEST (R401): the endpoint of a stack, once its image has been verified, serves a read, or a write of a whole
line, to a master that its table admits; while its compute die has failed it serves reads only. Masters of another package
get and give ciphertext: its bits, and the line that their ciphertext spells, are free. -/
def execEndpointRequest (die : DieId) (stack : BitVec 1) (by_ : DieId) (unit : BitVec 8) (asid : BitVec 9) (write : Bool)
    (ch : BitVec 5) (line : BitVec 25) (x : BitVec 512) (s : State) : Res :=
  let m : Master := { die := by_, unit := unit, asid := asid, core := none }
  let c := 32 * stack.toNat + ch.toNat
  let base := homeKey die false c (64 * line.toNat)
  let ks := (List.range 64).map (base + ·)
  let acc : Acc := if write then .store else .load
  let b := (s.pkg (pkgOfDie die)).boot
  let mine := pkgOfDie by_ == pkgOfDie die
  if !s.dieHeld die || isIo die || !b.verifies b.endpoint then .next s
  else if !s.admits die (99 + stack.toNat) m acc (BitVec.ofNat 64 base) then .next (s.answered (.rejected 0x103))
  else if write then
    if (s.die die).failed then .next (s.answered (.rejected 0x103))
    else
      let v := if mine then x else Config.unpredictable s.free 512
      .next ((s.take.store ks (natToBytes 64 v.toNat)).answered (.done []))
  else match s.poisonCause ks with
    | some e => .next (s.answered (.rejected e))
    | none =>
      if mine then .next (s.answered (.done (ks.map s.homeByte)))
      else
        let out := Answer.sealed (s.lineKey die c line.toNat) (Config.unpredictable s.free 512)
          (Config.unpredictable (s.free + 1) 64)
        .next ({ s with free := s.free + 2 }.answered out)

end Sys2Proof.Machine
end

