-- ==== Sys2Proof/Machine/ScalarMem.lean ====
section
/-! DEFINITION. Scalar loads and stores, atomics, `cln` and `inv` (R82 to R87). -/

namespace Sys2Proof.Machine

/-- Bytes of a load, and whether it extends the sign (R58). -/
def ldSize : LdTy → Nat × Bool
  | .i8 => (1, true)
  | .i16 => (2, true)
  | .i32 => (4, true)
  | .i64 => (8, true)
  | .n8 => (1, false)
  | .n16 => (2, false)
  | .n32 => (4, false)

/-- Bytes of a store (R58). -/
def stSize : StW → Nat
  | .w8 => 1
  | .w16 => 2
  | .w32 => 4
  | .w64 => 8

/-- Bytes of an atomic, and whether it is signed (R58). -/
def amoSize : AmoTy → Nat × Bool
  | .i32 => (4, true)
  | .i64 => (8, true)
  | .n32 => (4, false)
  | .n64 => (8, false)

/-- A value of `n` bytes as a register receives it (R82). -/
def extendTo (n : Nat) (signed : Bool) (x : Word) : Word := if signed then sext x (8 * n) else zext x (8 * n)

/-- A load of `n` bytes at an address, port and register accesses among them: the value to the continuation. -/
def loadAt (a : Word) (n : Nat) (s : State) (k : Word → State → Res) : Res :=
  trapIf (a.toNat % n != 0) 0x081 a s <|
    if (s.windowOf a).isSome then
      match s.scalarRead a n with
      | .error c => .next (s.trap c a)
      | .ok (bs, s) => k (BitVec.ofNat 64 (bytesToNat bs)) s
    else
      match s.check (s.scalarHow .load) a n with
      | .error .lost => .next (s.trap 0x140 a)
      | .error (.cause c) => .next (s.trap c a)
      | .ok (p, s') => afterOwnNb .load p.keys s <|
        let s := s'
        if p.space == .regs then
          match portAt (coreOf s.hart.pos) a with
          | some (c, o) => trapIf (n != 8) 0x186 a s (popPort c o a s k)
          | none => k (s.regRead (aDieId a) (aOff a)) s
        else match s.poisonCause p.keys with
          | some c => .next (s.trap c a)
          | none => k (BitVec.ofNat 64 (bytesToNat (s.bytes p.keys))) s

/-- `ld` (R82). -/
def execLd (d a : SReg) (t : LdTy) (o : BitVec 13) (s : State) : Res :=
  let (n, signed) := ldSize t
  loadAt (s.getS a + o.signExtend 64) n s fun x s => .next (s.setS d (extendTo n signed x)).advance

/-- A store of `n` bytes at an address, port and register accesses among them. -/
def storeAt (a : Word) (n : Nat) (x : Word) (s : State) (k : State → Res) : Res :=
  trapIf (a.toNat % n != 0) 0x081 a s <|
    match s.check (s.scalarHow .store) a n with
    | .error .lost => .next (s.trap 0x140 a)
    | .error (.cause c) => .next (s.trap c a)
    | .ok (p, s') => afterOwnNb .store p.keys s <|
      let s := s'
      if p.space == .regs then
        match portAt (coreOf s.hart.pos) a with
        | some (c, o) => trapIf (n != 8) 0x186 a s (pushPort c o a x s k)
        | none =>
          if burupReg (aDieId a) (aOff a) && (s.pkg (aPkg a)).reload then .next (s.wait (.burup (aPkg a)))
          else k (s.regWrite (aDieId a) (aOff a) x)
      else k (s.scalarStore p (natToBytes n x.toNat))

/-- `st` (R82). -/
def execSt (d a : SReg) (w : StW) (o : BitVec 13) (s : State) : Res :=
  storeAt (s.getS a + o.signExtend 64) (stSize w) (s.getS d) s fun s => .next s.advance

/-- An address in a region that takes no scalar atomic: 33, 36, and the host window (R84, R386). -/
def noAmo (a : Word) : Bool :=
  aSp a && (aUnit a == 33 || aUnit a == 36 || (aUnit a == 34 && aDie a == 8))

/-- Memory with `n` bytes at some homes updated by a scalar atomic (R84): the old value and the state. -/
def State.amoStore (s : State) (op : AmoOp) (signed : Bool) (n : Nat) (ks : List Nat) (b d : Word) : Nat × State :=
  let old := bytesToNat (s.bytes ks)
  let new := (amoUpdate op signed (BitVec.ofNat (8 * n) old) (b.setWidth (8 * n)) (d.setWidth (8 * n))).toNat
  (old, s.store ks (natToBytes n new))

/-- A scalar atomic whose target is lost (R86, R340): 0x140 where the loss was known before it left. While the master may
not have known, it was turned away, or its outcome is indeterminate, 0x141, with the update made or not: which, is free. -/
def lostAmo (a : Word) (n : Nat) (update : List Nat → State → State) (s : State) : Res :=
  let how := s.scalarHow .atomic
  if !s.lossUnknown how.master a then .next (s.trap 0x140 a)
  else
    let t := s.take
    match Config.lostAtomic s.free a % 3 with
    | 0 => .next (t.trap 0x140 a)
    | 1 => .next (t.trap 0x141 a)
    | _ => match t.check { how with late := true } a n with
      | .ok (p, t) => .next ((update p.keys t).trap 0x141 a)
      | .error _ => .next (t.trap 0x141 a)

/-- `amo` (R84). -/
def execAmo (d a b : SReg) (t : AmoTy) (op : AmoOp) (s : State) : Res :=
  let x := s.getS a
  let (n, signed) := amoSize t
  let update := fun ks (s : State) => s.amoStore op signed n ks (s.getS b) (s.getS d)
  trapIf (x.toNat % n != 0) 0x081 x s <|
  trapIf (noAmo x) 0x104 x s <|
    match s.check (s.scalarHow .atomic) x n with
    | .error .lost => lostAmo x n (fun ks s => (update ks s).2) s
    | .error (.cause c) => .next (s.trap c x)
    | .ok (p, s') => afterOwnNb .atomic p.keys s <|
      let s := s'
      match s.poisonCause p.keys with
      | some c => .next (s.trap c x)
      | none =>
        let (old, s) := update p.keys s
        .next (s.setS d (extendTo n signed (BitVec.ofNat 64 old))).advance

/-- The lines held for the team's windows on the hart's die, without one line (R85, R248). -/
def State.dropLine (s : State) (line : Nat) : State :=
  let d := dieOf s.hart.pos
  let x := s.die d
  let strip := fun (w : Window) =>
    if w.team == s.hart.team then { w with lines := w.lines.filter fun l => l.1 != line } else w
  s.setDie d { x with windows := x.windows.map fun (i, w) => (i, strip w) }

/-- `cln` and `inv` (R85): the checks of a load; the line's dirty copies are written back, and `inv` discards it, a line held
for a window whose home is lost too. -/
def cleanLine (discard : Bool) (a : Word) (s : State) : Res :=
  let page := aDie a != 8 && (enginePage (aOff a) || engineAlias (aOff a))
  let regs := spaceOf a == some .regs && !page
  let (b, n) := if regs then (a - BitVec.ofNat 64 (a.toNat % 8), 8) else (a, 1)
  let gone := fun (s : State) => if discard then s.dropLine (a.toNat / 64) else s
  match s.check (s.scalarHow .load) b n with
  | .error .lost => .next (gone s).advance
  | .error (.cause c) => .next (s.trap c a)
  | .ok (p, s) => .next (gone (if s.cached p then s.writeBack (lineOf (p.keys.headD 0)) else s)).advance

/-- `cln` (R85). -/
def execCln (a : SReg) (s : State) : Res := cleanLine false (s.getS a) s
/-- `inv` (R85). -/
def execInv (a : SReg) (s : State) : Res := cleanLine true (s.getS a) s

end Sys2Proof.Machine
end

