-- ==== Sys2Proof/Machine/VLanes.lean ====
section
/-! DEFINITION. Permutations, reductions and predicate words: majors 0x18 to 0x1A (R131 to R145). -/

namespace Sys2Proof.Machine

/-- A vector word of these majors: the tests of R52, the length check, the overlap check 0x04A, then the run. -/
def laneWord (v : VWord) (resumes : Bool) (overlap : Bool) (reads writes : List Nat) (s : State)
    (body : State → Ended) : Res :=
  lateTests v s <| lengthTest s <| trapIf overlap 0x04A (wordVal v.word) s <|
    runWord v.word resumes reads writes s body

/-- FMT 0 to 7 (R131). -/
def VType.plain (t : VType) : Bool := !t.isBlock

/-! ### Predicate words (R133) -/

/-- The loop of a predicate word that writes bits. -/
def predLoop (d : PReg) (f : State → Nat → Bool) (s : State) : Ended :=
  let n := s.upto
  (forFrom s.hart.vix.toNat n (fun i t => t.setPbit d i (f s i)) s).endAt n

/-- A predicate word on predicates or a scalar. -/
def predWord (d a b : BitVec 5) (f6 : BitVec 6) (f : State → Nat → Bool) (s : State) : Res :=
  laneWord { word := encVec 0x1A d a b 31 f6, admits := s.vtype.plain } true false [] [] s (predLoop d f)

/-- `pand` (R133). -/
def execPand (d a b : PReg) (s : State) : Res :=
  predWord d a b 0x00 (fun s i => s.hart.pbit a i && s.hart.pbit b i) s
/-- `por` (R133). -/
def execPor (d a b : PReg) (s : State) : Res :=
  predWord d a b 0x01 (fun s i => s.hart.pbit a i || s.hart.pbit b i) s
/-- `pxor` (R133). -/
def execPxor (d a b : PReg) (s : State) : Res :=
  predWord d a b 0x02 (fun s i => s.hart.pbit a i != s.hart.pbit b i) s
/-- `pandn` (R133). -/
def execPandn (d a b : PReg) (s : State) : Res :=
  predWord d a b 0x03 (fun s i => s.hart.pbit a i && !s.hart.pbit b i) s
/-- `pnot` (R133). -/
def execPnot (d a : PReg) (s : State) : Res := predWord d a 0 0x04 (fun s i => !s.hart.pbit a i) s
/-- `pset` (R133). -/
def execPset (d : PReg) (a : SReg) (s : State) : Res :=
  predWord d a 0 0x05 (fun s i => decide (i < (s.getS a).toNat)) s

/-- Positions from `vix` below `vl` whose bit is one. -/
def setPositions (s : State) (a : PReg) : List Nat :=
  (List.range' s.hart.vix.toNat (s.hart.vl.toNat - s.hart.vix.toNat)).filter fun i => s.hart.pbit a i

/-- `pffs` (R133): the least set position from `vix`, or `vl`; never interrupted. -/
def execPffs (d : SReg) (a : PReg) (s : State) : Res :=
  laneWord { word := encVec 0x1A d a 0 31 0x06, admits := s.vtype.plain } false false [] [] s fun s =>
    .retire (s.setS d (BitVec.ofNat 64 ((setPositions s a).headD s.hart.vl.toNat)))

/-- `pcnt` (R133): the set positions from `vix`; never interrupted. -/
def execPcnt (d : SReg) (a : PReg) (s : State) : Res :=
  laneWord { word := encVec 0x1A d a 0 31 0x07, admits := s.vtype.plain } false false [] [] s fun s =>
    .retire (s.setS d (BitVec.ofNat 64 (setPositions s a).length))

/-- `pmvv` (R133): bits, not values, are tested. -/
def execPmvv (d : PReg) (a : VReg) (s : State) : Res :=
  let t := s.vtype
  laneWord { word := encVec 0x1A d a 0 31 0x08, groups := [(a, t.gf)], admits := t.plain } true false
    (groupRegs a t.gf) [] s (predLoop d fun s i => s.elem a t.ew i != 0)

/-! ### Permutations (R138 to R140) -/

/-- A source element at a position that may lie outside the group: zero bits there (R131). -/
def State.elemAt (s : State) (a : VReg) (t : VType) (i : Int) : Nat :=
  if i < 0 ∨ (t.vlmax : Int) ≤ i then 0 else s.elem a t.ew i.toNat

/-- The loop of a permutation: at each active position a destination position and a value. -/
def permLoop (t : VType) (d : VReg) (p : PSel) (f : State → Nat → Nat × Nat) (s : State) : Ended :=
  let n := s.upto
  (forFrom s.hart.vix.toNat n (fun i s =>
    if s.hart.active p i then let x := f s i; s.setElem d t.ew x.1 x.2 else s) s).endAt n

/-- A permutation that reads group A across positions (R138). -/
def permWord (word : BitVec 32) (d a : VReg) (more : List VReg) (p : PSel) (f : VType → State → Nat → Nat × Nat)
    (s : State) : Res :=
  let t := s.vtype
  laneWord { word := word, groups := ([d, a] ++ more).map fun r => (r, t.gf), admits := t.plain } true
    (overlaps (groupRegs d t.gf) (groupRegs a t.gf)) ((a :: more).flatMap fun r => groupRegs r t.gf)
    (groupRegs d t.gf) s (permLoop t d p (f t))

/-- `vslup` (R138). -/
def execVslup (d a : VReg) (b : SReg) (p : PSel) (s : State) : Res :=
  permWord (encVec 0x18 d a b p 0x00) d a [] p
    (fun t s i => (i, s.elemAt a t ((i : Int) - (s.getS b).toNat))) s

/-- `vsldn` (R138). -/
def execVsldn (d a : VReg) (b : SReg) (p : PSel) (s : State) : Res :=
  permWord (encVec 0x18 d a b p 0x01) d a [] p
    (fun t s i => (i, s.elemAt a t ((i : Int) + (s.getS b).toNat))) s

/-- `vperm` (R138). -/
def execVperm (d a b : VReg) (p : PSel) (s : State) : Res :=
  permWord (encVec 0x18 d a b p 0x02) d a [b] p (fun t s i => (i, s.elemAt a t (s.elem b t.ew i))) s

/-- Set bits of a predicate below a position. -/
def Hart.rank (h : Hart) (p : PReg) (i : Nat) : Nat := (List.range i).countP fun j => h.pbit p j

/-- `vcomp` (R139). -/
def execVcomp (d a : VReg) (p : PSel) (s : State) : Res :=
  permWord (encVec 0x18 d a 0 p 0x03) d a [] p (fun t s i => (s.hart.rank p i, s.elemAt a t i)) s

/-- `vexp` (R139). -/
def execVexp (d a : VReg) (p : PSel) (s : State) : Res :=
  permWord (encVec 0x18 d a 0 p 0x04) d a [] p (fun t s i => (i, s.elemAt a t (s.hart.rank p i))) s

/-- `vbc` (R138). -/
def execVbc (d : VReg) (a : SReg) (p : PSel) (s : State) : Res :=
  let t := s.vtype
  laneWord { word := encVec 0x18 d a 0 p 0x05, groups := [(d, t.gf)], admits := t.plain } true false [] (groupRegs d t.gf)
    s (permLoop t d p fun s i => (i, (s.getS a).toNat))

/-- `vid` (R138): FMT 0 and 1 only (R131). -/
def execVid (d : VReg) (p : PSel) (s : State) : Res :=
  let t := s.vtype
  laneWord { word := encVec 0x18 d 0 0 p 0x06, groups := [(d, t.gf)], admits := t.isInt } true false [] (groupRegs d t.gf)
    s (permLoop t d p fun _ i => (i, i))

/-- The code of an element in a block format: MXFP6 codes stand in [5:0] (R38). -/
def VType.codeMask (t : VType) (x : Nat) : Nat := if t.fmt == 9 then x % 64 else x % 2 ^ t.ew

/-- The tests of `vmvs` and `vmsv`, which do not use `vl` (R131, R140). -/
def moveWord (word : BitVec 32) (r : VReg) (reads writes : List Nat) (s : State) (body : State → Ended) : Res :=
  let t := s.vtype
  lateTests { word := word, groups := [(r, t.gf)]
              companions := if t.isBlock then [r.toNat + t.gf] else [] } s <|
    runWord word false reads writes s body

/-- The value that `vmvs` moves (R140). -/
def State.moveOut (s : State) (t : VType) (a : VReg) (k : Nat) : Word :=
  if t.vlmax ≤ k then 0
  else
    let x := s.elem a t.ew k
    if t.fmt == 0 then sext (BitVec.ofNat 64 x) t.ew
    else if !t.isBlock then BitVec.ofNat 64 x
    else
      let n := scaleBytes t.fmt
      let c := companion a t
      BitVec.ofNat 64 (t.codeMask x) ||| place (s.elem c 8 (n * (k / 32))) 16 |||
        (if n == 2 then place (s.elem c 8 (n * (k / 32) + 1)) 24 else 0)

/-- `vmvs` (R140). It reads its element whatever `vix` holds (log entry 39). -/
def execVmvs (d : SReg) (a : VReg) (b : SReg) (s : State) : Res :=
  let t := s.vtype
  moveWord (encVec 0x18 d a b 31 0x07) a (groupAll a t) [] s fun s =>
    .retire (s.setS d (s.moveOut t a (s.getS b).toNat))

/-- `vmsv` (R140). It writes its element whatever `vix` holds (log entry 39). -/
def execVmsv (d : VReg) (a b : SReg) (s : State) : Res :=
  let t := s.vtype
  moveWord (encVec 0x18 d a b 31 0x08) d [] (groupAll d t) s fun s =>
    let k := (s.getS b).toNat
    let x := s.getS a
    if t.vlmax ≤ k then .retire s
    else
      let s := s.setElem d t.ew k (t.codeMask x.toNat)
      .retire (if t.isBlock then
        { s with hart := s.hart.setScale t d (k / 32) [x.extractLsb' 16 8, x.extractLsb' 24 8] } else s)

/-! ### Reductions (R141 to R145) -/

/-- One step of a reduction or scan (R141). -/
def foldOp (op : ScanOp) (t : VType) (rm : Rounding) (a b : Nat) : Nat × Flags :=
  let x := BitVec.ofNat t.ew a
  let y := BitVec.ofNat t.ew b
  match op with
  | .and => (Nat.land a b, {})
  | .or => (Nat.lor a b, {})
  | .xor => (Nat.xor a b, {})
  | .add =>
    if t.isInt then ((x + y).toNat, {})
    else let f := fpOf t.fmt; f.round rm ((f.decode a).add rm (f.decode b))
  | .min =>
    if t.fmt == 0 then ((if y.slt x then y else x).toNat, {})
    else if t.fmt == 1 then (min a b, {})
    else (fpOf t.fmt).extremum true a b
  | .max =>
    if t.fmt == 0 then ((if x.slt y then y else x).toNat, {})
    else if t.fmt == 1 then (max a b, {})
    else (fpOf t.fmt).extremum false a b

/-- A partial result with the flags so far; none is the marker `empty` of R142. -/
abbrev Partial := Option Nat × Flags

/-- Two partial results combined, the lower index on the left (R142). -/
def combine (op : ScanOp) (t : VType) (rm : Rounding) (x y : Partial) : Partial :=
  let fl := x.2.or y.2
  match x.1, y.1 with
  | none, z => (z, fl)
  | z, none => (z, fl)
  | some a, some b => let r := foldOp op t rm a b; (some r.1, fl.or r.2)

/-- One level of the tree: neighbours combined. -/
def treeLevel (op : ScanOp) (t : VType) (rm : Rounding) : List Partial → List Partial
  | x :: y :: rest => combine op t rm x y :: treeLevel op t rm rest
  | xs => xs

/-- The 64 virtual lanes after the element loop (R142). -/
def laneParts (op : ScanOp) (t : VType) (rm : Rounding) (s : State) (a : VReg) (p : PSel) : List Partial :=
  forFrom s.hart.vix.toNat s.hart.vl.toNat (fun i parts =>
    if s.hart.active p i then
      parts.modify (i % 64) fun x => combine op t rm x (some (s.elem a t.ew i), {})
    else parts) (List.replicate 64 (none, {}))

/-- The unordered reduction of R142: its value and flags. -/
def reduceValue (op : ScanOp) (t : VType) (rm : Rounding) (s : State) (d a : VReg) (p : PSel) : Partial :=
  let parts := forUpTo 6 (fun _ xs => treeLevel op t rm xs) (laneParts op t rm s a p)
  combine op t rm (some (s.elem d t.ew 0), {}) (parts.headD (none, {}))

/-- A word of major 0x19. -/
def reduceWord (f6 : BitVec 6) (b : BitVec 5) (resumes rounds : Bool) (d a : VReg) (p : PSel) (s : State)
    (body : VType → State → Ended) : Res :=
  let t := s.vtype
  laneWord { word := encVec 0x19 d a b p f6, groups := [(d, t.gf), (a, t.gf)], admits := t.plain
             rounds := rounds && t.isFp } resumes false (groupRegs a t.gf ++ groupRegs d t.gf) (groupRegs d t.gf) s (body t)

/-- An unordered reduction (R142, R143): element 0 of D, never interrupted. -/
def reduce (f6 : BitVec 6) (op : ScanOp) (d a : VReg) (p : PSel) (s : State) : Res :=
  reduceWord f6 0 false (op == .add) d a p s fun t s =>
    let r := reduceValue op t s.vectorRm s d a p
    .retire ((s.raise r.2).setElem d t.ew 0 (r.1.getD 0))

/-- `vrsum` (R141, R142). -/
def execVrsum (d a : VReg) (p : PSel) (s : State) : Res := reduce 0x00 .add d a p s
/-- `vrmin` (R141, R142). -/
def execVrmin (d a : VReg) (p : PSel) (s : State) : Res := reduce 0x02 .min d a p s
/-- `vrmax` (R141, R142). -/
def execVrmax (d a : VReg) (p : PSel) (s : State) : Res := reduce 0x03 .max d a p s
/-- `vrand` (R141, R142). -/
def execVrand (d a : VReg) (p : PSel) (s : State) : Res := reduce 0x04 .and d a p s
/-- `vror` (R141, R142). -/
def execVror (d a : VReg) (p : PSel) (s : State) : Res := reduce 0x05 .or d a p s
/-- `vrxor` (R141, R142). -/
def execVrxor (d a : VReg) (p : PSel) (s : State) : Res := reduce 0x06 .xor d a p s

/-- `vrosum` (R144): strictly ascending, the partial sum in element 0 of D at an interruption. -/
def execVrosum (d a : VReg) (p : PSel) (s : State) : Res :=
  reduceWord 0x01 0 true true d a p s fun t s =>
    let n := s.upto
    let rm := s.vectorRm
    let r := forFrom s.hart.vix.toNat n (fun i (x : Partial) =>
      if s.hart.active p i then combine .add t rm x (some (s.elem a t.ew i), {}) else x) (some (s.elem d t.ew 0), {})
    ((s.raise r.2).setElem d t.ew 0 (r.1.getD 0)).endAt n

/-- The running value of a scan on resume: element of D at the greatest active position below `vix` (R145). -/
def scanSeed (s : State) (t : VType) (d : VReg) (p : PSel) : Option Nat :=
  ((List.range s.hart.vix.toNat).reverse.find? fun j => s.hart.active p j).map fun j => s.elem d t.ew j

/-- `vscan` (R145): inclusive, strictly ordered. The first active element begins the scan as it stands: a NaN there is written
with its payload and raises nothing, as R145 assigns it, though R30 and R141 have NaN results canonical (DESIGN CHOICE, log
entry 39). -/
def execVscan (d a : VReg) (b : ScanOp) (p : PSel) (s : State) : Res :=
  reduceWord 0x07 b.toBits true (b == .add) d a p s fun t s =>
    let n := s.upto
    let rm := s.vectorRm
    let r := forFrom s.hart.vix.toNat n (fun i (x : State × Option Nat) =>
      if x.1.hart.active p i then
        let y := combine b t rm (x.2, {}) (some (x.1.elem a t.ew i), {})
        ((x.1.raise y.2).setElem d t.ew i (y.1.getD 0), y.1)
      else x) (s, scanSeed s t d p)
    r.1.endAt n

end Sys2Proof.Machine
end

