-- ==== Sys2Proof/Machine/Collectives.lean ====
section
/-! DEFINITION. Groups and collectives, in register form and in rings (R346 to R363). -/

namespace Sys2Proof.Machine

/-! ### Group descriptors (R347, R348) -/

/-- A group descriptor is malformed. -/
def descriptorBad (w : List Word) : Bool :=
  let x := wordAt w 1
  bits (wordAt w 0) 32 32 != 0 || bits x 45 19 != 0 || bits (wordAt w 2) 16 48 != 0 || bits (wordAt w 0) 0 32 == 0 ||
    decide (bits x 21 21 < bits x 0 21) || bits x 42 3 == 0 || decide (5 < bits x 42 3) || bits (wordAt w 3) 0 3 != 0

/-- The group register that a descriptor sets. -/
def groupOf (w : List Word) : Group :=
  let x := wordAt w 1
  { valid := true, scope := x.extractLsb' 42 3, tag := (wordAt w 2).extractLsb' 0 16, gid := (wordAt w 0).extractLsb' 0 32
    seq := 0, nm1 := x.extractLsb' 21 21, rank := x.extractLsb' 0 21, mtab := wordAt w 3 }

/-- The address of the member entry of a rank. -/
def entryAddr (mtab : Word) (rank : Nat) : Word := mtab + BitVec.ofNat 64 (8 * rank)

/-- A hart's rank in its launched team (R187): `tsplit` does not change it. -/
def Hart.launchRank (h : Hart) : Nat :=
  bits (match h.levels.getLast? with
    | some (_, w) => w
    | none => h.hrk) 0 21

/-- The member entry that names a hart (R347). -/
def memberWord (h : Hart) : Word := place h.team.toNat 32 ||| BitVec.ofNat 64 h.launchRank

/-- 8-byte scalar loads at consecutive addresses (R348). -/
def loadWords : Nat → Word → List Word → State → (List Word → State → Res) → Res
  | 0, _, ws, s, k => k ws s
  | n + 1, a, ws, s, k => loadAt a 8 s fun x s => loadWords n (a + 8) (ws ++ [x]) s k

/-- A group register of the current hart stored. -/
def State.setGroup (s : State) (n : BitVec 4) (g : Group) : State :=
  { s with hart := { s.hart with g := s.hart.g.set n.toFin g } }

/-- A member of a group named by its own word or request: the last entry for its rank counts. -/
def State.enroll (s : State) (asid : BitVec 9) (mtab : Word) (rank : Nat) (entry : Word) : State :=
  { s with roster := ⟨asid, mtab, rank, entry⟩ ::
      s.roster.filter fun x => !(x.asid == asid && x.mtab == mtab && x.rank == rank) }

/-- `cgrp` (R348). -/
def execCgrp (d : BitVec 4) (a : SReg) (s : State) : Res :=
  let x := s.getS a
  if x == 0 then .next (s.setGroup d { s.hart.g.get d.toFin with valid := false }).retireV
  else
    trapIf (bits x 0 3 != 0) 0x081 x s <|
    loadWords 4 x [] s fun w s =>
    trapIf (descriptorBad w) 0x147 (d.setWidth 64) s <|
    loadAt (entryAddr (wordAt w 3) (groupOf w).rank.toNat) 8 s fun e s =>
    trapIf (e != memberWord s.hart) 0x147 (d.setWidth 64) s <|
      .next ((s.enroll s.asid (wordAt w 3) (groupOf w).rank.toNat e).setGroup d (groupOf w)).retireV

/-! ### The tree of R353 -/

/-- F6 [2:0] of an operation. -/
def collOpOf (n : Nat) : CollOp :=
  match n with
  | 0 => .sum | 1 => .prod | 2 => .min | 3 => .max | 4 => .and | 5 => .or | _ => .xor

/-- The combining format of an FP format. -/
def combining (fmt : Nat) : FpFormat := if fmt == 2 then fp64 else fp32

/-- Op of two codes, in the combining format of FMT `fmt` at `ew` bits (R353, R354). -/
def collCombine (op : CollOp) (fmt ew : Nat) (a b : Nat) : Nat × Flags :=
  let f := combining fmt
  let x := BitVec.ofNat ew a
  let y := BitVec.ofNat ew b
  let int := decide (fmt ≤ 1)
  let less := if fmt == 0 then y.slt x else y.ult x
  match op with
  | .and => (Nat.land a b, {})
  | .or => (Nat.lor a b, {})
  | .xor => (Nat.xor a b, {})
  | .sum => if int then ((x + y).toNat, {}) else f.round .nearestEven ((f.decode a).add .nearestEven (f.decode b))
  | .prod => if int then ((x * y).toNat, {}) else f.round .nearestEven ((f.decode a).mul (f.decode b))
  | .min => if int then (if less then b else a, {}) else f.extremum true a b
  | .max => if int then (if less then a else b, {}) else f.extremum false a b

/-- An operator on bits. -/
def bitwiseOp : CollOp → Bool
  | .and | .or | .xor => true
  | .sum | .prod | .min | .max => false

/-- Neighbours combined, the lower rank on the left. -/
def pairLevel (f : Nat → Nat → Nat × Flags) : List (Nat × Flags) → List (Nat × Flags)
  | (a, x) :: (b, y) :: rest => let (c, z) := f a b; (c, (x.or y).or z) :: pairLevel f rest
  | xs => xs

/-- The tree over the contributions in rank order: first rank r with rank r + P, then neighbours. -/
def treeOf (f : Nat → Nat → Nat × Flags) (xs : List (Nat × Flags)) : Nat × Flags :=
  let p := 2 ^ xs.length.log2
  let low := xs.take p
  let high := xs.drop p
  let firsts := (low.zip (List.range p)).map fun ((a, x), r) => match high[r]? with
    | some (b, y) => let (c, z) := f a b; (c, (x.or y).or z)
    | none => (a, x)
  (forUpTo xs.length.log2 (fun _ ts => pairLevel f ts) firsts).headD (0, {})

/-- A contribution decoded into the combining format. -/
def toCombining (op : CollOp) (fmt x : Nat) : Nat × Flags :=
  if decide (fmt ≤ 1) || bitwiseOp op then (x, {}) else (combining fmt).round .nearestEven { num := (fpOf fmt).decode x }

/-- A reduction of the contributions, before Final: a code of the combining format. -/
def reduceTree (op : CollOp) (fmt ew : Nat) (xs : List Nat) : Nat × Flags :=
  treeOf (collCombine op fmt ew) (xs.map (toCombining op fmt))

/-- The result rounded to a destination format. -/
def finalTo (op : CollOp) (fmt dst : Nat) (t : Nat × Flags) : Nat × Flags :=
  if decide (fmt ≤ 1) || bitwiseOp op then t
  else let (x, fl) := (fpOf dst).round .nearestEven { num := (combining fmt).decode t.1 }; (x, t.2.or fl)

/-- The result of a ring request in its destination format (R360). -/
def ringFinal (op : CollOp) (wf df : Nat) (t : Nat × Flags) : Nat × Flags :=
  if bitwiseOp op && decide (2 ≤ wf) then
    let (x, fl) := (fpOf df).round .nearestEven { num := (fpOf wf).decode t.1 }
    (x, t.2.or fl)
  else finalTo op wf df t

/-! ### Lost members (R355) -/

/-- How the collective engine of a package accesses memory (R357, R360). -/
def collHow (p : PkgId) (asid : BitVec 9) (acc : Acc) (vector : Bool) : How :=
  { master := collEngine p asid, team := 0, acc := acc, bank := 0
    vector := vector }

/-- `n` bytes at an address checked for the collective engine, byte by byte: their homes. -/
def State.collCheck (s : State) (p : PkgId) (asid : BitVec 9) (acc : Acc) (vector : Bool) (a : Word) (n : Nat) :
    Except (BitVec 10) (List Nat) :=
  match s.checkRun (collHow p asid acc vector) a n with
  | .error c => .error c
  | .ok (none, _) => .error 0x140
  | .ok (some ks, _) =>
    match (if acc == .load then s.poisonCause ks else none) with
    | some c => .error c
    | none => .ok ks

/-- `n` words read by the collective engine. -/
def State.collRead (s : State) (p : PkgId) (asid : BitVec 9) (a : Word) (n : Nat) : Except (BitVec 10) (List Word) :=
  (s.collCheck p asid .load false a (8 * n)).map fun ks => bytesToWords n (s.bytes ks)

/-- A word written by the collective engine; none where its checks fail. -/
def State.collWrite (s : State) (p : PkgId) (asid : BitVec 9) (a x : Word) : Option State :=
  match s.collCheck p asid .store false a 8 with
  | .error _ => none
  | .ok ks => some (s.store ks (natToBytes 8 x.toNat))

/-- The place of a member that an entry names, while its team knows it. -/
def State.memberPlace (s : State) (e : Word) : Option HartId :=
  (s.team (e.extractLsb' 32 32)).bind fun t => t.places[bits e 0 21]?

/-- A member that an entry names is lost to a package (R355): its team failed while it lived, or its package is lost. One
that has exited is absent, and not lost. -/
def State.memberLost (s : State) (p : PkgId) (e : Word) : Bool :=
  let rank := bits e 0 21
  (s.failedTeams.any fun f => f.team == e.extractLsb' 32 32 && f.ranks.contains rank) ||
    (s.team (e.extractLsb' 32 32)).any fun t =>
      t.holding.any fun h => t.rankOf h == rank && !s.present p (pkgOf h)

/-- The member of a rank: what its entry names, or, where the engine cannot read the entry, what the member's own `cgrp` or
request named (log entry 46). -/
def State.memberOf (s : State) (p : PkgId) (asid : BitVec 9) (mtab : Word) (r : Nat) : Option Word :=
  match s.collRead p asid (entryAddr mtab r) 1 with
  | .ok ws => some (wordAt ws 0)
  | .error _ => (s.roster.find? fun x => x.asid == asid && x.mtab == mtab && x.rank == r).map Enrolled.entry

/-- The entries of a member table that can be read. -/
def State.memberEntries (s : State) (p : PkgId) (asid : BitVec 9) (mtab : Word) (n : Nat) : List Word :=
  (List.range n).filterMap fun r => match s.collRead p asid (entryAddr mtab r) 1 with
    | .ok ws => some (wordAt ws 0)
    | .error _ => none

/-- A member of a group is lost (R355). -/
def State.groupLost (s : State) (p : PkgId) (asid : BitVec 9) (mtab : Word) (n : Nat) : Bool :=
  (List.range n).any fun r => (s.memberOf p asid mtab r).any fun e => s.memberLost p e

/-- Two places lie in the same unit of a SCOPE code (R351). -/
def sameScope (scope : Nat) (a b : HartId) : Bool :=
  match scope with
  | 1 => coreOf a == coreOf b
  | 2 => quadOf (coreOf a) == quadOf (coreOf b)
  | 3 => dieOf a == dieOf b
  | 4 => pkgOf a == pkgOf b
  | _ => true

/-! ### Register form (R349 to R352, R355) -/

/-- The ASID of a hart's team. -/
def State.asidOf (s : State) (h : Hart) : BitVec 9 := (s.team h.team).elim 0 Team.asid

/-- A member finds another at its instance (R347, R348, R351): the same GID, TAG, SEQ and member table, whose entry for the
other's rank names it. -/
def State.finds (s : State) (h : Hart) (c : CollArrival) (k : Hart) (d : CollArrival) : Bool :=
  c.reg.gid == d.reg.gid && c.reg.tag == d.reg.tag && c.reg.seq == d.reg.seq && c.reg.mtab == d.reg.mtab &&
    match s.collRead (pkgOf h.pos) (s.asidOf h) (entryAddr c.reg.mtab d.reg.rank.toNat) 1 with
    | .ok ws => wordAt ws 0 == memberWord k
    | .error _ => false

/-- The harts that have arrived at the instance of a hart and find one another, by rising rank (R350, R351). -/
def State.arrived (s : State) (x : Hart) (c : CollArrival) : List (Hart × CollArrival) :=
  let xs := s.harts.filterMap fun h => match h.run, h.coll with
    | .waiting .collective, some d => if s.finds x c h d && s.finds h d x c then some (h, d) else none
    | _, _ => none
  xs.foldl (fun acc x => insertBy (fun a b => decide (a.2.reg.rank < b.2.reg.rank)) x acc) []

/-- What a member of rank `r` receives at position `i`: a result of the tree, or an element of a member (R352). -/
def receives (f6 r n vl i : Nat) : Option (Option (Nat × Nat)) :=
  let c := vl / n
  if f6 < 8 then (if r == 0 then some none else none)
  else if f6 < 0x10 then some none
  else if f6 == 0x10 then some (some (i / c, i % c))
  else if f6 == 0x18 then (if i < c then some (some (0, r * c + i)) else none)
  else some (some (0, i))

/-- The instance completes for the hart whose turn it is: the values given by position are written, flags are raised, SEQ
advances, and the word retires. What it was read from was read at its arrival (R350, R352). -/
def collRetire (c : CollArrival) (value : Nat → Option Nat) (lost : Bool) (fl : Flags) (s : State) : State :=
  let t := s.vtype
  let s := { s with hart := { s.hart with run := .running, coll := none } }
  let u := forFrom s.hart.vix.toNat s.hart.vl.toNat (fun i s =>
    if s.hart.active c.p i then
      let s := if lost then s.setRerr i false else s
      match value i with
      | some x => s.setElem c.d t.ew i x
      | none => s
    else s) s
  (((u.raise fl).setGroup c.group { c.reg with seq := c.reg.seq + 1 }).settle s
    { queues := c.queues, records := c.records } true).retireV

/-- Members of a matched instance agree (R351). -/
def membersAgree (n : Nat) (xs : List (Hart × CollArrival)) : Bool :=
  match xs with
  | [] => false
  | (h, c) :: _ =>
    xs.map (fun x => x.2.reg.rank.toNat) == List.range n && xs.all fun (k, d) =>
      d.f6 == c.f6 && d.vl == c.vl && d.fmt == c.fmt && d.ew == c.ew && d.reg.scope == c.reg.scope &&
        d.reg.nm1 == c.reg.nm1 && sameScope c.reg.scope.toNat h.pos k.pos

/-- The instance of arrived members that agree runs (R352 to R354). -/
def State.collRun (s : State) (n : Nat) (xs : List (Hart × CollArrival)) (c : CollArrival) : State :=
  let vl := c.vl.toNat
  let op := collOpOf (c.f6.toNat % 8)
  let contributions := xs.map fun x => x.2.xs
  let sums := if c.f6.toNat < 0x10 then
      (List.range vl).map fun i => finalTo op c.fmt c.fmt (reduceTree op c.fmt c.ew (contributions.map fun q => q.getD i 0))
    else []
  let fl := sums.foldl (fun f x => f.or x.2) {}
  xs.foldl (fun s (h, d) => s.onHart h.pos (collRetire d (fun i =>
    (receives c.f6.toNat d.reg.rank.toNat n vl i).map fun src => match src with
      | none => (sums.getD i (0, {})).1
      | some (q, k) => (contributions.getD q []).getD k 0) false fl)) s

/-- The instance of a lost member ends for those that have arrived (R355): all-ones bytes, LOST bits, no flag. -/
def State.collLose (s : State) (n : Nat) (xs : List (Hart × CollArrival)) : State :=
  xs.foldl (fun s (h, d) => s.onHart h.pos (collRetire d (fun i =>
    (receives d.f6.toNat d.reg.rank.toNat n d.vl.toNat i).map fun _ => 2 ^ d.ew - 1) true {})) s

/-- A member of an instance whose members disagree traps (R351); one whose team a double fault of another member has ended
since is gone (R304). -/
def State.disagree (s : State) (k : Hart) (d : CollArrival) : State :=
  let y := s.hartAt k.pos
  if y.team == k.team && y.run == .waiting .collective then s.onHart k.pos fun s => s.trap 0x147 (d.group.setWidth 64) else s

/-- The instance that a hart has arrived at completes, if it can: a member is lost, or all have arrived (R351, R355). -/
def State.completeInstance (s : State) (h : HartId) : State :=
  let x := s.hartAt h
  match x.run, x.coll with
  | .waiting .collective, some c =>
    let xs := s.arrived x c
    let n := xs.foldl (fun m y => min m (y.2.reg.nm1.toNat + 1)) (c.reg.nm1.toNat + 1)
    if s.groupLost (pkgOf h) (s.asidOf x) c.reg.mtab (c.reg.nm1.toNat + 1) then s.collLose n (if xs.isEmpty then [(x, c)] else xs)
    else if xs.length < n then s
    else if membersAgree n xs then s.collRun n xs c
    else xs.foldl (fun s (k, d) => s.disagree k d) s
  | _, _ => s

/-- A collective word (R350): the local checks, and the arrival at its instance. -/
def collWord (f6 : BitVec 6) (d a : VReg) (b : BitVec 4) (p : PSel) (s : State) : Res :=
  let t := s.vtype
  let g := s.hart.g.get b.toFin
  let word := encVec 0x22 d a (b.setWidth 5) p f6
  let n := g.nm1.toNat + 1
  lateTests { word := word, groups := [(d, t.gf), (a, t.gf)], admits := t.plain } s <| lengthTest s <|
  trapIf (!g.valid) 0x146 (b.setWidth 64) s <|
  trapIf ((f6 == 0x10 || f6 == 0x18) && s.hart.vl.toNat % n != 0) 0x147 (b.setWidth 64) s <|
    match runWordTaking word false (groupRegs a t.gf) (groupRegs d t.gf) s fun tk s =>
      let c : CollArrival :=
        { f6 := f6, group := b, reg := g, d := d, a := a, p := p, vl := s.hart.vl, fmt := t.fmt, ew := t.ew
          xs := (List.range s.hart.vl.toNat).map (s.elem a t.ew), queues := tk.queues, records := tk.records }
      .stop { s with hart := { s.hart with run := .waiting .collective, coll := some c } } with
    | .next s => .next (s.completeInstance s.hart.pos)
    | r => r

/-- F6 of an operation of `cred` and `call`: OP in bits [2:0] (R349). -/
def collF6 (base : BitVec 6) (op : CollOp) : BitVec 6 := base + (op.toBits).setWidth 6

/-- `cred` (R349). -/
def execCred (d a : VReg) (b : BitVec 4) (p : PSel) (op : CollOp) (s : State) : Res := collWord (collF6 0x00 op) d a b p s
/-- `call` (R349). -/
def execCall (d a : VReg) (b : BitVec 4) (p : PSel) (op : CollOp) (s : State) : Res := collWord (collF6 0x08 op) d a b p s
/-- `cgat` (R349). -/
def execCgat (d a : VReg) (b : BitVec 4) (p : PSel) (s : State) : Res := collWord 0x10 d a b p s
/-- `csct` (R349). -/
def execCsct (d a : VReg) (b : BitVec 4) (p : PSel) (s : State) : Res := collWord 0x18 d a b p s
/-- `cbc` (R349). -/
def execCbc (d a : VReg) (b : BitVec 4) (p : PSel) (s : State) : Res := collWord 0x20 d a b p s

/-- COLLECTIVE_INSTANCE_COMPLETE (R352, R355): the instance that a waiting hart stands at completes. -/
def execCollectiveInstanceComplete (h : HartId) (s : State) : Res := .next (s.completeInstance h)

/-! ### Requests of a ring (R357 to R359, R362) -/

/-- A field of the first word of a request. -/
def reqField (w : List Word) (lo n : Nat) : Nat := bits (wordAt w 0) lo n

/-- KIND of a request. -/
def reqKind (w : List Word) : Nat := reqField w 0 3
/-- OP. -/
def reqOp (w : List Word) : Nat := reqField w 4 3
/-- SFMT. -/
def reqSfmt (w : List Word) : Nat := reqField w 8 4
/-- WF. -/
def reqWf (w : List Word) : Nat := reqField w 12 4
/-- DF. -/
def reqDf (w : List Word) : Nat := reqField w 16 4
/-- RES. -/
def reqRes (w : List Word) : Bool := reqField w 20 1 == 1
/-- GATE. -/
def reqGate (w : List Word) : Bool := reqField w 21 1 == 1
/-- COUNT. -/
def reqCount (w : List Word) : Nat := bits (wordAt w 3) 0 40
/-- TAG and SEQ, as they order instances (R361). -/
def reqOrder (w : List Word) : Nat := bits (wordAt w 2) 0 16 * 2 ^ 32 + bits (wordAt w 2) 32 32

/-- Bytes of an element of FMT 0 to 7 in a request: integers are 64-bit (R360). -/
def collBytes (fmt : Nat) : Nat := if fmt ≤ 2 then 8 else if fmt == 3 then 4 else if fmt ≤ 5 then 2 else 1

/-- The format table of R359. -/
def formatsLegal (w : List Word) : Bool :=
  let (sf, wf, df, res) := (reqSfmt w, reqWf w, reqDf w, reqRes w)
  decide (sf ≤ 7) &&
  if decide (2 ≤ reqKind w) || decide (sf ≤ 1) then wf == sf && df == sf && !res
  else if sf == 3 then decide (3 ≤ wf) && decide (wf ≤ 7) && decide (3 ≤ df) && decide (df ≤ 5) && (!res || wf != 3)
  else if sf == 2 then (wf == 2 || wf == 3) && (df == 2 || df == 3) && !res
  else wf == sf && decide (2 ≤ df) && decide (df ≤ 7) && decide (collBytes sf ≤ collBytes df) && !res

/-- A request is malformed. -/
def requestBad (w : List Word) : Bool :=
  reqField w 22 42 != 0 || reqField w 3 1 != 0 || reqField w 7 1 != 0 || decide (4 < reqKind w) || reqOp w == 7 ||
    (decide (2 ≤ reqKind w) && reqOp w != 0) || bits (wordAt w 2) 16 16 != 0 || bits (wordAt w 3) 40 24 != 0 ||
    reqCount w == 0 || decide (2 ^ 32 < reqCount w) || bits (wordAt w 1) 0 3 != 0 || (!reqRes w && wordAt w 6 != 0) ||
    wordAt w 7 != 0 || (w.drop 10).any (· != 0) || !formatsLegal w

/-- GID, TAG and SEQ of an accepted request (R359). -/
def CollReq.key (r : CollReq) : Nat × Nat := (bits (wordAt r.desc 0) 0 32, reqOrder r.req)
/-- RANK. -/
def CollReq.rank (r : CollReq) : Nat := (groupOf r.desc).rank.toNat
/-- N. -/
def CollReq.members (r : CollReq) : Nat := (groupOf r.desc).nm1.toNat + 1
/-- The address of the request's slot. -/
def CollReq.slot (r : CollReq) : Word := r.base + BitVec.ofNat 64 (128 + 128 * (r.n % 2 ^ r.ln))

/-- A word of a request or ring header written for its package; nothing happens where the checks fail. -/
def State.collPut (s : State) (p : PkgId) (asid : BitVec 9) (a x : Word) : State := (s.collWrite p asid a x).getD s

/-- STATUS of a request written, with ENDT, and DONE and ERRS of its ring (R357, R362). -/
def State.writeStatus (s : State) (p : PkgId) (r : CollReq) (st cause : Nat) (fl : Flags) : State :=
  let x := s.pkg p
  let s := (s.setPkg p { x with reqs := x.reqs.filter (· != r) }).passTime
  let s := s.collPut p r.asid (r.slot + 72) s.now
  let s := s.collPut p r.asid (r.slot + 64)
    (place 1 63 ||| place cause 13 ||| place fl.bits.toNat 8 ||| BitVec.ofNat 64 st)
  match s.collRead p r.asid r.base 5 with
  | .error _ => s
  | .ok h =>
    let left := (s.pkg p).reqs.filter fun y => y.base == r.base && y.asid == r.asid
    let done := left.foldl (fun m y => min m y.n) (wordAt h 1).toNat
    let s := s.collPut p r.asid (r.base + 24) (BitVec.ofNat 64 done)
    if st == 0 then s else s.collPut p r.asid (r.base + 32) (wordAt h 4 + 1)

/-- Every outstanding request of the pod, with its package. -/
def State.requests (s : State) : List (PkgId × CollReq) :=
  s.pkgs.flatMap fun (k, p) => p.reqs.map fun r => (BitVec.ofNat 9 k, r)

/-- A request read from its slot is accepted (R358, R362). -/
def State.acceptRequest (s : State) (p : PkgId) (asid : BitVec 9) (base : Word) (n ln : Nat) (w : List Word) : State :=
  let r : CollReq := { asid := asid, base := base, n := n, ln := ln, req := w, desc := [], opened := !reqGate w, batch := 0 }
  if requestBad w then s.writeStatus p r 1 0 {}
  else
    match s.collRead p asid (wordAt w 1) 4 with
    | .error c => s.writeStatus p r 4 c.toNat {}
    | .ok d =>
      if descriptorBad d then s.writeStatus p r 1 0 {}
      else
        match s.collRead p asid (entryAddr (wordAt d 3) (groupOf d).rank.toNat) 1 with
        | .error c => s.writeStatus p r 4 c.toNat {}
        | .ok ws =>
          let r := { r with desc := d }
          let s := s.enroll asid (wordAt d 3) r.rank (wordAt ws 0)
          if s.requests.any fun (_, y) => y.key == r.key && y.rank == r.rank then s.writeStatus p r 2 0 {}
          else let x := s.pkg p; s.setPkg p { x with reqs := x.reqs ++ [r] }

/-- The engine reads the header of a registered ring, and accepts its next request (R357, R358): whether it did. -/
def State.pollRing (s : State) (p : PkgId) (asid : BitVec 9) (k : BitVec 6) : State × Bool :=
  let reg := s.reg (ioDie p) (0x100000 + 512 * asid.toNat + 8 * k.toNat)
  let base := reg &&& 0xFFFFFFFFFFFFF000
  if !bit reg 0 || !bit (s.ctxReg p asid.toNat 16) 63 || s.clocksStopped p then (s, false)
  else
    match s.collRead p asid base 6 with
    | .error _ => (s, false)
    | .ok h =>
      let (tail, head, cfg) := (wordAt h 0, wordAt h 1, wordAt h 2)
      let ok := ringCfgOk cfg collCfgReserved
      let s := if bit (wordAt h 5) 0 == ok then s.collPut p asid (base + 40) (if ok then 0 else 1) else s
      let ln := bits cfg 0 5
      if !ok || !bit cfg 12 || tail == head || decide (2 ^ ln < (tail - wordAt h 3).toNat) then (s, false)
      else
        match s.collRead p asid (base + BitVec.ofNat 64 (128 + 128 * (head.toNat % 2 ^ ln))) 16 with
        | .error _ => (s, false)
        | .ok w =>
          match s.collWrite p asid (base + 8) (head + 1) with
          | none => (s, false)
          | some s => (s.acceptRequest p asid base head.toNat ln w, true)

/-- COLL_RING_POLL (R358): the collective engine of a package polls a ring. -/
def execCollRingPoll (pkg : PkgId) (asid : BitVec 9) (k : BitVec 6) (s : State) : Res := .next (s.pollRing pkg asid k).1

/-- A ring polled until it gives no request. -/
def State.drainRing (s : State) (p : PkgId) (asid : BitVec 9) (k : BitVec 6) : Nat → State
  | 0 => s
  | n + 1 => match s.pollRing p asid k with
    | (s, true) => s.drainRing p asid k n
    | (s, false) => s

/-- `cgate` (R361). -/
def execCgate (a : BitVec 4) (s : State) : Res :=
  let g := s.hart.g.get a.toFin
  trapIf (!g.valid) 0x146 (a.setWidth 64) s <|
    let p := pkgOf s.hart.pos
    let s := forUpTo 64 (fun k s => s.drainRing p s.asid (BitVec.ofNat 6 k) (2 ^ 16)) s
    let batch := s.requests.foldl (fun m x => max m (x.2.batch + 1)) 1
    let mine := fun (r : CollReq) =>
      reqGate r.req && !r.opened && r.key.1 == g.gid.toNat && r.rank == g.rank.toNat
    let asid := s.asid
    let open_ := fun (q : Pkg) =>
      { q with reqs := q.reqs.map fun r => if mine r && r.asid == asid then { r with opened := true, batch := batch } else r }
    .next { s with pkgs := s.pkgs.map fun (k, q) => (k, open_ q) }.retireV

/-! ### Completion of requests (R359 to R362) -/

/-- The requests of an instance, by rising rank. -/
def State.instanceRequests (s : State) (key : Nat × Nat) : List (PkgId × CollReq) :=
  (s.requests.filter fun x => x.2.key == key).foldl (fun acc x =>
    insertBy (fun a b => decide (a.2.rank < b.2.rank)) x acc) []

/-- Every member of the instance has posted (R359). -/
def fullSet (xs : List (PkgId × CollReq)) : Bool :=
  match xs with
  | [] => false
  | x :: rest => decide (rest.foldl (fun m y => min m y.2.members) x.2.members ≤ xs.length)

/-- The members' places, as the table of the first request names them, lie in one unit of its SCOPE (R359). -/
def State.withinScope (s : State) (p : PkgId) (r : CollReq) : Bool :=
  let hs := (s.memberEntries p r.asid (wordAt r.desc 3) r.members).filterMap s.memberPlace
  hs.all fun a => hs.all fun b => sameScope (groupOf r.desc).scope.toNat a b

/-- The requests of a full instance agree (R359). -/
def State.requestsAgree (s : State) (xs : List (PkgId × CollReq)) : Bool :=
  match xs with
  | [] => false
  | (p, r) :: _ =>
    xs.map (fun x => x.2.rank) == List.range r.members && s.withinScope p r && xs.all fun (_, y) =>
      reqKind y.req == reqKind r.req && reqOp y.req == reqOp r.req && reqWf y.req == reqWf r.req &&
        reqDf y.req == reqDf r.req && reqCount y.req == reqCount r.req && y.members == r.members &&
        (groupOf y.desc).scope == (groupOf r.desc).scope

/-- The instances that must have started before one can: those of earlier requests without GATE in a member's ring, and
those of lower (TAG, SEQ) that a member's `cgate` opened with it (R358, R361). -/
def State.startsAfter (s : State) (xs : List (PkgId × CollReq)) : List (Nat × Nat) :=
  (s.requests.filter fun (p, y) => xs.any fun (q, r) =>
    if reqGate r.req then reqGate y.req && y.opened && y.batch == r.batch && y.key.1 == r.key.1 && decide (y.key.2 < r.key.2)
    else !reqGate y.req && p == q && y.base == r.base && y.asid == r.asid && decide (y.n < r.n)).map fun x => x.2.key

/-- The instances that have started: matched, opened, and each after those that go before it. -/
def State.started (s : State) : List (Nat × Nat) :=
  let keys := (s.requests.map fun x => x.2.key).eraseDups
  forUpTo keys.length (fun _ done => keys.filter fun k =>
    let xs := s.instanceRequests k
    done.contains k || (fullSet xs && xs.all (fun x => x.2.opened) && (s.startsAfter xs).all done.contains)) []

/-- Homes of `n` elements of `es` bytes that pass their checks, or the first cause (R360). -/
def State.elementHomes (s : State) (p : PkgId) (asid : BitVec 9) (acc : Acc) (base : Word) (es n : Nat) :
    Except (BitVec 10) (List (List Nat)) :=
  let step := fun (out : Except (BitVec 10) (List (List Nat))) (i : Nat) =>
    match out with
    | .error c => .error c
    | .ok out => (s.collCheck p asid acc true (base + BitVec.ofNat 64 (es * i)) es).map fun ks => ks :: out
  ((List.range n).foldl step (.ok [])).map List.reverse

/-- Values at homes. -/
def State.valuesAt (s : State) (ks : List (List Nat)) : List Nat := ks.map fun k => bytesToNat (s.bytes k)

/-- What a member brings to an instance, and where its results go. -/
structure Share where
  src : List Nat
  res : List Nat
  dst : List (List Nat)
  out : List (List Nat)
  deriving DecidableEq, Repr

/-- Elements that a member reads from SRC (R360). -/
def sourceCount (r : CollReq) : Nat :=
  let c := reqCount r.req
  if reqKind r.req ≤ 2 then c else if r.rank == 0 then (if reqKind r.req == 3 then c * r.members else c) else 0

/-- Elements that a member writes to DST (R360). -/
def destCount (r : CollReq) : Nat :=
  let c := reqCount r.req
  if reqKind r.req == 0 then (if r.rank == 0 then c else 0) else if reqKind r.req == 2 then c * r.members else c

/-- The elements of a member under their checks (R360). -/
def State.shareOf (s : State) (p : PkgId) (r : CollReq) : Except (BitVec 10) Share :=
  let w := r.req
  let nres := if reqRes w then reqCount w else 0
  match s.elementHomes p r.asid .load (wordAt w 4) (collBytes (reqSfmt w)) (sourceCount r),
    s.elementHomes p r.asid .load (wordAt w 6) 4 nres,
    s.elementHomes p r.asid .store (wordAt w 5) (collBytes (reqDf w)) (destCount r),
    s.elementHomes p r.asid .store (wordAt w 6) 4 nres with
  | .ok src, .ok res, .ok dst, .ok out => .ok { src := s.valuesAt src, res := s.valuesAt res, dst := dst, out := out }
  | .error c, _, _, _ => .error c
  | _, .error c, _, _ => .error c
  | _, _, .error c, _ => .error c
  | _, _, _, .error c => .error c

/-- One contribution (R360): what travels, the new residual, and the flags. -/
def contribute (w : List Word) (src res : Nat) : Nat × Nat × Flags :=
  let sf := fpOf (reqSfmt w)
  let wf := fpOf (reqWf w)
  if reqSfmt w ≤ 1 then (src, 0, {})
  else if reqRes w then
    let (a, f1) := fp32.round .nearestEven ((sf.decode src).add .nearestEven (fp32.decode res))
    let (q, f2) := wf.round .nearestEven { num := fp32.decode a }
    let (e, f3) := fp32.round .nearestEven ((fp32.decode a).add .nearestEven (wf.decode q).neg)
    (q, e, (f1.or f2).or f3)
  else let (q, fl) := wf.round .nearestEven { num := sf.decode src }; (q, 0, fl)

/-- Elements stored at their homes; a line that they cover whole is poisoned no longer (R400). -/
def State.storeElements (s : State) (ks : List (List Nat)) (xs : List Nat) : State :=
  let t := (ks.zip xs).foldl (fun s (k, x) => s.store k (natToBytes k.length x)) s
  { t with poison := clearPoison t.poison ks.flatten }

/-- The values that each member writes to DST, and the residuals and flags, of an instance whose members are all there
(R360). -/
def collResults (r : CollReq) (xs : List (CollReq × Share)) : List (List Nat) × List (List Nat) × Flags :=
  let w := r.req
  let c := reqCount w
  if reqKind w ≤ 1 then
    let parts := xs.map fun (y, sh) =>
      (List.range c).map fun i => contribute y.req (sh.src.getD i 0) (sh.res.getD i 0)
    let op := collOpOf (reqOp w)
    let ew := 8 * collBytes (reqWf w)
    let sums := (List.range c).map fun i =>
      ringFinal op (reqWf w) (reqDf w)
        (reduceTree op (reqWf w) ew (parts.map fun q => (q.getD i (0, 0, {})).1))
    let fl := (parts.flatten.foldl (fun f x => f.or x.2.2) ({} : Flags))
    (xs.map fun _ => sums.map Prod.fst, parts.map fun q => q.map fun x => x.2.1, sums.foldl (fun f x => f.or x.2) fl)
  else
    let src := fun q => match xs[q]? with
      | some (_, sh) => sh.src
      | none => []
    let all := xs.flatMap fun (_, sh) => sh.src
    (xs.map fun (y, _) =>
      if reqKind w == 2 then all else if reqKind w == 3 then (src 0).drop (y.rank * c) else src 0, xs.map fun _ => [], {})

/-- The destination of a failed instance: each element keeps its bytes or becomes all ones, which is free (R362). -/
def State.spoil (s : State) (p : PkgId) (r : CollReq) : State :=
  let es := collBytes (reqDf r.req)
  (List.range (destCount r)).foldl (fun s i =>
    if Config.collKeeps s.free then s.take
    else match s.collCheck p r.asid .store true (wordAt r.req 5 + BitVec.ofNat 64 (es * i)) es with
      | .error _ => s.take
      | .ok ks => s.take.store ks (List.replicate es 0xFF)) s

/-- Every request of an instance ends with a status. -/
def State.endInstance (s : State) (xs : List (PkgId × CollReq)) (st cause : Nat) (fl : Flags) : State :=
  xs.foldl (fun s (p, r) => s.writeStatus p r st cause fl) s

/-- A started instance whose members are all there runs (R360, R362). -/
def State.runInstance (s : State) (xs : List (PkgId × CollReq)) : State :=
  let shares := xs.map fun (p, r) => s.shareOf p r
  let failure := fun (x : Except (BitVec 10) Share) => match x with
    | .error c => some c
    | .ok _ => none
  match shares.findSome? failure, xs with
  | some c, _ => (xs.foldl (fun s (p, r) => s.spoil p r) s).endInstance xs 4 c.toNat {}
  | none, [] => s
  | none, (_, r) :: _ =>
    let pair := fun (x : (PkgId × CollReq) × Except (BitVec 10) Share) => match x.2 with
      | .ok z => some (x.1.2, z)
      | .error _ => none
    let ok := (xs.zip shares).filterMap pair
    let (dst, res, fl) := collResults r ok
    let s := (ok.zip dst).foldl (fun s ((_, sh), v) => s.storeElements sh.dst v) s
    let s := (ok.zip res).foldl (fun s ((_, sh), v) => s.storeElements sh.out v) s
    s.endInstance xs 0 0 fl

/-- COLL_REQUEST_COMPLETE (R355, R359 to R362): the requests of a group with one TAG and SEQ complete, if they can. -/
def execCollRequestComplete (gid : BitVec 32) (tag : BitVec 16) (seq : BitVec 32) (s : State) : Res :=
  let key := (gid.toNat, tag.toNat * 2 ^ 32 + seq.toNat)
  let xs := s.instanceRequests key
  let lost := xs.any fun (p, r) => s.groupLost p r.asid (wordAt r.desc 3) r.members
  if lost then .next ((xs.foldl (fun s (p, r) => s.spoil p r) s).endInstance xs 3 0 {})
  else if !fullSet xs then .next s
  else if !s.requestsAgree xs then .next (s.endInstance xs 2 0 {})
  else if s.started.contains key then .next (s.runInstance xs)
  else .next s

end Sys2Proof.Machine
end

