-- ==== Sys2Proof/Machine/Derny.lean ====
section
/-! DEFINITION. Derny flits as they are sent, checked, performed and acknowledged (R333 to R337). -/

namespace Sys2Proof.Machine

/-! ### Building flits (R333) -/

/-- A die as a flit's SRC and DST hold it. -/
def dieBytes (d : DieId) : List Byte := natToBytes 2 ((pkgOfDie d).toNat + 512 * (dieInPkg d).toNat)

/-- A flit of the given fields, sealed with its CRC. -/
def Flit.make (type : Nat) (c : BitVec 3) (src dst : DieId) (asid : Nat) (seq ack : BitVec 32) (stat tag : Word)
    (pay : List Byte) : Flit :=
  Flit.seal ([BitVec.ofNat 8 (type + 16 * c.toNat)] ++ dieBytes src ++ dieBytes dst ++ natToBytes 2 asid ++
    [BitVec.ofNat 8 pay.length] ++ natToBytes 4 seq.toNat ++ natToBytes 4 ack.toNat ++ natToBytes 8 stat.toNat ++
    natToBytes 8 tag.toNat ++ pay)

/-- ACKSEQ for a flit from `src` to `dst` in a class: the highest sequence number of the reverse stream received in
order (R333). -/
def State.ackFor (s : State) (src dst : DieId) (c : BitVec 3) : BitVec 32 := (s.stream (streamKey dst src c)).expect - 1

/-- A flit put on its way. -/
def State.send (s : State) (f : Flit) : State := { s with wire := s.wire ++ [f] }

/-! ### Performing a request (R333) -/

/-- The origin that a request flit carries: its source die, its unit in the low byte of the tag, its ASID (R333, R387). -/
def Flit.origin (f : Flit) : Origin := { die := f.src, unit := f.extractLsb' 192 8, asid := f.extractLsb' 40 9 }

/-- Bytes of an element, from the width code (R333). -/
def Flit.width (f : Flit) : Nat := 2 ^ (f.field 16 2 / 64 % 8 - 1)

/-- What an atomic flit does, by its 6-bit operation field, whose codes are the model's (log entry 24): OP of `vamo` with its
FMT above, or a compare and swap, whose records hold the new value and then the value compared. -/
inductive FlitOp where
  | vamo (op : VamoOp) (fmt : Nat)
  | cas
  deriving DecidableEq, Repr

/-- The operation of an atomic flit. -/
def Flit.op (f : Flit) : FlitOp :=
  let code := f.field 16 1 % 64
  if 56 ≤ code then .cas
  else .vamo (match code % 8 with
    | 0 => .add
    | 1 => .min
    | 2 => .max
    | 3 => .and
    | 4 => .or
    | 5 => .xor
    | 6 => .swap
    | _ => .fadd) (code / 8)

/-- Bytes of data that each record of a request holds. -/
def Flit.dataBytes (f : Flit) : Nat :=
  match f.type with
  | 0 => 0
  | 2 => if f.op = .cas then 2 * f.width else f.width
  | _ => f.width

/-- Element records of a request: address and data (R333). -/
def Flit.records (f : Flit) : List (Word × List Byte) :=
  let size := 8 + f.dataBytes
  let pay := (f.bytes.drop 32).take (min 216 (f.field 7 1))
  (List.range (pay.length / size)).map fun i =>
    let r := pay.drop (size * i)
    (BitVec.ofNat 64 (bytesToNat (r.take 8)), (r.drop 8).take (size - 8))

/-- The access that a request flit makes. -/
def Flit.acc (f : Flit) : Acc :=
  match f.type with
  | 0 => .load
  | 1 => .store
  | _ => .atomic

/-- Why a request is not performed: STAT 1 for a target that is lost, STAT 2 with the cause of its rejection (R333). -/
def denyStat : Deny → Word
  | .lost => 1
  | .cause c => place c.toNat 2 ||| 2

/-- Where the records of a request land, or STAT of its rejection. A scalar request takes the checks of R87, another one
those of R156. -/
def State.flitPlaces (s : State) (f : Flit) : List (Word × List Byte) →
    Except Word (List (Word × Place × List Byte) × State)
  | [] => .ok ([], s)
  | (a, bs) :: rest =>
    match s.check { master := originMaster f.origin, team := 0, acc := f.acc, bank := 0, vector := f.cls != 2 } a f.width with
    | .error e => .error (denyStat e)
    | .ok (p, s) =>
      match (if f.acc == .store then none else s.poisonCause p.keys) with
      | some c => .error (denyStat (.cause c))
      | none =>
        if p.space == .regs && (portAt 0 a).isSome then .error (denyStat (.cause 0x186))
        else (s.flitPlaces f rest).map fun (out, s) => ((a, p, bs) :: out, s)

/-- The update of an atomic flit on a value, with a rounding mode for `fadd`. -/
def Flit.update (f : Flit) (rm : Rounding) (old : Nat) (bs : List Byte) : Nat :=
  let x := bytesToNat (bs.take f.width)
  match f.op with
  | .cas => if old = bytesToNat (bs.drop f.width) then x else old
  | .vamo op fmt => (vamoUpdate op ⟨8 * f.width, fmt, 1⟩ rm old x).1

/-- One record of a request performed: the bytes that it returns. The flit holds no rounding mode, so that of an `fadd` is
free (log entry 24). -/
def State.performRecord (s : State) (f : Flit) (a : Word) (p : Place) (bs : List Byte) : List Byte × State :=
  if p.space == .regs then
    match f.acc with
    | .load => (natToBytes 8 (s.regRead (aDieId a) (aOff a)).toNat, s)
    | _ => ([], s.writeFor f.origin (aDieId a) (aOff a) (BitVec.ofNat 64 (bytesToNat bs)))
  else
    match f.acc with
    | .load => (s.bytes p.keys, s)
    | .store => ([], s.store p.keys bs)
    | .atomic | .fetch =>
      let old := s.bytes p.keys
      let rm := Rounding.ofBits (BitVec.ofNat 3 (Config.pick s.free % 5))
      (old, s.take.store p.keys (natToBytes f.width (f.update rm (bytesToNat old) bs)))

/-- A request performed at its target: STAT and the payload of the response (R333). -/
def State.performFlit (s : State) (f : Flit) : Word × List Byte × State :=
  match s.flitPlaces f f.records with
  | .error e => (e, [], s)
  | .ok (ps, s) =>
    let (out, s) := ps.foldl (fun (out, s) (a, p, bs) =>
      let (x, s) := State.performRecord s f a p bs
      (out ++ x, s)) (([] : List Byte), s)
    (0, out, s)

/-! ### Delivery (R334 to R336) -/

/-- The kinds of traffic that R336 names. -/
inductive Traffic where
  | control | response | scalar | vector | engine | collective | time | management
  deriving DecidableEq, Repr

/-- CLASS of a kind of traffic (R336). -/
def Traffic.cls : Traffic → BitVec 3
  | .control => 0
  | .response => 1
  | .scalar => 2
  | .vector => 3
  | .engine => 4
  | .collective => 5
  | .time => 6
  | .management => 7

/-- The traffic that a request of a core is: a compare and swap is scalar, several records and an `fadd` are a vector word's,
and any other request is of the class it says (R84, R166, R336). -/
def Flit.coreTraffic (f : Flit) : Traffic :=
  if f.type == 2 && f.op = .cas then .scalar
  else if decide (1 < f.records.length) || (f.type == 2 && match f.op with
    | .vamo .fadd _ => true
    | _ => false) then .vector
  else if f.cls == 2 then .scalar else .vector

/-- The traffic that a flit is, by its type, and of a request by the unit that makes it (R333, R336, R387): cores, copy engines
and Horn units, the collective engine, and the management's Burup and checkpoint engine (R403). R336 does not place the
requests of the distributor, the host and the external agent: they count as scalar (log entry 24). -/
def Flit.traffic (f : Flit) : Option Traffic :=
  let u := f.origin.unit.toNat
  match f.type with
  | 0 | 1 | 2 =>
    some (if u < 128 then f.coreTraffic else if u < 168 then .engine else if u == 168 then .collective
      else if u == 240 || u == 242 then .management else .scalar)
  | 3 | 4 => some .response
  | 5 | 6 | 7 => some .control
  | 8 => some .time
  | 9 => some .management
  | _ => none

/-- A flit travels in the class of its traffic (R336). -/
def Flit.classOk (f : Flit) : Bool := f.traffic.any fun t => t.cls == f.cls

/-- The response to a request: the next flit of the reverse stream in the class of responses, with that stream's
acknowledgement. -/
def State.respond (s : State) (f : Flit) (stat : Word) (pay : List Byte) : Flit :=
  let c := Traffic.response.cls
  let y := s.stream (streamKey f.dst f.src c)
  Flit.make (if f.type == 0 then 3 else 4) c f.dst f.src (f.field 5 2 % 512) y.next (s.ackFor f.dst f.src c) stat
    (f.extractLsb' 192 64) pay

/-- A flit that is next in its stream is delivered (R334, R335): a request is performed once, its response sent, and
recorded until it is acknowledged. -/
def State.deliverFlit (s : State) (f : Flit) : State :=
  let k := streamKey f.src f.dst f.cls
  let x := s.stream k
  let s := s.setStream k { x with expect := x.expect + 1, held := x.held.filter fun g => g.seq != f.seq }
  if 2 < f.type then s
  else
    let (stat, pay, s) := s.performFlit f
    let j := streamKey f.dst f.src 1
    let r := s.respond f stat pay
    let y := s.stream j
    let s := s.setStream j { y with next := y.next + 1, sent := y.sent ++ [r] }
    let x := s.stream k
    (s.setStream k { x with replay := x.replay ++ [(f.seq, r)] }).send r

/-- A request writes a register that Burup serves, on a die whose Burup reloads: it waits (R397). -/
def State.awaitsBurup (s : State) (f : Flit) : Bool :=
  (f.type == 1 || f.type == 2) && f.records.any fun (a, _) =>
    spaceOf a == some .regs && burupReg (aDieId a) (aOff a) && (s.pkg (aPkg a)).reload

/-- A new request cannot be taken now: its stream has 4,096 requests whose responses are not acknowledged (R335), or it
awaits Burup. -/
def State.blocked (s : State) (f : Flit) : Bool :=
  s.awaitsBurup f || (decide (f.type ≤ 2) && decide (4096 ≤ (s.stream (streamKey f.src f.dst f.cls)).replay.length))

/-- Flits held out of order are delivered while the next one is there, and can be taken. -/
def State.deliverHeld (s : State) (k : Nat) : Nat → State
  | 0 => s
  | fuel + 1 =>
    let x := s.stream k
    match x.held.find? fun f => f.seq == x.expect with
    | none => s
    | some f => if s.blocked f then s else (s.deliverFlit f).deliverHeld k fuel

/-- The recorded response of a request that has been performed already is returned again (R335). -/
def State.replayFlit (s : State) (f : Flit) : State :=
  match (s.stream (streamKey f.src f.dst f.cls)).replay.find? fun r => r.1 == f.seq with
  | some (_, r) => s.send r
  | none => s

/-- NACK for the stream of a flit, with the sequence number it expects (R334). The tag names the class. -/
def State.nack (s : State) (f : Flit) : State :=
  let e := (s.stream (streamKey f.src f.dst f.cls)).expect
  s.send (Flit.make 6 Traffic.control.cls f.dst f.src 0 e (e - 1) 0 (f.cls.setWidth 64) [])

/-- A flit of a kind is turned away, whatever it holds: its class is not that of its traffic (R336), the target isolates its
package (R338), or its source die has failed and abandons its requests (R337). -/
def State.refuses (s : State) (f : Flit) (type : Nat) : Bool :=
  f.type != type || !f.classOk || !s.present (pkgOfDie f.dst) (pkgOfDie f.src) || (decide (type ≤ 2) && (s.die f.src).failed)

/-- A flit arrives (R334, R335): one with a bad CRC is discarded and NACK returned; one already performed is answered from
the replay cache, however many are recorded; one out of order is held, as is the next one while it cannot be taken. -/
def State.arrive (s : State) (f : Flit) (type : Nat) : State :=
  let s := { s with wire := s.wire.erase f }
  if !f.intact then s.nack f
  else if s.refuses f type then s
  else
    let s := s.acked f
    let k := streamKey f.src f.dst f.cls
    let x := s.stream k
    if f.seq == x.expect && !s.blocked f then (s.deliverFlit f).deliverHeld k x.held.length
    else if covers (x.expect - 1) f.seq then s.replayFlit f
    else if x.held.any fun g => g.seq == f.seq then s
    else s.setStream k { x with held := x.held ++ [f] }

/-- DERNY_READ (R333). -/
def execDernyRead (f : Flit) (s : State) : Res := .next (s.arrive f 0)
/-- DERNY_WRITE (R333). -/
def execDernyWrite (f : Flit) (s : State) : Res := .next (s.arrive f 1)
/-- DERNY_ATOMIC (R333, R335). -/
def execDernyAtomic (f : Flit) (s : State) : Res := .next (s.arrive f 2)
/-- DERNY_READ_RESPONSE (R333): the elements of remote words complete with the words here, so it only advances its
stream. -/
def execDernyReadResponse (f : Flit) (s : State) : Res := .next (s.arrive f 3)
/-- DERNY_WRITE_RESPONSE (R333). -/
def execDernyWriteResponse (f : Flit) (s : State) : Res := .next (s.arrive f 4)

/-- A control flit of CLASS 0 arrives: one with a bad CRC is discarded and NACK returned (R334). -/
def State.control (s : State) (f : Flit) (type : Nat) (k : State → State) : State :=
  let s := { s with wire := s.wire.erase f }
  if !f.intact then s.nack f else if s.refuses f type then s else k (s.acked f)

/-- DERNY_ACK (R334). -/
def execDernyAck (f : Flit) (s : State) : Res := .next (s.control f 5 id)
/-- DERNY_NACK (R334): what lies before the expected SEQ is acknowledged, and the rest is sent again. -/
def execDernyNack (f : Flit) (s : State) : Res :=
  .next (s.control f 6 fun s => { s with wire := s.wire ++ (s.stream (streamKey f.dst f.src (Flit.ackClass f))).sent })
/-- DERNY_CREDIT (R333). -/
def execDernyCredit (f : Flit) (s : State) : Res :=
  .next (s.control f 7 fun s =>
    let k := streamKey f.dst f.src (Flit.ackClass f)
    s.setStream k { s.stream k with credit := (s.stream k).credit + 1 })
/-- DERNY_TIME_LAUNCH (R344): the time base goes on, and never steps backward. -/
def execDernyTimeLaunch (f : Flit) (s : State) : Res := .next (s.arrive f 8).passTime
/-- DERNY_MANAGEMENT (R333). -/
def execDernyManagement (f : Flit) (s : State) : Res := .next (s.arrive f 9)

/-- FLIT_RESEND_TIMEOUT (R334): the oldest unacknowledged flit of a stream has waited 2 µs, and is sent again with the later
ones that have too, whose number is free; the sender keeps each until it is acknowledged. -/
def execFlitResendTimeout (src dst : DieId) (c : BitVec 3) (s : State) : Res :=
  let sent := (s.stream (streamKey src dst c)).sent
  .next { s.take with wire := s.wire ++ sent.take (1 + Config.pick s.free % sent.length) }

end Sys2Proof.Machine
end

