-- ==== Sys2Proof/Machine/Fetch.lean ====
section
/-! DEFINITION. Instruction fetch (R21, R22, R230). -/

namespace Sys2Proof.Machine

/-- A place a hart of a die fetches from (R21): its TCM, the channels and interleave window of its own die or of
another compute die of its package, outside the read-only windows of its team. -/
def State.fetchable (s : State) (own : DieId) (t : TeamId) (a : Word) : Bool :=
  let near := aPkg a == pkgOfDie own && decide ((aDie a).toNat < s.computeDies (aPkg a)) && !s.inWindow own t a
  match spaceOf a with
  | some .tcm => aDieId a == own
  | some (.channel _) | some .interleave => near
  | _ => false

/-- The word at an address, read past the instruction buffer, or the cause of the fetch fault (R21). -/
def State.fetchAt (s : State) (how : How) (a : Word) : Except (BitVec 10) (BitVec 32 × State) :=
  if !s.fetchable how.master.die how.team a then .error 0x102
  else if (s.die (aDieId a)).failed then .error 0x140
  else match s.check how a 4 with
    | .error .lost => .error 0x140
    | .error (.cause c) => .error (if c == 0x100 then 0x102 else c)
    | .ok (p, s) =>
      match s.poisonCause p.keys with
      | some c => .error c
      | none => .ok (BitVec.ofNat 32 (bytesToNat (s.bytes p.keys)), s)

/-- The word at `pc`: a word that the instruction buffer holds stays there until `ifl` (R22, R230). -/
def State.fetch (s : State) : Except (BitVec 10) (BitVec 32 × State) :=
  match s.hart.ibuf.find? (fun x => x.1 == s.hart.pc.toNat) with
  | some x => .ok (x.2, s)
  | none => (s.fetchAt (s.scalarHow .fetch) s.hart.pc).map fun (w, s) =>
      (w, { s with hart := { s.hart with ibuf := ((s.hart.pc.toNat, w) :: s.hart.ibuf).take 4096 } })

/-- ILLEGAL_INSTRUCTION (R52, R53): the hart whose turn it is reaches a word that is no instruction, and traps. -/
def execIllegalInstruction (w : BitVec 32) (s : State) : Res :=
  match decodeBase w with
  | some (.error r) => .next (s.trap r.cause (wordVal w))
  | some (.ok _) => .next s
  | none => .next s

/-- FETCH_FAULT (R21): the fetch at `pc` fails, and the hart traps with the address. -/
def execFetchFault (s : State) : Res :=
  match s.fetch with
  | .error c => .next (s.trap c s.hart.pc)
  | .ok _ => .next s

end Sys2Proof.Machine
end

