-- ==== Sys2Proof/Machine/ScalarAlu.lean ====
section
/-! DEFINITION. Scalar integer arithmetic and logic: majors 0x01 to 0x08 (R78 to R81). -/

namespace Sys2Proof.Machine

/-- A scalar word with a result retires: sources are read before the destination is written (R79). -/
def State.result (s : State) (d : SReg) (x : Word) : Res := .next (s.setS d x).advance

/-- Signed quotient under R28. -/
def quotS (a b : Word) : Word := if b = 0 then BitVec.allOnes 64 else a.sdiv b
/-- Unsigned quotient under R28. -/
def quotN (a b : Word) : Word := if b = 0 then BitVec.allOnes 64 else a.udiv b
/-- Signed remainder under R28: the sign of the dividend; the dividend for a zero divisor. -/
def remS (a b : Word) : Word := if b = 0 then a else a.srem b
/-- Unsigned remainder under R28. -/
def remN (a b : Word) : Word := if b = 0 then a else a.umod b

/-- Bits of a source width (R56). -/
def extWidth : ExtW → Nat
  | .w8 => 8
  | .w16 => 16
  | .w32 => 32

/-- `add` (R78). -/
def execAdd (d a b : SReg) (s : State) : Res :=
  s.result d (s.getS a + s.getS b)

/-- `sub` (R78). -/
def execSub (d a b : SReg) (s : State) : Res :=
  s.result d (s.getS a - s.getS b)

/-- `mul` (R78): the low 64 bits of the product. -/
def execMul (d a b : SReg) (s : State) : Res :=
  s.result d (s.getS a * s.getS b)

/-- `mulh` (R78): the high 64 bits of the signed product. -/
def execMulh (d a b : SReg) (s : State) : Res :=
  s.result d (BitVec.ofInt 64 ((s.getS a).toInt * (s.getS b).toInt / 2 ^ 64))

/-- `mulhn` (R78): the high 64 bits of the unsigned product. -/
def execMulhn (d a b : SReg) (s : State) : Res :=
  s.result d (BitVec.ofNat 64 ((s.getS a).toNat * (s.getS b).toNat / 2 ^ 64))

/-- `div` (R78, R28). -/
def execDiv (d a b : SReg) (s : State) : Res :=
  s.result d (quotS (s.getS a) (s.getS b))

/-- `divn` (R78, R28). -/
def execDivn (d a b : SReg) (s : State) : Res :=
  s.result d (quotN (s.getS a) (s.getS b))

/-- `rem` (R78, R28). -/
def execRem (d a b : SReg) (s : State) : Res :=
  s.result d (remS (s.getS a) (s.getS b))

/-- `remn` (R78, R28). -/
def execRemn (d a b : SReg) (s : State) : Res :=
  s.result d (remN (s.getS a) (s.getS b))

/-- `and` (R78). -/
def execAnd (d a b : SReg) (s : State) : Res :=
  s.result d (s.getS a &&& s.getS b)

/-- `or` (R78). -/
def execOr (d a b : SReg) (s : State) : Res :=
  s.result d (s.getS a ||| s.getS b)

/-- `xor` (R78). -/
def execXor (d a b : SReg) (s : State) : Res :=
  s.result d (s.getS a ^^^ s.getS b)

/-- `andn` (R78). -/
def execAndn (d a b : SReg) (s : State) : Res :=
  s.result d (s.getS a &&& ~~~(s.getS b))

/-- `shl` (R78): by `s[B]` [5:0]. -/
def execShl (d a b : SReg) (s : State) : Res :=
  s.result d (s.getS a <<< bits (s.getS b) 0 6)

/-- `shr` (R78): by `s[B]` [5:0]. -/
def execShr (d a b : SReg) (s : State) : Res :=
  s.result d (s.getS a >>> bits (s.getS b) 0 6)

/-- `sra` (R78): by `s[B]` [5:0]. -/
def execSra (d a b : SReg) (s : State) : Res :=
  s.result d ((s.getS a).sshiftRight (bits (s.getS b) 0 6))

/-- `rol` (R78): by `s[B]` [5:0]. -/
def execRol (d a b : SReg) (s : State) : Res :=
  s.result d ((s.getS a).rotateLeft (bits (s.getS b) 0 6))

/-- `slt` (R78): signed. -/
def execSlt (d a b : SReg) (s : State) : Res :=
  s.result d (flag ((s.getS a).slt (s.getS b)))

/-- `sltn` (R78): unsigned. -/
def execSltn (d a b : SReg) (s : State) : Res :=
  s.result d (flag ((s.getS a).ult (s.getS b)))

/-- `min` (R78): signed. -/
def execMin (d a b : SReg) (s : State) : Res :=
  s.result d (if (s.getS b).slt (s.getS a) then s.getS b else s.getS a)

/-- `max` (R78): signed. -/
def execMax (d a b : SReg) (s : State) : Res :=
  s.result d (if (s.getS a).slt (s.getS b) then s.getS b else s.getS a)

/-- `minn` (R78): unsigned. -/
def execMinn (d a b : SReg) (s : State) : Res :=
  s.result d (if (s.getS b).ult (s.getS a) then s.getS b else s.getS a)

/-- `maxn` (R78): unsigned. -/
def execMaxn (d a b : SReg) (s : State) : Res :=
  s.result d (if (s.getS a).ult (s.getS b) then s.getS b else s.getS a)

/-- `sel` (R78): chosen by the prior `s[D]`. -/
def execSel (d a b : SReg) (s : State) : Res :=
  s.result d (if s.getS d != 0 then s.getS a else s.getS b)

/-- `clz` (R78): 64 for zero. -/
def execClz (d a : SReg) (s : State) : Res :=
  s.result d (BitVec.ofNat 64 (leadingZeros (s.getS a)))

/-- `ctz` (R78): 64 for zero. -/
def execCtz (d a : SReg) (s : State) : Res :=
  s.result d (BitVec.ofNat 64 (trailingZeros (s.getS a)))

/-- `popc` (R78). -/
def execPopc (d a : SReg) (s : State) : Res :=
  s.result d (BitVec.ofNat 64 (popCount (s.getS a)))

/-- `sext` (R78). -/
def execSext (d a : SReg) (w : ExtW) (s : State) : Res :=
  s.result d (sext (s.getS a) (extWidth w))

/-- `zext` (R78). -/
def execZext (d a : SReg) (w : ExtW) (s : State) : Res :=
  s.result d (zext (s.getS a) (extWidth w))

/-- `addi` (R80). -/
def execAddi (d a : SReg) (i : BitVec 16) (s : State) : Res :=
  s.result d (s.getS a + i.signExtend 64)

/-- `andi` (R80). -/
def execAndi (d a : SReg) (i : BitVec 16) (s : State) : Res :=
  s.result d (s.getS a &&& i.signExtend 64)

/-- `ori` (R80). -/
def execOri (d a : SReg) (i : BitVec 16) (s : State) : Res :=
  s.result d (s.getS a ||| i.setWidth 64)

/-- `xori` (R80). -/
def execXori (d a : SReg) (i : BitVec 16) (s : State) : Res :=
  s.result d (s.getS a ^^^ i.setWidth 64)

/-- `slti` (R80). -/
def execSlti (d a : SReg) (i : BitVec 16) (s : State) : Res :=
  s.result d (flag ((s.getS a).slt (i.signExtend 64)))

/-- `shli` (R80). -/
def execShli (d a : SReg) (n : BitVec 6) (s : State) : Res :=
  s.result d (s.getS a <<< n.toNat)

/-- `shri` (R80). -/
def execShri (d a : SReg) (n : BitVec 6) (s : State) : Res :=
  s.result d (s.getS a >>> n.toNat)

/-- `srai` (R80). -/
def execSrai (d a : SReg) (n : BitVec 6) (s : State) : Res :=
  s.result d ((s.getS a).sshiftRight n.toNat)

/-- `kset` (R81): the other halves become zero. -/
def execKset (d : SReg) (h : BitVec 2) (i : BitVec 16) (s : State) : Res :=
  s.result d (i.setWidth 64 <<< (16 * h.toNat))

/-- `kins` (R81): the other halves stay. -/
def execKins (d : SReg) (h : BitVec 2) (i : BitVec 16) (s : State) : Res :=
  s.result d ((s.getS d &&& ~~~((0xFFFF : Word) <<< (16 * h.toNat))) ||| i.setWidth 64 <<< (16 * h.toNat))

end Sys2Proof.Machine
end

