-- ==== Sys2Proof/Machine/ScalarFp.lean ====
section
/-! DEFINITION. Scalar floating point: major 0x11 (R60, R95, R96). -/

namespace Sys2Proof.Machine

/-- The format a scalar FP field names (R60). -/
def scalarFmt : FFmt → FpFormat
  | .f64 => fp64
  | .f32 => fp32
  | .bf16 => bf16
  | .f16 => fp16

/-- The word of a scalar FP instruction (R60). -/
def fpWord (d a b : SReg) (fmt : BitVec 3) (op sub : BitVec 4) : BitVec 32 := encReg 0x11 d a b (fmt ++ op ++ sub)

/-- A scalar FP word: 0x045 under a reserved `fcsr.RM`, then the result to `s[D]`, zero-extended, and its flags (R95). -/
def scalarFp (word : BitVec 32) (d : SReg) (r : Nat × Flags) (s : State) : Res :=
  trapIf s.rmReserved 0x045 (wordVal word) s <|
    .next ((s.raise r.2).setS d (BitVec.ofNat 64 r.1)).advance

/-- The value of a register in a format: its low bits (R95). -/
def State.num (s : State) (f : FpFormat) (r : SReg) : FpNum := f.decode (s.getS r).toNat

/-- The code of a register in a format: its low bits. -/
def State.code (s : State) (f : FpFormat) (r : SReg) : Nat := (s.getS r).toNat % 2 ^ f.width

/-- `fadd` (R95). -/
def execFadd (d a b : SReg) (f : FFmt) (s : State) : Res :=
  let x := scalarFmt f
  scalarFp (fpWord d a b f.toBits 0 0) d (x.round s.scalarRm ((s.num x a).add s.scalarRm (s.num x b))) s

/-- `fsub` (R95). -/
def execFsub (d a b : SReg) (f : FFmt) (s : State) : Res :=
  let x := scalarFmt f
  scalarFp (fpWord d a b f.toBits 1 0) d (x.round s.scalarRm ((s.num x a).add s.scalarRm (s.num x b).neg)) s

/-- `fmul` (R95). -/
def execFmul (d a b : SReg) (f : FFmt) (s : State) : Res :=
  let x := scalarFmt f
  scalarFp (fpWord d a b f.toBits 2 0) d (x.round s.scalarRm ((s.num x a).mul (s.num x b))) s

/-- `ffma` (R95): rounded once; D is the addend. -/
def execFfma (d a b : SReg) (f : FFmt) (s : State) : Res :=
  let x := scalarFmt f
  scalarFp (fpWord d a b f.toBits 3 0) d
    (x.round s.scalarRm (FpNum.fma s.scalarRm (s.num x a) (s.num x b) (s.num x d))) s

/-- `fdiv` (R95). -/
def execFdiv (d a b : SReg) (f : FFmt) (s : State) : Res :=
  let x := scalarFmt f
  scalarFp (fpWord d a b f.toBits 4 0) d (x.round s.scalarRm ((s.num x a).div (s.num x b))) s

/-- `fsqrt` (R95). -/
def execFsqrt (d a : SReg) (f : FFmt) (s : State) : Res :=
  let x := scalarFmt f
  scalarFp (fpWord d a 0 f.toBits 5 0) d (x.round s.scalarRm (s.num x a).sqrt) s

/-- `fmin` (R95). -/
def execFmin (d a b : SReg) (f : FFmt) (s : State) : Res :=
  let x := scalarFmt f
  scalarFp (fpWord d a b f.toBits 6 0) d (x.extremum true (s.code x a) (s.code x b)) s

/-- `fmax` (R95). -/
def execFmax (d a b : SReg) (f : FFmt) (s : State) : Res :=
  let x := scalarFmt f
  scalarFp (fpWord d a b f.toBits 7 0) d (x.extremum false (s.code x a) (s.code x b)) s

/-- `fcmp` (R95): 1 or 0. -/
def execFcmp (d a b : SReg) (f : FFmt) (r : FRel) (s : State) : Res :=
  let c := (scalarFmt f).compare r (s.getS a).toNat (s.getS b).toNat
  scalarFp (fpWord d a b f.toBits 8 r.toBits) d (bitNat c.1, c.2) s

/-- The value that `fcvt` reads (R96). -/
def State.cvtSource (s : State) (a : SReg) : CvtTy → Exact
  | .f64 => { num := s.num fp64 a }
  | .f32 => { num := s.num fp32 a }
  | .bf16 => { num := s.num bf16 a }
  | .f16 => { num := s.num fp16 a }
  | .i64 => exactInt (s.getS a).toInt
  | .n64 => exactInt (s.getS a).toNat

/-- An integer result of `fcvt` as 64 bits. -/
def cvtInt (r : Int × Flags) : Nat × Flags := ((BitVec.ofInt 64 r.1).toNat, r.2)

/-- The result of `fcvt` (R96). -/
def cvtResult (rm : Rounding) (x : Exact) : CvtTy → Nat × Flags
  | .f64 => fp64.round rm x
  | .f32 => fp32.round rm x
  | .bf16 => bf16.round rm x
  | .f16 => fp16.round rm x
  | .i64 => cvtInt (x.num.toInt rm (-2 ^ 63) (2 ^ 63 - 1))
  | .n64 => cvtInt (x.num.toInt rm 0 (2 ^ 64 - 1))

/-- `fcvt` (R96). -/
def execFcvt (d a : SReg) (dst src : CvtTy) (s : State) : Res :=
  scalarFp (fpWord d a 0 (dst.toBits.setWidth 3) 9 src.toBits) d (cvtResult s.scalarRm (s.cvtSource a src) dst) s

/-- `fmv` (R95): the bits of the format's width. -/
def execFmv (d a : SReg) (f : FFmt) (s : State) : Res :=
  scalarFp (fpWord d a 0 f.toBits 10 0) d (s.code (scalarFmt f) a, {}) s

end Sys2Proof.Machine
end

