-- ==== Sys2Proof/Machine/Front.lean ====
section
/-! DEFINITION. The front end of a hart as it runs ahead of the words that have retired, and the vector queue (R19, R181).
What it executes past `pc` is not final: it is discarded at a trap, and takes effect as the words retire in order. So a
run ahead is worked out from the hart as it stands, and only how far it has gone is state. -/

namespace Sys2Proof.Machine

/-- A word of integers, constants or control that scalar front end and Fife run alike (R78 to R81, R88). -/
def runPlainWord (i : Instr) (s : State) : Option Res :=
  match i with
  | .add d a b => some (execAdd d a b s)
  | .sub d a b => some (execSub d a b s)
  | .mul d a b => some (execMul d a b s)
  | .mulh d a b => some (execMulh d a b s)
  | .mulhn d a b => some (execMulhn d a b s)
  | .div d a b => some (execDiv d a b s)
  | .divn d a b => some (execDivn d a b s)
  | .rem d a b => some (execRem d a b s)
  | .remn d a b => some (execRemn d a b s)
  | .and d a b => some (execAnd d a b s)
  | .or d a b => some (execOr d a b s)
  | .xor d a b => some (execXor d a b s)
  | .andn d a b => some (execAndn d a b s)
  | .shl d a b => some (execShl d a b s)
  | .shr d a b => some (execShr d a b s)
  | .sra d a b => some (execSra d a b s)
  | .rol d a b => some (execRol d a b s)
  | .slt d a b => some (execSlt d a b s)
  | .sltn d a b => some (execSltn d a b s)
  | .min d a b => some (execMin d a b s)
  | .max d a b => some (execMax d a b s)
  | .minn d a b => some (execMinn d a b s)
  | .maxn d a b => some (execMaxn d a b s)
  | .clz d a => some (execClz d a s)
  | .ctz d a => some (execCtz d a s)
  | .popc d a => some (execPopc d a s)
  | .sext d a w => some (execSext d a w s)
  | .zext d a w => some (execZext d a w s)
  | .sel d a b => some (execSel d a b s)
  | .addi d a im => some (execAddi d a im s)
  | .andi d a im => some (execAndi d a im s)
  | .ori d a im => some (execOri d a im s)
  | .xori d a im => some (execXori d a im s)
  | .shli d a n => some (execShli d a n s)
  | .shri d a n => some (execShri d a n s)
  | .srai d a n => some (execSrai d a n s)
  | .slti d a im => some (execSlti d a im s)
  | .kset d h im => some (execKset d h im s)
  | .kins d h im => some (execKins d h im s)
  | .beq d a o => some (execBeq d a o s)
  | .bne d a o => some (execBne d a o s)
  | .blt d a o => some (execBlt d a o s)
  | .bge d a o => some (execBge d a o s)
  | .bltn d a o => some (execBltn d a o s)
  | .bgen d a o => some (execBgen d a o s)
  | .jal d o => some (execJal d o s)
  | .jalr d a im => some (execJalr d a im s)
  | _ => none

/-- A CSR whose access waits for every earlier word (R99). -/
def csrWaits : Csr → Bool
  | .vl | .vty | .vix | .fcsr | .xlm | .rerr | .fthr | .fm _ => true
  | .zlr | .zlb | .zls | .tick | .flw | .hrk | .htm | .hpos | .qmap | .fst | .fpc | .fva | .tcause | .tval | .tepc | .tvec
  | .tsr | .tscr | .psa => false

/-- A word that the front end executes past words which have not retired: it changes nothing but the hart's own registers
and type, reads a CSR that R99 does not name, loads from outside the device registers, or is a `flow` that it has performed
ahead (R415). Any other word, one with an effect outside the hart, a CSR write or a CSR access under R99, waits for the older
ones (R19). -/
def runAheadWord (i : Instr) (s : State) : Option Res :=
  match i with
  | .fadd d a b f => some (execFadd d a b f s)
  | .fsub d a b f => some (execFsub d a b f s)
  | .fmul d a b f => some (execFmul d a b f s)
  | .ffma d a b f => some (execFfma d a b f s)
  | .fdiv d a b f => some (execFdiv d a b f s)
  | .fsqrt d a f => some (execFsqrt d a f s)
  | .fmin d a b f => some (execFmin d a b f s)
  | .fmax d a b f => some (execFmax d a b f s)
  | .fcmp d a b f r => some (execFcmp d a b f r s)
  | .fcvt d a dst src => some (execFcvt d a dst src s)
  | .fmv d a f => some (execFmv d a f s)
  | .smine d a n o => some (execSmine d a n o s)
  | .zol a l => some (execZol a l s)
  | .setvl d a => some (execSetvl d a s)
  | .setvt d a => some (execSetvt d a s)
  | .tick d => some (execTick d s)
  | .csrr d c => if csrWaits c then none else some (execCsrr d c s)
  | .flow d c => if s.hart.flowDone.isSome then some (execFlow d c s) else none
  | .ld d a t o => if spaceOf (s.getS a + o.signExtend 64) == some .regs then none else some (execLd d a t o s)
  | _ => runPlainWord i s

/-- A word that the front end places into the vector queue: majors 0x13 to 0x1F, 0x21 and 0x22 (R181). -/
def queueMajor (w : BitVec 32) : Bool :=
  let m := (majorOf w).toNat
  (decide (0x13 ≤ m) && decide (m ≤ 0x1F)) || m == 0x21 || m == 0x22

/-- Words that a vector queue holds (R181). -/
def queueDepth : Nat := 32

/-- A word of a hart's vector queue: how many words past `pc` it stands, the length and type it is executed with, and the
value of the scalar register that its field B names. -/
structure Queued where
  dist : Nat
  word : BitVec 32
  vl   : Nat
  vty  : Word
  sb   : Word
  deriving DecidableEq, Repr

/-- A run of a front end from `pc` on: the hart as it sees it, the words it has passed, the vector queue in program order,
the scalar registers that queued words are to write, and whether a queued word may yet trim `vl` (R107). -/
structure RunAhead where
  state : State
  words : Nat := 0
  queue : List Queued := []
  owed  : List SReg := []
  trims : Bool := false
  deriving DecidableEq, Repr

/-- The scalar register that a queued word writes when it executes. -/
def owedBy : Instr → Option SReg
  | .vmvs d _ _ | .pffs d _ | .pcnt d _ | .bndq d _ | .rowpin d _ | .rowq d _ | .settl d _ | .cpy d _ _ | .shp d _
  | .deq d _ | .dnode d _ | .rwin d _ _ => some d
  | _ => none

/-- A queued word may trim `vl` below the grant: `vldff` and `gsp` (R107). -/
def mayTrim : Instr → Bool
  | .vldff _ _ _ _ | .gsp _ _ _ _ => true
  | _ => false

/-- Scalar registers that a word of the front end names. -/
def scalarNames (w : BitVec 32) : List SReg :=
  let (d, a, b) := (fieldD w, fieldA w, fieldB w)
  match (majorOf w).toNat with
  | 0x01 | 0x11 => [d, a, b]
  | 0x08 | 0x0D | 0x12 => [d]
  | 0x0F => d :: (List.range (fieldZ w).toNat).map fun j => a + BitVec.ofNat 5 j
  | _ => [d, a]

/-- A word of the front end names a scalar register that a queued word is to write, and waits for it (R131, R181). -/
def RunAhead.waitsFor (x : RunAhead) (w : BitVec 32) : Bool := (scalarNames w).any fun r => r != 0 && x.owed.contains r

/-- The front end places a word into the vector queue: with the instruction, unless it is a link form. -/
def RunAhead.push (x : RunAhead) (w : BitVec 32) (i : Option Instr) (s t : State) : RunAhead :=
  { state := t, words := x.words + 1, queue := x.queue ++ [⟨x.words, w, s.hart.vl.toNat, s.hart.vty, s.getS (fieldB w)⟩]
    owed := ((i.bind owedBy).toList) ++ x.owed, trims := (i.map mayTrim).getD false }

/-- A word has run and its hart stands in program order at the next one, without a trap or a wait. -/
def ranOn (s t : State) : Bool :=
  t.hart.run == .running && t.hart.tepc == s.hart.tepc && t.hart.hs == s.hart.hs && t.hart.nest == s.hart.nest

/-- The front end runs one more word; none when it waits: for a place in the queue, for a queued word, or at a word that
does not run ahead. A word that would trap is not run ahead either: it traps when it is reached (R52). -/
def RunAhead.next (x : RunAhead) : Option RunAhead :=
  match x.state.fetch with
  | .error _ => none
  | .ok (w, s) =>
    if x.trims || (queueMajor w && x.queue.length == queueDepth) then none
    else match decodeBase w with
      | none => if queueMajor w then some (x.push w none s s.advance) else none
      | some (.error _) => none
      | some (.ok i) =>
        match runAheadWord i s with
        | some (.next t) =>
          if x.waitsFor w || !ranOn s t then none
          else some (if queueMajor w then x.push w none s t else { x with state := t, words := x.words + 1 })
        | some _ => none
        | none => if queueMajor w then some (x.push w (some i) s s.advance) else none

/-- The front end of a hart as far as it has run: past the word at `pc`, if that one is queued or runs ahead, and `ahead`
words more. -/
def State.runAhead (s : State) (h : HartId) : RunAhead :=
  let t := s.select h
  let x : RunAhead := { state := { t with hart := { t.hart with run := .running } } }
  forUpTo (t.hart.front.ahead + 1) (fun _ y => y.next.getD y) x

/-- The vector queue of a hart, oldest first (R181). -/
def State.vectorQueue (s : State) (h : HartId) : List Queued :=
  if (s.hartAt h).placed then (s.runAhead h).queue else []

/-- The class of the `flow` that the front end stands at past `pc`: it waits for no earlier vector word (R415). -/
def RunAhead.flowHere (x : RunAhead) : Option (BitVec 4) :=
  match x.state.fetch with
  | .error _ => none
  | .ok (w, s) =>
    match decodeBase w with
    | some (.ok (.flow _ c)) =>
      if x.words == 0 || x.trims || x.waitsFor w || s.hart.flowDone.isSome then none else some c
    | _ => none

/-- The front end of a hart waits: it can run no further until an older word retires (R181, R220). -/
def State.frontWaits (s : State) (h : HartId) : Bool :=
  let x := s.runAhead h
  x.next.isNone && x.flowHere.isNone

/-- The front end of a hart runs one word ahead, unless it waits: a `flow` takes effect now, and what it returns is kept until
the word retires (R415). -/
def State.runFront (s : State) (h : HartId) : State :=
  let y := s.hartAt h
  if !y.placed || y.stopped then s
  else
    let x := s.runAhead h
    match x.next, x.flowHere with
    | some _, _ => s.putHart { y with front := { y.front with ahead := y.front.ahead + 1 } }
    | none, some c =>
      s.onHart h fun s =>
        let s := s.performFlow c
        { s with hart := { s.hart with front := { s.hart.front with
            ahead := s.hart.front.ahead + 1, flows := s.hart.front.flows ++ [(x.words, s.flw)] } } }
    | none, none => s

end Sys2Proof.Machine
end

