-- ==== Sys2Proof/Machine/VMem.lean ====
section
/-! DEFINITION. Vector memory words: majors 0x1B to 0x1D (R151 to R168). -/

namespace Sys2Proof.Machine

/-- How an interrupted word continues (R151, R158). -/
inductive Resume where
  | vix | fm
  deriving DecidableEq, Repr

/-- A vector memory word: its encoding, what it does, its mode, how it resumes, whether it is `vldff` or `vstx`, its
fields, and whether its description admits the type. -/
structure MemWord where
  word   : BitVec 32
  kind   : NbKind
  mode   : VMode
  resume : Resume
  first  : Bool := false
  listed : Bool := false
  d      : BitVec 5
  a      : BitVec 5
  p      : BitVec 5
  nb     : Bool
  admits : Bool
  rounds : Bool := false
  deriving DecidableEq, Repr

/-- `fm` names the position, or its block (R154, R155). -/
def Hart.named (h : Hart) (t : VType) (i : Nat) : Bool :=
  h.fm == 0 || (List.range t.step).any fun k => h.fm.getLsbD (i / t.step * t.step + k)

/-- The position is active: the governing predicate, or every one for a non-blocking form (R165). -/
def MemWord.active (m : MemWord) (h : Hart) (i : Nat) : Bool := h.active (if m.nb then 31 else m.p) i

/-- The word accesses the position (R155). -/
def MemWord.on (m : MemWord) (s : State) (i : Nat) : Bool :=
  m.active s.hart i && decide (s.hart.vix.toNat ≤ i) && s.hart.named s.vtype i

/-- Positions as bits. -/
def maskOf (xs : List Nat) : PredBits := xs.foldl (fun m i => m ||| 1 <<< i) 0

/-- An item performed where it landed (R153, R154, R166, R167). -/
def State.performItem (s : State) (kind : NbKind) (t : VType) (rm : Rounding) (d : BitVec 5) (on : Nat → Bool)
    (rerr : Bool) (x : VItem × List Landing) : State :=
  match kind with
  | .load => s.loadItem t d on rerr x.1 x.2
  | .store => s.storeItem t d on rerr x.1 x.2
  | .amo op => s.amoItem op t rm d rerr x.1 x.2

/-- After the items of a word: a line that a store has written whole is poisoned no longer (R400), and the free value of the
atomics whose target was lost is spent. -/
def State.performed (s : State) (kind : NbKind) (t : VType) (xs : List (VItem × List Landing)) : State :=
  match kind with
  | .store =>
    let ks := xs.flatMap fun x => landedKeys x.2
    { s with poison := clearPoison s.poison (if t.ew == 4 then ks.filter fun k => decide (2 ≤ ks.count k) else ks) }
  | .amo _ => if xs.any fun x => x.2.any Option.isNone then s.take else s
  | .load => s

/-- Items performed: those of an atomic by address, ties by position, the others by position (R160, R166). -/
def State.performAll (s : State) (kind : NbKind) (t : VType) (rm : Rounding) (d : BitVec 5) (on : Nat → Bool)
    (xs : List (VItem × List Landing)) : State :=
  let xs := match kind with
    | .amo _ => sortItems xs
    | .load | .store => xs
  let s := xs.foldl (fun s x => s.performItem kind t rm d on true x) s
  s.performed kind t xs

/-- Items that passed their checks. -/
def passed (outs : List (VItem × Except VFault (List Landing))) : List (VItem × List Landing) :=
  outs.filterMap fun (x, r) => match r with
    | .ok ls => some (x, ls)
    | .error _ => none

/-- Items that failed a check, in order. -/
def failing (outs : List (VItem × Except VFault (List Landing))) : List (VItem × VFault) :=
  outs.filterMap fun (x, r) => match r with
    | .ok _ => none
    | .error f => some (x, f)

/-- Where this turn of the word stops: whole blocks under the block formats (R154). -/
def State.memUpto (s : State) : Nat := if s.vtype.isBlock then s.uptoBlock else s.upto

/-- The word retires with `fm` at 0 (R155). -/
def State.memDone (s : State) : Ended := .retire { s with hart := { s.hart with fm := 0 } }

/-- The word stops below `n` (R158): `vix` at `n`, or `fm` at the positions that remain and `vix` at 0. -/
def State.memStop (s : State) (r : Resume) (n : Nat) (rest : List VItem) : State :=
  match r with
  | .vix => { s with hart := { s.hart with run := .running, vix := BitVec.ofNat 11 (max s.hart.vix.toNat n) } }
  | .fm => { s with hart := { s.hart with run := .running, vix := 0, fm := maskOf (rest.map VItem.pos) } }

/-- The word performs the elements of one address together: of an unordered store only the highest is performed, and an
atomic makes one update of each address (R160, R166). -/
def MemWord.gathers (m : MemWord) : Bool := m.resume == .fm && m.kind != .load

/-- The position that stands for the elements of a word that go together with an item: the highest of its address. -/
def MemWord.leader (m : MemWord) (xs : List VItem) (x : VItem) : Nat :=
  if m.gathers then (xs.filter fun y => y.addrs == x.addrs).foldl (fun k y => max k y.pos) x.pos else x.pos

/-- A word that stops at `n` has performed the item: it lies below, or shares its address with one that does. -/
def MemWord.within (m : MemWord) (xs : List VItem) (n : Nat) (x : VItem) : Bool :=
  decide (x.pos < n) || (m.gathers && xs.any fun y => decide (y.pos < n) && y.addrs == x.addrs)

/-- The end of a word that faults first at item `x` (R158): what it performs and where it resumes. Of a remote word of
the `fm` class any elements that do not fault may have been performed, those of one address together: which ones is a free
value. -/
def MemWord.faulted (m : MemWord) (remote : Bool) (outs : List (VItem × Except VFault (List Landing)))
    (run : List (VItem × List Landing) → State → State) (x : VItem) (f : VFault) (s : State) : State :=
  let below := (passed outs).filter fun y => decide (y.1.pos < x.pos)
  let prefixWay := (run below s).memStop .vix x.pos []
  let left := (failing outs).map Prod.fst
  let scattered := (run (passed outs) s).memStop .fm 0 left
  let (some_, others) := (passed outs).partition fun y =>
    Config.remotePerforms s.free (m.leader ((passed outs).map Prod.fst) y.1)
  let freely := (run some_ s.take).memStop .fm 0 (left ++ others.map Prod.fst)
  let indexed := match m.mode with
    | .indexed _ => true
    | .unit | .strided _ | .segment _ => false
  (match m.resume with
  | .vix => if remote || m.listed then prefixWay else s
  | .fm => if remote then freely else if indexed then scattered else s).trap f.cause f.addr

/-- The element loop of a blocking word (R155, R158, R163). A resumed word counts as remote by the elements that it has left to
perform: R157 does not say whether those already done count, and this is the model's choice (log entry 39). It waits for an
outstanding access of the hart that comes before it at a byte (R251). -/
def MemWord.body (m : MemWord) (s : State) : Ended :=
  let before := s
  let t := s.vtype
  let on := m.on s
  let rm := s.vectorRm
  let items := s.items t m.mode (s.getS m.a) on
  let (outs, s) := s.probe m.kind.acc t m.mode.pagewise [] items
  let run := fun (xs : List (VItem × List Landing)) (s : State) => s.performAll m.kind t rm m.d on xs
  let n := s.memUpto
  let lowest := (List.range s.hart.vl.toNat).find? fun i => m.active s.hart i && s.hart.named t i
  let interrupted := fun (_ : Unit) =>
    let done := (passed outs).filter fun y => m.within items n y.1
    let rest := items.filter fun y => !m.within items n y
    if rest.isEmpty then (run done s).memDone else .stop ((run done s).memStop m.resume n rest)
  if (passed outs).any fun y => s.afterNb s.hart.nb m.kind.acc (landedKeys y.2) then .stop (before.wait .interlock)
  else match failing outs with
  | [] => interrupted ()
  | (x, f) :: _ =>
    if m.first && decide (lowest.getD x.pos / t.step < x.pos / t.step) then
      let s := run ((passed outs).filter fun y => decide (y.1.pos < x.pos)) s
      ({ s with hart := { s.hart with vl := BitVec.ofNat 12 x.pos } }).memDone
    else
      let remote := items.any s.remote
      if remote && m.resume == .vix && decide (n ≤ x.pos) && decide (n < s.hart.vl.toNat) then interrupted ()
      else .stop (m.faulted remote outs run x f s)

/-! ### Non-blocking forms (R165) -/

/-- Bytes of every position below `vl`: whole block images, half a byte at EW 4 rounded up, else `es` a position. -/
def nbBytes (t : VType) (vl : Nat) : Nat :=
  if t.isBlock then ceilDiv vl 32 * blockSize t.fmt
  else if t.ew == 4 then ceilDiv vl 2
  else vl * t.es

/-- The registers of the word's data group, every field of a segment and the companion. -/
def MemWord.dataRegs (m : MemWord) (t : VType) : List Nat :=
  match m.mode with
  | .segment n => if t.isBlock then groupAll m.d t else groupRegs m.d (n * t.gf)
  | .unit | .strided _ | .indexed _ => groupAll m.d t

/-- The homes of an item whose checks have passed, for an access that is performed later; none for one that is checked
when it is performed. -/
def recorded (x : VItem × List Landing) : VItem × Option (List (List Nat)) :=
  (x.1, if x.2.isEmpty || x.2.any Option.isNone then none else some (x.2.map (·.getD [])))

/-- The access that the word leaves outstanding, for some of its items. -/
def MemWord.access (m : MemWord) (s : State) (items : List (VItem × Option (List (List Nat)))) : NbAccess :=
  let t := s.vtype
  let regs := m.dataRegs t
  { kind := m.kind, sem := m.p.setWidth 6, bytes := nbBytes t s.hart.vl.toNat, d := m.d
    ew := t.ew, fmt := t.fmt, gf := t.gf, rm := s.vectorRmCode, items := items
    mask := maskOf ((List.range s.hart.vl.toNat).filter (m.on s))
    data := match m.kind with
      | .store => regs.map fun r => (r, s.getV (BitVec.ofNat 5 r))
      | .load | .amo _ => []
    caught := s.hart.front.caught
    noTouch := match m.kind with
      | .load | .amo _ => regs
      | .store => []
    noWrite := match m.kind with
      | .store => regs
      | .load | .amo _ => [] }

/-- The type that an outstanding access was issued with. -/
def NbAccess.vtype (x : NbAccess) : VType := ⟨x.ew, x.fmt, x.gf⟩

/-- Where an item of an outstanding access lands, field by field; nowhere for one that fails. A local item lands where the
word's checks found it; only a remote fault or a lost target fails, and then every field of the position does: R165 does not
say what becomes of a segment of which one field fails, and this is the model's choice (log entry 39). -/
def State.nbLands (x : NbAccess) (s : State) (i : VItem × Option (List (List Nat))) : List Landing × State :=
  let lost : List Landing := i.1.addrs.map fun _ => none
  match i.2 with
  | some ks => (ks.map some, s)
  | none => match s.checkFields (s.vectorHow x.kind.acc i.1.pos) x.vtype.isBlock x.vtype.fieldBytes i.1.addrs with
    | .ok (ls, s) => (if ls.any Option.isNone then lost else ls, s)
    | .error _ => (lost, s)

/-- One item of an outstanding access: performed, or failed with all ones in place of data; and where it landed. -/
def State.nbItem (x : NbAccess) (s : State) (i : VItem × Option (List (List Nat))) : State × List Landing :=
  let (ls, s) := s.nbLands x i
  (s.performItem x.kind x.vtype (Rounding.ofBits x.rm) x.d (x.mask.getLsbD ·) false (i.1, ls), ls)

/-- The packages found lost while the hart's access was under way. -/
def State.withCaught (s : State) (ps : List PkgId) : State :=
  { s with hart := { s.hart with front := { s.hart.front with caught := ps } } }

/-- Items of an outstanding access performed, with the data registers as the word read them, and whether one failed. -/
def State.nbItems (x : NbAccess) (xs : List (VItem × Option (List (List Nat)))) (s : State) : State × Bool :=
  let before := s
  let put := fun (s : State) (r : Nat × VecReg) => s.setV (BitVec.ofNat 5 r.1) r.2
  let xs := match x.kind with
    | .amo _ => sortItems xs
    | .load | .store => xs
  let (s, done) := xs.foldl (fun (s, done) i => let (s, ls) := s.nbItem x i; (s, done ++ [(i.1, ls)]))
    ((x.data.foldl put s).withCaught x.caught, ([] : List (VItem × List Landing)))
  (((s.performed x.kind x.vtype done).restoreRegs before (x.data.map Prod.fst)).withCaught before.hart.front.caught,
    done.any fun y => y.2.any Option.isNone)

/-- A non-blocking word: the checks of its local elements, then retirement with the access outstanding. A local fault
takes the regime of R158, where a word with remote elements counts as remote; an execution that traps posts nothing, and
records in the semaphore's status a remote element that failed below the fault (rule 4 of R165). Of the `fm` class a remote
element that would fail stays to be performed (log entry 39). -/
def MemWord.nbBody (m : MemWord) (s : State) : Ended :=
  let t := s.vtype
  let items := s.items t m.mode (s.getS m.a) (m.on s)
  let (near, far) := (items.filter (fun x => !s.remote x), items.filter s.remote)
  let before := s
  let (outs, s) := s.probe m.kind.acc t m.mode.pagewise [] near
  match failing outs with
  | [] =>
    let acc := m.access s ((passed outs).map recorded ++ far.map fun i => (i, none))
    let s := if s.hart.vl == 0 then s else { s with hart := { s.hart with nb := s.hart.nb ++ [acc] } }
    s.memDone
  | (x, f) :: _ =>
    let acc := m.access s []
    let run := fun (xs : List (VItem × List Landing)) (s : State) =>
      let (s, bad) := s.nbItems acc (xs.map recorded)
      if bad then s.post (coreOf s.hart.pos) acc.sem 0 true false else s
    let later := match m.resume with
      | .vix => far.map fun i => (i, if i.pos < x.pos then Except.ok [] else .error f)
      | .fm => (s.probe m.kind.acc t m.mode.pagewise [] far).1.map fun (i, r) => (i, match r with
        | .ok ls => if ls.any Option.isNone then .error f else .ok ls
        | .error f => .error f)
    if items.any fun i => s.afterNb s.hart.nb m.kind.acc (s.nbHomes acc (i, none)) then .stop (before.wait .interlock)
    else .stop (m.faulted (!far.isEmpty) (outs ++ later) run x f s)

/-- The outstanding accesses of freed contexts at a position, with the hart of each as it stood (R194, R366). -/
def State.orphansAt (s : State) (h : HartId) : List Hart := (s.core (coreOf h)).orphans.filter fun x => x.pos == h

/-- An outstanding access comes after one of the earlier accesses of its hart at a byte (R251). -/
def State.nbBehind (s : State) (earlier : List NbAccess) (x : NbAccess) : Bool :=
  x.items.any fun i => s.afterNb earlier x.kind.acc (s.nbHomes x i)

/-- An access of the hart performed and posted (R165, R216): its elements, then its bytes, with RERR if one failed. It is not
yet performed while it comes after an earlier access of the hart at a byte (R251). -/
def State.postAccess (k : Nat) (s : State) : State :=
  match s.hart.nb[k]? with
  | none => s
  | some x =>
    if s.nbBehind (s.hart.nb.take k) x then s
    else
      let (s, bad) := s.nbItems x x.items
      { s with hart := { s.hart with nb := s.hart.nb.eraseIdx k } }.post (coreOf s.hart.pos) x.sem x.bytes bad false

/-- NB_ACCESS_POST: the `k`-th outstanding access of a hart, or else one left by a context freed at its place, performs
what remains of it and posts its bytes (R165, R216, R366). -/
def execNbAccessPost (h : HartId) (k : Nat) (s : State) : Res :=
  let n := (s.hartAt h).nb.length
  if k < n then .next (s.onHart h (State.postAccess k))
  else
    match (s.orphansAt h)[k - n]? with
    | none => .next s
    | some x =>
      let c := coreOf h
      let mine := s.hart
      let y := s.core c
      let earlier := ((s.orphansAt h).take (k - n)).flatMap fun z => z.nb
      if x.nb.any ({ s with hart := x }.nbBehind earlier) then .next s
      else
        let t := ({ s with hart := x }.setCore c { y with orphans := y.orphans.erase x }).postAccess 0
        .next { t with hart := mine }

/-! ### The word -/

/-- A vector memory word runs: the tests of R52, the length check, the overlap of R152, the semaphore of a non-blocking
form, and the element loop. At a `vl` of 0 the overlap (0x04A) and the semaphore (0x204) are still checked, although rule 7 of
R152 says that the word raises nothing: the model's choice (log entry 39). -/
def MemWord.exec (m : MemWord) (s : State) : Res :=
  let t := s.vtype
  let index := match m.mode with
    | .indexed b => [b]
    | .unit | .strided _ | .segment _ => []
  let last := match m.mode with
    | .segment n => if t.isBlock then [] else [m.d.toNat + n * t.gf]
    | .unit | .strided _ | .indexed _ => []
  let data := m.dataRegs t
  let idx := index.flatMap fun b => groupRegs b t.gf
  let reads := match m.kind with
    | .load => idx
    | .store | .amo _ => data ++ idx
  let writes := match m.kind with
    | .load | .amo _ => data
    | .store => []
  let v : VWord :=
    { word := m.word, groups := (m.d, t.gf) :: index.map fun b => (b, t.gf), ends := last
      companions := if t.isBlock && index.isEmpty then [m.d.toNat + t.gf] else [], admits := m.admits, rounds := m.rounds }
  lateTests v s <| lengthTest s <| trapIf (m.kind != .store && overlaps data idx) 0x04A (wordVal m.word) s <|
    let sem : BitVec 6 := m.p.setWidth 6
    let claim := fun (s : State) => s.claimSema (coreOf s.hart.pos) sem s.hart.team
    if m.nb then
      trapIf (claim s).isNone 0x204 (sem.setWidth 64) s <|
        runWord m.word false reads writes s fun s => m.nbBody ((claim s).getD s)
    else runWord m.word true reads writes s m.body

/-- NB, OP and PATH of F6 (R68). -/
def memF (nb : Bool) (op : BitVec 3) (x : Path) : BitVec 6 := BitVec.ofBool nb ++ op ++ x.toBits

/-- The unit forms admit every format and width (R151). -/
def VType.unitForm (_ : VType) : Bool := true
/-- The strided forms admit EW 8 to 64, and the block formats (R151). -/
def VType.stridedForm (t : VType) : Bool := t.isBlock || t.ew != 4
/-- The indexed forms admit FMT 0 to 7 at EW 8 to 64 (R151). -/
def VType.indexedForm (t : VType) : Bool := !t.isBlock && t.ew != 4
/-- The segment forms admit FMT 0 to 7 at EW 8 to 64, and the block formats with n = 2 (R151, R154). -/
def VType.segmentForm (t : VType) (n : Nat) : Bool := if t.isBlock then n == 2 else t.ew != 4

/-- `vld` (R151, R155). -/
def execVld (d : VReg) (a : SReg) (p : PSel) (nb : Bool) (x : Path) (s : State) : Res :=
  MemWord.exec { word := encVec 0x1B d a 0 p (memF nb 0 x), kind := .load, mode := .unit, resume := .vix
                 d := d, a := a, p := p, nb := nb, admits := s.vtype.unitForm } s

/-- `vlds` (R151, R153). -/
def execVlds (d : VReg) (a b : SReg) (p : PSel) (nb : Bool) (x : Path) (s : State) : Res :=
  MemWord.exec { word := encVec 0x1B d a b p (memF nb 1 x), kind := .load, mode := .strided (s.getS b), resume := .vix
                 d := d, a := a, p := p, nb := nb, admits := s.vtype.stridedForm } s

/-- `vldx` (R151, R153). -/
def execVldx (d : VReg) (a : SReg) (b : VReg) (p : PSel) (nb : Bool) (x : Path) (s : State) : Res :=
  MemWord.exec { word := encVec 0x1B d a b p (memF nb 2 x), kind := .load, mode := .indexed b, resume := .fm
                 d := d, a := a, p := p, nb := nb, admits := s.vtype.indexedForm } s

/-- `vldsg` (R151, R153, R154). -/
def execVldsg (d : VReg) (a : SReg) (n : BitVec 5) (p : PSel) (nb : Bool) (x : Path) (s : State) : Res :=
  MemWord.exec { word := encVec 0x1B d a n p (memF nb 3 x), kind := .load, mode := .segment (n.toNat + 1)
                 resume := .vix, d := d, a := a, p := p, nb := nb, admits := s.vtype.segmentForm (n.toNat + 1) } s

/-- `vldff` (R163). -/
def execVldff (d : VReg) (a : SReg) (p : PSel) (x : Path) (s : State) : Res :=
  MemWord.exec { word := encVec 0x1B d a 0 p (memF false 4 x), kind := .load, mode := .unit, resume := .vix
                 first := true, d := d, a := a, p := p, nb := false, admits := s.vtype.unitForm } s

/-- The probe of one element (R164): checks 1 to 6 of R156, or 1 to 3 for a remote element. -/
def State.probeBit (s : State) (t : VType) (x : VItem) : Bool × State :=
  let a := x.addrs.headD 0
  let how := s.vectorHow .load x.pos
  if a.toNat % t.es != 0 then (false, s)
  else if s.remote x then
    (decide ((aPkg a).toNat < s.podSize (pkgOf s.hart.pos)) &&
      match s.namesSpace how.master true a t.es with
      | none => false
      | some sp => sp != .regs, s)
  else match s.check how a t.es with
    | .ok (_, s) => (true, s)
    | .error _ => (false, s)

/-- `vprobe` (R164). -/
def execVprobe (d : PReg) (a : SReg) (b : VReg) (p : PSel) (s : State) : Res :=
  let t := s.vtype
  let word := encVec 0x1B d a b p (memF false 5 .thr)
  lateTests { word := word, groups := [(b, t.gf)], admits := t.indexedForm } s <| lengthTest s <|
    runWord word false (groupRegs b t.gf) [] s fun s =>
      let items := s.items t (.indexed b) (s.getS a) fun i => s.hart.active p i && decide (s.hart.vix.toNat ≤ i)
      .retire (items.foldl (fun s x => let (ok, s) := s.probeBit t x; s.setPbit d x.pos ok) s)

/-- `vst` (R151, R160). -/
def execVst (d : VReg) (a : SReg) (p : PSel) (nb : Bool) (x : Path) (s : State) : Res :=
  MemWord.exec { word := encVec 0x1C d a 0 p (memF nb 0 x), kind := .store, mode := .unit, resume := .vix
                 d := d, a := a, p := p, nb := nb, admits := s.vtype.unitForm } s

/-- `vsts` (R151, R160). -/
def execVsts (d : VReg) (a b : SReg) (p : PSel) (nb : Bool) (x : Path) (s : State) : Res :=
  MemWord.exec { word := encVec 0x1C d a b p (memF nb 1 x), kind := .store, mode := .strided (s.getS b)
                 resume := .vix, d := d, a := a, p := p, nb := nb, admits := s.vtype.stridedForm } s

/-- `vstx` (R151, R158, R160). -/
def execVstx (d : VReg) (a : SReg) (b : VReg) (p : PSel) (nb : Bool) (x : Path) (s : State) : Res :=
  MemWord.exec { word := encVec 0x1C d a b p (memF nb 2 x), kind := .store, mode := .indexed b, resume := .vix
                 listed := true, d := d, a := a, p := p, nb := nb, admits := s.vtype.indexedForm } s

/-- `vstsg` (R151, R154, R160). -/
def execVstsg (d : VReg) (a : SReg) (n : BitVec 5) (p : PSel) (nb : Bool) (x : Path) (s : State) : Res :=
  MemWord.exec { word := encVec 0x1C d a n p (memF nb 3 x), kind := .store, mode := .segment (n.toNat + 1)
                 resume := .fm, d := d, a := a, p := p, nb := nb, admits := s.vtype.segmentForm (n.toNat + 1) } s

/-- `vstu` (R151, R160). -/
def execVstu (d : VReg) (a : SReg) (p : PSel) (nb : Bool) (x : Path) (s : State) : Res :=
  MemWord.exec { word := encVec 0x1C d a 0 p (memF nb 4 x), kind := .store, mode := .unit, resume := .fm
                 d := d, a := a, p := p, nb := nb, admits := s.vtype.unitForm } s

/-- `vstxu` (R151, R158, R160). -/
def execVstxu (d : VReg) (a : SReg) (b : VReg) (p : PSel) (nb : Bool) (x : Path) (s : State) : Res :=
  MemWord.exec { word := encVec 0x1C d a b p (memF nb 5 x), kind := .store, mode := .indexed b, resume := .fm
                 d := d, a := a, p := p, nb := nb, admits := s.vtype.indexedForm } s

/-- The formats and widths of `vamo` (R151, R166). -/
def VType.amoForm (t : VType) (op : VamoOp) : Bool :=
  (t.ew == 32 || t.ew == 64) &&
  match op with
  | .add | .min | .max | .and | .or | .xor => decide (t.fmt ≤ 1)
  | .swap => decide (t.fmt ≤ 3)
  | .fadd => t.fmt == 2 || t.fmt == 3

/-- `vamo` (R166, R167). -/
def execVamo (d : VReg) (a : SReg) (b : VReg) (p : PSel) (nb : Bool) (op : VamoOp) (x : Path) (s : State) : Res :=
  MemWord.exec { word := encVec 0x1D d a b p (memF nb op.toBits x), kind := .amo op, mode := .indexed b, resume := .fm
                 d := d, a := a, p := p, nb := nb, admits := s.vtype.amoForm op, rounds := op == .fadd } s

end Sys2Proof.Machine
end

