-- ==== Sys2Proof/Machine/Fife.lean ====
section
/-! DEFINITION. The Fife: its words, faults and end (R271 to R278). -/

namespace Sys2Proof.Machine

/-- `setvl` in the Fife (R273): the grant is min(n, VLMAX), and it is no grant point. -/
def fifeSetvl (d a : SReg) (s : State) : Res :=
  let n := if bit s.hart.vty 63 then 0 else min (s.getS a).toNat s.vtype.vlmax
  .next ({ s with hart := { s.hart with vl := BitVec.ofNat 12 n } }.setS d (BitVec.ofNat 64 n)).advance

/-- `smine` in the Fife (R89, R273). -/
def fifeSmine (d a : SReg) (n : BitVec 3) (o : BitVec 13) (s : State) : Res :=
  let word := encMem 0x0F d a n o
  trapIf (bit s.hart.vty 63) 0x040 (wordVal word) s <|
  transfer word s <|
    let c := s.getS d
    let vl : Word := s.hart.vl.setWidth 64
    let bytes := s.stripBytesOf
    let s := forUpTo n.toNat (fun j s => let r := a + BitVec.ofNat 5 j; s.setS r (s.getS r + bytes)) s
    let s := s.setS d (if vl.ule c then c - vl else 0)
    let left := (s.getS d).toNat
    let s := { s with hart := { s.hart with vl := BitVec.ofNat 12 (min left s.vtype.vlmax) } }
    if left != 0 then .next (s.jump (s.hart.pc + o.signExtend 64 * 4)) else .next s.advance

/-- `vld` and `vlds` in the Fife (R274): one entry, the register image of the load, into a vector queue of the owner.
Lost elements show in `rerr`, which the Fife takes as its own RERR. -/
def fifeLoad (word : BitVec 32) (d : VReg) (a : SReg) (mode : VMode) (form : Bool) (s : State) : Res :=
  let t := s.vtype
  let q := d.toNat
  lateTests { word := word, admits := form && t.gf == 1 && !t.isBlock } s <| lengthTest s <|
    let n := s.hart.vl.toNat
    let s0 := { s with hart := { s.hart with rerr := 0 } }.setV d 0
    let (outs, s1) := s0.probe .load t mode.pagewise [] (s0.items t mode (s.getS a) fun i => decide (i < n))
    match failing outs with
    | (_, f) :: _ => .next (s.trap f.cause f.addr)
    | [] =>
      let s2 := (passed outs).foldl (fun s x => s.loadItem t d (fun i => decide (i < n)) true x.1 x.2) s1
      if 4 ≤ (s2.hart.vqueue q).length then .next (s.wait (.queuePush (BitVec.ofNat 3 q)))
      else .next { s2 with hart := s2.hart.setVqueue q (s2.hart.vqueue q ++ [s2.getV d]) }.advance

/-- A word of the Fife's subset, run on the registers of `hart`; none for a word outside it (R273). -/
def runFifeWord (i : Instr) (s : State) : Option Res :=
  match i with
  | .ld d a t o => some (execLd d a t o s)
  | .st d a w o => some (execSt d a w o s)
  | .zol a l => some (execZol a l s)
  | .fence k sc => some (execFence k sc s)
  | .setvt d a => some (execSetvt d a s)
  | .cpy d a b => some (execCpy d a b s)
  | .enq a b => some (execEnq a b s)
  | .deq d a => some (execDeq d a s)
  | .dgo a => some (execDgo a s)
  | .smine d a n o => some (fifeSmine d a n o s)
  | .setvl d a => some (fifeSetvl d a s)
  | .vld d a p nb x =>
    if d.toNat < 4 && p == 31 && !nb then
      some (fifeLoad (encVec 0x1B d a 0 p (memF nb 0 x)) d a .unit s.vtype.unitForm s)
    else none
  | .vlds d a b p nb x =>
    if d.toNat < 4 && p == 31 && !nb then
      some (fifeLoad (encVec 0x1B d a b p (memF nb 1 x)) d a (.strided (s.getS b)) s.vtype.stridedForm s)
    else none
  | _ => runPlainWord i s

/-- The owner of a core's Fife. -/
def fifeOwner (c : CoreId) (f : Fife) : HartId := c ++ f.owner

/-- The owner's context with the Fife's registers in place of its own, in program state, with nothing bound, mapped or
outstanding. -/
def Fife.asHart (f : Fife) (h : Hart) : Hart :=
  { h with
    run := .running, s := f.s, pc := f.fpc, vl := f.vl, vty := f.vty, vix := 0, rerr := 0, zol := f.zol
    dl := Vector.replicate 8 none, b := Vector.replicate 8 none, qmap := 0, nb := [], ibuf := []
    hs := false, phs := false, nest := false, prq := false, xlm := 0, fm := 0 }

/-- A Fife word that would trap has no effect: the Fife stops at it, and the owner's asynchronous cause becomes pending
(R278). The state is that before the word, with the owner's turn. -/
def State.fifeFault (s : State) (cause : BitVec 10) (fva : Word) : State :=
  let c := s.myCore
  let f := { c.fife with st := .faulted, cause := cause, fva := fva, wait := none }
  let s := s.setMyCore { c with fife := f }
  { s with hart := s.hart.pend 0x180 f.fpc }

/-- A wait of the Fife's word on a queue counts for R220: all but those of a load or a store of a port. -/
def countsForDeadlock : Instr → Bool
  | .ld _ _ _ _ | .st _ _ _ _ => false
  | _ => true

/-- What a Fife word did, taken back into the Fife and the owner's queues and tickets. `s` is the state before it; `counts`
says that a wait of the word counts for R220. -/
def State.fifeDone (s t : State) (counts : Bool) : State :=
  let h := t.hart
  match h.run with
  | .waiting w =>
    let c := s.myCore
    s.setMyCore { c with fife := { c.fife with wait := some w, onQueue := counts } }
  | .free | .running =>
    if h.hs then s.fifeFault h.tcause h.tval
    else
      let c := t.myCore
      let f := { c.fife with
        s := h.s, vty := h.vty, vl := h.vl, zol := h.zol, fpc := h.pc, wait := none, onQueue := false
        rerr := c.fife.rerr || h.rerr != 0 }
      { (t.setMyCore { c with fife := f }) with
        hart := { s.hart with vq := h.vq, sq := h.sq, tickets := h.tickets } }

/-- The nest record of a loop that a loaded Fife stands in is read again (R94, R316). -/
def fifeRejoin (s : State) : Res := if s.hart.zol.nest.isEmpty then rejoinLoop s else .next s

/-- The next word of a running Fife, with the owner's turn. -/
def runFife (s : State) : Res :=
  let f := s.myCore.fife
  match fifeRejoin { s with hart := f.asHart s.hart } with
  | .next p =>
    if p.hart.hs then .next (s.fifeDone p false)
    else
      match p.fetchAt (p.scalarHow .fetch) f.fpc with
      | .error c => .next (s.fifeFault c f.fpc)
      | .ok (w, p) =>
        match decodeBase w with
        | some (.error r) => .next (s.fifeFault r.cause (wordVal w))
        | none => .next (s.fifeFault 0x182 f.fva)
        | some (.ok .fwait) =>
          if bit f.vty 63 then .next (s.fifeFault 0x040 (wordVal w)) else .next (s.endFife (coreOf s.hart.pos))
        | some (.ok i) =>
          match runFifeWord i p with
          | none => .next (s.fifeFault 0x182 f.fva)
          | some (.next t) => .next (s.fifeDone t (countsForDeadlock i))
          | some r => r
  | r => r

/-- FIFE_WORD (R273): the Fife of a core, while it runs, executes one word. -/
def execFifeWord (core : CoreId) (s : State) : Res :=
  let f := (s.core core).fife
  match f.st with
  | .running =>
    let back := s.hart.pos
    match runFife (s.select (fifeOwner core f)) with
    | .next t => .next (t.select back)
    | r => r
  | .idle | .paused | .faulted => .next s

end Sys2Proof.Machine
end

