-- ==== Sys2Proof/Machine/Rows.lean ====
section
/-! DEFINITION. Pinned rows: `rowpin`, `rowrel`, `rowq`, the bounce (R237 to R244). -/

namespace Sys2Proof.Machine

/-- Row buffers of a team over every die, those reserved for it under save among them (R243, R244). -/
def State.heldRows (s : State) (t : TeamId) : Nat :=
  (s.dies.map fun (_, d) => d.rows.countP fun (_, r) => r.row.isSome && r.team == t).sum

/-- The row quota of the current hart's team (R190). -/
def State.rowQuota (s : State) : Nat :=
  match s.team s.hart.team with
  | some t => t.ctl 13 10
  | none => 0

/-- A handle (R237). -/
def rowHandle (d : DieId) (gen : BitVec 24) (ch sl : Nat) : Word :=
  BitVec.ofNat 64 (homeKey d true 33 (gen.toNat * 2 ^ 19 + ch * 2 ^ 13 + sl * 2 ^ 10))

/-- The page of an address is writable. -/
def State.pageWritable (s : State) (a : Word) : Bool :=
  let how := s.scalarHow .load
  match (spaceOf a).bind fun sp => sp.index.map fun u => (sp, u) with
  | none => false
  | some (sp, u) =>
    let viaBank := if aDieId a == how.master.die then some (coreOf s.hart.pos, how.bank) else none
    match s.translate viaBank [] (aDieId a) how.master.asid u sp.capacity (aOff a) with
    | .ok (t, _) => t.w
    | .error _ => false

/-- A handle the hart holds, for its context image (R314). -/
def State.noteHandle (s : State) (x : Word) : State :=
  if s.hart.handles.contains x then s else { s with hart := { s.hart with handles := s.hart.handles ++ [x] } }

/-- `rowpin` (R239). Which of several free slots is taken is free. -/
def execRowpin (d a : SReg) (s : State) : Res :=
  let x := s.getS a
  let die := aDieId x
  trapIf (bits x 0 10 != 0) 0x085 x s <|
  trapIf (aPkg x != pkgOf s.hart.pos || (aSp x && aUnit x != 40)) 0x284 x s <|
  trapIf (s.die die).failed 0x140 x s <|
  match s.check (s.scalarHow .load) x 1 with
  | .error .lost => .next (s.trap 0x140 x)
  | .error (.cause c) => .next (s.trap c x)
  | .ok (p, s) =>
    let home : Word := BitVec.ofNat 64 (p.keys.headD 0)
    let ch := aUnit home
    let row := aOff home / 1024
    let rows := (s.die die).rows
    let buf := fun sl => rows.getD (8 * ch + sl) {}
    match (List.range 8).find? fun sl => (buf sl).row == some row with
    | some sl =>
      trapIf ((buf sl).team != s.hart.team) 0x285 x s <|
        .next ((s.noteHandle (rowHandle die (buf sl).gen ch sl)).setS d (rowHandle die (buf sl).gen ch sl)).retireV
    | none =>
      trapIf (decide (s.rowQuota ≤ s.heldRows s.hart.team)) 0x281 x s <|
      let free := (List.range 8).filter fun sl => (buf sl).row.isNone
      trapIf free.isEmpty 0x282 x s <|
        let sl := free.getD (Config.pick s.free % free.length) 0
        let y : RowBuf := { buf sl with row := some row, team := s.hart.team, w := s.pageWritable x, saved := false }
        let s := s.take.setDie die { s.die die with rows := rows.put (8 * ch + sl) y }
        .next ((s.noteHandle (rowHandle die y.gen ch sl)).setS d (rowHandle die y.gen ch sl)).retireV

/-- An address in the row-handle window of some die (R237). -/
def State.rowWindow (s : State) (a : Word) : Bool :=
  spaceOf a == some .rows && decide ((aDie a).toNat < s.computeDies (aPkg a)) && decide (aOff a < 2 ^ 43)

/-- An outstanding non-blocking access of the hart goes through a handle. -/
def Hart.usesHandle (h : Hart) (x : Word) : Bool :=
  h.nb.any fun y => y.items.any fun i => i.1.addrs.any fun a => a - BitVec.ofNat 64 (a.toNat % 1024) == x

/-- `rowrel` (R240): it waits until the hart's earlier accesses through the handle are performed. -/
def execRowrel (a : SReg) (s : State) : Res :=
  let x := s.getS a
  trapIf (!s.rowWindow x || bits x 0 10 != 0) 0x0C1 x s <|
  match s.check (s.scalarHow .load) x 1 with
  | .error .lost => .next (s.trap 0x140 x)
  | .error (.cause c) => .next (s.trap c x)
  | .ok (_, t) =>
    if s.hart.usesHandle x then .next (s.wait .interlock) else
    let s := t
    let die := s.die (aDieId x)
    let (_, ch, sl, _) := rowFields (aOff x)
    let r := die.rows.getD (8 * ch + sl) {}
    let s := { s with hart := { s.hart with handles := s.hart.handles.filter (· != x) } }
    .next (s.setDie (aDieId x) { die with rows := die.rows.put (8 * ch + sl) r.free }).retireV

/-- `rowq` (R244). -/
def execRowq (d a : SReg) (s : State) : Res :=
  let x := s.getS a
  let out : Word :=
    if x = 0 then place (s.heldRows s.hart.team) 16 ||| BitVec.ofNat 64 s.rowQuota
    else
      let (gen, ch, sl, byte) := rowFields (aOff x)
      let r := (s.die (aDieId x)).rows.getD (8 * ch + sl) {}
      let current := s.rowWindow x && byte == 0 && r.row.isSome && !r.saved && r.gen.toNat == gen && r.team == s.hart.team
      place (bitNat current) 63 ||| (if s.rowWindow x then place r.gen.toNat 19 else 0) ||| (x &&& 0x7FC00)
  .next (s.setS d out).retireV

/-- LEASE_BOUNCE (R242): the channel writes its pinned rows back and reopens each in its slot under its generation; no
handle, no value and no order changes. Patrol scrub may process a line of a pinned row during it (R399). -/
def execLeaseBounce (die : DieId) (ch : BitVec 6) (s : State) : Res :=
  let x := s.die die
  .next (s.setDie die { x with bounces := ch :: x.bounces.filter (· != ch) })

end Sys2Proof.Machine
end

