-- ==== Sys2Proof/Machine/VConv.lean ====
section
/-! DEFINITION. Conversions and `dlfl`: major 0x17, F6 0x38 to 0x3F (R129, R146 to R150). -/

namespace Sys2Proof.Machine

/-- Element width of a destination format; none for an integer, whose width the form gives. -/
def fmtWidth (fmt : Nat) : Nat :=
  match fmt with
  | 2 => 64 | 3 => 32 | 4 | 5 => 16 | 6 | 7 | 8 | 9 => 8 | _ => 4

/-- What a conversion form makes of a source type and a destination code: the destination width, where the pair is
admitted (R147). -/
abbrev Pairing := VType → Nat → Option Nat

/-- A width when a condition holds. -/
def widthIf (b : Bool) (w : Nat) : Option Nat := if b then some w else none

/-- `vcvt.h` (R147). -/
def pairHalf : Pairing := fun t b =>
  if t.isInt then widthIf (decide (b ≤ 1) && decide (8 ≤ t.ew)) (t.ew / 2)
  else widthIf ((t.fmt == 2 && b == 3) || (t.fmt == 3 && (b == 4 || b == 5)) ||
    ((t.fmt == 4 || t.fmt == 5) && (b == 6 || b == 7))) (fmtWidth b)

/-- `vcvt.d` (R147). -/
def pairDouble : Pairing := fun t b =>
  if t.isInt then widthIf (decide (b ≤ 1) && decide (t.ew ≤ 32)) (2 * t.ew)
  else widthIf ((t.fmt == 3 && b == 2) || ((t.fmt == 4 || t.fmt == 5) && b == 3) ||
    ((t.fmt == 6 || t.fmt == 7) && (b == 4 || b == 5))) (fmtWidth b)

/-- `vcvt.fi` (R147). -/
def pairToInt : Pairing := fun t b => widthIf (t.isFp && decide (b ≤ 1)) t.ew

/-- `vcvt.if` (R147). -/
def pairFromInt : Pairing := fun t b => widthIf (t.isInt && decide (2 ≤ b) && decide (b ≤ 7) && fmtWidth b == t.ew) t.ew

/-- `vcvt.q` (R147). -/
def pairQuant : Pairing := fun t b => widthIf (t.fmt == 3 && (b == 10 || b == 11 || b == 12)) 4

/-- `vcvt.mx` (R147). -/
def pairMx : Pairing := fun t b => widthIf ((t.fmt == 4 || t.fmt == 5) && (b == 8 || b == 9)) 8

/-- `vdeq` (R147). -/
def pairDeq : Pairing := fun t b =>
  widthIf (((t.fmt == 8 || t.fmt == 9) && (b == 4 || b == 5)) || ((t.fmt == 10 || t.fmt == 11) && (b == 6 || b == 7)))
    (fmtWidth b)

/-- Destination registers (R146): at least one. -/
def destRegs (t : VType) (w : Nat) : Nat := max 1 (t.gf * w / t.ew)

/-- A conversion: the checks of R146 in their order, then the run. -/
def convert (f6 : BitVec 6) (pair : Pairing) (rounds : VType → Bool) (d a : VReg) (b : CvtTo) (s : State)
    (body : VType → Nat → State → Ended) : Res :=
  let t := s.vtype
  let c := b.fmt.toBits.toNat
  let w := (pair t c).getD 0
  let word := encVec 0x17 d a b.fmt.toBits b.p f6
  let n := destRegs t w
  let big := decide (8 * t.ew < t.gf * w)
  let blockD := decide (8 ≤ c) && decide (c ≤ 11)
  let dst := groupRegs d n ++ if blockD then [d.toNat + n] else []
  let src := groupAll a t
  let tv := wordVal word
  lateTests { word := word, groups := [(a, t.gf)], companions := if t.isBlock then [a.toNat + t.gf] else []
              admits := (pair t c).isSome, rounds := rounds t } s <|
  lengthTest s <|
  trapIf big 0x044 tv s <|
  trapIf (d.toNat % n != 0) 0x041 tv s <|
  trapIf (decide (32 < d.toNat + n)) 0x042 tv s <|
  trapIf (blockD && decide (31 < d.toNat + n)) 0x043 tv s <|
  trapIf (overlaps dst src) 0x04A tv s <|
    runWord word true src dst s (body t w)

/-- An element-wise conversion with its function on one element (R147). -/
def convLoop (d : VReg) (p : PSel) (f : VType → Rounding → State → Nat → Nat × Flags) (t : VType) (w : Nat) (s : State) : Ended :=
  let n := s.upto
  let rm := s.vectorRm
  (forFrom s.hart.vix.toNat n (fun i s =>
    if s.hart.active p i then
      let r := f t rm s i
      (s.raise r.2).setElem d w i r.1
    else s) s).endAt n

/-- An integer clamped to a range of R27, as `w` bits. -/
def clampTo (fmt w : Nat) (i : Int) : Nat :=
  let lo : Int := if fmt == 0 then -2 ^ (w - 1) else 0
  let hi : Int := if fmt == 0 then 2 ^ (w - 1) - 1 else 2 ^ w - 1
  (BitVec.ofInt w (if i < lo then lo else if hi < i then hi else i)).toNat

/-- An element as an integer, signed under `i`. -/
def intOf (t : VType) (x : Nat) : Int := if t.fmt == 0 then (BitVec.ofNat t.ew x).toInt else x

/-- A conversion of one element between two non-block formats (R147). -/
def convElem (a : VReg) (b w : Nat) (t : VType) (rm : Rounding) (s : State) (i : Nat) : Nat × Flags :=
  let x := s.elem a t.ew i
  if t.isInt then
    if b ≤ 1 then (clampTo b w (intOf t x), {}) else (fpOf b).round rm (exactInt (intOf t x))
  else
    let v := (fpOf t.fmt).decode x
    if b ≤ 1 then
      let lo : Int := if b == 0 then -2 ^ (w - 1) else 0
      let hi : Int := if b == 0 then 2 ^ (w - 1) - 1 else 2 ^ w - 1
      let r := v.toInt rm lo hi
      ((BitVec.ofInt w r.1).toNat, r.2)
    else if b == 12 then
      match v with
      | .nan _ => (0, invalidFlag)
      | .inf neg => ((if neg then 0xF else 7), invalidFlag)
      | .fin _ _ _ => e2m1.round rm { num := v }
    else (fpOf b).round rm { num := v }

/-- A block-writing conversion (R148 to R150): blocks with an active position from `vix`, written whole. Where software has
set `vix` inside a block, the scale, the extension and the flags still come from every active position of the block, and
codes are written from `vix` on: R150 does not say, and this is the model's choice (log entry 39). -/
def blockLoop (d a : VReg) (b : Nat) (p : PSel) (t : VType) (w : Nat) (s : State) : Ended :=
  let n := s.uptoBlock
  let rm := s.vectorRm
  let lo := s.hart.vix.toNat
  let dt : VType := ⟨w, b, destRegs t w⟩
  (forFrom (lo / 32) (ceilDiv (min n s.hart.vl.toNat) 32) (fun j s =>
    let on := fun k => s.hart.active p (32 * j + k)
    let xs := (List.range 32).map fun k =>
      if on k then some ((fpOf t.fmt).decode (s.elem a t.ew (32 * j + k))) else none
    if (List.range 32).any fun k => on k && decide (lo ≤ 32 * j + k) then
      let e := if b == 11 then encodeOx rm xs else encodeMx b rm xs
      let s := s.raise e.flags
      let s := forUpTo 32 (fun k s =>
        if lo ≤ 32 * j + k then s.setElem d w (32 * j + k) (e.codes.getD k 0) else s) s
      { s with hart := s.hart.setScale dt d j [BitVec.ofNat 8 e.scale, BitVec.ofNat 8 e.ext] }
    else s) s).endAt (max lo n)

/-- `vcvt.h` (R147). -/
def execVcvtH (d a : VReg) (b : CvtTo) (s : State) : Res :=
  convert 0x38 pairHalf VType.isFp d a b s fun t w => convLoop d b.p (convElem a b.fmt.toBits.toNat w) t w

/-- `vcvt.d` (R147). -/
def execVcvtD (d a : VReg) (b : CvtTo) (s : State) : Res :=
  convert 0x39 pairDouble (fun _ => false) d a b s fun t w => convLoop d b.p (convElem a b.fmt.toBits.toNat w) t w

/-- `vcvt.fi` (R147). -/
def execVcvtFi (d a : VReg) (b : CvtTo) (s : State) : Res :=
  convert 0x3A pairToInt (fun _ => true) d a b s fun t w => convLoop d b.p (convElem a b.fmt.toBits.toNat w) t w

/-- `vcvt.if` (R147). -/
def execVcvtIf (d a : VReg) (b : CvtTo) (s : State) : Res :=
  convert 0x3B pairFromInt (fun _ => true) d a b s fun t w => convLoop d b.p (convElem a b.fmt.toBits.toNat w) t w

/-- `vcvt.q` (R147 to R150): blocks of MXFP4 or OX4, or plain E2M1 elements. -/
def execVcvtQ (d a : VReg) (b : CvtTo) (s : State) : Res :=
  convert 0x3C pairQuant (fun _ => true) d a b s fun t w =>
    if b.fmt == .e2m1 then convLoop d b.p (convElem a 12 w) t w else blockLoop d a b.fmt.toBits.toNat b.p t w

/-- `vcvt.mx` (R147, R148, R150). -/
def execVcvtMx (d a : VReg) (b : CvtTo) (s : State) : Res :=
  convert 0x3D pairMx (fun _ => true) d a b s fun t w => blockLoop d a b.fmt.toBits.toNat b.p t w

/-- `vdeq` (R147): the exact decoded value, rounded. -/
def execVdeq (d a : VReg) (b : CvtTo) (s : State) : Res :=
  convert 0x3E pairDeq (fun _ => true) d a b s fun t w =>
    convLoop d b.p (fun t rm s i =>
      (fpOf b.fmt.toBits.toNat).round rm { num := (s.hart.blockNums t a (i / 32)).getD (i % 32) (.nan false) }) t w

/-- `dlfl` (R128, R129): the link is emptied, whatever `vl` and `xlm` hold. -/
def execDlfl (d : BitVec 3) (s : State) : Res :=
  lateTests { word := encVec 0x17 (d.setWidth 5) 0 0 31 0x3F } s <|
    .next { s with hart := s.hart.flushLink d }.retireV

end Sys2Proof.Machine
end

