-- ==== Sys2Proof/Machine/Sequencer.lean ====
section
/-! DEFINITION. The sequencer of a core (R181, R182, R185, R186): which words of the chaining windows issue element groups
in a cycle; and the deadlock of a hart (R220). -/

namespace Sys2Proof.Machine

/-- A word that issues element groups on lane groups: majors 0x14 to 0x1D (R181, R182). -/
def laneMajor (w : BitVec 32) : Bool := let m := (majorOf w).toNat; decide (0x14 ≤ m) && decide (m ≤ 0x1D)

/-- Elements of an element group under a type (R182). -/
def groupSize (vty : Word) : Nat := 1024 / (4 * 2 ^ bits vty 3 3)

/-! ### The chaining window (R181) -/

/-- Digits that a word reads or writes: `bits` of them for a position, from the start of register `first` on, and `regs`
registers in all. Vector registers are numbered from 0, digit links from 32, predicates from 40. With `bits` 0 the span is
one value, which no position has a part of. -/
structure Span where
  first : Nat
  regs  : Nat
  bits  : Nat
  deriving DecidableEq, Repr

/-- What a word reads, and the element of it that a position takes. -/
abbrev Reading := Span × (Nat → Option Nat)

/-- The element that a position takes when words combine element with element. -/
def samePlace : Nat → Option Nat := some

/-- A digit link (R123). -/
def linkSpan (k : Nat) : Span := ⟨32 + k, 1, 1⟩

/-- A predicate. -/
def predSpan (r : BitVec 5) : Span := ⟨40 + r.toNat, 1, 1⟩

/-- A span as one value. -/
def Span.whole (x : Span) : Span := { x with bits := 0 }

/-- A group of elements of `ew` bits in `regs` registers, with its companion under a block format (R11, R38). -/
def groupSpan (r : BitVec 5) (regs ew : Nat) (block : Bool) : List Span :=
  ⟨r.toNat, regs, ew⟩ :: if block then [⟨r.toNat + regs, 1, 0⟩] else []

/-- A register group of a queued word. -/
def Queued.group (q : Queued) (r : BitVec 5) : List Span :=
  let t := vtypeOf q.vty
  groupSpan r t.gf t.ew t.isBlock

/-- The groups of the fields of a segment (R151); under a block format the codes and the companion (R154). -/
def Queued.fields (q : Queued) (r : BitVec 5) (n : BitVec 5) : List Span :=
  let t := vtypeOf q.vty
  if t.isBlock then q.group r else (List.range (n.toNat + 1)).map fun f => ⟨r.toNat + f * t.gf, t.gf, t.ew⟩

/-- A register that a link form names: 24 to 31 are digit links (R123). -/
def Queued.linked (q : Queued) (r : BitVec 5) : List Span := if r.toNat < 24 then q.group r else [linkSpan (r.toNat - 24)]

/-- The destination of a conversion: of its own width, and of its own format (R146, R147). -/
def Queued.converted (q : Queued) (pair : Pairing) (d : VReg) (b : CvtTo) : List Span :=
  let t := vtypeOf q.vty
  let w := (pair t b.fmt.toBits.toNat).getD t.ew
  groupSpan d (destRegs t w) w (decide (8 ≤ b.fmt.toBits.toNat ∧ b.fmt.toBits.toNat ≤ 11))

/-- Words that `xlm` governs (R136). -/
def governed (w : BitVec 32) : Bool :=
  match (majorOf w).toNat with
  | 0x14 | 0x15 => true
  | 0x16 | 0x17 => decide ((fieldF6 w).toNat < 0x38)
  | _ => false

/-- Spans read element by element. -/
def evenly (xs : List Span) : List Reading := xs.map fun x => (x, samePlace)

/-- What operand A or B of a word reads, through `xlm` where it is selected (R136). -/
def operandReads (w : BitVec 32) (xlm : Word) (sel : Nat) (xs : List Span) : List Reading :=
  xs.map fun x => (x, if governed w && bit xlm sel then xlmMap xlm else samePlace)

/-- What a link form writes, and what it reads, its mask apart (R63 to R65, R123). -/
def Queued.linkNames (q : Queued) (xlm : Word) : List Span × List Reading :=
  let (d, a, b) := (fieldD q.word, fieldA q.word, fieldB q.word)
  let f := fieldF6 q.word
  let int := (majorOf q.word).toNat == 0x15
  let ra := operandReads q.word xlm 18 (q.linked a)
  let rb := operandReads q.word xlm 19 (q.linked b)
  let accumulates := if int then f.toNat == 0x05 else decide (3 ≤ f.toNat ∧ f.toNat ≤ 5)
  match if int then linkClassInt f else linkClassFp f with
  | none => ([], [])
  | some .compare | some .compareK => ([predSpan d], ra ++ rb)
  | some .online1 | some .plain1 => (q.linked d, ra)
  | some .online2 | some .plain2 | some .select | some .lesserK =>
    (q.linked d, ra ++ rb ++ if accumulates then evenly (q.linked d) else [])

/-- What a queued word writes, and what it reads, its mask apart. -/
def Queued.names (q : Queued) (xlm : Word) : List Span × List Reading :=
  let (d, a, b) := (fieldD q.word, fieldA q.word, fieldB q.word)
  let ra := operandReads q.word xlm 18 (q.group a)
  let rb := operandReads q.word xlm 19 (q.group b)
  match decodeBase q.word with
  | none => q.linkNames xlm
  | some (.error _) => ([], [])
  | some (.ok i) =>
    match i with
    | .setvl _ _ | .setvt _ _ | .settl _ _ => ([], [])
    | .vcmpEq _ _ _ _ | .vcmpNe _ _ _ _ | .vcmpLt _ _ _ _ | .vcmpGe _ _ _ _ | .vcmpLtn _ _ _ _ | .vcmpGen _ _ _ _
    | .vfcmpEq _ _ _ _ | .vfcmpLt _ _ _ _ | .vfcmpLe _ _ _ _ | .vfcmpUn _ _ _ _ => ([predSpan d], ra ++ rb)
    | .vcvtH _ _ c => (q.converted pairHalf d c, ra)
    | .vcvtD _ _ c => (q.converted pairDouble d c, ra)
    | .vcvtFi _ _ c => (q.converted pairToInt d c, ra)
    | .vcvtIf _ _ c => (q.converted pairFromInt d c, ra)
    | .vcvtQ _ _ c => (q.converted pairQuant d c, ra)
    | .vcvtMx _ _ c => (q.converted pairMx d c, ra)
    | .vdeq _ _ c => (q.converted pairDeq d c, ra)
    | .vld _ _ _ _ _ | .vlds _ _ _ _ _ _ | .vldff _ _ _ _ | .vbc _ _ _ | .vid _ _ | .vmsv _ _ _ | .accx _ _ _ _ =>
      (q.group d, [])
    | .vldsg _ _ n _ _ _ => (q.fields d n, [])
    | .vldx _ _ _ _ _ _ => (q.group d, evenly (q.group b))
    | .vamo _ _ _ _ _ _ _ => (q.group d, evenly (q.group d ++ q.group b))
    | .vprobe _ _ _ _ => ([predSpan d], evenly (q.group b))
    | .vst _ _ _ _ _ | .vsts _ _ _ _ _ _ | .vstu _ _ _ _ _ | .gsp _ _ _ _ => ([], evenly (q.group d))
    | .vstsg _ _ n _ _ _ => ([], evenly (q.fields d n))
    | .vstx _ _ _ _ _ _ | .vstxu _ _ _ _ _ _ => ([], evenly (q.group d ++ q.group b))
    | .vadd _ _ _ _ | .vsub _ _ _ _ | .vmul _ _ _ _ | .vmulh _ _ _ _ | .vmulhn _ _ _ _ | .vdiv _ _ _ _
    | .vdivn _ _ _ _ | .vrem _ _ _ _ | .vremn _ _ _ _ | .vmin _ _ _ _ | .vminn _ _ _ _ | .vmax _ _ _ _ | .vmaxn _ _ _ _
    | .vand _ _ _ _ | .vor _ _ _ _ | .vxor _ _ _ _ | .vandn _ _ _ _ | .vshl _ _ _ _ | .vshr _ _ _ _ | .vsra _ _ _ _
    | .vadds _ _ _ _ | .vaddsn _ _ _ _ | .vsubs _ _ _ _ | .vsubsn _ _ _ _ | .vsel _ _ _ _ | .vfadd _ _ _ _
    | .vfsub _ _ _ _ | .vfmul _ _ _ _ | .vfdiv _ _ _ _ | .vfmin _ _ _ _ | .vfmax _ _ _ _ | .vfsgn _ _ _ _ =>
      (q.group d, ra ++ rb)
    | .vmac _ _ _ _ | .vffma _ _ _ _ | .vffms _ _ _ _ | .vfnma _ _ _ _ => (q.group d, ra ++ rb ++ evenly (q.group d))
    | .vslup _ _ _ _ =>
      (q.group d, (q.group a).map fun x => (x, fun i => if q.sb.toNat ≤ i then some (i - q.sb.toNat) else none))
    | .vsldn _ _ _ _ => (q.group d, (q.group a).map fun x => (x, fun i => some (i + q.sb.toNat)))
    | .vperm _ _ _ _ => (q.group d, evenly ((q.group a).map Span.whole ++ q.group b))
    | .vcomp _ _ _ => ((q.group d).map Span.whole, evenly (q.group a))
    | .vrsum _ _ _ | .vrmin _ _ _ | .vrmax _ _ _ | .vrand _ _ _ | .vror _ _ _ | .vrxor _ _ _ =>
      ((q.group d).map Span.whole, evenly (q.group a))
    | .vrosum _ _ _ => ((q.group d).map Span.whole, evenly ((q.group d).map Span.whole ++ q.group a))
    | .vmvs _ _ _ => ([], evenly ((q.group a).map Span.whole))
    | .pand _ _ _ | .por _ _ _ | .pxor _ _ _ | .pandn _ _ _ => ([predSpan d], evenly [predSpan a, predSpan b])
    | .pnot _ _ => ([predSpan d], evenly [predSpan a])
    | .pset _ _ => ([predSpan d], [])
    | .pffs _ _ | .pcnt _ _ => ([], evenly [predSpan a])
    | .pmvv _ _ => ([predSpan d], evenly (q.group a))
    | .bind _ _ _ => ((q.group a).map Span.whole, [])
    | .tld _ _ _ | .mma _ _ _ => ([], evenly (q.group a))
    | .accxLink k _ _ _ | .dlfl k => ([linkSpan k.toNat], [])
    | .cred _ _ _ _ _ | .call _ _ _ _ _ | .cgat _ _ _ _ | .csct _ _ _ _ | .cbc _ _ _ _ =>
      ((q.group d).map Span.whole, evenly (q.group a))
    | .unbind _ | .bndq _ _ | .rowpin _ _ | .rowrel _ | .rowq _ _ | .omcl _ | .omrl _ | .accz _ | .cpy _ _ _ | .shp _ _
    | .enq _ _ | .deq _ _ | .dnode _ _ | .dgo _ | .fgo _ | .fwait | .cgrp _ _ | .cgate _ | .rwin _ _ _ | .runmap _ =>
      ([], [])
    | _ => (q.group d, ra)

/-- The mask of a queued word that issues on lane groups. -/
def Queued.mask (q : Queued) : List Reading :=
  if laneMajor q.word && decide ((fieldP q.word).toNat < 24) then evenly [predSpan (fieldP q.word)] else []

/-- An element of what a word reads is there, as far as an older word is concerned that has issued `n` of its positions. -/
def Span.ready (w : Span) (vl n : Nat) (r : Span) (k : Nat) : Bool :=
  let lo := 8192 * r.first + k * r.bits
  let hi := if r.bits = 0 then 8192 * (r.first + r.regs) else lo + r.bits
  let from_ := 8192 * w.first
  let end_ := if w.bits = 0 then 8192 * (w.first + w.regs) else from_ + vl * w.bits
  decide (hi ≤ from_ + n * w.bits) || decide (end_ ≤ lo)

/-- A word of a chaining window that issues element groups: its hart, its distance past `pc`, its place in the window, the
cycles it has waited at the head, its length, the size of its groups, the next position it would issue, and the position
below which the words that it depends on have issued (R185). -/
structure Candidate where
  hart  : Nat
  dist  : Nat
  slot  : Nat
  wait  : Nat
  vl    : Nat
  size  : Nat
  next  : Nat
  ready : Nat
  deriving DecidableEq, Repr

/-- Positions that have not issued (R182). -/
def Candidate.left (c : Candidate) : Nat := c.vl - c.next

/-- The next element group can issue: there is one, and its operands are there (R44, R185). -/
def Candidate.open_ (c : Candidate) : Bool := decide (c.next < c.vl) && decide (min c.vl (c.next + c.size) ≤ c.ready)

/-- Positions of a queued word that have issued: of the word at `pc`, those below `vix` at the least. -/
def Hart.issuedOf (h : Hart) (dist : Nat) : Nat :=
  let n := match h.front.issued.find? fun x => x.1 == dist with
    | some x => x.2
    | none => 0
  if dist = 0 then max n h.vix.toNat else n

/-- The position below which an older word of the window lets a younger one issue: every element that the younger one reads,
through `xlm` where that selects it, is written by positions which the older one has issued (R44, R136). -/
def Hart.lets (h : Hart) (x y : Queued) : Nat :=
  let n := h.issuedOf x.dist
  if laneMajor x.word ∧ x.vl ≤ n then y.vl
  else
    let writes := (x.names h.xlm).1
    let reads := (y.names h.xlm).2 ++ y.mask
    let stuck := fun (i : Nat) => reads.any fun r =>
      match r.2 i with
      | none => false
      | some k => writes.any fun w => !w.ready x.vl n r.1 k
    ((List.range y.vl).find? stuck).getD y.vl

/-- The words of a hart's chaining window, the four oldest of its queue, that issue on lane groups, oldest first. The word
that the hart waits in has no operands, none issues under an illegal type, and none of a hart that has been stopped (R311). -/
def State.window (s : State) (h : Hart) : List Candidate :=
  let q := if h.stopped then [] else (s.vectorQueue h.pos).take 4
  (List.range q.length).filterMap fun k =>
    match q[k]? with
    | none => none
    | some y =>
      if laneMajor y.word && !bit y.vty 63 then
        let stuck := y.dist == 0 && h.run != .running
        some { hart := (hartInCore h.pos).toNat, dist := y.dist, slot := k, wait := if k = 0 then h.front.wait else 0
               vl := y.vl, size := groupSize y.vty, next := h.issuedOf y.dist
               ready := if stuck then 0 else (q.take k).foldl (fun n x => min n (h.lets x y)) y.vl }
      else none

/-- The words of the chaining windows of a core's harts, by hart number and age. -/
def State.candidates (s : State) (c : CoreId) : List Candidate :=
  (List.range 4).flatMap fun n =>
    match (s.hartsOn c).find? fun h => (hartInCore h.pos).toNat == n with
    | none => []
    | some h => s.window h

/-! ### One cycle (R185) -/

/-- The candidate that comes first; the earlier of equal ones (R185). -/
def pickBy (before : Candidate → Candidate → Bool) : List Candidate → Option Candidate
  | [] => none
  | x :: xs => some (xs.foldl (fun b y => if before y b then y else b) x)

/-- The hart whose home lane group `g` is (R183): home groups are consecutive, in hart order. -/
def homeHart (shares : List (Nat × Nat × Nat)) (g : Nat) : Option Nat :=
  match shares with
  | [] => none
  | (n, _, l) :: rest => if g < l then some n else homeHart rest (g - l)

/-- The choice of lane group `g`: urgent words first, then its home hart's, then the others' (R185). -/
def chooseFor (shares : List (Nat × Nat × Nat)) (g : Nat) (cs : List Candidate) : Option Candidate :=
  let cs := cs.filter Candidate.open_
  let shorter := fun (a b : Candidate) => decide (a.left < b.left)
  match pickBy (fun a b => decide (b.wait < a.wait)) (cs.filter fun c => decide (255 ≤ c.wait)) with
  | some c => some c
  | none =>
    match pickBy shorter (cs.filter fun c => homeHart shares g == some c.hart) with
    | some c => some c
    | none => pickBy shorter cs

/-- An element group of a word issues. -/
def Candidate.issue (c : Candidate) : Candidate := { c with next := min c.vl (c.next + c.size), wait := 0 }

/-- One cycle of the four lane groups: the words with the positions that they have issued. -/
def issueCycle (shares : List (Nat × Nat × Nat)) (cs : List Candidate) : List Candidate :=
  forUpTo 4 (fun g cs =>
    match chooseFor shares g cs with
    | none => cs
    | some c => cs.map fun x => if x.hart == c.hart && x.slot == c.slot then x.issue else x) cs

/-- The issued positions of a hart's window recorded. -/
def Hart.recordIssue (h : Hart) (cs : List Candidate) : Hart :=
  { h with front := { h.front with
      issued := (cs.filter fun c => c.next != 0).map fun c => (c.dist, c.next)
      wait := match cs.find? fun c => c.slot == 0 with
        | some c => c.wait
        | none => h.front.wait } }

/-- ELEMENT_GROUP_ISSUE (R185): one cycle of a core. The word at a hart's `pc` runs next, up to the position that its element
groups have reached; a younger word takes effect when it is reached, as far as it has issued. -/
def execElementGroupIssue (core : CoreId) (s : State) : Res :=
  let cs := issueCycle (s.shares core) (s.candidates core)
  let place := fun (n : Nat) => core ++ BitVec.ofNat 2 n
  let turns := (cs.filter fun c => c.dist == 0 && decide ((s.hartAt (place c.hart)).vix.toNat < c.next)).map fun c =>
    Turn.group (place c.hart) c.next
  let s := (List.range 4).foldl (fun s n =>
    match cs.filter fun c => c.hart == n with
    | [] => s
    | mine => s.putHart ((s.hartAt (place n)).recordIssue mine)) s
  .next { s with agenda := turns ++ s.agenda }

/-- URGENT_WORD_AGING (R185): a cycle passes for the head of each window of a core that has a candidate; from 255 on it is
urgent. -/
def execUrgentWordAging (core : CoreId) (s : State) : Res :=
  .next (((s.candidates core).filter fun c => c.slot == 0 && c.open_).foldl (fun s c =>
    let h := s.hartAt (core ++ BitVec.ofNat 2 c.hart)
    s.putHart { h with front := { h.front with wait := h.front.wait + 1 } }) s)

/-! ### Deadlock (R220) -/

/-- The queue that a deadlocked hart waits on (R220): its word waits on a queue of its own; its Fife is idle, or waits on a
queue of it too, in a load or an `enq` or `deq`, running or paused (R278), while one that has faulted is held and not idle
(R271); and its front end waits. The word at `pc` is the oldest that waits: the producer
of a digit link and the head of a full vector queue are older than the words that wait on these. -/
def State.deadlock (s : State) (x : Hart) : Option (BitVec 3) :=
  let f := (s.core (coreOf x.pos)).fife
  let still := !f.heldBy x.pos || match f.st with
    | .idle => true
    | .faulted => false
    | .paused | .running => match f.wait with
      | some w => f.onQueue && (x.queueBlocked w).isSome
      | none => false
  match x.run with
  | .waiting w => if still && s.frontWaits x.pos then x.queueBlocked w else none
  | .free | .running => none

/-- HART_DEADLOCK_DETECT (R220). -/
def execHartDeadlockDetect (h : HartId) (s : State) : Res :=
  match s.deadlock (s.hartAt h) with
  | some q => .next (s.onHart h fun s => s.trap 0x206 (q.setWidth 64))
  | none => .next s

end Sys2Proof.Machine
end

