-- ==== Sys2Proof/Machine/VArith.lean ====
section
/-! DEFINITION. The element loop of vector arithmetic (R110), and the four approximations (R116 to R121). -/

namespace Sys2Proof.Machine

/-! ### The loop -/

/-- What an arithmetic word computes for one element: whether it reads B and D, the types it admits, whether it rounds
and whether its predicate masks (that of `vsel` selects), and F of R110 with the predicate bit, a, b and d. -/
structure VFunction where
  readsB : Bool := true
  readsD : Bool := false
  admits : VType → Bool
  rounds : Bool := false
  masks  : Bool := true
  f      : VType → Rounding → Bool → Nat → Nat → Nat → Nat × Flags

/-- The result of one element delivered: an element, a link element, or a predicate bit. -/
def State.deliver (s : State) (t : VType) (d : Operand) (i x : Nat) : State :=
  match d with
  | .none_ => s
  | .reg r => s.setElem r t.ew i x
  | .link k => s.produce k i x
  | .pred p => s.setPbit p i (x % 2 == 1)

/-- An inactive position: all-zero bits to a link, nothing else (R125, R16). -/
def State.deliverNone (s : State) (d : Operand) (i : Nat) : State :=
  match d with
  | .link k => s.produce k i 0
  | .none_ | .reg _ | .pred _ => s

/-- One position of the loop of R110. -/
def arithStep (fn : VFunction) (t : VType) (rm : Rounding) (d a b : Operand) (p : PSel) (i : Nat) (s : State) : State :=
  if !fn.masks || s.hart.active p i then
    let x := s.src t s.hart.selA a i
    let y := if fn.readsB then s.src t s.hart.selB b i else 0
    let z := if fn.readsD then match d with
      | .reg r => s.elem r t.ew i
      | .none_ | .link _ | .pred _ => 0 else 0
    let r := fn.f t rm (s.hart.pbit p i) x y z
    (s.deliver t d i r.1).raise (match d with
      | .link _ => r.2.link
      | .none_ | .reg _ | .pred _ => r.2)
  else s.deliverNone d i

/-- The loop from `vix`, with the effects on links (R110, R123 to R126). -/
def arithBody (fn : VFunction) (t : VType) (rm : Rounding) (d a b : Operand) (p : PSel) (s : State) : Ended :=
  let n := s.upto
  let s := forFrom s.hart.vix.toNat n (arithStep fn t rm d a b p) (s.occupy d)
  match s.endAt n with
  | .retire s => .retire ((s.emptyLink a).emptyLink b)
  | .stop s => .stop ((s.consume n a).consume n b)

/-- The registers that an operand names. -/
def Operand.regs (o : Operand) (t : VType) : List Nat :=
  match o with
  | .reg r => groupRegs r t.gf
  | .none_ | .link _ | .pred _ => []

/-- The register groups of operands, for the tests of R52. -/
def groupsOf (t : VType) (os : List Operand) : List (BitVec 5 × Nat) :=
  os.filterMap fun o => o.regOf.map fun r => (r, t.gf)

/-- A word of majors 0x14 to 0x17 that `xlm` governs: the tests of R52, the checks of R110 in their order, the loop. -/
def arith (word : BitVec 32) (fn : VFunction) (d a b : Operand) (p : PSel) (s : State) : Res :=
  let t := s.vtype
  let b := if fn.readsB then b else .none_
  lateTests { word := word, groups := groupsOf t [d, a, b], admits := fn.admits t, rounds := fn.rounds } s <|
  lengthTest s <|
  xlmTest word d a b s <|
  consumerTest a s <|
  consumerTest b s <|
  producerTest d s <|
  runWord word true (a.regs t ++ b.regs t ++ if fn.readsD then d.regs t else []) (d.regs t) s fun s =>
    arithBody fn t s.vectorRm d a b p s

/-! ### The four approximations (R116 to R121) -/

/-- The integer nearest to √(n / m): the integer root of n / m in half units, rounded. -/
def nearestRoot (n m : Nat) : Nat := (isqrt (4 * n / m) 40 0 + 1) / 2

/-- T[j] of R117. -/
def rcpTable (j : Nat) : Nat := (2 ^ 36 + (2049 + 2 * j)) / (2 * (2049 + 2 * j))

/-- Q[1024 b + j] of R118: the integer nearest to 2^24 / √(2^b × (2049 + 2j) / 2048). -/
def rsqTable (b j : Nat) : Nat := nearestRoot (2 ^ 48 * 2048) (2 ^ b * (2049 + 2 * j))

/-- E[j] of R119, the integer nearest to 2^(24 + j/1024): ten square roots of 2^(j × 2^…) in fixed point, multiplied bit
by bit. `root k` is 2^(2^−k) × 2^80. -/
def exaRoot : Nat → Nat
  | 0 => 2 ^ 81
  | k + 1 => isqrt (exaRoot k * 2 ^ 80) 82 0

/-- The product of the roots whose bits are set in j, bit 9 first, in units of 2^−80. -/
def exaProduct (j : Nat) : Nat → Nat → Nat
  | 0, acc => acc
  | k + 1, acc => exaProduct j k (if j.testBit k then acc * exaRoot (10 - k) / 2 ^ 80 else acc)

/-- E[j] of R119. -/
def exaTable (j : Nat) : Nat := (exaProduct j 10 (2 ^ 80) + 2 ^ 55) / 2 ^ 56

/-- Bits of log2 of `x` / 2^80 in [1, 2), by repeated squaring, most significant first. -/
def log2Bits : Nat → Nat → Nat → Nat
  | 0, _, acc => acc
  | k + 1, x, acc =>
    let y := x * x / 2 ^ 80
    if 2 ^ 81 ≤ y then log2Bits k (y / 2) (2 * acc + 1) else log2Bits k y (2 * acc)

/-- L[j] of R120: the integer nearest to 2^24 × log2(1 + j/1024). -/
def lgaTable (j : Nat) : Nat := (log2Bits 40 (2 ^ 80 + j * 2 ^ 70) 0 + 2 ^ 15) / 2 ^ 16

/-- A finite non-zero magnitude as 2^e × (1 + f): e, and j = ⌊f × 1024⌋ (R116). -/
def normalIndex (m : Nat) (e : Int) : Int × Nat :=
  (e + m.log2, m * 2 ^ 10 / 2 ^ m.log2 % 1024)

/-- `vfrcpa` before its rounding (R117, R121). -/
def approxRcp (x : FpNum) : Exact :=
  match x with
  | .nan _ => nanOf [x]
  | .inf n => { num := .fin n 0 0 }
  | .fin n m e =>
    if m == 0 then { num := .inf n, flags := { dz := true } }
    else let (e, j) := normalIndex m e; { num := .fin n (rcpTable j) (-e - 24) }

/-- `vfrsqa` before its rounding (R118, R121). -/
def approxRsq (x : FpNum) : Exact :=
  match x with
  | .nan _ => nanOf [x]
  | .inf n => if n then invalid else { num := .fin false 0 0 }
  | .fin n m e =>
    if m == 0 then { num := .inf n, flags := { dz := true } }
    else if n then invalid
    else
      let (e, j) := normalIndex m e
      let b := e % 2
      { num := .fin false (rsqTable b.toNat j) (-(e - b) / 2 - 24) }

/-- `vfexa` before its rounding (R119, R121). A power far outside every format is bounded, which no rounding can tell. -/
def approxExa (x : FpNum) : Exact :=
  match x with
  | .nan _ => nanOf [x]
  | .inf n => if n then { num := .fin false 0 0 } else { num := .inf false }
  | .fin n m e =>
    let big := m != 0 && decide (13 ≤ e + m.log2)
    if big then { num := .fin false 1 (if n then -8192 else 8192) }
    else
      let v : Int := ((m * 2 ^ (e + 10).toNat / 2 ^ (-(e + 10)).toNat : Nat) : Int)
      let exact := m * 2 ^ (e + 10).toNat % 2 ^ (-(e + 10)).toNat == 0
      let k := if n then (if exact then -v else -v - 1) else v
      { num := .fin false (exaTable (k % 1024).toNat) (k / 1024 - 24) }

/-- `vflga` before its rounding (R120, R121). -/
def approxLga (x : FpNum) : Exact :=
  match x with
  | .nan _ => nanOf [x]
  | .inf n => if n then invalid else { num := .inf false }
  | .fin n m e =>
    if m == 0 then { num := .inf true, flags := { dz := true } }
    else if n then invalid
    else
      let (e, j) := normalIndex m e
      let y : Int := e * 2 ^ 24 + (lgaTable j : Nat)
      { num := .fin (decide (y < 0)) y.natAbs (-24) }

end Sys2Proof.Machine
end

