-- ==== Sys2Proof/Machine/VFloat.lean ====
section
/-! DEFINITION. Vector floating-point words, majors 0x16 and 0x17 below F6 0x38 (R114 to R121). -/

namespace Sys2Proof.Machine

/-- A rounding function of two elements, under FMT 2 to 7 (R32, R114). -/
def fpRound2 (f : Rounding → FpNum → FpNum → Exact) : VFunction :=
  { admits := VType.isFp, rounds := true
    f := fun t r _ a b _ => let x := fpOf t.fmt; x.round r (f r (x.decode a) (x.decode b)) }

/-- A rounding function of three elements. -/
def fpRound3 (f : Rounding → FpNum → FpNum → FpNum → Exact) : VFunction :=
  { admits := VType.isFp, rounds := true, readsD := true
    f := fun t r _ a b d => let x := fpOf t.fmt; x.round r (f r (x.decode a) (x.decode b) (x.decode d)) }

/-- A rounding function of one element. -/
def fpRound1 (f : FpNum → Exact) : VFunction :=
  { admits := VType.isFp, rounds := true, readsB := false
    f := fun t r _ a _ _ => let x := fpOf t.fmt; x.round r (f (x.decode a)) }

/-- Minimum or maximum (R114). -/
def fpPick (least : Bool) : VFunction :=
  { admits := VType.isFp, f := fun t _ _ a b _ => (fpOf t.fmt).extremum least a b }

/-- An FP comparison into a predicate (R114, R95). -/
def cmpFp (r : FRel) : VFunction :=
  { admits := VType.isFp
    f := fun t _ _ a b _ => let x := (fpOf t.fmt).compare r a b; (bitNat x.1, x.2) }

/-- A function that edits or inspects the bits of one element (R115). -/
def fpBits1 (f : VType → Nat → Nat) : VFunction :=
  { admits := VType.isFp, readsB := false, f := fun t _ _ a _ _ => (f t a, {}) }

/-- The class code of R115. -/
def classCode (f : FpFormat) (a : Nat) : Nat :=
  match f.decode a with
  | .nan sig => if sig then 8 else 9
  | .inf neg => if neg then 0 else 7
  | .fin neg m _ =>
    if m == 0 then (if neg then 3 else 4)
    else if m < 2 ^ f.man then (if neg then 2 else 5) else (if neg then 1 else 6)

/-- F of `vfadd` (R114): a + b. -/
def vfaddFn : VFunction := fpRound2 fun r a b => a.add r b

/-- `VFADD`: the register form. -/
def execVfadd (d a b : VReg) (p : PSel) (s : State) : Res :=
  arith (encVec 0x16 d a b p 0x00) vfaddFn (.reg d) (.reg a) (.reg b) p s

/-- `VFADD_LINK`: the link form. -/
def execVfaddLink (d a b : LReg) (p : PSel) (s : State) : Res :=
  arith (encVec 0x17 d a b p 0x00) vfaddFn (linkOperand d) (linkOperand a) (linkOperand b) p s

/-- F of `vfsub` (R114): a − b. -/
def vfsubFn : VFunction := fpRound2 fun r a b => a.add r b.neg

/-- `VFSUB`: the register form. -/
def execVfsub (d a b : VReg) (p : PSel) (s : State) : Res :=
  arith (encVec 0x16 d a b p 0x01) vfsubFn (.reg d) (.reg a) (.reg b) p s

/-- `VFSUB_LINK`: the link form. -/
def execVfsubLink (d a b : LReg) (p : PSel) (s : State) : Res :=
  arith (encVec 0x17 d a b p 0x01) vfsubFn (linkOperand d) (linkOperand a) (linkOperand b) p s

/-- F of `vfmul` (R114): a × b. -/
def vfmulFn : VFunction := fpRound2 fun _ a b => a.mul b

/-- `VFMUL`: the register form. -/
def execVfmul (d a b : VReg) (p : PSel) (s : State) : Res :=
  arith (encVec 0x16 d a b p 0x02) vfmulFn (.reg d) (.reg a) (.reg b) p s

/-- `VFMUL_LINK`: the link form. -/
def execVfmulLink (d a b : LReg) (p : PSel) (s : State) : Res :=
  arith (encVec 0x17 d a b p 0x02) vfmulFn (linkOperand d) (linkOperand a) (linkOperand b) p s

/-- F of `vfdiv` (R114): a / b. -/
def vfdivFn : VFunction := fpRound2 fun _ a b => a.div b

/-- `VFDIV`: the register form. -/
def execVfdiv (d a b : VReg) (p : PSel) (s : State) : Res :=
  arith (encVec 0x16 d a b p 0x06) vfdivFn (.reg d) (.reg a) (.reg b) p s

/-- `VFDIV_LINK`: the link form. -/
def execVfdivLink (d a b : LReg) (p : PSel) (s : State) : Res :=
  arith (encVec 0x17 d a b p 0x06) vfdivFn (linkOperand d) (linkOperand a) (linkOperand b) p s

/-- F of `vffma` (R114): a × b + d, rounded once. -/
def vffmaFn : VFunction := fpRound3 fun r a b d => FpNum.fma r a b d

/-- `VFFMA`: the register form. -/
def execVffma (d a b : VReg) (p : PSel) (s : State) : Res :=
  arith (encVec 0x16 d a b p 0x03) vffmaFn (.reg d) (.reg a) (.reg b) p s

/-- `VFFMA_LINK`: the link form. -/
def execVffmaLink (d a b : LReg) (p : PSel) (s : State) : Res :=
  arith (encVec 0x17 d a b p 0x03) vffmaFn (linkOperand d) (linkOperand a) (linkOperand b) p s

/-- F of `vffms` (R114): a × b − d, rounded once. -/
def vffmsFn : VFunction := fpRound3 fun r a b d => FpNum.fma r a b d.neg

/-- `VFFMS`: the register form. -/
def execVffms (d a b : VReg) (p : PSel) (s : State) : Res :=
  arith (encVec 0x16 d a b p 0x04) vffmsFn (.reg d) (.reg a) (.reg b) p s

/-- `VFFMS_LINK`: the link form. -/
def execVffmsLink (d a b : LReg) (p : PSel) (s : State) : Res :=
  arith (encVec 0x17 d a b p 0x04) vffmsFn (linkOperand d) (linkOperand a) (linkOperand b) p s

/-- F of `vfnma` (R114): −(a × b) + d, rounded once. -/
def vfnmaFn : VFunction := fpRound3 fun r a b d => FpNum.fma r a.neg b d

/-- `VFNMA`: the register form. -/
def execVfnma (d a b : VReg) (p : PSel) (s : State) : Res :=
  arith (encVec 0x16 d a b p 0x05) vfnmaFn (.reg d) (.reg a) (.reg b) p s

/-- `VFNMA_LINK`: the link form. -/
def execVfnmaLink (d a b : LReg) (p : PSel) (s : State) : Res :=
  arith (encVec 0x17 d a b p 0x05) vfnmaFn (linkOperand d) (linkOperand a) (linkOperand b) p s

/-- F of `vfsqrt` (R114): √a. -/
def vfsqrtFn : VFunction := fpRound1 FpNum.sqrt

/-- `VFSQRT`: the register form. -/
def execVfsqrt (d a : VReg) (p : PSel) (s : State) : Res :=
  arith (encVec 0x16 d a 0 p 0x07) vfsqrtFn (.reg d) (.reg a) .none_ p s

/-- `VFSQRT_LINK`: the link form. -/
def execVfsqrtLink (d a : LReg) (p : PSel) (s : State) : Res :=
  arith (encVec 0x17 d a 0 p 0x07) vfsqrtFn (linkOperand d) (linkOperand a) .none_ p s

/-- F of `vfrsqa` (R118): the approximation of 1/√a. -/
def vfrsqaFn : VFunction := fpRound1 approxRsq

/-- `VFRSQA`: the register form. -/
def execVfrsqa (d a : VReg) (p : PSel) (s : State) : Res :=
  arith (encVec 0x16 d a 0 p 0x08) vfrsqaFn (.reg d) (.reg a) .none_ p s

/-- `VFRSQA_LINK`: the link form. -/
def execVfrsqaLink (d a : LReg) (p : PSel) (s : State) : Res :=
  arith (encVec 0x17 d a 0 p 0x08) vfrsqaFn (linkOperand d) (linkOperand a) .none_ p s

/-- F of `vfrcpa` (R117): the approximation of 1/a. -/
def vfrcpaFn : VFunction := fpRound1 approxRcp

/-- `VFRCPA`: the register form. -/
def execVfrcpa (d a : VReg) (p : PSel) (s : State) : Res :=
  arith (encVec 0x16 d a 0 p 0x09) vfrcpaFn (.reg d) (.reg a) .none_ p s

/-- `VFRCPA_LINK`: the link form. -/
def execVfrcpaLink (d a : LReg) (p : PSel) (s : State) : Res :=
  arith (encVec 0x17 d a 0 p 0x09) vfrcpaFn (linkOperand d) (linkOperand a) .none_ p s

/-- F of `vfexa` (R119): the approximation of 2^a. -/
def vfexaFn : VFunction := fpRound1 approxExa

/-- `VFEXA`: the register form. -/
def execVfexa (d a : VReg) (p : PSel) (s : State) : Res :=
  arith (encVec 0x16 d a 0 p 0x0a) vfexaFn (.reg d) (.reg a) .none_ p s

/-- `VFEXA_LINK`: the link form. -/
def execVfexaLink (d a : LReg) (p : PSel) (s : State) : Res :=
  arith (encVec 0x17 d a 0 p 0x0a) vfexaFn (linkOperand d) (linkOperand a) .none_ p s

/-- F of `vflga` (R120): the approximation of log2 a. -/
def vflgaFn : VFunction := fpRound1 approxLga

/-- `VFLGA`: the register form. -/
def execVflga (d a : VReg) (p : PSel) (s : State) : Res :=
  arith (encVec 0x16 d a 0 p 0x0b) vflgaFn (.reg d) (.reg a) .none_ p s

/-- `VFLGA_LINK`: the link form. -/
def execVflgaLink (d a : LReg) (p : PSel) (s : State) : Res :=
  arith (encVec 0x17 d a 0 p 0x0b) vflgaFn (linkOperand d) (linkOperand a) .none_ p s

/-- F of `vfmin` (R114): the IEEE 754-2019 minimum. -/
def vfminFn : VFunction := fpPick true

/-- `VFMIN`: the register form. -/
def execVfmin (d a b : VReg) (p : PSel) (s : State) : Res :=
  arith (encVec 0x16 d a b p 0x0c) vfminFn (.reg d) (.reg a) (.reg b) p s

/-- `VFMIN_LINK`: the link form. -/
def execVfminLink (d a b : LReg) (p : PSel) (s : State) : Res :=
  arith (encVec 0x17 d a b p 0x0c) vfminFn (linkOperand d) (linkOperand a) (linkOperand b) p s

/-- `VFMIN_K`: the cancelling form (R127). -/
def execVfminK (d a b : LReg) (p : PSel) (s : State) : Res :=
  arith (encVec 0x17 d a b p 0x2c) vfminFn (linkOperand d) (linkOperand a) (linkOperand b) p s

/-- F of `vfmax` (R114): the IEEE 754-2019 maximum. -/
def vfmaxFn : VFunction := fpPick false

/-- `VFMAX`: the register form. -/
def execVfmax (d a b : VReg) (p : PSel) (s : State) : Res :=
  arith (encVec 0x16 d a b p 0x0d) vfmaxFn (.reg d) (.reg a) (.reg b) p s

/-- `VFMAX_LINK`: the link form. -/
def execVfmaxLink (d a b : LReg) (p : PSel) (s : State) : Res :=
  arith (encVec 0x17 d a b p 0x0d) vfmaxFn (linkOperand d) (linkOperand a) (linkOperand b) p s

/-- `VFMAX_K`: the cancelling form (R127). -/
def execVfmaxK (d a b : LReg) (p : PSel) (s : State) : Res :=
  arith (encVec 0x17 d a b p 0x2d) vfmaxFn (linkOperand d) (linkOperand a) (linkOperand b) p s

/-- F of `vfcmp.eq` (R114): a = b. -/
def vfcmpEqFn : VFunction := cmpFp .eq

/-- `VFCMP_EQ`: the register form. -/
def execVfcmpEq (d : PReg) (a b : VReg) (p : PSel) (s : State) : Res :=
  arith (encVec 0x16 d a b p 0x10) vfcmpEqFn (.pred d) (.reg a) (.reg b) p s

/-- `VFCMP_EQ_LINK`: the link form. -/
def execVfcmpEqLink (d : PReg) (a b : LReg) (p : PSel) (s : State) : Res :=
  arith (encVec 0x17 d a b p 0x10) vfcmpEqFn (.pred d) (linkOperand a) (linkOperand b) p s

/-- `VFCMP_EQ_K`: the cancelling form (R127). -/
def execVfcmpEqK (d : PReg) (a b : LReg) (p : PSel) (s : State) : Res :=
  arith (encVec 0x17 d a b p 0x30) vfcmpEqFn (.pred d) (linkOperand a) (linkOperand b) p s

/-- F of `vfcmp.lt` (R114): a < b. -/
def vfcmpLtFn : VFunction := cmpFp .lt

/-- `VFCMP_LT`: the register form. -/
def execVfcmpLt (d : PReg) (a b : VReg) (p : PSel) (s : State) : Res :=
  arith (encVec 0x16 d a b p 0x11) vfcmpLtFn (.pred d) (.reg a) (.reg b) p s

/-- `VFCMP_LT_LINK`: the link form. -/
def execVfcmpLtLink (d : PReg) (a b : LReg) (p : PSel) (s : State) : Res :=
  arith (encVec 0x17 d a b p 0x11) vfcmpLtFn (.pred d) (linkOperand a) (linkOperand b) p s

/-- `VFCMP_LT_K`: the cancelling form (R127). -/
def execVfcmpLtK (d : PReg) (a b : LReg) (p : PSel) (s : State) : Res :=
  arith (encVec 0x17 d a b p 0x31) vfcmpLtFn (.pred d) (linkOperand a) (linkOperand b) p s

/-- F of `vfcmp.le` (R114): a ≤ b. -/
def vfcmpLeFn : VFunction := cmpFp .le

/-- `VFCMP_LE`: the register form. -/
def execVfcmpLe (d : PReg) (a b : VReg) (p : PSel) (s : State) : Res :=
  arith (encVec 0x16 d a b p 0x12) vfcmpLeFn (.pred d) (.reg a) (.reg b) p s

/-- `VFCMP_LE_LINK`: the link form. -/
def execVfcmpLeLink (d : PReg) (a b : LReg) (p : PSel) (s : State) : Res :=
  arith (encVec 0x17 d a b p 0x12) vfcmpLeFn (.pred d) (linkOperand a) (linkOperand b) p s

/-- `VFCMP_LE_K`: the cancelling form (R127). -/
def execVfcmpLeK (d : PReg) (a b : LReg) (p : PSel) (s : State) : Res :=
  arith (encVec 0x17 d a b p 0x32) vfcmpLeFn (.pred d) (linkOperand a) (linkOperand b) p s

/-- F of `vfcmp.un` (R114): unordered. -/
def vfcmpUnFn : VFunction := cmpFp .un

/-- `VFCMP_UN`: the register form. -/
def execVfcmpUn (d : PReg) (a b : VReg) (p : PSel) (s : State) : Res :=
  arith (encVec 0x16 d a b p 0x13) vfcmpUnFn (.pred d) (.reg a) (.reg b) p s

/-- `VFCMP_UN_LINK`: the link form. -/
def execVfcmpUnLink (d : PReg) (a b : LReg) (p : PSel) (s : State) : Res :=
  arith (encVec 0x17 d a b p 0x13) vfcmpUnFn (.pred d) (linkOperand a) (linkOperand b) p s

/-- `VFCMP_UN_K`: the cancelling form (R127). -/
def execVfcmpUnK (d : PReg) (a b : LReg) (p : PSel) (s : State) : Res :=
  arith (encVec 0x17 d a b p 0x33) vfcmpUnFn (.pred d) (linkOperand a) (linkOperand b) p s

/-- F of `vfabs` (R115): a with the sign bit cleared. -/
def vfabsFn : VFunction := fpBits1 fun t a => a % 2 ^ (t.ew - 1)

/-- `VFABS`: the register form. -/
def execVfabs (d a : VReg) (p : PSel) (s : State) : Res :=
  arith (encVec 0x16 d a 0 p 0x18) vfabsFn (.reg d) (.reg a) .none_ p s

/-- F of `vfneg` (R115): a with the sign bit inverted. -/
def vfnegFn : VFunction := fpBits1 fun t a => Nat.xor a (2 ^ (t.ew - 1))

/-- `VFNEG`: the register form. -/
def execVfneg (d a : VReg) (p : PSel) (s : State) : Res :=
  arith (encVec 0x16 d a 0 p 0x19) vfnegFn (.reg d) (.reg a) .none_ p s

/-- F of `vfsgn` (R115): a with the sign bit of b. -/
def vfsgnFn : VFunction := { fpBits1 (fun _ a => a) with readsB := true, f := fun t _ _ a b _ => (a % 2 ^ (t.ew - 1) + b / 2 ^ (t.ew - 1) * 2 ^ (t.ew - 1), {}) }

/-- `VFSGN`: the register form. -/
def execVfsgn (d a b : VReg) (p : PSel) (s : State) : Res :=
  arith (encVec 0x16 d a b p 0x1a) vfsgnFn (.reg d) (.reg a) (.reg b) p s

/-- F of `vfcls` (R115): the class code. -/
def vfclsFn : VFunction := fpBits1 fun t a => classCode (fpOf t.fmt) a

/-- `VFCLS`: the register form. -/
def execVfcls (d a : VReg) (p : PSel) (s : State) : Res :=
  arith (encVec 0x16 d a 0 p 0x1b) vfclsFn (.reg d) (.reg a) .none_ p s

end Sys2Proof.Machine
end

