-- ==== Sys2Proof/Machine/VInt.lean ====
section
/-! DEFINITION. Vector integer words, majors 0x14 and 0x15 (R111 to R113). -/

namespace Sys2Proof.Machine

/-- A function of two integer elements, under FMT 0 and 1 (R111). -/
def int2 (f : {w : Nat} → BitVec w → BitVec w → BitVec w) : VFunction :=
  { admits := VType.isInt
    f := fun t _ _ a b _ => ((f (BitVec.ofNat t.ew a) (BitVec.ofNat t.ew b)).toNat, {}) }

/-- A function of three integer elements. -/
def int3 (f : {w : Nat} → BitVec w → BitVec w → BitVec w → BitVec w) : VFunction :=
  { admits := VType.isInt
    f := fun t _ _ a b d => ((f (BitVec.ofNat t.ew a) (BitVec.ofNat t.ew b) (BitVec.ofNat t.ew d)).toNat, {}) }

/-- A function of one integer element. -/
def int1 (f : {w : Nat} → BitVec w → BitVec w) : VFunction :=
  { readsB := false, admits := VType.isInt
    f := fun t _ _ a _ _ => ((f (BitVec.ofNat t.ew a)).toNat, {}) }

/-- A bitwise function, under FMT 0 to 7 (R54). -/
def bitwise (f : {w : Nat} → BitVec w → BitVec w → BitVec w) : VFunction :=
  { int2 f with admits := fun t => !t.isBlock }

/-- An integer comparison into a predicate (R113). -/
def cmpInt (f : {w : Nat} → BitVec w → BitVec w → Bool) : VFunction :=
  { admits := VType.isInt
    f := fun t _ _ a b _ => (bitNat (f (BitVec.ofNat t.ew a) (BitVec.ofNat t.ew b)), {}) }

/-- Clamped to the signed range of R27. -/
def clampS {w : Nat} (i : Int) : BitVec w :=
  BitVec.ofInt w (if i < -2 ^ (w - 1) then -2 ^ (w - 1) else if 2 ^ (w - 1) - 1 < i then 2 ^ (w - 1) - 1 else i)

/-- Clamped to the unsigned range of R27. -/
def clampN {w : Nat} (i : Int) : BitVec w :=
  BitVec.ofInt w (if i < 0 then 0 else if 2 ^ w - 1 < i then 2 ^ w - 1 else i)

/-- F of `vadd` (R112): a + b. -/
def vaddFn : VFunction := int2 fun a b => a + b

/-- `VADD`: the register form. -/
def execVadd (d a b : VReg) (p : PSel) (s : State) : Res :=
  arith (encVec 0x14 d a b p 0x00) vaddFn (.reg d) (.reg a) (.reg b) p s

/-- `VADD_LINK`: the link form. -/
def execVaddLink (d a b : LReg) (p : PSel) (s : State) : Res :=
  arith (encVec 0x15 d a b p 0x00) vaddFn (linkOperand d) (linkOperand a) (linkOperand b) p s

/-- F of `vsub` (R112): a − b. -/
def vsubFn : VFunction := int2 fun a b => a - b

/-- `VSUB`: the register form. -/
def execVsub (d a b : VReg) (p : PSel) (s : State) : Res :=
  arith (encVec 0x14 d a b p 0x01) vsubFn (.reg d) (.reg a) (.reg b) p s

/-- `VSUB_LINK`: the link form. -/
def execVsubLink (d a b : LReg) (p : PSel) (s : State) : Res :=
  arith (encVec 0x15 d a b p 0x01) vsubFn (linkOperand d) (linkOperand a) (linkOperand b) p s

/-- F of `vmul` (R112): the low EW bits of a × b. -/
def vmulFn : VFunction := int2 fun a b => a * b

/-- `VMUL`: the register form. -/
def execVmul (d a b : VReg) (p : PSel) (s : State) : Res :=
  arith (encVec 0x14 d a b p 0x02) vmulFn (.reg d) (.reg a) (.reg b) p s

/-- `VMUL_LINK`: the link form. -/
def execVmulLink (d a b : LReg) (p : PSel) (s : State) : Res :=
  arith (encVec 0x15 d a b p 0x02) vmulFn (linkOperand d) (linkOperand a) (linkOperand b) p s

/-- F of `vmulh` (R112): the high EW bits of the signed product. -/
def vmulhFn : VFunction := int2 fun {w} a b => BitVec.ofInt w (a.toInt * b.toInt / 2 ^ w)

/-- `VMULH`: the register form. -/
def execVmulh (d a b : VReg) (p : PSel) (s : State) : Res :=
  arith (encVec 0x14 d a b p 0x03) vmulhFn (.reg d) (.reg a) (.reg b) p s

/-- `VMULH_LINK`: the link form. -/
def execVmulhLink (d a b : LReg) (p : PSel) (s : State) : Res :=
  arith (encVec 0x15 d a b p 0x03) vmulhFn (linkOperand d) (linkOperand a) (linkOperand b) p s

/-- F of `vmulhn` (R112): the high EW bits of the unsigned product. -/
def vmulhnFn : VFunction := int2 fun {w} a b => BitVec.ofNat w (a.toNat * b.toNat / 2 ^ w)

/-- `VMULHN`: the register form. -/
def execVmulhn (d a b : VReg) (p : PSel) (s : State) : Res :=
  arith (encVec 0x14 d a b p 0x04) vmulhnFn (.reg d) (.reg a) (.reg b) p s

/-- `VMULHN_LINK`: the link form. -/
def execVmulhnLink (d a b : LReg) (p : PSel) (s : State) : Res :=
  arith (encVec 0x15 d a b p 0x04) vmulhnFn (linkOperand d) (linkOperand a) (linkOperand b) p s

/-- F of `vmac` (R112): d + a × b, low EW bits. -/
def vmacFn : VFunction := { int3 fun a b d => d + a * b with readsD := true }

/-- `VMAC`: the register form. -/
def execVmac (d a b : VReg) (p : PSel) (s : State) : Res :=
  arith (encVec 0x14 d a b p 0x05) vmacFn (.reg d) (.reg a) (.reg b) p s

/-- `VMAC_LINK`: the link form. -/
def execVmacLink (d a b : LReg) (p : PSel) (s : State) : Res :=
  arith (encVec 0x15 d a b p 0x05) vmacFn (linkOperand d) (linkOperand a) (linkOperand b) p s

/-- F of `vdiv` (R112): the signed quotient of R28. -/
def vdivFn : VFunction := int2 fun {w} a b => if b = 0 then BitVec.allOnes w else a.sdiv b

/-- `VDIV`: the register form. -/
def execVdiv (d a b : VReg) (p : PSel) (s : State) : Res :=
  arith (encVec 0x14 d a b p 0x06) vdivFn (.reg d) (.reg a) (.reg b) p s

/-- `VDIV_LINK`: the link form. -/
def execVdivLink (d a b : LReg) (p : PSel) (s : State) : Res :=
  arith (encVec 0x15 d a b p 0x06) vdivFn (linkOperand d) (linkOperand a) (linkOperand b) p s

/-- F of `vdivn` (R112): the unsigned quotient of R28. -/
def vdivnFn : VFunction := int2 fun {w} a b => if b = 0 then BitVec.allOnes w else a.udiv b

/-- `VDIVN`: the register form. -/
def execVdivn (d a b : VReg) (p : PSel) (s : State) : Res :=
  arith (encVec 0x14 d a b p 0x07) vdivnFn (.reg d) (.reg a) (.reg b) p s

/-- `VDIVN_LINK`: the link form. -/
def execVdivnLink (d a b : LReg) (p : PSel) (s : State) : Res :=
  arith (encVec 0x15 d a b p 0x07) vdivnFn (linkOperand d) (linkOperand a) (linkOperand b) p s

/-- F of `vrem` (R112): the signed remainder of R28. -/
def vremFn : VFunction := int2 fun a b => if b = 0 then a else a.srem b

/-- `VREM`: the register form. -/
def execVrem (d a b : VReg) (p : PSel) (s : State) : Res :=
  arith (encVec 0x14 d a b p 0x08) vremFn (.reg d) (.reg a) (.reg b) p s

/-- `VREM_LINK`: the link form. -/
def execVremLink (d a b : LReg) (p : PSel) (s : State) : Res :=
  arith (encVec 0x15 d a b p 0x08) vremFn (linkOperand d) (linkOperand a) (linkOperand b) p s

/-- F of `vremn` (R112): the unsigned remainder of R28. -/
def vremnFn : VFunction := int2 fun a b => if b = 0 then a else a.umod b

/-- `VREMN`: the register form. -/
def execVremn (d a b : VReg) (p : PSel) (s : State) : Res :=
  arith (encVec 0x14 d a b p 0x09) vremnFn (.reg d) (.reg a) (.reg b) p s

/-- `VREMN_LINK`: the link form. -/
def execVremnLink (d a b : LReg) (p : PSel) (s : State) : Res :=
  arith (encVec 0x15 d a b p 0x09) vremnFn (linkOperand d) (linkOperand a) (linkOperand b) p s

/-- F of `vmin` (R112): the signed lesser. -/
def vminFn : VFunction := int2 fun a b => if b.slt a then b else a

/-- `VMIN`: the register form. -/
def execVmin (d a b : VReg) (p : PSel) (s : State) : Res :=
  arith (encVec 0x14 d a b p 0x0a) vminFn (.reg d) (.reg a) (.reg b) p s

/-- `VMIN_LINK`: the link form. -/
def execVminLink (d a b : LReg) (p : PSel) (s : State) : Res :=
  arith (encVec 0x15 d a b p 0x0a) vminFn (linkOperand d) (linkOperand a) (linkOperand b) p s

/-- `VMIN_K`: the cancelling form (R127). -/
def execVminK (d a b : LReg) (p : PSel) (s : State) : Res :=
  arith (encVec 0x15 d a b p 0x38) vminFn (linkOperand d) (linkOperand a) (linkOperand b) p s

/-- F of `vminn` (R112): the unsigned lesser. -/
def vminnFn : VFunction := int2 fun a b => if b.ult a then b else a

/-- `VMINN`: the register form. -/
def execVminn (d a b : VReg) (p : PSel) (s : State) : Res :=
  arith (encVec 0x14 d a b p 0x0b) vminnFn (.reg d) (.reg a) (.reg b) p s

/-- `VMINN_LINK`: the link form. -/
def execVminnLink (d a b : LReg) (p : PSel) (s : State) : Res :=
  arith (encVec 0x15 d a b p 0x0b) vminnFn (linkOperand d) (linkOperand a) (linkOperand b) p s

/-- `VMINN_K`: the cancelling form (R127). -/
def execVminnK (d a b : LReg) (p : PSel) (s : State) : Res :=
  arith (encVec 0x15 d a b p 0x39) vminnFn (linkOperand d) (linkOperand a) (linkOperand b) p s

/-- F of `vmax` (R112): the signed greater. -/
def vmaxFn : VFunction := int2 fun a b => if a.slt b then b else a

/-- `VMAX`: the register form. -/
def execVmax (d a b : VReg) (p : PSel) (s : State) : Res :=
  arith (encVec 0x14 d a b p 0x0c) vmaxFn (.reg d) (.reg a) (.reg b) p s

/-- `VMAX_LINK`: the link form. -/
def execVmaxLink (d a b : LReg) (p : PSel) (s : State) : Res :=
  arith (encVec 0x15 d a b p 0x0c) vmaxFn (linkOperand d) (linkOperand a) (linkOperand b) p s

/-- `VMAX_K`: the cancelling form (R127). -/
def execVmaxK (d a b : LReg) (p : PSel) (s : State) : Res :=
  arith (encVec 0x15 d a b p 0x3a) vmaxFn (linkOperand d) (linkOperand a) (linkOperand b) p s

/-- F of `vmaxn` (R112): the unsigned greater. -/
def vmaxnFn : VFunction := int2 fun a b => if a.ult b then b else a

/-- `VMAXN`: the register form. -/
def execVmaxn (d a b : VReg) (p : PSel) (s : State) : Res :=
  arith (encVec 0x14 d a b p 0x0d) vmaxnFn (.reg d) (.reg a) (.reg b) p s

/-- `VMAXN_LINK`: the link form. -/
def execVmaxnLink (d a b : LReg) (p : PSel) (s : State) : Res :=
  arith (encVec 0x15 d a b p 0x0d) vmaxnFn (linkOperand d) (linkOperand a) (linkOperand b) p s

/-- `VMAXN_K`: the cancelling form (R127). -/
def execVmaxnK (d a b : LReg) (p : PSel) (s : State) : Res :=
  arith (encVec 0x15 d a b p 0x3b) vmaxnFn (linkOperand d) (linkOperand a) (linkOperand b) p s

/-- F of `vand` (R112): a AND b. -/
def vandFn : VFunction := bitwise fun a b => a &&& b

/-- `VAND`: the register form. -/
def execVand (d a b : VReg) (p : PSel) (s : State) : Res :=
  arith (encVec 0x14 d a b p 0x10) vandFn (.reg d) (.reg a) (.reg b) p s

/-- `VAND_LINK`: the link form. -/
def execVandLink (d a b : LReg) (p : PSel) (s : State) : Res :=
  arith (encVec 0x15 d a b p 0x10) vandFn (linkOperand d) (linkOperand a) (linkOperand b) p s

/-- F of `vor` (R112): a OR b. -/
def vorFn : VFunction := bitwise fun a b => a ||| b

/-- `VOR`: the register form. -/
def execVor (d a b : VReg) (p : PSel) (s : State) : Res :=
  arith (encVec 0x14 d a b p 0x11) vorFn (.reg d) (.reg a) (.reg b) p s

/-- `VOR_LINK`: the link form. -/
def execVorLink (d a b : LReg) (p : PSel) (s : State) : Res :=
  arith (encVec 0x15 d a b p 0x11) vorFn (linkOperand d) (linkOperand a) (linkOperand b) p s

/-- F of `vxor` (R112): a XOR b. -/
def vxorFn : VFunction := bitwise fun a b => a ^^^ b

/-- `VXOR`: the register form. -/
def execVxor (d a b : VReg) (p : PSel) (s : State) : Res :=
  arith (encVec 0x14 d a b p 0x12) vxorFn (.reg d) (.reg a) (.reg b) p s

/-- `VXOR_LINK`: the link form. -/
def execVxorLink (d a b : LReg) (p : PSel) (s : State) : Res :=
  arith (encVec 0x15 d a b p 0x12) vxorFn (linkOperand d) (linkOperand a) (linkOperand b) p s

/-- F of `vandn` (R112): a AND NOT b. -/
def vandnFn : VFunction := bitwise fun a b => a &&& ~~~b

/-- `VANDN`: the register form. -/
def execVandn (d a b : VReg) (p : PSel) (s : State) : Res :=
  arith (encVec 0x14 d a b p 0x13) vandnFn (.reg d) (.reg a) (.reg b) p s

/-- `VANDN_LINK`: the link form. -/
def execVandnLink (d a b : LReg) (p : PSel) (s : State) : Res :=
  arith (encVec 0x15 d a b p 0x13) vandnFn (linkOperand d) (linkOperand a) (linkOperand b) p s

/-- F of `vshl` (R112): a shifted left by the low log2(EW) bits of b. -/
def vshlFn : VFunction := int2 fun {w} a b => a <<< (b.toNat % w)

/-- `VSHL`: the register form. -/
def execVshl (d a b : VReg) (p : PSel) (s : State) : Res :=
  arith (encVec 0x14 d a b p 0x14) vshlFn (.reg d) (.reg a) (.reg b) p s

/-- `VSHL_LINK`: the link form. -/
def execVshlLink (d a b : LReg) (p : PSel) (s : State) : Res :=
  arith (encVec 0x15 d a b p 0x14) vshlFn (linkOperand d) (linkOperand a) (linkOperand b) p s

/-- F of `vshr` (R112): a shifted right, logical. -/
def vshrFn : VFunction := int2 fun {w} a b => a >>> (b.toNat % w)

/-- `VSHR`: the register form. -/
def execVshr (d a b : VReg) (p : PSel) (s : State) : Res :=
  arith (encVec 0x14 d a b p 0x15) vshrFn (.reg d) (.reg a) (.reg b) p s

/-- `VSHR_LINK`: the link form. -/
def execVshrLink (d a b : LReg) (p : PSel) (s : State) : Res :=
  arith (encVec 0x15 d a b p 0x15) vshrFn (linkOperand d) (linkOperand a) (linkOperand b) p s

/-- F of `vsra` (R112): a shifted right, arithmetic. -/
def vsraFn : VFunction := int2 fun {w} a b => a.sshiftRight (b.toNat % w)

/-- `VSRA`: the register form. -/
def execVsra (d a b : VReg) (p : PSel) (s : State) : Res :=
  arith (encVec 0x14 d a b p 0x16) vsraFn (.reg d) (.reg a) (.reg b) p s

/-- `VSRA_LINK`: the link form. -/
def execVsraLink (d a b : LReg) (p : PSel) (s : State) : Res :=
  arith (encVec 0x15 d a b p 0x16) vsraFn (linkOperand d) (linkOperand a) (linkOperand b) p s

/-- F of `vadds` (R112): a + b clamped to the signed range. -/
def vaddsFn : VFunction := int2 fun a b => clampS (a.toInt + b.toInt)

/-- `VADDS`: the register form. -/
def execVadds (d a b : VReg) (p : PSel) (s : State) : Res :=
  arith (encVec 0x14 d a b p 0x18) vaddsFn (.reg d) (.reg a) (.reg b) p s

/-- `VADDS_LINK`: the link form. -/
def execVaddsLink (d a b : LReg) (p : PSel) (s : State) : Res :=
  arith (encVec 0x15 d a b p 0x18) vaddsFn (linkOperand d) (linkOperand a) (linkOperand b) p s

/-- F of `vaddsn` (R112): a + b clamped to the unsigned range. -/
def vaddsnFn : VFunction := int2 fun a b => clampN ((a.toNat : Int) + b.toNat)

/-- `VADDSN`: the register form. -/
def execVaddsn (d a b : VReg) (p : PSel) (s : State) : Res :=
  arith (encVec 0x14 d a b p 0x19) vaddsnFn (.reg d) (.reg a) (.reg b) p s

/-- `VADDSN_LINK`: the link form. -/
def execVaddsnLink (d a b : LReg) (p : PSel) (s : State) : Res :=
  arith (encVec 0x15 d a b p 0x19) vaddsnFn (linkOperand d) (linkOperand a) (linkOperand b) p s

/-- F of `vsubs` (R112): a − b clamped to the signed range. -/
def vsubsFn : VFunction := int2 fun a b => clampS (a.toInt - b.toInt)

/-- `VSUBS`: the register form. -/
def execVsubs (d a b : VReg) (p : PSel) (s : State) : Res :=
  arith (encVec 0x14 d a b p 0x1a) vsubsFn (.reg d) (.reg a) (.reg b) p s

/-- `VSUBS_LINK`: the link form. -/
def execVsubsLink (d a b : LReg) (p : PSel) (s : State) : Res :=
  arith (encVec 0x15 d a b p 0x1a) vsubsFn (linkOperand d) (linkOperand a) (linkOperand b) p s

/-- F of `vsubsn` (R112): a − b clamped to the unsigned range. -/
def vsubsnFn : VFunction := int2 fun a b => clampN ((a.toNat : Int) - b.toNat)

/-- `VSUBSN`: the register form. -/
def execVsubsn (d a b : VReg) (p : PSel) (s : State) : Res :=
  arith (encVec 0x14 d a b p 0x1b) vsubsnFn (.reg d) (.reg a) (.reg b) p s

/-- `VSUBSN_LINK`: the link form. -/
def execVsubsnLink (d a b : LReg) (p : PSel) (s : State) : Res :=
  arith (encVec 0x15 d a b p 0x1b) vsubsnFn (linkOperand d) (linkOperand a) (linkOperand b) p s

/-- F of `vabs` (R112): the signed absolute value. -/
def vabsFn : VFunction := int1 fun a => if a.msb then 0 - a else a

/-- `VABS`: the register form. -/
def execVabs (d a : VReg) (p : PSel) (s : State) : Res :=
  arith (encVec 0x14 d a 0 p 0x20) vabsFn (.reg d) (.reg a) .none_ p s

/-- `VABS_LINK`: the link form. -/
def execVabsLink (d a : LReg) (p : PSel) (s : State) : Res :=
  arith (encVec 0x15 d a 0 p 0x20) vabsFn (linkOperand d) (linkOperand a) .none_ p s

/-- F of `vneg` (R112): 0 − a. -/
def vnegFn : VFunction := int1 fun a => 0 - a

/-- `VNEG`: the register form. -/
def execVneg (d a : VReg) (p : PSel) (s : State) : Res :=
  arith (encVec 0x14 d a 0 p 0x21) vnegFn (.reg d) (.reg a) .none_ p s

/-- `VNEG_LINK`: the link form. -/
def execVnegLink (d a : LReg) (p : PSel) (s : State) : Res :=
  arith (encVec 0x15 d a 0 p 0x21) vnegFn (linkOperand d) (linkOperand a) .none_ p s

/-- F of `vclz` (R112): the leading zero bits. -/
def vclzFn : VFunction := int1 fun {w} a => BitVec.ofNat w (leadingZeros a)

/-- `VCLZ`: the register form. -/
def execVclz (d a : VReg) (p : PSel) (s : State) : Res :=
  arith (encVec 0x14 d a 0 p 0x22) vclzFn (.reg d) (.reg a) .none_ p s

/-- `VCLZ_LINK`: the link form. -/
def execVclzLink (d a : LReg) (p : PSel) (s : State) : Res :=
  arith (encVec 0x15 d a 0 p 0x22) vclzFn (linkOperand d) (linkOperand a) .none_ p s

/-- F of `vpopc` (R112): the one bits. -/
def vpopcFn : VFunction := int1 fun {w} a => BitVec.ofNat w (popCount a)

/-- `VPOPC`: the register form. -/
def execVpopc (d a : VReg) (p : PSel) (s : State) : Res :=
  arith (encVec 0x14 d a 0 p 0x23) vpopcFn (.reg d) (.reg a) .none_ p s

/-- `VPOPC_LINK`: the link form. -/
def execVpopcLink (d a : LReg) (p : PSel) (s : State) : Res :=
  arith (encVec 0x15 d a 0 p 0x23) vpopcFn (linkOperand d) (linkOperand a) .none_ p s

/-- F of `vcmp.eq` (R113): a = b. -/
def vcmpEqFn : VFunction := cmpInt fun a b => a == b

/-- `VCMP_EQ`: the register form. -/
def execVcmpEq (d : PReg) (a b : VReg) (p : PSel) (s : State) : Res :=
  arith (encVec 0x14 d a b p 0x28) vcmpEqFn (.pred d) (.reg a) (.reg b) p s

/-- `VCMP_EQ_LINK`: the link form. -/
def execVcmpEqLink (d : PReg) (a b : LReg) (p : PSel) (s : State) : Res :=
  arith (encVec 0x15 d a b p 0x28) vcmpEqFn (.pred d) (linkOperand a) (linkOperand b) p s

/-- `VCMP_EQ_K`: the cancelling form (R127). -/
def execVcmpEqK (d : PReg) (a b : LReg) (p : PSel) (s : State) : Res :=
  arith (encVec 0x15 d a b p 0x30) vcmpEqFn (.pred d) (linkOperand a) (linkOperand b) p s

/-- F of `vcmp.ne` (R113): a ≠ b. -/
def vcmpNeFn : VFunction := cmpInt fun a b => a != b

/-- `VCMP_NE`: the register form. -/
def execVcmpNe (d : PReg) (a b : VReg) (p : PSel) (s : State) : Res :=
  arith (encVec 0x14 d a b p 0x29) vcmpNeFn (.pred d) (.reg a) (.reg b) p s

/-- `VCMP_NE_LINK`: the link form. -/
def execVcmpNeLink (d : PReg) (a b : LReg) (p : PSel) (s : State) : Res :=
  arith (encVec 0x15 d a b p 0x29) vcmpNeFn (.pred d) (linkOperand a) (linkOperand b) p s

/-- `VCMP_NE_K`: the cancelling form (R127). -/
def execVcmpNeK (d : PReg) (a b : LReg) (p : PSel) (s : State) : Res :=
  arith (encVec 0x15 d a b p 0x31) vcmpNeFn (.pred d) (linkOperand a) (linkOperand b) p s

/-- F of `vcmp.lt` (R113): a < b, signed. -/
def vcmpLtFn : VFunction := cmpInt fun a b => a.slt b

/-- `VCMP_LT`: the register form. -/
def execVcmpLt (d : PReg) (a b : VReg) (p : PSel) (s : State) : Res :=
  arith (encVec 0x14 d a b p 0x2a) vcmpLtFn (.pred d) (.reg a) (.reg b) p s

/-- `VCMP_LT_LINK`: the link form. -/
def execVcmpLtLink (d : PReg) (a b : LReg) (p : PSel) (s : State) : Res :=
  arith (encVec 0x15 d a b p 0x2a) vcmpLtFn (.pred d) (linkOperand a) (linkOperand b) p s

/-- `VCMP_LT_K`: the cancelling form (R127). -/
def execVcmpLtK (d : PReg) (a b : LReg) (p : PSel) (s : State) : Res :=
  arith (encVec 0x15 d a b p 0x32) vcmpLtFn (.pred d) (linkOperand a) (linkOperand b) p s

/-- F of `vcmp.ge` (R113): a ≥ b, signed. -/
def vcmpGeFn : VFunction := cmpInt fun a b => !a.slt b

/-- `VCMP_GE`: the register form. -/
def execVcmpGe (d : PReg) (a b : VReg) (p : PSel) (s : State) : Res :=
  arith (encVec 0x14 d a b p 0x2b) vcmpGeFn (.pred d) (.reg a) (.reg b) p s

/-- `VCMP_GE_LINK`: the link form. -/
def execVcmpGeLink (d : PReg) (a b : LReg) (p : PSel) (s : State) : Res :=
  arith (encVec 0x15 d a b p 0x2b) vcmpGeFn (.pred d) (linkOperand a) (linkOperand b) p s

/-- `VCMP_GE_K`: the cancelling form (R127). -/
def execVcmpGeK (d : PReg) (a b : LReg) (p : PSel) (s : State) : Res :=
  arith (encVec 0x15 d a b p 0x33) vcmpGeFn (.pred d) (linkOperand a) (linkOperand b) p s

/-- F of `vcmp.ltn` (R113): a < b, unsigned. -/
def vcmpLtnFn : VFunction := cmpInt fun a b => a.ult b

/-- `VCMP_LTN`: the register form. -/
def execVcmpLtn (d : PReg) (a b : VReg) (p : PSel) (s : State) : Res :=
  arith (encVec 0x14 d a b p 0x2c) vcmpLtnFn (.pred d) (.reg a) (.reg b) p s

/-- `VCMP_LTN_LINK`: the link form. -/
def execVcmpLtnLink (d : PReg) (a b : LReg) (p : PSel) (s : State) : Res :=
  arith (encVec 0x15 d a b p 0x2c) vcmpLtnFn (.pred d) (linkOperand a) (linkOperand b) p s

/-- `VCMP_LTN_K`: the cancelling form (R127). -/
def execVcmpLtnK (d : PReg) (a b : LReg) (p : PSel) (s : State) : Res :=
  arith (encVec 0x15 d a b p 0x34) vcmpLtnFn (.pred d) (linkOperand a) (linkOperand b) p s

/-- F of `vcmp.gen` (R113): a ≥ b, unsigned. -/
def vcmpGenFn : VFunction := cmpInt fun a b => !a.ult b

/-- `VCMP_GEN`: the register form. -/
def execVcmpGen (d : PReg) (a b : VReg) (p : PSel) (s : State) : Res :=
  arith (encVec 0x14 d a b p 0x2d) vcmpGenFn (.pred d) (.reg a) (.reg b) p s

/-- `VCMP_GEN_LINK`: the link form. -/
def execVcmpGenLink (d : PReg) (a b : LReg) (p : PSel) (s : State) : Res :=
  arith (encVec 0x15 d a b p 0x2d) vcmpGenFn (.pred d) (linkOperand a) (linkOperand b) p s

/-- `VCMP_GEN_K`: the cancelling form (R127). -/
def execVcmpGenK (d : PReg) (a b : LReg) (p : PSel) (s : State) : Res :=
  arith (encVec 0x15 d a b p 0x35) vcmpGenFn (.pred d) (linkOperand a) (linkOperand b) p s

/-- F of `vsel` (R113): a where the predicate bit is one, b elsewhere, at every position below `vl`. -/
def vselFn : VFunction := { bitwise fun a _ => a with masks := false, f := fun _ _ p a b _ => (if p then a else b, {}) }

/-- `VSEL`: the register form. -/
def execVsel (d a b : VReg) (p : PSel) (s : State) : Res :=
  arith (encVec 0x14 d a b p 0x2e) vselFn (.reg d) (.reg a) (.reg b) p s

/-- `VSEL_LINK`: the link form. -/
def execVselLink (d a b : LReg) (p : PSel) (s : State) : Res :=
  arith (encVec 0x15 d a b p 0x2e) vselFn (linkOperand d) (linkOperand a) (linkOperand b) p s

end Sys2Proof.Machine
end

