-- ==== Sys2Proof/Machine/Dispatch.lean ====
section
/-! DEFINITION. Dispatch: one meaning per instruction. -/

namespace Sys2Proof.Machine

-- One arm per constructor.
def exec (i : Instr) (s : State) : Host.Outcome State Fault Refusal :=
  match i with
  | .add d a b => Sys2Proof.Machine.execAdd d a b s
  | .sub d a b => Sys2Proof.Machine.execSub d a b s
  | .mul d a b => Sys2Proof.Machine.execMul d a b s
  | .mulh d a b => Sys2Proof.Machine.execMulh d a b s
  | .mulhn d a b => Sys2Proof.Machine.execMulhn d a b s
  | .div d a b => Sys2Proof.Machine.execDiv d a b s
  | .divn d a b => Sys2Proof.Machine.execDivn d a b s
  | .rem d a b => Sys2Proof.Machine.execRem d a b s
  | .remn d a b => Sys2Proof.Machine.execRemn d a b s
  | .and d a b => Sys2Proof.Machine.execAnd d a b s
  | .or d a b => Sys2Proof.Machine.execOr d a b s
  | .xor d a b => Sys2Proof.Machine.execXor d a b s
  | .andn d a b => Sys2Proof.Machine.execAndn d a b s
  | .shl d a b => Sys2Proof.Machine.execShl d a b s
  | .shr d a b => Sys2Proof.Machine.execShr d a b s
  | .sra d a b => Sys2Proof.Machine.execSra d a b s
  | .rol d a b => Sys2Proof.Machine.execRol d a b s
  | .slt d a b => Sys2Proof.Machine.execSlt d a b s
  | .sltn d a b => Sys2Proof.Machine.execSltn d a b s
  | .min d a b => Sys2Proof.Machine.execMin d a b s
  | .max d a b => Sys2Proof.Machine.execMax d a b s
  | .minn d a b => Sys2Proof.Machine.execMinn d a b s
  | .maxn d a b => Sys2Proof.Machine.execMaxn d a b s
  | .clz d a => Sys2Proof.Machine.execClz d a s
  | .ctz d a => Sys2Proof.Machine.execCtz d a s
  | .popc d a => Sys2Proof.Machine.execPopc d a s
  | .sext d a w => Sys2Proof.Machine.execSext d a w s
  | .zext d a w => Sys2Proof.Machine.execZext d a w s
  | .sel d a b => Sys2Proof.Machine.execSel d a b s
  | .addi d a im => Sys2Proof.Machine.execAddi d a im s
  | .andi d a im => Sys2Proof.Machine.execAndi d a im s
  | .ori d a im => Sys2Proof.Machine.execOri d a im s
  | .xori d a im => Sys2Proof.Machine.execXori d a im s
  | .shli d a n => Sys2Proof.Machine.execShli d a n s
  | .shri d a n => Sys2Proof.Machine.execShri d a n s
  | .srai d a n => Sys2Proof.Machine.execSrai d a n s
  | .slti d a im => Sys2Proof.Machine.execSlti d a im s
  | .kset d h im => Sys2Proof.Machine.execKset d h im s
  | .kins d h im => Sys2Proof.Machine.execKins d h im s
  | .ld d a t o => Sys2Proof.Machine.execLd d a t o s
  | .st d a w o => Sys2Proof.Machine.execSt d a w o s
  | .amo d a b t op => Sys2Proof.Machine.execAmo d a b t op s
  | .cln a => Sys2Proof.Machine.execCln a s
  | .inv a => Sys2Proof.Machine.execInv a s
  | .beq d a o => Sys2Proof.Machine.execBeq d a o s
  | .bne d a o => Sys2Proof.Machine.execBne d a o s
  | .blt d a o => Sys2Proof.Machine.execBlt d a o s
  | .bge d a o => Sys2Proof.Machine.execBge d a o s
  | .bltn d a o => Sys2Proof.Machine.execBltn d a o s
  | .bgen d a o => Sys2Proof.Machine.execBgen d a o s
  | .jal d o => Sys2Proof.Machine.execJal d o s
  | .jalr d a im => Sys2Proof.Machine.execJalr d a im s
  | .smine d a n o => Sys2Proof.Machine.execSmine d a n o s
  | .zol a l => Sys2Proof.Machine.execZol a l s
  | .fadd d a b f => Sys2Proof.Machine.execFadd d a b f s
  | .fsub d a b f => Sys2Proof.Machine.execFsub d a b f s
  | .fmul d a b f => Sys2Proof.Machine.execFmul d a b f s
  | .ffma d a b f => Sys2Proof.Machine.execFfma d a b f s
  | .fdiv d a b f => Sys2Proof.Machine.execFdiv d a b f s
  | .fsqrt d a f => Sys2Proof.Machine.execFsqrt d a f s
  | .fmin d a b f => Sys2Proof.Machine.execFmin d a b f s
  | .fmax d a b f => Sys2Proof.Machine.execFmax d a b f s
  | .fcmp d a b f r => Sys2Proof.Machine.execFcmp d a b f r s
  | .fcvt d a dst src => Sys2Proof.Machine.execFcvt d a dst src s
  | .fmv d a f => Sys2Proof.Machine.execFmv d a f s
  | .csrr d c => Sys2Proof.Machine.execCsrr d c s
  | .csrw d c => Sys2Proof.Machine.execCsrw d c s
  | .csrs d c => Sys2Proof.Machine.execCsrs d c s
  | .csrc d c => Sys2Proof.Machine.execCsrc d c s
  | .sys n => Sys2Proof.Machine.execSys n s
  | .bkpt n => Sys2Proof.Machine.execBkpt n s
  | .eret => Sys2Proof.Machine.execEret s
  | .wfi => Sys2Proof.Machine.execWfi s
  | .fence k sc => Sys2Proof.Machine.execFence k sc s
  | .tick d => Sys2Proof.Machine.execTick d s
  | .tlbiPage d => Sys2Proof.Machine.execTlbiPage d s
  | .tlbiAsid d => Sys2Proof.Machine.execTlbiAsid d s
  | .tlbiAll d => Sys2Proof.Machine.execTlbiAll d s
  | .ifl => Sys2Proof.Machine.execIfl s
  | .ctxsv d => Sys2Proof.Machine.execCtxsv d s
  | .ctxld d => Sys2Proof.Machine.execCtxld d s
  | .flow d c => Sys2Proof.Machine.execFlow d c s
  | .setvl d a => Sys2Proof.Machine.execSetvl d a s
  | .setvt d a => Sys2Proof.Machine.execSetvt d a s
  | .settl d a => Sys2Proof.Machine.execSettl d a s
  | .vadd d a b p => Sys2Proof.Machine.execVadd d a b p s
  | .vsub d a b p => Sys2Proof.Machine.execVsub d a b p s
  | .vmul d a b p => Sys2Proof.Machine.execVmul d a b p s
  | .vmulh d a b p => Sys2Proof.Machine.execVmulh d a b p s
  | .vmulhn d a b p => Sys2Proof.Machine.execVmulhn d a b p s
  | .vmac d a b p => Sys2Proof.Machine.execVmac d a b p s
  | .vdiv d a b p => Sys2Proof.Machine.execVdiv d a b p s
  | .vdivn d a b p => Sys2Proof.Machine.execVdivn d a b p s
  | .vrem d a b p => Sys2Proof.Machine.execVrem d a b p s
  | .vremn d a b p => Sys2Proof.Machine.execVremn d a b p s
  | .vmin d a b p => Sys2Proof.Machine.execVmin d a b p s
  | .vminn d a b p => Sys2Proof.Machine.execVminn d a b p s
  | .vmax d a b p => Sys2Proof.Machine.execVmax d a b p s
  | .vmaxn d a b p => Sys2Proof.Machine.execVmaxn d a b p s
  | .vand d a b p => Sys2Proof.Machine.execVand d a b p s
  | .vor d a b p => Sys2Proof.Machine.execVor d a b p s
  | .vxor d a b p => Sys2Proof.Machine.execVxor d a b p s
  | .vandn d a b p => Sys2Proof.Machine.execVandn d a b p s
  | .vshl d a b p => Sys2Proof.Machine.execVshl d a b p s
  | .vshr d a b p => Sys2Proof.Machine.execVshr d a b p s
  | .vsra d a b p => Sys2Proof.Machine.execVsra d a b p s
  | .vadds d a b p => Sys2Proof.Machine.execVadds d a b p s
  | .vaddsn d a b p => Sys2Proof.Machine.execVaddsn d a b p s
  | .vsubs d a b p => Sys2Proof.Machine.execVsubs d a b p s
  | .vsubsn d a b p => Sys2Proof.Machine.execVsubsn d a b p s
  | .vabs d a p => Sys2Proof.Machine.execVabs d a p s
  | .vneg d a p => Sys2Proof.Machine.execVneg d a p s
  | .vclz d a p => Sys2Proof.Machine.execVclz d a p s
  | .vpopc d a p => Sys2Proof.Machine.execVpopc d a p s
  | .vcmpEq d a b p => Sys2Proof.Machine.execVcmpEq d a b p s
  | .vcmpNe d a b p => Sys2Proof.Machine.execVcmpNe d a b p s
  | .vcmpLt d a b p => Sys2Proof.Machine.execVcmpLt d a b p s
  | .vcmpGe d a b p => Sys2Proof.Machine.execVcmpGe d a b p s
  | .vcmpLtn d a b p => Sys2Proof.Machine.execVcmpLtn d a b p s
  | .vcmpGen d a b p => Sys2Proof.Machine.execVcmpGen d a b p s
  | .vsel d a b p => Sys2Proof.Machine.execVsel d a b p s
  | .vaddLink d a b p => Sys2Proof.Machine.execVaddLink d a b p s
  | .vsubLink d a b p => Sys2Proof.Machine.execVsubLink d a b p s
  | .vmulLink d a b p => Sys2Proof.Machine.execVmulLink d a b p s
  | .vmulhLink d a b p => Sys2Proof.Machine.execVmulhLink d a b p s
  | .vmulhnLink d a b p => Sys2Proof.Machine.execVmulhnLink d a b p s
  | .vmacLink d a b p => Sys2Proof.Machine.execVmacLink d a b p s
  | .vdivLink d a b p => Sys2Proof.Machine.execVdivLink d a b p s
  | .vdivnLink d a b p => Sys2Proof.Machine.execVdivnLink d a b p s
  | .vremLink d a b p => Sys2Proof.Machine.execVremLink d a b p s
  | .vremnLink d a b p => Sys2Proof.Machine.execVremnLink d a b p s
  | .vminLink d a b p => Sys2Proof.Machine.execVminLink d a b p s
  | .vminnLink d a b p => Sys2Proof.Machine.execVminnLink d a b p s
  | .vmaxLink d a b p => Sys2Proof.Machine.execVmaxLink d a b p s
  | .vmaxnLink d a b p => Sys2Proof.Machine.execVmaxnLink d a b p s
  | .vandLink d a b p => Sys2Proof.Machine.execVandLink d a b p s
  | .vorLink d a b p => Sys2Proof.Machine.execVorLink d a b p s
  | .vxorLink d a b p => Sys2Proof.Machine.execVxorLink d a b p s
  | .vandnLink d a b p => Sys2Proof.Machine.execVandnLink d a b p s
  | .vshlLink d a b p => Sys2Proof.Machine.execVshlLink d a b p s
  | .vshrLink d a b p => Sys2Proof.Machine.execVshrLink d a b p s
  | .vsraLink d a b p => Sys2Proof.Machine.execVsraLink d a b p s
  | .vaddsLink d a b p => Sys2Proof.Machine.execVaddsLink d a b p s
  | .vaddsnLink d a b p => Sys2Proof.Machine.execVaddsnLink d a b p s
  | .vsubsLink d a b p => Sys2Proof.Machine.execVsubsLink d a b p s
  | .vsubsnLink d a b p => Sys2Proof.Machine.execVsubsnLink d a b p s
  | .vabsLink d a p => Sys2Proof.Machine.execVabsLink d a p s
  | .vnegLink d a p => Sys2Proof.Machine.execVnegLink d a p s
  | .vclzLink d a p => Sys2Proof.Machine.execVclzLink d a p s
  | .vpopcLink d a p => Sys2Proof.Machine.execVpopcLink d a p s
  | .vcmpEqLink d a b p => Sys2Proof.Machine.execVcmpEqLink d a b p s
  | .vcmpNeLink d a b p => Sys2Proof.Machine.execVcmpNeLink d a b p s
  | .vcmpLtLink d a b p => Sys2Proof.Machine.execVcmpLtLink d a b p s
  | .vcmpGeLink d a b p => Sys2Proof.Machine.execVcmpGeLink d a b p s
  | .vcmpLtnLink d a b p => Sys2Proof.Machine.execVcmpLtnLink d a b p s
  | .vcmpGenLink d a b p => Sys2Proof.Machine.execVcmpGenLink d a b p s
  | .vselLink d a b p => Sys2Proof.Machine.execVselLink d a b p s
  | .vcmpEqK d a b p => Sys2Proof.Machine.execVcmpEqK d a b p s
  | .vcmpNeK d a b p => Sys2Proof.Machine.execVcmpNeK d a b p s
  | .vcmpLtK d a b p => Sys2Proof.Machine.execVcmpLtK d a b p s
  | .vcmpGeK d a b p => Sys2Proof.Machine.execVcmpGeK d a b p s
  | .vcmpLtnK d a b p => Sys2Proof.Machine.execVcmpLtnK d a b p s
  | .vcmpGenK d a b p => Sys2Proof.Machine.execVcmpGenK d a b p s
  | .vminK d a b p => Sys2Proof.Machine.execVminK d a b p s
  | .vminnK d a b p => Sys2Proof.Machine.execVminnK d a b p s
  | .vmaxK d a b p => Sys2Proof.Machine.execVmaxK d a b p s
  | .vmaxnK d a b p => Sys2Proof.Machine.execVmaxnK d a b p s
  | .vfadd d a b p => Sys2Proof.Machine.execVfadd d a b p s
  | .vfsub d a b p => Sys2Proof.Machine.execVfsub d a b p s
  | .vfmul d a b p => Sys2Proof.Machine.execVfmul d a b p s
  | .vffma d a b p => Sys2Proof.Machine.execVffma d a b p s
  | .vffms d a b p => Sys2Proof.Machine.execVffms d a b p s
  | .vfnma d a b p => Sys2Proof.Machine.execVfnma d a b p s
  | .vfdiv d a b p => Sys2Proof.Machine.execVfdiv d a b p s
  | .vfsqrt d a p => Sys2Proof.Machine.execVfsqrt d a p s
  | .vfrsqa d a p => Sys2Proof.Machine.execVfrsqa d a p s
  | .vfrcpa d a p => Sys2Proof.Machine.execVfrcpa d a p s
  | .vfexa d a p => Sys2Proof.Machine.execVfexa d a p s
  | .vflga d a p => Sys2Proof.Machine.execVflga d a p s
  | .vfmin d a b p => Sys2Proof.Machine.execVfmin d a b p s
  | .vfmax d a b p => Sys2Proof.Machine.execVfmax d a b p s
  | .vfcmpEq d a b p => Sys2Proof.Machine.execVfcmpEq d a b p s
  | .vfcmpLt d a b p => Sys2Proof.Machine.execVfcmpLt d a b p s
  | .vfcmpLe d a b p => Sys2Proof.Machine.execVfcmpLe d a b p s
  | .vfcmpUn d a b p => Sys2Proof.Machine.execVfcmpUn d a b p s
  | .vfabs d a p => Sys2Proof.Machine.execVfabs d a p s
  | .vfneg d a p => Sys2Proof.Machine.execVfneg d a p s
  | .vfsgn d a b p => Sys2Proof.Machine.execVfsgn d a b p s
  | .vfcls d a p => Sys2Proof.Machine.execVfcls d a p s
  | .vfaddLink d a b p => Sys2Proof.Machine.execVfaddLink d a b p s
  | .vfsubLink d a b p => Sys2Proof.Machine.execVfsubLink d a b p s
  | .vfmulLink d a b p => Sys2Proof.Machine.execVfmulLink d a b p s
  | .vffmaLink d a b p => Sys2Proof.Machine.execVffmaLink d a b p s
  | .vffmsLink d a b p => Sys2Proof.Machine.execVffmsLink d a b p s
  | .vfnmaLink d a b p => Sys2Proof.Machine.execVfnmaLink d a b p s
  | .vfdivLink d a b p => Sys2Proof.Machine.execVfdivLink d a b p s
  | .vfsqrtLink d a p => Sys2Proof.Machine.execVfsqrtLink d a p s
  | .vfrsqaLink d a p => Sys2Proof.Machine.execVfrsqaLink d a p s
  | .vfrcpaLink d a p => Sys2Proof.Machine.execVfrcpaLink d a p s
  | .vfexaLink d a p => Sys2Proof.Machine.execVfexaLink d a p s
  | .vflgaLink d a p => Sys2Proof.Machine.execVflgaLink d a p s
  | .vfminLink d a b p => Sys2Proof.Machine.execVfminLink d a b p s
  | .vfmaxLink d a b p => Sys2Proof.Machine.execVfmaxLink d a b p s
  | .vfcmpEqLink d a b p => Sys2Proof.Machine.execVfcmpEqLink d a b p s
  | .vfcmpLtLink d a b p => Sys2Proof.Machine.execVfcmpLtLink d a b p s
  | .vfcmpLeLink d a b p => Sys2Proof.Machine.execVfcmpLeLink d a b p s
  | .vfcmpUnLink d a b p => Sys2Proof.Machine.execVfcmpUnLink d a b p s
  | .vfminK d a b p => Sys2Proof.Machine.execVfminK d a b p s
  | .vfmaxK d a b p => Sys2Proof.Machine.execVfmaxK d a b p s
  | .vfcmpEqK d a b p => Sys2Proof.Machine.execVfcmpEqK d a b p s
  | .vfcmpLtK d a b p => Sys2Proof.Machine.execVfcmpLtK d a b p s
  | .vfcmpLeK d a b p => Sys2Proof.Machine.execVfcmpLeK d a b p s
  | .vfcmpUnK d a b p => Sys2Proof.Machine.execVfcmpUnK d a b p s
  | .vcvtH d a b => Sys2Proof.Machine.execVcvtH d a b s
  | .vcvtD d a b => Sys2Proof.Machine.execVcvtD d a b s
  | .vcvtFi d a b => Sys2Proof.Machine.execVcvtFi d a b s
  | .vcvtIf d a b => Sys2Proof.Machine.execVcvtIf d a b s
  | .vcvtQ d a b => Sys2Proof.Machine.execVcvtQ d a b s
  | .vcvtMx d a b => Sys2Proof.Machine.execVcvtMx d a b s
  | .vdeq d a b => Sys2Proof.Machine.execVdeq d a b s
  | .dlfl d => Sys2Proof.Machine.execDlfl d s
  | .vslup d a b p => Sys2Proof.Machine.execVslup d a b p s
  | .vsldn d a b p => Sys2Proof.Machine.execVsldn d a b p s
  | .vperm d a b p => Sys2Proof.Machine.execVperm d a b p s
  | .vcomp d a p => Sys2Proof.Machine.execVcomp d a p s
  | .vexp d a p => Sys2Proof.Machine.execVexp d a p s
  | .vbc d a p => Sys2Proof.Machine.execVbc d a p s
  | .vid d p => Sys2Proof.Machine.execVid d p s
  | .vmvs d a b => Sys2Proof.Machine.execVmvs d a b s
  | .vmsv d a b => Sys2Proof.Machine.execVmsv d a b s
  | .vrsum d a p => Sys2Proof.Machine.execVrsum d a p s
  | .vrosum d a p => Sys2Proof.Machine.execVrosum d a p s
  | .vrmin d a p => Sys2Proof.Machine.execVrmin d a p s
  | .vrmax d a p => Sys2Proof.Machine.execVrmax d a p s
  | .vrand d a p => Sys2Proof.Machine.execVrand d a p s
  | .vror d a p => Sys2Proof.Machine.execVror d a p s
  | .vrxor d a p => Sys2Proof.Machine.execVrxor d a p s
  | .vscan d a b p => Sys2Proof.Machine.execVscan d a b p s
  | .pand d a b => Sys2Proof.Machine.execPand d a b s
  | .por d a b => Sys2Proof.Machine.execPor d a b s
  | .pxor d a b => Sys2Proof.Machine.execPxor d a b s
  | .pandn d a b => Sys2Proof.Machine.execPandn d a b s
  | .pnot d a => Sys2Proof.Machine.execPnot d a s
  | .pset d a => Sys2Proof.Machine.execPset d a s
  | .pffs d a => Sys2Proof.Machine.execPffs d a s
  | .pcnt d a => Sys2Proof.Machine.execPcnt d a s
  | .pmvv d a => Sys2Proof.Machine.execPmvv d a s
  | .vld d a p nb t => Sys2Proof.Machine.execVld d a p nb t s
  | .vlds d a b p nb t => Sys2Proof.Machine.execVlds d a b p nb t s
  | .vldx d a b p nb t => Sys2Proof.Machine.execVldx d a b p nb t s
  | .vldsg d a n p nb t => Sys2Proof.Machine.execVldsg d a n p nb t s
  | .vldff d a p t => Sys2Proof.Machine.execVldff d a p t s
  | .vprobe d a b p => Sys2Proof.Machine.execVprobe d a b p s
  | .vst d a p nb t => Sys2Proof.Machine.execVst d a p nb t s
  | .vsts d a b p nb t => Sys2Proof.Machine.execVsts d a b p nb t s
  | .vstx d a b p nb t => Sys2Proof.Machine.execVstx d a b p nb t s
  | .vstsg d a n p nb t => Sys2Proof.Machine.execVstsg d a n p nb t s
  | .vstu d a p nb t => Sys2Proof.Machine.execVstu d a p nb t s
  | .vstxu d a b p nb t => Sys2Proof.Machine.execVstxu d a b p nb t s
  | .vamo d a b p nb op t => Sys2Proof.Machine.execVamo d a b p nb op t s
  | .bind d a b => Sys2Proof.Machine.execBind d a b s
  | .unbind d => Sys2Proof.Machine.execUnbind d s
  | .bndq d a => Sys2Proof.Machine.execBndq d a s
  | .rowpin d a => Sys2Proof.Machine.execRowpin d a s
  | .rowrel a => Sys2Proof.Machine.execRowrel a s
  | .rowq d a => Sys2Proof.Machine.execRowq d a s
  | .omcl b => Sys2Proof.Machine.execOmcl b s
  | .omrl b => Sys2Proof.Machine.execOmrl b s
  | .tld d a b => Sys2Proof.Machine.execTld d a b s
  | .mma d a b => Sys2Proof.Machine.execMma d a b s
  | .accx d a b p => Sys2Proof.Machine.execAccx d a b p s
  | .accxLink d a b p => Sys2Proof.Machine.execAccxLink d a b p s
  | .accz d => Sys2Proof.Machine.execAccz d s
  | .bar sc => Sys2Proof.Machine.execBar sc s
  | .ipost a c => Sys2Proof.Machine.execIpost a c s
  | .iwait a c => Sys2Proof.Machine.execIwait a c s
  | .sacq a sc n => Sys2Proof.Machine.execSacq a sc n s
  | .srel a sc n => Sys2Proof.Machine.execSrel a sc n s
  | .stry d a sc n => Sys2Proof.Machine.execStry d a sc n s
  | .qcnt d q => Sys2Proof.Machine.execQcnt d q s
  | .qfl q => Sys2Proof.Machine.execQfl q s
  | .tsplit d a => Sys2Proof.Machine.execTsplit d a s
  | .spawn d a => Sys2Proof.Machine.execSpawn d a s
  | .exit => Sys2Proof.Machine.execExit s
  | .yield => Sys2Proof.Machine.execYield s
  | .cpy d a b => Sys2Proof.Machine.execCpy d a b s
  | .gsp d a b p => Sys2Proof.Machine.execGsp d a b p s
  | .shp d a => Sys2Proof.Machine.execShp d a s
  | .enq a b => Sys2Proof.Machine.execEnq a b s
  | .deq d a => Sys2Proof.Machine.execDeq d a s
  | .dnode d a => Sys2Proof.Machine.execDnode d a s
  | .dgo a => Sys2Proof.Machine.execDgo a s
  | .fgo a => Sys2Proof.Machine.execFgo a s
  | .fwait => Sys2Proof.Machine.execFwait s
  | .cred d a b p op => Sys2Proof.Machine.execCred d a b p op s
  | .call d a b p op => Sys2Proof.Machine.execCall d a b p op s
  | .cgat d a b p => Sys2Proof.Machine.execCgat d a b p s
  | .csct d a b p => Sys2Proof.Machine.execCsct d a b p s
  | .cbc d a b p => Sys2Proof.Machine.execCbc d a b p s
  | .cgrp d a => Sys2Proof.Machine.execCgrp d a s
  | .cgate a => Sys2Proof.Machine.execCgate a s
  | .rwin d a b => Sys2Proof.Machine.execRwin d a b s
  | .runmap a => Sys2Proof.Machine.execRunmap a s
  | .elementGroupIssue core => Sys2Proof.Machine.execElementGroupIssue core s
  | .urgentWordAging core => Sys2Proof.Machine.execUrgentWordAging core s
  | .asyncTrapTake h => Sys2Proof.Machine.execAsyncTrapTake h s
  | .hartDeadlockDetect h => Sys2Proof.Machine.execHartDeadlockDetect h s
  | .barrierMismatchDetect t => Sys2Proof.Machine.execBarrierMismatchDetect t s
  | .barrierRelease h => Sys2Proof.Machine.execBarrierRelease h s
  | .sacqWaitComplete h => Sys2Proof.Machine.execSacqWaitComplete h s
  | .ipostWaitComplete h => Sys2Proof.Machine.execIpostWaitComplete h s
  | .iwaitWaitComplete h => Sys2Proof.Machine.execIwaitWaitComplete h s
  | .queueWaitComplete h => Sys2Proof.Machine.execQueueWaitComplete h s
  | .semaphoreRelease core n => Sys2Proof.Machine.execSemaphoreRelease core n s
  | .nbAccessPost h k => Sys2Proof.Machine.execNbAccessPost h k s
  | .slotClearComplete core n => Sys2Proof.Machine.execSlotClearComplete core n s
  | .tileClearComplete core n => Sys2Proof.Machine.execTileClearComplete core n s
  | .ringPoll pkg asid k => Sys2Proof.Machine.execRingPoll pkg asid k s
  | .distributorChoice pkg => Sys2Proof.Machine.execDistributorChoice pkg s
  | .teamPlace team places => Sys2Proof.Machine.execTeamPlace team places s
  | .tcmImageLoad team => Sys2Proof.Machine.execTcmImageLoad team s
  | .teamStart team => Sys2Proof.Machine.execTeamStart team s
  | .teamComplete team => Sys2Proof.Machine.execTeamComplete team s
  | .forcedPreemption h => Sys2Proof.Machine.execForcedPreemption h s
  | .teamPreemptComplete team => Sys2Proof.Machine.execTeamPreemptComplete team s
  | .gangStartProposal team => Sys2Proof.Machine.execGangStartProposal team s
  | .gangStartReply team pkg => Sys2Proof.Machine.execGangStartReply team pkg s
  | .gangStartRetry team => Sys2Proof.Machine.execGangStartRetry team s
  | .rtinvPage d x => Sys2Proof.Machine.execRtinvPage d x s
  | .rtinvAsid d x => Sys2Proof.Machine.execRtinvAsid d x s
  | .rtinvAll d x => Sys2Proof.Machine.execRtinvAll d x s
  | .leaseBounce die ch => Sys2Proof.Machine.execLeaseBounce die ch s
  | .stripReadAhead h k => Sys2Proof.Machine.execStripReadAhead h k s
  | .fifeWord core => Sys2Proof.Machine.execFifeWord core s
  | .cpyqPush h core x => Sys2Proof.Machine.execCpyqPush h core x s
  | .dgqPush h core x => Sys2Proof.Machine.execDgqPush h core x s
  | .cresPop core => Sys2Proof.Machine.execCresPop core s
  | .qpPush h q x => Sys2Proof.Machine.execQpPush h q x s
  | .qpPop h q => Sys2Proof.Machine.execQpPop h q s
  | .qceChunk quad => Sys2Proof.Machine.execQceChunk quad s
  | .copyComplete core => Sys2Proof.Machine.execCopyComplete core s
  | .softError h struct_ => Sys2Proof.Machine.execSoftError h struct_ s
  | .partFailure kind part => Sys2Proof.Machine.execPartFailure kind part s
  | .powerLimitApplied pkg => Sys2Proof.Machine.execPowerLimitApplied pkg s
  | .dernyRead f => Sys2Proof.Machine.execDernyRead f s
  | .dernyWrite f => Sys2Proof.Machine.execDernyWrite f s
  | .dernyAtomic f => Sys2Proof.Machine.execDernyAtomic f s
  | .dernyReadResponse f => Sys2Proof.Machine.execDernyReadResponse f s
  | .dernyWriteResponse f => Sys2Proof.Machine.execDernyWriteResponse f s
  | .dernyAck f => Sys2Proof.Machine.execDernyAck f s
  | .dernyNack f => Sys2Proof.Machine.execDernyNack f s
  | .dernyCredit f => Sys2Proof.Machine.execDernyCredit f s
  | .dernyTimeLaunch f => Sys2Proof.Machine.execDernyTimeLaunch f s
  | .dernyManagement f => Sys2Proof.Machine.execDernyManagement f s
  | .flitResendTimeout src dst c => Sys2Proof.Machine.execFlitResendTimeout src dst c s
  | .pcnxWrite pkg port x => Sys2Proof.Machine.execPcnxWrite pkg port x s
  | .podBankReady pkg => Sys2Proof.Machine.execPodBankReady pkg s
  | .pcswWrite pkg x => Sys2Proof.Machine.execPcswWrite pkg x s
  | .podStepSwitch pkg => Sys2Proof.Machine.execPodStepSwitch pkg s
  | .packageRemovalRecognised pkg gone => Sys2Proof.Machine.execPackageRemovalRecognised pkg gone s
  | .packageResponseTimeout pkg gone => Sys2Proof.Machine.execPackageResponseTimeout pkg gone s
  | .collectiveInstanceComplete h => Sys2Proof.Machine.execCollectiveInstanceComplete h s
  | .collRingPoll pkg asid k => Sys2Proof.Machine.execCollRingPoll pkg asid k s
  | .collRequestComplete gid tag seq => Sys2Proof.Machine.execCollRequestComplete gid tag seq s
  | .ulPause d m x => Sys2Proof.Machine.execUlPause d m x s
  | .ulRetrain d m x => Sys2Proof.Machine.execUlRetrain d m x s
  | .ulResume d m x => Sys2Proof.Machine.execUlResume d m x s
  | .ulPauseDone d m => Sys2Proof.Machine.execUlPauseDone d m s
  | .ulRetrainDone d m failT failR => Sys2Proof.Machine.execUlRetrainDone d m failT failR s
  | .ulRetryThreshold d m => Sys2Proof.Machine.execUlRetryThreshold d m s
  | .ulPacketFallback d m => Sys2Proof.Machine.execUlPacketFallback d m s
  | .portLaneSpare pkg p lane => Sys2Proof.Machine.execPortLaneSpare pkg p lane s
  | .portDown pkg p => Sys2Proof.Machine.execPortDown pkg p s
  | .hostLinkDown pkg => Sys2Proof.Machine.execHostLinkDown pkg s
  | .hostLinkUp pkg => Sys2Proof.Machine.execHostLinkUp pkg s
  | .wavelengthFail d g w => Sys2Proof.Machine.execWavelengthFail d g w s
  | .wavelengthPark d g w => Sys2Proof.Machine.execWavelengthPark d g w s
  | .wavelengthWake d g w => Sys2Proof.Machine.execWavelengthWake d g w s
  | .chanterWatchdogExpiry d => Sys2Proof.Machine.execChanterWatchdogExpiry d s
  | .chanterReboot d => Sys2Proof.Machine.execChanterReboot d s
  | .hostRequest pkg kind op a x y => Sys2Proof.Machine.execHostRequest pkg kind op a x y s
  | .endpointRequest die stack by_ unit asid write ch line x => Sys2Proof.Machine.execEndpointRequest die stack by_ unit asid write ch line x s
  | .burupLockstepMismatch pkg => Sys2Proof.Machine.execBurupLockstepMismatch pkg s
  | .burupReloadComplete pkg => Sys2Proof.Machine.execBurupReloadComplete pkg s
  | .patrolScrubLine die ch line found => Sys2Proof.Machine.execPatrolScrubLine die ch line found s
  | .keyRotationStart pkg => Sys2Proof.Machine.execKeyRotationStart pkg s
  | .rowRepair die ch bank row => Sys2Proof.Machine.execRowRepair die ch bank row s
  | .checkpointStart pkg x => Sys2Proof.Machine.execCheckpointStart pkg x s
  | .restoreStart pkg x => Sys2Proof.Machine.execRestoreStart pkg x s
  | .ckctlOperationEnd pkg served => Sys2Proof.Machine.execCkctlOperationEnd pkg served s
  | .packageReset pkg => Sys2Proof.Machine.execPackageReset pkg s
  | .bringupStep pkg => Sys2Proof.Machine.execBringupStep pkg s
  | .getVersion pkg => Sys2Proof.Machine.execGetVersion pkg s
  | .getCapabilities pkg => Sys2Proof.Machine.execGetCapabilities pkg s
  | .negotiateAlgorithms pkg => Sys2Proof.Machine.execNegotiateAlgorithms pkg s
  | .getDigests pkg => Sys2Proof.Machine.execGetDigests pkg s
  | .getCertificate pkg => Sys2Proof.Machine.execGetCertificate pkg s
  | .challenge pkg => Sys2Proof.Machine.execChallenge pkg s
  | .getMeasurements pkg => Sys2Proof.Machine.execGetMeasurements pkg s
  | .zoneSensorSample pkg z flow dp temp => Sys2Proof.Machine.execZoneSensorSample pkg z flow dp temp s
  | .dryDetect pkg z => Sys2Proof.Machine.execDryDetect pkg z s
  | .dryClear pkg z => Sys2Proof.Machine.execDryClear pkg z s
  | .zoneMoveComplete pkg z => Sys2Proof.Machine.execZoneMoveComplete pkg z s
  | .flcapWrite pkg x => Sys2Proof.Machine.execFlcapWrite pkg x s
  | .zthrWrite pkg z x => Sys2Proof.Machine.execZthrWrite pkg z x s
  | .zstEvClear pkg z x => Sys2Proof.Machine.execZstEvClear pkg z x s
  | .flowGrant team => Sys2Proof.Machine.execFlowGrant team s
  | .evacuationStart a => Sys2Proof.Machine.execEvacuationStart a s
  | .evacuationPhaseEnd pkg => Sys2Proof.Machine.execEvacuationPhaseEnd pkg s
  | .registerWrite d off x => Sys2Proof.Machine.execRegisterWrite d off x s
  | .illegalInstruction w => Sys2Proof.Machine.execIllegalInstruction w s
  | .fetchFault => Sys2Proof.Machine.execFetchFault s
  | .linkLevelRetry d m dir lane => Sys2Proof.Machine.execLinkLevelRetry d m dir lane s
  | .laneErrorDetected pkg p => Sys2Proof.Machine.execLaneErrorDetected pkg p s
  | .portRetrainComplete pkg p => Sys2Proof.Machine.execPortRetrainComplete pkg p s

end Sys2Proof.Machine
end

