-- ==== Sys2Proof/Machine/Step.lean ====
section
/-! DEFINITION. One step: the head of the agenda, or else the hart whose turn it is runs its next word. Noncomputable
only because it builds instructions (see Decode). -/

noncomputable section

namespace Sys2Proof.Machine

/-- The hart whose turn it is stands still: its context is free (R23), a forced pre-emption has stopped it (R311), or the clocks
of its package have stopped for an evacuation (R417). -/
def State.still (s : State) : Bool := !s.hart.placed || s.hart.stopped || s.clocksStopped (pkgOf s.hart.pos)

/-- The hart whose turn it is runs the word at `pc`, unless it stands still: fetch, decode, execute. -/
def runHart (s : State) : Host.Outcome State Fault Refusal :=
  if s.still then .next s
  else
    match s.fetch with
    | .error _ => exec .fetchFault s
    | .ok (w, s) =>
      match decode w with
      | .ok i => exec i s
      | .error _ => exec (.illegalInstruction w) s

/-- One step of the pod. The agenda says whose turn is next or what reaches the machine; with an empty agenda the hart
whose turn it is goes on. -/
def step (s : State) : Host.Outcome State Fault Refusal :=
  match s.agenda with
  | [] => runHart { s with stop := none }
  | .hart h :: rest => runHart ({ s with agenda := rest, stop := none }.select h)
  | .group h n :: rest => runHart ({ s with agenda := rest, stop := some n }.select h)
  | .front h :: rest => .next ({ s with agenda := rest, stop := none }.runFront h)
  | .event i :: rest => exec i { s with agenda := rest, stop := none }

/-- Where `withFetchWord` places the program: offset 0 of the TCM of core 0, die 0, package 0. -/
def fetchBase : Word := 0x0006300000000000

/-- A state whose next step runs the given word: package 0 is present, hart 0 of its core 0 runs at a TCM page that its lane
TLB bank maps, and the word stands there. It stands for a launch from outside (log entry 6). -/
def State.withFetchWord (s : State) (_nbits w : Nat) : State :=
  let h := { s.hart with run := .running, pos := 0, pc := fetchBase, ibuf := [] }
  let page : TlbEntry := { asid := { s with hart := h }.asid, unit := 99, level := 3, page := 0, frame := 0,
                           r := true, w := true, x := true }
  let s := { s with hart := h, agenda := [] }.setReg (ioDie 0) 0x80008 (s.reg (ioDie 0) 0x80008 ||| 1)
  let s := (if s.clocksStopped 0 then s.setReg (ioDie 0) 0xE4010 0 else s).setCore 0 { s.core 0 with tlb := (s.core 0).tlb.put 0 [page] }
  s.store ((List.range 4).map (fetchBase.toNat + ·)) (natToBytes 4 w)

end Sys2Proof.Machine

end
end

