-- ==== Sys2Proof/Safety.lean ====
section
/-! DEFINITION. The terms in which claims are stated: what a step answers, what it leaves alone, and when a word runs
without a trap or a wait. -/

namespace Sys2Proof.Machine

/-! ### What a step answers -/

/-- The instruction completes in a state `t`. -/
abbrev Runs (i : Instr) (s t : State) : Prop := exec i s = .next t

/-- The instruction writes one scalar register, and retires. -/
abbrev Writes (i : Instr) (s : State) (d : SReg) (v : Word) : Prop := exec i s = .next (s.setS d v).advance

/-- The instruction traps: it has no other effect (R301). -/
abbrev Traps (i : Instr) (s : State) (cause : BitVec 10) (tval : Word) : Prop := exec i s = .next (s.trap cause tval)

/-! ### What stays -/

/-- Two states differ in nothing but the context of the hart whose turn it is: the other harts, every core, die, package
and team, memory and the device registers are as they were. -/
abbrev OnlyHart (s t : State) : Prop := t = { s with hart := t.hart }

/-- Two contexts of a hart differ in nothing but the scalar registers, `pc`, the run state, the loop state and how far the
front end is ahead. -/
abbrev OnlyScalars (h k : Hart) : Prop := k = { h with s := k.s, pc := k.pc, run := k.run, zol := k.zol, front := k.front }

/-- Every byte of memory reads as before. -/
abbrev SameBytes (s t : State) : Prop := ∀ k, t.byte k = s.byte k

/-- Two states differ in nothing but contexts of harts, and the turn is the same hart's. -/
abbrev OnlyContexts (s t : State) : Prop :=
  t = { s with hart := t.hart, parked := t.parked } ∧ t.hart.pos = s.hart.pos

/-- Every hart context but one is as it was. -/
abbrev OthersStay (s t : State) (h : HartId) : Prop := ∀ q, q ≠ h → t.hartAt q = s.hartAt q

/-- No two contexts of the state stand at one position. -/
abbrev State.distinct (s : State) : Prop := (s.harts.map Hart.pos).Nodup

/-- Trap entry (R301): `y` is the context `x` as it stands at its handler. A wait's arrival is withdrawn; the pending
causes are said apart. -/
abbrev Entered (x y : Hart) (cause : BitVec 10) (tval : Word) (asyn : Bool) : Prop :=
  y = { x with
    run := .running, tepc := x.pc, tcause := cause, tval := tval, nest := x.hs, phs := x.hs, asy := asyn, hs := true
    zol := { x.zol with sav := x.zol.act, act := false }, pc := x.tvec, front := {}, coll := y.coll, pending := y.pending }

/-- A further trap of the hart would be a double fault (R304). -/
abbrev Hart.atHandler (h : Hart) : Prop := h.nest = true ∧ h.pc = h.tvec

/-- Every team stands in the table under its own identity. -/
abbrev State.teamsKeyed (s : State) : Prop := ∀ x ∈ s.teams, x.1 = x.2.id.toNat

/-- The word at `pc` is the last word of the body of an active loop (R93). -/
abbrev Hart.atPassEnd (h : Hart) : Prop := h.zol.act = true ∧ h.pc = h.zol.zlb + 4 * h.zol.len.setWidth 64

/-- The register is a pointer that the hart's loop advances at a pass end (R93). -/
abbrev Hart.loopPointer (h : Hart) (r : SReg) : Prop :=
  h.atPassEnd ∧ ∃ j, j < bits (wordAt h.zol.nest 0) 8 3 ∧ r = BitVec.ofNat 5 (bits (wordAt h.zol.nest 0) 3 5 + j)

/-- What a vector word leaves alone: everything but the hart; of the hart, everything but the vector registers listed,
the predicate registers listed, the scalar registers listed, `fcsr`, `vix`, `pc` and what a pass end changes. -/
abbrev KeepsBut (s t : State) (vs ps ss : List Nat) : Prop :=
  OnlyHart s t ∧
  t.hart = { s.hart with
    s := t.hart.s, v := t.hart.v, p := t.hart.p, fcsr := t.hart.fcsr, vix := t.hart.vix, pc := t.hart.pc
    run := t.hart.run, zol := t.hart.zol, front := t.hart.front } ∧
  (∀ r, r.toNat ∉ ss → ¬ s.hart.loopPointer r → t.getS r = s.getS r) ∧
  (∀ r, r.toNat ∉ vs → t.getV r = s.getV r) ∧ (∀ p, p.toNat ∉ ps → t.getP p = s.getP p)

/-! ### When a word runs without a trap or a wait -/

/-- The rounding mode of scalar floating point is no reserved one (R17). -/
abbrev State.roundable (s : State) : Prop := s.hart.fcsrRm.toNat < 5

/-- The word at `pc` lies in no active loop body (R94). -/
abbrev State.outsideLoop (s : State) : Prop := s.hart.inBody = false

/-- A grant point passes (R26, R89, R106): no outstanding non-blocking access, no live digit link, no request to
pre-empt in program state. -/
abbrev State.grantable (s : State) : Prop :=
  s.hart.nb = [] ∧ (∀ k : Fin 8, s.hart.dl[k] = none) ∧ (s.hart.prq = false ∨ s.hart.hs = true)

/-- A scalar access passes its checks (R87): it is aligned, it reaches a place, and the state may gain a translation. -/
abbrev State.reaches (s : State) (acc : Acc) (a : Word) (n : Nat) (p : Place) (t : State) : Prop :=
  a.toNat % n = 0 ∧ s.check (s.scalarHow acc) a n = .ok (p, t)

/-- A scalar access passes its checks, and no outstanding non-blocking access of the hart comes before it at a byte (R251). -/
abbrev State.passes (s : State) (acc : Acc) (a : Word) (n : Nat) (p : Place) (t : State) : Prop :=
  s.reaches acc a n p t ∧ s.afterNb s.hart.nb acc p.keys = false

/-- No line that holds one of the bytes is poisoned (R308). -/
abbrev State.sound (s : State) (p : Place) : Prop := s.poisonCause p.keys = none

/-- A vector word runs from its first position to its end, on the registers it names: no binding and no queue stands for
a register, no non-blocking access is outstanding, the turn is not cut short, the type is legal and the length fits it,
no reserved rounding mode is held, and `xlm` selects nothing. -/
abbrev State.vectorReady (s : State) : Prop :=
  s.hart.b = Vector.replicate 8 none ∧ (∀ k < 4, s.hart.mapped k = false) ∧ s.hart.nb = [] ∧ s.stop = none ∧
  bit s.hart.vty 63 = false ∧ vtyLegal s.hart.vty = true ∧ s.hart.vl.toNat ≤ s.vtype.vlmax ∧ s.rmReserved = false ∧
  s.hart.selA = false ∧ s.hart.selB = false ∧ bit s.hart.xlm 63 = false ∧ s.hart.vix = 0

/-- A vector word runs on the registers it names: as `vectorReady` says, but that it may go on from `vix`, be cut short, and
read through `xlm`. -/
abbrev State.vectorRuns (s : State) : Prop :=
  s.hart.b = Vector.replicate 8 none ∧ (∀ k < 4, s.hart.mapped k = false) ∧ s.hart.nb = [] ∧
  bit s.hart.vty 63 = false ∧ vtyLegal s.hart.vty = true ∧ s.hart.vl.toNat ≤ s.vtype.vlmax ∧ s.rmReserved = false ∧
  bit s.hart.xlm 63 = false ∧ s.hart.vix.toNat ≤ s.hart.vl.toNat

/-- A register can begin a group of the current type: aligned (R11), and below 32. -/
abbrev State.groupOk (s : State) (r : BitVec 5) : Prop := r.toNat % s.vtype.gf = 0

end Sys2Proof.Machine
end

