-- ==== Sys2Proof/Certificates/Slice0/Obligations.lean ====
section
/-! DEFINITION. The statements. A statement that covers several rules is the conjunction of its clauses, each a
definition of its own under `Sys2Proof.Rules`. -/

open Sys2Proof Sys2Proof.Machine

/-! ### Scalar registers and retirement -/

/-- R10, R79: a scalar register written reads back, every other keeps its value, and `s0` reads zero and discards. -/
def Sys2Proof.Rules.ScalarRegisterReadsBack : Prop :=
  ∀ (s : State) (d r : SReg) (x : Word),
    s.getS 0 = 0 ∧ s.setS 0 x = s ∧ (s.setS d x).getS r = if r = d ∧ d ≠ 0 then x else s.getS r

/-- R88, R93: outside a pass end the word retires at `pc` + 4; at a pass end the pass is counted, and the nest ends after
the word or every pointer advances by the stride of the least dimension that is not complete and the body repeats. -/
def Obligations.RetirementCountsPasses : Prop :=
  ∀ (s : State), let h := s.hart; let t := s.advance; let z := h.zol
    let rec0 := wordAt z.nest 0
    let nd := bits rec0 0 3
    let product (n : Nat) : Nat := ((List.range n).map fun i => bits (wordAt z.nest (1 + i)) 0 32).foldl (· * ·) 1
    let pass := z.pass + 1
    OnlyHart s t ∧
    (¬ h.atPassEnd → t.hart = { h with run := .running, pc := h.pc + 4, front := h.front.passed }) ∧
    (h.atPassEnd → z.nest.length = 8 → nd ≤ 6 → bits rec0 3 5 + bits rec0 8 3 ≤ 32 →
      (pass.toNat = product nd →
        t.hart = { h with run := .running, zol := { z with pass := pass, act := false }, pc := z.zlb + 4 * (z.len.setWidth 64 + 1), front := h.front.passed }) ∧
      (pass.toNat ≠ product nd → ∀ d < nd, pass.toNat % product (d + 1) ≠ 0 → (∀ e < d, pass.toNat % product (e + 1) = 0) →
        t.hart = { h with run := .running, s := t.hart.s, zol := { z with pass := pass }, pc := z.zlb, front := h.front.passed } ∧
        ∀ r : SReg, t.getS r =
          if r ≠ 0 ∧ bits rec0 3 5 ≤ r.toNat ∧ r.toNat < bits rec0 3 5 + bits rec0 8 3 then
            s.getS r + ((wordAt z.nest (1 + d) >>> 32).setWidth 32).signExtend 64
          else s.getS r))

/-! ### Scalar arithmetic (R78 to R81) -/

/-- R78, with R28 for the divisions: every function of major 0x01, its result in `s[D]`. -/
def Sys2Proof.Rules.AluRegisterResults : Prop :=
  ∀ (s : State) (d a b : SReg), let x := s.getS a; let y := s.getS b; let n := y.toNat % 64
    Writes (.add d a b) s d (x + y) ∧
    Writes (.sub d a b) s d (x - y) ∧
    Writes (.mul d a b) s d (BitVec.ofNat 64 (x.toNat * y.toNat)) ∧
    Writes (.mulh d a b) s d ((x.signExtend 128 * y.signExtend 128).extractLsb' 64 64) ∧
    Writes (.mulhn d a b) s d ((x.setWidth 128 * y.setWidth 128).extractLsb' 64 64) ∧
    Writes (.div d a b) s d (if y = 0 then BitVec.allOnes 64 else BitVec.ofInt 64 (x.toInt.tdiv y.toInt)) ∧
    Writes (.divn d a b) s d (if y = 0 then BitVec.allOnes 64 else BitVec.ofNat 64 (x.toNat / y.toNat)) ∧
    Writes (.rem d a b) s d (if y = 0 then x else BitVec.ofInt 64 (x.toInt.tmod y.toInt)) ∧
    Writes (.remn d a b) s d (if y = 0 then x else BitVec.ofNat 64 (x.toNat % y.toNat)) ∧
    Writes (.and d a b) s d (x &&& y) ∧
    Writes (.or d a b) s d (x ||| y) ∧
    Writes (.xor d a b) s d (x ^^^ y) ∧
    Writes (.andn d a b) s d (x &&& ~~~y) ∧
    Writes (.shl d a b) s d (BitVec.ofNat 64 (x.toNat * 2 ^ n)) ∧
    Writes (.shr d a b) s d (BitVec.ofNat 64 (x.toNat / 2 ^ n)) ∧
    Writes (.sra d a b) s d (BitVec.ofInt 64 (x.toInt / 2 ^ n)) ∧
    Writes (.rol d a b) s d ((x <<< n) ||| (x >>> (64 - n))) ∧
    Writes (.slt d a b) s d (if x.toInt < y.toInt then 1 else 0) ∧
    Writes (.sltn d a b) s d (if x.toNat < y.toNat then 1 else 0) ∧
    Writes (.min d a b) s d (if x.toInt ≤ y.toInt then x else y) ∧
    Writes (.max d a b) s d (if x.toInt ≤ y.toInt then y else x) ∧
    Writes (.minn d a b) s d (if x.toNat ≤ y.toNat then x else y) ∧
    Writes (.maxn d a b) s d (if x.toNat ≤ y.toNat then y else x) ∧
    (∃ k ≤ 64, Writes (.clz d a) s d (BitVec.ofNat 64 k) ∧ x.toNat < 2 ^ (64 - k) ∧ (k < 64 → 2 ^ (63 - k) ≤ x.toNat)) ∧
    (∃ k ≤ 64, Writes (.ctz d a) s d (BitVec.ofNat 64 k) ∧ x.toNat % 2 ^ k = 0 ∧ (k < 64 → x.getLsbD k = true)) ∧
    Writes (.popc d a) s d (BitVec.ofNat 64 ((List.range 64).filter x.getLsbD).length) ∧
    Writes (.sext d a .w8) s d ((x.setWidth 8).signExtend 64) ∧
    Writes (.sext d a .w16) s d ((x.setWidth 16).signExtend 64) ∧
    Writes (.sext d a .w32) s d ((x.setWidth 32).signExtend 64) ∧
    Writes (.zext d a .w8) s d (x &&& 0xFF) ∧
    Writes (.zext d a .w16) s d (x &&& 0xFFFF) ∧
    Writes (.zext d a .w32) s d (x &&& 0xFFFFFFFF) ∧
    Writes (.sel d a b) s d (if s.getS d ≠ 0 then x else y)

/-- R80, R81: the immediate, shift and constant majors. -/
def Sys2Proof.Rules.ImmediateResults : Prop :=
  ∀ (s : State) (d a : SReg) (i : BitVec 16) (n : BitVec 6) (h : BitVec 2), let x := s.getS a
    Writes (.addi d a i) s d (x + i.signExtend 64) ∧
    Writes (.andi d a i) s d (x &&& i.signExtend 64) ∧
    Writes (.ori d a i) s d (x ||| i.setWidth 64) ∧
    Writes (.xori d a i) s d (x ^^^ i.setWidth 64) ∧
    Writes (.slti d a i) s d (if x.toInt < i.toInt then 1 else 0) ∧
    Writes (.shli d a n) s d (BitVec.ofNat 64 (x.toNat * 2 ^ n.toNat)) ∧
    Writes (.shri d a n) s d (BitVec.ofNat 64 (x.toNat / 2 ^ n.toNat)) ∧
    Writes (.srai d a n) s d (BitVec.ofInt 64 (x.toInt / 2 ^ n.toNat)) ∧
    Writes (.kset d h i) s d (BitVec.ofNat 64 (i.toNat * 2 ^ (16 * h.toNat))) ∧
    ∃ v : Word, Writes (.kins d h i) s d v ∧ ∀ k < 64,
      v.getLsbD k = if k / 16 = h.toNat then i.getLsbD (k % 16) else (s.getS d).getLsbD k

/-! ### Scalar floating point (R95, R96) -/

/-- The word writes its rounded result, zero-extended, and ORs its flags into `fcsr`. -/
abbrev Sys2Proof.Machine.WritesFp (i : Instr) (s : State) (d : SReg) (r : Nat × Flags) : Prop :=
  exec i s = .next ({ s.setS d (BitVec.ofNat 64 r.1) with
    hart := { (s.setS d (BitVec.ofNat 64 r.1)).hart with fcsr := s.hart.fcsr ||| r.2.bits } }).advance

/-- R95, R96: scalar floating point, under a rounding mode that is not reserved: the operands are the low bits of their
registers, the result is rounded once in `fcsr.RM` and zero-extended, and `fmv` moves bits without flags. -/
def Sys2Proof.Rules.ScalarFloatResults : Prop :=
  ∀ (s : State) (d a b : SReg) (f : FFmt) (r : FRel) (dst src : CvtTy), s.roundable →
    let x := scalarFmt f
    let rm := s.scalarRm
    let num (q : SReg) : FpNum := x.decode ((s.getS q).toNat % 2 ^ x.width)
    let code (q : SReg) : Nat := (s.getS q).toNat % 2 ^ x.width
    WritesFp (.fadd d a b f) s d (x.round rm ((num a).add rm (num b))) ∧
    WritesFp (.fsub d a b f) s d (x.round rm ((num a).add rm (num b).neg)) ∧
    WritesFp (.fmul d a b f) s d (x.round rm ((num a).mul (num b))) ∧
    WritesFp (.fdiv d a b f) s d (x.round rm ((num a).div (num b))) ∧
    WritesFp (.ffma d a b f) s d (x.round rm (FpNum.fma rm (num a) (num b) (num d))) ∧
    WritesFp (.fsqrt d a f) s d (x.round rm (num a).sqrt) ∧
    WritesFp (.fmin d a b f) s d (x.extremum true (code a) (code b)) ∧
    WritesFp (.fmax d a b f) s d (x.extremum false (code a) (code b)) ∧
    (let c := x.compare r (code a) (code b); WritesFp (.fcmp d a b f r) s d (if c.1 then 1 else 0, c.2)) ∧
    WritesFp (.fcvt d a dst src) s d (cvtResult rm (s.cvtSource a src) dst) ∧
    WritesFp (.fmv d a f) s d (code a, {})

/-- R17, R52, R95: under a reserved `fcsr.RM` each word of major 0x11 traps with 0x045, its word in `tval`. -/
def Sys2Proof.Rules.ReservedRoundingTraps : Prop :=
  ∀ (s : State) (i : Instr) (w : BitVec 32), ¬ s.roundable → encode i = some w → majorOf w = 0x11 →
    Traps i s 0x045 (w.setWidth 64)

/-- R30, R95, R96 and the flags of R33: of FP64 words, on exact values: 1.5 + 2.25, 1 / 0, 0 × ∞, and the conversion of a
NaN and of a number out of range. -/
def Sys2Proof.Rules.FloatCorners : Prop :=
  let rm := Rounding.nearestEven
  let v (x : Nat) : FpNum := fp64.decode x
  fp64.round rm ((v 0x3FF8000000000000).add rm (v 0x4002000000000000)) = (0x400E000000000000, {}) ∧
  fp64.round rm ((v 0x3FF0000000000000).div (v 0)) = (0x7FF0000000000000, { dz := true }) ∧
  fp64.round rm ((v 0).mul (v 0x7FF0000000000000)) = (0x7FF8000000000000, { nv := true }) ∧
  cvtResult rm { num := v 0x7FF8000000000000 } .i64 = (0, { nv := true }) ∧
  cvtResult rm { num := v 0x43F0000000000000 } .i64 = (2 ^ 63 - 1, { nv := true }) ∧
  fp64.compare .lt 0x8000000000000000 0 = (false, {})

/-! ### The frame of a scalar word -/

/-- The destination of a scalar word that writes one scalar register and no memory. -/
def Sys2Proof.Machine.scalarDest : Instr → Option SReg
  | .add d _ _ | .sub d _ _ | .mul d _ _ | .mulh d _ _ | .mulhn d _ _ | .div d _ _ | .divn d _ _ | .rem d _ _
  | .remn d _ _ | .and d _ _ | .or d _ _ | .xor d _ _ | .andn d _ _ | .shl d _ _ | .shr d _ _ | .sra d _ _
  | .rol d _ _ | .slt d _ _ | .sltn d _ _ | .min d _ _ | .max d _ _ | .minn d _ _ | .maxn d _ _ | .clz d _
  | .ctz d _ | .popc d _ | .sext d _ _ | .zext d _ _ | .sel d _ _ | .addi d _ _ | .andi d _ _ | .ori d _ _
  | .xori d _ _ | .shli d _ _ | .shri d _ _ | .srai d _ _ | .slti d _ _ | .kset d _ _ | .kins d _ _ => some d
  | _ => none

/-- The destination of a scalar floating-point word. -/
def Sys2Proof.Machine.floatDest : Instr → Option SReg
  | .fadd d _ _ _ | .fsub d _ _ _ | .fmul d _ _ _ | .ffma d _ _ _ | .fdiv d _ _ _ | .fsqrt d _ _ | .fmin d _ _ _
  | .fmax d _ _ _ | .fcmp d _ _ _ _ | .fcvt d _ _ _ | .fmv d _ _ => some d
  | _ => none

/-- R79: the frame of majors 0x01 to 0x08: only `s[D]`, `pc` and what a pass end changes; no flag, no other register, no
byte of memory. -/
def Sys2Proof.Rules.ScalarArithmeticFrame : Prop :=
  ∀ (i : Instr) (d : SReg) (s t : State), scalarDest i = some d → Runs i s t →
    OnlyHart s t ∧ OnlyScalars s.hart t.hart ∧ SameBytes s t ∧
    t.hart.zol = { s.hart.zol with act := t.hart.zol.act, pass := t.hart.zol.pass } ∧
    ∀ r, r ≠ d → ¬ s.hart.loopPointer r → t.getS r = s.getS r

/-- R35, R95: the frame of major 0x11, when the rounding mode is not reserved: as majors 0x01 to 0x08, and `fcsr` keeps
RM and every flag that is set. -/
def Sys2Proof.Rules.ScalarFloatFrame : Prop :=
  ∀ (i : Instr) (d : SReg) (s t : State), floatDest i = some d → s.roundable → Runs i s t →
    OnlyHart s t ∧ SameBytes s t ∧
    t.hart = { s.hart with s := t.hart.s, pc := t.hart.pc, run := t.hart.run, zol := t.hart.zol, fcsr := t.hart.fcsr, front := t.hart.front } ∧
    t.hart.zol = { s.hart.zol with act := t.hart.zol.act, pass := t.hart.zol.pass } ∧
    (∀ k < 11, s.hart.fcsr.getLsbD k = true → t.hart.fcsr.getLsbD k = true) ∧
    t.hart.fcsrRm = s.hart.fcsrRm ∧
    ∀ r, r ≠ d → ¬ s.hart.loopPointer r → t.getS r = s.getS r


/-! ### Scalar memory (R82 to R87) -/

/-- The value that `ld.T` writes for the bytes it reads (R82). -/
def Sys2Proof.Machine.loadValue (t : LdTy) (bs : List Byte) : Word :=
  let x := bytesToNat bs
  match t with
  | .i8 => (BitVec.ofNat 8 x).signExtend 64
  | .i16 => (BitVec.ofNat 16 x).signExtend 64
  | .i32 => (BitVec.ofNat 32 x).signExtend 64
  | .i64 => BitVec.ofNat 64 x
  | .n8 => BitVec.ofNat 64 (x % 2 ^ 8)
  | .n16 => BitVec.ofNat 64 (x % 2 ^ 16)
  | .n32 => BitVec.ofNat 64 (x % 2 ^ 32)

/-- Bytes of a load. -/
def Sys2Proof.Machine.loadBytes : LdTy → Nat
  | .i8 | .n8 => 1
  | .i16 | .n16 => 2
  | .i32 | .n32 => 4
  | .i64 => 8

/-- Bytes of a store. -/
def Sys2Proof.Machine.storeBytes : StW → Nat
  | .w8 => 1
  | .w16 => 2
  | .w32 => 4
  | .w64 => 8

/-- R82: outside the windows of the team, a load that passes its checks and reaches memory writes the bytes there,
extended as T says, and one that reaches a device register other than a port writes the register; in a window (R248, R341)
it writes the bytes that its lines give. -/
def Sys2Proof.Rules.LoadResults : Prop :=
  ∀ (s u : State) (d a : SReg) (t : LdTy) (o : BitVec 13) (p : Place) (bs : List Byte),
    let ea := s.getS a + o.signExtend 64
    let inside := s.inWindow (dieOf s.hart.pos) s.hart.team ea
    (inside = false → s.passes .load ea (loadBytes t) p u →
      (p.space ≠ .regs → u.sound p → exec (.ld d a t o) s = .next (u.setS d (loadValue t (u.bytes p.keys))).advance) ∧
      (p.space = .regs → portAt (coreOf s.hart.pos) ea = none → t = .i64 →
        exec (.ld d a t o) s = .next (u.setS d (u.regRead (aDieId ea) (aOff ea))).advance)) ∧
    (inside = true → ea.toNat % loadBytes t = 0 → s.scalarRead ea (loadBytes t) = .ok (bs, u) →
      exec (.ld d a t o) s = .next (u.setS d (loadValue t bs)).advance)

/-- R82, R83: a store that passes its checks and reaches memory writes the low bytes of `s[D]`, the least significant at
the lowest address; one that reaches a device register other than a port, or than one that Burup serves while it
reloads (R397), writes the register. -/
def Sys2Proof.Rules.StoreResults : Prop :=
  ∀ (s u : State) (d a : SReg) (w : StW) (o : BitVec 13) (p : Place),
    let ea := s.getS a + o.signExtend 64
    s.passes .store ea (storeBytes w) p u →
    (p.space ≠ .regs → ∃ t, Runs (.st d a w o) s t ∧
      (∀ (i : Nat) (h : i < p.keys.length), t.byte p.keys[i] = (s.getS d).extractLsb' (8 * i) 8) ∧
      (∀ k, k ∉ p.keys → t.byte k = u.byte k) ∧
      t.hart = s.hart.advance) ∧
    (p.space = .regs → portAt (coreOf s.hart.pos) ea = none → w = .w64 →
      (burupReg (aDieId ea) (aOff ea) && (u.pkg (aPkg ea)).reload) = false →
      exec (.st d a w o) s = .next (u.regWrite (aDieId ea) (aOff ea) (s.getS d)).advance)

/-- R84: the new value of a scalar atomic on `n` bytes. -/
def Sys2Proof.Machine.atomicValue (op : AmoOp) (signed : Bool) (n : Nat) (old b d : BitVec (8 * n)) : BitVec (8 * n) :=
  let less := if signed then decide (b.toInt < old.toInt) else decide (b.toNat < old.toNat)
  let more := if signed then decide (old.toInt < b.toInt) else decide (old.toNat < b.toNat)
  match op with
  | .add => old + b
  | .and => old &&& b
  | .or => old ||| b
  | .xor => old ^^^ b
  | .min => if less then b else old
  | .max => if more then b else old
  | .swap => b
  | .cas => if old = d then b else old

/-- R84: an atomic that passes its checks stores OP of the old value and `s[B]` at the address, nowhere else, and writes
the old value, extended as T says. -/
def Sys2Proof.Rules.AtomicResults : Prop :=
  ∀ (s u : State) (d a b : SReg) (t : AmoTy) (op : AmoOp) (p : Place),
    let ea := s.getS a
    let n := if t = .i32 ∨ t = .n32 then 4 else 8
    let signed := decide (t = .i32 ∨ t = .i64)
    s.passes .atomic ea n p u → noAmo ea = false → u.sound p →
    let old : BitVec (8 * n) := BitVec.ofNat (8 * n) (bytesToNat (u.bytes p.keys))
    let new := atomicValue op signed n old ((s.getS b).setWidth (8 * n)) ((s.getS d).setWidth (8 * n))
    ∃ x, Runs (.amo d a b t op) s x ∧
      (∀ (i : Nat) (h : i < p.keys.length), x.byte p.keys[i] = new.extractLsb' (8 * i) 8) ∧
      (∀ k, k ∉ p.keys → x.byte k = u.byte k) ∧
      x.hart = (s.hart.setS d (if signed then old.signExtend 64 else old.setWidth 64)).advance

/-- A window of the hart's team on its die holds the line of an address (R248). -/
def Sys2Proof.Machine.State.holdsLine (s : State) (a : Word) : Bool :=
  (s.die (dieOf s.hart.pos)).windows.any fun (_, w) => w.team == s.hart.team && w.lines.any fun l => l.1 == a.toNat / 64

/-- R85: `cln` and `inv` retire where a load would pass: no register, no byte of memory changes; the line's bytes then
stand at their homes as they read, and after `inv` no window of the team on the die holds the line, whether or not its home is
lost. -/
def Sys2Proof.Rules.CleanAndInvalidate : Prop :=
  ∀ (s u : State) (a : SReg) (p : Place), let ea := s.getS a
    spaceOf ea ≠ some .regs →
    (s.reaches .load ea 1 p u → ∀ i, i = .cln a ∨ i = .inv a → ∃ t, Runs i s t ∧ t.hart = s.hart.advance ∧ SameBytes s t ∧
      (u.cached p = true → ∀ k, k / 64 = p.keys.headD 0 / 64 → t.homeByte k = t.byte k) ∧
      (i = .inv a → t.holdsLine ea = false)) ∧
    (s.check (s.scalarHow .load) ea 1 = .error .lost → exec (.cln a) s = .next s.advance ∧
      ∃ t, Runs (.inv a) s t ∧ t.hart = s.hart.advance ∧ SameBytes s t ∧ t.holdsLine ea = false)

/-- R87: the checks of a scalar access in their order: alignment first, then the cause of the first check that fails, the
address in `tval`; a poisoned line traps with its cause (R308), and a lost target with 0x140, or for an atomic whose master
may not have known of the loss with 0x140 or 0x141 (R86, R340); an access that meets an outstanding non-blocking one of the hart at
a byte waits for it (R251). A load in a window is checked as its lines are filled. -/
def Sys2Proof.Rules.ScalarAccessTraps : Prop :=
  ∀ (s : State) (d a b : SReg) (o : BitVec 13) (c : BitVec 10), let ea := s.getS a + o.signExtend 64
    let x := s.getS a
    let outside := s.inWindow (dieOf s.hart.pos) s.hart.team ea = false
    (∀ t : LdTy, (ea.toNat % loadBytes t ≠ 0 → Traps (.ld d a t o) s 0x081 ea) ∧
      (outside → ea.toNat % loadBytes t = 0 → s.check (s.scalarHow .load) ea (loadBytes t) = .error (.cause c) → Traps (.ld d a t o) s c ea) ∧
      (outside → ea.toNat % loadBytes t = 0 → s.check (s.scalarHow .load) ea (loadBytes t) = .error .lost → Traps (.ld d a t o) s 0x140 ea) ∧
      (∀ u p, outside → s.passes .load ea (loadBytes t) p u → p.space ≠ .regs → u.poisonCause p.keys = some c →
        exec (.ld d a t o) s = .next (u.trap c ea)) ∧
      (∀ u p, outside → s.reaches .load ea (loadBytes t) p u → s.afterNb s.hart.nb .load p.keys = true →
        exec (.ld d a t o) s = .next (s.wait .interlock))) ∧
    (∀ w : StW, (ea.toNat % storeBytes w ≠ 0 → Traps (.st d a w o) s 0x081 ea) ∧
      (ea.toNat % storeBytes w = 0 → s.check (s.scalarHow .store) ea (storeBytes w) = .error (.cause c) → Traps (.st d a w o) s c ea) ∧
      (ea.toNat % storeBytes w = 0 → s.check (s.scalarHow .store) ea (storeBytes w) = .error .lost → Traps (.st d a w o) s 0x140 ea) ∧
      (∀ u p, s.reaches .store ea (storeBytes w) p u → s.afterNb s.hart.nb .store p.keys = true →
        exec (.st d a w o) s = .next (s.wait .interlock))) ∧
    (∀ (t : AmoTy) (op : AmoOp), let n := if t = .i32 ∨ t = .n32 then 4 else 8
      let goes := x.toNat % n = 0 ∧ noAmo x = false
      (x.toNat % n ≠ 0 → Traps (.amo d a b t op) s 0x081 x) ∧
      (x.toNat % n = 0 → noAmo x = true → Traps (.amo d a b t op) s 0x104 x) ∧
      (goes → s.check (s.scalarHow .atomic) x n = .error (.cause c) → Traps (.amo d a b t op) s c x) ∧
      (∀ u p, goes → s.passes .atomic x n p u → u.poisonCause p.keys = some c → exec (.amo d a b t op) s = .next (u.trap c x)) ∧
      (∀ u p, goes → s.reaches .atomic x n p u → s.afterNb s.hart.nb .atomic p.keys = true →
        exec (.amo d a b t op) s = .next (s.wait .interlock)) ∧
      (goes → s.check (s.scalarHow .atomic) x n = .error .lost →
        (s.lossUnknown (s.scalarHow .atomic).master x = false → Traps (.amo d a b t op) s 0x140 x) ∧
        ∃ u e, exec (.amo d a b t op) s = .next (State.trap u e x) ∧ (e = 0x140 ∨ e = 0x141)))

/-- R87, R156, R227, R327: the checks of an access after its alignment, in their order, each with its cause: a package outside
the pod, 0x142; an unassigned address, 0x0C1; of a vector access the device registers, 0x105, and of an atomic a space that
takes none, 0x104; a lost target; the row handle's own causes; no translation, 0x0C0 where the tables hold no valid entry; the
page's permission, 0x100; and the target's access table, 0x103. One that passes them all lands at its homes. -/
def Sys2Proof.Rules.AccessCheckOrder : Prop :=
  ∀ (s : State) (how : How) (a : Word) (n : Nat),
    let m := how.master
    let d := aDieId a
    let r := s.check how a n
    let inPod := how.acc = .fetch ∨ (aPkg a).toNat < s.podSize (pkgOfDie m.die)
    (¬ inPod → r = .error (.cause 0x142)) ∧
    (inPod → (9 ≤ (aDie a).toNat ∨ ((aDie a).toNat < 8 ∧ s.computeDies (aPkg a) ≤ (aDie a).toNat) ∨ spaceOf a = none) →
      r = .error (.cause 0x0C1)) ∧
    (inPod → s.namesSpace m how.vector a n = none → r = .error (.cause 0x0C1)) ∧
    ∀ sp, inPod → s.namesSpace m how.vector a n = some sp →
      (how.vector = true → sp = .regs → r = .error (.cause 0x105)) ∧
      ((how.vector = true → sp ≠ .regs) → how.acc = .atomic → sp.atomics = false → r = .error (.cause 0x104)) ∧
      ((how.vector = true → sp ≠ .regs) → (how.acc = .atomic → sp.atomics = true) →
        (s.isLost m a = true → how.late = false → (how.acc ≠ .load ∨ aPkg a ≠ pkgOfDie m.die) → r = .error .lost) ∧
        (s.isLost m a = false ∨ how.late = true →
          (∀ c, sp = .rows → s.rowCheck how.team how.acc a = .error c → r = .error (.cause c)) ∧
          (∀ k, sp.index = none → tableTarget sp a (aOff a) = some k →
            (sp = .rows → ∃ h, s.rowCheck how.team how.acc a = .ok h) → s.admits d k m how.acc a = false →
            r = .error (.cause 0x103)) ∧
          (∀ u, sp.index = some u → how.physical = false →
            let found := s.translation how d u sp.capacity (aOff a)
            (∀ c, found = .error c → r = .error (.cause c)) ∧
            (∀ t v, found = .ok (t, v) →
              let at_ := t.phys (aOff a)
              let pa := (a &&& 0xFFFFF00000000000) ||| BitVec.ofNat 64 at_
              (sp.capacity ≤ at_ → r = .error (.cause 0x0C0)) ∧
              (at_ < sp.capacity → v.denies how a t = true → r = .error (.cause 0x100)) ∧
              (at_ < sp.capacity → v.denies how a t = false →
                (∀ k, tableTarget sp a at_ = some k → v.admits d k m how.acc pa = false → r = .error (.cause 0x103)) ∧
                ((∀ k, tableTarget sp a at_ = some k → v.admits d k m how.acc pa = true) →
                  r = .ok (⟨sp, d, (List.range n).map (homeOf m sp a at_ + ·)⟩, v)))) ∧
            (bit (s.reg d 0x1000) 0 = false → s.walk d m.asid u sp.capacity (aOff a) = .error 0x0C0))))

/-- R87, R156, R234, R236: what a check may change: the translations held, and nothing else; and a place has one home for
each byte of the access. -/
def Sys2Proof.Rules.AccessCheckFrame : Prop :=
  ∀ (s u : State) (how : How) (a : Word) (n : Nat) (p : Place), s.check how a n = .ok (p, u) →
    u = { s with cores := u.cores, dies := u.dies } ∧ p.keys.length = n ∧
    (∀ c, u.core c = { s.core c with tlb := (u.core c).tlb }) ∧
    ∀ d, u.die d = { s.die d with remote := (u.die d).remote }

/-! ### Control transfer (R88, R94) -/

/-- R88: outside an active loop body a branch goes to `pc` + offset × 4 when its relation holds and else to `pc` + 4, and
`jal` and `jalr` write the return address and go to their target. -/
def Sys2Proof.Rules.ControlTransfers : Prop :=
  ∀ (s : State) (d a : SReg) (o : BitVec 13) (j : BitVec 21) (i : BitVec 16), s.outsideLoop →
    let h := s.hart
    let x := s.getS d
    let y := s.getS a
    let goes (k : Instr) (taken : Prop) : Prop :=
      (taken → exec k s = .next { s with hart := { h with run := .running, pc := h.pc + o.signExtend 64 * 4, front := h.front.passed } }) ∧
      (¬ taken → exec k s = .next { s with hart := { h with run := .running, pc := h.pc + 4, front := h.front.passed } })
    goes (.beq d a o) (x = y) ∧ goes (.bne d a o) (x ≠ y) ∧
    goes (.blt d a o) (x.toInt < y.toInt) ∧ goes (.bge d a o) (y.toInt ≤ x.toInt) ∧
    goes (.bltn d a o) (x.toNat < y.toNat) ∧ goes (.bgen d a o) (y.toNat ≤ x.toNat) ∧
    exec (.jal d j) s = .next ((s.setS d (h.pc + 4)).jump (h.pc + j.signExtend 64 * 4)) ∧
    ((y + i.signExtend 64).toNat % 4 = 0 → exec (.jalr d a i) s = .next ((s.setS d (h.pc + 4)).jump (y + i.signExtend 64))) ∧
    ((y + i.signExtend 64).toNat % 4 ≠ 0 → Traps (.jalr d a i) s 0x080 (y + i.signExtend 64))

/-- R94: in an active loop body a branch, `jal`, `jalr` and, under a legal type, `smine` trap with 0x007 before any
effect, and `zol` does wherever a loop is active. -/
def Sys2Proof.Rules.TransferInLoopBodyTraps : Prop :=
  ∀ (s : State) (i : Instr) (w : BitVec 32), encode i = some w →
    (¬ s.outsideLoop → (majorOf w = 0x0C ∨ majorOf w = 0x0D ∨ majorOf w = 0x0E) → Traps i s 0x007 (w.setWidth 64)) ∧
    (¬ s.outsideLoop → bit s.hart.vty 63 = false → majorOf w = 0x0F → Traps i s 0x007 (w.setWidth 64)) ∧
    (s.hart.zol.act = true → majorOf w = 0x10 → Traps i s 0x007 (w.setWidth 64))

/-! ### Lengths, types and loops (R89 to R93, R106 to R108) -/

/-- R89, R26: `smine` where a grant point passes: the pointers advance by the bytes of the strip, the count falls by `vl`
and is written after them, and the word grants the next strip and branches, or leaves `vl` 0 and goes on; every vector
and predicate register holds its value or zeros. -/
def Sys2Proof.Rules.StripMining : Prop :=
  ∀ (s : State) (d a : SReg) (n : BitVec 3) (o : BitVec 13), smineOk a n = true → bit s.hart.vty 63 = false →
    s.outsideLoop → s.grantable →
    let vl := s.hart.vl.toNat
    let c := s.getS d
    let left : Word := if d = 0 then 0 else if vl ≤ c.toNat then c - BitVec.ofNat 64 vl else 0
    let bytes : Word := BitVec.ofNat 64 ((vl * s.vtype.ew + 7) / 8)
    ∃ t, Runs (.smine d a n o) s t ∧
      (∀ r : SReg, t.getS r = if r = d then left else
        if a.toNat ≤ r.toNat ∧ r.toNat < a.toNat + n.toNat then s.getS r + bytes else s.getS r) ∧
      t.hart.vl = (if left = 0 then 0 else BitVec.ofNat 12 (s.grantLength left)) ∧
      t.hart.pc = s.hart.pc + (if left = 0 then 4 else o.signExtend 64 * 4) ∧
      (∀ r, t.getV r = s.getV r ∨ t.getV r = 0) ∧ (∀ r, t.getP r = s.getP r ∨ t.getP r = 0) ∧ SameBytes s t

/-- R91, R93: `zol` with no active loop, on an aligned record that is read and is well formed, starts a nest: the hart
holds a copy of the record, the body begins at `pc` + 4, and no pass has ended. -/
def Sys2Proof.Rules.LoopStarts : Prop :=
  ∀ (s u : State) (a : SReg) (l : BitVec 5) (bs : List Byte), let r := s.getS a
    s.hart.zol.act = false → r.toNat % 64 = 0 → s.scalarRead r 64 = .ok (bs, u) →
    nestMalformed (bytesToWords 8 bs) = false →
    exec (.zol a l) s = .next { u with hart := { u.hart with
      run := .running, pc := u.hart.pc + 4, front := u.hart.front.passed
      zol := { zlr := r, zlb := u.hart.pc + 4, act := true, sav := false, len := l, pass := 0, nest := bytesToWords 8 bs } } }

/-- R106 to R108, R15, R26: `setvl` where a grant point passes writes the length granted, 0 under an illegal type; the
grant is at most min(n, VLMAX), exactly that under FG, and is not 0 for a request of at least 1; `setvt` writes `vty`
under R15 and the value it takes to `s[D]`. -/
def Sys2Proof.Rules.LengthAndTypeWords : Prop :=
  ∀ (s : State) (d a : SReg),
    (s.grantable → ∃ t, Runs (.setvl d a) s t ∧
      t.hart.vl = (if bit s.hart.vty 63 then 0 else BitVec.ofNat 12 (s.grantLength (s.getS a))) ∧
      (d ≠ 0 → ¬ s.hart.atPassEnd → t.getS d = t.hart.vl.setWidth 64) ∧ t.hart.vix = 0 ∧ t.hart.vty = s.hart.vty ∧
      (∀ r, t.getV r = s.getV r ∨ t.getV r = 0) ∧ (∀ r, t.getP r = s.getP r ∨ t.getP r = 0) ∧ SameBytes s t) ∧
    (vtyLegal s.hart.vty = true → ∀ n : Word,
      s.grantLength n ≤ min n.toNat s.vtype.vlmax ∧ (bit s.hart.vty 19 = true → s.grantLength n = min n.toNat s.vtype.vlmax) ∧
      (n ≠ 0 → s.grantLength n ≠ 0)) ∧
    (let y := s.getS a &&& 0x7FFFFFFFFFFFFFFF
     let x := if vtyLegal y then y else 0x8000000000000000
     exec (.setvt d a) s = .next (({ s with hart := { s.hart with vty := x } } : State).setS d x).retireV)

/-- R52, R89, R106: `smine` under an illegal type traps with 0x040, and a grant point with a live digit link traps with
0x200, and with a pending pre-emption request in program state with 0x340. -/
def Sys2Proof.Rules.GrantPointTraps : Prop :=
  ∀ (s : State) (d a : SReg) (n : BitVec 3) (o : BitVec 13), s.hart.nb = [] → s.outsideLoop →
    (bit s.hart.vty 63 = true → Traps (.smine d a n o) s 0x040 ((encMem 0x0F d a n o).setWidth 64)) ∧
    (∀ i, i = .setvl d a ∨ (i = .smine d a n o ∧ bit s.hart.vty 63 = false) →
      ((∃ k : Fin 8, s.hart.dl[k] ≠ none) → Traps i s 0x200 0) ∧
      ((∀ k : Fin 8, s.hart.dl[k] = none) → s.hart.prq = true → s.hart.hs = false → Traps i s 0x340 0))


/-! ### CSRs (R12, R97 to R99, R299, R300) -/

/-- R103, R344: what reading the pod time base does: it goes on by a free number of ticks, and never steps backward. -/
def Sys2Proof.Machine.readsTime (i : Instr) (s : State) (d : SReg) : Prop :=
  ∃ now : Word, s.now.toNat ≤ now.toNat ∧
    exec i s = .next (({ s with now := now, free := s.free + 1 } : State).setS d now).advance

/-- R12, R92, R98, R188, R271, R299, R300, R414: `csrr` writes the CSR, and what each CSR reads, ST and REQ of the hart and the
heat class of its team in `flw`; `tick` reads the
pod time base, a free number of ticks later and never backward. -/
def Sys2Proof.Rules.CsrReadResults : Prop :=
  ∀ (s : State) (d : SReg) (c : Csr) (k : BitVec 5), let h := s.hart; let f := s.myCore.fife
    (c ≠ .tick → Writes (.csrr d c) s d (s.readCsr c)) ∧
    readsTime (.csrr d .tick) s d ∧
    s.readCsr .vl = h.vl.setWidth 64 ∧ s.readCsr .vty = h.vty ∧ s.readCsr .vix = h.vix.setWidth 64 ∧
    s.readCsr .fcsr = h.fcsr.setWidth 64 ∧ s.readCsr .xlm = h.xlm ∧ s.readCsr .rerr = h.rerr ∧
    s.readCsr .fthr = h.fthr.setWidth 64 ∧ s.readCsr .zlr = h.zol.zlr ∧ s.readCsr .zlb = h.zol.zlb ∧
    (s.readCsr .zls).toNat =
      (if h.zol.act then 2 ^ 63 else 0) + (if h.zol.sav then 2 ^ 62 else 0) + h.zol.len.toNat * 2 ^ 48 + h.zol.pass.toNat ∧
    s.readCsr .hrk = h.hrk ∧ (s.readCsr .htm).toNat = h.depth.toNat * 2 ^ 32 + h.team.toNat ∧
    s.readCsr .hpos = h.pos.setWidth 64 ∧ s.readCsr .qmap = h.qmap.setWidth 64 ∧
    (s.readCsr .fst).toNat = (if f.heldBy h.pos then f.st.code else 0) * 2 ^ 62 + f.owner.toNat * 2 ^ 60 +
      (if f.rerr then 2 ^ 59 else 0) + f.cause.toNat ∧
    s.readCsr .fpc = f.fpc ∧ s.readCsr .fva = f.fva ∧ s.readCsr .tcause = h.tcause.setWidth 64 ∧
    s.readCsr .tval = h.tval ∧ s.readCsr .tepc = h.tepc ∧ s.readCsr .tvec = h.tvec ∧ s.readCsr .tscr = h.tscr ∧
    s.readCsr .psa = h.psa ∧
    (s.readCsr .tsr).toNat = (if h.pending.any Pending.machine then 128 else 0) + (if h.prq then 64 else 0) +
      (if h.pending.any (fun p => !p.machine) then 32 else 0) + (if h.nest then 16 else 0) + (if h.asy then 8 else 0) +
      (if h.phs then 2 else 0) + (if h.hs then 1 else 0) ∧
    (∀ x, s.team h.team = some x → s.readCsr .flw = (h.flw &&& 0xC000000000000F00) ||| x.hc.setWidth 64) ∧
    s.readCsr (.fm k) = h.fm.extractLsb' (64 * k.toNat) 64

/-- Bits of a CSR that a write stores (R7, R12, R92, R299, R300); `vty`, `xlm`, `fst` and `fpc` have rules of their own. -/
def Sys2Proof.Machine.csrWritable : Csr → Word
  | .vix => 0x7FF
  | .fcsr => 0x71F
  | .rerr | .zlr | .tval | .tscr | .fm _ => 0xFFFFFFFFFFFFFFFF
  | .fthr => 0xFFFFF
  | .zlb | .tepc | .tvec => 0xFFFFFFFFFFFFFFFC
  | .zls => 0xC01FFFFFFFFFFFFF
  | .qmap => 0x9F9F9F9F
  | .tcause => 0x3FF
  | .tsr => 0x1A
  | _ => 0

/-- R7, R12, R15, R98: `csrw`, `csrs` and `csrc`, where R97 lets them, write `s[D]`, the CSR OR `s[D]`, and the CSR AND
NOT `s[D]`; the writable bits take the value, the others keep theirs, `vty` follows R15, `xlm` R135, and `fst` and `fpc` R271;
every other CSR reads as before. -/
def Sys2Proof.Rules.CsrWriteResults : Prop :=
  ∀ (s : State) (d : SReg) (c : Csr) (x : Word), (csrGuarded c = true → s.hart.hs = true) →
    exec (.csrw d c) s = .next (s.writeCsr c (s.getS d)).advance ∧
    exec (.csrs d c) s = .next (s.writeCsr c (s.readCsr c ||| s.getS d)).advance ∧
    exec (.csrc d c) s = .next (s.writeCsr c (s.readCsr c &&& ~~~s.getS d)).advance ∧
    (c ≠ .vty → c ≠ .xlm → c ≠ .fst → c ≠ .fpc →
      (s.writeCsr c x).readCsr c =
        if csrWritable c = 0 then s.readCsr c
        else if c = .tsr then (s.readCsr c &&& ~~~0x1A) ||| (x &&& 0x1A)
        else x &&& csrWritable c) ∧
    (s.writeCsr .vty x).readCsr .vty =
      (if vtyLegal (x &&& 0x7FFFFFFFFFFFFFFF) then x &&& 0x7FFFFFFFFFFFFFFF else 0x8000000000000000) ∧
    (let y := x &&& 0x7FFFFFFFFFFFFFFF
     (s.writeCsr .xlm x).readCsr .xlm =
      (if 2 ^ 20 ≤ y.toNat ∨ y.getLsbD 11 = true ∨ 6 ≤ bits y 15 3 ∨ (bits y 12 3 = 0 ∧ bits y 18 2 ≠ 0) then 0x8000000000000000
       else y)) ∧
    (let f := s.myCore.fife
     let held := f.heldBy s.hart.pos = true
     (s.writeCsr .fst x).myCore.fife = (if held then
        { f with rerr := f.rerr && !x.getLsbD 59, st := if f.st = .faulted ∧ bits x 62 2 = 2 then .paused else f.st } else f) ∧
     (s.writeCsr .fpc x).myCore.fife = (if held ∧ (f.st = .paused ∨ f.st = .faulted) then
        { f with fpc := x &&& 0xFFFFFFFFFFFFFFFC } else f)) ∧
    (∀ c', c' ≠ c → (s.writeCsr c x).readCsr c' = s.readCsr c') ∧
    (s.writeCsr c x).hart.s = s.hart.s ∧ (s.writeCsr c x).hart.v = s.hart.v ∧ (s.writeCsr c x).hart.p = s.hart.p ∧
    (s.writeCsr c x).mem = s.mem ∧ (s.writeCsr c x).parked = s.parked

/-- R97, R103, R299: in program state `eret`, `tlbi`, `ctxsv`, `ctxld` and a write of a trap or loop CSR, or of `fst`,
`fpc` or `fva`, trap with 0x101, the word in `tval`, before any effect. -/
def Sys2Proof.Rules.HandlerWordsTrapInProgramState : Prop :=
  ∀ (s : State) (i : Instr) (w : BitVec 32) (d : SReg) (c : Csr), s.hart.hs = false → encode i = some w →
    (i = .eret ∨ i = .tlbiPage d ∨ i = .tlbiAsid d ∨ i = .tlbiAll d ∨ i = .ctxsv d ∨ i = .ctxld d ∨
      ((i = .csrw d c ∨ i = .csrs d c ∨ i = .csrc d c) ∧
        (c = .tepc ∨ c = .tcause ∨ c = .tval ∨ c = .tvec ∨ c = .tsr ∨ c = .tscr ∨ c = .zlr ∨ c = .zlb ∨ c = .zls ∨
          c = .fst ∨ c = .fpc ∨ c = .fva))) →
    Traps i s 0x101 (w.setWidth 64)

/-! ### Traps (R301, R302, R304) -/

/-- R301: trap entry of a running hart that is no double fault: the resume address, the cause and the value saved, the
former state in NEST and PHS, ASY clear, handler state, the loop and the Fife held by the hart paused, and `pc` at `tvec`;
nothing else changes. -/
def Sys2Proof.Rules.TrapEntry : Prop :=
  ∀ (s : State) (cause : BitVec 10) (tval : Word), s.hart.run = .running →
    ¬ (s.hart.nest = true ∧ s.hart.pc = s.hart.tvec) →
    let h := s.hart
    let t := s.trap cause tval
    t.hart = { h with
      tepc := h.pc, tcause := cause, tval := tval, nest := h.hs, phs := h.hs, asy := false, hs := true
      zol := { h.zol with sav := h.zol.act, act := false }, pc := h.tvec, front := {} } ∧
    t = { s with hart := t.hart, cores := t.cores } ∧
    (∀ c, c ≠ coreOf h.pos → t.core c = s.core c) ∧
    t.myCore = { s.myCore with fife :=
      if s.myCore.fife.st = .running ∧ s.myCore.fife.owner = hartInCore h.pos then { s.myCore.fife with st := .paused }
      else s.myCore.fife }

/-- R304: a synchronous trap whose resume address is `tvec`, taken while NEST = 1, does not enter the handler: the hart's
context is freed, and its team fails with status 1 and cause 0x385. -/
def Sys2Proof.Rules.DoubleFaultFailsTeam : Prop :=
  ∀ (s : State) (cause : BitVec 10) (tval : Word) (x : Team), s.hart.nest = true → s.hart.pc = s.hart.tvec →
    s.hart.run = .running → s.team s.hart.team = some x → x.id = s.hart.team →
    let t := s.trap cause tval
    t.hart.run = .free ∧ ⟨x.id, x.live⟩ ∈ t.failedTeams ∧
    ∃ y, t.team s.hart.team = some y ∧ y.status = 1 ∧ y.cause = some 0x385 ∧ y.live = []

/-- R101, R302, R94: `eret` in handler state: the state before the entry comes back, `pc` is `tepc`, a paused Fife of the
hart runs; a loop that was active is active again once its record has been read and found well formed. A pending cause
that program state can take, or a pending machine check, is taken at once (R303), before that record is read. -/
def Sys2Proof.Rules.ExceptionReturn : Prop :=
  ∀ (s : State), s.hart.hs = true →
    let h := s.hart
    let r := h.zol.zlr
    (∀ p, s.leave.hart.nextPending = some p → exec .eret s = .next (s.leave.takePending p)) ∧
    (s.leave.hart.nextPending = none → h.zol.sav = false → ∃ t, Runs .eret s t ∧
      t.hart = { h with run := .running, hs := h.phs, phs := false, nest := false, asy := false
                        zol := { h.zol with act := false, sav := false }, pc := h.tepc, front := h.front.passed } ∧
      t.mem = s.mem ∧ t.parked = s.parked ∧
      t.myCore.fife = (if s.myCore.fife.st = .paused ∧ s.myCore.fife.owner = hartInCore h.pos then
        { s.myCore.fife with st := .running } else s.myCore.fife)) ∧
    (∀ u bs, s.leave.hart.nextPending = none → h.zol.sav = true → r.toNat % 64 = 0 → s.leave.scalarRead r 64 = .ok (bs, u) →
      nestMalformed (bytesToWords 8 bs) = false → ∃ t, Runs .eret s t ∧
        t.hart = { u.hart with zol := { h.zol with act := true, sav := false, nest := bytesToWords 8 bs } })

/-- R100: `sys n` and `bkpt n` retire, counting a pass if they end one, and then trap with 0x3C0 and 0x3C1, n in
`tval`. -/
def Sys2Proof.Rules.ServiceAndBreakTrapAfterRetiring : Prop :=
  ∀ (s : State) (n : BitVec 16),
    exec (.sys n) s = .next (s.advance.trap 0x3C0 (n.setWidth 64)) ∧
    exec (.bkpt n) s = .next (s.advance.trap 0x3C1 (n.setWidth 64)) ∧
    (¬ s.hart.atPassEnd → ¬ (s.hart.nest = true ∧ s.hart.pc + 4 = s.hart.tvec) → ∀ t,
      (Runs (.sys n) s t ∨ Runs (.bkpt n) s t) → t.hart.tepc = s.hart.pc + 4 ∧ t.hart.pc = s.hart.tvec ∧
        t.hart.tval = n.setWidth 64 ∧ t.hart.hs = true)

/-! ### The other system words (R101 to R104, R236, R414) -/

/-- R101 to R103, R22: `wfi` retires, and so does `fence`, unless its kinds include `eng` beside another and a command that
the hart has pushed has accesses to perform, which it waits for; `tick` writes the pod time base, a free number of ticks
later and never backward; `ifl` empties the instruction buffer; and, in handler state, each `tlbi` waits while an access of the
core that the banks have translated is outstanding, and then removes the entries it names from the banks of the executing
core, and no other. -/
def Sys2Proof.Rules.SystemWordResults : Prop :=
  ∀ (s : State) (d : SReg) (k : BitVec 7) (sc : Scope),
    let waits := k.getLsbD 5 = true ∧ k.extractLsb' 0 4 ≠ 0 ∧ s.engineBusy s.hart.pos = true
    exec .wfi s = .next s.advance ∧
    (¬ waits → exec (.fence k sc) s = .next s.advance) ∧ (waits → exec (.fence k sc) s = .next (s.wait .fence)) ∧
    readsTime (.tick d) s d ∧
    exec .ifl s = .next ({ s with hart := { s.hart with ibuf := [] } } : State).advance ∧
    (s.hart.hs = true → s.usesTlb (coreOf s.hart.pos) = true →
      ∀ i, i = .tlbiAll d ∨ i = .tlbiAsid d ∨ i = .tlbiPage d → exec i s = .next (s.wait .interlock)) ∧
    (s.hart.hs = true → s.usesTlb (coreOf s.hart.pos) = false →
      let drops (i : Instr) (gone : TlbEntry → Bool) : Prop :=
        ∃ t, Runs i s t ∧ t.hart = s.hart.advance ∧ SameBytes s t ∧ (∀ c, c ≠ coreOf s.hart.pos → t.core c = s.core c) ∧
          t.myCore = { s.myCore with tlb := t.myCore.tlb } ∧
          ∀ b, t.myCore.tlb.getD b [] = (s.myCore.tlb.getD b []).filter fun e => !gone e
      drops (.tlbiAll d) (fun _ => true) ∧
      drops (.tlbiAsid d) (fun e => e.asid == (s.getS d).extractLsb' 0 9) ∧
      drops (.tlbiPage d) (fun e => e.holds (dieOf s.hart.pos) (s.getS d)))

/-- R103: after `tlbi all` no bank of the executing core translates anything. -/
def Sys2Proof.Rules.TlbiAllEmptiesTheBanks : Prop :=
  ∀ (s t : State) (d : SReg), s.hart.hs = true → s.usesTlb (coreOf s.hart.pos) = false → Runs (.tlbiAll d) s t → ∀ b, t.myCore.tlb.getD b [] = []

/-- R414, R415: `flow` writes the request's status: granted at once at or below the class that the hart's team holds,
refused where a package's cap is below the class asked, and else pending at the team; the class asked
stands in REQ. A `flow` of any hart, of a team or of none, completes; one that has been performed ahead of older vector words
writes what it returned.
It concludes a next state of: flow. -/
def Obligations.FlowRequests : Prop :=
  (∀ (s : State) (d : SReg) (c : BitVec 4), (s.hart.flowDone = none → ∃ t, Runs (.flow d c) s t ∧ bits t.flw 8 4 = c.toNat) ∧
    ∀ x, s.hart.flowDone = some x → Writes (.flow d c) s d x) ∧
  ∀ (s : State) (d : SReg) (c : BitVec 4) (x : Team), s.hart.flowDone = none → s.team s.hart.team = some x → x.id = s.hart.team →
    (c ≤ x.hc → ∃ t, Runs (.flow d c) s t ∧ (d ≠ 0 → ¬ s.hart.atPassEnd → t.getS d = t.flw) ∧ bits t.flw 62 2 = 2 ∧
      bits t.flw 8 4 = c.toNat ∧ (t.team x.id).map Team.hc = some c) ∧
    (¬ c ≤ x.hc → x.pkgs.any (s.beyondCap x c.toNat) = true → ∃ t, Runs (.flow d c) s t ∧ bits t.flw 62 2 = 3 ∧
      bits t.flw 8 4 = c.toNat ∧ (t.team x.id).map Team.hc = some x.hc) ∧
    (¬ c ≤ x.hc → x.pkgs.any (s.beyondCap x c.toNat) = false → ∃ t, Runs (.flow d c) s t ∧ bits t.flw 62 2 = 1 ∧
      bits t.flw 8 4 = c.toNat ∧ (t.team x.id).map Team.flow = some (some (x.rankOf s.hart.pos, c)))

/-! ### Contexts (R313 to R317) -/

/-- R310, R313 to R315: `ctxsv` in handler state, with no access outstanding, to an aligned address and an image that
every store lands, writes the words of the hart's image there; without a pending request it retires, and nothing of the
hart but `pc` changes; with one, once no copy into a slot of the hart is outstanding (R170), the hart surrenders and its
context is free. -/
def Sys2Proof.Rules.ContextSaved : Prop :=
  ∀ (s u : State) (d : SReg) (a : Word) (physical : Bool), s.hart.hs = true → s.hart.nb = [] →
    (s.hart.prq = true → s.copiesOut s.hart.pos = false) →
    s.imageAddr d = (a, physical) → (d ≠ 0 ∨ a ≠ 0) → a.toNat % 4096 = 0 →
    writeImage physical a (s.imageWords (if s.hart.tcause = 0x340 then 0 else 1)) s = .ok u →
    ∃ t, Runs (.ctxsv d) s t ∧ t.mem = u.mem ∧
      (s.hart.prq = false → t.hart = s.hart.advance) ∧ (s.hart.prq = true → t.hart.run = .free)

/-- R302, R313, R316: `ctxld` in handler state, with no access outstanding, of an image that is read, passes its checks,
waits for nothing: the registers, the length and the type under R15 are the image's. One with no synchronisation block, that
holds no suspended loop, while no cause is pending to be taken at the return, goes on at its `tepc` as after `eret`; one with
a synchronisation block goes on at the `pc` that the block holds (R311). -/
def Sys2Proof.Rules.ContextLoaded : Prop :=
  ∀ (s u : State) (d : SReg) (a : Word) (physical : Bool) (x : Image), s.hart.hs = true → s.hart.nb = [] →
    s.imageAddr d = (a, physical) → (d ≠ 0 ∨ a ≠ 0) → a.toNat % 4096 = 0 →
    s.fetchImage a physical = .ok (x, u) → u.imageFault x a = none → u.imageBlocked x = none →
    (x.has 9 = false → bit (x.csr 8) 62 = false ∧ (u.appliedImage x).leave.hart.nextPending = none) →
    ∃ t, Runs (.ctxld d) s t ∧ SameBytes u t ∧ (∀ r : SReg, r ≠ 0 → t.getS r = wordAt x.head (3 + r.toNat)) ∧
      (∀ r : VReg, t.getV r = BitVec.ofNat 8192 (wordsNat (sliceWords (x.part 0) (128 * r.toNat) 128))) ∧
      t.hart.vl = (x.csr 0).setWidth 12 ∧ t.hart.vix = (x.csr 2).setWidth 11 ∧
      t.hart.vty = (if x.csr 1 = 0x8000000000000000 then 0x8000000000000000 else
        if vtyLegal (x.csr 1 &&& 0x7FFFFFFFFFFFFFFF) then x.csr 1 &&& 0x7FFFFFFFFFFFFFFF else 0x8000000000000000) ∧
      (x.has 9 = true → t.hart.pc = wordAt (x.part 9) 0) ∧
      (x.has 9 = false → t.hart.pc = x.csr 9 ∧ t.hart.hs = bit (x.csr 12) 1)

/-- R47, R314, R315: what an image holds. The header: VER, KIND and SECT, SIZE, CNT, the scalar registers, the CSRs in their order,
and `fm`. Then the vector and predicate registers, of a full or forced image, and the counts of the queues. -/
def Sys2Proof.Rules.ImageLayout : Prop :=
  ∀ (s : State) (kind : Nat), kind < 3 →
    let h := s.hart
    let c := s.myCore
    let me := h.pos
    let ws := s.imageWords kind
    let w (i : Nat) : Word := wordAt ws i
    let full := kind ≠ 0
    let q := 128 + if kind = 0 then 0 else 4864
    bits (w 0) 0 16 = 1 ∧ bits (w 0) 16 2 = kind ∧ bits (w 0) 18 14 = 0 ∧ w 1 = BitVec.ofNat 64 (8 * ws.length) ∧
    w 2 = Config.implCode ∧
    (bit (w 0) 32 = true ↔ full) ∧ (bit (w 0) 33 = true ↔ full) ∧ bit (w 0) 34 = true ∧ bit (w 0) 35 = true ∧
    (bit (w 0) 36 = true ↔ c.fife.heldBy me = true) ∧ (bit (w 0) 37 = true ↔ full ∧ ∃ k : Fin 8, h.dl[k] ≠ none) ∧
    (bit (w 0) 38 = true ↔ ∃ b, (c.slot b).own = some me) ∧ (bit (w 0) 39 = true ↔ ∃ d, (c.tile d).own = some me) ∧
    (bit (w 0) 40 = true ↔ h.handles ≠ []) ∧ (bit (w 0) 41 = true ↔ kind = 2) ∧ bits (w 0) 42 22 = 0 ∧
    bits (w 3) 0 8 = (if kind = 0 then 0 else (h.dl.toList.filter Option.isSome).length) ∧
    bits (w 3) 8 8 = (c.slots.toList.filter fun x => x.own == some me).length ∧
    bits (w 3) 16 48 = (c.tiles.toList.filter fun x => x.own == some me).length ∧
    (∀ r : SReg, r ≠ 0 → w (3 + r.toNat) = s.getS r) ∧
    w 35 = h.vl.setWidth 64 ∧ w 36 = h.vty ∧ w 37 = h.vix.setWidth 64 ∧ w 38 = h.fcsr.setWidth 64 ∧ w 39 = h.xlm ∧
    w 40 = h.qmap.setWidth 64 ∧ w 41 = h.zol.zlr ∧ w 42 = h.zol.zlb ∧ w 43 = h.zol.status ∧ w 44 = h.tepc ∧
    w 45 = h.tcause.setWidth 64 ∧ w 46 = h.tval ∧ w 47 = h.tsr ∧ w 48 = h.tscr ∧ w 49 = h.tvec ∧ w 50 = h.rerr ∧
    w 51 = h.fthr.setWidth 64 ∧ w 52 = s.flw ∧ w 53 = BitVec.ofNat 64 h.sg ∧
    (∀ i < 32, w (54 + i) = h.fm.extractLsb' (64 * i) 64) ∧ (∀ i < 42, w (86 + i) = 0) ∧
    (full → (∀ r : VReg, ∀ i < 128, w (128 + 128 * r.toNat + i) = (s.getV r).extractLsb' (64 * i) 64) ∧
      ∀ p : BitVec 5, p.toNat < 24 → ∀ i < 32, w (4224 + 32 * p.toNat + i) = (s.getP p).extractLsb' (64 * i) 64) ∧
    ∀ k : Fin 4, w (q + k) = BitVec.ofNat 64 (h.vq.get k).length ∧ w (q + 4 + k) = BitVec.ofNat 64 (h.sq.get k).length


/-! ### Vector arithmetic (R110 to R127) -/

/-- A word of majors 0x14 and 0x15: its operands, its predicate, whether the predicate masks, and F of R112 and R113 on
elements of `w` bits, given the predicate bit, a, b and d. -/
structure Sys2Proof.Machine.IntWord where
  d : Operand
  a : Operand
  b : Operand
  p : PSel
  masks : Bool
  f : (w : Nat) → Bool → BitVec w → BitVec w → BitVec w → Nat

/-- R112, R113: the integer words. -/
def Sys2Proof.Machine.intWord : Instr → Option IntWord
  | .vadd d a b p => some ⟨.reg d, .reg a, .reg b, p, true, fun _ _ x y _ => (x + y).toNat⟩
  | .vaddLink d a b p => some ⟨linkOperand d, linkOperand a, linkOperand b, p, true, fun _ _ x y _ => (x + y).toNat⟩
  | .vsub d a b p => some ⟨.reg d, .reg a, .reg b, p, true, fun _ _ x y _ => (x - y).toNat⟩
  | .vsubLink d a b p => some ⟨linkOperand d, linkOperand a, linkOperand b, p, true, fun _ _ x y _ => (x - y).toNat⟩
  | .vmul d a b p => some ⟨.reg d, .reg a, .reg b, p, true, fun _ _ x y _ => (x * y).toNat⟩
  | .vmulLink d a b p => some ⟨linkOperand d, linkOperand a, linkOperand b, p, true, fun _ _ x y _ => (x * y).toNat⟩
  | .vmulh d a b p => some ⟨.reg d, .reg a, .reg b, p, true, fun w _ x y _ => (BitVec.ofInt w (x.toInt * y.toInt / 2 ^ w)).toNat⟩
  | .vmulhLink d a b p => some ⟨linkOperand d, linkOperand a, linkOperand b, p, true, fun w _ x y _ => (BitVec.ofInt w (x.toInt * y.toInt / 2 ^ w)).toNat⟩
  | .vmulhn d a b p => some ⟨.reg d, .reg a, .reg b, p, true, fun w _ x y _ => (BitVec.ofNat w (x.toNat * y.toNat / 2 ^ w)).toNat⟩
  | .vmulhnLink d a b p => some ⟨linkOperand d, linkOperand a, linkOperand b, p, true, fun w _ x y _ => (BitVec.ofNat w (x.toNat * y.toNat / 2 ^ w)).toNat⟩
  | .vmac d a b p => some ⟨.reg d, .reg a, .reg b, p, true, fun _ _ x y z => (z + x * y).toNat⟩
  | .vmacLink d a b p => some ⟨linkOperand d, linkOperand a, linkOperand b, p, true, fun _ _ x y z => (z + x * y).toNat⟩
  | .vdiv d a b p => some ⟨.reg d, .reg a, .reg b, p, true, fun w _ x y _ => (if y = 0 then BitVec.allOnes w else BitVec.ofInt w (x.toInt.tdiv y.toInt) : BitVec w).toNat⟩
  | .vdivLink d a b p => some ⟨linkOperand d, linkOperand a, linkOperand b, p, true, fun w _ x y _ => (if y = 0 then BitVec.allOnes w else BitVec.ofInt w (x.toInt.tdiv y.toInt) : BitVec w).toNat⟩
  | .vdivn d a b p => some ⟨.reg d, .reg a, .reg b, p, true, fun w _ x y _ => (if y = 0 then BitVec.allOnes w else BitVec.ofNat w (x.toNat / y.toNat) : BitVec w).toNat⟩
  | .vdivnLink d a b p => some ⟨linkOperand d, linkOperand a, linkOperand b, p, true, fun w _ x y _ => (if y = 0 then BitVec.allOnes w else BitVec.ofNat w (x.toNat / y.toNat) : BitVec w).toNat⟩
  | .vrem d a b p => some ⟨.reg d, .reg a, .reg b, p, true, fun w _ x y _ => (if y = 0 then x else BitVec.ofInt w (x.toInt.tmod y.toInt) : BitVec w).toNat⟩
  | .vremLink d a b p => some ⟨linkOperand d, linkOperand a, linkOperand b, p, true, fun w _ x y _ => (if y = 0 then x else BitVec.ofInt w (x.toInt.tmod y.toInt) : BitVec w).toNat⟩
  | .vremn d a b p => some ⟨.reg d, .reg a, .reg b, p, true, fun w _ x y _ => (if y = 0 then x else BitVec.ofNat w (x.toNat % y.toNat) : BitVec w).toNat⟩
  | .vremnLink d a b p => some ⟨linkOperand d, linkOperand a, linkOperand b, p, true, fun w _ x y _ => (if y = 0 then x else BitVec.ofNat w (x.toNat % y.toNat) : BitVec w).toNat⟩
  | .vmin d a b p => some ⟨.reg d, .reg a, .reg b, p, true, fun w _ x y _ => (if x.toInt ≤ y.toInt then x else y : BitVec w).toNat⟩
  | .vminLink d a b p => some ⟨linkOperand d, linkOperand a, linkOperand b, p, true, fun w _ x y _ => (if x.toInt ≤ y.toInt then x else y : BitVec w).toNat⟩
  | .vminK d a b p => some ⟨linkOperand d, linkOperand a, linkOperand b, p, true, fun w _ x y _ => (if x.toInt ≤ y.toInt then x else y : BitVec w).toNat⟩
  | .vminn d a b p => some ⟨.reg d, .reg a, .reg b, p, true, fun w _ x y _ => (if x.toNat ≤ y.toNat then x else y : BitVec w).toNat⟩
  | .vminnLink d a b p => some ⟨linkOperand d, linkOperand a, linkOperand b, p, true, fun w _ x y _ => (if x.toNat ≤ y.toNat then x else y : BitVec w).toNat⟩
  | .vminnK d a b p => some ⟨linkOperand d, linkOperand a, linkOperand b, p, true, fun w _ x y _ => (if x.toNat ≤ y.toNat then x else y : BitVec w).toNat⟩
  | .vmax d a b p => some ⟨.reg d, .reg a, .reg b, p, true, fun w _ x y _ => (if x.toInt ≤ y.toInt then y else x : BitVec w).toNat⟩
  | .vmaxLink d a b p => some ⟨linkOperand d, linkOperand a, linkOperand b, p, true, fun w _ x y _ => (if x.toInt ≤ y.toInt then y else x : BitVec w).toNat⟩
  | .vmaxK d a b p => some ⟨linkOperand d, linkOperand a, linkOperand b, p, true, fun w _ x y _ => (if x.toInt ≤ y.toInt then y else x : BitVec w).toNat⟩
  | .vmaxn d a b p => some ⟨.reg d, .reg a, .reg b, p, true, fun w _ x y _ => (if x.toNat ≤ y.toNat then y else x : BitVec w).toNat⟩
  | .vmaxnLink d a b p => some ⟨linkOperand d, linkOperand a, linkOperand b, p, true, fun w _ x y _ => (if x.toNat ≤ y.toNat then y else x : BitVec w).toNat⟩
  | .vmaxnK d a b p => some ⟨linkOperand d, linkOperand a, linkOperand b, p, true, fun w _ x y _ => (if x.toNat ≤ y.toNat then y else x : BitVec w).toNat⟩
  | .vand d a b p => some ⟨.reg d, .reg a, .reg b, p, true, fun _ _ x y _ => (x &&& y).toNat⟩
  | .vandLink d a b p => some ⟨linkOperand d, linkOperand a, linkOperand b, p, true, fun _ _ x y _ => (x &&& y).toNat⟩
  | .vor d a b p => some ⟨.reg d, .reg a, .reg b, p, true, fun _ _ x y _ => (x ||| y).toNat⟩
  | .vorLink d a b p => some ⟨linkOperand d, linkOperand a, linkOperand b, p, true, fun _ _ x y _ => (x ||| y).toNat⟩
  | .vxor d a b p => some ⟨.reg d, .reg a, .reg b, p, true, fun _ _ x y _ => (x ^^^ y).toNat⟩
  | .vxorLink d a b p => some ⟨linkOperand d, linkOperand a, linkOperand b, p, true, fun _ _ x y _ => (x ^^^ y).toNat⟩
  | .vandn d a b p => some ⟨.reg d, .reg a, .reg b, p, true, fun _ _ x y _ => (x &&& ~~~y).toNat⟩
  | .vandnLink d a b p => some ⟨linkOperand d, linkOperand a, linkOperand b, p, true, fun _ _ x y _ => (x &&& ~~~y).toNat⟩
  | .vshl d a b p => some ⟨.reg d, .reg a, .reg b, p, true, fun w _ x y _ => (x <<< (y.toNat % w)).toNat⟩
  | .vshlLink d a b p => some ⟨linkOperand d, linkOperand a, linkOperand b, p, true, fun w _ x y _ => (x <<< (y.toNat % w)).toNat⟩
  | .vshr d a b p => some ⟨.reg d, .reg a, .reg b, p, true, fun w _ x y _ => (x >>> (y.toNat % w)).toNat⟩
  | .vshrLink d a b p => some ⟨linkOperand d, linkOperand a, linkOperand b, p, true, fun w _ x y _ => (x >>> (y.toNat % w)).toNat⟩
  | .vsra d a b p => some ⟨.reg d, .reg a, .reg b, p, true, fun w _ x y _ => (BitVec.ofInt w (x.toInt / 2 ^ (y.toNat % w))).toNat⟩
  | .vsraLink d a b p => some ⟨linkOperand d, linkOperand a, linkOperand b, p, true, fun w _ x y _ => (BitVec.ofInt w (x.toInt / 2 ^ (y.toNat % w))).toNat⟩
  | .vadds d a b p => some ⟨.reg d, .reg a, .reg b, p, true, fun w _ x y _ => (BitVec.ofInt w (max (-2 ^ (w - 1)) (min (2 ^ (w - 1) - 1) (x.toInt + y.toInt)))).toNat⟩
  | .vaddsLink d a b p => some ⟨linkOperand d, linkOperand a, linkOperand b, p, true, fun w _ x y _ => (BitVec.ofInt w (max (-2 ^ (w - 1)) (min (2 ^ (w - 1) - 1) (x.toInt + y.toInt)))).toNat⟩
  | .vaddsn d a b p => some ⟨.reg d, .reg a, .reg b, p, true, fun w _ x y _ => (BitVec.ofInt w (max 0 (min (2 ^ w - 1) ((x.toNat : Int) + y.toNat)))).toNat⟩
  | .vaddsnLink d a b p => some ⟨linkOperand d, linkOperand a, linkOperand b, p, true, fun w _ x y _ => (BitVec.ofInt w (max 0 (min (2 ^ w - 1) ((x.toNat : Int) + y.toNat)))).toNat⟩
  | .vsubs d a b p => some ⟨.reg d, .reg a, .reg b, p, true, fun w _ x y _ => (BitVec.ofInt w (max (-2 ^ (w - 1)) (min (2 ^ (w - 1) - 1) (x.toInt - y.toInt)))).toNat⟩
  | .vsubsLink d a b p => some ⟨linkOperand d, linkOperand a, linkOperand b, p, true, fun w _ x y _ => (BitVec.ofInt w (max (-2 ^ (w - 1)) (min (2 ^ (w - 1) - 1) (x.toInt - y.toInt)))).toNat⟩
  | .vsubsn d a b p => some ⟨.reg d, .reg a, .reg b, p, true, fun w _ x y _ => (BitVec.ofInt w (max 0 (min (2 ^ w - 1) ((x.toNat : Int) - y.toNat)))).toNat⟩
  | .vsubsnLink d a b p => some ⟨linkOperand d, linkOperand a, linkOperand b, p, true, fun w _ x y _ => (BitVec.ofInt w (max 0 (min (2 ^ w - 1) ((x.toNat : Int) - y.toNat)))).toNat⟩
  | .vabs d a p => some ⟨.reg d, .reg a, .none_, p, true, fun w _ x _ _ => (if x.toInt < 0 then -x else x : BitVec w).toNat⟩
  | .vabsLink d a p => some ⟨linkOperand d, linkOperand a, .none_, p, true, fun w _ x _ _ => (if x.toInt < 0 then -x else x : BitVec w).toNat⟩
  | .vneg d a p => some ⟨.reg d, .reg a, .none_, p, true, fun _ _ x _ _ => (-x).toNat⟩
  | .vnegLink d a p => some ⟨linkOperand d, linkOperand a, .none_, p, true, fun _ _ x _ _ => (-x).toNat⟩
  | .vclz d a p => some ⟨.reg d, .reg a, .none_, p, true, fun w _ x _ _ => (BitVec.ofNat w ((List.range w).reverse.takeWhile fun i => !x.getLsbD i).length).toNat⟩
  | .vclzLink d a p => some ⟨linkOperand d, linkOperand a, .none_, p, true, fun w _ x _ _ => (BitVec.ofNat w ((List.range w).reverse.takeWhile fun i => !x.getLsbD i).length).toNat⟩
  | .vpopc d a p => some ⟨.reg d, .reg a, .none_, p, true, fun w _ x _ _ => (BitVec.ofNat w ((List.range w).filter x.getLsbD).length).toNat⟩
  | .vpopcLink d a p => some ⟨linkOperand d, linkOperand a, .none_, p, true, fun w _ x _ _ => (BitVec.ofNat w ((List.range w).filter x.getLsbD).length).toNat⟩
  | .vcmpEq d a b p => some ⟨.pred d, .reg a, .reg b, p, true, fun _ _ x y _ => if x = y then 1 else 0⟩
  | .vcmpEqLink d a b p => some ⟨.pred d, linkOperand a, linkOperand b, p, true, fun _ _ x y _ => if x = y then 1 else 0⟩
  | .vcmpEqK d a b p => some ⟨.pred d, linkOperand a, linkOperand b, p, true, fun _ _ x y _ => if x = y then 1 else 0⟩
  | .vcmpNe d a b p => some ⟨.pred d, .reg a, .reg b, p, true, fun _ _ x y _ => if x ≠ y then 1 else 0⟩
  | .vcmpNeLink d a b p => some ⟨.pred d, linkOperand a, linkOperand b, p, true, fun _ _ x y _ => if x ≠ y then 1 else 0⟩
  | .vcmpNeK d a b p => some ⟨.pred d, linkOperand a, linkOperand b, p, true, fun _ _ x y _ => if x ≠ y then 1 else 0⟩
  | .vcmpLt d a b p => some ⟨.pred d, .reg a, .reg b, p, true, fun _ _ x y _ => if x.toInt < y.toInt then 1 else 0⟩
  | .vcmpLtLink d a b p => some ⟨.pred d, linkOperand a, linkOperand b, p, true, fun _ _ x y _ => if x.toInt < y.toInt then 1 else 0⟩
  | .vcmpLtK d a b p => some ⟨.pred d, linkOperand a, linkOperand b, p, true, fun _ _ x y _ => if x.toInt < y.toInt then 1 else 0⟩
  | .vcmpGe d a b p => some ⟨.pred d, .reg a, .reg b, p, true, fun _ _ x y _ => if y.toInt ≤ x.toInt then 1 else 0⟩
  | .vcmpGeLink d a b p => some ⟨.pred d, linkOperand a, linkOperand b, p, true, fun _ _ x y _ => if y.toInt ≤ x.toInt then 1 else 0⟩
  | .vcmpGeK d a b p => some ⟨.pred d, linkOperand a, linkOperand b, p, true, fun _ _ x y _ => if y.toInt ≤ x.toInt then 1 else 0⟩
  | .vcmpLtn d a b p => some ⟨.pred d, .reg a, .reg b, p, true, fun _ _ x y _ => if x.toNat < y.toNat then 1 else 0⟩
  | .vcmpLtnLink d a b p => some ⟨.pred d, linkOperand a, linkOperand b, p, true, fun _ _ x y _ => if x.toNat < y.toNat then 1 else 0⟩
  | .vcmpLtnK d a b p => some ⟨.pred d, linkOperand a, linkOperand b, p, true, fun _ _ x y _ => if x.toNat < y.toNat then 1 else 0⟩
  | .vcmpGen d a b p => some ⟨.pred d, .reg a, .reg b, p, true, fun _ _ x y _ => if y.toNat ≤ x.toNat then 1 else 0⟩
  | .vcmpGenLink d a b p => some ⟨.pred d, linkOperand a, linkOperand b, p, true, fun _ _ x y _ => if y.toNat ≤ x.toNat then 1 else 0⟩
  | .vcmpGenK d a b p => some ⟨.pred d, linkOperand a, linkOperand b, p, true, fun _ _ x y _ => if y.toNat ≤ x.toNat then 1 else 0⟩
  | .vsel d a b p => some ⟨.reg d, .reg a, .reg b, p, false, fun _ q x y _ => (if q then x else y).toNat⟩
  | .vselLink d a b p => some ⟨linkOperand d, linkOperand a, linkOperand b, p, false, fun _ q x y _ => (if q then x else y).toNat⟩
  | _ => none

/-- A word of majors 0x16 and 0x17 below F6 0x38: its operands, its predicate, and F of R114 to R120 in a format of `w`
bits under a rounding mode: the code and the flags, from the codes of a, b and d. -/
structure Sys2Proof.Machine.FloatWord where
  d : Operand
  a : Operand
  b : Operand
  p : PSel
  f : FpFormat → Nat → Rounding → Nat → Nat → Nat → Nat × Flags

/-- R114 to R120: the floating-point words. -/
def Sys2Proof.Machine.floatWord : Instr → Option FloatWord
  | .vfadd d a b p => some ⟨.reg d, .reg a, .reg b, p, fun f _ r x y _ => f.round r ((f.decode x).add r (f.decode y))⟩
  | .vfaddLink d a b p => some ⟨linkOperand d, linkOperand a, linkOperand b, p, fun f _ r x y _ => f.round r ((f.decode x).add r (f.decode y))⟩
  | .vfsub d a b p => some ⟨.reg d, .reg a, .reg b, p, fun f _ r x y _ => f.round r ((f.decode x).add r (f.decode y).neg)⟩
  | .vfsubLink d a b p => some ⟨linkOperand d, linkOperand a, linkOperand b, p, fun f _ r x y _ => f.round r ((f.decode x).add r (f.decode y).neg)⟩
  | .vfmul d a b p => some ⟨.reg d, .reg a, .reg b, p, fun f _ r x y _ => f.round r ((f.decode x).mul (f.decode y))⟩
  | .vfmulLink d a b p => some ⟨linkOperand d, linkOperand a, linkOperand b, p, fun f _ r x y _ => f.round r ((f.decode x).mul (f.decode y))⟩
  | .vfdiv d a b p => some ⟨.reg d, .reg a, .reg b, p, fun f _ r x y _ => f.round r ((f.decode x).div (f.decode y))⟩
  | .vfdivLink d a b p => some ⟨linkOperand d, linkOperand a, linkOperand b, p, fun f _ r x y _ => f.round r ((f.decode x).div (f.decode y))⟩
  | .vffma d a b p => some ⟨.reg d, .reg a, .reg b, p, fun f _ r x y z => f.round r (FpNum.fma r (f.decode x) (f.decode y) (f.decode z))⟩
  | .vffmaLink d a b p => some ⟨linkOperand d, linkOperand a, linkOperand b, p, fun f _ r x y z => f.round r (FpNum.fma r (f.decode x) (f.decode y) (f.decode z))⟩
  | .vffms d a b p => some ⟨.reg d, .reg a, .reg b, p, fun f _ r x y z => f.round r (FpNum.fma r (f.decode x) (f.decode y) (f.decode z).neg)⟩
  | .vffmsLink d a b p => some ⟨linkOperand d, linkOperand a, linkOperand b, p, fun f _ r x y z => f.round r (FpNum.fma r (f.decode x) (f.decode y) (f.decode z).neg)⟩
  | .vfnma d a b p => some ⟨.reg d, .reg a, .reg b, p, fun f _ r x y z => f.round r (FpNum.fma r (f.decode x).neg (f.decode y) (f.decode z))⟩
  | .vfnmaLink d a b p => some ⟨linkOperand d, linkOperand a, linkOperand b, p, fun f _ r x y z => f.round r (FpNum.fma r (f.decode x).neg (f.decode y) (f.decode z))⟩
  | .vfsqrt d a p => some ⟨.reg d, .reg a, .none_, p, fun f _ r x _ _ => f.round r (f.decode x).sqrt⟩
  | .vfsqrtLink d a p => some ⟨linkOperand d, linkOperand a, .none_, p, fun f _ r x _ _ => f.round r (f.decode x).sqrt⟩
  | .vfrsqa d a p => some ⟨.reg d, .reg a, .none_, p, fun f _ r x _ _ => f.round r (approxRsq (f.decode x))⟩
  | .vfrsqaLink d a p => some ⟨linkOperand d, linkOperand a, .none_, p, fun f _ r x _ _ => f.round r (approxRsq (f.decode x))⟩
  | .vfrcpa d a p => some ⟨.reg d, .reg a, .none_, p, fun f _ r x _ _ => f.round r (approxRcp (f.decode x))⟩
  | .vfrcpaLink d a p => some ⟨linkOperand d, linkOperand a, .none_, p, fun f _ r x _ _ => f.round r (approxRcp (f.decode x))⟩
  | .vfexa d a p => some ⟨.reg d, .reg a, .none_, p, fun f _ r x _ _ => f.round r (approxExa (f.decode x))⟩
  | .vfexaLink d a p => some ⟨linkOperand d, linkOperand a, .none_, p, fun f _ r x _ _ => f.round r (approxExa (f.decode x))⟩
  | .vflga d a p => some ⟨.reg d, .reg a, .none_, p, fun f _ r x _ _ => f.round r (approxLga (f.decode x))⟩
  | .vflgaLink d a p => some ⟨linkOperand d, linkOperand a, .none_, p, fun f _ r x _ _ => f.round r (approxLga (f.decode x))⟩
  | .vfmin d a b p => some ⟨.reg d, .reg a, .reg b, p, fun f _ _ x y _ => f.extremum true x y⟩
  | .vfminLink d a b p => some ⟨linkOperand d, linkOperand a, linkOperand b, p, fun f _ _ x y _ => f.extremum true x y⟩
  | .vfminK d a b p => some ⟨linkOperand d, linkOperand a, linkOperand b, p, fun f _ _ x y _ => f.extremum true x y⟩
  | .vfmax d a b p => some ⟨.reg d, .reg a, .reg b, p, fun f _ _ x y _ => f.extremum false x y⟩
  | .vfmaxLink d a b p => some ⟨linkOperand d, linkOperand a, linkOperand b, p, fun f _ _ x y _ => f.extremum false x y⟩
  | .vfmaxK d a b p => some ⟨linkOperand d, linkOperand a, linkOperand b, p, fun f _ _ x y _ => f.extremum false x y⟩
  | .vfcmpEq d a b p => some ⟨.pred d, .reg a, .reg b, p, fun f _ _ x y _ => let c := f.compare .eq x y; (if c.1 then 1 else 0, c.2)⟩
  | .vfcmpEqLink d a b p => some ⟨.pred d, linkOperand a, linkOperand b, p, fun f _ _ x y _ => let c := f.compare .eq x y; (if c.1 then 1 else 0, c.2)⟩
  | .vfcmpEqK d a b p => some ⟨.pred d, linkOperand a, linkOperand b, p, fun f _ _ x y _ => let c := f.compare .eq x y; (if c.1 then 1 else 0, c.2)⟩
  | .vfcmpLt d a b p => some ⟨.pred d, .reg a, .reg b, p, fun f _ _ x y _ => let c := f.compare .lt x y; (if c.1 then 1 else 0, c.2)⟩
  | .vfcmpLtLink d a b p => some ⟨.pred d, linkOperand a, linkOperand b, p, fun f _ _ x y _ => let c := f.compare .lt x y; (if c.1 then 1 else 0, c.2)⟩
  | .vfcmpLtK d a b p => some ⟨.pred d, linkOperand a, linkOperand b, p, fun f _ _ x y _ => let c := f.compare .lt x y; (if c.1 then 1 else 0, c.2)⟩
  | .vfcmpLe d a b p => some ⟨.pred d, .reg a, .reg b, p, fun f _ _ x y _ => let c := f.compare .le x y; (if c.1 then 1 else 0, c.2)⟩
  | .vfcmpLeLink d a b p => some ⟨.pred d, linkOperand a, linkOperand b, p, fun f _ _ x y _ => let c := f.compare .le x y; (if c.1 then 1 else 0, c.2)⟩
  | .vfcmpLeK d a b p => some ⟨.pred d, linkOperand a, linkOperand b, p, fun f _ _ x y _ => let c := f.compare .le x y; (if c.1 then 1 else 0, c.2)⟩
  | .vfcmpUn d a b p => some ⟨.pred d, .reg a, .reg b, p, fun f _ _ x y _ => let c := f.compare .un x y; (if c.1 then 1 else 0, c.2)⟩
  | .vfcmpUnLink d a b p => some ⟨.pred d, linkOperand a, linkOperand b, p, fun f _ _ x y _ => let c := f.compare .un x y; (if c.1 then 1 else 0, c.2)⟩
  | .vfcmpUnK d a b p => some ⟨.pred d, linkOperand a, linkOperand b, p, fun f _ _ x y _ => let c := f.compare .un x y; (if c.1 then 1 else 0, c.2)⟩
  | .vfabs d a p => some ⟨.reg d, .reg a, .none_, p, fun _ w _ x _ _ => (x % 2 ^ (w - 1), {})⟩
  | .vfneg d a p => some ⟨.reg d, .reg a, .none_, p, fun _ w _ x _ _ => ((x + 2 ^ (w - 1)) % 2 ^ w, {})⟩
  | .vfsgn d a b p => some ⟨.reg d, .reg a, .reg b, p, fun _ w _ x y _ => (y / 2 ^ (w - 1) * 2 ^ (w - 1) + x % 2 ^ (w - 1), {})⟩
  | .vfcls d a p => some ⟨.reg d, .reg a, .none_, p, fun f _ _ x _ _ => (classCode f x, {})⟩
  | _ => none

/-- A source operand that a word can read: an aligned group, or a link that a finished producer left with the shape of
the word (R126). -/
def Sys2Proof.Machine.State.canRead (s : State) : Operand → Prop
  | .none_ => True
  | .reg r => s.groupOk r
  | .pred _ => True
  | .link k => ∃ l, s.hart.link k = some l ∧ l.vl = s.hart.vl ∧ l.elems.length = s.hart.vl.toNat ∧
      l.interrupted = false ∧ l.fmt = s.hart.vty.extractLsb' 6 4 ∧ l.ew = s.hart.vty.extractLsb' 3 3

/-- A destination that a word can write: an aligned group, a predicate register, or an empty link (R124). -/
def Sys2Proof.Machine.State.canWrite (s : State) : Operand → Prop
  | .none_ => True
  | .reg r => s.groupOk r
  | .pred p => p.toNat < 24
  | .link k => s.hart.link k = none

/-- Element `i` of a result: of a group, of a link whose element is final, or a predicate bit. -/
def Sys2Proof.Machine.State.resultAt (s : State) (o : Operand) (i : Nat) : Option Nat :=
  match o with
  | .none_ => none
  | .reg r => some (s.elem r s.vtype.ew i)
  | .pred p => some (if s.hart.pbit p i then 1 else 0)
  | .link k => (s.hart.link k).bind fun l => match l.elems[i]? with
    | some (.final x) => some x.toNat
    | _ => none

/-- What an inactive position of a result holds: zero in a link (R125), and else what it held (R16). -/
def Sys2Proof.Machine.State.keptAt (s : State) (o : Operand) (i : Nat) : Option Nat :=
  match o with
  | .link _ => some 0
  | .none_ | .reg _ | .pred _ => s.resultAt o i

/-- A link that a source names is empty after its consumer (R126). -/
def Sys2Proof.Machine.State.consumed (s : State) (o : Operand) : Prop :=
  match o with
  | .link k => s.hart.link k = none
  | .none_ | .reg _ | .pred _ => True

/-- The integer words that move or combine bits, on FMT 0 to 7 (R113). -/
def Sys2Proof.Machine.bitwiseWord (i : Instr) : Prop :=
  ∃ d a b p, i = .vand d a b p ∨ i = .vor d a b p ∨ i = .vxor d a b p ∨ i = .vandn d a b p ∨ i = .vsel d a b p ∨
    i = .vandLink d a b p ∨ i = .vorLink d a b p ∨ i = .vxorLink d a b p ∨ i = .vandnLink d a b p ∨ i = .vselLink d a b p

/-- R16, R18, R110 to R113, R123 to R127: an integer word of either major, on a type that it admits and operands that it
can read and write, writes F at each active position below `vl`, keeps the others (zero in a link), empties the links it
reads, raises no flag, and retires with `vix` 0.
Where it rests on the model's choices: log entry 39.
It concludes a next state of: vand, vor, vxor, vandn, vsel, vandLink, vorLink, vxorLink, vandnLink, vselLink, vadd,
vaddLink, vsub, vsubLink, vmul, vmulLink, vmulh, vmulhLink, vmulhn, vmulhnLink, vmac, vmacLink, vdiv, vdivLink, vdivn,
vdivnLink, vrem, vremLink, vremn, vremnLink, vmin, vminLink, vminK, vminn, vminnLink, vminnK, vmax, vmaxLink, vmaxK,
vmaxn, vmaxnLink, vmaxnK, vshl, vshlLink, vshr, vshrLink, vsra, vsraLink, vadds, vaddsLink, vaddsn, vaddsnLink, vsubs,
vsubsLink, vsubsn, vsubsnLink, vabs, vabsLink, vneg, vnegLink, vclz, vclzLink, vpopc, vpopcLink, vcmpEq, vcmpEqLink,
vcmpEqK, vcmpNe, vcmpNeLink, vcmpNeK, vcmpLt, vcmpLtLink, vcmpLtK, vcmpGe, vcmpGeLink, vcmpGeK, vcmpLtn, vcmpLtnLink,
vcmpLtnK, vcmpGen, vcmpGenLink, vcmpGenK. -/
def Obligations.VectorIntegerResults : Prop :=
  ∀ (i : Instr) (o : IntWord) (s : State), intWord i = some o → i.wellFormed = true → s.vectorReady →
    (s.vtype.isInt = true ∨ s.vtype.isBlock = false ∧ bitwiseWord i) →
    s.canRead o.a → s.canRead o.b → s.canWrite o.d →
    let w := s.vtype.ew
    let x (q : Operand) (k : Nat) : BitVec w := BitVec.ofNat w (s.src s.vtype false q k)
    ∃ t, Runs i s t ∧ t.hart.vix = 0 ∧ t.hart.fcsr = s.hart.fcsr ∧
      t.consumed o.a ∧ t.consumed o.b ∧
      ∀ k < s.hart.vl.toNat, t.resultAt o.d k =
        if o.masks = false ∨ s.hart.active o.p k = true then
          some (o.f w (s.hart.pbit o.p k) (x o.a k) (x o.b k) (x o.d k))
        else s.keptAt o.d k

/-- R16, R18, R30 to R35, R110, R114 to R121, R123 to R127: a floating-point word of either major, on FMT 2 to 7, writes F
at each active position below `vl`, keeps the others (zero in a link), empties the links it reads, ORs the flags of the
active positions into `fcsr` (never UF or NX for a link), and retires with `vix` 0.
It concludes a next state of: vfadd, vfaddLink, vfsub, vfsubLink, vfmul, vfmulLink, vfdiv, vfdivLink, vffma,
vffmaLink, vffms, vffmsLink, vfnma, vfnmaLink, vfsqrt, vfsqrtLink, vfrsqa, vfrsqaLink, vfrcpa, vfrcpaLink, vfexa,
vfexaLink, vflga, vflgaLink, vfmin, vfminLink, vfminK, vfmax, vfmaxLink, vfmaxK, vfcmpEq, vfcmpEqLink, vfcmpEqK,
vfcmpLt, vfcmpLtLink, vfcmpLtK, vfcmpLe, vfcmpLeLink, vfcmpLeK, vfcmpUn, vfcmpUnLink, vfcmpUnK, vfabs, vfneg, vfsgn,
vfcls. -/
def Obligations.VectorFloatResults : Prop :=
  ∀ (i : Instr) (o : FloatWord) (s : State), floatWord i = some o → i.wellFormed = true → s.vectorReady →
    s.vtype.isFp = true → s.canRead o.a → s.canRead o.b → s.canWrite o.d →
    let f := fpOf s.vtype.fmt
    let rm := s.vectorRm
    let r (k : Nat) : Nat × Flags :=
      o.f f s.vtype.ew rm (s.src s.vtype false o.a k) (s.src s.vtype false o.b k) (s.src s.vtype false o.d k)
    let flags (k : Nat) : Flags := match o.d with
      | .link _ => { (r k).2 with uf := false, nx := false }
      | _ => (r k).2
    ∃ t, Runs i s t ∧ t.hart.vix = 0 ∧ t.consumed o.a ∧ t.consumed o.b ∧
      t.hart.fcsr = ((List.range s.hart.vl.toNat).filter fun k => s.hart.active o.p k).foldl
        (fun x k => x ||| (flags k).bits) s.hart.fcsr ∧
      ∀ k < s.hart.vl.toNat, t.resultAt o.d k =
        if s.hart.active o.p k = true then some (r k).1 else s.keptAt o.d k

/-- R16, R79, R110: the frame of majors 0x14 to 0x17 below F6 0x38: nothing but the destination, the links named, `fcsr`,
`vix`, `pc` and what a pass end changes; no byte of memory, and no element of a register destination at or above `vl`. -/
def Obligations.VectorArithmeticFrame : Prop :=
  ∀ (i : Instr) (d a b : Operand) (s t : State), i.wellFormed = true →
    ((∃ o, intWord i = some o ∧ o.d = d ∧ o.a = a ∧ o.b = b ∧ (s.vtype.isInt = true ∨ s.vtype.isBlock = false ∧ bitwiseWord i)) ∨
      (∃ o, floatWord i = some o ∧ o.d = d ∧ o.a = a ∧ o.b = b ∧ s.vtype.isFp = true)) →
    s.vectorReady → s.canRead a → s.canRead b → s.canWrite d → Runs i s t →
    OnlyHart s t ∧ SameBytes s t ∧
    t.hart = { s.hart with
      s := t.hart.s, v := t.hart.v, p := t.hart.p, dl := t.hart.dl, fcsr := t.hart.fcsr, vix := t.hart.vix, pc := t.hart.pc, front := t.hart.front
      run := t.hart.run, zol := t.hart.zol } ∧
    (∀ r, ¬ s.hart.loopPointer r → t.getS r = s.getS r) ∧
    (∀ r, r.toNat ∉ d.regs s.vtype → t.getV r = s.getV r) ∧
    (∀ p, d ≠ .pred p → t.getP p = s.getP p) ∧
    (∀ k, d.linkOf ≠ some k → a.linkOf ≠ some k → b.linkOf ≠ some k → t.hart.link k = s.hart.link k) ∧
    (∀ r k, d = .reg r → s.hart.vl.toNat ≤ k → k < s.vtype.vlmax → t.elem r s.vtype.ew k = s.elem r s.vtype.ew k)

/-- Operands D, A and B of an arithmetic word of majors 0x14 to 0x17. -/
def Sys2Proof.Machine.laneOperands (i : Instr) : Option (Operand × Operand × Operand) :=
  match intWord i with
  | some o => some (o.d, o.a, o.b)
  | none => (floatWord i).map fun o => (o.d, o.a, o.b)

/-- The word admits the type (R54). -/
def Sys2Proof.Machine.State.admitsWord (s : State) (i : Instr) : Prop :=
  if (intWord i).isSome then s.vtype.isInt = true ∨ s.vtype.isBlock = false ∧ bitwiseWord i else s.vtype.isFp = true

/-- An operand that is a register begins an aligned group (R11). -/
def Sys2Proof.Machine.State.aligned (s : State) (q : Operand) : Prop := ∀ r, q = .reg r → s.groupOk r

/-- Functions 0x00 to 0x0B of majors 0x16 and 0x17, which round (R32). -/
def Sys2Proof.Machine.roundsWord : Instr → Bool
  | .vfadd _ _ _ _ | .vfsub _ _ _ _ | .vfmul _ _ _ _ | .vffma _ _ _ _ | .vffms _ _ _ _ | .vfnma _ _ _ _ | .vfdiv _ _ _ _
  | .vfsqrt _ _ _ | .vfrsqa _ _ _ | .vfrcpa _ _ _ | .vfexa _ _ _ | .vflga _ _ _
  | .vfaddLink _ _ _ _ | .vfsubLink _ _ _ _ | .vfmulLink _ _ _ _ | .vffmaLink _ _ _ _ | .vffmsLink _ _ _ _
  | .vfnmaLink _ _ _ _ | .vfdivLink _ _ _ _ | .vfsqrtLink _ _ _ | .vfrsqaLink _ _ _ | .vfrcpaLink _ _ _
  | .vfexaLink _ _ _ | .vflgaLink _ _ _ => true
  | _ => false

/-- R52, R109: tests 8, 9, 12 and 13 on every arithmetic word of majors 0x14 to 0x17 below F6 0x38, of either form, in their
order: an illegal type traps with 0x040, a group that is not aligned with 0x041, a type that the word does not admit with
0x044, and of a word that rounds under DYN a reserved rounding mode with 0x045, the word in `tval`; and where they pass, `vl`
above VLMAX with 0x047, `vl` in `tval`. Tests 10 and 11 on words that can fail them: a segment load whose fields extend past
`v31` traps with 0x042, and a load or store of blocks whose companion register would be 32 with 0x043.
Where it rests on the model's choices: log entry 11. -/
def Obligations.VectorDecodeTests : Prop :=
  (∀ (s : State) (i : Instr) (w : BitVec 32) (d a b : Operand), laneOperands i = some (d, a, b) → encode i = some w →
    let v : Word := w.setWidth 64
    let legal := bit s.hart.vty 63 = false ∧ vtyLegal s.hart.vty = true
    let placed := s.aligned d ∧ s.aligned a ∧ s.aligned b
    let unrounded := roundsWord i = true ∧ bit s.hart.vty 15 = true ∧ 5 ≤ s.hart.fcsrRm.toNat
    (bit s.hart.vty 63 = true → Traps i s 0x040 v) ∧
    (legal → ¬ placed → Traps i s 0x041 v) ∧
    (legal → placed → ¬ s.admitsWord i → Traps i s 0x044 v) ∧
    (legal → placed → s.admitsWord i → unrounded → Traps i s 0x045 v) ∧
    (legal → placed → s.admitsWord i → ¬ unrounded → s.vtype.vlmax < s.hart.vl.toNat →
      Traps i s 0x047 (s.hart.vl.setWidth 64))) ∧
  (∀ (s : State) (d : VReg) (a : SReg) (n : BitVec 5) (p : PSel) (nb : Bool) (x : Path) (i : Instr) (w : BitVec 32),
    bit s.hart.vty 63 = false → vtyLegal s.hart.vty = true → s.groupOk d → encode i = some w →
    (s.vtype.isBlock = false → 32 < d.toNat + (n.toNat + 1) * s.vtype.gf →
      i = .vldsg d a n p nb x ∨ i = .vstsg d a n p nb x → Traps i s 0x042 (w.setWidth 64)) ∧
    (s.vtype.isBlock = true → d.toNat + s.vtype.gf = 32 →
      i = .vld d a p nb x ∨ i = .vst d a p nb x ∨ i = .vstu d a p nb x ∨ i = .vldff d a p x →
      Traps i s 0x043 (w.setWidth 64)))

/-- R124 to R126: every link that an arithmetic word of the link forms, or `accx`, names, once the checks before pass: a source
link, A before B, that is empty, or whose interrupted producer has left fewer elements than `vl`, traps with 0x201, and one of
another length, format or width with 0x203; then a destination link that is occupied, and not by the word's own interrupted
production, traps with 0x202; the link in `tval`. -/
def Sys2Proof.Rules.DigitLinkTraps : Prop :=
  (∀ (s : State) (i : Instr) (d a b : Operand) (k : BitVec 3), laneOperands i = some (d, a, b) → i.wellFormed = true →
    s.vectorReady → s.admitsWord i → s.aligned d → s.aligned a → s.aligned b →
    let none_ := s.hart.link k = none
    let short := ∃ l, s.hart.link k = some l ∧ l.interrupted = true ∧ l.produced < s.hart.vl.toNat
    let other := ∃ l, s.hart.link k = some l ∧ (l.interrupted = true → s.hart.vl.toNat ≤ l.produced) ∧
      (l.vl ≠ s.hart.vl ∨ l.fmt ≠ s.hart.vty.extractLsb' 6 4 ∨ l.ew ≠ s.hart.vty.extractLsb' 3 3)
    let full := ∃ l, s.hart.link k = some l ∧ l.interrupted = false
    (a = .link k → none_ ∨ short → Traps i s 0x201 (k.setWidth 64)) ∧
    (a = .link k → other → Traps i s 0x203 (k.setWidth 64)) ∧
    (s.canRead a → b = .link k → none_ ∨ short → Traps i s 0x201 (k.setWidth 64)) ∧
    (s.canRead a → b = .link k → other → Traps i s 0x203 (k.setWidth 64)) ∧
    (s.canRead a → s.canRead b → d = .link k → full → Traps i s 0x202 (k.setWidth 64))) ∧
  (∀ (s : State) (k a : BitVec 3) (b : SReg) (p : PSel) (l : Link), s.vectorReady → s.vtype.isBlock = false → s.vtype.ew ≠ 4 →
    let ctl := s.getS b
    bits ctl 13 51 = 0 → bit ctl 12 = false → (s.myCore.tile a).own = some s.hart.pos → bits ctl 0 11 + s.hart.vl.toNat ≤ 2048 →
    s.hart.link k = some l → l.interrupted = false → Traps (.accxLink k a b p) s 0x202 (k.setWidth 64))

/-! ### Operands from elsewhere (R18, R134 to R136, R246, R247, R275, R276) -/

/-- R18, R131, R134 to R137: an integer word on registers that goes on from `vix`, is cut short at a position, or reads through
`xlm`: it writes F at the active positions from `vix` on that it reaches, A and B read at the positions that the modifier
names where SEL selects them, and stands at the position reached, or retires; and the position that each MODE reads. -/
def Sys2Proof.Rules.ModifiedOperands : Prop :=
  (∀ (i : Instr) (o : IntWord) (s : State), intWord i = some o → i.wellFormed = true → s.vectorRuns → s.admitsWord i →
    o.d.linkOf = none → o.a.linkOf = none → o.b.linkOf = none → s.canRead o.a → s.canRead o.b → s.canWrite o.d →
    (s.hart.selA = true → overlaps (o.d.regs s.vtype) (o.a.regs s.vtype) = false) →
    (s.hart.selB = true → overlaps (o.d.regs s.vtype) (o.b.regs s.vtype) = false) →
    let w := s.vtype.ew
    let x (sel : Bool) (q : Operand) (k : Nat) : BitVec w := BitVec.ofNat w (s.src s.vtype sel q k)
    let lo := s.hart.vix.toNat
    let vl := s.hart.vl.toNat
    let n := match s.stop with
      | none => vl
      | some m => max lo (min m vl)
    ∃ t, Runs i s t ∧ t.hart.fcsr = s.hart.fcsr ∧ (vl ≤ n → t.hart.vix = 0) ∧
      (n < vl → t.hart.vix.toNat = n ∧ t.hart.pc = s.hart.pc) ∧
      ∀ k < vl, t.resultAt o.d k =
        if lo ≤ k ∧ k < n ∧ (o.masks = false ∨ s.hart.active o.p k = true) then
          some (o.f w (s.hart.pbit o.p k) (x s.hart.selA o.a k) (x s.hart.selB o.b k) (x false o.d k))
        else s.resultAt o.d k) ∧
  (∀ (x : Word) (i : Nat), let g := 2 ^ bits x 12 3; let k := i % g; let amt := bits x 0 11; let m := bits x 15 3
    (m = 0 → xlmMap x i = some i) ∧
    (m = 1 → xlmMap x i = if amt < g then some (i - k + amt) else none) ∧
    (m = 2 → xlmMap x i = if amt ≤ k then some (i - amt) else none) ∧
    (m = 3 → xlmMap x i = if k + amt < g then some (i + amt) else none) ∧
    (m = 4 → xlmMap x i = if k ^^^ amt < g then some (i - k + (k ^^^ amt)) else none) ∧
    (m = 5 → xlmMap x i = some (i - k + (g - 1 - k))))

/-- R275, R276: an integer word that reads register A from the vector queue mapped onto it: it waits while the queue is empty,
and else computes on the head entry, removes it as it retires, and leaves the register as it was; one that writes the register
traps with 0x056. -/
def Sys2Proof.Rules.QueuedOperands : Prop :=
  ∀ (i : Instr) (o : IntWord) (s : State) (w : BitVec 32) (k : BitVec 2) (r : VReg), intWord i = some o → i.wellFormed = true →
    encode i = some w → s.vtype.isInt = true → s.vtype.gf = 1 →
    s.hart.b = Vector.replicate 8 none → s.hart.nb = [] → s.stop = none → s.hart.vix = 0 →
    bit s.hart.vty 63 = false → vtyLegal s.hart.vty = true → s.hart.vl.toNat ≤ s.vtype.vlmax →
    s.hart.selA = false → s.hart.selB = false → bit s.hart.xlm 63 = false →
    s.hart.mapped k.toNat = true → s.hart.mappedReg k.toNat = r.toNat → (∀ j < 4, j ≠ k.toNat → s.hart.mapped j = false) →
    s.canRead o.a → s.canRead o.b → s.canWrite o.d →
    (o.d = .reg r → Traps i s 0x056 (w.setWidth 64)) ∧
    (o.d ≠ .reg r → o.a = .reg r → s.hart.vqueue k.toNat = [] → exec i s = .next (s.wait (.queuePop (k.setWidth 3)))) ∧
    (∀ v rest, o.d ≠ .reg r → o.a = .reg r → s.hart.vqueue k.toNat = v :: rest →
      let u := s.setV r v
      let e := s.vtype.ew
      let x (q : Operand) (j : Nat) : BitVec e := BitVec.ofNat e (u.src s.vtype false q j)
      ∃ t, Runs i s t ∧ t.hart.vqueue k.toNat = rest ∧ t.getV r = s.getV r ∧ t.hart.vix = 0 ∧
        ∀ j < s.hart.vl.toNat, t.resultAt o.d j =
          if o.masks = false ∨ s.hart.active o.p j = true then
            some (o.f e (s.hart.pbit o.p j) (x o.a j) (x o.b j) (x o.d j))
          else s.keptAt o.d j)

/-- R246, R247: an integer word that reads group A bound to a stream: a record of another type traps with 0x052, an exhausted
one with 0x050, a word that writes the group with 0x04F; else, where every byte of the strip is read, it computes on the strip
in place of the group, whose registers stay, and the record advances as the word retires. -/
def Sys2Proof.Rules.BoundOperands : Prop :=
  ∀ (i : Instr) (o : IntWord) (s : State) (w : BitVec 32) (k : Fin 8) (b : Binding), intWord i = some o → i.wellFormed = true →
    encode i = some w → s.vtype.isInt = true → (∀ j < 4, s.hart.mapped j = false) →
    s.hart.b = (Vector.replicate 8 none).set k (some b) → s.hart.nb = [] → s.stop = none → s.hart.vix = 0 →
    bit s.hart.vty 63 = false → vtyLegal s.hart.vty = true → s.hart.vl.toNat ≤ s.vtype.vlmax →
    s.hart.selA = false → s.hart.selB = false → bit s.hart.xlm 63 = false →
    s.canRead o.a → s.canRead o.b → s.canWrite o.d → o.a = .reg b.reg →
    let own := b.fmt = s.hart.vty.extractLsb' 6 4 ∧ b.ew = s.hart.vty.extractLsb' 3 3 ∧ b.gf = s.hart.vty.extractLsb' 10 2
    let kept := overlaps b.regs (o.d.regs s.vtype) = false
    (¬ kept → Traps i s 0x04F (w.setWidth 64)) ∧
    (kept → ¬ own → Traps i s 0x052 (BitVec.ofNat 64 k)) ∧
    (kept → own → b.count = 0 → Traps i s 0x050 (BitVec.ofNat 64 k)) ∧
    (∀ out u, kept → own → b.count ≠ 0 →
      s.readStrip b (b.ahead.headD []) [] (s.stripItems b) = (out, none, u) →
      let v := u.placeStrip b out
      let e := s.vtype.ew
      let x (q : Operand) (j : Nat) : BitVec e := BitVec.ofNat e (v.src s.vtype false q j)
      ∃ t, Runs i s t ∧ t.hart.b[k] = some b.advance ∧ (∀ r : VReg, r.toNat ∈ b.regs → t.getV r = s.getV r) ∧ t.hart.vix = 0 ∧
        ∀ j < s.hart.vl.toNat, t.resultAt o.d j =
          if o.masks = false ∨ s.hart.active o.p j = true then
            some (o.f e (s.hart.pbit o.p j) (x o.a j) (x o.b j) (x o.d j))
          else s.keptAt o.d j)


/-! ### Predicates, permutations, reductions, conversions (R131 to R150) -/

/-- R131, R133: the predicate words on FMT 0 to 7 write their bit at each position below `vl` and keep the others; `pffs`
and `pcnt` write the least set position, or `vl`, and the number of set positions.
It concludes a next state of: pand, por, pxor, pandn, pnot, pset, pmvv, pffs, pcnt. -/
def Obligations.PredicateWordResults : Prop :=
  ∀ (s : State) (d a b : PReg) (va : VReg) (sd : SReg), s.vectorReady → s.vtype.isBlock = false →
    d.toNat < 24 → a.toNat < 24 → b.toNat < 24 → s.groupOk va →
    let n := s.hart.vl.toNat
    let bitOf (r : PReg) (i : Nat) : Bool := (s.hart.getP r).getLsbD i
    let gives (i : Instr) (f : Nat → Bool) : Prop :=
      ∃ t, Runs i s t ∧ t.hart.vix = 0 ∧ t.hart.fcsr = s.hart.fcsr ∧ KeepsBut s t [] [d.toNat] [] ∧
        ∀ k < 2048, (t.hart.getP d).getLsbD k = if k < n then f k else bitOf d k
    gives (.pand d a b) (fun k => bitOf a k && bitOf b k) ∧ gives (.por d a b) (fun k => bitOf a k || bitOf b k) ∧
    gives (.pxor d a b) (fun k => bitOf a k ^^ bitOf b k) ∧ gives (.pandn d a b) (fun k => bitOf a k && !bitOf b k) ∧
    gives (.pnot d a) (fun k => !bitOf a k) ∧ gives (.pset d sd) (fun k => decide (k < (s.getS sd).toNat)) ∧
    gives (.pmvv d va) (fun k => (s.elem va s.vtype.ew k) != 0) ∧
    (∃ m : Nat, exec (.pffs sd a) s = .next (s.setS sd (BitVec.ofNat 64 m)).retireV ∧ m ≤ n ∧
      (∀ k < m, bitOf a k = false) ∧ (m < n → bitOf a m = true)) ∧
    exec (.pcnt sd a) s = .next (s.setS sd (BitVec.ofNat 64 ((List.range n).filter (bitOf a)).length)).retireV

/-- R131, R138, R139: the permutations on FMT 0 to 7 (`vid` on 0 and 1), with a destination group that does not meet group
A, write at each active position (`vcomp`: pack from position 0) the element named, zero bits outside the group, and keep
every other element; with an overlap they trap with 0x04A. -/
def Sys2Proof.Rules.PermutationResults : Prop :=
  ∀ (s : State) (d a b : VReg) (sb : SReg) (p : PSel) (q : PReg), s.vectorReady → s.vtype.isBlock = false →
    s.groupOk d → s.groupOk a → s.groupOk b → q.toNat < 24 →
    let t := s.vtype
    let n := s.hart.vl.toNat
    let old (r : VReg) (k : Nat) : Nat := s.elem r t.ew k
    let at_ (k : Nat) : Nat := if k < t.vlmax then old a k else 0
    let on (k : Nat) : Bool := s.hart.active p k
    let rank (k : Nat) : Nat := ((List.range k).filter (s.hart.pbit q)).length
    let gives (i : Instr) (f : Nat → Nat) : Prop :=
      ∃ u, Runs i s u ∧ u.hart.vix = 0 ∧ u.hart.fcsr = s.hart.fcsr ∧ KeepsBut s u (groupRegs d t.gf) [] [] ∧
        ∀ k < t.vlmax, u.elem d t.ew k = f k
    let each (f : Nat → Nat) (k : Nat) : Nat := if on k then f k else old d k
    gives (.vbc d sb p) (each fun _ => (s.getS sb).toNat % 2 ^ t.ew) ∧
    (t.isInt = true → gives (.vid d p) (each fun k => k % 2 ^ t.ew)) ∧
    (d ≠ a →
      gives (.vslup d a sb p) (each fun k => if k < (s.getS sb).toNat then 0 else at_ (k - (s.getS sb).toNat)) ∧
      gives (.vsldn d a sb p) (each fun k => at_ (k + (s.getS sb).toNat)) ∧
      gives (.vperm d a b p) (each fun k => at_ (old b k)) ∧
      gives (.vexp d a q) (fun k => if k < n ∧ s.hart.pbit q k = true then at_ (rank k) else old d k) ∧
      (∃ u, Runs (.vcomp d a q) s u ∧ u.hart.vix = 0 ∧ KeepsBut s u (groupRegs d t.gf) [] [] ∧
        (∀ k < n, s.hart.pbit q k = true → u.elem d t.ew (rank k) = old a k) ∧
        ∀ k < t.vlmax, rank n ≤ k → u.elem d t.ew k = old d k)) ∧
    (∀ i w, (i = .vslup d d sb p ∨ i = .vsldn d d sb p ∨ i = .vperm d d b p ∨ i = .vcomp d d q ∨ i = .vexp d d q) →
      encode i = some w → Traps i s 0x04A (w.setWidth 64))

/-- Partial results combined pairwise over `2 ^ level` lanes, the lower index of each pair on the left (R142). -/
def Sys2Proof.Machine.treeOver (op : Partial → Partial → Partial) (f : Nat → Partial) : Nat → Nat → Partial
  | 0, k => f k
  | level + 1, k => op (treeOver op f level (2 * k)) (treeOver op f level (2 * k + 1))

/-- R140: `vmvs` and `vmsv` move one element, whatever `vl`, `vix`, `xlm` and the predicates hold: the value of FMT 0 sign-extended, of 1
to 7 zero-extended, of a block format with the bytes of its companion; an index at or above VLMAX gives 0, or writes
nothing. -/
def Sys2Proof.Rules.ElementMoves : Prop :=
  ∀ (s : State) (a : VReg) (d b x : SReg), s.hart.b = Vector.replicate 8 none → (∀ k < 4, s.hart.mapped k = false) →
    s.hart.nb = [] → bit s.hart.vty 63 = false → vtyLegal s.hart.vty = true → s.groupOk a →
    (s.vtype.isBlock = true → a.toNat + s.vtype.gf ≤ 31) →
    let t := s.vtype
    let k := (s.getS b).toNat
    let c := companion a t
    let n := if t.fmt = 11 then 2 else 1
    let e := s.elem a t.ew k
    let code (y : Nat) : Nat := if t.fmt = 9 then y % 64 else y % 2 ^ t.ew
    (∃ v : Word, exec (.vmvs d a b) s = .next (s.setS d v).retireV ∧
      (t.vlmax ≤ k → v = 0) ∧
      (k < t.vlmax → t.fmt = 0 → v.toInt = (BitVec.ofNat t.ew e).toInt) ∧
      (k < t.vlmax → 1 ≤ t.fmt → t.fmt ≤ 7 → v.toNat = e) ∧
      (k < t.vlmax → 8 ≤ t.fmt → v.toNat = code e + 2 ^ 16 * s.elem c 8 (n * (k / 32)) +
        (if n = 2 then 2 ^ 24 * s.elem c 8 (n * (k / 32) + 1) else 0))) ∧
    (∃ u, Runs (.vmsv a x b) s u ∧ u.hart.vix = 0 ∧ u.hart.fcsr = s.hart.fcsr ∧
      KeepsBut s u (if k < t.vlmax then groupAll a t else []) [] [] ∧
      (k < t.vlmax → u.elem a t.ew k = code (s.getS x).toNat ∧
        (∀ j < t.vlmax, j ≠ k → u.elem a t.ew j = s.elem a t.ew j) ∧
        (t.isBlock = true → u.elem c 8 (n * (k / 32)) = bits (s.getS x) 16 8 ∧
          (n = 2 → u.elem c 8 (n * (k / 32) + 1) = bits (s.getS x) 24 8))))

/-- R141 to R145: the reductions write element 0 of D and nothing else. The unordered ones fold the active elements by
lane i mod 64, the lanes by a tree, and the seed last; `vrosum` folds in ascending order from the seed; `vscan` writes each
running value at its active position. Flags are the OR of the steps' flags.
It concludes a next state of: vrsum, vrmin, vrmax, vrand, vror, vrxor, vrosum, vscan. -/
def Obligations.ReductionResults : Prop :=
  ∀ (s : State) (d a : VReg) (p : PSel), s.vectorReady → s.vtype.isBlock = false → s.groupOk d → s.groupOk a →
    let t := s.vtype
    let n := s.hart.vl.toNat
    let rm := s.vectorRm
    let join (op : ScanOp) : Partial → Partial → Partial := combine op t rm
    let x (k : Nat) : Partial := (some (s.elem a t.ew k), {})
    let seed : Partial := (some (s.elem d t.ew 0), {})
    let fold (op : ScanOp) (y : Partial) (on : Nat → Bool) : Partial :=
      ((List.range n).filter fun k => s.hart.active p k && on k).foldl (fun y k => join op y (x k)) y
    let gives (i : Instr) (r : Partial) : Prop :=
      ∃ u, Runs i s u ∧ u.hart.vix = 0 ∧ KeepsBut s u (groupRegs d t.gf) [] [] ∧
        u.hart.fcsr = s.hart.fcsr ||| r.2.bits ∧ some (u.elem d t.ew 0) = r.1 ∧
        ∀ k < t.vlmax, 0 < k → u.elem d t.ew k = s.elem d t.ew k
    let unordered (op : ScanOp) : Partial :=
      join op seed (treeOver (join op) (fun l => fold op (none, {}) fun k => k % 64 == l) 6 0)
    gives (.vrsum d a p) (unordered .add) ∧ gives (.vrmin d a p) (unordered .min) ∧ gives (.vrmax d a p) (unordered .max) ∧
    gives (.vrand d a p) (unordered .and) ∧ gives (.vror d a p) (unordered .or) ∧ gives (.vrxor d a p) (unordered .xor) ∧
    gives (.vrosum d a p) (fold .add seed fun _ => true) ∧
    (∀ op : ScanOp, ∃ u, Runs (.vscan d a op p) s u ∧ u.hart.vix = 0 ∧ KeepsBut s u (groupRegs d t.gf) [] [] ∧
      u.hart.fcsr = s.hart.fcsr ||| (fold op (none, {}) fun _ => true).2.bits ∧
      ∀ k < t.vlmax, some (u.elem d t.ew k) =
        if s.hart.active p k then (fold op (none, {}) fun j => decide (j ≤ k)).1 else some (s.elem d t.ew k))

/-- R16, R27, R32 to R35, R37, R50, R146, R147: an element-wise conversion of an admitted pair, whose destination group is
aligned, in range and apart from its source, writes each active position in the destination width, ORs the flags of those
positions into `fcsr`, and keeps every other element and register. -/
def Sys2Proof.Rules.ConversionResults : Prop :=
  ∀ (i : Instr) (s : State) (d a : VReg) (b : CvtTo), s.vectorReady → s.groupOk a →
    let t := s.vtype
    let n := s.hart.vl.toNat
    let on (k : Nat) : Bool := s.hart.active b.p k
    let rm := s.vectorRm
    let c := b.fmt.toBits.toNat
    let blk (k : Nat) : FpNum := (s.hart.blockNums t a (k / 32)).getD (k % 32) (.nan false)
    let e (k : Nat) : Nat := s.elem a t.ew k
    let intval (k : Nat) : Int := if t.fmt = 0 then (BitVec.ofNat t.ew (e k)).toInt else e k
    let lo (w : Nat) : Int := if c = 0 then -2 ^ (w - 1) else 0
    let hi (w : Nat) : Int := if c = 0 then 2 ^ (w - 1) - 1 else 2 ^ w - 1
    let narrow (w k : Nat) : Nat × Flags := ((BitVec.ofInt w (max (lo w) (min (hi w) (intval k)))).toNat, {})
    let toFp (x : FpNum) : Nat × Flags := (fpOf c).round rm { num := x }
    let fp (k : Nat) : FpNum := (fpOf t.fmt).decode (e k)
    ∀ (w : Nat) (f : Nat → Nat × Flags),
      ((i = .vcvtH d a b ∧ pairHalf t c = some w ∧ f = if t.isInt then narrow w else fun k => toFp (fp k)) ∨
       (i = .vcvtD d a b ∧ pairDouble t c = some w ∧ f = if t.isInt then narrow w else fun k => toFp (fp k)) ∨
       (i = .vcvtFi d a b ∧ pairToInt t c = some w ∧
          f = fun k => let r := (fp k).toInt rm (lo w) (hi w); ((BitVec.ofInt w r.1).toNat, r.2)) ∨
       (i = .vcvtIf d a b ∧ pairFromInt t c = some w ∧
          f = fun k => toFp (.fin (decide (intval k < 0)) (intval k).natAbs 0)) ∨
       (i = .vcvtQ d a b ∧ b.fmt = .e2m1 ∧ pairQuant t c = some w ∧ f = fun k => match fp k with
          | .nan _ => (0, { nv := true })
          | .inf neg => (if neg then 15 else 7, { nv := true })
          | .fin x m y => e2m1.round rm { num := .fin x m y }) ∨
       (i = .vdeq d a b ∧ pairDeq t c = some w ∧ a.toNat + t.gf ≤ 31 ∧ f = fun k => toFp (blk k))) →
      t.gf * w ≤ 8 * t.ew → d.toNat % destRegs t w = 0 → d.toNat + destRegs t w ≤ 32 →
      overlaps (groupRegs d (destRegs t w)) (groupAll a t) = false →
      ∃ u, Runs i s u ∧ u.hart.vix = 0 ∧ KeepsBut s u (groupRegs d (destRegs t w)) [] [] ∧
        u.hart.fcsr = ((List.range n).filter on).foldl (fun x k => x ||| (f k).2.bits) s.hart.fcsr ∧
        ∀ k < 8192 * destRegs t w / w, u.elem d w k = if on k = true then (f k).1 else s.elem d w k

/-- R38, R50, R146, R148 to R150: `vcvt.mx`, and `vcvt.q` to MXFP4 and OX4, write each block that has an active position
whole: the codes of the encoding of its active elements under R148 or R149, the scale and the OX4 extension in the companion,
and its flags; an active NaN or infinity makes the codes zero and the scale 0xFF. A block with none keeps its values. -/
def Sys2Proof.Rules.BlockConversionResults : Prop :=
  ∀ (i : Instr) (s : State) (d a : VReg) (b : CvtTo) (w : Nat), s.vectorReady → s.groupOk a →
    let t := s.vtype
    let c := b.fmt.toBits.toNat
    let g := destRegs t w
    let n := s.hart.vl.toNat
    (i = .vcvtMx d a b ∧ pairMx t c = some w ∨ i = .vcvtQ d a b ∧ b.fmt ≠ .e2m1 ∧ pairQuant t c = some w) →
    d.toNat % g = 0 → d.toNat + g ≤ 31 → overlaps (groupRegs d (g + 1)) (groupRegs a t.gf) = false →
    let xs (j : Nat) : List (Option FpNum) := (List.range 32).map fun k =>
      if s.hart.active b.p (32 * j + k) then some ((fpOf t.fmt).decode (s.elem a t.ew (32 * j + k))) else none
    let e (j : Nat) : BlockCode := if c = 11 then encodeOx s.vectorRm (xs j) else encodeMx c s.vectorRm (xs j)
    let comp : VReg := d + BitVec.ofNat 5 g
    let live (j : Nat) : Bool := (xs j).any Option.isSome
    ∃ u, Runs i s u ∧ u.hart.vix = 0 ∧ KeepsBut s u (groupRegs d (g + 1)) [] [] ∧
      u.hart.fcsr = ((List.range (ceilDiv n 32)).filter live).foldl (fun x j => x ||| (e j).flags.bits) s.hart.fcsr ∧
      (∀ j < 8192 * g / (32 * w), live j = false → (∀ k < 32, u.elem d w (32 * j + k) = s.elem d w (32 * j + k)) ∧
        ∀ y < (if c = 11 then 2 else 1), u.elem comp 8 ((if c = 11 then 2 else 1) * j + y) = s.elem comp 8 ((if c = 11 then 2 else 1) * j + y)) ∧
      ∀ j < ceilDiv n 32, live j = true →
        (∀ k < 32, u.elem d w (32 * j + k) = (e j).codes.getD k 0) ∧
        u.elem comp 8 ((if c = 11 then 2 else 1) * j) = (e j).scale % 256 ∧
        (c = 11 → u.elem comp 8 (2 * j + 1) = (e j).ext % 256) ∧
        ((∃ k < 32, ∃ x, (xs j)[k]? = some (some x) ∧ x.nonFinite = true) →
          u.elem comp 8 ((if c = 11 then 2 else 1) * j) = 0xFF ∧ ∀ k < 32, u.elem d w (32 * j + k) = 0)

/-- R128, R129, R16, R18: `dlfl` empties its link, whatever `vl` and `xlm` hold, and retires; no other link, register or flag
changes; with an illegal `vty` it traps with 0x040. Of a link whose producer is interrupted the recorded shape is kept: the
producer, resumed where it was, occupies the link afresh under it, with zeros below `vix`. -/
def Sys2Proof.Rules.LinkFlush : Prop :=
  ∀ (s : State) (k : BitVec 3),
    (bit s.hart.vty 63 = false → ∃ t, Runs (.dlfl k) s t ∧ OnlyHart s t ∧
      t.hart = { s.hart with
        s := t.hart.s, dl := t.hart.dl, flushed := t.hart.flushed, vix := 0, pc := t.hart.pc, run := t.hart.run
        zol := t.hart.zol, front := t.hart.front } ∧
      t.hart.link k = none ∧ (∀ j, j ≠ k → t.hart.link j = s.hart.link j) ∧
      (∀ r, ¬ s.hart.loopPointer r → t.getS r = s.getS r) ∧
      (∀ (l : Link) (h : Hart), s.hart.link k = some l → l.interrupted = true → h.flushed = t.hart.flushed →
        l.pc = none ∨ l.pc = some h.pc → h.vix ≠ 0 →
        h.vix = BitVec.ofNat 11 (l.elems.findIdx fun e => e == .unproduced) →
        let y := h.freshLink k
        y.vl = l.vl ∧ y.fmt = l.fmt ∧ y.ew = l.ew ∧ y.elems.length = l.vl.toNat ∧
          ∀ i < l.vl.toNat, y.elems[i]? = some (if i < h.vix.toNat then .final 0 else .unproduced))) ∧
    (bit s.hart.vty 63 = true → Traps (.dlfl k) s 0x040 ((encVec 0x17 (k.setWidth 5) 0 0 31 0x3F).setWidth 64))


/-! ### Vector memory (R151 to R168) -/

/-- A word of majors 0x1B to 0x1D other than `vprobe`, as a state reads it: what it does, its address mode, its fields,
NB, and whether it admits the type (R151, R166). -/
structure Sys2Proof.Machine.MemForm where
  kind : NbKind
  mode : VMode
  d : BitVec 5
  a : BitVec 5
  p : BitVec 5
  nb : Bool
  ok : Bool

/-- R151: the forms. -/
def Sys2Proof.Machine.memForm (s : State) : Instr → Option MemForm
  | .vld d a p nb _ => some ⟨.load, .unit, d, a, p, nb, true⟩
  | .vldff d a p _ => some ⟨.load, .unit, d, a, p, false, true⟩
  | .vlds d a b p nb _ => some ⟨.load, .strided (s.getS b), d, a, p, nb, decide (s.vtype.isBlock = true ∨ 8 ≤ s.vtype.ew)⟩
  | .vldx d a b p nb _ => some ⟨.load, .indexed b, d, a, p, nb, decide (s.vtype.isBlock = false ∧ 8 ≤ s.vtype.ew)⟩
  | .vldsg d a n p nb _ => some ⟨.load, .segment (n.toNat + 1), d, a, p, nb,
      if s.vtype.isBlock then decide (n.toNat = 1) else decide (8 ≤ s.vtype.ew)⟩
  | .vst d a p nb _ | .vstu d a p nb _ => some ⟨.store, .unit, d, a, p, nb, true⟩
  | .vsts d a b p nb _ => some ⟨.store, .strided (s.getS b), d, a, p, nb, decide (s.vtype.isBlock = true ∨ 8 ≤ s.vtype.ew)⟩
  | .vstx d a b p nb _ | .vstxu d a b p nb _ =>
    some ⟨.store, .indexed b, d, a, p, nb, decide (s.vtype.isBlock = false ∧ 8 ≤ s.vtype.ew)⟩
  | .vstsg d a n p nb _ => some ⟨.store, .segment (n.toNat + 1), d, a, p, nb,
      if s.vtype.isBlock then decide (n.toNat = 1) else decide (8 ≤ s.vtype.ew)⟩
  | .vamo d a b p nb op _ => some ⟨.amo op, .indexed b, d, a, p, nb,
      decide (s.vtype.ew = 32 ∨ s.vtype.ew = 64) &&
      match op with
      | .add | .min | .max | .and | .or | .xor => decide (s.vtype.fmt ≤ 1)
      | .swap => decide (s.vtype.fmt ≤ 3)
      | .fadd => decide (s.vtype.fmt = 2 ∨ s.vtype.fmt = 3)⟩
  | _ => none

/-- The positions of the form are active under its predicate, or all of them under NB (R165). -/
def Sys2Proof.Machine.MemForm.on (m : MemForm) (s : State) (k : Nat) : Bool := s.hart.active (if m.nb then 31 else m.p) k

/-- The form's elements or blocks, with their addresses. -/
def Sys2Proof.Machine.MemForm.list (m : MemForm) (s : State) : List VItem := s.items s.vtype m.mode (s.getS m.a) (m.on s)

/-- The registers that the form moves data to or from (R153, R154). -/
def Sys2Proof.Machine.MemForm.data (m : MemForm) (s : State) : List Nat :=
  if s.vtype.isBlock then groupRegs m.d (s.vtype.gf + 1)
  else groupRegs m.d (s.vtype.gf * match m.mode with | .segment n => n | _ => 1)

/-- The type is admitted, the groups are aligned and in range, and an index group meets no register written (R11, R151,
R152). -/
def Sys2Proof.Machine.MemForm.fits (m : MemForm) (s : State) : Prop :=
  m.ok = true ∧ s.groupOk m.d ∧ (∀ r ∈ m.data s, r < 32) ∧
  match m.mode with
  | .indexed b => s.groupOk b ∧ (m.kind ≠ .store → overlaps (m.data s) (groupRegs b s.vtype.gf) = false)
  | _ => True

/-- Every element or block passes the checks of R156, and lands there. -/
def Sys2Proof.Machine.MemForm.lands (m : MemForm) (s : State) (xs : List VItem) (outs : List (VItem × List Landing))
    (u : State) : Prop :=
  s.probe (match m.kind with | .load => .load | .store => .store | .amo _ => .atomic) s.vtype
    (match m.mode with | .indexed _ => false | _ => true) [] xs = (outs.map fun x => (x.1, .ok x.2), u)

/-- R153, R154: the elements of a word are its active positions in ascending order, or the blocks with one, at the
addresses that the modes give. -/
def Sys2Proof.Rules.VectorAddresses : Prop :=
  ∀ (s : State) (base : Word) (on : Nat → Bool) (mode : VMode),
    let t := s.vtype
    let xs := s.items t mode base on
    let es := t.ew / 8
    (t.isBlock = false →
      xs.map VItem.pos = (List.range s.hart.vl.toNat).filter on ∧
      ∀ x ∈ xs, match mode with
        | .unit => x.addrs = [base + BitVec.ofNat 64 (if t.ew = 4 then x.pos / 2 else x.pos * es)]
        | .strided step => x.addrs = [base + BitVec.ofNat 64 x.pos * step]
        | .indexed r => x.addrs = [base + BitVec.ofNat 64 (s.elem r t.ew x.pos * es)]
        | .segment n => x.addrs.length = n ∧ ∀ f < n, x.addrs[f]? = some (base + BitVec.ofNat 64 ((x.pos * n + f) * es))) ∧
    (t.isBlock = true → ∀ x ∈ xs, x.pos % 32 = 0 ∧ (∃ k < 32, on (x.pos + k) = true) ∧
      x.addrs = [match mode with
        | .strided step => base + BitVec.ofNat 64 (x.pos / 32) * step
        | _ => base + BitVec.ofNat 64 (x.pos / 32 *
            (match t.fmt with | 8 => 33 | 9 => 25 | 10 => 17 | _ => 18))])

/-- LOST bits (R339, R167): bit i mod 32 for each active position i whose target is lost. -/
def Sys2Proof.Machine.lostBits (s : State) (on : Nat → Bool) (outs : List (VItem × List Landing)) (x : Word) : Prop :=
  ∀ j < 64, x.getLsbD j = (s.hart.rerr.getLsbD j || (decide (j < 32) && outs.any fun y => y.2.any Option.isNone &&
    (List.range (if s.vtype.isBlock then 32 else 1)).any fun k => on (y.1.pos + k) && (y.1.pos + k) % 32 == j))

/-- R153 to R155, R162, R163, R167, R168: a blocking load whose elements all pass their checks writes each active element
from its bytes (all ones for a lost target), keeps every other element and register, and retires with `vix` and `fm` 0; no
byte of memory changes, and the lines read are written back to their homes. -/
def Sys2Proof.Rules.VectorLoadResults : Prop :=
  ∀ (i : Instr) (m : MemForm) (s u : State) (outs : List (VItem × List Landing)), memForm s i = some m → m.kind = .load →
    m.nb = false → s.vectorReady → s.hart.fm = 0 → m.fits s → m.lands s (m.list s) outs u →
    let t := s.vtype
    let bytes (n : Nat) (l : Landing) : List Byte := match l with
      | some ks => s.bytes ks
      | none => List.replicate n 0xFF
    ∃ x, Runs i s x ∧ x = { s with hart := x.hart, cores := u.cores, dies := x.dies } ∧
      (∀ y ∈ outs, ∀ ks, some ks ∈ y.2 → ∀ k ∈ ks, x.homeByte k = x.byte k) ∧
      x.hart = { s.hart with s := x.hart.s, rerr := x.hart.rerr, fm := 0, vix := 0, pc := x.hart.pc, front := x.hart.front, run := x.hart.run, zol := x.hart.zol, v := x.hart.v } ∧
      lostBits s (m.on s) outs x.hart.rerr ∧ (∀ r, r.toNat ∉ m.data s → x.getV r = s.getV r) ∧
      (∀ r, ¬ s.hart.loopPointer r → x.getS r = s.getS r) ∧
      (t.isBlock = false → ∀ f, f < (match m.mode with | .segment n => n | _ => 1) → ∀ k < t.vlmax,
        x.elem (m.d + BitVec.ofNat 5 (f * t.gf)) t.ew k =
          match outs.find? (fun y => y.1.pos == k) with
          | none => s.elem (m.d + BitVec.ofNat 5 (f * t.gf)) t.ew k
          | some y =>
            let v := bytesToNat (bytes (if t.ew = 4 then 1 else t.ew / 8) (y.2.getD f none))
            if t.ew = 4 then v / 2 ^ (4 * (k % 2)) % 16 else v) ∧
      (t.isBlock = true → ∀ y ∈ outs,
        let n := if t.fmt = 11 then 2 else 1
        let image := bytes (blockSize t.fmt) (y.2.headD none)
        (∀ k < 32, x.elem m.d t.ew (y.1.pos + k) =
          if m.on s (y.1.pos + k) then codeOf t.fmt (image.drop n) k else s.elem m.d t.ew (y.1.pos + k)) ∧
        ∀ j < n, x.elem (companion m.d t) 8 (n * (y.1.pos / 32) + j) = (image.getD j 0).toNat)

/-- R158, R163: a unit-stride load whose elements are all local and whose first fault is at item `x`: `vldff` trims `vl` to
a position above its lowest active one and retires; otherwise both words trap with the fault's cause and address, having
written no register. -/
def Sys2Proof.Rules.FirstFaultTrims : Prop :=
  ∀ (s u : State) (d : VReg) (a : SReg) (p : PSel) (path : Path) (x : VItem) (f : VFault)
    (outs : List (VItem × Except VFault (List Landing))), s.vectorReady → s.hart.fm = 0 → s.groupOk d →
    s.vtype.isBlock = false →
    let items := s.items s.vtype .unit (s.getS a) (s.hart.active p)
    (∀ y ∈ items, s.remote y = false) → s.probe .load s.vtype true [] items = (outs, u) →
    (outs.find? fun y => match y.2 with | .error _ => true | .ok _ => false) = some (x, .error f) →
    exec (.vld d a p false path) s = .next (u.trap f.cause f.addr) ∧
    ((items.headD x).pos = x.pos → exec (.vldff d a p path) s = .next (u.trap f.cause f.addr)) ∧
    ((items.headD x).pos < x.pos → ∃ t, Runs (.vldff d a p path) s t ∧ t.hart.vl.toNat = x.pos ∧ t.hart.vix = 0 ∧
      t.hart.hs = s.hart.hs ∧ ∀ k < s.vtype.vlmax, x.pos ≤ k → t.elem d s.vtype.ew k = s.elem d s.vtype.ew k)

/-- A byte after one element or block has been stored: R153, R154, a nibble at EW 4. -/
def Sys2Proof.Machine.storedByte (s : State) (d : VReg) (key : Nat) (old : Byte) (y : VItem × List Landing) : Byte :=
  let t := s.vtype
  (y.2.zip (List.range y.2.length)).foldl (fun old (l, f) => match l with
    | none => old
    | some ks =>
      let x := s.elem (d + BitVec.ofNat 5 (f * t.gf)) t.ew y.1.pos
      if t.isBlock = false ∧ t.ew = 4 then
        if ks.contains key then
          (if y.1.pos % 2 = 0 then BitVec.ofNat 8 (old.toNat / 16 * 16 + x) else BitVec.ofNat 8 (old.toNat % 16 + 16 * x))
        else old
      else
        let bs := if t.isBlock then s.hart.blockImage t d (y.1.pos / 32) else natToBytes (t.ew / 8) x
        match (ks.zip bs).reverse.find? (fun c => c.1 == key) with
        | some c => c.2
        | none => old) old

/-- R153 to R155, R159, R160, R167: a blocking store whose elements all pass their checks stores each active element, or
the whole image of each block with an active one, in ascending order of position; every other byte keeps its value, and
no register but `rerr`, `vix`, `fm` and `pc` changes. -/
def Sys2Proof.Rules.VectorStoreResults : Prop :=
  ∀ (i : Instr) (m : MemForm) (s u : State) (outs : List (VItem × List Landing)), memForm s i = some m → m.kind = .store →
    m.nb = false → s.vectorReady → s.hart.fm = 0 → m.fits s → m.lands s (m.list s) outs u →
    ∃ x, Runs i s x ∧
      x = { s with hart := x.hart, cores := u.cores, dies := x.dies, mem := x.mem, poison := x.poison } ∧
      x.hart = { s.hart with s := x.hart.s, rerr := x.hart.rerr, fm := 0, vix := 0, pc := x.hart.pc, front := x.hart.front, run := x.hart.run, zol := x.hart.zol } ∧
      lostBits s (m.on s) outs x.hart.rerr ∧ (∀ r, ¬ s.hart.loopPointer r → x.getS r = s.getS r) ∧
      ∀ key, x.byte key = outs.foldl (storedByte s m.d key) (s.byte key)

/-- R166: the effects of the atomics of a word on memory, and the old values, in the order given. -/
def Sys2Proof.Machine.amoFold (s : State) (op : VamoOp) (rm : Rounding) (d : VReg) :
    List (VItem × List Landing) → (Nat → Byte) → (Nat → Byte) × List (Nat × Nat × Flags)
  | [], mem => (mem, [])
  | y :: rest, mem => match y.2.headD none with
    | none => let r := amoFold s op rm d rest mem; (r.1, (y.1.pos, 2 ^ s.vtype.ew - 1, {}) :: r.2)
    | some ks =>
      let old := bytesToNat (ks.map mem)
      let new := vamoUpdate op s.vtype rm old (s.elem d s.vtype.ew y.1.pos)
      let bs := natToBytes (s.vtype.ew / 8) new.1
      let r := amoFold s op rm d rest fun k => match (ks.zip bs).reverse.find? (fun c => c.1 == k) with
        | some c => c.2
        | none => mem k
      (r.1, (y.1.pos, old, new.2) :: r.2)

/-- R155, R166, R167, R340: a blocking `vamo` whose elements all pass their checks performs them by ascending address, ties
by position: each writes OP of the old value and its element of D to memory, the old value to the element (all ones for a
lost target), and its flags to `fcsr`; nothing else changes. A lost target is not performed where its loss was known; where
it may not have been, the word still completes, with all ones and the LOST bit of the position. -/
def Sys2Proof.Rules.VectorAtomicResults : Prop :=
  ∀ (d : VReg) (a : SReg) (b : VReg) (p : PSel) (op : VamoOp) (path : Path) (m : MemForm) (s u : State)
    (outs : List (VItem × List Landing)), memForm s (.vamo d a b p false op path) = some m → s.vectorReady →
    s.hart.fm = 0 → m.fits s → m.lands s (m.list s) outs u →
    let r := amoFold s op s.vectorRm d (sortItems outs) s.byte
    let unknown (y : VItem × List Landing) : Bool := s.lossUnknown (s.scalarHow .atomic).master (y.1.addrs.headD 0)
    (∃ x, Runs (.vamo d a b p false op path) s x ∧ x.hart.vix = 0 ∧ x.hart.fm = 0 ∧
      ∀ y ∈ outs, y.2.headD none = none → x.elem d s.vtype.ew y.1.pos = 2 ^ s.vtype.ew - 1 ∧
        x.hart.rerr.getLsbD (y.1.pos % 32) = true) ∧
    ((∀ y ∈ outs, y.2.headD none = none → unknown y = false) → ∃ x, Runs (.vamo d a b p false op path) s x ∧
      x = { s with hart := x.hart, cores := u.cores, dies := x.dies, mem := x.mem, poison := x.poison } ∧
      x.hart = { s.hart with s := x.hart.s, rerr := x.hart.rerr, fm := 0, vix := 0, pc := x.hart.pc, front := x.hart.front, run := x.hart.run, zol := x.hart.zol, v := x.hart.v, fcsr := x.hart.fcsr } ∧
      lostBits s (m.on s) outs x.hart.rerr ∧
      (∀ q, q.toNat ∉ groupRegs d s.vtype.gf → x.getV q = s.getV q) ∧ (∀ q, ¬ s.hart.loopPointer q → x.getS q = s.getS q) ∧
      x.hart.fcsr = r.2.foldl (fun y z => y ||| z.2.2.bits) s.hart.fcsr ∧ (∀ k, x.byte k = r.1 k) ∧
      ∀ k < s.vtype.vlmax, x.elem d s.vtype.ew k = match r.2.find? (fun z => z.1 == k) with
        | some z => z.2.1
        | none => s.elem d s.vtype.ew k)

/-- R165, R212: a non-blocking form whose local elements pass their checks, on a semaphore that its team may name, retires
at once with one access outstanding, which holds its elements, the local ones where their checks found them, its semaphore
and the bytes it will post, those of one field of every position below `vl`; with `vl` 0 none is outstanding. No register and no byte of memory changes. -/
def Sys2Proof.Rules.NonBlockingIssues : Prop :=
  ∀ (i : Instr) (m : MemForm) (s c u : State) (outs : List (VItem × List Landing)), memForm s i = some m → m.nb = true →
    s.vectorReady → s.hart.fm = 0 → m.fits s → s.claimSema (coreOf s.hart.pos) (m.p.setWidth 6) s.hart.team = some c →
    m.lands c ((m.list c).filter fun x => !c.remote x) outs u →
    ∃ x, Runs i s x ∧ x = { s with hart := x.hart, cores := u.cores, dies := u.dies } ∧
      x.hart = { s.hart with s := x.hart.s, fm := 0, vix := 0, pc := x.hart.pc, front := x.hart.front, run := x.hart.run, zol := x.hart.zol, nb := x.hart.nb } ∧
      (∀ r, ¬ s.hart.loopPointer r → x.getS r = s.getS r) ∧
      (s.hart.vl = 0 → x.hart.nb = []) ∧
      (s.hart.vl ≠ 0 → ∃ y, x.hart.nb = [y] ∧ y.kind = m.kind ∧ y.sem = m.p.setWidth 6 ∧ y.d = m.d ∧
        y.items = outs.map recorded ++ ((m.list s).filter s.remote).map (fun x => (x, none)) ∧
        y.bytes = (let n := s.hart.vl.toNat
          if s.vtype.isBlock then (n + 31) / 32 * blockSize s.vtype.fmt
          else if s.vtype.ew = 4 then (n + 1) / 2
          else n * (s.vtype.ew / 8)))

/-- R155, R164: `vprobe` sets the bit of each active position by the checks of a load of its element, made in ascending
order, and keeps every other bit; a misaligned element gives 0, and of a remote one only the first checks are made; it
writes no other register and no byte of memory. -/
def Sys2Proof.Rules.ProbeResults : Prop :=
  ∀ (s : State) (d : PReg) (a : SReg) (b : VReg) (p : PSel), s.vectorReady → s.vtype.isBlock = false → 8 ≤ s.vtype.ew →
    s.groupOk b → d.toNat < 24 →
    let items := s.items s.vtype (.indexed b) (s.getS a) (s.hart.active p)
    ∃ t, Runs (.vprobe d a b p) s t ∧ t = { s with hart := t.hart, cores := t.cores, dies := t.dies } ∧
      KeepsBut s { s with hart := t.hart } [] [d.toNat] [] ∧ t.hart.vix = 0 ∧ t.hart.fcsr = s.hart.fcsr ∧
      (∀ k < 2048, s.hart.active p k = false → t.hart.pbit d k = s.hart.pbit d k) ∧
      (∀ x ∈ items, (x.addrs.headD 0).toNat % (s.vtype.ew / 8) ≠ 0 → t.hart.pbit d x.pos = false) ∧
      (∀ x ∈ items, (x.addrs.headD 0).toNat % (s.vtype.ew / 8) = 0 → s.remote x = true →
        (t.hart.pbit d x.pos = true ↔ (aPkg (x.addrs.headD 0)).toNat < s.podSize (pkgOf s.hart.pos) ∧
          ∃ sp, s.namesSpace (s.vectorHow .load x.pos).master true (x.addrs.headD 0) (s.vtype.ew / 8) = some sp ∧ sp ≠ .regs)) ∧
      (∀ x, items = [x] → (x.addrs.headD 0).toNat % (s.vtype.ew / 8) = 0 → s.remote x = false →
        (t.hart.pbit d x.pos = true ↔ ∃ r, s.check (s.vectorHow .load x.pos) (x.addrs.headD 0) (s.vtype.ew / 8) = .ok r))


/-! ### Streams and rows (R237 to R247) -/

/-- R245, R246: `bind` on a free record, a group that no bound group meets, and a well-formed descriptor of the current
format stores the record; `unbind` empties it, and may leave zeros in its registers and no other; `bndq` reads it. -/
def Sys2Proof.Rules.StreamBindingResults : Prop :=
  ∀ (s u : State) (d : BitVec 3) (a : VReg) (b sd : SReg) (bs : List Byte), bit s.hart.vty 63 = false →
    let t := s.vtype
    let r := s.getS b
    let w := bytesToWords 4 bs
    let w3 := wordAt w 3
    let others (x y : State) : Prop := ∀ j, j ≠ d → x.hart.b.get j.toFin = y.hart.b.get j.toFin
    (s.groupOk a → (t.isBlock = true → a.toNat + t.gf ≤ 31) → s.hart.b.get d.toFin = none →
      (∀ x ∈ s.hart.bindings, overlaps (groupAll a t) x.2.regs = false) → r.toNat % 32 = 0 →
      s.scalarRead r 32 = .ok (bs, u) →
      bits w3 9 7 = 0 → bits w3 4 4 = 0 → bits w3 40 24 ≠ 0 → bits w3 0 4 = t.fmt →
      (if bit w3 8 then 8 ≤ t.fmt else wordAt w 2 = 0 ∧ bits w3 16 24 = 0) →
      ∃ x, Runs (.bind d a b) s x ∧ others s x ∧ x.hart.v = s.hart.v ∧ x.hart.p = s.hart.p ∧ SameBytes s x ∧
        ∃ y, x.hart.b.get d.toFin = some y ∧ y.reg = a ∧ y.vtype = t ∧ y.base = wordAt w 0 ∧ y.stride = wordAt w 1 ∧
          y.sbase = wordAt w 2 ∧ y.sstride = w3.extractLsb' 16 24 ∧ y.count.toNat = bits w3 40 24 ∧ y.planar = bit w3 8 ∧
          y.ahead = []) ∧
    (∃ x, Runs (.unbind d) s x ∧ x.hart.b.get d.toFin = none ∧ others s x ∧ x.hart.vix = 0 ∧ x.hart.p = s.hart.p ∧
      SameBytes s x ∧ ∀ q, x.getV q = s.getV q ∨
        (x.getV q = 0 ∧ ∃ y, s.hart.b.get d.toFin = some y ∧ q.toNat ∈ y.regs.map (· % 32))) ∧
    exec (.bndq sd d) s = .next (s.setS sd (match s.hart.b.get d.toFin with
      | some y => BitVec.ofNat 64 (2 ^ 63 + y.reg.toNat * 2 ^ 32 + y.count.toNat)
      | none => 0)).retireV

/-- R237 to R240, R244: `rowpin` on a row of its own package that nothing has pinned takes a free slot of the row's
channel for the team and writes its handle; on a row that its team has pinned it writes that handle; `rowrel` of a current
handle, once the hart's earlier accesses through it are performed, frees the slot and raises its generation; `rowq` reads the team's count and quota, or whether a handle is current. -/
def Sys2Proof.Rules.RowBufferResults : Prop :=
  ∀ (s u : State) (d a : SReg) (p : Place),
    let x := s.getS a
    let die := aDieId x
    let slotAt (y : State) (k : Nat) : RowBuf := (y.die die).rows.getD k {}
    let ch := p.keys.headD 0 / 2 ^ 44 % 64
    let row := p.keys.headD 0 % 2 ^ 44 / 1024
    let handle (gen : BitVec 24) (sl : Nat) : Word :=
      BitVec.ofNat 64 (die.toNat * 2 ^ 51 + 2 ^ 50 + 33 * 2 ^ 44 + gen.toNat * 2 ^ 19 + ch * 2 ^ 13 + sl * 2 ^ 10)
    (x.toNat % 1024 = 0 → aPkg x = pkgOf s.hart.pos → (aSp x = false ∨ aUnit x = 40) → (s.die die).failed = false →
      s.check (s.scalarHow .load) x 1 = .ok (p, u) →
      ((∀ sl < 8, (slotAt s (8 * ch + sl)).row ≠ some row) → u.heldRows s.hart.team < s.rowQuota →
        (∃ sl < 8, (slotAt s (8 * ch + sl)).row = none) →
        ∃ t sl, Runs (.rowpin d a) s t ∧ sl < 8 ∧ (slotAt s (8 * ch + sl)).row = none ∧
          (d ≠ 0 → ¬ s.hart.loopPointer d → t.getS d = handle (slotAt s (8 * ch + sl)).gen sl) ∧
          (slotAt t (8 * ch + sl)).row = some row ∧ (slotAt t (8 * ch + sl)).team = s.hart.team ∧
          (slotAt t (8 * ch + sl)).gen = (slotAt s (8 * ch + sl)).gen ∧ SameBytes s t ∧
          ∀ k, k ≠ 8 * ch + sl → slotAt t k = slotAt s k) ∧
      (∀ sl < 8, (slotAt s (8 * ch + sl)).row = some row → (slotAt s (8 * ch + sl)).team = s.hart.team →
        (∀ k < sl, (slotAt s (8 * ch + k)).row ≠ some row) →
        ∃ t, Runs (.rowpin d a) s t ∧ (∀ k, slotAt t k = slotAt s k) ∧
          (d ≠ 0 → ¬ s.hart.loopPointer d → t.getS d = handle (slotAt s (8 * ch + sl)).gen sl))) ∧
    (s.rowWindow x = true → s.hart.usesHandle x = false → x.toNat % 1024 = 0 → s.check (s.scalarHow .load) x 1 = .ok (p, u) →
      let k := 8 * (x.toNat / 2 ^ 13 % 64) + x.toNat / 2 ^ 10 % 8
      ∃ t, Runs (.rowrel a) s t ∧ (slotAt t k).row = none ∧ (slotAt t k).gen = (slotAt s k).gen + 1 ∧
        (∀ j, j ≠ k → slotAt t j = slotAt s j) ∧ SameBytes s t ∧ (∀ r, ¬ s.hart.loopPointer r → t.getS r = s.getS r)) ∧
    (∃ v, exec (.rowq d a) s = .next (s.setS d v).retireV ∧
      (x = 0 → v = BitVec.ofNat 64 (s.heldRows s.hart.team * 2 ^ 16) ||| BitVec.ofNat 64 s.rowQuota) ∧
      (x ≠ 0 → (bit v 63 = true ↔ s.rowWindow x = true ∧ x.toNat % 1024 = 0 ∧
        (slotAt s (8 * (x.toNat / 2 ^ 13 % 64) + x.toNat / 2 ^ 10 % 8)).row.isSome = true ∧
        (slotAt s (8 * (x.toNat / 2 ^ 13 % 64) + x.toNat / 2 ^ 10 % 8)).saved = false ∧
        (slotAt s (8 * (x.toNat / 2 ^ 13 % 64) + x.toNat / 2 ^ 10 % 8)).gen.toNat = x.toNat / 2 ^ 19 % 2 ^ 24 ∧
        (slotAt s (8 * (x.toNat / 2 ^ 13 % 64) + x.toNat / 2 ^ 10 % 8)).team = s.hart.team)))

/-! ### The matrix unit (R169 to R180) -/

/-- Nothing changes but the executing core, and of the hart what a retirement without operands in registers changes. -/
def Sys2Proof.Machine.KeepsHart (s t : State) : Prop :=
  t = { s with hart := t.hart, cores := t.cores } ∧ (∀ c, c ≠ coreOf s.hart.pos → t.core c = s.core c) ∧
  t.hart = { s.hart with s := t.hart.s, vix := 0, pc := t.hart.pc, front := t.hart.front, run := t.hart.run, zol := t.hart.zol } ∧
  ∀ r, ¬ s.hart.loopPointer r → t.getS r = s.getS r

/-- R170, R171: `omcl` claims a free slot within the quota, and is done if its hart holds it; `omrl` releases a held one,
which then clears, and which the copies under way into it write no more; `accz` claims a free tile within the quota, or one its hart holds, with every entry +0. -/
def Sys2Proof.Rules.SlotAndTileClaims : Prop :=
  ∀ (s : State) (b : BitVec 4) (d : BitVec 3), bit s.hart.vty 63 = false →
    let c := s.myCore
    let me := some s.hart.pos
    ((c.slot b).own = me → exec (.omcl b) s = .next s.retireV) ∧
    ((c.slot b).own = none → (c.slot b).clearing = false →
      (c.slots.toList.filter fun y => y.own == me).length < s.quota 4 5 →
      ∃ t, Runs (.omcl b) s t ∧ KeepsHart s t ∧ t.myCore = c.setSlot b { c.slot b with own := me }) ∧
    ((c.slot b).own = me → ∃ t, Runs (.omrl b) s t ∧ KeepsHart s t ∧
      { t.myCore with cpyq := c.cpyq } = c.setSlot b { clearing := true } ∧ t.myCore.cpyq.length = c.cpyq.length) ∧
    ((c.tile d).own = me ∨ (c.tile d).own = none ∧ (c.tiles.toList.filter fun y => y.own == me).length < s.quota 9 4 →
      (c.tile d).clearing = false →
      ∃ t, Runs (.accz d) s t ∧ KeepsHart s t ∧ t.myCore = c.setTile d { own := me } ∧
        ∀ e, (t.myCore.tile d).entry e = {})

/-- R172 to R174: `settl` on a type of the matrix table with M at most 32 writes the rows, columns and depth granted, and changes no CSR. -/
def Sys2Proof.Rules.TileGrants : Prop :=
  ∀ (s : State) (d a : SReg), bit s.hart.vty 63 = false → s.vtype.matrix.isSome = true →
    let t := s.vtype
    let m := t.gf * 2 ^ bits s.hart.vty 12 3
    m ≤ 32 →
    let cap := if t.fmt = 10 ∨ t.fmt = 11 then 512 else if t.fmt = 4 ∨ t.fmt = 5 then 128 else 256
    let k := min (s.getS (a + 2)).toNat (min (t.vlmax / m) cap)
    exec (.settl d a) s = .next
      (((s.setS d (BitVec.ofNat 64 (min (s.getS a).toNat m))).setS (d + 1) (BitVec.ofNat 64 (min (s.getS (a + 1)).toNat 64))).setS
        (d + 2) (BitVec.ofNat 64 (if t.isBlock then (k + 31) / 32 * 32 else k))).advance ∧
    ∀ x, Runs (.settl d a) s x → x.hart.vix = s.hart.vix

/-- R38, R169, R175: `tld` into a slot that its hart holds, with a well-formed control word, writes the code of element
(column − C0) × KL + (row − K0) at each row and column of the fill, the companion bytes of each block, and no other place;
with FIN the slot is ready with its extents. -/
def Sys2Proof.Rules.SlotFillResults : Prop :=
  ∀ (s : State) (d : SReg) (a : VReg) (b : BitVec 4), s.vectorReady → s.groupOk a → s.vtype.matrix.isSome = true →
    (s.vtype.isBlock = true → a.toNat + s.vtype.gf ≤ 31) →
    let t := s.vtype
    let ctl := s.getS d
    let x := s.myCore.slot b
    let vl := s.hart.vl.toNat
    let fin := bit ctl 24
    let c0 := bits ctl 18 6
    let kl := bits ctl 9 9 + 1
    let k0 := bits ctl 0 9
    let cols := vl / kl
    let cap := if t.fmt = 10 ∨ t.fmt = 11 then 512 else if t.fmt = 4 ∨ t.fmt = 5 then 128 else 256
    let n := if t.fmt = 11 then 2 else 1
    ctl.toNat < 2 ^ 25 → x.own = some s.hart.pos → x.copies = 0 →
    (x.st = .filling → x.fmt = s.hart.vty.extractLsb' 6 4 ∧ x.ew = s.hart.vty.extractLsb' 3 3) →
    vl % kl = 0 → k0 + kl ≤ cap → c0 + cols ≤ 64 → (t.isBlock = true → k0 % 32 = 0 ∧ kl % 32 = 0) →
    (fin = true → 0 < c0 + cols) →
    ∃ u, Runs (.tld d a b) s u ∧ KeepsHart s u ∧
      let y := u.myCore.slot b
      u.myCore = s.myCore.setSlot b y ∧ y.own = x.own ∧ y.st = (if fin then .ready else .filling) ∧
      y.fmt = s.hart.vty.extractLsb' 6 4 ∧ y.ew = s.hart.vty.extractLsb' 3 3 ∧
      (fin = true → y.kr = k0 + kl ∧ y.n = c0 + cols ∧ y.kc = 0) ∧
      (∀ r, ∀ c < 64, y.code t.ew r c =
        if k0 ≤ r ∧ r < k0 + kl ∧ c0 ≤ c ∧ c < c0 + cols then
          (let e := s.elem a t.ew ((c - c0) * kl + (r - k0)); if t.fmt = 9 then e % 64 else e)
        else x.code t.ew r c) ∧
      (t.isBlock = true → ∀ kb, ∀ c < 64, ∀ o < n, (memGet y.side (2 * (64 * kb + c) + o)).toNat =
        if k0 ≤ 32 * kb ∧ 32 * kb < k0 + kl ∧ c0 ≤ c ∧ c < c0 + cols then
          s.elem (companion a t) 8 (n * (((c - c0) * kl + (32 * kb - k0)) / 32) + o)
        else (memGet x.side (2 * (64 * kb + c) + o)).toNat)

/-- R46, R173, R176, R177: `mma` on a held tile and a held, ready slot of the current format adds, K-group by K-group in
ascending order, the products of row i of A and column j of the slot to entry (i, j), changes no other entry, moves the
cursor, and raises the flags of the groups; with `vl` 0 it only retires. -/
def Sys2Proof.Rules.MultiplyAccumulateResults : Prop :=
  ∀ (s : State) (d : BitVec 3) (a : VReg) (b : BitVec 4), s.vectorReady → s.groupOk a → s.vtype.matrix.isSome = true →
    (s.vtype.isBlock = true → a.toNat + s.vtype.gf ≤ 31) →
    let t := s.vtype
    let m := t.gf * 2 ^ bits s.hart.vty 12 3
    let x := s.myCore.slot b
    let vl := s.hart.vl.toNat
    let k := vl / m
    let g := if t.fmt = 10 ∨ t.fmt = 11 then 16 else if t.fmt = 4 ∨ t.fmt = 5 then 4 else 8
    m ≤ 32 → (s.myCore.tile d).own = some s.hart.pos → x.own = some s.hart.pos → x.st = .ready →
    x.fmt = s.hart.vty.extractLsb' 6 4 → x.ew = s.hart.vty.extractLsb' 3 3 → x.n ≤ 64 →
    (vl = 0 → exec (.mma d a b) s = .next s.retireV) ∧
    (0 < vl → vl % m = 0 → x.kc + k ≤ x.kr → (t.isBlock = true → k % 32 = 0) →
      let groups (i j : Nat) : List (List (FpNum × FpNum)) :=
        chunks g ((k + g - 1) / g) ((rowOfA t a s.hart i k).zip (colOfB t x j k))
      let sum (i j : Nat) : AccEntry × Flags := (groups i j).foldl addGroup ((s.myCore.tile d).entry (64 * i + j), {})
      ∃ u, Runs (.mma d a b) s u ∧ KeepsHart s { u with hart := { u.hart with fcsr := s.hart.fcsr } } ∧
        u.myCore.slot b = { x with kc := if x.kc + k = x.kr then 0 else x.kc + k } ∧
        (u.myCore.tile d).own = some s.hart.pos ∧
        u.myCore = (s.myCore.setSlot b (u.myCore.slot b)).setTile d (u.myCore.tile d) ∧
        (∀ e, (u.myCore.tile d).entry e =
          if e / 64 < m ∧ e % 64 < x.n then (sum (e / 64) (e % 64)).1 else (s.myCore.tile d).entry e) ∧
        u.hart.fcsr = (List.range m).foldl (fun y i => (List.range x.n).foldl (fun y j => y ||| (sum i j).2.bits) y) s.hart.fcsr)

/-- R47, R124, R125, R178, R179: `accx` on a held tile writes Narrow of an entry at each active position, or the halves of
the images under IMG; the link form fills an empty link, with zeros at inactive positions and neither UF nor NX; REL
releases the tile, which then clears. -/
def Sys2Proof.Rules.ExtractionResults : Prop :=
  ∀ (s : State) (d : VReg) (k a : BitVec 3) (b : SReg) (p : PSel), s.vectorReady → s.groupOk d →
    s.vtype.isBlock = false → 8 ≤ s.vtype.ew →
    let t := s.vtype
    let ctl := s.getS b
    let vl := s.hart.vl.toNat
    let e0 := bits ctl 0 11
    let tile := s.myCore.tile a
    let entry (i : Nat) : Nat × Flags := (tile.entry (e0 + i)).narrow t s.vectorRm
    let on (i : Nat) : Bool := s.hart.active p i
    let cores (u : State) : Prop := (∀ c, c ≠ coreOf s.hart.pos → u.core c = s.core c) ∧
      u.myCore = if bit ctl 11 then s.myCore.setTile a { clearing := true } else s.myCore
    ctl.toNat < 2 ^ 13 → tile.own = some s.hart.pos →
    (bit ctl 12 = false → e0 + vl ≤ 2048 →
      (∃ u, Runs (.accx d a b p) s u ∧ cores u ∧ KeepsBut s { u with cores := s.cores } (groupRegs d t.gf) [] [] ∧
        u.hart.vix = 0 ∧ u.hart.fcsr = ((List.range vl).filter on).foldl (fun y i => y ||| (entry i).2.bits) s.hart.fcsr ∧
        ∀ i < t.vlmax, u.elem d t.ew i = if on i then (entry i).1 else s.elem d t.ew i) ∧
      (s.hart.link k = none → ∃ u, Runs (.accxLink k a b p) s u ∧ cores u ∧ u.hart.vix = 0 ∧ u.hart.v = s.hart.v ∧
        u.hart.p = s.hart.p ∧
        u.hart.fcsr = ((List.range vl).filter on).foldl
          (fun y i => y ||| ({ (entry i).2 with uf := false, nx := false } : Flags).bits) s.hart.fcsr ∧
        (∀ j, j ≠ k → u.hart.link j = s.hart.link j) ∧
        ∃ l, u.hart.link k = some l ∧ l.vl = s.hart.vl ∧ l.elems.length = vl ∧
          ∀ i < vl, l.elems[i]? = some (.final (if on i then BitVec.ofNat 64 (entry i).1 else 0)))) ∧
    (bit ctl 12 = true → t.fmt ≤ 1 → t.ew = 64 → vl % 2 = 0 → e0 + vl / 2 ≤ 2048 →
      ∃ u, Runs (.accx d a b p) s u ∧ cores u ∧ KeepsBut s { u with cores := s.cores } (groupRegs d t.gf) [] [] ∧
        u.hart.vix = 0 ∧ u.hart.fcsr = s.hart.fcsr ∧
        ∀ i < t.vlmax, u.elem d 64 i =
          if on i then (tile.entry (e0 + i / 2)).image.toNat / 2 ^ (64 * (i % 2)) % 2 ^ 64 else s.elem d 64 i)

/-- R170, R171, R173 to R179: the traps of the matrix unit's words in the order of their tests, each with its cause and `tval`. -/
def Sys2Proof.Rules.MatrixTraps : Prop :=
  ∀ (s : State) (sd sa : SReg) (d a : VReg) (b : BitVec 4) (n k : BitVec 3) (p : PSel), s.vectorReady →
    let t := s.vtype
    let c := s.myCore
    let x := c.slot b
    let y := c.tile n
    let me := some s.hart.pos
    let slot : Word := b.setWidth 64
    let tile : Word := n.setWidth 64
    let m := t.gf * 2 ^ bits s.hart.vty 12 3
    let vl := s.hart.vl.toNat
    let cap := if t.fmt = 10 ∨ t.fmt = 11 then 512 else if t.fmt = 4 ∨ t.fmt = 5 then 128 else 256
    let same := x.fmt = s.hart.vty.extractLsb' 6 4 ∧ x.ew = s.hart.vty.extractLsb' 3 3
    let group := s.groupOk a ∧ t.matrix.isSome = true ∧ (t.isBlock = true → a.toNat + t.gf ≤ 31)
    -- claims and releases
    (x.own ≠ none → x.own ≠ me → Traps (.omcl b) s 0x242 slot) ∧
    (x.own = none → s.quota 4 5 ≤ (c.slots.toList.filter fun z => z.own == me).length → Traps (.omcl b) s 0x243 slot) ∧
    (x.own ≠ me → Traps (.omrl b) s 0x241 slot) ∧
    (y.own ≠ none → y.own ≠ me → Traps (.accz n) s 0x245 tile) ∧
    (y.own = none → s.quota 9 4 ≤ (c.tiles.toList.filter fun z => z.own == me).length → Traps (.accz n) s 0x246 tile) ∧
    -- `settl`
    (∀ w, encode (.settl sd sa) = some w → t.matrix.isSome = true → 32 < m → Traps (.settl sd sa) s 0x04B (w.setWidth 64)) ∧
    -- `tld`
    (let ctl := s.getS sd
     let kl := bits ctl 9 9 + 1
     let cols := bits ctl 18 6 + vl / kl
     let k0 := bits ctl 0 9
     group → (2 ^ 25 ≤ ctl.toNat → Traps (.tld sd a b) s 0x24C ctl) ∧
      (ctl.toNat < 2 ^ 25 → (x.own ≠ me → Traps (.tld sd a b) s 0x241 slot) ∧
        (x.own = me → x.copies = 0 → (x.st = .filling → ¬ same → Traps (.tld sd a b) s 0x248 slot) ∧
          ((x.st = .filling → same) →
            vl % kl ≠ 0 ∨ cap < k0 + kl ∨ 64 < cols ∨ (t.isBlock = true ∧ (k0 % 32 ≠ 0 ∨ kl % 32 ≠ 0)) ∨
              (bit ctl 24 = true ∧ cols = 0) → Traps (.tld sd a b) s 0x249 ctl)))) ∧
    -- `mma`
    (group → (∀ w, encode (.mma n a b) = some w → 32 < m → Traps (.mma n a b) s 0x04B (w.setWidth 64)) ∧
      (m ≤ 32 → (y.own ≠ me → Traps (.mma n a b) s 0x244 tile) ∧
        (y.own = me → (x.own ≠ me → Traps (.mma n a b) s 0x241 slot) ∧
          (x.own = me → (x.st ≠ .ready → Traps (.mma n a b) s 0x247 slot) ∧
            (x.st = .ready → (¬ same → Traps (.mma n a b) s 0x248 slot) ∧
              (same → 0 < vl → vl % m ≠ 0 ∨ x.kr < x.kc + vl / m ∨ (t.isBlock = true ∧ vl / m % 32 ≠ 0) →
                Traps (.mma n a b) s 0x24A (BitVec.ofNat 64 vl))))))) ∧
    -- `accx`, to a group and to a link
    (let ctl := s.getS sd
     let img := bit ctl 12
     let e0 := bits ctl 0 11
     let long := img = true ∧ vl % 2 = 1 ∨ 2048 < e0 + (if img then vl / 2 else vl)
     t.isBlock = false → t.ew ≠ 4 →
      (s.groupOk d →
        (2 ^ 13 ≤ ctl.toNat ∨ img = true ∧ (1 < t.fmt ∨ t.ew ≠ 64) → Traps (.accx d n sd p) s 0x24C ctl) ∧
        (ctl.toNat < 2 ^ 13 → (img = true → t.fmt ≤ 1 ∧ t.ew = 64) →
          (y.own ≠ me → Traps (.accx d n sd p) s 0x244 tile) ∧ (y.own = me → long → Traps (.accx d n sd p) s 0x24B ctl))) ∧
      (2 ^ 13 ≤ ctl.toNat ∨ img = true → Traps (.accxLink k n sd p) s 0x24C ctl) ∧
      (ctl.toNat < 2 ^ 13 → img = false →
        (y.own ≠ me → Traps (.accxLink k n sd p) s 0x244 tile) ∧ (y.own = me → long → Traps (.accxLink k n sd p) s 0x24B ctl)))

/-- R45 to R48, R179: what the wide format gives. A K-group of whole numbers, added to an entry that holds a whole number, gives
their exact sum while it is below 2^96, and no flag; a sum that 96 bits do not hold is rounded to nearest, ties to even; 0 × ∞,
∞ − ∞ and a signalling NaN raise NV, a quiet NaN nothing, and an exponent above 32,767 gives an infinity with OF. The image of
−3.25 and what images restore. Narrow to integers clamps with NV, and takes a NaN to 0; to FP it is RoundTo. -/
def Sys2Proof.Rules.WideFormatValues : Prop :=
  let int (n : Int) : FpNum := .fin (decide (n < 0)) n.natAbs 0
  let holds (x : AccEntry) (n : Int) : Prop := x.cls = .finite ∧ 0 ≤ x.e ∧
    (if x.sign then -(x.m.toNat : Int) else x.m.toNat) * 2 ^ x.e.toNat = n * 2 ^ 95
  let one : AccEntry := { m := 2 ^ 95, e := 95 }
  let half : FpNum := .fin false 1 (-1)
  let inf (neg : Bool) : AccEntry := { cls := .inf, sign := neg }
  let nan : AccEntry := { cls := .nan }
  let x325 : AccEntry := { sign := true, m := 0xD00000000000000000000000, e := 1 }
  (∀ (x : AccEntry) (f : Flags) (n : Int) (g : List (Int × Int)), holds x n →
    let total := n + (g.map fun y => y.1 * y.2).sum
    total.natAbs < 2 ^ 96 →
    holds (addGroup (x, f) (g.map fun y => (int y.1, int y.2))).1 total ∧
      (addGroup (x, f) (g.map fun y => (int y.1, int y.2))).2 = f) ∧
  addGroup (one, {}) [(int 1, half)] = (one, {}) ∧ addGroup (one, {}) [(int 3, half)] = ({ one with m := 2 ^ 95 + 2 }, {}) ∧
  addGroup ({}, {}) [(int 0, .inf false)] = (nan, { nv := true }) ∧ addGroup ({}, {}) [(int 1, .nan true)] = (nan, { nv := true }) ∧
  addGroup ({}, {}) [(int 1, .nan false)] = (nan, {}) ∧ addGroup (inf true, {}) [(int 1, .inf false)] = (nan, { nv := true }) ∧
  addGroup ({}, {}) [(int (-2), .inf false)] = (inf true, {}) ∧
  addGroup ({ m := BitVec.allOnes 96, e := 32767 }, {}) [(int 1, .fin false 1 32767)] = (inf false, { of := true }) ∧
  x325.image = 0x00010001D00000000000000000000000 ∧ entryOfImage x325.image = some x325 ∧
  entryOfImage 0x00010002680000000000000000000000 = some x325 ∧ (inf true).image = 0x00030000000000000000000000000000 ∧
  nan.image = 0x00040000000000000000000000000000 ∧ entryOfImage 0x00020000000000000000000000000001 = some (inf false) ∧
  entryOfImage 0x00060000000000000000000000000000 = none ∧ entryOfImage 0x00080000000000000000000000000000 = none ∧
  entryOfImage 0x00008000000000000000000000000000 = none ∧
  x325.narrow ⟨8, 0, 1⟩ .nearestEven = (0xFD, { nx := true }) ∧ x325.narrow ⟨8, 0, 1⟩ .down = (0xFC, { nx := true }) ∧
  x325.narrow ⟨8, 1, 1⟩ .nearestEven = (0, { nv := true }) ∧ nan.narrow ⟨8, 0, 1⟩ .nearestEven = (0, { nv := true }) ∧
  (inf false).narrow ⟨8, 0, 1⟩ .nearestEven = (127, { nv := true }) ∧ x325.narrow ⟨32, 3, 1⟩ .nearestEven = (0xC0500000, {}) ∧
  nan.narrow ⟨32, 3, 1⟩ .nearestEven = (0x7FC00000, {}) ∧ (inf true).narrow ⟨32, 3, 1⟩ .nearestEven = (0xFF800000, {}) ∧
  (inf false).narrow ⟨8, 6, 1⟩ .nearestEven = (0x7F, { nv := true })


/-! ### Barriers, semaphores, queues, channels and teams (R200 to R223) -/

/-- R209: a barrier waits, or, when every other participant of its instance waits in it and the accesses of the engine commands
that the participants pushed are performed, retires at every participant; `bar.lane` waits for nothing but these. A participant is
a live hart of the same team at the same subteam in the same unit; one that has left its context under pre-emption has not arrived
(R208). -/
def Sys2Proof.Rules.BarrierResults : Prop :=
  ∀ (s : State) (sc : Scope), (s.harts.map Hart.pos).Nodup → s.hart.placed = true →
    let others := (s.participants sc s.hart).filter fun x => x.pos != s.hart.pos
    let here (x : Hart) : Bool := x.run == .waiting (.bar sc) && x.path == s.hart.path
    let away := (s.gone s.hart.team).any fun x => x.inTeam s.hart.team s.hart.path && sameUnit sc x.pos s.hart.pos
    let busy := (s.participants sc s.hart).any fun x => s.engineBusy x.pos
    (s.engineBusy s.hart.pos = false → exec (.bar .lane) s = .next s.advance) ∧
    (s.engineBusy s.hart.pos = true → exec (.bar .lane) s = .next (s.wait .fence)) ∧
    (sc ≠ .lane → others.all here = false ∨ away = true ∨ busy = true → exec (.bar sc) s = .next (s.wait (.bar sc))) ∧
    (sc ≠ .lane → others.all here = true → away = false → busy = false → ∃ t, Runs (.bar sc) s t ∧ t.hart = s.hart.advance ∧ SameBytes s t ∧
      (∀ x ∈ others, t.hartAt x.pos = x.advance) ∧
      ∀ x ∈ s.parked, x.pos ∉ others.map Hart.pos → t.hartAt x.pos = x)

/-- R207, R211 to R215: the semaphore words, on a semaphore that the team holds or claims: `sacq` subtracts its amount, or
waits behind earlier arrivals and for the count; `srel` adds, or traps with 0x205 past 2^48 − 1; `stry` returns the state
with OK, subtracts where it can, and clears the sticky bits under CLR. With a reserved bit set `sacq` and `srel` trap with
0x04E. No other semaphore changes. -/
def Sys2Proof.Rules.SemaphoreResults : Prop :=
  ∀ (s c : State) (d a : SReg) (sc : Scope) (n : BitVec 6), s.claimSema (coreOf s.hart.pos) n s.hart.team = some c →
    let x := s.getS a
    let amount := x.toNat % 2 ^ 48
    let m := c.myCore.sema n
    let sole (t : State) : Prop := (∀ k, k ≠ coreOf s.hart.pos → t.core k = s.core k) ∧
      t.myCore = c.myCore.setSema n (t.myCore.sema n) ∧ SameBytes s t
    (x.toNat < 2 ^ 48 →
      (amount = 0 ∨ amount ≤ m.count.toNat ∧ (m.waiters = [] ∨ m.waiters.head? = some s.hart.pos) →
        ∃ t, Runs (.sacq a sc n) s t ∧ t.hart = s.hart.advance ∧ sole t ∧
          (t.myCore.sema n).count.toNat = m.count.toNat - amount ∧ (t.myCore.sema n).ovf = m.ovf ∧
          (t.myCore.sema n).rerr = m.rerr ∧ (t.myCore.sema n).tfail = m.tfail) ∧
      (amount ≠ 0 ∧ (m.count.toNat < amount ∨ (∃ h, m.waiters.head? = some h ∧ h ≠ s.hart.pos)) →
        ∃ t, Runs (.sacq a sc n) s t ∧ t.hart = { s.hart with run := .waiting (.sem n (x.setWidth 48)) } ∧ sole t ∧
          (t.myCore.sema n).count = m.count ∧ s.hart.pos ∈ (t.myCore.sema n).waiters) ∧
      (m.count.toNat + amount < 2 ^ 48 → ∃ t, Runs (.srel a sc n) s t ∧ t.hart = s.hart.advance ∧ sole t ∧
        (t.myCore.sema n).count.toNat = m.count.toNat + amount) ∧
      (2 ^ 48 ≤ m.count.toNat + amount → exec (.srel a sc n) s = .next (c.trap 0x205 (n.setWidth 64)))) ∧
    (x.toNat % 2 ^ 63 < 2 ^ 48 →
      let got := decide (amount ≤ m.count.toNat)
      ∃ t v, Runs (.stry d a sc n) s t ∧ t.hart = (s.hart.setS d v).advance ∧ sole t ∧
        v.toNat = (if got then 2 ^ 63 else 0) + (if m.ovf then 2 ^ 62 else 0) + (if m.rerr then 2 ^ 61 else 0) +
          (if m.tfail then 2 ^ 60 else 0) + m.count.toNat ∧
        (t.myCore.sema n).count.toNat = (if got then m.count.toNat - amount else m.count.toNat) ∧
        (t.myCore.sema n).ovf = (m.ovf && !bit x 63) ∧ (t.myCore.sema n).rerr = (m.rerr && !bit x 63) ∧
        (t.myCore.sema n).tfail = (m.tfail && !bit x 63)) ∧
    (2 ^ 48 ≤ x.toNat → Traps (.sacq a sc n) s 0x04E x ∧ Traps (.srel a sc n) s 0x04E x)

/-- R212: a semaphore claimed by another team that has a live hart on the core, or to which a post is outstanding, traps with 0x204, the number in `tval`. -/
def Sys2Proof.Rules.SemaphoreOfAnotherTeamTraps : Prop :=
  ∀ (s : State) (d a : SReg) (sc : Scope) (n : BitVec 6) (u : TeamId), (s.myCore.sema n).team = some u →
    u ≠ s.hart.team → s.semaHeld (coreOf s.hart.pos) n u = true → (s.getS a).toNat < 2 ^ 48 →
    ∀ i, i = .sacq a sc n ∨ i = .srel a sc n ∨ i = .stry d a sc n → Traps i s 0x204 (n.setWidth 64)

/-- R217 to R219, R221 to R223: `qcnt` and `qfl`; `ipost` of the next iteration advances the channel, of a later one
waits, of an earlier one traps with 0x208, and with bit 63 sets the count; `iwait` retires once the count has reached its
operand. The channel is the team's, or free or of a team no more live on the die, and claimed with count 0; one of another team that is live there traps with 0x209.
Where it rests on the model's choices: log entries 9, 35.
It concludes a next state of: qcnt, qfl, ipost, iwait. -/
def Obligations.QueueAndChannelResults : Prop :=
  ∀ (s : State) (d a : SReg) (q : BitVec 3) (c : BitVec 3),
    let queues (h : Hart) (k : Nat) : Nat := if k < 4 then (h.vqueue k).length else (h.sq.toList.getD (k - 4) []).length
    let x := s.getS a
    let i := x.toNat % 2 ^ 47
    let old := s.channel c
    let free := old.team = none ∨ ∃ u, old.team = some u ∧ u ≠ s.hart.team ∧ s.liveOnDie u (dieOf s.hart.pos) = false
    let count := if old.team = some s.hart.team then old.count else 0
    let others (t : State) : Prop := (∀ k, k ≠ c → t.channel k = s.channel k) ∧
      (∀ e, e ≠ dieOf s.hart.pos → t.die e = s.die e) ∧ SameBytes s t
    exec (.qcnt d q) s = .next (s.setS d (BitVec.ofNat 64 (queues s.hart q.toNat))).advance ∧
    (∃ t, Runs (.qfl q) s t ∧ OnlyHart s t ∧ queues t.hart q.toNat = 0 ∧
      (∀ k < 8, k ≠ q.toNat → queues t.hart k = queues s.hart k) ∧ t.hart.v = s.hart.v ∧ t.hart.p = s.hart.p) ∧
    (free ∨ old.team = some s.hart.team →
      (x.toNat = i → count = i → ∃ t, Runs (.ipost a c) s t ∧ t.hart = s.hart.advance ∧ others t ∧
        (t.channel c).count = i + 1 ∧ (t.channel c).team = some s.hart.team) ∧
      (x.toNat = i → count < i → ∃ t, Runs (.ipost a c) s t ∧
        t.hart = { s.hart with run := .waiting (.ipost c (BitVec.ofNat 47 i)) } ∧ others t ∧ (t.channel c).count = count) ∧
      (x.toNat = i → i < count → s.hart.run = .running → Traps (.ipost a c) s 0x208 x) ∧
      (x.toNat = 2 ^ 63 + i → ∃ t, Runs (.ipost a c) s t ∧ t.hart = s.hart.advance ∧ others t ∧ (t.channel c).count = i) ∧
      (x.toNat = i → i ≤ count → ∃ t, Runs (.iwait a c) s t ∧ t.hart = s.hart.advance ∧ others t ∧
        (t.channel c).count = count) ∧
      (x.toNat = i → count < i → ∃ t, Runs (.iwait a c) s t ∧
        t.hart = { s.hart with run := .waiting (.iwait c (BitVec.ofNat 47 i)) } ∧ others t ∧ (t.channel c).count = count)) ∧
    (∀ u, old.team = some u → u ≠ s.hart.team → s.liveOnDie u (dieOf s.hart.pos) = true → x.toNat < 2 ^ 47 →
      Traps (.ipost a c) s 0x209 (c.setWidth 64) ∧ Traps (.iwait a c) s 0x209 (c.setWidth 64))

/-- R201: `tsplit` with a key waits, or, when every other member of the subteam waits in a split, puts its hart into the
subteam of its key (a member that has left its context has not arrived, R208, and as at a barrier the engine commands of the
members are performed first): size and rank among the members of that key by ascending rank; with all ones it rejoins, or waits,
and restores the level before. A reserved key traps with 0x04D, and a level beyond 15 or below 0 with 0x342. -/
def Sys2Proof.Rules.SplitAndRejoin : Prop :=
  ∀ (s : State) (d a : SReg), (s.harts.map Hart.pos).Nodup → s.hart.placed = true →
    let h := s.hart
    let k := s.getS a
    let key : BitVec 32 := k.setWidth 32
    let away (p : List (BitVec 32)) : Bool := (s.gone h.team).any fun x => x.inTeam h.team p
    let ms := s.parked.filter fun x => x.inTeam h.team h.path
    let split (x : Hart) : Bool := x.path == h.path && match x.run with | .waiting (.split _ _) => true | _ => false
    let mine := ms.filter fun x => match x.run with | .waiting (.split j _) => j == key | _ => false
    let hrk : Word := BitVec.ofNat 64 (mine.length * 2 ^ 21) |||
      BitVec.ofNat 64 (mine.filter fun x => decide (bits x.hrk 0 21 < bits h.hrk 0 21)).length
    let up := s.parked.filter fun x => x.inTeam h.team (h.path.drop 1)
    let rejoin (x : Hart) : Bool := x.path.length == h.path.length &&
      match x.run with | .waiting (.rejoin _) => true | _ => false
    let busy (xs : List Hart) : Bool := (h :: xs).any fun x => s.engineBusy x.pos
    (k.toNat < 2 ^ 32 → h.depth = 15 → Traps (.tsplit d a) s 0x342 k) ∧
    (k.toNat < 2 ^ 32 → h.depth ≠ 15 → ms.all split = false ∨ away h.path = true ∨ busy ms = true → exec (.tsplit d a) s = .next (s.wait (.split key d))) ∧
    (k.toNat < 2 ^ 32 → h.depth ≠ 15 → ms.all split = true → away h.path = false → busy ms = false → ∃ t, Runs (.tsplit d a) s t ∧ SameBytes s t ∧
      t.hart = ({ h with levels := (key, h.hrk) :: h.levels, depth := h.depth + 1, hrk := hrk }.setS d hrk).advance) ∧
    (2 ^ 32 ≤ k.toNat → k ≠ 0xFFFFFFFFFFFFFFFF → Traps (.tsplit d a) s 0x04D k) ∧
    (k = 0xFFFFFFFFFFFFFFFF → h.depth = 0 → Traps (.tsplit d a) s 0x342 k) ∧
    (k = 0xFFFFFFFFFFFFFFFF → 0 < h.depth.toNat → up.all rejoin = false ∨ away (h.path.drop 1) = true ∨ busy up = true →
      exec (.tsplit d a) s = .next (s.wait (.rejoin d))) ∧
    (k = 0xFFFFFFFFFFFFFFFF → 0 < h.depth.toNat → up.all rejoin = true → away (h.path.drop 1) = false → busy up = false → ∀ key' old rest, h.levels = (key', old) :: rest →
      ∃ t, Runs (.tsplit d a) s t ∧ SameBytes s t ∧
        t.hart = ({ h with levels := rest, depth := h.depth - 1, hrk := old }.setS d old).advance)

/-- R194, R200, R202, R203: `spawn` of a well-formed record that can be placed, with room in the spawn queue, and whose semaphore, if it names one, its team may name, accepts a team
with the record and the spawner's priority, last in the queue, and writes the identity; `exit` with no
non-blocking access outstanding frees the hart's context, the rank no longer live; `yield` where a grant point passes
retires, each vector and predicate register as it was or zero. -/
def Sys2Proof.Rules.TeamWordResults : Prop :=
  ∀ (s u v : State) (d a : SReg) (bs : List Byte) (me : Team),
    let x := s.getS a
    let rec_ := bytesToWords 16 bs
    (x.toNat % 128 = 0 → s.scalarRead x 128 = .ok (bs, u) → recMalformed rec_ false = false →
      u.neverPlaced (pkgOf s.hart.pos) rec_ = false →
      (if bits (wordAt rec_ 13) 28 1 = 0 then v = u
        else u.claimSema (coreOf s.hart.pos) (BitVec.ofNat 6 (bits (wordAt rec_ 13) 30 6)) s.hart.team = some v) →
      (u.die (dieOf s.hart.pos)).spawnq.length < 64 → u.team s.hart.team = some me →
      ∃ t id y, Runs (.spawn d a) s t ∧ t.hart = (s.hart.setS d (id.setWidth 64)).advance ∧
        t.team id = some y ∧ y.id = id ∧ y.record = rec_ ∧ y.prio = me.prio ∧ y.st = .accepted ∧
        y.source = .spawn (coreOf s.hart.pos) s.hart.team ∧
        (t.die (dieOf s.hart.pos)).spawnq = (u.die (dieOf s.hart.pos)).spawnq ++ [id]) ∧
    (s.hart.nb = [] → (s.harts.map Hart.pos).Nodup →
      (∀ h ∈ s.parked, h.team = s.hart.team → h.run = .free ∨ h.run = .running) → s.team s.hart.team = some me → me.id = s.hart.team →
      ∃ t y, Runs .exit s t ∧ t.hart = { Hart.reset with pos := s.hart.pos } ∧ t.team s.hart.team = some y ∧
        y.live = me.live.filter (· ≠ me.rankOf s.hart.pos) ∧ SameBytes s t ∧ t.parked = s.parked) ∧
    ((∀ k : Fin 8, s.hart.dl[k] = none) → (s.hart.prq = false ∨ s.hart.hs = true) → ∃ t, Runs .yield s t ∧
      (∀ r, t.getV r = s.getV r ∨ t.getV r = 0) ∧ (∀ p, t.getP p = s.getP p ∨ t.getP p = 0) ∧ SameBytes s t ∧
      t.hart.pc = s.hart.advance.pc ∧ t.hart.s = s.hart.advance.s ∧ t.hart.vl = s.hart.vl)


/-! ### Asynchronous engines (R268 to R296) -/

/-- Nothing changes but the core at which the hart runs and what is named of the hart. -/
def Sys2Proof.Machine.OnlyMyCore (s t : State) : Prop :=
  t = { s with hart := t.hart, cores := t.cores } ∧ t.hart.pos = s.hart.pos ∧
  ∀ c, c ≠ coreOf s.hart.pos → t.core c = s.core c

/-- R279, R280: `shp` of a well-formed, aligned descriptor into a record that no other team and no command holds defines
the record for the team, and writes its number; every other record stays. -/
def Sys2Proof.Rules.ShapeDefinition : Prop :=
  ∀ (s u : State) (d a : SReg) (bs : List Byte), bit s.hart.vty 63 = false →
    let x := s.getS a
    let w := bytesToWords 16 bs
    let n := bits (wordAt w 1) 8 6
    let c := coreOf s.hart.pos
    x.toNat % 128 = 0 → s.scalarRead x 128 = .ok (bs, u) → shapeMalformed w = false →
    (wordAt w 0).toNat % shEs w = 0 → (∀ k < shNd w, (wordAt w (4 + 2 * k)).toNat % shEs w = 0) →
    (∀ v y, u.shapeAt c n = some (v, y) → v = s.hart.team) → (u.core c).shapeBusy n = false →
    ∃ t, Runs (.shp d a) s t ∧ OnlyMyCore u t ∧ t.hart = (s.hart.setS d (BitVec.ofNat 64 n)).advance ∧
      (t.core c).shapes.find n = some { team := some s.hart.team, desc := some w } ∧
      (∀ k, k ≠ n → (t.core c).shapes.find k = (u.core c).shapes.find k) ∧
      t.core c = { u.core c with shapes := (t.core c).shapes }

/-- R268, R283, R288: `cpy` of a block that passes the checks, with room in CPYQ, enters a command at the end of its core's
queue, at the start position, for its hart and team, and writes the hart's next ticket; with the queue full it waits. -/
def Sys2Proof.Rules.CopyAccepted : Prop :=
  ∀ (s u v : State) (d a b : SReg) (bs : List Byte) (src dst : List Word), bit s.hart.vty 63 = false →
    let x := s.getS a
    let w := bytesToWords 16 bs
    let c := coreOf s.hart.pos
    x.toNat % 128 = 0 → s.scalarRead x 128 = .ok (bs, u) →
    u.copyChecks c s.hart.pos s.hart.team x w (s.getS b) = .ok (src, dst, v) →
    ((v.core c).cpyq.length < 16 → ∃ t y, Runs (.cpy d a b) s t ∧ OnlyMyCore v t ∧
      t.hart = ({ s.hart with tickets := s.hart.tickets + 1 }.setS d (s.hart.tickets.setWidth 64)).advance ∧
      (t.core c).cpyq = (v.core c).cpyq ++ [y] ∧ y.kind = .copy w (s.getS b).toNat ∧ y.next = (s.getS b).toNat ∧
      y.src = src ∧ y.dst = dst ∧ y.ticket = s.hart.tickets ∧ y.hart = s.hart.pos ∧ y.team = s.hart.team ∧
      y.failed = none ∧ y.pusher = some s.hart.pos ∧ (y.cmp.getLsbD 0 = bit (wordAt w 0) 28) ∧ (y.cmp.getLsbD 1 = bit (wordAt w 0) 29)) ∧
    (16 ≤ (v.core c).cpyq.length → exec (.cpy d a b) s = .next (s.wait (.cpyq c)))

/-- R290: `gsp` on integers of 16 bits or more, with a well-formed control word, whose semaphore, if it posts to one, its
team may name, a two-dimensional record of the team and a 32-byte aligned destination in a scratchpad, with room, accepts the first g
positions, g the smaller of `vl` and the room: `vl` becomes g, and one command holds the active rows. -/
def Sys2Proof.Rules.GatheredRowsAccepted : Prop :=
  ∀ (s : State) (d : VReg) (a b : SReg) (p : PSel) (src : List Word) (q : Nat), s.vectorReady → s.vtype.isInt = true →
    16 ≤ s.vtype.ew → s.groupOk d →
    let ctl := s.getS a
    let dst := s.getS b
    let c := coreOf s.hart.pos
    let room := 512 - (s.quad (quadOf c)).rows
    let g := min s.hart.vl.toNat room
    ctl.toNat < 2 ^ 14 → (bit ctl 12 = true → (s.claimSema c (BitVec.ofNat 6 (bits ctl 6 6)) s.hart.team).isSome = true) →
    s.needShape c s.hart.team (bits ctl 0 6) = .ok src → shNd src = 2 →
    dst.toNat % 32 = 0 → spaceOf dst = some (.scratch q) → min s.hart.vl.toNat 64 ≤ room → (s.core c).cpyq.length < 16 →
    ∃ t y, Runs (.gsp d a b p) s t ∧ t.hart.vl.toNat = g ∧ t.hart.vix = 0 ∧ t.hart.v = s.hart.v ∧ t.hart.p = s.hart.p ∧
      t.hart.tickets = s.hart.tickets + 1 ∧ SameBytes s t ∧ (t.core c).cpyq = (s.core c).cpyq ++ [y] ∧
      y.kind = .rows (BitVec.ofNat 6 (bits ctl 0 6)) dst g
        (((List.range g).filter (s.hart.active p)).map fun i => (i, s.elem d s.vtype.ew i)) ∧
      y.src = src ∧ y.ticket = s.hart.tickets ∧ y.next = 0 ∧ y.failed = none ∧
      (t.quad (quadOf c)).rows = (s.quad (quadOf c)).rows + ((List.range g).filter (s.hart.active p)).length

/-- R217, R269, R270, R283, R293: `enq` and `deq` on a port, named by its offset in the own engine page or by a global address
that passes the checks of R87: a push to a scalar queue with room appends, a pop takes the oldest entry, of the queue or of the
core's results; a push to CPYQ enters the command of its block from position 0, as `cpy` does, and one to DGQ gives the node a
predecessor, as `dgo` does; a full queue or an empty one makes the word wait. A direction that the port has not traps with 0x186,
as does a global address that is no port; an offset that is no port with 0x0C1, one not aligned with 0x081, and an address that
fails a check with its cause. -/
def Sys2Proof.Rules.EnginePortResults : Prop :=
  ∀ (s : State) (d a b : SReg) (q : BitVec 2), bit s.hart.vty 63 = false →
    let x := s.getS a
    let v := s.getS b
    let queue (h : Hart) (k : BitVec 2) : List Word := h.sq.get k.toFin
    let me := s.hart.pos
    let own := coreOf me
    let names (acc : Acc) (c : CoreId) (o : Nat) (u : State) : Prop := x.toNat % 8 = 0 ∧
      (x.toNat < 0x1000 ∧ c = own ∧ o = x.toNat ∧ o ∈ [0, 8, 0x10, 0x40, 0x48, 0x50, 0x58] ∧ u = s ∨
        0x1000 ≤ x.toNat ∧ ∃ p, s.check (s.scalarHow acc) x 8 = .ok (p, u) ∧ p.space = .regs ∧ portAt own x = some (c, o))
    (∀ c u, names .store c (0x40 + 8 * q.toNat) u →
      ((queue s.hart q).length < 16 → ∃ t, Runs (.enq a b) s t ∧ OnlyHart u t ∧ queue t.hart q = queue s.hart q ++ [v] ∧
        (∀ k, k ≠ q → queue t.hart k = queue s.hart k) ∧ t.hart = { s.hart with sq := t.hart.sq }.advance) ∧
      (16 ≤ (queue s.hart q).length → exec (.enq a b) s = .next (u.wait (.queuePush (1#1 ++ q))))) ∧
    (∀ c u, names .load c (0x40 + 8 * q.toNat) u →
      (∀ y rest, queue s.hart q = y :: rest → ∃ t, Runs (.deq d a) s t ∧ OnlyHart u t ∧ queue t.hart q = rest ∧
        (∀ k, k ≠ q → queue t.hart k = queue s.hart k) ∧ t.hart = ({ s.hart with sq := t.hart.sq }.setS d y).advance) ∧
      (queue s.hart q = [] → exec (.deq d a) s = .next (u.wait (.queuePop (1#1 ++ q))))) ∧
    (∀ c u, names .load c 8 u →
      (∀ y rest, (u.core c).cres = y :: rest → ∃ t, Runs (.deq d a) s t ∧ t = { u with hart := t.hart, cores := t.cores } ∧
        t.hart = (s.hart.setS d y).advance ∧ t.core c = { u.core c with cres := rest } ∧ ∀ k, k ≠ c → t.core k = u.core k) ∧
      ((u.core c).cres = [] → exec (.deq d a) s = .next (u.wait (.cres c)))) ∧
    (∀ c u, names .store c 0 u →
      (v.toNat % 128 ≠ 0 → exec (.enq a b) s = .next (u.trap 0x088 v)) ∧
      ∀ bs z, v.toNat % 128 = 0 → u.scalarRead v 128 = .ok (bs, z) →
        let w := bytesToWords 16 bs
        (∀ e, z.copyChecks c me s.hart.team v w 0 = .error e → exec (.enq a b) s = .next (z.trap e.1 e.2)) ∧
        ∀ src dst g, z.copyChecks c me s.hart.team v w 0 = .ok (src, dst, g) →
          ((g.core c).cpyq.length < 16 → ∃ t y, Runs (.enq a b) s t ∧
            t.hart = { s.hart with tickets := s.hart.tickets + 1 }.advance ∧ (t.core c).cpyq = (g.core c).cpyq ++ [y] ∧
            y.kind = .copy w 0 ∧ y.next = 0 ∧ y.src = src ∧ y.dst = dst ∧ y.ticket = s.hart.tickets ∧ y.hart = me ∧
            y.team = s.hart.team ∧ y.pusher = some me ∧ y.failed = none) ∧
          (16 ≤ (g.core c).cpyq.length → exec (.enq a b) s = .next (u.wait (.cpyq c)))) ∧
    (∀ c u, names .store c 0x10 u →
      (256 ≤ v.toNat → exec (.enq a b) s = .next (u.trap 0x057 v)) ∧
      (v.toNat < 256 → u.nodeAt c v.toNat = none → exec (.enq a b) s = .next (u.trap 0x188 v)) ∧
      ∀ y, v.toNat < 256 → u.nodeAt c v.toNat = some y → y.desc ≠ none →
        (y.team ≠ some s.hart.team → exec (.enq a b) s = .next (u.trap 0x189 v)) ∧
        (y.team = some s.hart.team → 1 < y.count → ∃ t, Runs (.enq a b) s t ∧ t.hart = s.hart.advance ∧
          (t.core c).nodes.find v.toNat = some { y with count := y.count - 1 }) ∧
        (y.team = some s.hart.team → y.count = 1 → 16 ≤ (u.core c).launch.length →
          exec (.enq a b) s = .next (u.wait (.dgq c)))) ∧
    (∀ c u, names .store c 8 u → exec (.enq a b) s = .next (u.trap 0x186 x)) ∧
    (∀ c u, names .load c 0 u ∨ names .load c 0x10 u → exec (.deq d a) s = .next (u.trap 0x186 x)) ∧
    (x.toNat % 8 ≠ 0 → Traps (.enq a b) s 0x081 x ∧ Traps (.deq d a) s 0x081 x) ∧
    (x.toNat < 0x1000 → x.toNat % 8 = 0 → x.toNat ∉ [0, 8, 0x10, 0x40, 0x48, 0x50, 0x58] →
      Traps (.enq a b) s 0x0C1 x ∧ Traps (.deq d a) s 0x0C1 x) ∧
    (∀ acc i, acc = Acc.store ∧ i = Instr.enq a b ∨ acc = Acc.load ∧ i = Instr.deq d a →
      0x1000 ≤ x.toNat → x.toNat % 8 = 0 →
      (∀ c, s.check (s.scalarHow acc) x 8 = .error (.cause c) → Traps i s c x) ∧
      (s.check (s.scalarHow acc) x 8 = .error .lost → Traps i s 0x140 x) ∧
      ∀ p u, s.check (s.scalarHow acc) x 8 = .ok (p, u) → p.space ≠ .regs ∨ portAt own x = none →
        exec i s = .next (u.trap 0x186 x))

/-- R272, R277: `fgo` with an idle Fife starts it at the address with the hart's scalar registers, `vty` and `vl`; a busy
one traps with 0x181, and a misaligned address with 0x080; `fwait` retires once the hart holds no Fife, and else waits. -/
def Sys2Proof.Rules.FifeStartAndWait : Prop :=
  ∀ (s : State) (a : SReg), bit s.hart.vty 63 = false →
    let x := s.getS a
    let c := coreOf s.hart.pos
    (x ≠ 0 → x.toNat % 4 = 0 → (s.core c).fife.st = .idle → ∃ t, Runs (.fgo a) s t ∧ OnlyMyCore s t ∧
      t.hart = s.hart.advance ∧ t.core c = { s.core c with fife := (t.core c).fife } ∧
      let f := (t.core c).fife
      f.st = .running ∧ f.owner = hartInCore s.hart.pos ∧ f.fpc = x ∧ f.vty = s.hart.vty ∧ f.vl = s.hart.vl ∧
        f.rerr = false ∧ f.zol = {} ∧ ∀ r : Fin 32, r ≠ 0 → f.s[r] = s.hart.s[r]) ∧
    (x ≠ 0 → x.toNat % 4 ≠ 0 → Traps (.fgo a) s 0x080 x) ∧
    (x ≠ 0 → x.toNat % 4 = 0 → (s.core c).fife.st ≠ .idle → Traps (.fgo a) s 0x181 x) ∧
    (x = 0 → (s.core c).fife.heldBy s.hart.pos = true → (s.core c).fife.node = none → (s.core c).launch = [] →
      ∃ t, Runs (.fgo a) s t ∧ t.hart = s.hart.advance ∧ (t.core c).fife.st = .idle) ∧
    (x = 0 → (s.core c).fife.heldBy s.hart.pos = false → exec (.fgo a) s = .next s.advance) ∧
    ((s.core c).fife.heldBy s.hart.pos = false → exec .fwait s = .next s.advance) ∧
    ((s.core c).fife.heldBy s.hart.pos = true → exec .fwait s = .next (s.wait .fife))

/-- R272, R283, R294: what the launch of a node of a core at which no other launch waits leaves in a state `t`; `y` is the node,
and `me` the hart that pushed it. Its count reloads. A copy node enters a command at position 0 into CPYQ, one that fails a check
as a command that has failed; a Fife node starts the Fife for the hart that defined it, a misaligned address faults it, and address 0
ends the node at once; a semaphore node posts its amount, or, where its team may not name the semaphore, fails. Where CPYQ is full or
the Fife busy the node waits in the launch queue. -/
def Sys2Proof.Machine.Launches (s t : State) (c : CoreId) (n : Nat) (y : Node) (me : HartId) : Prop :=
  ∀ (tm : TeamId) (w : List Word), y.team = some tm → y.desc = some w → (s.core c).launch = [] →
    let k := s.core c
    let k' := t.core c
    let arg := wordAt w 0
    let ran := { y with count := nodePred w, runs := y.runs + 1 }
    let begun := s.setNode c n ran
    let waits := k'.launch = [⟨BitVec.ofNat 8 n, some me⟩] ∧ k'.cpyq = k.cpyq ∧ k'.fife = k.fife ∧ k'.nodes.find n = some ran
    let h := s.hartAt y.hart
    let sem := BitVec.ofNat 6 (bits (wordAt w 1) 10 6)
    (nodeKind w = 0 → 16 ≤ k.cpyq.length → waits) ∧
    (nodeKind w = 0 → k.cpyq.length < 16 → k'.launch = [] ∧ k'.nodes.find n = some ran ∧ k'.fife = k.fife ∧
      ∃ z, k'.cpyq = k.cpyq ++ [z] ∧ z.node = some (BitVec.ofNat 8 n) ∧ z.hart = y.hart ∧ z.team = tm ∧ z.next = 0 ∧
        z.pusher = some me ∧ match begun.readBlock c y.hart tm arg with
        | .error e => z.failed = some (1, e)
        | .ok (b, u) => z.kind = .copy b 0 ∧ z.cmp.getLsbD 1 = bit (wordAt b 0) 29 ∧
          match u.copyChecks c y.hart tm arg b 0 with
          | .error (e, _) => z.failed = some (1, e)
          | .ok (src, dst, _) => z.failed = none ∧ z.src = src ∧ z.dst = dst ∧ z.cmp.getLsbD 0 = bit (wordAt b 0) 28) ∧
    (nodeKind w = 1 → h.placed = true → h.team = tm →
      (k.fife.st ≠ .idle → waits) ∧
      (k.fife.st = .idle → arg ≠ 0 → k'.launch = [] ∧ k'.cpyq = k.cpyq ∧ k'.nodes.find n = some ran ∧
        k'.fife.owner = hartInCore y.hart ∧ k'.fife.node = some (BitVec.ofNat 8 n) ∧ k'.fife.pusher = some me ∧ k'.fife.fpc = arg ∧
        (arg.toNat % 4 = 0 → k'.fife.st = .running ∧ k'.fife.vty = h.vty ∧ k'.fife.vl = h.vl ∧
          ∀ r : Fin 32, r ≠ 0 → k'.fife.s[r] = h.s[r]) ∧
        (arg.toNat % 4 ≠ 0 → k'.fife.st = .faulted ∧ k'.fife.cause = 0x080 ∧ k'.fife.fva = arg)) ∧
      (k.fife.st = .idle → arg = 0 → nodeSuccs w = [] → k'.launch = [] ∧ k'.fife = k.fife ∧
        k'.nodes.find n = some { ran with runs := y.runs })) ∧
    (nodeKind w = 2 → nodeSuccs w = [] → k'.launch = [] ∧ k'.cpyq = k.cpyq ∧ k'.nodes.find n = some { ran with runs := y.runs } ∧
      match s.claimSema c sem tm with
      | some z => k'.sema sem = ((z.core c).sema sem).post (bits arg 0 48) false false
      | none => k'.sema sem = k.sema sem)

/-- R212, R291 to R294: `dnode` of a well-formed descriptor with predecessors defines the node with their count for the
team, and without any it completes too, with the node launched; `dgo` on a node of the team with more than one predecessor
left takes one off; on the last one it launches the node, or waits while 16 launches do, and a semaphore node whose team may name its
semaphore then posts its amount at once. A node never defined traps with 0x188, one of another team with 0x189, and one that is
running with no predecessor left with 0x187. -/
def Sys2Proof.Rules.GraphNodeResults : Prop :=
  ∀ (s u k : State) (d a : SReg) (bs : List Byte) (y : Node) (w : List Word), bit s.hart.vty 63 = false →
    let x := s.getS a
    let v := bytesToWords 4 bs
    let n := bits (wordAt v 1) 0 8
    let c := coreOf s.hart.pos
    (x.toNat % 32 = 0 → s.scalarRead x 32 = .ok (bs, u) → nodeMalformed v = false → nodePred v ≠ 0 →
      (∀ z, u.nodeAt c n = some z → z.team = some s.hart.team ∧ z.runs = 0) →
      ∃ t, Runs (.dnode d a) s t ∧ OnlyMyCore u t ∧ t.hart = (s.hart.setS d (BitVec.ofNat 64 n)).advance ∧
        (t.core c).nodes.find n = some { team := some s.hart.team, desc := some v, count := nodePred v, hart := s.hart.pos } ∧
        ∀ k, k ≠ n → (t.core c).nodes.find k = (u.core c).nodes.find k) ∧
    (x.toNat % 32 = 0 → s.scalarRead x 32 = .ok (bs, u) → nodeMalformed v = false → nodePred v = 0 →
      (∀ z, u.nodeAt c n = some z → z.team = some s.hart.team ∧ z.runs = 0) →
      ∃ t, Runs (.dnode d a) s t ∧ t.hart.pc = s.hart.advance.pc ∧ t.hart.hs = s.hart.hs ∧
        (d ≠ 0 → ¬ s.hart.loopPointer d → t.getS d = BitVec.ofNat 64 n) ∧
        let z : Node := { team := some s.hart.team, desc := some v, count := 0, hart := s.hart.pos }
        Launches ((u.setNode c n z).setS d (BitVec.ofNat 64 n)) t c n z s.hart.pos) ∧
    (x.toNat < 256 → s.nodeAt c x.toNat = none → Traps (.dgo a) s 0x188 x) ∧
    (x.toNat < 256 → s.nodeAt c x.toNat = some y → y.team ≠ some s.hart.team → Traps (.dgo a) s 0x189 x) ∧
    (x.toNat < 256 → s.nodeAt c x.toNat = some y → y.team = some s.hart.team → y.desc = some w →
      (1 < y.count → ∃ t, Runs (.dgo a) s t ∧ OnlyMyCore s t ∧ t.hart = s.hart.advance ∧
        (t.core c).nodes.find x.toNat = some { y with count := y.count - 1 } ∧
        ∀ k, k ≠ x.toNat → (t.core c).nodes.find k = (s.core c).nodes.find k) ∧
      (y.count = 1 → (s.core c).launch.length < 16 → ∃ t, Runs (.dgo a) s t ∧ t.hart.pc = s.hart.advance.pc ∧
        t.hart.hs = s.hart.hs ∧ t.hart.s = s.hart.advance.s ∧ Launches s t c x.toNat y s.hart.pos) ∧
      (y.count = 1 → 16 ≤ (s.core c).launch.length → exec (.dgo a) s = .next (s.wait (.dgq c))) ∧
      (y.count = 0 → y.runs ≠ 0 → Traps (.dgo a) s 0x187 x) ∧
      (y.count = 1 → (s.core c).launch = [] → nodeKind w = 2 → nodeSuccs w = [] →
        let m := BitVec.ofNat 6 (bits (wordAt w 1) 10 6)
        s.claimSema c m s.hart.team = some k →
        ∃ t, Runs (.dgo a) s t ∧ t.hart = s.hart.advance ∧ (t.core c).launch = [] ∧
          (t.core c).sema m = ((k.core c).sema m).post (bits (wordAt w 0) 0 48) false false ∧
          (t.core c).nodes.find x.toNat = some { y with count := nodePred w, runs := y.runs }))

/-- R248, R341 to R343: `rwin` of an aligned remote range that overlaps no window of the team, with a free entry, claims
one for the team, with no line held, and writes its number; `runmap` of a window of the team removes it with the
lines it holds; of no such window it
traps with 0x145. -/
def Sys2Proof.Rules.RemoteWindowResults : Prop :=
  ∀ (s : State) (d a b : SReg) (i : Nat) (w : Window),
    let x := s.getS a
    let n := s.getS b
    let die := dieOf s.hart.pos
    let last := x.toNat + n.toNat - 1
    (x.toNat % 65536 = 0 → 0 < n.toNat → n.toNat % 65536 = 0 → x.toNat / 2 ^ 44 = last / 2 ^ 44 → aDieId x ≠ die → aDie x ≠ 8 →
      spaceOf x ≠ some .rows → spaceOf x ≠ some .regs →
      (∀ z ∈ s.liveWindows die, z.2.team = s.hart.team → last < z.2.base.toNat ∨ z.2.base.toNat + z.2.size ≤ x.toNat) →
      (aPkg x).toNat < s.podSize (pkgOf s.hart.pos) → (s.namesSpace (s.scalarHow .load).master false x 1).isSome = true →
      (∃ k < 64, ∀ z ∈ s.liveWindows die, z.1 ≠ k) →
      ∃ t k, Runs (.rwin d a b) s t ∧ k < 64 ∧ (∀ z ∈ s.liveWindows die, z.1 ≠ k) ∧
        (t.die die).windows.find k = some { team := s.hart.team, base := x, size := n.toNat } ∧
        t.hart = ({ s.hart with vix := 0 }.setS d (BitVec.ofNat 64 k)).advance ∧ SameBytes s t ∧
        (∀ e, e ≠ die → t.die e = s.die e) ∧ t.cores = s.cores) ∧
    ((s.liveWindows die).find? (fun z => z.1 == x.toNat && z.2.team == s.hart.team) = some (i, w) →
      ∃ t, Runs (.runmap a) s t ∧ (t.die die).windows.find i = none ∧ t.hart = { s.hart with vix := 0 }.advance ∧
        SameBytes s t ∧ (∀ k, k ≠ i → (t.die die).windows.find k = (s.die die).windows.find k)) ∧
    ((s.liveWindows die).find? (fun z => z.1 == x.toNat && z.2.team == s.hart.team) = none →
      Traps (.runmap a) s 0x145 x)


/-! ### Collectives (R346 to R361) -/

/-- The tree of R353 after its first round: level `k + 1` at rank `r` combines level `k` at `r` and at `r + 2 ^ k`. -/
def Sys2Proof.Machine.ruleTree (op : Nat → Nat → Nat × Flags) (first : Nat → Nat × Flags) : Nat → Nat → Nat × Flags
  | 0, r => first r
  | k + 1, r =>
    let a := ruleTree op first k r
    let b := ruleTree op first k (r + 2 ^ k)
    let c := op a.1 b.1
    (c.1, (a.2.or b.2).or c.2)

/-- R353, R354: a reduction of N contributions is the tree of R353 over them, the lower rank on the left, its first round
pairing r with r + P, P the largest power of two not above N. -/
def Sys2Proof.Rules.ReductionTreeShape : Prop :=
  ∀ (op : CollOp) (fmt ew : Nat) (xs : List Nat), xs ≠ [] →
    let p := 2 ^ xs.length.log2
    let x (r : Nat) : Nat × Flags := toCombining op fmt (xs.getD r 0)
    let f := collCombine op fmt ew
    let first (r : Nat) : Nat × Flags :=
      if r + p < xs.length then
        let c := f (x r).1 (x (r + p)).1
        (c.1, ((x r).2.or (x (r + p)).2).or c.2)
      else x r
    p ≤ xs.length ∧ xs.length < 2 * p ∧ reduceTree op fmt ew xs = ruleTree f first xs.length.log2 0

/-- The arrival of the hart at the instance of a collective word (R350). -/
def Sys2Proof.Machine.State.arrival (s : State) (f6 : BitVec 6) (d a : VReg) (b : BitVec 4) (p : PSel) : CollArrival :=
  { f6 := f6, group := b, reg := s.hart.g.get b.toFin, d := d, a := a, p := p, vl := s.hart.vl, fmt := s.vtype.fmt
    ew := s.vtype.ew, xs := (List.range s.hart.vl.toNat).map (s.elem a s.vtype.ew), queues := [], records := [] }

/-- R349 to R355: a collective word on a valid group register waits with its contribution until all N members have arrived
and find one another by their member entries; the last arrival of members that agree writes, at each active position, the
tree of the contributions (`cred`: at rank 0 only), the gathered, scattered or broadcast element, keeps every other element,
and adds 1 to SEQ; members that disagree each trap with 0x147; so ends the instance as an event too. Where a member is lost the word completes at once, with
all ones for what it would receive, the LOST bits, and no flag. -/
def Sys2Proof.Rules.CollectiveResults : Prop :=
  ∀ (i : Instr) (f6 : BitVec 6) (op : CollOp) (s : State) (d a : VReg) (b : BitVec 4) (p : PSel), s.vectorReady →
    s.vtype.isBlock = false → s.groupOk d → s.groupOk a → (s.harts.map Hart.pos).Nodup →
    (i = .cred d a b p op ∧ f6 = op.toBits.setWidth 6 ∨ i = .call d a b p op ∧ f6 = 8 + op.toBits.setWidth 6 ∨
      i = .cgat d a b p ∧ f6 = 0x10 ∨ i = .csct d a b p ∧ f6 = 0x18 ∨ i = .cbc d a b p ∧ f6 = 0x20) →
    let g := s.hart.g.get b.toFin
    let n := g.nm1.toNat + 1
    let vl := s.hart.vl.toNat
    let c := vl / n
    let t := s.vtype
    let c₀ := s.arrival f6 d a b p
    let waiting : State := { s with hart := { s.hart with run := .waiting .collective, coll := some c₀ } }
    let xs := waiting.arrived waiting.hart c₀
    let lost := waiting.groupLost (pkgOf s.hart.pos) (waiting.asidOf waiting.hart) g.mtab n
    let gets (k : Nat) : Prop := s.hart.active p k = true ∧ (receives f6.toNat g.rank.toNat n vl k).isSome = true
    let one := ∀ x ∈ xs, x.2.reg.nm1 = g.nm1
    let least := xs.foldl (fun m x => min m (x.2.reg.nm1.toNat + 1)) n
    (g.valid = false → Traps i s 0x146 (b.setWidth 64)) ∧
    (g.valid = true → f6 = 0x10 ∨ f6 = 0x18 → vl % n ≠ 0 → Traps i s 0x147 (b.setWidth 64)) ∧
    (g.valid = true → (f6 = 0x10 ∨ f6 = 0x18 → vl % n = 0) →
    (lost = false → least ≤ xs.length → (∃ x ∈ xs, x.1.pos = s.hart.pos) → (∀ x ∈ xs, ¬ x.1.atHandler) →
      xs.map (fun x => x.2.reg.rank.toNat) ≠ List.range least ∨
        (∃ x ∈ xs, x.2.f6 ≠ f6 ∨ x.2.vl ≠ s.hart.vl ∨ x.2.fmt ≠ t.fmt ∨ x.2.ew ≠ t.ew ∨ x.2.reg.scope ≠ g.scope ∨
          x.2.reg.nm1 ≠ g.nm1 ∨ sameScope g.scope.toNat s.hart.pos x.1.pos = false) →
      ∃ u, Runs i s u ∧ ∀ x ∈ xs, Entered x.1 (u.hartAt x.1.pos) 0x147 (x.2.group.setWidth 64) false) ∧
    (one → lost = true → (xs = [] ∨ ∃ x ∈ xs, x.1.pos = s.hart.pos) → ∃ u, Runs i s u ∧ u.hart.vix = 0 ∧ u.hart.run = .running ∧
      (u.hart.g.get b.toFin) = { g with seq := g.seq + 1 } ∧ u.hart.fcsr = s.hart.fcsr ∧
      (∀ k < t.vlmax, (gets k → u.elem d t.ew k = 2 ^ t.ew - 1) ∧ (¬ gets k → u.elem d t.ew k = s.elem d t.ew k)) ∧
      ∀ j < 64, u.hart.rerr.getLsbD j = (s.hart.rerr.getLsbD j ||
        (decide (j < 32) && (List.range vl).any fun k => s.hart.active p k && k % 32 == j))) ∧
    (one → lost = false → xs.length < n → exec i s = .next waiting) ∧
    (one → lost = false → xs.map (fun x => x.2.reg.rank.toNat) = List.range n → (∃ x ∈ xs, x.1.pos = s.hart.pos) →
      (∀ x ∈ xs, x.2.f6 = f6 ∧ x.2.vl = s.hart.vl ∧ x.2.fmt = t.fmt ∧ x.2.ew = t.ew ∧ x.2.reg.scope = g.scope ∧
        ∀ y ∈ xs, sameScope g.scope.toNat x.1.pos y.1.pos = true) →
      let y (q k : Nat) : Nat := ((xs.map fun x => x.2.xs).getD q []).getD k 0
      let sum (k : Nat) : Nat × Flags := finalTo op t.fmt t.fmt (reduceTree op t.fmt t.ew ((List.range n).map fun q => y q k))
      let r := g.rank.toNat
      let value (k : Nat) : Option Nat := match i with
        | .cred _ _ _ _ _ => if r = 0 then some (sum k).1 else none
        | .call _ _ _ _ _ => some (sum k).1
        | .cgat _ _ _ _ => some (y (k / c) (k % c))
        | .csct _ _ _ _ => if k < c then some (y 0 (r * c + k)) else none
        | _ => some (y 0 k)
      ∃ u, Runs i s u ∧ Runs (.collectiveInstanceComplete s.hart.pos) waiting u ∧ u.hart.vix = 0 ∧ u.hart.run = .running ∧
        (u.hart.g.get b.toFin) = { g with seq := g.seq + 1 } ∧
        (∀ k, k ≠ b → u.hart.g.get k.toFin = s.hart.g.get k.toFin) ∧
        (∀ q, q.toNat ∉ groupRegs d t.gf → u.getV q = s.getV q) ∧ u.hart.p = s.hart.p ∧ SameBytes s u ∧
        (f6.toNat < 16 → u.hart.fcsr = (List.range vl).foldl (fun f k => f ||| (sum k).2.bits) s.hart.fcsr) ∧
        (16 ≤ f6.toNat → u.hart.fcsr = s.hart.fcsr) ∧
        (∀ k < t.vlmax, u.elem d t.ew k =
          if s.hart.active p k = true ∧ (value k).isSome = true then (value k).getD 0 % 2 ^ t.ew else s.elem d t.ew k) ∧
        ∀ x ∈ xs, (u.hartAt x.1.pos).run = .running ∧ (u.hartAt x.1.pos).coll = none))

/-- R347, R348, R361: `cgrp` of 0 clears V; of a well-formed descriptor whose member entry names the executing hart it sets
the group register, SEQ 0; with another entry it traps with 0x147. `cgate` on a valid register opens each accepted request
of its group and rank that GATE holds back; on an invalid one it traps with 0x146. -/
def Sys2Proof.Rules.GroupRegisterResults : Prop :=
  ∀ (s u v : State) (d : BitVec 4) (a : SReg) (w : List Word) (e : Word),
    let x := s.getS a
    let g := s.hart.g.get d.toFin
    let mtab := wordAt w 3
    let rank := bits (wordAt w 1) 0 21
    (x = 0 → ∃ t, Runs (.cgrp d a) s t ∧ OnlyHart s t ∧ (t.hart.g.get d.toFin).valid = false ∧
      ∀ k, k ≠ d → t.hart.g.get k.toFin = s.hart.g.get k.toFin) ∧
    (x ≠ 0 → x.toNat % 8 = 0 → (∀ k, loadWords 4 x [] s k = k w u) → descriptorBad w = false →
      (∀ k, loadAt (mtab + BitVec.ofNat 64 (8 * rank)) 8 u k = k e v) →
      (e = BitVec.ofNat 64 (v.hart.team.toNat * 2 ^ 32) ||| BitVec.ofNat 64 v.hart.launchRank →
        ∃ t, Runs (.cgrp d a) s t ∧ SameBytes v t ∧ (∀ k, k ≠ d → t.hart.g.get k.toFin = v.hart.g.get k.toFin) ∧
          let y := t.hart.g.get d.toFin
          y.valid = true ∧ y.gid.toNat = bits (wordAt w 0) 0 32 ∧ y.rank.toNat = rank ∧
            y.nm1.toNat = bits (wordAt w 1) 21 21 ∧ y.scope.toNat = bits (wordAt w 1) 42 3 ∧
            y.tag.toNat = bits (wordAt w 2) 0 16 ∧ y.seq = 0 ∧ y.mtab = mtab) ∧
      (e ≠ BitVec.ofNat 64 (v.hart.team.toNat * 2 ^ 32) ||| BitVec.ofNat 64 v.hart.launchRank →
        exec (.cgrp d a) s = .next (v.trap 0x147 (d.setWidth 64)))) ∧
    (g.valid = false → Traps (.cgate d) s 0x146 (d.setWidth 64)) ∧
    (g.valid = true → ∃ t, Runs (.cgate d) s t ∧ t.hart = { s.hart with vix := 0 }.advance ∧
      ∀ z ∈ t.requests, reqGate z.2.req = true → z.2.asid = s.asid → z.2.key.1 = g.gid.toNat → z.2.rank = g.rank.toNat →
        z.2.opened = true)


/-! ### Events at the harts and cores of a die -/

/-- R182, R183, R185: a lane group takes the urgent head word that has waited longest, else the word of its home hart,
else the word with the fewest positions left, among those with positions left. A cycle with one candidate gives it all
four groups, and its turn follows up to the position reached; a cycle with none changes nothing. Aging adds a cycle to each
candidate, which is urgent from 255 on. -/
def Sys2Proof.Rules.SequencerEvents : Prop :=
  ∀ (s : State) (core : CoreId) (shares : List (Nat × Nat × Nat)) (g : Nat) (cs : List Candidate) (c : Candidate),
    (chooseFor shares g cs = some c →
      let ready (x : Candidate) : Prop := x ∈ cs ∧ x.next < x.vl ∧ min x.vl (x.next + x.size) ≤ x.ready
      ready c ∧
      ((∃ x, ready x ∧ 255 ≤ x.wait) → 255 ≤ c.wait ∧ ∀ x, ready x → x.wait ≤ c.wait) ∧
      ((∀ x, ready x → x.wait < 255) →
        ((∃ x, ready x ∧ homeHart shares g = some x.hart) →
          homeHart shares g = some c.hart ∧ ∀ x, ready x → homeHart shares g = some x.hart → c.left ≤ x.left) ∧
        ((∀ x, ready x → homeHart shares g ≠ some x.hart) → ∀ x, ready x → c.left ≤ x.left))) ∧
    (s.distinct → s.candidates core = [c] → c.next < c.vl → c.ready = c.vl →
      let p : HartId := core ++ BitVec.ofNat 2 c.hart
      let x := s.hartAt p
      let n := min c.vl (c.next + 4 * c.size)
      ∃ t, Runs (.elementGroupIssue core) s t ∧
        t.agenda = (if c.dist = 0 then [.group p n] else []) ++ s.agenda ∧
        t.hartAt p = { x with front := { x.front with issued := [(c.dist, n)], wait := if c.slot = 0 then 0 else x.front.wait } } ∧
        OthersStay s t p ∧
        t = { s with hart := t.hart, parked := t.parked, agenda := t.agenda }) ∧
    (s.candidates core = [] → exec (.elementGroupIssue core) s = .next s) ∧
    (∃ t, Runs (.urgentWordAging core) s t ∧ OnlyContexts s t ∧
      ∀ h, t.hartAt h =
        let y := s.hartAt h
        if ∃ x ∈ s.candidates core, x.slot = 0 ∧ x.open_ = true ∧ h = core ++ BitVec.ofNat 2 x.hart then
          { y with front := { y.front with wait := y.front.wait + 1 } }
        else y)

/-- R19, R24, R181: the front end of a placed hart runs one word past those that it has run, unless it waits, and that is all
that changes; what it has run past holds at most 32 words of the vector queue's majors in program order; with 32 of them it
waits at the next. At a `flow` past `pc` it performs the request at once, whatever vector words are older (R415), and keeps what
the word is to return. When a word retires the front end stands one word less ahead, and a trap discards what it has run. -/
def Sys2Proof.Rules.FrontRunsAhead : Prop :=
  ∀ (s : State) (h : HartId), let x := s.hartAt h; let r := s.runAhead h
    (x.run = .free ∨ x.stopped = true ∨ r.next = none ∧ r.flowHere = none → s.runFront h = s) ∧
    (s.distinct → x.run ≠ .free → x.stopped = false → r.next = none → ∀ c, r.flowHere = some c →
      let u := (s.select h).performFlow c
      let t := s.runFront h
      t.hartAt h = { u.hart with front := { u.hart.front with
        ahead := u.hart.front.ahead + 1, flows := u.hart.front.flows ++ [(r.words, u.flw)] } } ∧
      t.teams = u.teams ∧ t.dies = u.dies ∧ t.pkgs = u.pkgs ∧ t.mem = u.mem) ∧
    (x.run ≠ .free → x.stopped = false → r.next ≠ none →
      let t := s.runFront h
      t.hartAt h = { x with front := { x.front with ahead := x.front.ahead + 1 } } ∧ OthersStay s t h ∧ OnlyContexts s t) ∧
    r.queue.length ≤ 32 ∧ (r.queue.map Queued.dist).Pairwise (· < ·) ∧
    (∀ (w : BitVec 32) (u : State), r.queue.length = 32 → r.state.fetch = .ok (w, u) → queueMajor w = true → r.next = none) ∧
    (∀ w : BitVec 32, queueMajor w = true ↔
      0x13 ≤ (majorOf w).toNat ∧ (majorOf w).toNat ≤ 0x1F ∨ (majorOf w).toNat = 0x21 ∨ (majorOf w).toNat = 0x22) ∧
    s.advance.hart.front.ahead = s.hart.front.ahead - 1 ∧
    ∀ (epc tval : Word) (cause : BitVec 10) (asyn : Bool), (s.enter epc cause tval asyn).hart.front = {}

/-- R209, R213, R217, R222, R223: what a waiting word waits for has come, and it goes on. The last condition of a barrier
lets every participant retire, once the accesses of the engine commands that they pushed are performed; a `sacq` that is first among its waiters takes its amount; `ipost` at its channel's count
raises the count; `iwait` below it retires; a queue word finds data, or room, and executes next. -/
def Sys2Proof.Rules.WaitsComplete : Prop :=
  ∀ (s : State) (h : HartId) (sc : Scope) (n : BitVec 6) (amount : BitVec 48) (ch : BitVec 3) (i : BitVec 47) (q : BitVec 3),
    s.distinct →
    let x := s.hartAt h
    let c := coreOf h
    let m := (s.core c).sema n
    let count := ((s.die (dieOf h)).iters.get ch.toFin).count
    (x.run = .waiting (.bar sc) →
      (∀ y ∈ s.participants sc x, y.run = .waiting (.bar sc) ∧ y.path = x.path ∧ s.engineBusy y.pos = false) →
      (s.gone x.team).any (fun y => y.inTeam x.team x.path && sameUnit sc y.pos x.pos) = false →
      ∃ t, Runs (.barrierRelease h) s t ∧ OnlyContexts s t ∧
        (∀ y ∈ s.participants sc x, t.hartAt y.pos = y.advance) ∧
        ∀ k, (∀ y ∈ s.participants sc x, y.pos ≠ k) → t.hartAt k = s.hartAt k) ∧
    (x.run = .waiting (.sem n amount) → m.waiters.head? = some h → amount ≤ m.count →
      ∃ t, Runs (.sacqWaitComplete h) s t ∧ t.hartAt h = x.advance ∧ OthersStay s t h ∧
        (t.core c).sema n = { m with count := m.count - amount, waiters := m.waiters.filter (· != h) } ∧
        (∀ k, k ≠ n → (t.core c).sema k = (s.core c).sema k) ∧ (∀ k, k ≠ c → t.core k = s.core k) ∧ SameBytes s t) ∧
    (x.run = .waiting (.ipost ch i) → count = i.toNat →
      ∃ t, Runs (.ipostWaitComplete h) s t ∧ t.hartAt h = x.advance ∧ OthersStay s t h ∧ SameBytes s t ∧
        ((t.die (dieOf h)).iters.get ch.toFin).count = i.toNat + 1 ∧ t.cores = s.cores ∧
        ∀ k, k ≠ dieOf h → t.die k = s.die k) ∧
    (x.run = .waiting (.iwait ch i) → i.toNat ≤ count →
      ∃ t, Runs (.iwaitWaitComplete h) s t ∧ t.hartAt h = x.advance ∧ OthersStay s t h ∧ OnlyContexts s t) ∧
    ((x.run = .waiting (.queuePop q) ∧ 0 < x.queueCount q ∨ x.run = .waiting (.queuePush q) ∧ x.queueCount q < queueRoom q) →
      exec (.queueWaitComplete h) s = .next { s with agenda := .hart h :: s.agenda } ∧ s.satisfied x = true) ∧
    ((x.run = .waiting (.queuePop q) ∧ x.queueCount q = 0 ∨ x.run = .waiting (.queuePush q) ∧ queueRoom q ≤ x.queueCount q) →
      exec (.queueWaitComplete h) s = .next s)

/-- R165, R170, R171, R194, R212, R216, R251: an outstanding non-blocking access that comes after no earlier one of its hart at a
byte is performed as its items say, leaves the hart's list, and posts its bytes to its semaphore, with RERR where an item of it
fails; so is one that a context freed there left; one that does come after an earlier one stays. An item of a load puts the bytes
where it landed into its element, one of a store the element into the bytes, and a load that finds its target lost puts all ones
there and fails. A semaphore whose claim stands no more is free, every field 0; a released slot or tile ends its clearing. -/
def Sys2Proof.Rules.ReleasesAndPosts : Prop :=
  ∀ (s : State) (h : HartId) (k : Nat) (a : NbAccess) (core : CoreId) (n : BitVec 6) (t : TeamId) (sl : BitVec 4)
    (tl : BitVec 3), s.distinct →
    ((s.hartAt h).nb[k]? = some a →
      let v := s.select h
      let r := (v.nbItems a a.items).1
      let bad := (v.nbItems a a.items).2
      (v.nbBehind (v.hart.nb.take k) a = true →
        ∃ u, Runs (.nbAccessPost h k) s u ∧ OnlyContexts s u ∧ ∀ j, u.hartAt j = s.hartAt j) ∧
      (v.nbBehind (v.hart.nb.take k) a = false →
        ∃ u, Runs (.nbAccessPost h k) s u ∧ u.hartAt h = { r.hart with nb := (s.hartAt h).nb.eraseIdx k } ∧ OthersStay s u h ∧
          u.mem = r.mem ∧ u.poison = r.poison ∧
          (u.core (coreOf h)).sema a.sem = ((s.core (coreOf h)).sema a.sem).post a.bytes bad false ∧
          (a.items = [] → bad = false) ∧ (u.hartAt h).s = (s.hartAt h).s ∧ (u.hartAt h).pc = (s.hartAt h).pc)) ∧
    (∀ y, (s.hartAt h).nb.length ≤ k → (s.orphansAt h)[k - (s.hartAt h).nb.length]? = some y → y.nb = [a] →
      let c := s.core (coreOf h)
      let earlier := ((s.orphansAt h).take (k - (s.hartAt h).nb.length)).flatMap fun z => z.nb
      let v := { s with hart := y }
      let r := ((v.setCore (coreOf h) { c with orphans := c.orphans.erase y }).nbItems a a.items)
      (v.nbBehind earlier a = true → exec (.nbAccessPost h k) s = .next s) ∧
      (v.nbBehind earlier a = false → ∃ u, Runs (.nbAccessPost h k) s u ∧ (∀ j, u.hartAt j = s.hartAt j) ∧ u.mem = r.1.mem ∧
        (u.core (coreOf h)).orphans = c.orphans.erase y ∧
        (u.core (coreOf h)).sema a.sem = (c.sema a.sem).post a.bytes r.2 false ∧ (a.items = [] → r.2 = false))) ∧
    (∀ (p : Nat) (x : Word) (ks : List Nat), a.fmt < 8 → 8 ≤ a.ew → a.ew % 8 = 0 → ks.length = a.ew / 8 → ks.Nodup → p < 2048 →
      (p + 1) * a.ew ≤ 8192 * a.gf → a.d.toNat + a.gf ≤ 32 →
      let i : VItem := { pos := p, addrs := [x] }
      let g (u : State) (j : Nat) : Nat := u.elem a.d a.ew j
      (a.kind = .load → a.data = [] →
        (let r := s.nbItems a [(i, some [ks])]
         r.2 = false ∧ SameBytes s r.1 ∧ g r.1 p = bytesToNat (s.bytes ks) ∧
          ∀ j, (j + 1) * a.ew ≤ 8192 * a.gf → j ≠ p → g r.1 j = g s j) ∧
        (let v := s.withCaught a.caught
         v.checkFields (v.vectorHow .load p) false (a.ew / 8) [x] = .ok ([none], v) →
          let r := s.nbItems a [(i, none)]
          r.2 = true ∧ SameBytes s r.1 ∧ g r.1 p = 2 ^ a.ew - 1 ∧ r.1.hart.rerr = s.hart.rerr)) ∧
      (a.kind = .store →
        let v := a.data.foldl (fun s z => s.setV (BitVec.ofNat 5 z.1) z.2) s
        let r := s.nbItems a [(i, some [ks])]
        r.2 = false ∧ r.1.bytes ks = natToBytes (a.ew / 8) (g v p) ∧ ∀ b, b ∉ ks → r.1.byte b = s.byte b)) ∧
    (((s.core core).sema n).team = some t → s.semaHeld core n t = false →
      ∃ u, Runs (.semaphoreRelease core n) s u ∧ (u.core core).sema n = {} ∧
        (∀ j, j ≠ n → (u.core core).sema j = (s.core core).sema j) ∧ (∀ d, d ≠ core → u.core d = s.core d) ∧
        u = { s with cores := u.cores }) ∧
    (((s.core core).sema n).team = some t → s.semaHeld core n t = true →
      exec (.semaphoreRelease core n) s = .next s) ∧
    (∃ u, Runs (.slotClearComplete core sl) s u ∧ u = { s with cores := u.cores } ∧
      (u.core core).slot sl = { (s.core core).slot sl with clearing := false } ∧
      (∀ j, j ≠ sl → (u.core core).slot j = (s.core core).slot j) ∧ ∀ d, d ≠ core → u.core d = s.core d) ∧
    (∃ u, Runs (.tileClearComplete core tl) s u ∧ u = { s with cores := u.cores } ∧
      (u.core core).tile tl = { (s.core core).tile tl with clearing := false } ∧
      (∀ j, j ≠ tl → (u.core core).tile j = (s.core core).tile j) ∧ ∀ d, d ≠ core → u.core d = s.core d)

/-- R21, R53, R208, R210, R220, R301, R303: a word that is no instruction and a failed fetch trap at `pc`. A pending cause is
taken in the order of R303, in handler state machine checks only, with `tepc` at the word the hart stands at; a
word whose wait is satisfied retires before. A hart whose word waits on a queue of its own, with no Fife that could serve
it and a front end that can run no further, traps with 0x206, and not while its front end runs; harts of a team that all
wait at barriers none of which is complete trap with 0x207. -/
def Sys2Proof.Rules.AsynchronousEvents : Prop :=
  ∀ (s : State) (h : HartId) (w : BitVec 32) (r : Reject) (cause : BitVec 10) (p : Pending) (q : BitVec 3) (team : TeamId),
    let x := s.hartAt h
    let f := (s.core (coreOf h)).fife
    let xs := s.harts.filter fun y => y.placed && y.team == team
    (decodeBase w = some (.error r) → Traps (.illegalInstruction w) s r.cause (wordVal w)) ∧
    (∀ a b : Pending, (a.machine = true ↔ a.cause.toNat / 64 = 14) ∧ (a.machine = true → b.machine = false → a.order < b.order) ∧
      (a.machine = false → b.machine = false → a.cause.toNat / 64 = 11 → b.cause.toNat / 64 ≠ 11 → a.order < b.order) ∧
      (a.cause.toNat / 64 = b.cause.toNat / 64 → (a.order < b.order ↔ a.cause.toNat < b.cause.toNat))) ∧
    (s.fetch = .error cause → Traps .fetchFault s cause s.hart.pc) ∧
    (s.satisfied x = true ∨ x.stopped = true → exec (.asyncTrapTake h) s = .next s) ∧
    (s.distinct → x.run ≠ .free → x.stopped = false → s.satisfied x = false → p ∈ x.pending → (x.hs = true → p.machine = true) →
      (∀ y ∈ x.pending, (x.hs = true → y.machine = true) → y ≠ p → p.order < y.order) →
      ∃ t, Runs (.asyncTrapTake h) s t ∧ Entered x (t.hartAt h) p.cause p.tval true ∧
        (t.hartAt h).pending = x.pending.filter (· != p) ∧ OthersStay s t h ∧ SameBytes s t) ∧
    (s.distinct → ¬ x.atHandler →
      (x.run = .waiting (.queuePop q) ∧ x.queueCount q = 0 ∨ x.run = .waiting (.queuePush q) ∧ queueRoom q ≤ x.queueCount q) →
      (f.heldBy h = false ∨ (f.st = .running ∨ f.st = .paused) ∧ f.onQueue = true ∧ ∃ y, f.wait = some y ∧ (x.queueBlocked y).isSome = true) →
      s.frontWaits h = true →
      ∃ t, Runs (.hartDeadlockDetect h) s t ∧ Entered x (t.hartAt h) 0x206 (q.setWidth 64) false ∧
        (t.hartAt h).pending = x.pending ∧ OthersStay s t h ∧ SameBytes s t) ∧
    (s.frontWaits h = false → exec (.hartDeadlockDetect h) s = .next s) ∧
    (s.distinct → xs ≠ [] → (∀ y, s.team team = some y → y.saved = []) →
      (∀ y ∈ xs, (waitKind y.run).isSome = true ∧ s.allArrived y = false ∧ ¬ y.atHandler) →
      ∃ t, Runs (.barrierMismatchDetect team) s t ∧ SameBytes s t ∧
        (∀ y ∈ xs, Entered y (t.hartAt y.pos) 0x207 (BitVec.ofNat 64 ((waitKind y.run).getD 0)) false) ∧
        ∀ k, (∀ y ∈ xs, y.pos ≠ k) → t.hartAt k = s.hartAt k)

/-- R308: a soft error leaves machine check 0x382 pending with the structure that it names, and no other structure of the
hart changes: scalar, vector and predicate registers, queues, digit links; slots, tiles and the Fife change only for
structures 5, 6 and 7. -/
def Sys2Proof.Rules.SoftErrors : Prop :=
  ∀ (s : State) (h : HartId) (k : BitVec 3), s.distinct → (s.hartAt h).run ≠ .free →
    let x := s.hartAt h
    ∃ t, Runs (.softError h k) s t ∧ OthersStay s t h ∧ SameBytes s t ∧ t.teams = s.teams ∧
      let y := t.hartAt h
      y = { x with s := y.s, v := y.v, p := y.p, vq := y.vq, sq := y.sq, dl := y.dl
                   pending := (x.pend 0x382 (k.setWidth 64)).pending } ∧
      (k ≠ 0 → y.s = x.s) ∧ (k ≠ 1 → y.v = x.v) ∧ (k ≠ 2 → y.p = x.p) ∧ (k ≠ 3 → y.vq = x.vq ∧ y.sq = x.sq) ∧
      (k ≠ 4 → y.dl = x.dl) ∧ (k.toNat < 5 → t.cores = s.cores)


/-! ### Events of the distributors -/

/-- R192, R193: on an enabled package, a registered ring of a valid context with a valid header, EN set, no launch of it
waiting, and a record ahead of HEAD gives its next record: HEAD rises by 1, and a well-formed record that can be placed is
accepted at the smaller of the ring's priority and the context's. -/
def Sys2Proof.Rules.RingRecordAccepted : Prop :=
  ∀ (s u v w : State) (pkg : PkgId) (asid : BitVec 9) (k : BitVec 2) (hb rb : List Byte),
    let ring := 4 * asid.toNat + k.toNat
    let base := s.ringBase pkg ring
    let h := bytesToWords 5 hb
    let tail := wordAt h 0
    let head := wordAt h 1
    let cfg := wordAt h 2
    let ln := bits cfg 0 5
    let r := bytesToWords 16 rb
    s.enabled pkg = true → bit (s.ringReg pkg ring) 0 = true → bit (s.ctxReg pkg asid.toNat 16) 63 = true →
    s.distRead pkg asid base 40 = .ok (hb, u) → ringCfgOk cfg 0xFFFFFFFFFFFFE0E0 = true → wordAt h 4 = 0 → bit cfg 12 = true →
    0 < (tail - head).toNat → (tail - head).toNat ≤ 2 ^ ln →
    (∀ t ∈ u.teamList, t.st = .accepted → t.pkg = pkg → ∀ n, t.source ≠ .ring ring n) →
    u.distWrite pkg asid (base + 8) (head + 1) = some v →
    v.distRead pkg asid (base + BitVec.ofNat 64 (128 + 128 * (head.toNat % 2 ^ ln))) 128 = .ok (rb, w) →
    recMalformed r true = false → v.neverPlaced pkg r = false →
    ∃ t id, Runs (.ringPoll pkg asid k) s t ∧ t.mem = v.mem ∧ (∀ i, i.toNat ≠ id.toNat → t.team i = v.team i) ∧
      t.team id = some { newTeam id pkg asid
        (BitVec.ofNat 4 (min (bits cfg 8 4) (bits (u.ctxReg pkg asid.toNat 16) 16 4))) r (.ring ring head) with
          ringAt := base }

/-- R195, R196: an enabled distributor with no choice pending chooses, of its teams that wait for one and of those
pre-empted, one that no other precedes in the order of R195; it leaves its spawn queue, its source becomes the last one
chosen, and it comes after every choice and start before it. -/
def Sys2Proof.Rules.DistributorChooses : Prop :=
  ∀ (s : State) (pkg : PkgId) (x : Team), s.teamsKeyed → s.enabled pkg = true →
    let waits (y : Team) : Prop := y ∈ s.teamList ∧ y.pkg = pkg ∧ y.status = 0 ∧
      (y.st = .preempted ∨ y.st = .accepted ∧ s.atHead y = true)
    (∀ y ∈ s.teamList, y.pkg = pkg → y.st ≠ .chosen) → waits x →
    (∀ y, waits y → y ≠ x → keyLt (s.choiceKey pkg x) (s.choiceKey pkg y) = true) →
    ∃ t, Runs (.distributorChoice pkg) s t ∧ t.team x.id = some { x with st := .chosen, places := [], order := s.nextOrder } ∧ SameBytes s t ∧
      (x.st = .accepted → (t.pkg pkg).last = x.sourceIndex) ∧ (x.st = .preempted → (t.pkg pkg).last = (s.pkg pkg).last) ∧
      ∀ c u, x.source = .spawn c u →
        (t.die (dieOfCore c)).spawnq = (s.die (dieOfCore c)).spawnq.filter (· != x.id)

/-- R184, R196, R197, R312, R408: a chosen launch is placed whole, at places that follow its shape, fit beside the teams
placed, leave room for the launches chosen before it, and lie in zones of at least its heat class, with the shares its harts
then have as their SG; one that resumes gets its semaphores back at the cores of the same coordinates. Places that do not
fit leave it chosen, and so do zones that fall short, which are asked for. -/
def Sys2Proof.Rules.TeamPlacement : Prop :=
  ∀ (s : State) (team : TeamId) (x : Team) (places : List HartId), s.team team = some x → x.id = team → x.st = .chosen →
    let u := { x with st := .placed, places := places, replies := [], start := 0, committed := false
                      live := if x.saved = [] then List.range places.length else x.live }
    let a := s.setTeam { u with kept := {} }
    let fits := s.placementFits x places = true ∧ s.numbersFree x places = true ∧ s.leavesRoom u = true
    let zones := ∀ h ∈ places, x.hc.toNat ≤ s.cls (pkgOf h) (zoneOf h) ∧ s.moving (pkgOf h) (zoneOf h) = false
    (¬ fits → exec (.teamPlace team places) s = .next s) ∧
    (fits → zones → x.kept = {} → exec (.teamPlace team places) s =
      .next (a.setTeam { u with kept := {}, sgs := places.map a.share })) ∧
    (fits → zones → x.kept.places ≠ [] → x.kept.tcm = [] → ∃ t y, Runs (.teamPlace team places) s t ∧
      t.team team = some y ∧ y.st = .placed ∧ y.places = places ∧ y.live = u.live ∧ y.kept = {} ∧ SameBytes s t ∧
      ∀ k n m c, x.kept.sems = [(k, n, m)] → unitAt (u.coresAt places) k = some c →
        (t.core c).sema (BitVec.ofNat 6 n) = m) ∧
    (fits → ¬ zones → ∃ t, Runs (.teamPlace team places) s t ∧ t.team team = some { x with places := places } ∧
      SameBytes s t ∧ t = { s with teams := t.teams, dev := t.dev }) ∧
    (s.placementFits x places = true →
      places.length = shapeSize (shapeOf x.record) ∧ places.Nodup ∧
      (∀ i j, i < places.length → j < places.length →
        (coreOf (places.getD i 0) = coreOf (places.getD j 0) ↔
          i / shapeH (shapeOf x.record) = j / shapeH (shapeOf x.record))) ∧
      ∀ h ∈ places, (s.hartAt h).run = .free ∧ (s.core (coreOf h)).failed = false ∧ (s.die (dieOf h)).failed = false ∧
        (s.quad (quadOf (coreOf h))).halted = false ∧ s.present x.pkg (pkgOf h) = true ∧
        (dieInPkg (dieOf h)).toNat < s.computeDies (pkgOf h))

/-- R199: a placed launch with a TCM image whose descriptor is well-formed has LEN bytes copied, 4 at a time, from SRC, of
any alignment, to OFF in the TCM of each of its cores, each under the checks of a load of each byte and of a store; a
malformed descriptor ends the launch. -/
def Sys2Proof.Rules.TcmImages : Prop :=
  ∀ (s u v : State) (team : TeamId) (x : Team) (bs : List Byte), s.team team = some x → x.id = team → x.st = .placed →
    x.ctl 36 1 = 1 → x.images = false → x.saved = [] →
    s.distRead x.pkg x.asid (wordAt x.record 8) 32 = .ok (bs, u) →
    let w := bytesToWords 4 bs
    let work := (x.places.map coreOf).eraseDups.flatMap fun c =>
      (List.range (bits (wordAt w 1) 0 19 / 4)).map fun i => (c, i)
    (imageMalformed w = true → ∃ t, Runs (.tcmImageLoad team) s t ∧ t.team team = none) ∧
    (imageMalformed w = false →
      work.foldlM (fun a (c, i) => a.imageWord x c (wordAt w 0 + BitVec.ofNat 64 (4 * i)) (bits (wordAt w 2) 0 18 + 4 * i)) u
        = .ok v →
      exec (.tcmImageLoad team) s = .next (v.setTeam { x with images := true })) ∧
    (∀ (a b c : State) (core : CoreId) (src : Word) (off : Nat) (ys : List Byte) (q : Place),
      a.imageBytes x src 4 = .ok (ys, b) →
      b.check { distHow x.pkg x.asid .store with
        master := { distributor x.pkg x.asid with die := dieOfCore core, core := some core } }
        (BitVec.ofNat 64 (homeKey (dieOfCore core) true 35 off)) 4 = .ok (q, c) →
      a.imageWord x core src off = .ok (c.store q.keys ys) ∧
      ∀ i < 4, ∃ (p : Place) (e f : State), State.check e (distHow x.pkg x.asid .load) (src + BitVec.ofNat 64 i) 1 = .ok (p, f) ∧
        f.poisonCause p.keys = none ∧ ys.getD i 0 = a.byte (p.keys.headD 0))

/-- R23, R184, R188, R198, R199, R299, R306: a placed team that has not run starts at every hart: rank r at its place with
`pc` at ENTRY, the stack in `s2`, GLOBAL in `s3`, the arguments in `s10` to `s17`, `hrk`, `tvec`, and as SG the share it was
placed with, all else as at reset, but for the causes and the request to pre-empt it that came while it was placed. -/
def Sys2Proof.Rules.TeamStarts : Prop :=
  ∀ (s : State) (team : TeamId) (x : Team), s.team team = some x → x.id = team → x.saved = [] → x.places.Nodup →
    s.mayStart x = true →
    ∃ t, Runs (.teamStart team) s t ∧ SameBytes s t ∧ t.now = s.startTick x ∧
      (∃ y, t.team team = some y ∧ (x.asked = false → y.st = .running) ∧ y.places = x.places ∧ y.live = x.live) ∧
      (∀ h, h ∉ x.places → ¬ ((s.hartAt h).placed = true ∧ (s.hartAt h).team = team) → t.hartAt h = s.hartAt h) ∧
      ∀ r < x.places.length,
        let h := x.places.getD r 0
        let y := t.hartAt h
        y = { Hart.reset with pos := h, run := .running, team := team, s := y.s, pc := entryFor (wordAt x.record 0) h
                              hrk := y.hrk, sg := x.sgs.getD r 4, tvec := s.ctxReg x.pkg x.asid.toNat 0 &&& ~~~3
                              pending := y.pending, prq := y.prq, psa := y.psa } ∧
        (x.owed = [] → y.pending = []) ∧ (x.asked = false → y.prq = false ∧ y.psa = 0) ∧
        (∀ p, x.owed = [(h, p)] → y.pending = [p]) ∧
        (r < 2 ^ 21 → x.places.length ≤ 2 ^ 21 →
          y.hrk = BitVec.ofNat 64 ((x.places.length - 1) * 2 ^ 21 + r)) ∧
        y.getS 2 = wordAt x.record 9 + BitVec.ofNat 64 (r + 1) * wordAt x.record 10 ∧ y.getS 3 = wordAt x.record 11 ∧
        (∀ i < 8, y.getS (BitVec.ofNat 5 (10 + i)) = wordAt x.record (1 + i)) ∧
        ∀ i : SReg, i ≠ 2 → i ≠ 3 → ¬ (10 ≤ i.toNat ∧ i.toNat < 18) → y.getS i = 0

/-- R194, R200: a team whose harts have all exited, with no command and no access of it left, completes and is forgotten: with CMP 0 of a
ring nothing else changes but the time; a spawned one with CMP 1 posts 1 to its spawner's semaphore; with CMP 2 its
completion record holds its record's number, status 0, the tick and its identity. -/
def Sys2Proof.Rules.TeamCompletes : Prop :=
  ∀ (s a b c d : State) (team spawner : TeamId) (x : Team) (ring : Nat) (seq : Word) (core : CoreId),
    s.team team = some x → x.id = team → x.st = .running → x.live = [] → x.status = 0 → x.cause = none →
    (∀ k ∈ s.cores, (∀ y ∈ k.2.cpyq, y.team ≠ team) ∧ ∀ h ∈ k.2.orphans, h.team ≠ team) →
    let u := s.passTime
    let at_ := wordAt x.record 14
    let n := BitVec.ofNat 6 (x.ctl 30 6)
    (x.source = .ring ring seq → x.ctl 28 2 = 0 →
      exec (.teamComplete team) s = .next { u with teams := u.teams.drop team.toNat }) ∧
    (x.source = .spawn core spawner → x.ctl 28 2 = 1 → (∀ y, s.team spawner = some y → y.kept.places = []) →
      ∃ t, Runs (.teamComplete team) s t ∧ t.team team = none ∧ t = { u with teams := t.teams, cores := t.cores } ∧
        (t.core core).sema n = ((s.core core).sema n).post 1 false false ∧
        (∀ k, k ≠ n → (t.core core).sema k = (s.core core).sema k) ∧ ∀ k, k ≠ core → t.core k = s.core k) ∧
    (x.source = .ring ring seq → x.ctl 28 2 = 2 → u.distWrite x.pkg x.asid at_ seq = some a →
      a.distWrite x.pkg x.asid (at_ + 8) 0 = some b → b.distWrite x.pkg x.asid (at_ + 16) u.now = some c →
      c.distWrite x.pkg x.asid (at_ + 24) (team.setWidth 64) = some d →
      exec (.teamComplete team) s = .next { d with teams := d.teams.drop team.toNat })

/-- R345: of a placed team that spans packages, the proposal names a start tick not before START and at least 4,000 ticks
ahead; before the deadline each package of it replies once, and the last reply commits the tick; once the deadline has
passed without every reply, a reply has no effect, and the tick moves 4,000 on. -/
def Sys2Proof.Rules.GangStart : Prop :=
  ∀ (s : State) (team : TeamId) (x : Team) (p : PkgId), s.team team = some x → x.id = team → x.st = .placed →
    x.spans = true → x.committed = false →
    let u := s.passTime
    (x.start = 0 → x.saved = [] → ∃ t y, Runs (.gangStartProposal team) s t ∧ t.team team = some y ∧ y.replies = [] ∧
      t.now = u.now ∧ y = { x with start := y.start, replies := [] } ∧
      (y.start = t.now + 4000 ∨ y.start = wordAt x.record 15) ∧ (t.now + 4000).toNat ≤ y.start.toNat ∧
      (wordAt x.record 15).toNat ≤ y.start.toNat ∧ SameBytes s t) ∧
    (x.start ≠ 0 → p ∉ x.replies → (∃ h ∈ x.places, pkgOf h = p) →
      (s.now.toNat + 1000 < x.start.toNat → exec (.gangStartReply team p) s = .next (s.setTeam { x with
        replies := x.replies ++ [p], committed := decide (∀ h ∈ x.places, pkgOf h ∈ x.replies ++ [p]) })) ∧
      (x.start.toNat ≤ s.now.toNat + 1000 → exec (.gangStartReply team p) s = .next s)) ∧
    (x.start ≠ 0 →
      (x.start.toNat ≤ u.now.toNat + 1000 → exec (.gangStartRetry team) s =
        .next (u.setTeam { x with start := x.start + 4000, replies := [] })) ∧
      (u.now.toNat + 1000 < x.start.toNat → exec (.gangStartRetry team) s = .next u))

/-- R208, R310 to R312: a hart asked to leave, with no access and no copy into a slot of its own outstanding, whose word's
wait is not satisfied, and with a frame, surrenders when its image is written: its context, Fife, slots and tiles are free,
and its team holds the frame's address for its rank; with one outstanding it stops at its word, and surrenders later (R313); one
whose wait is satisfied stays, and retires first. Once every live hart is saved, its cores are quiet and its context has a frame for
each of their TCMs, the team's resources are in custody, the bytes of its TCMs in its frames, and it is pre-empted; no other byte
changes. Without the frames it stays. -/
def Sys2Proof.Rules.PreemptionEvents : Prop :=
  ∀ (s u : State) (h : HartId) (x f : Team),
    let y := s.hartAt h
    let a := s.select h
    let b := { a.withdraw with hart := { a.withdraw.hart with run := .running } }
    (s.distinct → y.run ≠ .free → y.prq = true → y.psa ≠ 0 → y.nb = [] → s.copiesOut h = false →
      s.satisfied y = false → s.team y.team = some x → x.id = y.team →
      writeImage true y.psa (b.imageWords 2) b = .ok u →
      ∃ t z, Runs (.forcedPreemption h) s t ∧ t.hartAt h = { Hart.reset with pos := h } ∧ OthersStay s t h ∧
        (∃ v, t.team y.team = some v ∧ v = { x with saved := x.saved ++ [z] }) ∧
        z.rank = x.rankOf h ∧ z.addr = y.psa ∧ z.physical = true ∧
        (∀ n, ((s.core (coreOf h)).slot n).own = some h → (t.core (coreOf h)).slot n = { clearing := true }) ∧
        (∀ n, ((s.core (coreOf h)).tile n).own = some h → (t.core (coreOf h)).tile n = { clearing := true }) ∧
        SameBytes u t) ∧
    (s.distinct → y.run ≠ .free → y.prq = true → y.psa ≠ 0 → y.nb ≠ [] ∨ s.copiesOut h = true → s.satisfied y = false →
      ∃ t, Runs (.forcedPreemption h) s t ∧ t.hartAt h = { y with run := .waiting .stopped, coll := (t.hartAt h).coll } ∧
        OthersStay s t h ∧ SameBytes s t ∧ t.teams = s.teams) ∧
    (s.satisfied y = true → exec (.forcedPreemption h) s = .next s) ∧
    (s.team x.id = some x → x.st = .preempting → x.live ≠ [] → (∀ r ∈ x.live, ∃ z ∈ x.saved, z.rank = r) →
      (∀ z ∈ x.coresAt x.places, s.coreQuiet x z.2 = true) →
      (s.withTcmFrames x = none → exec (.teamPreemptComplete x.id) s = .next s) ∧
      (s.withTcmFrames x = some f → f = { x with frames := f.frames } ∧
        (∀ z ∈ x.coresLive, ∃ w, (2 ^ 21 + z.2.toNat, w) ∈ f.frames) ∧
        (∀ w ∈ f.frames, w ∈ x.frames ∨ w.2 ∈ s.freeFrames x.pkg x.asid) ∧
      ∃ t v, Runs (.teamPreemptComplete x.id) s t ∧ t.team x.id = some v ∧ v = { f with st := .preempted, kept := v.kept, order := s.nextOrder } ∧
        v.kept.places = x.places ∧
        (∀ key, (∀ z ∈ x.coresAt x.places, ∀ o ∈ s.tcmMapped (dieOfCore z.2) x.asid, ∀ e q w,
          State.check e (frameHow x.pkg x.asid x.id .store) (f.tcmFrame z.2 + BitVec.ofNat 64 o) 8 = .ok (q, w) →
            key ∉ q.keys) → t.byte key = s.byte key) ∧
        ∀ z ∈ x.coresAt x.places, ∀ n, ((t.core z.2).sema n).team ≠ some x.id))


/-! ### Events of the engines and of the collective rings -/

/-- R271 to R273, R277, R278: a running Fife executes the word at its `fpc` on its own registers: what the word writes
becomes the Fife's registers, `vty`, `vl`, loop state and pc, and of its owner's context only queues and tickets change.
`fwait` ends it. A word outside its subset stops it with 0x182 in its cause, and 0x180 becomes pending at its owner. A Fife
that does not run does nothing.
Where it rests on the model's choices: log entry 22.
It concludes a next state of: fifeWord. -/
def Obligations.FifeWords : Prop :=
  ∀ (s v p : State) (core : CoreId) (w : BitVec 32) (i : Instr), s.distinct →
    let f := (s.core core).fife
    let o : HartId := core ++ f.owner
    let x := s.hartAt o
    let a := s.select o
    let b := { a with hart := f.asHart a.hart }
    (f.st ≠ .running → exec (.fifeWord core) s = .next s) ∧
    (f.st = .running → f.zol.act = false → b.fetchAt (b.scalarHow .fetch) f.fpc = .ok (w, p) → decodeBase w = some (.ok i) →
      (i ≠ .fwait → runFifeWord i p = some (.next v) → v.hart.run = .running → v.hart.hs = false → v.hart.pos = o →
        v.parked = a.parked →
        ∃ t, Runs (.fifeWord core) s t ∧ t.mem = v.mem ∧ OthersStay s t o ∧
          t.hartAt o = { x with vq := v.hart.vq, sq := v.hart.sq, tickets := v.hart.tickets } ∧
          (t.core core).fife = { (v.core core).fife with
            s := v.hart.s, vty := v.hart.vty, vl := v.hart.vl, zol := v.hart.zol, fpc := v.hart.pc, wait := none, onQueue := false
            rerr := (v.core core).fife.rerr || v.hart.rerr != 0 }) ∧
      (i = .fwait → bit f.vty 63 = false → f.node = none → (s.core core).launch = [] →
        ∃ t, Runs (.fifeWord core) s t ∧ (t.core core).fife = f.free ∧ (∀ h, t.hartAt h = s.hartAt h) ∧ SameBytes s t) ∧
      (i ≠ .fwait → runFifeWord i p = none →
        ∃ t, Runs (.fifeWord core) s t ∧ (t.core core).fife = { f with st := .faulted, cause := 0x182, wait := none } ∧
          t.hartAt o = x.pend 0x180 f.fpc ∧ OthersStay s t o ∧ SameBytes s t)) ∧
    (∀ (d q : SReg) (im : BitVec 16), f.st = .running → f.zol.act = false →
      b.fetchAt (b.scalarHow .fetch) f.fpc = .ok (w, p) → decodeBase w = some (.ok (.addi d q im)) → d ≠ 0 → q ≠ 0 →
      ∃ t, Runs (.fifeWord core) s t ∧ t.hartAt o = x ∧ (t.core core).fife.fpc = f.fpc + 4 ∧
        (t.core core).fife.s = f.s.set d.toFin (f.s.get q.toFin + im.signExtend 64))

/-- R269, R270, R293, R389: pushes and pops of a hart that reach an engine port under the checks of R87, by its global address: a
copy block that passes its checks enters CPYQ, a graph node with more than one predecessor left loses one, a scalar queue with
room takes an entry or gives its oldest, the oldest result leaves. Where a check turns the access away the hart traps. -/
def Sys2Proof.Rules.EnginePortEvents : Prop :=
  ∀ (s g u v : State) (h : HartId) (core : CoreId) (x : Word) (q : BitVec 2) (bs : List Byte) (src dst : List Word) (y : Node),
    s.distinct → (s.hartAt h).run ≠ .free →
    let a := s.select h
    let z := s.hartAt h
    let w := bytesToWords 16 bs
    let queue (k : Hart) (q : BitVec 2) : List Word := k.sq.get q.toFin
    let reach (acc : Acc) (c : CoreId) (o : Nat) : Prop := ∃ p, a.check (a.scalarHow acc) (portAddr c o) 8 = .ok (p, g) ∧
      p.space = .regs ∧ portAt (coreOf h) (portAddr c o) = some (c, o)
    (reach .store core 0 → x.toNat % 128 = 0 → g.scalarRead x 128 = .ok (bs, u) →
      u.copyChecks core h z.team x w 0 = .ok (src, dst, v) → (v.core core).cpyq.length < 16 →
      ∃ t c, Runs (.cpyqPush h core x) s t ∧ t.hartAt h = { z with tickets := z.tickets + 1 } ∧ OthersStay s t h ∧
        (t.core core).cpyq = (v.core core).cpyq ++ [c] ∧ c.kind = .copy w 0 ∧ c.next = 0 ∧ c.src = src ∧ c.dst = dst ∧
        c.hart = h ∧ c.pusher = some h ∧ c.team = z.team ∧ c.ticket = z.tickets ∧ c.failed = none) ∧
    (reach .store core 0x10 → x.toNat < 256 → g.nodeAt core x.toNat = some y → y.team = some z.team → y.desc.isSome = true →
      1 < y.count → ∃ t, Runs (.dgqPush h core x) s t ∧ (∀ k, t.hartAt k = s.hartAt k) ∧
        (t.core core).nodes.find x.toNat = some { y with count := y.count - 1 } ∧
        (∀ k, k ≠ x.toNat → (t.core core).nodes.find k = (g.core core).nodes.find k) ∧
        (∀ c, c ≠ core → t.core c = g.core c) ∧ SameBytes g t) ∧
    (reach .store (coreOf h) (0x40 + 8 * q.toNat) → (queue z q).length < 16 → ∃ t, Runs (.qpPush h q x) s t ∧ OthersStay s t h ∧
      SameBytes g t ∧ t.hartAt h = { z with sq := (t.hartAt h).sq } ∧ queue (t.hartAt h) q = queue z q ++ [x] ∧
      ∀ k, k ≠ q → queue (t.hartAt h) k = queue z k) ∧
    (reach .load (coreOf h) (0x40 + 8 * q.toNat) → ∃ t, Runs (.qpPop h q) s t ∧ OthersStay s t h ∧
      t.hartAt h = { z with sq := (t.hartAt h).sq } ∧ queue (t.hartAt h) q = (queue z q).drop 1 ∧
      ∀ k, k ≠ q → queue (t.hartAt h) k = queue z k) ∧
    (reach .load core 8 → ∀ y rest, (g.core core).cres = y :: rest →
      ∃ t, Runs (.cresPop ⟨h, core⟩) s t ∧ (∀ k, t.hartAt k = s.hartAt k) ∧ (∀ c, c ≠ core → t.core c = g.core c) ∧
        t.core core = { g.core core with cres := rest } ∧ SameBytes g t) ∧
    (∀ i acc c o e, i = Instr.cpyqPush h c x ∧ acc = Acc.store ∧ o = 0 ∨ i = Instr.dgqPush h c x ∧ acc = Acc.store ∧ o = 0x10 ∨
        i = Instr.cresPop ⟨h, c⟩ ∧ acc = Acc.load ∧ o = 8 →
      ¬ z.atHandler → a.check (a.scalarHow acc) (portAddr c o) 8 = .error (.cause e) →
      ∃ t, Runs i s t ∧ Entered z (t.hartAt h) e (portAddr c o) false ∧ OthersStay s t h)

/-- R258, R284 to R290: an unfailed copy engine serves, from its turn on, the first core of its quad with an unended command:
the command advances by a chunk of 512 bytes of elements unless one fails, and the turn passes on; once it has ended, all
that it wrote is performed. A position with source and destination inside their records copies the element, as the command
itself sees it; one outside the source takes the pad, one outside the destination is clipped, and one to a slot is put into
the slot; a row's element goes to its place in the row. What is performed stores each element at its home and changes nothing
else. A failed engine serves none. -/
def Sys2Proof.Rules.CopyEngineEvents : Prop :=
  ∀ (s u v : State) (quad : QuadId) (k : BitVec 2) (x : Cmd) (rest : List Cmd) (core : CoreId) (b : List Word) (j i r : Nat)
    (ks hs : List Nat) (dst : Word) (xs : List (Word × List Host.Cell)),
    let q := s.quad quad
    let idle (n : BitVec 2) : Prop := ∀ y, (s.core (quad ++ n)).cpyq.head? = some y → y.ended = true
    let ext := shExt x.src 0
    let at_ (y : Cmd) : Nat := match x.kind with
      | .copy _ _ => y.next
      | .rows _ _ _ _ => y.next * ext + y.col
    let whole : Nat := match x.kind with
      | .copy _ _ => x.count
      | .rows _ _ _ _ => x.count * ext
    (q.failed = false → (s.core (quad ++ (q.turn + k))).cpyq = x :: rest → x.ended = false → x.col < ext →
      (∀ n : BitVec 2, n.toNat < k.toNat → idle (q.turn + n)) →
      ∃ t y, Runs (.qceChunk quad) s t ∧ (t.quad quad).turn = q.turn + k + 1 ∧
        (t.core (quad ++ (q.turn + k))).cpyq = y :: rest ∧ y.kind = x.kind ∧ y.ticket = x.ticket ∧
        (y.failed = none → at_ y = min whole (at_ x + max 1 (512 / shEs x.src))) ∧
        (y.failed ≠ none → x.next ≤ y.next ∧ y.next < x.next + max 1 (512 / shEs x.src)) ∧
        (y.ended = true → y.staged = []) ∧ t.hart = s.hart ∧ t.parked = s.parked) ∧
    (q.failed = true → exec (.qceChunk quad) s = .next s) ∧
    (let ts := tileCoords ((List.range 6).map (blkTl b)) (if bit (wordAt b 0) 21 then blkCount b - 1 - j else j)
     let cs : List Int := (ts.zip (List.range 6)).map fun (t, d) => blkSrc b d + t
     let cd : List Int := (ts.zip (List.range 6)).map fun (t, d) => blkDst b d + t
     let padded : Prop := x.oob = true ∨ inside x.src cs = false
     (¬ padded → blkToSlot b = false → s.qceRead core x.team (elemAddr x.src cs) (shEs x.src) = .ok (ks, u) →
       (inside x.dst cd = true → u.qceWrite core x.team (elemAddr x.dst cd) (shEs x.src) = .ok (hs, v) →
          s.copyAt core x b j = .ok (v, x.stage (elemAddr x.dst cd) hs (x.sees u ks))) ∧
       (inside x.dst cd = false → s.copyAt core x b j = .ok (u, { x with clip := true }))) ∧
     (padded → blkToSlot b = false → inside x.dst cd = true →
       s.qceWrite core x.team (elemAddr x.dst cd) (shEs x.src) = .ok (hs, v) →
       s.copyAt core x b j = .ok (v, ({ x with part := true }).stage (elemAddr x.dst cd) hs (shPad x.src))) ∧
     (¬ padded → blkToSlot b = true → x.loose = false → s.qceRead core x.team (elemAddr x.src cs) (shEs x.src) = .ok (ks, u) →
       let ew := slotWidth (blkCtl b 17 4) (shEs x.src)
       let n := BitVec.ofNat 4 (blkCtl b 13 4)
       0 ≤ cd.getD 1 0 → cd.getD 1 0 < (2048 / ew : Nat) → 0 ≤ cd.getD 0 0 → cd.getD 0 0 < 64 →
       s.copyAt core x b j = .ok (u.setCore core ((u.core core).setSlot n
         (((u.core core).slot n).setCode ew (cd.getD 1 0).toNat (cd.getD 0 0).toNat (bytesToNat (x.sees u ks)))), x))) ∧
    (let a := dst + BitVec.ofNat 64 (i * alignUp (ext * shEs x.src) 32 + x.col * shEs x.src)
     (r < shExt x.src 1 → s.qceRead core x.team (elemAddr x.src [(x.col : Int), (r : Int)]) (shEs x.src) = .ok (ks, u) →
       u.qceWrite core x.team a (shEs x.src) = .ok (hs, v) →
       s.rowElem core x dst i r = .ok (v, { x.stage a hs (x.sees u ks) with col := x.col + 1 })) ∧
     (shExt x.src 1 ≤ r → s.qceWrite core x.team a (shEs x.src) = .ok (hs, v) →
       s.rowElem core x dst i r = .ok (v, { x.stage a hs (shPad x.src) with col := x.col + 1, part := true }))) ∧
    (let cells := xs.flatMap Prod.snd
     (cells.map Prod.fst).Nodup → (∀ c ∈ cells, (s.performStaged xs).byte c.1 = c.2) ∧
       ∀ h, h ∉ cells.map Prod.fst → (s.performStaged xs).byte h = s.byte h)

/-- R170, R284, R287, R288: a command that has ended leaves CPYQ, its result element follows, if it asked for one and there
is room, and its bytes are posted, if it asked for that; the slot that it filled has one copy less to come, and is ready with
the last; a node it ran finishes. -/
def Sys2Proof.Rules.CopyCompletes : Prop :=
  ∀ (s : State) (x : Cmd) (rest : List Cmd) (core : CoreId),
    (s.core core).cpyq = x :: rest → x.ended = true → (x.cmp.getLsbD 1 = true → (s.core core).cres.length < 64) →
    (s.core core).launch = [] → (∀ n ∈ (s.core core).nodes, nodeKind (n.2.desc.getD []) ≠ 1) →
    (∀ n, x.node = some n → nodeSuccs (((s.core core).nodes.getD n.toNat {}).desc.getD []) = []) →
    ∃ t, Runs (.copyComplete core) s t ∧ (t.core core).cpyq = rest ∧ t = { s with cores := t.cores } ∧
      (t.core core).cres = (s.core core).cres ++ (if x.cmp.getLsbD 1 then [x.result false] else []) ∧
      (∀ n, (t.core core).sema n = if x.cmp.getLsbD 0 = true ∧ n = x.sem then
        ((s.core core).sema n).post x.posted x.failed.isSome false else (s.core core).sema n) ∧
      (∀ n y, x.node = some n → (s.core core).nodes.find n.toNat = some y →
        (t.core core).nodes.find n.toNat = some { y with runs := y.runs - 1 }) ∧
      (∀ b start, x.kind = .copy b start → blkToSlot b = true → x.loose = false → x.src ≠ [] →
        let y := (s.core core).slot (BitVec.ofNat 4 (blkCtl b 13 4))
        y.st = .filling → 0 < y.copies →
        (t.core core).slot (BitVec.ofNat 4 (blkCtl b 13 4)) =
          if y.copies = 1 then { y with copies := 0, kr := y.maxKr, n := y.maxN, kc := 0, st := .ready }
          else { y with copies := y.copies - 1 }) ∧
      ∀ c, c ≠ core → t.core c = s.core c

/-- R242, R247, R251: reading ahead adds one strip to a bound record with fewer than four and more to come, unless an access of the
hart comes before it at a byte, and changes nothing else of any hart, nor memory; a lease bounce changes no value, no handle and no order, and lets patrol scrub take a line of a
pinned row of its channel (R399). -/
def Sys2Proof.Rules.ReadAheadAndLeases : Prop :=
  ∀ (s : State) (h : HartId) (k : BitVec 3) (b : Binding) (d : DieId) (ch : BitVec 6), s.distinct →
    let x := s.hartAt h
    let a := s.select h
    let behind := a.stripBehind b [] (a.stripItems (forUpTo b.ahead.length (fun _ y => y.advance) b))
    (x.b.get k.toFin = some b → b.ahead.length < 4 → b.ahead.length < b.count.toNat → behind = true →
      ∃ t, Runs (.stripReadAhead h k) s t ∧ (∀ j, t.hartAt j = s.hartAt j) ∧ OnlyContexts s t) ∧
    (x.b.get k.toFin = some b → b.ahead.length < 4 → b.ahead.length < b.count.toNat → behind = false →
      ∃ t cells, Runs (.stripReadAhead h k) s t ∧ OthersStay s t h ∧ SameBytes s t ∧
        t.hartAt h = { x with b := x.b.set k.toFin (some { b with ahead := b.ahead ++ [cells] }) }) ∧
    (x.b.get k.toFin = none → exec (.stripReadAhead h k) s = .next s) ∧
    ∃ t, Runs (.leaseBounce d ch) s t ∧ ch ∈ (t.die d).bounces ∧ t = { s with dies := t.dies } ∧
      (∀ e, e ≠ d → t.die e = s.die e) ∧ t.die d = { s.die d with bounces := (t.die d).bounces }

/-- R357 to R359: on a registered collective ring of a valid context, while the clocks run, with EN, a valid header, STATUS clear and requests
ahead of HEAD, a well-formed request whose group and member entry can be read, and that no outstanding one repeats, is
accepted: HEAD rises by 1 and the request is outstanding, opened unless GATE holds it back. -/
def Sys2Proof.Rules.CollectiveRingAccepted : Prop :=
  ∀ (s v : State) (pkg : PkgId) (asid : BitVec 9) (k : BitVec 6) (h w d e : List Word),
    let reg := s.reg (ioDie pkg) (0x100000 + 512 * asid.toNat + 8 * k.toNat)
    let base := reg &&& 0xFFFFFFFFFFFFF000
    let tail := wordAt h 0
    let head := wordAt h 1
    let cfg := wordAt h 2
    let ln := bits cfg 0 5
    let r : CollReq :=
      { asid := asid, base := base, n := head.toNat, ln := ln, req := w, desc := d, opened := !reqGate w, batch := 0 }
    bit reg 0 = true → bit (s.ctxReg pkg asid.toNat 16) 63 = true → s.clocksStopped pkg = false → s.collRead pkg asid base 6 = .ok h →
    ringCfgOk cfg 0xFFFFFFFFFFFFEFE0 = true → bit (wordAt h 5) 0 = false → bit cfg 12 = true → tail ≠ head →
    (tail - wordAt h 3).toNat ≤ 2 ^ ln →
    s.collRead pkg asid (base + BitVec.ofNat 64 (128 + 128 * (head.toNat % 2 ^ ln))) 16 = .ok w →
    s.collWrite pkg asid (base + 8) (head + 1) = some v → requestBad w = false →
    v.collRead pkg asid (wordAt w 1) 4 = .ok d → descriptorBad d = false →
    v.collRead pkg asid (entryAddr (wordAt d 3) (groupOf d).rank.toNat) 1 = .ok e →
    (∀ y ∈ v.requests, y.2.key = r.key → y.2.rank ≠ r.rank) →
    ∃ t, Runs (.collRingPoll pkg asid k) s t ∧ t = { v with pkgs := t.pkgs, roster := t.roster } ∧
      t.roster.head? = some ⟨asid, wordAt d 3, r.rank, wordAt e 0⟩ ∧
      t.pkg pkg = { v.pkg pkg with reqs := (v.pkg pkg).reqs ++ [r] } ∧ ∀ p, p ≠ pkg → t.pkg p = v.pkg p

/-- R359 to R362: the requests of a group with one TAG and SEQ complete when every member has posted, they agree, and
theirs is the next to start: each member's DST takes, at each element, the ring form of the reduction, or the gathered,
scattered or broadcast element of the members by rank, and every status is 0; no byte outside DST and RES changes before the
statuses are written. Requests that do not agree end with status 2; an incomplete set waits; those of a group of which a
member is lost end with status 3 (R355). -/
def Sys2Proof.Rules.CollectiveRequestsComplete : Prop :=
  ∀ (s : State) (gid : BitVec 32) (tag : BitVec 16) (seq : BitVec 32) (sh : List Share),
    let key := (gid.toNat, tag.toNat * 2 ^ 32 + seq.toNat)
    let xs := s.instanceRequests key
    (∀ x ∈ xs, s.groupLost x.1 x.2.asid (wordAt x.2.desc 3) x.2.members = true →
      exec (.collRequestComplete gid tag seq) s = .next ((xs.foldl (fun s x => s.spoil x.1 x.2) s).endInstance xs 3 0 {})) ∧
    ((∀ x ∈ xs, s.groupLost x.1 x.2.asid (wordAt x.2.desc 3) x.2.members = false) →
    (fullSet xs = false → exec (.collRequestComplete gid tag seq) s = .next s) ∧
    (fullSet xs = true → s.requestsAgree xs = false →
      exec (.collRequestComplete gid tag seq) s = .next (s.endInstance xs 2 0 {})) ∧
    (fullSet xs = true → s.requestsAgree xs = true → key ∈ s.started →
      xs.map (fun x => s.shareOf x.1 x.2) = sh.map Except.ok →
      let homes := sh.flatMap fun z => (z.dst ++ z.out).flatten
      let reqs := xs.map Prod.snd
      let w := match reqs with
        | r :: _ => r.req
        | [] => []
      let c := reqCount w
      let src (m k : Nat) : Nat := ((sh.map Share.src).getD m []).getD k 0
      let part (m k : Nat) : Nat := match reqs[m]? with
        | some r => (contribute r.req (src m k) (((sh.map Share.res).getD m []).getD k 0)).1
        | none => 0
      let value (m k : Nat) : Nat :=
        if reqKind w ≤ 1 then
          (ringFinal (collOpOf (reqOp w)) (reqWf w) (reqDf w)
            (reduceTree (collOpOf (reqOp w)) (reqWf w) (8 * collBytes (reqWf w))
              ((List.range xs.length).map fun r => part r k))).1
        else if reqKind w = 2 then src (k / c) (k % c)
        else if reqKind w = 3 then src 0 (m * c + k) else src 0 k
      homes.Nodup → 0 < c →
      ∃ (u : State) (fl : Flags), Runs (.collRequestComplete gid tag seq) s (u.endInstance xs 0 0 fl) ∧ (∀ a, a ∉ homes → u.byte a = s.byte a) ∧
        ∀ m z, sh[m]? = some z → ∀ k ks, z.dst[k]? = some ks →
          bytesToNat (u.bytes ks) = value m k % 2 ^ (8 * ks.length)))


/-! ### Events of the fabric, the links and the coolant -/

/-- R333 to R337, R397: a request flit that arrives intact, in the class of its traffic, from a die that is present and lives,
next in its stream, is performed once on the places of its records: a read answers their bytes, a write stores its data and
nothing else, an atomic answers the old bytes and stores the updates (the codes of its operations are the model's, log entry
24); the response goes out in class 1 and is recorded under the flit's SEQ. One that fails a check is answered so, STAT 2 with
the cause or STAT 1 for a lost target. One already performed gets its recorded response again, however many are recorded; one
out of order is held, as is the next one while 4,096 responses are recorded or Burup reloads; one that is not intact is
answered with NACK and the expected SEQ; any other is dropped. Classes are by the unit in the tag; those of the distributor,
the host and the external agent are the model's (log entry 24). -/
def Sys2Proof.Rules.DernyRequests : Prop :=
  ∀ (s u : State) (f r : Flit) (i : Instr) (acc : Acc) (ps : List (Word × Place × List Byte)) (e : Word) (y : Word × List Byte)
    (rest : List (Word × List Byte)),
    (i = .dernyRead f ∧ f.type = 0 ∧ acc = .load ∨ i = .dernyWrite f ∧ f.type = 1 ∧ acc = .store ∨
      i = .dernyAtomic f ∧ f.type = 2 ∧ acc = .atomic) →
    let here := { s with wire := s.wire.erase f }
    let a := here.acked f
    let k := streamKey f.src f.dst f.cls
    let j := streamKey f.dst f.src 1
    let x := a.stream k
    let b := a.setStream k { x with expect := x.expect + 1 }
    let want := (s.stream k).expect
    let homes := ps.flatMap fun z => z.2.1.keys
    let unit := (f.extractLsb' 192 8).toNat
    let swap : Prop := f.type = 2 ∧ f.op = .cas
    let wide : Prop := 1 < f.records.length ∨ f.type = 2 ∧ ∃ n, f.op = .vamo .fadd n
    let taken : Prop := f.classOk = true ∧ s.present (pkgOfDie f.dst) (pkgOfDie f.src) = true ∧ (s.die f.src).failed = false
    let full : Prop := 4096 ≤ x.replay.length ∨ a.awaitsBurup f = true
    let answer (stat : Word) (pay : List Byte) : Flit :=
      Flit.make (if f.type = 0 then 3 else 4) 1 f.dst f.src (f.field 5 2 % 512) (a.stream j).next
        ((a.stream (streamKey f.src f.dst 1)).expect - 1) stat (f.extractLsb' 192 64) pay
    let answered (t : State) (r : Flit) : Prop :=
      t.stream k = { x with expect := x.expect + 1, replay := x.replay ++ [(f.seq, r)] } ∧
      t.stream j = { a.stream j with next := (a.stream j).next + 1, sent := (a.stream j).sent ++ [r] } ∧
      t.wire = s.wire.erase f ++ [r]
    (f.classOk = true ↔
      (unit < 128 → (f.cls = 2 ∨ f.cls = 3) ∧ (swap → f.cls = 2) ∧ (¬ swap → wide → f.cls = 3)) ∧
      (128 ≤ unit → unit < 168 → f.cls = 4) ∧ (unit = 168 → f.cls = 5) ∧ (unit = 240 ∨ unit = 242 → f.cls = 7) ∧
      (168 < unit → unit ≠ 240 → unit ≠ 242 → f.cls = 2)) ∧
    (f.intact = false → exec i s = .next
      { here with wire := here.wire ++ [Flit.make 6 0 f.dst f.src 0 want (want - 1) 0 (f.cls.setWidth 64) []] }) ∧
    (f.intact = true → ¬ taken → exec i s = .next here) ∧
    (f.intact = true → taken → f.seq ≠ x.expect → covers (x.expect - 1) f.seq = true →
      x.replay.find? (fun z => z.1 == f.seq) = some (f.seq, r) → exec i s = .next { a with wire := a.wire ++ [r] }) ∧
    (f.intact = true → taken → (f.seq ≠ x.expect ∧ covers (x.expect - 1) f.seq = false ∨ f.seq = x.expect ∧ full) →
      (∀ g ∈ x.held, g.seq ≠ f.seq) →
      exec i s = .next (a.setStream k { x with held := x.held ++ [f] })) ∧
    (f.intact = true → taken → f.seq = x.expect → ¬ full → x.held = [] → b.flitPlaces f f.records = .ok (ps, u) → homes.Nodup →
      (∀ z ∈ ps, z.2.1.space ≠ .regs ∧ z.2.1.keys.length = f.width ∧ (acc = .store → z.2.2.length = f.width)) →
      ∃ t, Runs i s t ∧ t.hart = s.hart ∧ t.parked = s.parked ∧
        answered t (answer 0 (if acc = .store then [] else homes.map s.byte)) ∧ (∀ n, n ∉ homes → t.byte n = s.byte n) ∧
        ∀ z ∈ ps, ∃ rm, t.bytes z.2.1.keys =
          if acc = .load then s.bytes z.2.1.keys
          else if acc = .store then z.2.2
          else natToBytes f.width (f.update rm (bytesToNat (s.bytes z.2.1.keys)) z.2.2)) ∧
    (f.intact = true → taken → f.seq = x.expect → ¬ full → x.held = [] → b.flitPlaces f f.records = .error e →
      ∃ t, Runs i s t ∧ t.hart = s.hart ∧ t.parked = s.parked ∧ answered t (answer e []) ∧ SameBytes s t) ∧
    (∀ d, b.check { master := originMaster f.origin, team := 0, acc := acc, bank := 0, vector := f.cls != 2 } y.1 f.width =
        .error d →
      b.flitPlaces f (y :: rest) = .error (match d with
        | .lost => 1
        | .cause c => place c.toNat 2 ||| 2))

/-- R333 to R336, R344: an intact response, time or management flit of its class that is next advances its stream's expected
SEQ and nothing else but what its ACKSEQ acknowledges: the sender's flits and the recorded responses that it covers are
freed. A NACK has what is left of the stream that it names sent again, a credit adds one to it; one that is not intact is
answered with NACK, and one of another class or of a package that is not present is dropped. After a timeout the sender sends
its oldest flit again, with the later ones that have waited as long, whose number is free (log entry 24), and still holds
them. -/
def Sys2Proof.Rules.DernyControl : Prop :=
  ∀ (s : State) (f : Flit) (i : Instr) (n : Nat) (src dst : DieId) (c : BitVec 3),
    let here := { s with wire := s.wire.erase f }
    let a := here.acked f
    let k := streamKey f.src f.dst f.cls
    let rev := streamKey f.dst f.src f.ackClass
    let x := a.stream k
    let next := a.setStream k { x with expect := x.expect + 1 }
    let sent := (s.stream (streamKey src dst c)).sent
    let nacked : State := { here with wire := here.wire ++
      [Flit.make 6 0 f.dst f.src 0 (s.stream k).expect ((s.stream k).expect - 1) 0 (f.cls.setWidth 64) []] }
    (exec (.flitResendTimeout src dst c) s =
      .next { s with free := s.free + 1, wire := s.wire ++ sent.take (1 + Config.pick s.free % sent.length) }) ∧
    (f.type = n → f.intact = true → s.present (pkgOfDie f.dst) (pkgOfDie f.src) = true →
      (f.seq = x.expect → x.held = [] →
        (f.cls = 1 → (i = .dernyReadResponse f ∧ n = 3 ∨ i = .dernyWriteResponse f ∧ n = 4) → exec i s = .next next) ∧
        (f.cls = 7 → n = 9 → exec (.dernyManagement f) s = .next next) ∧
        (f.cls = 6 → n = 8 → exec (.dernyTimeLaunch f) s = .next next.passTime)) ∧
      (f.cls = 0 →
        (n = 5 → exec (.dernyAck f) s = .next a) ∧
        (n = 6 → exec (.dernyNack f) s = .next { a with wire := a.wire ++ (a.stream rev).sent }) ∧
        (n = 7 → exec (.dernyCredit f) s =
          .next (a.setStream rev { a.stream rev with credit := (a.stream rev).credit + 1 })))) ∧
    ((i, n) ∈ [(.dernyReadResponse f, 3), (.dernyWriteResponse f, 4), (.dernyAck f, 5), (.dernyNack f, 6), (.dernyCredit f, 7),
        (.dernyManagement f, 9)] →
      (f.intact = false → exec i s = .next nacked) ∧
      (f.intact = true → (f.type ≠ n ∨ s.present (pkgOfDie f.dst) (pkgOfDie f.src) = false ∨
          f.cls ≠ (if n = 9 then 7 else if n ≤ 4 then 1 else 0)) → exec i s = .next here)) ∧
    (f.intact = false → exec (.dernyTimeLaunch f) s = .next nacked.passTime) ∧
    (a.stream rev).sent = (s.stream rev).sent.filter (fun g => !covers f.ackSeq g.seq) ∧
    (a.stream k).replay = (s.stream k).replay.filter (fun g => !(g.2.cls == f.ackClass && covers f.ackSeq g.2.seq)) ∧
    (∀ q, (a.stream q).next = (s.stream q).next ∧ (a.stream q).expect = (s.stream q).expect ∧
      (a.stream q).held = (s.stream q).held) ∧
    a = { here with streams := a.streams }

/-- R331, R332, R383, R384, R388: by an admitted master, a back-bank entry is written outside ARM, RDY falls and a parked
wavelength that it needs wakes; the bank becomes ready when every Chanter of the package runs; PCSW arms the switch at its
tick, or 1,000 ticks ahead when that is sooner (what PCSW then reads is the model's choice, log entry 39); at the tick every
port of the package's compute dies takes its back bank, what was sent by circuit and not acknowledged is sent again, and no
port that carries a circuit stays parked where no other wavelength of its path is awake. -/
def Sys2Proof.Rules.PodCircuits : Prop :=
  ∀ (s : State) (by_ : Origin) (pkg : PkgId) (port : BitVec 8) (x : Word),
    let d := ioDie pkg
    let o := 0x20000 + 8 * port.toNat
    let soon := s.passTime.now + 1000
    (s.podArm pkg = false → s.mayStore by_ d o = true →
      let u := (s.setReg d o (x &&& 0x3FF)).setReg d 0x21008 0
      (bit x 9 = false → exec (.pcnxWrite pkg port ⟨by_, x⟩) s = .next u) ∧
      (bit x 9 = true → ∃ t, Runs (.pcnxWrite pkg port ⟨by_, x⟩) s t ∧ t = { u with dies := t.dies } ∧
        BitVec.ofNat 4 (port.toNat % 8) ∉
          (t.waves (dieAt pkg (port.toNat / 32)) (BitVec.ofNat 5 (port.toNat / 8 % 4))).parked)) ∧
    (s.podArm pkg = true ∨ s.mayStore by_ d o = false → exec (.pcnxWrite pkg port ⟨by_, x⟩) s = .next s) ∧
    (s.podArm pkg = false → s.chantersUp pkg = true → exec (.podBankReady pkg) s = .next (s.setReg d 0x21008 1)) ∧
    (s.chantersUp pkg = false → exec (.podBankReady pkg) s = .next s) ∧
    (s.mayStore by_ d 0x21000 = true → bit (s.reg d 0x21008) 0 = true →
      ∃ t, Runs (.pcswWrite pkg ⟨by_, x⟩) s t ∧ t.reg d 0x21008 = 3 ∧
        t.reg d 0x21000 = (if x.toNat < soon.toNat then soon else x) ∧ t.now = s.passTime.now ∧ SameBytes s t) ∧
    (s.mayStore by_ d 0x21000 = false ∨ bit (s.reg d 0x21008) 0 = false → exec (.pcswWrite pkg ⟨by_, x⟩) s = .next s) ∧
    (s.podArm pkg = true →
      (∀ y ∈ s.teams, y.2.st = .placed → y.2.committed = true → (s.reg d 0x21000).toNat ≤ y.2.start.toNat) →
      ∃ t, Runs (.podStepSwitch pkg) s t ∧ t.reg d 0x21008 = 0 ∧
        (∀ i < 32 * s.computeDies pkg, t.reg d (0x20800 + 8 * i) = s.reg d (0x20000 + 8 * i) ∧
          t.reg d (0x20000 + 8 * i) = s.reg d (0x20000 + 8 * i)) ∧
        (s.reg d 0x21000).toNat ≤ t.now.toNat ∧ t.streams = s.streams ∧ SameBytes s t ∧ (∀ f ∈ s.wire, f ∈ t.wire) ∧
        (∀ i < 32 * s.computeDies pkg, let e := dieAt pkg (i / 32)
          let g := BitVec.ofNat 5 (i / 8 % 4)
          bit (t.reg d (0x20800 + 8 * i)) 9 = true → t.othersAwake e g (i % 8) = 0 →
            BitVec.ofNat 4 (i % 8) ∉ (t.waves e g).parked) ∧
        ∀ a b c, pkgOfDie a = pkg → pkgOfDie b ≠ pkg → s.circuit pkg (pkgOfDie b) = true →
          ∀ f ∈ (s.stream (streamKey a b c)).sent, f ∈ t.wire)

/-- R338, R340: a package that finds another lost, by its removal or by its silence, drops it from its present set, closes the
circuits to it, and forgets the streams between them; the lost one is isolated; memory stays. The words and non-blocking
accesses of its harts that are under way have been caught by the loss. -/
def Sys2Proof.Rules.LostPackages : Prop :=
  ∀ (s : State) (pkg gone : PkgId) (i : Instr),
    i = .packageRemovalRecognised pkg gone ∨ i = .packageResponseTimeout pkg gone →
    let d := ioDie pkg
    (pkg ≠ gone → (s.pkg pkg).reload = false → s.present pkg gone = true →
      ∃ t, Runs i s t ∧ t.present pkg gone = false ∧ (t.pkg gone).isolated = true ∧ SameBytes s t ∧
        (∀ q, q ≠ gone → t.present pkg q = s.present pkg q) ∧
        (∀ n < 32 * s.computeDies pkg, let y := s.reg d (0x20800 + 8 * n)
          t.reg d (0x20800 + 8 * n) = if bit y 9 = true ∧ bits y 0 9 = gone.toNat then 0 else y) ∧
        (∀ h, pkgOf h = pkg → (t.hartAt h).run ≠ .free →
          gone ∈ (t.hartAt h).front.caught ∧ ∀ x ∈ (t.hartAt h).nb, gone ∈ x.caught) ∧
        ∀ a b c, (pkgOfDie a = pkg ∧ pkgOfDie b = gone ∨ pkgOfDie a = gone ∧ pkgOfDie b = pkg) →
          t.stream (streamKey a b c) = {}) ∧
    (pkg = gone ∨ (s.pkg pkg).reload = true ∨ s.present pkg gone = false → exec i s = .next s)

/-- R372, R397: an event is recorded at LOGH mod 512 with its tick, its code and place, and its data, and LOGH rises by 1;
while the package manager reloads, the record waits for it. R307: a power limit is logged so. -/
def Sys2Proof.Rules.EventLog : Prop :=
  ∀ (s : State) (d : DieId) (cause kind index : Nat) (data : Word) (pkg : PkgId),
    let io := ioDie (pkgOfDie d)
    let n := s.reg io 0x50000
    let o := 0x51000 + 32 * (n.toNat % 512)
    let t := s.logEvent d cause kind index data
    let word := BitVec.ofNat 64 cause ||| BitVec.ofNat 64 ((pkgOfDie d).toNat * 2 ^ 10) |||
      BitVec.ofNat 64 ((dieInPkg d).toNat * 2 ^ 19) ||| BitVec.ofNat 64 (kind * 2 ^ 23) ||| BitVec.ofNat 64 (index * 2 ^ 26)
    ((s.pkg (pkgOfDie d)).reload = false →
      t.reg io 0x50000 = n + 1 ∧ t.reg io o = s.passTime.now ∧ t.reg io (o + 8) = word ∧ t.reg io (o + 16) = data ∧
      t.reg io (o + 24) = 0 ∧ t = { s.passTime with dev := t.dev }) ∧
    ((s.pkg (pkgOfDie d)).reload = true →
      t = { s.passTime with pkgs := t.pkgs } ∧
      (t.pkg (pkgOfDie d)).events = (s.pkg (pkgOfDie d)).events ++ [[s.passTime.now, word, data, 0]]) ∧
    exec (.powerLimitApplied pkg) s = .next (s.logEvent (ioDie pkg) 0x308 5 0 0)

/-- R374 to R378, R388: the states of a UCIe module. By an admitted master PAUSE leads from 2 to 3, RETRAIN from 4 to 5,
RESUME from 4 to 2; under the hardware sequence only AUTO, THR and WINUS are written. Once all is acknowledged 3 leads to 4,
or to 5 in that sequence. A retraining uses the bad lanes as they were marked when it began and those that failed; one that
trains ends at 2, or at 4 while PAUSE stands, with its bad lanes spared; one that does not has ERR and ends at 4, or at 2 in
the hardware sequence; it is logged where the width is or was halved, or lanes are only added to those spared. A retry is
counted, in its window too; once the window holds THR of them THX is set and logged, and under AUTO the worst lane is marked bad and the sequence starts.
A module out of state 2 has its traffic moved, which is logged once (the windows are the model's, log entry 42). -/
def Sys2Proof.Rules.UcieModules : Prop :=
  ∀ (s : State) (by_ : Origin) (d : DieId) (m : BitVec 4) (x failT failR : Word) (dir : BitVec 1) (lane : BitVec 6),
    m.toNat < 12 →
    let n := m.toNat
    let o := ulOff n
    let ctl := s.reg d o
    let st := s.ulState d n
    let mask : Word := if s.ulAuto d n then 0x000000FFFFFF0020 else 0x000000FFFFFF003A
    let wr (t : State) : Prop := t.reg d o = (ctl &&& ~~~mask) ||| (x &&& mask)
    let w := (s.die d).window.find n
    let u := s.passTime
    (s.mayStore by_ d o = true →
      (s.ulAuto d n = false →
        (bit x 1 = true → st = 2 → ∃ t, Runs (.ulPause d m ⟨by_, x⟩) s t ∧ t.ulState d n = 3 ∧ wr t) ∧
        (bit x 2 = true → st = 4 → ∃ t, Runs (.ulRetrain d m ⟨by_, x⟩) s t ∧ t.ulState d n = 5 ∧ wr t) ∧
        (bit x 1 = false → bit x 2 = false → st = 4 → ∃ t, Runs (.ulResume d m ⟨by_, x⟩) s t ∧ t.ulState d n = 2 ∧ wr t)) ∧
      (s.ulAuto d n = true →
        (bit x 1 = true → ∃ t, Runs (.ulPause d m ⟨by_, x⟩) s t ∧ t.ulState d n = st ∧ wr t) ∧
        (bit x 2 = true → ∃ t, Runs (.ulRetrain d m ⟨by_, x⟩) s t ∧ t.ulState d n = st ∧ wr t) ∧
        (bit x 1 = false → ∃ t, Runs (.ulResume d m ⟨by_, x⟩) s t ∧ t.ulState d n = st ∧ wr t))) ∧
    (s.mayStore by_ d o = false → ∀ i, i ∈ [.ulPause d m ⟨by_, x⟩, .ulRetrain d m ⟨by_, x⟩, .ulResume d m ⟨by_, x⟩] →
      exec i s = .next s) ∧
    (st = 3 → ∃ t, Runs (.ulPauseDone d m) s t ∧
      t.ulState d n = if s.ulAuto d n then 5 else if bit ctl 1 then 4 else 2) ∧
    (st = 5 →
      let began := (s.die d).badLanes.getD n (s.reg d (o + 0x18), s.reg d (o + 0x20))
      let bt := began.1 ||| failT
      let br := began.2 ||| failR
      let narrow := if s.ulAuto d n then !trains bt br false false else bit ctl 3
      let upper := narrow && if s.ulAuto d n then
          decide (badInUse bt true true + badInUse br true true < badInUse bt true false + badInUse br true false)
        else bit ctl 4
      let ok := trains bt br narrow upper
      let before := (s.die d).spared.getD n {}
      let after : Spared := { t := bt &&& lanesUsed narrow upper, r := br &&& lanesUsed narrow upper }
      let halved := bit (s.reg d (o + 8)) 4
      let io := ioDie (pkgOfDie d)
      ∃ t, Runs (.ulRetrainDone d m failT failR) s t ∧ t.reg d (o + 0x18) = s.reg d (o + 0x18) ||| failT ∧
        t.reg d (o + 0x20) = s.reg d (o + 0x20) ||| failR ∧ t.ulAuto d n = false ∧
        t.ulState d n = (if s.ulAuto d n then 2 else if ok && !bit ctl 1 then 2 else 4) ∧
        (ok = true → (t.die d).spared.find n = some after ∧ bits (t.reg d (o + 8)) 10 3 = badInUse bt narrow upper ∧
          bits (t.reg d (o + 8)) 13 3 = badInUse br narrow upper ∧ bit (t.reg d (o + 8)) 4 = narrow ∧
          bit (t.reg d (o + 8)) 5 = upper) ∧
        (ok = false → bit (t.reg d (o + 8)) 8 = true) ∧
        ((s.pkg (pkgOfDie d)).reload = false → t.reg io 0x50000 = s.reg io 0x50000 +
          if (if ok then narrow || (!halved && before.grows after) else halved) then 1 else 0)) ∧
    (∃ t, Runs (.linkLevelRetry d m dir lane) s t ∧
      bits (t.reg d (o + 0x10)) 0 32 = (bits (s.reg d (o + 0x10)) 0 32 + 1) % 2 ^ 32 ∧ SameBytes s t ∧
      (∀ b k, w = some (b, k) → (u.now - b).toNat < 1000 * bits ctl 32 8 → (t.die d).window.find n = some (b, k + 1)) ∧
      (w = none → (t.die d).window.find n = some (u.now, 1))) ∧
    (bits ctl 16 16 ≠ 0 → bits ctl 32 8 ≠ 0 →
      (∀ b k, w = some (b, k) → bits ctl 16 16 ≤ k →
        ∃ t, Runs (.ulRetryThreshold d m) s t ∧ bit (t.reg d (o + 8)) 9 = true ∧ (t.die d).window.find n = none ∧
          (bit ctl 5 = true → st = 2 → t.ulState d n = 3 ∧ t.ulAuto d n = true ∧
            let rc := s.reg d (o + 0x10)
            bit (t.reg d (o + (if bit rc 63 then 0x20 else 0x18))) (bits rc 56 6) = true) ∧
          (bit ctl 5 = false → (s.pkg (pkgOfDie d)).reload = false →
            t.ulState d n = st ∧ t.reg (ioDie (pkgOfDie d)) 0x50000 = s.reg (ioDie (pkgOfDie d)) 0x50000 + 1)) ∧
      ((w = none ∨ ∃ b k, w = some (b, k) ∧ k < bits ctl 16 16) → exec (.ulRetryThreshold d m) s = .next s)) ∧
    (st ≠ 2 → n ∉ (s.die d).moved → exec (.ulPacketFallback d m) s =
      .next ((s.setDie d { s.die d with moved := (s.die d).moved ++ [n] }).logEvent d 0x302 0 n 0)) ∧
    (st = 2 ∨ n ∈ (s.die d).moved → exec (.ulPacketFallback d m) s = .next s)

/-- R379, R381, R406: a lane error is counted, saturating; over the threshold a port with its spare free retrains onto it, and
then is up again; a further one takes it down; the last two are logged. The host link going down disables every ring
registered in the memory behind it, of whatever package, and is logged; coming up, once bring-up has trained its port, it
leaves them disabled. -/
def Sys2Proof.Rules.PortsAndHostLink : Prop :=
  ∀ (s : State) (pkg : PkgId) (p : BitVec 3) (lane : BitVec 2),
    let d := ioDie pkg
    let o := ppOff p
    let x := s.reg d o
    let off (y z : Word) : Prop :=
      if spaceOf (y &&& 0xFFFFFFFFFFFFF000) = some .host ∧ aPkg y = pkg then bit z 0 = false else z = y
    (∃ t, Runs (.laneErrorDetected pkg p) s t ∧ bits (t.reg d o) 8 32 = min (bits x 8 32 + 1) (2 ^ 32 - 1) ∧
      bits (t.reg d o) 0 8 = bits x 0 8) ∧
    (bits x 0 2 = 2 → bit x 7 = false → ∃ t, Runs (.portLaneSpare pkg p lane) s t ∧ bits (t.reg d o) 0 2 = 3 ∧
      bit (t.reg d o) 7 = true ∧ bits (t.reg d o) 4 2 = lane.toNat ∧ bits (t.reg d o) 8 32 = bits x 8 32) ∧
    (bits x 0 2 = 3 → exec (.portRetrainComplete pkg p) s =
      .next ((s.setReg d o ((x &&& ~~~3) ||| 2)).logEvent d 0x306 2 p.toNat ((x &&& ~~~3) ||| 2))) ∧
    (bits x 0 2 ≠ 0 → bit x 7 = true → exec (.portDown pkg p) s =
      .next ((s.setReg d o (x &&& ~~~3)).logEvent d 0x306 2 p.toNat (x &&& ~~~3))) ∧
    ((s.pkg pkg).hostUp = true → ∃ t, Runs (.hostLinkDown pkg) s t ∧ (t.pkg pkg).hostUp = false ∧ SameBytes s t ∧
      ∀ (q : PkgId) (a : BitVec 9),
        (∀ k < 4, off (s.ctxReg q a.toNat (24 + 8 * k)) (t.ctxReg q a.toNat (24 + 8 * k))) ∧
        ∀ k < 64, off (s.reg (ioDie q) (0x100000 + 512 * a.toNat + 8 * k)) (t.reg (ioDie q) (0x100000 + 512 * a.toNat + 8 * k))) ∧
    (4 ≤ (s.pkg pkg).step →
      ∃ t, Runs (.hostLinkUp pkg) s t ∧ (t.pkg pkg).hostUp = true ∧ t = { s with pkgs := t.pkgs }) ∧
    ((s.pkg pkg).step < 4 → exec (.hostLinkUp pkg) s = .next s)

/-- R382, R383: a wavelength that fails is replaced by the group's spare while that is free and has not failed itself, which is
logged; when the last of the nine fails, that is logged; parked ones of a path left with none awake wake; what was sent on its
path and not acknowledged is sent again. One parks under EN while another of its path stays awake; it wakes on demand. -/
def Sys2Proof.Rules.Wavelengths : Prop :=
  ∀ (s : State) (d : DieId) (g : BitVec 5) (w : BitVec 4),
    let x := s.waves d g
    let io := ioDie (pkgOfDie d)
    let logs (t : State) (n : Word) : Prop := (s.pkg (pkgOfDie d)).reload = false → t.reg io 0x50000 = s.reg io 0x50000 + n
    let others := x.awake.filter (· != w.toNat)
    let resent (t : State) : Prop := (∀ f ∈ s.wire, f ∈ t.wire) ∧ ∀ a b c, ∀ f ∈ (s.stream (streamKey a b c)).sent,
      match s.lit d g.toNat (x.wave w.toNat) with
      | some (.inl q) => pkgOfDie a = pkgOfDie d → pkgOfDie b = q → f ∈ t.wire
      | some (.inr e) => a = d → b = e → f ∈ t.wire
      | none => True
    (s.waveGroupOk d g.toNat = true →
      (w.toNat < 8 → w ∉ x.failed → 8 ∉ x.failed → x.spare = false → x.failed.length < 8 →
        ∃ t, Runs (.wavelengthFail d g w) s t ∧ (t.waves d g).failed = x.failed ++ [w] ∧ (t.waves d g).spare = true ∧
          (t.waves d g).serves = w ∧ w ∉ (t.waves d g).parked ∧ logs t 1 ∧ resent t) ∧
      (w.toNat ≤ 8 → w ∉ x.failed → (x.spare = true ∨ 8 ∈ x.failed ∨ w = 8) →
        ∃ t, Runs (.wavelengthFail d g w) s t ∧ (t.waves d g).failed = x.failed ++ [w] ∧ (t.waves d g).spare = x.spare ∧
          (x.failed.length < 8 → t.dev = s.dev) ∧ (8 ≤ x.failed.length → logs t 1) ∧
          (4 ≤ g.toNat → others = [] → (t.waves d g).parked = []) ∧ resent t) ∧
      (bit (s.reg d 0x31000) 32 = true → w.toNat < 8 → w.toNat ∈ x.awake →
        (4 ≤ g.toNat → others ≠ [] → exec (.wavelengthPark d g w) s = .next (s.setWaves d g { x with parked := x.parked ++ [w] })) ∧
        (g.toNat < 4 → (s.lit d g.toNat w.toNat).isSome = true →
          (∃ e h v, e < s.computeDies (pkgOfDie d) ∧ h < 4 ∧ let y := s.waves (dieAt (pkgOfDie d) e) (BitVec.ofNat 5 h)
            v ∈ y.awake ∧ (dieAt (pkgOfDie d) e, h, v) ≠ (d, g.toNat, w.toNat) ∧
            s.lit (dieAt (pkgOfDie d) e) h (y.wave v) = s.lit d g.toNat w.toNat) →
          exec (.wavelengthPark d g w) s = .next (s.setWaves d g { x with parked := x.parked ++ [w] })))) ∧
    (bit (s.reg d 0x31000) 32 = false ∨ 8 ≤ w.toNat ∨ 4 ≤ g.toNat ∧ others = [] →
      exec (.wavelengthPark d g w) s = .next s) ∧
    exec (.wavelengthWake d g w) s = .next (s.setWaves d g { x with parked := x.parked.filter (· != w) })

/-- R384, R404: a Chanter that expires holds its settings and RDY falls; it reboots, unless three expiries lie within 10 s, and
logs how many wavelengths moved; one whose image does not verify stays in reset. -/
def Sys2Proof.Rules.ChanterReset : Prop :=
  ∀ (s : State) (d : DieId),
    let c := (s.die d).chanter
    let b := (s.pkg (pkgOfDie d)).boot
    let verified : Prop := b.chanter.signer = b.keyHash ∧ b.chanter.signed = b.chanter.digest
    (c.up = true → ∃ t, Runs (.chanterWatchdogExpiry d) s t ∧ (t.die d).chanter.up = false ∧
      (t.die d).waves = (s.die d).waves ∧ (t.die d).chanter.last.head? = some s.passTime.now ∧
      bit (t.reg (ioDie (pkgOfDie d)) 0x21008) 0 = false) ∧
    (c.up = false → c.stuck = false → c.held = false → 3 ≤ (s.pkg (pkgOfDie d)).step →
      (verified → exec (.chanterReboot d) s =
        .next ((s.setDie d { s.die d with chanter := { c with up := true } }).logEvent d 0x300 4 0 (BitVec.ofNat 64 c.moved))) ∧
      (¬ verified → exec (.chanterReboot d) s = .next (s.setDie d { s.die d with chanter := { c with held := true } }))) ∧
    (c.stuck = true ∨ c.held = true → exec (.chanterReboot d) s = .next s) ∧
    (∀ a b e rest, c.last = a :: b :: e :: rest → (c.stuck = true ↔ (a - e).toNat < 10000000000))

/-- R410, R411, R416: a sample stores flow, pressure and temperature; a cause of a zone is raised while its bit is clear
and its condition holds: over the first or the second temperature threshold, ten samples of pressure out of bounds, fifty
of flow below nine tenths; every hart of the zone's teams then has it pending, one of a placed team with its start. At 110 degrees the zone's quads halt
and those teams fail. The dry
detector sets DRYZ, and its cause but during an evacuation; DRYZ falls once the detector reads clear and software has cleared
the cause. A zone that the package has not is not sampled. -/
def Sys2Proof.Rules.ZoneSensors : Prop :=
  ∀ (s : State) (pkg : PkgId) (z : BitVec 8) (flow dp : BitVec 16) (temp : BitVec 8), s.teamsKeyed →
    let n := z.toNat
    let d := ioDie pkg
    let sns := zoneOff n + 16
    let thr := s.reg d (zoneOff n + 8)
    let old := (s.pkg pkg).zones.getD n (0, 0)
    let outOf : Prop := dp.toNat < bits thr 16 16 ∨ bits thr 32 16 < dp.toNat
    let low : Prop := n < 128 ∧ s.moving pkg n = false ∧ flow.toNat < 9 * (3 * s.cls pkg n + 3)
    let covered (q : QuadId) : Prop := pkgOfDie (dieOfQuad q) = pkg ∧ zoneCovers n (dieInPkg (dieOfQuad q)).toNat (q.toNat % 32) = true
    (s.zoneHeld pkg n = false → ∀ i, i ∈ [.zoneSensorSample pkg z flow dp temp, .dryDetect pkg z, .dryClear pkg z] →
      exec i s = .next s) ∧
    (s.zoneHeld pkg n = true → ∃ t, Runs (.zoneSensorSample pkg z flow dp temp) s t ∧ bits (t.reg d sns) 0 8 = temp.toNat ∧
      bits (t.reg d sns) 8 16 = dp.toNat ∧ bits (t.reg d sns) 24 16 = flow.toNat ∧
      bit (t.reg d sns) 40 = bit (s.reg d sns) 40 ∧ SameBytes s t ∧
      (bit (t.zoneEv pkg n) 0 = true ↔ bit (s.zoneEv pkg n) 0 = true ∨ bits thr 0 8 ≤ temp.toNat) ∧
      (bit (t.zoneEv pkg n) 1 = true ↔ bit (s.zoneEv pkg n) 1 = true ∨ bits thr 8 8 ≤ temp.toNat) ∧
      (bit (t.zoneEv pkg n) 2 = true ↔ bit (s.zoneEv pkg n) 2 = true ∨ outOf ∧ 9 ≤ old.1) ∧
      (bit (t.zoneEv pkg n) 3 = true ↔ bit (s.zoneEv pkg n) 3 = true ∨ low ∧ 49 ≤ old.2) ∧
      (temp.toNat < 110 → ∀ k < 4, bit (s.zoneEv pkg n) k = false → bit (t.zoneEv pkg n) k = true →
        ∀ x ∈ s.zoneTeams pkg n, s.team x.id = some x → ∀ h ∈ x.holding, (s.hartAt h).run ≠ .free → (s.hartAt h).team = x.id →
          ⟨BitVec.ofNat 10 (0x2C0 + k), z.setWidth 64⟩ ∈ (t.hartAt h).pending) ∧
      (temp.toNat < 110 → ∀ k < 4, bit (s.zoneEv pkg n) k = false → bit (t.zoneEv pkg n) k = true →
        ∀ x ∈ s.zoneTeams pkg n, s.team x.id = some x → x.st = .placed → ∃ y, t.team x.id = some y ∧
          ∀ h ∈ x.coming, (h, ⟨BitVec.ofNat 10 (0x2C0 + k), z.setWidth 64⟩) ∈ y.owed) ∧
      (110 ≤ temp.toNat →
        (∀ q, covered q → (dieInPkg (dieOfQuad q)).toNat < s.computeDies pkg → (t.quad q).halted = true) ∧
        ∀ x ∈ s.zoneTeams pkg n, s.team x.id = some x → x.status = 0 →
          (∀ h ∈ x.holding, covered (quadOf (coreOf h)) → (s.quad (quadOf (coreOf h))).halted = false ∧
            (dieInPkg (dieOf h)).toNat < s.computeDies pkg) → ∃ y, t.team x.id = some y ∧ y.status = 1 ∧ y.cause = some 0x384)) ∧
    (s.zoneHeld pkg n = true → ∃ t, Runs (.dryDetect pkg z) s t ∧ bit (t.reg d sns) 40 = true ∧
      bit (t.zoneEv pkg n) 8 = true ∧ (s.evacuating pkg = false → bit (t.zoneEv pkg n) 4 = true) ∧
      (s.evacuating pkg = true → ∀ k < 6, bit (t.zoneEv pkg n) k = bit (s.zoneEv pkg n) k)) ∧
    (s.zoneHeld pkg n = true → ∃ t, Runs (.dryClear pkg z) s t ∧ bit (t.reg d sns) 40 = false ∧
      bit (t.zoneEv pkg n) 8 = (bit (s.zoneEv pkg n) 8 && bit (s.zoneEv pkg n) 4) ∧
      ∀ k < 6, bit (t.zoneEv pkg n) k = bit (s.zoneEv pkg n) k)

/-- R388, R409 to R413, R415: a move that ends leaves CLS at REQ, a raise only once the measured flow meets the nominal flow of
its class; by an admitted master, CAP is clamped to 384 to 3,876; consistent thresholds are taken
whole and others ignored, and a pressure within them has been out of bounds for no sample; ones written to EV clear its bits,
but for those whose condition still holds, and DRYZ with bit 4 where the detector reads clear; a pending request is
granted when every zone of its team stands at its class, with heat class and ST 2. -/
def Sys2Proof.Rules.CoolantEvents : Prop :=
  ∀ (s : State) (by_ : Origin) (pkg : PkgId) (z : BitVec 8) (x : Word) (team : TeamId) (y : Team) (r : Nat) (c : BitVec 4),
    let n := z.toNat
    let d := ioDie pkg
    let flow := bits (s.reg d (zoneOff n + 16)) 24 16
    let dp := bits (s.reg d (zoneOff n + 16)) 8 16
    (n < 128 → s.zoneHeld pkg n = true → s.moving pkg n = true → (s.zreq pkg n ≤ s.cls pkg n ∨ 10 * (3 * s.zreq pkg n + 3) ≤ flow) →
      ∃ t, Runs (.zoneMoveComplete pkg z) s t ∧ t.cls pkg n = s.zreq pkg n ∧ SameBytes s t) ∧
    (s.cls pkg n < s.zreq pkg n → flow < 10 * (3 * s.zreq pkg n + 3) → exec (.zoneMoveComplete pkg z) s = .next s) ∧
    ((s.pkg pkg).reload = false → s.mayStore by_ d 0xE4000 = true →
      ∃ t, Runs (.flcapWrite pkg ⟨by_, x⟩) s t ∧ t.flowCap pkg = max 384 (min 3876 (bits x 0 13)) ∧ SameBytes s t) ∧
    (s.mayStore by_ d 0xE4000 = false → exec (.flcapWrite pkg ⟨by_, x⟩) s = .next s) ∧
    (n < 146 → s.mayStore by_ d (zoneOff n + 8) = true →
      (bits x 0 8 < bits x 8 8 → bits x 8 8 ≤ 105 → bits x 16 16 < bits x 32 16 →
        ∃ t, Runs (.zthrWrite pkg z ⟨by_, x⟩) s t ∧ t.reg d (zoneOff n + 8) = x &&& 0x0000FFFFFFFFFFFF ∧ SameBytes s t ∧
          (bits x 16 16 ≤ dp → dp ≤ bits x 32 16 → ((t.pkg pkg).zones.getD n (0, 0)).1 = 0)) ∧
      (¬ (bits x 0 8 < bits x 8 8 ∧ bits x 8 8 ≤ 105 ∧ bits x 16 16 < bits x 32 16) →
        exec (.zthrWrite pkg z ⟨by_, x⟩) s = .next s)) ∧
    (n < 146 → s.mayStore by_ d (zoneOff n + 24) = true → s.teamsKeyed →
      ∃ t, Runs (.zstEvClear pkg z ⟨by_, x⟩) s t ∧
        bit (t.zoneEv pkg n) 8 = (bit (s.zoneEv pkg n) 8 && (bit (t.zoneEv pkg n) 4 || bit (s.reg d (zoneOff n + 16)) 40)) ∧
        (∀ k < 6, bit (t.zoneEv pkg n) k = (bit (s.zoneEv pkg n) k && (!bit x k || s.zoneCondition pkg n k))) ∧ SameBytes s t) ∧
    (s.team team = some y → y.id = team → y.st = .running → y.flow = some (r, c) →
      (∀ p ∈ y.pkgs, ∀ k ∈ y.zones p, c.toNat ≤ s.cls p k ∧ s.moving p k = false) →
      ∃ t, Runs (.flowGrant team) s t ∧ t.team team = some { y with flow := none, hc := c } ∧
        (∀ h, y.places[r]? = some h → (s.hartAt h).run ≠ .free → (s.hartAt h).team = team →
          (t.hartAt h).flw = ((s.hartAt h).flw &&& 0x3FFFFFFFFFFFFFFF) ||| 0x8000000000000000) ∧
        t = { s with hart := t.hart, parked := t.parked, teams := t.teams })

/-- R388, R397, R417: on an RLD-M8, by an admitted master, an evacuation starts in phase 1 with no team and no enabled ring,
else it is refused with 7; one that has begun or failed is not started again before a reset; phase 1 ends with every peer's present set without the package, phase 5 with all zones dry in
phase 6, or in 8 with the number of wet ones, the other phases with the next; with no evacuation nothing ends. The other
forms have none. -/
def Sys2Proof.Rules.Evacuation : Prop :=
  ∀ (s : State) (by_ : Origin) (pkg : PkgId),
    let d := ioDie pkg
    let phase (t : State) : Nat := bits (t.reg d 0xE4010) 0 4
    let wet := ((List.range 146).filter fun z => s.zoneHeld pkg z && !bit (s.reg d (zoneOff z + 16)) 40).length
    ((s.pkg pkg).form = .m8 → (s.pkg pkg).reload = false → s.mayStore by_ d 0xE4008 = true →
      (phase s = 0 ∨ 7 ≤ phase s → phase s ≠ 8 → exec (.evacuationStart ⟨by_, pkg⟩) s =
        .next (s.setReg d 0xE4010 (if s.teamsWith pkg || s.ringEnabled pkg then 7 else 1))) ∧
      (1 ≤ phase s → phase s ≤ 6 ∨ phase s = 8 → exec (.evacuationStart ⟨by_, pkg⟩) s = .next s)) ∧
    ((s.pkg pkg).form ≠ .m8 ∨ s.mayStore by_ d 0xE4008 = false → exec (.evacuationStart ⟨by_, pkg⟩) s = .next s) ∧
    (s.evacuating pkg = true → phase s ≠ 6 →
      (phase s = 1 → (s.pkg pkg).reload = false ∧ ∀ q, s.present q pkg = true → (s.pkg q).reload = false) →
      ∃ t, Runs (.evacuationPhaseEnd pkg) s t ∧ SameBytes s t ∧
        (phase s = 1 → phase t = 2 ∧ ∀ q, q ≠ pkg → t.present q pkg = false) ∧
        (phase s = 5 → wet = 0 → phase t = 6) ∧
        (phase s = 5 → wet ≠ 0 → phase t = 8 ∧ bits (t.reg d 0xE4010) 8 8 = wet) ∧
        (phase s = 2 ∨ phase s = 3 ∨ phase s = 4 → phase t = phase s + 1)) ∧
    (s.evacuating pkg = false → exec (.evacuationPhaseEnd pkg) s = .next s)


/-! ### Events of the packages -/

/-- R194, R304, R308, R337, R340, R396: a part that fails takes the teams with it that are placed there or have been, with cause
0x383 for a core and 0x384 for the others, and their harts are freed: a core is failed; a quad takes the spare of its die
while that is unused; a die, or every die of a package, is failed. A die's own commands and requests are gone, and memory
stays but for what its caches had not written back, which is as its homes hold it (log entry 38). -/
def Sys2Proof.Rules.PartFailures : Prop :=
  ∀ (s : State) (part : BitVec 19), s.distinct → s.teamsKeyed → (s.teams.map Prod.fst).Nodup →
    let d : DieId := part.setWidth 13
    let q : QuadId := part.setWidth 17
    let p : PkgId := part.setWidth 9
    let fails (on : HartId → Prop) (cause : BitVec 10) (t : State) : Prop :=
      ∀ x ∈ s.teamList, x.status = 0 → (x.st = .placed ∨ x.st = .running ∨ x.st = .preempting) → (∃ h ∈ x.places, on h) →
        (∃ y, t.team x.id = some y ∧ y.status = 1 ∧ y.cause = some cause ∧ y.live = []) ∧ ⟨x.id, x.live⟩ ∈ t.failedTeams ∧
        ∀ h, (s.hartAt h).run ≠ .free → (s.hartAt h).team = x.id → (t.hartAt h).run = .free
    (∃ t, Runs (.partFailure 0 part) s t ∧ (t.core part).failed = true ∧ SameBytes s t ∧
      fails (fun h => coreOf h = part) 0x383 t) ∧
    (∃ t, Runs (.partFailure 1 part) s t ∧ SameBytes s t ∧ fails (fun h => quadOf (coreOf h) = q) 0x384 t ∧
      (t.die (dieOfQuad q)).spare = true ∧
      ((s.die (dieOfQuad q)).spare = false → (t.quad q).failed = false) ∧
      ((s.die (dieOfQuad q)).spare = true → (t.quad q).failed = true)) ∧
    (∃ t, Runs (.partFailure 2 part) s t ∧ (t.die d).failed = true ∧ fails (fun h => dieOf h = d) 0x384 t ∧
      (∀ k, (∀ c ∈ (s.die d).unwritten, c.1 ≠ k) → t.byte k = s.byte k) ∧
      (((s.die d).unwritten.map Prod.fst).Nodup → ∀ c ∈ (s.die d).unwritten, t.byte c.1 = c.2) ∧
      (∀ c, dieOfCore c = d → (t.core c).cpyq = []) ∧ ∀ f ∈ t.wire, f.type ≤ 2 → f.src ≠ d) ∧
    (∃ t, Runs (.partFailure 3 part) s t ∧ (∀ n < s.computeDies p, (t.die (dieAt p n)).failed = true) ∧
      ((∀ n < s.computeDies p, (s.die (dieAt p n)).unwritten = []) → SameBytes s t))

/-- R398, R399: patrol scrub takes a line of a live die, one of a pinned row only during a bounce, and changes no byte; a
pass ends, and PASS rises, once it has taken every line of the channel. During a rotation the lines follow PTR, and the pass
leaves the channel under the next key version; once no channel still runs the old key is retired. A rotation starts with the
next key loaded and every channel running from line 0. -/
def Sys2Proof.Rules.PatrolScrub : Prop :=
  ∀ (s : State) (d : DieId) (ch : BitVec 6) (line : BitVec 25) (found : BitVec 2) (pkg : PkgId),
    let o := scrubOff ch
    let run (t : State) (d : DieId) (o : Nat) : Bool := bit (t.reg d (o + 16)) 0
    let pass (t : State) : Nat := bits (t.reg d (o + 16)) 32 32
    let chans (p : PkgId) := (List.range (s.computeDies p)).flatMap fun e =>
      (List.range 64).map fun c => (dieAt p e, scrubOff (BitVec.ofNat 6 c))
    let whole := (line.toNat :: ((s.die d).scrubbed.getD ch.toNat [])).eraseDups.length = channelLines
    let kv := bits (s.reg d o) 0 16
    let p := pkgOfDie d
    let key := bits (s.reg (dieAt pkg 0) (scrubOff 0)) 0 16
    ((s.die d).failed = false → s.rowBusy d ch line.toNat = false →
      (run s d o = true → line.toNat = (s.reg d (o + 8)).toNat) →
      ∃ t, Runs (.patrolScrubLine d ch line found) s t ∧ SameBytes s t ∧
        (s.linePinned d ch line.toNat = true → ch ∉ (t.die d).bounces) ∧
        (¬ whole → pass t = pass s ∧ run t d o = run s d o ∧ line.toNat ∈ (t.die d).scrubbed.getD ch.toNat [] ∧
          (run s d o = true → t.reg d (o + 8) = s.reg d (o + 8) + 1)) ∧
        (whole → pass t = (pass s + 1) % 2 ^ 32 ∧ run t d o = false ∧ (t.die d).scrubbed.getD ch.toNat [] = [] ∧
          (run s d o = true → t.reg d (o + 8) = 0 ∧ t.reg d o = BitVec.ofNat 64 ((kv + 1) % 2 ^ 16) ∧
            ((∀ c ∈ chans p, c ≠ (d, o) → run s c.1 c.2 = false) →
              (t.pkg p).keys = (s.pkg p).keys.filter fun k => k.toNat ≠ kv)))) ∧
    ((s.die d).failed = true ∨ s.rowBusy d ch line.toNat = true ∨
        (run s d o = true ∧ line.toNat ≠ (s.reg d (o + 8)).toNat) →
      exec (.patrolScrubLine d ch line found) s = .next s) ∧
    ((∀ c ∈ chans pkg, run s c.1 c.2 = false) → ∃ t, Runs (.keyRotationStart pkg) s t ∧
      (t.pkg pkg).keys = (s.pkg pkg).keys ++ [BitVec.ofNat 16 (key + 1)] ∧
      (∀ c ∈ chans pkg, run t c.1 c.2 = true ∧ t.reg c.1 (c.2 + 8) = 0) ∧ SameBytes s t) ∧
    ((∃ c ∈ chans pkg, run s c.1 c.2 = true) → exec (.keyRotationStart pkg) s = .next s)

/-- R308, R400: a corrected error that the scrub finds counts for its row; an uncorrectable one poisons the line with 0x380, a
tag mismatch with 0x381; each is in the history. A row with 3 corrected events in the pass is repaired, which is in the
history, its bank's count rises, and past 16 the bank is replaced, in the history too; one with fewer is not. A row that
awaits its repair keeps its count when a pass ends. -/
def Sys2Proof.Rules.ErrorsAndRepair : Prop :=
  ∀ (s : State) (d : DieId) (ch : BitVec 6) (line : BitVec 25) (found : BitVec 2) (bank : BitVec 6) (row : BitVec 17),
    let rot := bit (s.reg d (scrubOff ch + 16)) 0
    let whole := (line.toNat :: ((s.die d).scrubbed.getD ch.toNat [])).eraseDups.length = channelLines
    let home := homeKey d false ch.toNat (64 * line.toNat) / 64
    let count (t : State) (b : BitVec 6) (r : BitVec 17) : Nat := (t.die d).corrected.getD (rowKey ch b r) 0
    let repairs (t : State) : Nat := (t.die d).repairs.getD (ch.toNat * 64 + bank.toNat) 0
    let at_ := Config.bankRow (line.toNat / 16)
    ((s.die d).failed = false → s.rowBusy d ch line.toNat = false → (rot = true → line.toNat = (s.reg d (scrubOff ch + 8)).toNat) →
      ∃ t, Runs (.patrolScrubLine d ch line found) s t ∧ SameBytes s t ∧
        (∀ c, (found = 2 ∧ c = 0x380 ∨ found = 3 ∧ c = 0x381) → t.poison.find home = some c) ∧
        (found = 0 ∨ found = 1 → t.poison = s.poison) ∧
        t.reg d 0x2DF000 = s.reg d 0x2DF000 + (if found = 0 then 0 else 1) ∧
        (found = 1 → ¬ whole → count t (at_.extractLsb' 0 6) (at_.extractLsb' 6 17) =
          count s (at_.extractLsb' 0 6) (at_.extractLsb' 6 17) + 1)) ∧
    ((s.die d).failed = false → s.rowBusy d ch line.toNat = false → (rot = true → line.toNat = (s.reg d (scrubOff ch + 8)).toNat) →
      ∃ t, Runs (.patrolScrubLine d ch line found) s t ∧ ∀ b r, 3 ≤ count s b r → 3 ≤ count t b r) ∧
    (3 ≤ count s bank row → ∃ t, Runs (.rowRepair d ch bank row) s t ∧ SameBytes s t ∧ count t bank row = 0 ∧
      (repairs s < 16 → t.reg d 0x2DF000 = s.reg d 0x2DF000 + 1 ∧ repairs t = repairs s + 1) ∧
      (16 ≤ repairs s → t.reg d 0x2DF000 = s.reg d 0x2DF000 + 2 ∧ repairs t = 0)) ∧
    (count s bank row < 3 → exec (.rowRepair d ch bank row) s = .next s)

/-- R388, R402, R403: by an admitted master, a checkpoint starts with RUN and leaves every byte as it reads, with its image
begun at its destination in a tier that the package reaches; a restore starts only with no team and no enabled ring, else ERR
is set; while one runs START does nothing. A restore that is served ends with the channels of the package's live dies holding
the image, each byte at its place in the package, and every other byte as before; a checkpoint that is served changes no
byte; an operation that is not served ends with ERR, and leaves the tier as it is where its transfer never began. -/
def Sys2Proof.Rules.CheckpointAndRestore : Prop :=
  ∀ (s : State) (by_ : Origin) (pkg : PkgId) (x dest : Word) (restore served begun : Bool) (i : TierImage),
    let c := s.ckctl pkg
    let site := x &&& 0xFFFFFFFFFFFFF000
    let busy := s.teamsWith pkg || s.ringEnabled pkg
    let mine (k : Nat) : Prop := inHbm pkg k = true ∧ k / 2 ^ 51 % 16 < s.computeDies pkg ∧
      (s.die (dieAt pkg (k / 2 ^ 51 % 16))).failed = false
    let op := (s.pkg pkg).op
    let ends (t : State) : Prop := Runs (.ckctlOperationEnd pkg served) s t ∧ bit (t.ckctl pkg) 0 = false ∧ (t.pkg pkg).op = none
    let allows := s.mayStore by_ (ioDie pkg) 0x81000
    (bit c 0 = false → bit x 1 = true → allows = true →
      (bit x 2 = false → ∃ t, Runs (.checkpointStart pkg ⟨by_, x⟩) s t ∧ SameBytes s t ∧ bit (t.ckctl pkg) 0 = true ∧
        bit (t.ckctl pkg) 3 = false ∧ (t.pkg pkg).op = some ⟨site, false, s.reachable pkg site⟩ ∧
        (s.reachable pkg site = true → ∃ y, t.tier.head? = some y ∧ y.dest = site ∧ y.pkg = pkg ∧ y.torn = [] ∧
          y.bytes = (s.mem.filter fun k => inHbm pkg k.1).map fun k => (k.1 % 2 ^ 55, k.2))) ∧
      (bit x 2 = true → busy = true →
        ∃ t, Runs (.restoreStart pkg ⟨by_, x⟩) s t ∧ SameBytes s t ∧ bit (t.ckctl pkg) 0 = false ∧ bit (t.ckctl pkg) 3 = true) ∧
      (bit x 2 = true → busy = false →
        ∃ t, Runs (.restoreStart pkg ⟨by_, x⟩) s t ∧ bit (t.ckctl pkg) 0 = true ∧ bit (t.ckctl pkg) 3 = false ∧
          (t.pkg pkg).op = some ⟨site, true, s.reachable pkg site⟩)) ∧
    (allows = false ∨ bit c 0 = true →
      exec (.checkpointStart pkg ⟨by_, x⟩) s = .next s ∧ exec (.restoreStart pkg ⟨by_, x⟩) s = .next s) ∧
    (op = some ⟨dest, restore, true⟩ → served = true → s.reachable pkg dest = true → s.tier.find? (fun j => j.dest == dest) = some i →
      (restore = true → (i.bytes.map Prod.fst).Nodup → (∀ k ∈ i.bytes, k.1 < 2 ^ 55) →
        ∃ t, ends t ∧ (∀ k, mine k → t.byte k = memGet i.bytes (k % 2 ^ 55)) ∧ ∀ k, ¬ mine k → t.byte k = s.byte k) ∧
      (restore = false → ∃ t, ends t ∧ SameBytes s t ∧ (bit (t.ckctl pkg) 3 = true ↔ i.torn ≠ []))) ∧
    (op = some ⟨dest, restore, begun⟩ → (served = false ∨ begun = false ∨ s.reachable pkg dest = false) →
      ∃ t, ends t ∧ bit (t.ckctl pkg) 3 = true ∧ SameBytes s t ∧ (begun = false → t.tier = s.tier) ∧
        (begun = true → restore = false → ∀ j ∈ t.tier, j.dest = dest → j.pkg ≠ pkg)) ∧
    (op = none → exec (.ckctlOperationEnd pkg served) s = .next s)

/-- R397, R404, R406: a package reset leaves its registers, teams and harts as at reset and its memory unlisted, but for its
form and its firmware, and no byte of another package changes; bring-up counts its steps to 7, the first only where both Burup
images verify at no lower than the least version: step 3 marks the lanes that fail training, leaves a UCIe module in state 2
where no more than 4 in each direction are bad and else down (log entry 25), and the Chanters up whose image verifies, step 4 its ports and host link up. Burup holds events back while it reloads, and then logs them. -/
def Sys2Proof.Rules.ResetAndBringUp : Prop :=
  ∀ (s : State) (pkg : PkgId),
    let b := (s.pkg pkg).boot
    let starts (x : Firmware) : Prop := x.signer = b.keyHash ∧ x.signed = x.digest ∧ b.least ≤ x.version
    (∃ t, Runs (.packageReset pkg) s t ∧ t.pkg pkg = { form := (s.pkg pkg).form, boot := b } ∧
      (∀ x ∈ t.teamList, x.pkg ≠ pkg) ∧ (∀ h, pkgOf h = pkg → t.hartAt h = { Hart.reset with pos := h }) ∧
      (∀ d off, pkgOfDie d = pkg → off < 2 ^ 44 → t.reg d off = regReset pkg (isIo d) off) ∧
      (∀ k, k / 2 ^ 55 = pkg.toNat → t.byte k = emptyByte) ∧ (∀ k, k / 2 ^ 55 ≠ pkg.toNat → t.byte k = s.byte k) ∧
      (∀ d off, pkgOfDie d ≠ pkg → off < 2 ^ 44 → t.reg d off = s.reg d off)) ∧
    ((s.pkg pkg).step < 7 → ((s.pkg pkg).step = 0 → starts b.burup ∧ starts b.fallback) →
      ∃ t, Runs (.bringupStep pkg) s t ∧ (t.pkg pkg).step = (s.pkg pkg).step + 1 ∧ SameBytes s t ∧
        ((s.pkg pkg).step = 2 → ∀ d < s.computeDies pkg, (∀ m < 12, let e := dieAt pkg d
            let badT := t.reg e (ulOff m + 0x18)
            let badR := t.reg e (ulOff m + 0x20)
            t.ulState e m = (if trains badT badR false false then 2 else 0) ∧
            s.reg e (ulOff m + 0x18) &&& ~~~badT = 0 ∧ s.reg e (ulOff m + 0x20) &&& ~~~badR = 0 ∧
            (trains badT badR false false = true → bits (t.reg e (ulOff m + 8)) 10 3 = badInUse badT false false ∧
              bits (t.reg e (ulOff m + 8)) 13 3 = badInUse badR false false)) ∧
          ((t.die (dieAt pkg d)).chanter.up = true ↔ b.chanter.signer = b.keyHash ∧ b.chanter.signed = b.chanter.digest)) ∧
        ((s.pkg pkg).step = 3 → (t.pkg pkg).hostUp = true ∧ ∀ i < 8, t.reg (ioDie pkg) (0x60000 + 8 * i) = 2) ∧
        ((s.pkg pkg).step ≠ 2 → (s.pkg pkg).step ≠ 3 → t.dev = s.dev)) ∧
    ((s.pkg pkg).step = 0 → ¬ (starts b.burup ∧ starts b.fallback) → exec (.bringupStep pkg) s = .next s) ∧
    (7 ≤ (s.pkg pkg).step → exec (.bringupStep pkg) s = .next s) ∧
    (exec (.burupLockstepMismatch pkg) s = .next (s.setPkg pkg { s.pkg pkg with reload := true })) ∧
    (∃ t, Runs (.burupReloadComplete pkg) s t ∧ (t.pkg pkg).reload = false ∧ (t.pkg pkg).events = [] ∧
      t.reg (ioDie pkg) 0x50000 = s.reg (ioDie pkg) 0x50000 + BitVec.ofNat 64 (s.pkg pkg).events.length ∧
      t = { s with dev := t.dev, pkgs := t.pkgs })

/-- R405: each SPDM request is answered and changes no state of the machine. -/
def Sys2Proof.Rules.Attestation : Prop :=
  ∀ (s : State) (p : PkgId) (i : Instr),
    i ∈ [.getVersion p, .getCapabilities p, .negotiateAlgorithms p, .getDigests p, .getCertificate p, .challenge p,
      .getMeasurements p] → exec i s = .next s

/-- R7, R236, R388, R391: by an admitted master, a write to RTINV drops from its die's translation cache those it names, a
page's, an ASID's or all, and nothing else changes; a write stores a register's writable bits; one to no register, or to an
engine port, or by a master that is not admitted, does nothing. The pod map is Burup's to write: PODSZ, and the present set,
in which a package stays out that peers have isolated since its last reset. -/
def Sys2Proof.Rules.RegisterWrites : Prop :=
  ∀ (s : State) (by_ : Origin) (d : DieId) (x : Word) (off : BitVec 44) (pkg : PkgId) (n : BitVec 3),
    let asid : BitVec 9 := x.extractLsb' 53 9
    let unit : BitVec 7 := x.extractLsb' 46 7
    let io := ioDie pkg
    let pres : BitVec 44 := 0x80008 + 8 * n.setWidth 44
    let keeps (t : State) (gone : TlbEntry → Prop) : Prop :=
      t = { s with dies := t.dies } ∧ (∀ e, e ≠ d → t.die e = s.die e) ∧
      t.die d = { s.die d with remote := (t.die d).remote } ∧
      ∀ e, e ∈ (t.die d).remote ↔ e ∈ (s.die d).remote ∧ ¬ gone e
    (s.mayStore by_ d 0x1008 = true →
      (bits x 62 2 = 0 → ∃ t, Runs (.rtinvPage d ⟨by_, x⟩) s t ∧ keeps t fun e =>
        e.asid = asid ∧ e.unit = unit ∧ e.page = bits x 16 28 * 2 ^ 16 / pageBytes e.level) ∧
      (bits x 62 2 = 1 → ∃ t, Runs (.rtinvAsid d ⟨by_, x⟩) s t ∧ keeps t fun e => e.asid = asid) ∧
      (bits x 62 2 = 2 → ∃ t, Runs (.rtinvAll d ⟨by_, x⟩) s t ∧ keeps t fun _ => True)) ∧
    (s.mayStore by_ d 0x1008 = false → ∀ i, i ∈ [.rtinvPage d ⟨by_, x⟩, .rtinvAsid d ⟨by_, x⟩, .rtinvAll d ⟨by_, x⟩] →
      exec i s = .next s) ∧
    (s.hasReg d off.toNat = false ∨ (isIo d = false ∧ enginePage off.toNat = true) ∨ s.mayStore by_ d off.toNat = false →
      exec (.registerWrite d off ⟨by_, x⟩) s = .next s) ∧
    (s.mayStore by_ d 0x1000 = true → ∃ t, Runs (.registerWrite d 0x1000 ⟨by_, x⟩) s t ∧ t = { s with dev := t.dev } ∧
      t.reg d 0x1000 = (s.reg d 0x1000 &&& 0x7FFFE) ||| (x &&& 0xFFFFFFFFFFF80001)) ∧
    (by_.unit = 240 → (s.pkg pkg).reload = false → s.mayStore by_ io 0x80000 = true →
      exec (.registerWrite io 0x80000 ⟨by_, x⟩) s = .next (s.setReg io 0x80000 (x &&& 0x3FF))) ∧
    (by_.unit = 240 → (s.pkg pkg).reload = false → s.mayStore by_ io pres.toNat = true →
      ∃ t, Runs (.registerWrite io pres ⟨by_, x⟩) s t ∧ t = { s with dev := t.dev } ∧
        ∀ i < 64, bit (t.reg io pres.toNat) i =
          if (s.pkg (BitVec.ofNat 9 (64 * n.toNat + i))).isolated then bit (s.reg io pres.toNat) i else bit x i) ∧
    (by_.unit ≠ 240 → exec (.registerWrite io 0x80000 ⟨by_, x⟩) s = .next s ∧ exec (.registerWrite io pres ⟨by_, x⟩) s = .next s)

/-- R83 to R85, R387, R388: a host request takes no check but the access tables': a read answers the bytes that the homes
hold, a write stores its bytes and nothing else, an atomic on 4 or 8 bytes answers the old value and stores OP of it; one
that is denied, names nothing or is lost, a read of a poisoned line, and one of another size at a register or at none, is aborted and
changes nothing; with the link down nothing happens. -/
def Sys2Proof.Rules.HostRequests : Prop :=
  ∀ (s : State) (pkg : PkgId) (op : AmoOp) (a b : Word) (n : BitVec 13) (x y : List (BitVec 8)) (ks : List Nat) (kind : BitVec 2)
    (ch : Nat),
    let m : Master := { die := ioDie pkg, unit := 241, asid := 0, core := none }
    let acc : Acc := if kind = 0 then .load else if kind = 1 then .store else .atomic
    let answered (t : State) (z : Answer) : State := { t with answer := some z }
    let found (acc : Acc) : Prop := (s.pkg pkg).hostUp = true ∧ spaceOf a ≠ some .regs ∧ s.hostKeys m acc a n.toNat = some ks
    let old := s.bytes ks
    let at_ (w : Nat) (bs : List Byte) : BitVec w := BitVec.ofNat w (bytesToNat bs)
    (found .load → s.poisonCause ks = none →
      exec (.hostRequest pkg 0 op ⟨a, n⟩ x y) s = .next (answered s (.done (ks.map s.homeByte)))) ∧
    (found .store → ks.Nodup → x.length = n.toNat →
      ∃ t, Runs (.hostRequest pkg 1 op ⟨a, n⟩ x y) s t ∧ t.answer = some (.done []) ∧ t.hart = s.hart ∧ t.parked = s.parked ∧
        t.bytes ks = x ∧ ∀ k, k ∉ ks → t.byte k = s.byte k) ∧
    (found .atomic → ks.Nodup → s.poisonCause ks = none → 2 ≤ kind.toNat → (n = 4 ∨ n = 8) →
      ∃ t, Runs (.hostRequest pkg kind op ⟨a, n⟩ x y) s t ∧ t.answer = some (.done old) ∧ t.hart = s.hart ∧ t.parked = s.parked ∧
        (n = 4 → t.bytes ks = natToBytes 4 (atomicValue op false 4 (at_ 32 old) (at_ 32 x) (at_ 32 y)).toNat) ∧
        (n = 8 → t.bytes ks = natToBytes 8 (atomicValue op false 8 (at_ 64 old) (at_ 64 x) (at_ 64 y)).toNat) ∧
        ∀ k, k ∉ ks → t.byte k = s.byte k) ∧
    ((s.pkg pkg).hostUp = true → spaceOf a ≠ some .regs →
      (s.hostKeys m acc a n.toNat = none ∨ (kind ≠ 1 ∧ s.hostKeys m acc a n.toNat = some ks ∧ s.poisonCause ks ≠ none)) →
      exec (.hostRequest pkg kind op ⟨a, n⟩ x y) s = .next (answered s .abort)) ∧
    ((s.pkg pkg).hostUp = true → spaceOf a = some .regs → (n ≠ 8 ∨ s.hasReg (aDieId a) (aOff a) = false) →
      exec (.hostRequest pkg kind op ⟨a, n⟩ x y) s = .next (answered s .abort)) ∧
    ((s.pkg pkg).hostUp = true → spaceOf a = some .regs → s.hasReg (aDieId a) (aOff a) = true → portAt 0 a = none →
      s.isLost m a = false →
      s.admits (aDieId a) (if isIo (aDieId a) then 2 else 98) m .load a = true → enginePage (aOff a) = false →
      engineAlias (aOff a) = false →
      exec (.hostRequest pkg 0 op ⟨a, 8⟩ x y) s = .next (answered s (.done (natToBytes 8 (s.regRead (aDieId a) (aOff a)).toNat)))) ∧
    ((s.pkg pkg).hostUp = false → exec (.hostRequest pkg kind op ⟨a, n⟩ x y) s = .next s) ∧
    (s.namesSpace m false b 1 = some (.channel ch) → aOff b < Config.channelBytes → s.isLost m b = false →
      s.hostByte m acc b = if s.admits (aDieId b) ch m acc b then some (homeKey (aDieId b) false ch (aOff b)) else none)

/-- R388, R401, R404: an endpoint whose image verifies serves a master that its table admits: a read of its own package's
answers the line, one of another package's answers it as ciphertext with its key version, k + 1 below PTR during a rotation;
a write stores a whole line, from another package whatever its ciphertext spells. A denied request, a write while its compute
die has failed, and a read of a poisoned line, is rejected with its cause; a die that the package has not serves none. -/
def Sys2Proof.Rules.EndpointRequests : Prop :=
  ∀ (s : State) (die by_ : DieId) (stack : BitVec 1) (unit : BitVec 8) (asid : BitVec 9) (w : Bool) (ch : BitVec 5)
    (line : BitVec 25) (v : BitVec 512) (c : BitVec 10),
    let chan := 32 * stack.toNat + ch.toNat
    let base := homeKey die false chan (64 * line.toNat)
    let ks := (List.range 64).map (base + ·)
    let admits (w : Bool) : Bool := s.admits die (99 + stack.toNat) { die := by_, unit := unit, asid := asid, core := none }
      (if w then .store else .load) (BitVec.ofNat 64 base)
    let run (w : Bool) : Instr := .endpointRequest die stack by_ unit asid w ch line v
    let b := (s.pkg (pkgOfDie die)).boot
    let serves : Prop := s.dieHeld die = true ∧ isIo die = false ∧ b.endpoint.signer = b.keyHash ∧ b.endpoint.signed = b.endpoint.digest
    let mine : Prop := pkgOfDie by_ = pkgOfDie die
    let answered (z : Answer) : State := { s with answer := some z }
    let o := scrubOff (BitVec.ofNat 6 chan)
    let kv : BitVec 16 := (s.reg die o).extractLsb' 0 16
    let key : BitVec 16 :=
      if bit (s.reg die (o + 16)) 0 = true ∧ line.toNat < (s.reg die (o + 8)).toNat then kv + 1 else kv
    (serves → admits true = true → (s.die die).failed = false →
      ∃ t, Runs (run true) s t ∧ t.answer = some (.done []) ∧ (mine → t.bytes ks = natToBytes 64 v.toNat) ∧
        t.hart = s.hart ∧ t.parked = s.parked ∧ ∀ k, (k < base ∨ base + 64 ≤ k) → t.byte k = s.byte k) ∧
    (serves → admits false = true → s.poisonCause ks = none →
      (mine → exec (run false) s = .next (answered (.done (ks.map s.homeByte)))) ∧
      (¬ mine → ∃ cipher tag, exec (run false) s =
        .next { s with free := s.free + 2, answer := some (.sealed key cipher tag) })) ∧
    (serves → admits false = true → s.poisonCause ks = some c → exec (run false) s = .next (answered (.rejected c))) ∧
    (serves → (admits w = false ∨ (w = true ∧ (s.die die).failed = true)) →
      exec (run w) s = .next (answered (.rejected 0x103))) ∧
    (¬ serves → exec (run w) s = .next s)


/-! ### The whole machine -/

/-- R49 to R70: the word of a well-formed instruction decodes to that instruction, with every operand at every value that
its encoding admits; and a word that decodes is the word of the instruction it decodes to, which is well-formed. -/
def Obligations.DecodeEncodeAgree : Prop :=
  (∀ (i : Instr) (w : BitVec 32), i.wellFormed = true → encode i = some w → decode w = .ok i) ∧
  (∀ (i : Instr) (w : BitVec 32), decode w = .ok i → i.wellFormed = true ∧ encode i = some w)

/-- R49 to R70: words written out from the encoding tables decode to the instructions they stand for. -/
def Obligations.DecodesSpecWords : Prop :=
  decode 0x04222000 = .ok (.add 1 2 4) ∧ decode 0x0820FFFF = .ok (.addi 1 0 0xFFFF) ∧
  decode 0x20A000D8 = .ok (.kset 5 0 0xD8) ∧ decode 0x20A50008 = .ok (.kins 5 1 8) ∧
  decode 0x38010000 = .ok (.jalr 0 1 0) ∧ decode 0x3D4B7FFC = .ok (.smine 10 11 3 0x1FFC) ∧
  decode 0x4CEA0000 = .ok (.setvl 7 10) ∧ decode 0x4CC50001 = .ok (.setvt 6 5) ∧
  decode 0x48060000 = .ok .eret ∧ decode 0x480C0000 = .ok (.ctxsv 0) ∧ decode 0x480D0000 = .ok (.ctxld 0) ∧
  decode 0x648807C0 = .ok (.vrsum 4 8 31) ∧ decode 0x648807C1 = .ok (.vrosum 4 8 31) ∧
  decode 0x5F4117C2 = .ok (.vfmulLink 26 1 2 31) ∧ decode 0x5C6007FF = .ok (.dlfl 3) ∧
  decode 0x6C2B07C0 = .ok (.vld 1 11 31 false .thr) ∧ decode 0x884600C3 = .ok (.cred 2 6 0 3 .max) ∧
  decode 0x898417D0 = .ok (.cgat 12 4 2 31) ∧ decode 0x882A07E8 = .ok (.cgrp 1 10) ∧ decode 0x880307E9 = .ok (.cgate 3) ∧
  decode 0 = .error .allZeroWord ∧ decode 0xFFFFFFFF = .error .permanentlyIllegal

/-- A step runs the decoded instruction: with an empty agenda, or at the turn of a hart, the hart's word at `pc` is fetched,
decoded and executed; an event of the agenda is executed; at the turn of a front end it runs one word
ahead; a word that is no instruction, and a fetch that fails, execute the
event that says so; a context that is free, that a forced pre-emption has stopped, or whose package's clocks stand still for an
evacuation, does nothing.
Where it rests on the model's choices: log entry 1. -/
def Obligations.StepRunsDecoded : Prop :=
  ∀ (s u : State) (h : HartId) (n : Nat) (rest : List Turn) (i : Instr) (w : BitVec 32) (r : Reject) (c : BitVec 10),
    let here := { s with stop := none }
    let turn := { s with agenda := rest, stop := none }.select h
    let group := { s with agenda := rest, stop := some n }.select h
    (∀ (x : State), (s.agenda = [] ∧ x = here ∨ s.agenda = .hart h :: rest ∧ x = turn ∨ s.agenda = .group h n :: rest ∧ x = group) →
      (x.hart.run = .free ∨ x.hart.stopped = true ∨ x.clocksStopped (pkgOf x.hart.pos) = true → step s = .next x) ∧
      (x.hart.run ≠ .free → x.hart.stopped = false → x.clocksStopped (pkgOf x.hart.pos) = false →
        (x.fetch = .ok (w, u) → decode w = .ok i → step s = exec i u) ∧
        (x.fetch = .ok (w, u) → decode w = .error r → step s = exec (.illegalInstruction w) u) ∧
        (x.fetch = .error c → step s = exec .fetchFault x))) ∧
    (s.agenda = .front h :: rest → step s = .next ({ s with agenda := rest, stop := none }.runFront h)) ∧
    (s.agenda = .event i :: rest → step s = exec i { s with agenda := rest, stop := none })

/-- R23, R24, R406: at reset no hart runs and every context is free, with all registers zero but for the values of the CSR
tables: `vty` without a legal type, `fthr` 0x800; memory lists nothing, no team stands, no step of bring-up has completed,
and every device register is at the value of its table.
Where it rests on the model's choices: log entries 2, 3, 32. -/
def Obligations.ResetState : Prop :=
  let s := State.reset
  (∀ h, (s.hartAt h).run = .free ∧ s.hartAt h = { Hart.reset with pos := h }) ∧
  (∀ r, s.getS r = 0) ∧ (∀ r, s.getV r = 0) ∧ (∀ r, s.getP r = 0) ∧
  s.hart.vl = 0 ∧ bit s.hart.vty 63 = true ∧ s.hart.vix = 0 ∧ s.hart.fcsr = 0 ∧ s.hart.fthr = 0x800 ∧ s.hart.hs = false ∧
  s.hart.nest = false ∧ s.hart.pending = [] ∧ s.hart.nb = [] ∧ (∀ k : Fin 8, s.hart.dl[k] = none ∧ s.hart.b[k] = none) ∧
  (∀ k, s.byte k = emptyByte) ∧ s.teams = [] ∧ (∀ p, (s.pkg p).step = 0) ∧
  ∀ d off, s.reg d off = regReset (pkgOfDie d) (isIo d) off

/-- The form of a state: memory is canonical, and no two hart contexts stand at one position. -/
def Sys2Proof.Machine.State.formed (s : State) : Prop := Memory.wf s.mem = true ∧ s.distinct

/-- The state after reset has the form.
Where it rests on the model's choices: log entry 2. -/
def Obligations.ResetHasForm : Prop := State.reset.formed

/-- Every step, of any hart or any event, keeps the form: memory stays canonical, and no two contexts come to stand at one
position.
Where it rests on the model's choices: log entry 2. -/
def Obligations.StepKeepsForm : Prop := ∀ (s t : State), s.formed → step s = .next t → t.formed

/-! ### Statements of several clauses -/

/-- What each scalar integer word writes, and what a scalar register written reads as.
It concludes a next state of: add, sub, mul, mulh, mulhn, div, divn, rem, remn, and, or, xor, andn, shl, shr, sra,
rol, slt, sltn, min, max, minn, maxn, clz, ctz, popc, sext, zext, sel, addi, andi, ori, xori, slti, shli, shri, srai,
kset, kins. -/
def Obligations.ScalarIntegerResults : Prop :=
  Rules.ScalarRegisterReadsBack ∧ Rules.AluRegisterResults ∧ Rules.ImmediateResults

/-- What each scalar floating-point word writes, its special values, and the trap on a reserved rounding mode.
It concludes a next state of: fadd, fsub, fmul, fdiv, ffma, fsqrt, fmin, fmax, fcmp, fcvt, fmv. -/
def Obligations.ScalarFloatResults : Prop :=
  Rules.ScalarFloatResults ∧ Rules.FloatCorners ∧ Rules.ReservedRoundingTraps

/-- What the scalar arithmetic words leave alone. -/
def Obligations.ScalarArithmeticFrame : Prop :=
  Rules.ScalarArithmeticFrame ∧ Rules.ScalarFloatFrame

/-- Scalar loads and stores.
Where it rests on the model's choices: log entries 7, 12.
It concludes a next state of: ld, st. -/
def Obligations.LoadAndStoreResults : Prop :=
  Rules.LoadResults ∧ Rules.StoreResults

/-- Scalar atomics, and `cln` and `inv`.
Where it rests on the model's choices: log entry 7.
It concludes a next state of: amo, cln, inv. -/
def Obligations.AtomicAndCleanResults : Prop :=
  Rules.AtomicResults ∧ Rules.CleanAndInvalidate

/-- The checks of an access, their order and causes, and what they may change.
Where it rests on the model's choices: log entries 5, 12, 33, 39, 41. -/
def Obligations.ScalarAccessChecks : Prop :=
  Rules.ScalarAccessTraps ∧ Rules.AccessCheckOrder ∧ Rules.AccessCheckFrame

/-- Branches, jumps, and their trap in an active loop body.
It concludes a next state of: beq, bne, blt, bge, bltn, bgen, jal, jalr. -/
def Obligations.ControlTransfers : Prop :=
  Rules.ControlTransfers ∧ Rules.TransferInLoopBodyTraps

/-- `zol` and `smine`.
Where it rests on the model's choices: log entry 36.
It concludes a next state of: zol, smine. -/
def Obligations.LoopsAndStrips : Prop :=
  Rules.LoopStarts ∧ Rules.StripMining

/-- `setvl`, `setvt`, and the traps of a grant point.
Where it rests on the model's choices: log entries 17, 35, 36.
It concludes a next state of: setvl, setvt. -/
def Obligations.LengthAndTypeWords : Prop :=
  Rules.LengthAndTypeWords ∧ Rules.GrantPointTraps

/-- Reads and writes of every CSR.
Where it rests on the model's choices: log entries 35, 36, 39.
It concludes a next state of: csrr, csrw, csrs, csrc. -/
def Obligations.CsrResults : Prop :=
  Rules.CsrReadResults ∧ Rules.CsrWriteResults

/-- Taking an exception, a double fault, and the return.
It concludes a next state of: eret. -/
def Obligations.TrapsAndReturns : Prop :=
  Rules.TrapEntry ∧ Rules.DoubleFaultFailsTeam ∧ Rules.ExceptionReturn

/-- The system words.
Where it rests on the model's choices: log entries 7, 35, 36.
It concludes a next state of: wfi, fence, tick, ifl, tlbiAll, tlbiAsid, tlbiPage, sys, bkpt. -/
def Obligations.SystemWordResults : Prop :=
  Rules.SystemWordResults ∧ Rules.ServiceAndBreakTrapAfterRetiring ∧ Rules.HandlerWordsTrapInProgramState ∧ Rules.TlbiAllEmptiesTheBanks

/-- `ctxsv` and `ctxld`.
Where it rests on the model's choices: log entries 30, 31, 40.
It concludes a next state of: ctxsv, ctxld. -/
def Obligations.ContextImages : Prop :=
  Rules.ContextSaved ∧ Rules.ContextLoaded ∧ Rules.ImageLayout

/-- A vector word that reads operands through xlm, from a queue-mapped register, or through a bound stream, and one that resumes at vix above 0.
Where it rests on the model's choices: log entries 1, 39.
It concludes a next state of: vadd, vaddLink, vsub, vsubLink, vmul, vmulLink, vmulh, vmulhLink, vmulhn, vmulhnLink,
vmac, vmacLink, vdiv, vdivLink, vdivn, vdivnLink, vrem, vremLink, vremn, vremnLink, vmin, vminLink, vminK, vminn,
vminnLink, vminnK, vmax, vmaxLink, vmaxK, vmaxn, vmaxnLink, vmaxnK, vand, vandLink, vor, vorLink, vxor, vxorLink,
vandn, vandnLink, vshl, vshlLink, vshr, vshrLink, vsra, vsraLink, vadds, vaddsLink, vaddsn, vaddsnLink, vsubs,
vsubsLink, vsubsn, vsubsnLink, vabs, vabsLink, vneg, vnegLink, vclz, vclzLink, vpopc, vpopcLink, vcmpEq, vcmpEqLink,
vcmpEqK, vcmpNe, vcmpNeLink, vcmpNeK, vcmpLt, vcmpLtLink, vcmpLtK, vcmpGe, vcmpGeLink, vcmpGeK, vcmpLtn, vcmpLtnLink,
vcmpLtnK, vcmpGen, vcmpGenLink, vcmpGenK, vsel, vselLink. -/
def Obligations.VectorOperandSources : Prop :=
  Rules.ModifiedOperands ∧ Rules.QueuedOperands ∧ Rules.BoundOperands

/-- Permutations and element moves.
Where it rests on the model's choices: log entry 39.
It concludes a next state of: vbc, vid, vslup, vsldn, vperm, vexp, vcomp, vmvs, vmsv. -/
def Obligations.PermutationResults : Prop :=
  Rules.PermutationResults ∧ Rules.ElementMoves

/-- Conversions between formats, and to and from block formats.
Where it rests on the model's choices: log entries 15, 39.
It concludes a next state of: vcvtH, vcvtD, vcvtFi, vcvtIf, vcvtQ, vdeq, vcvtMx. -/
def Obligations.ConversionResults : Prop :=
  Rules.ConversionResults ∧ Rules.BlockConversionResults

/-- Link words and `dlfl`.
Where it rests on the model's choices: log entry 39.
It concludes a next state of: dlfl. -/
def Obligations.DigitLinkWords : Prop :=
  Rules.DigitLinkTraps ∧ Rules.LinkFlush

/-- The addresses of vector memory words, vector loads, and the first-fault form.
Where it rests on the model's choices: log entries 7, 14.
It concludes a next state of: vld, vldff, vlds, vldx, vldsg. -/
def Obligations.VectorLoadResults : Prop :=
  Rules.VectorAddresses ∧ Rules.VectorLoadResults ∧ Rules.FirstFaultTrims

/-- Vector stores and atomics.
Where it rests on the model's choices: log entries 7, 14, 33, 36, 39.
It concludes a next state of: vst, vstu, vsts, vstx, vstxu, vstsg, vamo. -/
def Obligations.VectorStoreResults : Prop :=
  Rules.VectorStoreResults ∧ Rules.VectorAtomicResults

/-- Non-blocking words and `vprobe`.
Where it rests on the model's choices: log entries 14, 39.
It concludes a next state of: vld, vlds, vldx, vldsg, vst, vstu, vsts, vstx, vstxu, vstsg, vamo, vprobe. -/
def Obligations.NonBlockingAndProbeResults : Prop :=
  Rules.NonBlockingIssues ∧ Rules.ProbeResults

/-- Stream bindings and pinned rows.
Where it rests on the model's choices: log entries 11, 18, 35, 36.
It concludes a next state of: bind, unbind, bndq, rowpin, rowrel, rowq. -/
def Obligations.StreamAndRowResults : Prop :=
  Rules.StreamBindingResults ∧ Rules.RowBufferResults

/-- Operand slots and accumulator tiles, and the traps of the matrix words.
Where it rests on the model's choices: log entries 19, 35, 39.
It concludes a next state of: omcl, omrl, accz, settl, tld. -/
def Obligations.SlotAndTileResults : Prop :=
  Rules.SlotAndTileClaims ∧ Rules.TileGrants ∧ Rules.SlotFillResults ∧ Rules.MatrixTraps

/-- `mma`, `accx`, and the values of the wide formats.
Where it rests on the model's choices: log entries 15, 19, 35, 39.
It concludes a next state of: mma, accx, accxLink. -/
def Obligations.MatrixResults : Prop :=
  Rules.MultiplyAccumulateResults ∧ Rules.ExtractionResults ∧ Rules.WideFormatValues

/-- Barriers and the team words.
Where it rests on the model's choices: log entries 9, 35, 36.
It concludes a next state of: bar, tsplit, spawn, exit, yield. -/
def Obligations.TeamWordResults : Prop :=
  Rules.BarrierResults ∧ Rules.SplitAndRejoin ∧ Rules.TeamWordResults

/-- Semaphores.
Where it rests on the model's choices: log entries 9, 10, 11, 35.
It concludes a next state of: sacq, srel, stry. -/
def Obligations.SemaphoreResults : Prop :=
  Rules.SemaphoreResults ∧ Rules.SemaphoreOfAnotherTeamTraps

/-- `shp`, `cpy` and `gsp`.
Where it rests on the model's choices: log entries 20, 35.
It concludes a next state of: shp, cpy, gsp. -/
def Obligations.EngineCommandResults : Prop :=
  Rules.ShapeDefinition ∧ Rules.CopyAccepted ∧ Rules.GatheredRowsAccepted

/-- `enq`, `deq`, `fgo` and `fwait`.
Where it rests on the model's choices: log entries 12, 22, 28, 35.
It concludes a next state of: enq, deq, fgo, fwait. -/
def Obligations.EnginePortAndFifeResults : Prop :=
  Rules.EnginePortResults ∧ Rules.FifeStartAndWait

/-- Graph nodes and remote windows.
Where it rests on the model's choices: log entries 21, 35, 36, 39.
It concludes a next state of: dnode, dgo, rwin, runmap. -/
def Obligations.GraphAndWindowResults : Prop :=
  Rules.GraphNodeResults ∧ Rules.RemoteWindowResults

/-- Collective words, group registers, and the shape of the reduction tree.
Where it rests on the model's choices: log entries 9, 27, 35, 46.
It concludes a next state of: cred, call, cgat, csct, cbc, collectiveInstanceComplete, cgrp, cgate. -/
def Obligations.CollectiveResults : Prop :=
  Rules.CollectiveResults ∧ Rules.GroupRegisterResults ∧ Rules.ReductionTreeShape

/-- The vector queue and the sequencer.
Where it rests on the model's choices: log entries 8, 28.
It concludes a next state of: elementGroupIssue, urgentWordAging. -/
def Obligations.SequencerEvents : Prop :=
  Rules.SequencerEvents ∧ Rules.FrontRunsAhead

/-- Waits that end, releases and posts.
Where it rests on the model's choices: log entries 8, 9, 14, 28, 39.
It concludes a next state of: barrierRelease, sacqWaitComplete, ipostWaitComplete, iwaitWaitComplete,
queueWaitComplete, nbAccessPost, semaphoreRelease, slotClearComplete, tileClearComplete. -/
def Obligations.WaitsAndReleases : Prop :=
  Rules.WaitsComplete ∧ Rules.ReleasesAndPosts

/-- Asynchronous traps, the traps of fetch and decode, and soft errors.
Where it rests on the model's choices: log entries 8, 16, 28, 45.
It concludes a next state of: illegalInstruction, fetchFault, asyncTrapTake, hartDeadlockDetect,
barrierMismatchDetect, softError. -/
def Obligations.AsynchronousEvents : Prop :=
  Rules.AsynchronousEvents ∧ Rules.SoftErrors

/-- A launch is accepted, chosen and placed.
Where it rests on the model's choices: log entries 6, 8, 23.
It concludes a next state of: ringPoll, distributorChoice, teamPlace. -/
def Obligations.LaunchEvents : Prop :=
  Rules.RingRecordAccepted ∧ Rules.DistributorChooses ∧ Rules.TeamPlacement

/-- A placed launch starts.
Where it rests on the model's choices: log entries 6, 8, 23, 36.
It concludes a next state of: tcmImageLoad, teamStart, gangStartProposal, gangStartReply, gangStartRetry. -/
def Obligations.StartEvents : Prop :=
  Rules.TcmImages ∧ Rules.TeamStarts ∧ Rules.GangStart

/-- A team completes, or leaves its places.
Where it rests on the model's choices: log entries 8, 26, 40.
It concludes a next state of: teamComplete, forcedPreemption, teamPreemptComplete. -/
def Obligations.TeamEndEvents : Prop :=
  Rules.TeamCompletes ∧ Rules.PreemptionEvents

/-- Engine ports, the copy engine, strips read ahead.
Where it rests on the model's choices: log entries 8, 16, 20, 21, 39.
It concludes a next state of: cpyqPush, dgqPush, qpPush, qpPop, cresPop, qceChunk, copyComplete, stripReadAhead,
leaseBounce. -/
def Obligations.EngineEvents : Prop :=
  Rules.EnginePortEvents ∧ Rules.CopyEngineEvents ∧ Rules.CopyCompletes ∧ Rules.ReadAheadAndLeases

/-- The rings of the collective engine.
Where it rests on the model's choices: log entries 8, 27, 46.
It concludes a next state of: collRingPoll, collRequestComplete. -/
def Obligations.CollectiveRingEvents : Prop :=
  Rules.CollectiveRingAccepted ∧ Rules.CollectiveRequestsComplete

/-- Derny flits.
Where it rests on the model's choices: log entries 8, 24, 25.
It concludes a next state of: dernyRead, dernyWrite, dernyAtomic, flitResendTimeout, dernyReadResponse,
dernyWriteResponse, dernyManagement, dernyTimeLaunch, dernyAck, dernyNack, dernyCredit. -/
def Obligations.DernyEvents : Prop :=
  Rules.DernyRequests ∧ Rules.DernyControl

/-- Pod circuits and lost packages.
Where it rests on the model's choices: log entries 8, 25, 33, 39.
It concludes a next state of: pcnxWrite, podBankReady, pcswWrite, podStepSwitch, packageRemovalRecognised,
packageResponseTimeout. -/
def Obligations.FabricEvents : Prop :=
  Rules.PodCircuits ∧ Rules.LostPackages

/-- The event log and the links.
Where it rests on the model's choices: log entries 8, 25, 38, 42, 43.
It concludes a next state of: powerLimitApplied, ulPause, ulRetrain, ulResume, ulPauseDone, ulRetrainDone,
linkLevelRetry, ulRetryThreshold, ulPacketFallback, laneErrorDetected, portLaneSpare, portRetrainComplete, portDown,
hostLinkDown, hostLinkUp, wavelengthFail, wavelengthPark, wavelengthWake, chanterWatchdogExpiry, chanterReboot. -/
def Obligations.LinkEvents : Prop :=
  Rules.EventLog ∧ Rules.UcieModules ∧ Rules.PortsAndHostLink ∧ Rules.Wavelengths ∧ Rules.ChanterReset

/-- Coolant zones and evacuation.
Where it rests on the model's choices: log entries 8, 29, 44.
It concludes a next state of: zoneSensorSample, dryDetect, dryClear, zoneMoveComplete, flcapWrite, zthrWrite,
zstEvClear, flowGrant, evacuationStart, evacuationPhaseEnd. -/
def Obligations.CoolantEvents : Prop :=
  Rules.ZoneSensors ∧ Rules.CoolantEvents ∧ Rules.Evacuation

/-- Failing parts, scrub and repair.
Where it rests on the model's choices: log entries 8, 16, 34, 38, 46.
It concludes a next state of: partFailure, patrolScrubLine, keyRotationStart, rowRepair. -/
def Obligations.PartAndScrubEvents : Prop :=
  Rules.PartFailures ∧ Rules.PatrolScrub ∧ Rules.ErrorsAndRepair

/-- Checkpoint, restore, reset and bring-up.
Where it rests on the model's choices: log entries 8, 25, 32, 34, 43.
It concludes a next state of: ckctlOperationEnd, checkpointStart, restoreStart, packageReset, bringupStep,
burupLockstepMismatch, burupReloadComplete. -/
def Obligations.ImageAndResetEvents : Prop :=
  Rules.CheckpointAndRestore ∧ Rules.ResetAndBringUp

/-- Requests from outside the cores.
Where it rests on the model's choices: log entries 12, 13, 25, 36, 38, 41, 43.
It concludes a next state of: getVersion, getCapabilities, negotiateAlgorithms, getDigests, getCertificate, challenge,
getMeasurements, rtinvPage, rtinvAsid, rtinvAll, registerWrite, hostRequest, endpointRequest. -/
def Obligations.AccessEvents : Prop :=
  Rules.Attestation ∧ Rules.RegisterWrites ∧ Rules.HostRequests ∧ Rules.EndpointRequests
end

