-- ==== Sys2Proof/Laws/Registers.lean ====
section
/-! SUPPORT. Registers: what is read after a write; contexts of harts in the state; the shared tests and traps. -/

namespace Sys2Proof.Machine

/-! ### Scalar, vector and predicate registers -/

@[simp] theorem Hart.getS_zero (h : Hart) : h.getS 0 = 0 := rfl

/-- A write to `s0` is discarded. -/
@[simp] theorem Hart.setS_zero (h : Hart) (x : Word) : h.setS 0 x = h := rfl

theorem Hart.setS_of_ne (h : Hart) {d : BitVec 5} (x : Word) (hd : d ≠ 0) :
    h.setS d x = { h with s := h.s.set d.toFin x } := if_neg hd

theorem Hart.getS_of_ne (h : Hart) {r : BitVec 5} (hr : r ≠ 0) : h.getS r = h.s.get r.toFin := if_neg hr

/-- An element of a vector that was set. -/
theorem vector_get_set_same {α : Type} {n : Nat} (v : Vector α n) (i : Fin n) (x : α) : (v.set i x).get i = x :=
  Vector.getElem_set_self i.isLt

theorem vector_get_set_other {α : Type} {n : Nat} (v : Vector α n) {i j : Fin n} (x : α) (h : j ≠ i) :
    (v.set i x).get j = v.get j :=
  Vector.getElem_set_ne i.isLt j.isLt fun e => h (Fin.ext e.symm)

theorem toFin_ne {w : Nat} {a b : BitVec w} (h : a ≠ b) : a.toFin ≠ b.toFin := fun e =>
  h (BitVec.eq_of_toFin_eq e)

/-- A scalar register reads what was written to it; no other changes. -/
@[simp] theorem Hart.getS_setS (h : Hart) {d : BitVec 5} (x : Word) (hd : d ≠ 0) : (h.setS d x).getS d = x := by
  rw [Hart.setS_of_ne h x hd, Hart.getS_of_ne _ hd]
  exact vector_get_set_same _ _ _

@[simp] theorem Hart.getS_setS_other (h : Hart) {d r : BitVec 5} (x : Word) (hr : r ≠ d) :
    (h.setS d x).getS r = h.getS r := by
  by_cases hd : d = 0
  · rw [hd]; rfl
  · by_cases h0 : r = 0
    · rw [h0]; rfl
    · rw [Hart.setS_of_ne h x hd, Hart.getS_of_ne _ h0, Hart.getS_of_ne _ h0]
      exact vector_get_set_other _ _ (toFin_ne hr)

/-- A vector register reads what was written to it. -/
@[simp] theorem Hart.getV_setV (h : Hart) (d : BitVec 5) (x : VecReg) : (h.setV d x).getV d = x :=
  vector_get_set_same _ _ _

@[simp] theorem Hart.getV_setV_other (h : Hart) {d r : BitVec 5} (x : VecReg) (hr : r ≠ d) :
    (h.setV d x).getV r = h.getV r := vector_get_set_other _ _ (toFin_ne hr)

/-- A predicate register reads what was written to it. -/
@[simp] theorem Hart.getP_setP (h : Hart) {d : BitVec 5} (x : PredBits) (hd : d.toNat < 24) :
    (h.setP d x).getP d = x := by simp [Hart.getP, Hart.setP, hd]

@[simp] theorem Hart.getP_setP_other (h : Hart) {d r : BitVec 5} (x : PredBits) (hr : r ≠ d) :
    (h.setP d x).getP r = h.getP r := by
  have hne : d.toNat ≠ r.toNat := fun e => hr (BitVec.eq_of_toNat_eq e).symm
  unfold Hart.getP Hart.setP
  by_cases h1 : d.toNat < 24 <;> by_cases h2 : r.toNat < 24 <;> simp [h1, h2, hne]

/-! ### The accessors of the state -/

theorem State.getS_eq (s : State) (r : BitVec 5) : s.getS r = s.hart.getS r := rfl
theorem State.getV_eq (s : State) (r : BitVec 5) : s.getV r = s.hart.getV r := rfl
theorem State.getP_eq (s : State) (r : BitVec 5) : s.getP r = s.hart.getP r := rfl

/-! ### Retirement -/

/-- A word that is not the last of an active body retires at the next word. -/
theorem Hart.advance_plain (h : Hart) (hz : h.zol.act = false ∨ h.pc ≠ h.zol.zlb + 4 * h.zol.len.setWidth 64) :
    h.advance = { h with run := .running, pc := h.pc + 4, front := h.front.passed } := by
  unfold Hart.advance
  rw [if_neg]
  rcases hz with hz | hz
  · simp [hz]
  · rw [Bool.and_eq_true, beq_iff_eq]
    exact fun e => hz e.2

@[simp] theorem forUpTo_pos (n : Nat) (f : Nat → Hart → Hart) (h : Hart) (hf : ∀ i k, (f i k).pos = k.pos) :
    (forUpTo n f h).pos = h.pos := by
  unfold forUpTo
  induction List.range n generalizing h with
  | nil => rfl
  | cons a l ih => rw [List.foldl_cons, ih, hf]

/-- Retirement keeps a hart at its position. -/
@[simp] theorem Hart.advance_pos (h : Hart) : h.advance.pos = h.pos := by
  have hs : ∀ (k : Hart) (r : BitVec 5) (x : Word), (k.setS r x).pos = k.pos := fun k r x => by
    unfold Hart.setS; split <;> rfl
  unfold Hart.advance
  split
  · unfold Hart.passEnd
    simp only []
    split
    · rfl
    · simp [forUpTo_pos, hs]
  · rfl

/-! ### Tests -/

@[simp] theorem trapIf_true (cause : BitVec 10) (tval : Word) (s : State) (k : Res) :
    trapIf true cause tval s k = .next (s.trap cause tval) := rfl

@[simp] theorem trapIf_false (cause : BitVec 10) (tval : Word) (s : State) (k : Res) : trapIf false cause tval s k = k := rfl

/-- All that a test does: it traps, or the meaning goes on. -/
theorem trapIf_next {bad : Bool} {cause : BitVec 10} {tval : Word} {s t : State} {k : Res}
    (h : trapIf bad cause tval s k = .next t) : bad = true ∧ t = s.trap cause tval ∨ bad = false ∧ k = .next t := by
  cases bad with
  | true => exact .inl ⟨rfl, by cases h; rfl⟩
  | false => exact .inr ⟨rfl, h⟩

/-! ### Contexts -/

@[simp] theorem State.hartAt_self (s : State) : s.hartAt s.hart.pos = s.hart := by simp [State.hartAt]

/-- The context at a position stands there. -/
@[simp] theorem State.hartAt_pos (s : State) (h : HartId) : (s.hartAt h).pos = h := by
  unfold State.hartAt
  split
  · assumption
  · split
    · rename_i x hx
      simpa using List.find?_some hx
    · rfl

@[simp] theorem State.select_self (s : State) : s.select s.hart.pos = s := by simp [State.select]

/-- The turn of a hart brings its context to `hart`. -/
@[simp] theorem State.select_hart (s : State) (h : HartId) : (s.select h).hart = s.hartAt h := by
  unfold State.select
  split
  · rename_i e; subst e; simp
  · rfl

/-- What selecting a hart leaves alone. -/
@[simp] theorem State.select_mem (s : State) (h : HartId) : (s.select h).mem = s.mem := by unfold State.select; split <;> rfl
@[simp] theorem State.select_cores (s : State) (h : HartId) : (s.select h).cores = s.cores := by
  unfold State.select; split <;> rfl
@[simp] theorem State.select_dies (s : State) (h : HartId) : (s.select h).dies = s.dies := by
  unfold State.select; split <;> rfl
@[simp] theorem State.select_teams (s : State) (h : HartId) : (s.select h).teams = s.teams := by
  unfold State.select; split <;> rfl
@[simp] theorem State.select_pkgs (s : State) (h : HartId) : (s.select h).pkgs = s.pkgs := by
  unfold State.select; split <;> rfl
@[simp] theorem State.select_dev (s : State) (h : HartId) : (s.select h).dev = s.dev := by unfold State.select; split <;> rfl
@[simp] theorem State.putHart_mem (s : State) (x : Hart) : (s.putHart x).mem = s.mem := by
  unfold State.putHart; split <;> (try split) <;> rfl
@[simp] theorem State.putHart_cores (s : State) (x : Hart) : (s.putHart x).cores = s.cores := by
  unfold State.putHart; split <;> (try split) <;> rfl
@[simp] theorem State.putHart_teams (s : State) (x : Hart) : (s.putHart x).teams = s.teams := by
  unfold State.putHart; split <;> (try split) <;> rfl
@[simp] theorem State.putHart_dev (s : State) (x : Hart) : (s.putHart x).dev = s.dev := by
  unfold State.putHart; split <;> (try split) <;> rfl

/-- A context stored stands at its position. -/
@[simp] theorem State.hartAt_putHart (s : State) (x : Hart) : (s.putHart x).hartAt x.pos = x := by
  unfold State.putHart
  split
  · simp [State.hartAt]
  · rename_i hne
    split
    · rename_i hany
      simp only [State.hartAt, hne, if_false]
      have : (s.parked.map fun y => if y.pos == x.pos then x else y).find? (fun z => z.pos == x.pos) = some x := by
        generalize s.parked = l at hany
        induction l with
        | nil => simp at hany
        | cons a l ih =>
          by_cases ha : a.pos = x.pos
          · simp [ha]
          · have : l.any (fun y => y.pos == x.pos) = true := by simpa [ha] using hany
            simpa [ha] using ih this
      rw [this]
    · rename_i hany
      simp only [State.hartAt, hne, if_false]
      have : (s.parked ++ [x]).find? (fun z => z.pos == x.pos) = some x := by
        rw [List.find?_append]
        have hnone : s.parked.find? (fun z => z.pos == x.pos) = none := by
          rw [List.find?_eq_none]
          intro a ha hax
          exact hany (List.any_eq_true.mpr ⟨a, ha, hax⟩)
        simp [hnone]
      rw [this]

/-- A context stored leaves the contexts at other positions. -/
theorem State.hartAt_putHart_other (s : State) (x : Hart) {q : HartId} (hq : q ≠ x.pos) :
    (s.putHart x).hartAt q = s.hartAt q := by
  unfold State.putHart
  split
  · rename_i e
    simp [State.hartAt, e, Ne.symm hq]
  · split
    · simp only [State.hartAt]
      congr 1
      have : (s.parked.map fun y => if y.pos == x.pos then x else y).find? (fun z => z.pos == q) =
          s.parked.find? (fun z => z.pos == q) := by
        induction s.parked with
        | nil => rfl
        | cons a l ih =>
          rw [List.map_cons, List.find?_cons, List.find?_cons, ih]
          by_cases ha : a.pos = x.pos
          · have h1 : (x.pos == q) = false := by simpa using Ne.symm hq
            have h2 : (a.pos == q) = false := by rw [ha]; exact h1
            simp [ha, h1]
          · simp [ha]
      rw [this]
    · simp only [State.hartAt]
      congr 1
      rw [List.find?_append]
      simp [Ne.symm hq]

/-- The turn of a hart keeps one context at each position. -/
theorem State.select_distinct (s : State) (h : HartId) (hd : (s.harts.map Hart.pos).Nodup) :
    ((s.select h).harts.map Hart.pos).Nodup := by
  unfold State.select
  split
  · exact hd
  · rename_i hne
    simp only [State.harts, List.map_cons, List.map_append, List.nodup_cons, State.hartAt_pos] at hd ⊢
    obtain ⟨hs, hp⟩ := hd
    have hsub : ((s.parked.filter fun x => x.pos != h).map Hart.pos).Sublist (s.parked.map Hart.pos) :=
      List.filter_sublist.map _
    refine ⟨?_, ?_⟩
    · simp [Ne.symm hne]
    · rw [List.nodup_append]
      refine ⟨hp.sublist hsub, by simp, ?_⟩
      intro a ha b hb
      simp only [List.map_nil, List.mem_singleton] at hb
      subst hb
      rintro rfl
      exact hs (hsub.subset ha)

/-- A context stored keeps one context at each position. -/
theorem State.putHart_distinct (s : State) (x : Hart) (hd : (s.harts.map Hart.pos).Nodup) :
    ((s.putHart x).harts.map Hart.pos).Nodup := by
  unfold State.putHart
  split
  · rename_i e
    simpa [State.harts, ← e] using hd
  · rename_i hne
    split
    · have : (s.parked.map fun y => if y.pos == x.pos then x else y).map Hart.pos = s.parked.map Hart.pos := by
        rw [List.map_map]
        refine List.map_congr_left fun a _ => ?_
        by_cases ha : a.pos = x.pos <;> simp [ha]
      simp only [State.harts, List.map_cons] at hd ⊢
      rw [this]
      exact hd
    · rename_i hany
      simp only [State.harts, List.map_cons, List.map_append, List.nodup_cons] at hd ⊢
      refine ⟨?_, ?_⟩
      · simp only [List.map_nil, List.mem_append, List.mem_singleton, not_or]
        exact ⟨hd.1, hne⟩
      · rw [List.nodup_append]
        refine ⟨hd.2, by simp, ?_⟩
        intro a ha b hb
        simp only [List.map_nil, List.mem_singleton] at hb
        subst hb
        rintro rfl
        obtain ⟨y, hy, e⟩ := List.mem_map.mp ha
        exact hany (List.any_eq_true.mpr ⟨y, hy, by simp [e]⟩)

end Sys2Proof.Machine
end

