-- ==== Sys2Proof/Laws/Contexts.lean ====
section
/-! SUPPORT. The turn passed from hart to hart: where each context stands afterwards. -/

namespace Sys2Proof.Machine

/-- A position that the state does not list has a free context. -/
theorem State.hartAt_of_hart (s : State) {h : HartId} (e : s.hart.pos = h) : s.hartAt h = s.hart := if_pos e

theorem State.hartAt_of_parked (s : State) {h : HartId} (e : s.hart.pos ≠ h) :
    s.hartAt h = ((s.parked.find? fun x => x.pos == h).getD { Hart.reset with pos := h }) := by
  unfold State.hartAt
  rw [if_neg e]
  cases s.parked.find? fun x => x.pos == h <;> rfl

theorem find_filter_other {l : List Hart} {h q : HartId} (hq : q ≠ h) :
    (l.filter fun x => x.pos != h).find? (fun x => x.pos == q) = l.find? fun x => x.pos == q := by
  induction l with
  | nil => rfl
  | cons a l ih =>
    rw [List.filter_cons]
    by_cases ha : a.pos = h
    · have haq : (a.pos == q) = false := by rw [ha]; simpa using Ne.symm hq
      rw [List.find?_cons, haq]
      simp [ha, ih]
    · simp [ha, List.find?_cons, ih]

/-- The turn of a hart leaves every context as it was. -/
theorem State.hartAt_select (s : State) (h q : HartId) (hd : (s.harts.map Hart.pos).Nodup) :
    (s.select h).hartAt q = s.hartAt q := by
  unfold State.select
  split
  · rfl
  · rename_i hne
    by_cases hq : q = h
    · subst hq
      rw [State.hartAt_of_hart _ (State.hartAt_pos s q)]
    · rw [State.hartAt_of_parked _ (by simpa using Ne.symm hq)]
      simp only [List.find?_append, find_filter_other hq]
      by_cases hs : s.hart.pos = q
      · have hnone : s.parked.find? (fun x => x.pos == q) = none := by
          rw [List.find?_eq_none]
          intro a ha hax
          simp only [State.harts, List.map_cons, List.nodup_cons] at hd
          exact hd.1 (List.mem_map.mpr ⟨a, ha, by rw [hs]; simpa using hax⟩)
        rw [State.hartAt_of_hart s hs]
        simp [hnone, hs]
      · rw [State.hartAt_of_parked s hs]
        have : (s.hart.pos == q) = false := by simpa using hs
        cases s.parked.find? fun x => x.pos == q <;> simp [this]

/-- A change made as a hart, on its context alone. -/
theorem State.hartAt_onHart (s : State) (h q : HartId) (f : State → State) (hd : (s.harts.map Hart.pos).Nodup)
    (hpos : (f (s.select h)).hart.pos = h) (hp : (f (s.select h)).parked = (s.select h).parked) :
    (s.onHart h f).hartAt q = if q = h then (f (s.select h)).hart else s.hartAt q := by
  unfold State.onHart
  have hsel := State.select_distinct s h hd
  have hdf : ((f (s.select h)).harts.map Hart.pos).Nodup := by
    simp only [State.harts, List.map_cons, hpos, hp] at hsel ⊢
    rwa [State.select_hart, State.hartAt_pos] at hsel
  rw [State.hartAt_select _ _ _ hdf]
  by_cases hq : q = h
  · subst hq
    rw [if_pos rfl, State.hartAt_of_hart _ hpos]
  · rw [if_neg hq, State.hartAt_of_parked _ (by rw [hpos]; exact Ne.symm hq), hp,
      ← State.hartAt_select s h q hd, State.hartAt_of_parked _ (by rw [State.select_hart, State.hartAt_pos]; exact Ne.symm hq)]

/-- A change made as a hart returns the turn. -/
theorem State.onHart_pos (s : State) (h : HartId) (f : State → State) : (s.onHart h f).hart.pos = s.hart.pos := by
  unfold State.onHart
  rw [State.select_hart, State.hartAt_pos]

@[simp] theorem State.onHart_mem (s : State) (h : HartId) (f : State → State) :
    (s.onHart h f).mem = (f (s.select h)).mem := by
  unfold State.onHart
  exact State.select_mem _ _

/-- A change made as a hart keeps one context at each position. -/
theorem State.onHart_distinct (s : State) (h : HartId) (f : State → State)
    (hf : ((f (s.select h)).harts.map Hart.pos).Nodup) : ((s.onHart h f).harts.map Hart.pos).Nodup :=
  State.select_distinct _ _ hf

end Sys2Proof.Machine
end

