-- ==== Sys2Proof/Laws/Encoding.lean ====
section
/-! SUPPORT. The fields of each layout read back, and what `decode` makes of a word of each major: the lemmas behind the
round trip of every instruction. -/

namespace Sys2Proof.Laws

set_option Elab.async false

/-! ### Fields of concatenations -/

/-- A field at or above the low part reads the high part. -/
theorem extract_high {m n : Nat} (x : BitVec m) (y : BitVec n) (k len : Nat) (h : n ≤ k) :
    (x ++ y).extractLsb' k len = x.extractLsb' (k - n) len := by
  apply BitVec.eq_of_getLsbD_eq
  intro i _
  simp only [BitVec.getLsbD_extractLsb', BitVec.getLsbD_append]
  rw [if_neg (by omega)]
  congr 2
  omega

/-- A field inside the low part reads the low part. -/
theorem extract_low {m n : Nat} (x : BitVec m) (y : BitVec n) (k len : Nat) (h : k + len ≤ n) :
    (x ++ y).extractLsb' k len = y.extractLsb' k len := by
  apply BitVec.eq_of_getLsbD_eq
  intro i hi
  simp only [BitVec.getLsbD_extractLsb', BitVec.getLsbD_append]
  rw [if_pos (by omega)]

/-- The field that is the whole word. -/
theorem extract_all {n : Nat} (x : BitVec n) : x.extractLsb' 0 n = x := by
  apply BitVec.eq_of_getLsbD_eq
  intro i hi
  simp [hi]

/-- The field that ends where a concatenation does. -/
theorem extract_join {m n : Nat} (x : BitVec m) (y : BitVec n) (k : Nat) (h : k = m + n) :
    (x ++ y).extractLsb' 0 k = (x ++ y).setWidth k := by
  subst h
  simp

/-- The whole low part. -/
theorem extract_last {m n : Nat} (x : BitVec m) (y : BitVec n) : (x ++ y).extractLsb' 0 n = y := by
  rw [extract_low _ _ _ _ (by omega), extract_all]

/-- The whole high part. -/
theorem extract_first {m n : Nat} (x : BitVec m) (y : BitVec n) : (x ++ y).extractLsb' n m = x := by
  rw [extract_high _ _ _ _ (Nat.le_refl _), Nat.sub_self, extract_all]

/-- The field between a high and a low part. -/
theorem extract_mid {l m n : Nat} (x : BitVec l) (y : BitVec m) (z : BitVec n) :
    (x ++ y ++ z).extractLsb' n m = y := by
  rw [extract_high _ _ _ _ (Nat.le_refl _), Nat.sub_self, extract_low _ _ _ _ (by omega), extract_all]

/-- A word of a major other than 0 is not the all-zero word. -/
theorem ne_zero_of_major {w : BitVec 32} (h : majorOf w ≠ 0) : w ≠ 0 := by
  intro e
  subst e
  exact h rfl

/-- A narrower field zero-extended and read back. -/
theorem narrow {m n : Nat} (x : BitVec m) (h : m ≤ n) : (x.setWidth n).setWidth m = x := by
  apply BitVec.eq_of_getLsbD_eq
  intro i hi
  simp only [BitVec.getLsbD_setWidth]
  simp [hi]
  intro hx
  omega

/-- A 3-bit number fits its 5-bit field with the high bits zero. -/
theorem narrow3_lt (x : BitVec 3) : x.toNat % 32 < 8 := by
  have := x.isLt; omega
/-- A 4-bit number fits its 5-bit field with the high bit zero. -/
theorem narrow4_lt (x : BitVec 4) : x.toNat % 32 < 16 := by
  have := x.isLt; omega

/-- The part above a middle and a low part. -/
theorem extract_top {l m n : Nat} (x : BitVec l) (y : BitVec m) (z : BitVec n) (k : Nat) (h : k = m + n) :
    (x ++ y ++ z).extractLsb' k l = x := by
  subst h
  rw [extract_high _ _ _ _ (by omega), Nat.add_sub_cancel, extract_first]

/-- A low part read through another concatenation. -/
theorem extract_cut {l m n : Nat} (x : BitVec l) (y : BitVec m) (z : BitVec n) (k len : Nat) (h : n ≤ k) (h' : k + len ≤ m + n) :
    (x ++ y ++ z).extractLsb' k len = y.extractLsb' (k - n) len := by
  rw [extract_high _ _ _ _ h, extract_low _ _ _ _ (by omega)]

/-- K of a constant word (R57). -/
theorem field_k (k : BitVec 1) (h : BitVec 2) : (0#2 ++ k ++ h).getLsbD 2 = k.getLsbD 0 := by
  revert k h; decide

/-- NB of a memory function (R68). -/
theorem field_nb (nb : Bool) (x : BitVec 3) (y : BitVec 2) : fieldNb (BitVec.ofBool nb ++ x ++ y) = nb := by
  revert nb x y; decide
/-- OP of a memory function. -/
theorem field_op (nb : Bool) (x : BitVec 3) (y : BitVec 2) : fieldOp (BitVec.ofBool nb ++ x ++ y) = x := by
  revert nb x y; decide
/-- PATH of a memory function. -/
theorem field_path (nb : Bool) (x : BitVec 3) (y : BitVec 2) : fieldPath (BitVec.ofBool nb ++ x ++ y) = y := by
  revert nb x y; decide

/-! ### Fields of the layouts (R49) -/

@[simp] theorem majorOf_encReg (m : BitVec 6) (d a b : BitVec 5) (f : BitVec 11) : majorOf (encReg m d a b f) = m := by
  unfold majorOf encReg
  repeat first | rw [extract_first] | rw [extract_last] | rw [extract_mid] | rw [extract_high _ _ _ _ (by omega)]

@[simp] theorem fieldD_encReg (m : BitVec 6) (d a b : BitVec 5) (f : BitVec 11) : fieldD (encReg m d a b f) = d := by
  unfold fieldD encReg
  repeat first | rw [extract_first] | rw [extract_last] | rw [extract_mid] | rw [extract_high _ _ _ _ (by omega)]

@[simp] theorem fieldA_encReg (m : BitVec 6) (d a b : BitVec 5) (f : BitVec 11) : fieldA (encReg m d a b f) = a := by
  unfold fieldA encReg
  repeat first | rw [extract_first] | rw [extract_last] | rw [extract_mid] | rw [extract_high _ _ _ _ (by omega)]

@[simp] theorem fieldB_encReg (m : BitVec 6) (d a b : BitVec 5) (f : BitVec 11) : fieldB (encReg m d a b f) = b := by
  unfold fieldB encReg
  repeat first | rw [extract_first] | rw [extract_last] | rw [extract_mid] | rw [extract_high _ _ _ _ (by omega)]

@[simp] theorem fieldF11_encReg (m : BitVec 6) (d a b : BitVec 5) (f : BitVec 11) : fieldF11 (encReg m d a b f) = f := by
  unfold fieldF11 encReg
  repeat first | rw [extract_first] | rw [extract_last] | rw [extract_mid] | rw [extract_high _ _ _ _ (by omega)]

@[simp] theorem majorOf_encImm (m : BitVec 6) (d a : BitVec 5) (i : BitVec 16) : majorOf (encImm m d a i) = m := by
  unfold majorOf encImm
  repeat first | rw [extract_first] | rw [extract_last] | rw [extract_mid] | rw [extract_high _ _ _ _ (by omega)]

@[simp] theorem fieldD_encImm (m : BitVec 6) (d a : BitVec 5) (i : BitVec 16) : fieldD (encImm m d a i) = d := by
  unfold fieldD encImm
  repeat first | rw [extract_first] | rw [extract_last] | rw [extract_mid] | rw [extract_high _ _ _ _ (by omega)]

@[simp] theorem fieldA_encImm (m : BitVec 6) (d a : BitVec 5) (i : BitVec 16) : fieldA (encImm m d a i) = a := by
  unfold fieldA encImm
  repeat first | rw [extract_first] | rw [extract_last] | rw [extract_mid] | rw [extract_high _ _ _ _ (by omega)]

@[simp] theorem fieldImm16_encImm (m : BitVec 6) (d a : BitVec 5) (i : BitVec 16) : fieldImm16 (encImm m d a i) = i := by
  unfold fieldImm16 encImm
  repeat first | rw [extract_first] | rw [extract_last] | rw [extract_mid] | rw [extract_high _ _ _ _ (by omega)]

@[simp] theorem majorOf_encMem (m : BitVec 6) (d a : BitVec 5) (z : BitVec 3) (o : BitVec 13) : majorOf (encMem m d a z o) = m := by
  unfold majorOf encMem
  repeat first | rw [extract_first] | rw [extract_last] | rw [extract_mid] | rw [extract_high _ _ _ _ (by omega)]

@[simp] theorem fieldD_encMem (m : BitVec 6) (d a : BitVec 5) (z : BitVec 3) (o : BitVec 13) : fieldD (encMem m d a z o) = d := by
  unfold fieldD encMem
  repeat first | rw [extract_first] | rw [extract_last] | rw [extract_mid] | rw [extract_high _ _ _ _ (by omega)]

@[simp] theorem fieldA_encMem (m : BitVec 6) (d a : BitVec 5) (z : BitVec 3) (o : BitVec 13) : fieldA (encMem m d a z o) = a := by
  unfold fieldA encMem
  repeat first | rw [extract_first] | rw [extract_last] | rw [extract_mid] | rw [extract_high _ _ _ _ (by omega)]

@[simp] theorem fieldZ_encMem (m : BitVec 6) (d a : BitVec 5) (z : BitVec 3) (o : BitVec 13) : fieldZ (encMem m d a z o) = z := by
  unfold fieldZ encMem
  repeat first | rw [extract_first] | rw [extract_last] | rw [extract_mid] | rw [extract_high _ _ _ _ (by omega)]

@[simp] theorem fieldOff13_encMem (m : BitVec 6) (d a : BitVec 5) (z : BitVec 3) (o : BitVec 13) : fieldOff13 (encMem m d a z o) = o := by
  unfold fieldOff13 encMem
  repeat first | rw [extract_first] | rw [extract_last] | rw [extract_mid] | rw [extract_high _ _ _ _ (by omega)]

@[simp] theorem majorOf_encJump (m : BitVec 6) (d : BitVec 5) (o : BitVec 21) : majorOf (encJump m d o) = m := by
  unfold majorOf encJump
  repeat first | rw [extract_first] | rw [extract_last] | rw [extract_mid] | rw [extract_high _ _ _ _ (by omega)]

@[simp] theorem fieldD_encJump (m : BitVec 6) (d : BitVec 5) (o : BitVec 21) : fieldD (encJump m d o) = d := by
  unfold fieldD encJump
  repeat first | rw [extract_first] | rw [extract_last] | rw [extract_mid] | rw [extract_high _ _ _ _ (by omega)]

@[simp] theorem fieldOff21_encJump (m : BitVec 6) (d : BitVec 5) (o : BitVec 21) : fieldOff21 (encJump m d o) = o := by
  unfold fieldOff21 encJump
  repeat first | rw [extract_first] | rw [extract_last] | rw [extract_mid] | rw [extract_high _ _ _ _ (by omega)]

@[simp] theorem majorOf_encVec (m : BitVec 6) (d a b p : BitVec 5) (f : BitVec 6) : majorOf (encVec m d a b p f) = m := by
  unfold majorOf encVec
  repeat first | rw [extract_first] | rw [extract_last] | rw [extract_mid] | rw [extract_high _ _ _ _ (by omega)]

@[simp] theorem fieldD_encVec (m : BitVec 6) (d a b p : BitVec 5) (f : BitVec 6) : fieldD (encVec m d a b p f) = d := by
  unfold fieldD encVec
  repeat first | rw [extract_first] | rw [extract_last] | rw [extract_mid] | rw [extract_high _ _ _ _ (by omega)]

@[simp] theorem fieldA_encVec (m : BitVec 6) (d a b p : BitVec 5) (f : BitVec 6) : fieldA (encVec m d a b p f) = a := by
  unfold fieldA encVec
  repeat first | rw [extract_first] | rw [extract_last] | rw [extract_mid] | rw [extract_high _ _ _ _ (by omega)]

@[simp] theorem fieldB_encVec (m : BitVec 6) (d a b p : BitVec 5) (f : BitVec 6) : fieldB (encVec m d a b p f) = b := by
  unfold fieldB encVec
  repeat first | rw [extract_first] | rw [extract_last] | rw [extract_mid] | rw [extract_high _ _ _ _ (by omega)]

@[simp] theorem fieldP_encVec (m : BitVec 6) (d a b p : BitVec 5) (f : BitVec 6) : fieldP (encVec m d a b p f) = p := by
  unfold fieldP encVec
  repeat first | rw [extract_first] | rw [extract_last] | rw [extract_mid] | rw [extract_high _ _ _ _ (by omega)]

@[simp] theorem fieldF6_encVec (m : BitVec 6) (d a b p : BitVec 5) (f : BitVec 6) : fieldF6 (encVec m d a b p f) = f := by
  unfold fieldF6 encVec
  repeat first | rw [extract_first] | rw [extract_last] | rw [extract_mid] | rw [extract_high _ _ _ _ (by omega)]

@[simp] theorem majorOf_encSync (m : BitVec 6) (d a : BitVec 5) (i : BitVec 10) (f : BitVec 6) : majorOf (encSync m d a i f) = m := by
  unfold majorOf encSync
  repeat first | rw [extract_first] | rw [extract_last] | rw [extract_mid] | rw [extract_high _ _ _ _ (by omega)]

@[simp] theorem fieldD_encSync (m : BitVec 6) (d a : BitVec 5) (i : BitVec 10) (f : BitVec 6) : fieldD (encSync m d a i f) = d := by
  unfold fieldD encSync
  repeat first | rw [extract_first] | rw [extract_last] | rw [extract_mid] | rw [extract_high _ _ _ _ (by omega)]

@[simp] theorem fieldA_encSync (m : BitVec 6) (d a : BitVec 5) (i : BitVec 10) (f : BitVec 6) : fieldA (encSync m d a i f) = a := by
  unfold fieldA encSync
  repeat first | rw [extract_first] | rw [extract_last] | rw [extract_mid] | rw [extract_high _ _ _ _ (by omega)]

@[simp] theorem fieldImm10_encSync (m : BitVec 6) (d a : BitVec 5) (i : BitVec 10) (f : BitVec 6) : fieldImm10 (encSync m d a i f) = i := by
  unfold fieldImm10 encSync
  repeat first | rw [extract_first] | rw [extract_last] | rw [extract_mid] | rw [extract_high _ _ _ _ (by omega)]

@[simp] theorem fieldF6_encSync (m : BitVec 6) (d a : BitVec 5) (i : BitVec 10) (f : BitVec 6) : fieldF6 (encSync m d a i f) = f := by
  unfold fieldF6 encSync
  repeat first | rw [extract_first] | rw [extract_last] | rw [extract_mid] | rw [extract_high _ _ _ _ (by omega)]

/-! ### Codes -/

@[simp] theorem ExtW.ofBits_toBits (x : ExtW) : ExtW.ofBits x.toBits = some x := by cases x <;> rfl
@[simp] theorem LdTy.ofBits_toBits (x : LdTy) : LdTy.ofBits x.toBits = some x := by cases x <;> rfl
@[simp] theorem StW.ofBits_toBits (x : StW) : StW.ofBits x.toBits = some x := by cases x <;> rfl
@[simp] theorem AmoTy.ofBits_toBits (x : AmoTy) : AmoTy.ofBits x.toBits = some x := by cases x <;> rfl
@[simp] theorem AmoOp.ofBits_toBits (x : AmoOp) : AmoOp.ofBits x.toBits = some x := by cases x <;> rfl
@[simp] theorem FFmt.ofBits_toBits (x : FFmt) : FFmt.ofBits x.toBits = some x := by cases x <;> rfl
@[simp] theorem FRel.ofBits_toBits (x : FRel) : FRel.ofBits x.toBits = some x := by cases x <;> rfl
@[simp] theorem CvtTy.ofBits_toBits (x : CvtTy) : CvtTy.ofBits x.toBits = some x := by cases x <;> rfl
@[simp] theorem Format.ofBits_toBits (x : Format) : Format.ofBits x.toBits = some x := by cases x <;> rfl
@[simp] theorem Scope.ofBits_toBits (x : Scope) : Scope.ofBits x.toBits = some x := by cases x <;> rfl
@[simp] theorem Path.ofBits_toBits (x : Path) : Path.ofBits x.toBits = some x := by cases x <;> rfl
@[simp] theorem VamoOp.ofBits_toBits (x : VamoOp) : VamoOp.ofBits x.toBits = some x := by cases x <;> rfl
@[simp] theorem CollOp.ofBits_toBits (x : CollOp) : CollOp.ofBits x.toBits = some x := by cases x <;> rfl
@[simp] theorem ScanOp.ofBits_toBits (x : ScanOp) : ScanOp.ofBits x.toBits = some x := by cases x <;> rfl
@[simp] theorem CvtTy.ofBits_narrow (x : CvtTy) : CvtTy.ofBits ((x.toBits.setWidth 3).setWidth 4) = some x := by cases x <;> rfl
@[simp] theorem Csr.ofNum_num (c : Csr) : Csr.ofNum c.num = some c := by
  cases c with
  | fm k => revert k; decide
  | _ => rfl

/-! ### Words of each major (R55) -/

theorem decode_alu (d a b : BitVec 5) (f : BitVec 11) : decode (encReg 0x01 d a b f) = decodeAlu d a b f := by
  have h : encReg 0x01 d a b f ≠ 0 := ne_zero_of_major (by simp)
  simp only [decode, decodeBase, if_neg h]
  simp

theorem decode_addi (d a : BitVec 5) (i : BitVec 16) : decode (encImm 0x02 d a i) = .ok (.addi d a i) := by
  have h : encImm 0x02 d a i ≠ 0 := ne_zero_of_major (by simp)
  simp only [decode, decodeBase, if_neg h]
  simp

theorem decode_andi (d a : BitVec 5) (i : BitVec 16) : decode (encImm 0x03 d a i) = .ok (.andi d a i) := by
  have h : encImm 0x03 d a i ≠ 0 := ne_zero_of_major (by simp)
  simp only [decode, decodeBase, if_neg h]
  simp

theorem decode_ori (d a : BitVec 5) (i : BitVec 16) : decode (encImm 0x04 d a i) = .ok (.ori d a i) := by
  have h : encImm 0x04 d a i ≠ 0 := ne_zero_of_major (by simp)
  simp only [decode, decodeBase, if_neg h]
  simp

theorem decode_xori (d a : BitVec 5) (i : BitVec 16) : decode (encImm 0x05 d a i) = .ok (.xori d a i) := by
  have h : encImm 0x05 d a i ≠ 0 := ne_zero_of_major (by simp)
  simp only [decode, decodeBase, if_neg h]
  simp

theorem decode_shift (d a : BitVec 5) (i : BitVec 16) : decode (encImm 0x06 d a i) = decodeShift d a i := by
  have h : encImm 0x06 d a i ≠ 0 := ne_zero_of_major (by simp)
  simp only [decode, decodeBase, if_neg h]
  simp

theorem decode_slti (d a : BitVec 5) (i : BitVec 16) : decode (encImm 0x07 d a i) = .ok (.slti d a i) := by
  have h : encImm 0x07 d a i ≠ 0 := ne_zero_of_major (by simp)
  simp only [decode, decodeBase, if_neg h]
  simp

theorem decode_const (d a : BitVec 5) (i : BitVec 16) : decode (encImm 0x08 d a i) = decodeConst d a i := by
  have h : encImm 0x08 d a i ≠ 0 := ne_zero_of_major (by simp)
  simp only [decode, decodeBase, if_neg h]
  simp

theorem decode_ld (d a : BitVec 5) (z : BitVec 3) (o : BitVec 13) : decode (encMem 0x09 d a z o) = legal (LdTy.ofBits z) fun t => .ok (.ld d a t o) := by
  have h : encMem 0x09 d a z o ≠ 0 := ne_zero_of_major (by simp)
  simp only [decode, decodeBase, if_neg h]
  simp

theorem decode_st (d a : BitVec 5) (z : BitVec 3) (o : BitVec 13) : decode (encMem 0x0A d a z o) = legal (StW.ofBits z) fun t => .ok (.st d a t o) := by
  have h : encMem 0x0A d a z o ≠ 0 := ne_zero_of_major (by simp)
  simp only [decode, decodeBase, if_neg h]
  simp

theorem decode_amo (d a b : BitVec 5) (f : BitVec 11) : decode (encReg 0x0B d a b f) = decodeAmo d a b f := by
  have h : encReg 0x0B d a b f ≠ 0 := ne_zero_of_major (by simp)
  simp only [decode, decodeBase, if_neg h]
  simp

theorem decode_branch (d a : BitVec 5) (z : BitVec 3) (o : BitVec 13) : decode (encMem 0x0C d a z o) = decodeBranch d a z o := by
  have h : encMem 0x0C d a z o ≠ 0 := ne_zero_of_major (by simp)
  simp only [decode, decodeBase, if_neg h]
  simp

theorem decode_jal (d : BitVec 5) (o : BitVec 21) : decode (encJump 0x0D d o) = .ok (.jal d o) := by
  have h : encJump 0x0D d o ≠ 0 := ne_zero_of_major (by simp)
  simp only [decode, decodeBase, if_neg h]
  simp

theorem decode_jalr (d a : BitVec 5) (i : BitVec 16) : decode (encImm 0x0E d a i) = .ok (.jalr d a i) := by
  have h : encImm 0x0E d a i ≠ 0 := ne_zero_of_major (by simp)
  simp only [decode, decodeBase, if_neg h]
  simp

theorem decode_smine (d a : BitVec 5) (z : BitVec 3) (o : BitVec 13) : decode (encMem 0x0F d a z o) = values (smineOk a z) (.ok (.smine d a z o)) := by
  have h : encMem 0x0F d a z o ≠ 0 := ne_zero_of_major (by simp)
  simp only [decode, decodeBase, if_neg h]
  simp

theorem decode_zol (d a b : BitVec 5) (f : BitVec 11) : decode (encReg 0x10 d a b f) = zeros (d == 0 && f == 0) (.ok (.zol a b)) := by
  have h : encReg 0x10 d a b f ≠ 0 := ne_zero_of_major (by simp)
  simp only [decode, decodeBase, if_neg h]
  simp

theorem decode_fp (d a b : BitVec 5) (f : BitVec 11) : decode (encReg 0x11 d a b f) = decodeFp d a b f := by
  have h : encReg 0x11 d a b f ≠ 0 := ne_zero_of_major (by simp)
  simp only [decode, decodeBase, if_neg h]
  simp

theorem decode_system (d a : BitVec 5) (i : BitVec 16) : decode (encImm 0x12 d a i) = decodeSystem d a i := by
  have h : encImm 0x12 d a i ≠ 0 := ne_zero_of_major (by simp)
  simp only [decode, decodeBase, if_neg h]
  simp

theorem decode_config (d a b : BitVec 5) (f : BitVec 11) : decode (encReg 0x13 d a b f) = decodeConfig d a b f := by
  have h : encReg 0x13 d a b f ≠ 0 := ne_zero_of_major (by simp)
  simp only [decode, decodeBase, if_neg h]
  simp

theorem decode_vint (d a b p : BitVec 5) (f : BitVec 6) : decode (encVec 0x14 d a b p f) = decodeVInt d a b p f := by
  have h : encVec 0x14 d a b p f ≠ 0 := ne_zero_of_major (by simp)
  simp only [decode, decodeBase, if_neg h]
  simp

theorem decode_vfp (d a b p : BitVec 5) (f : BitVec 6) : decode (encVec 0x16 d a b p f) = decodeVFp d a b p f := by
  have h : encVec 0x16 d a b p f ≠ 0 := ne_zero_of_major (by simp)
  simp only [decode, decodeBase, if_neg h]
  simp

theorem decode_permute (d a b p : BitVec 5) (f : BitVec 6) : decode (encVec 0x18 d a b p f) = decodePermute d a b p f := by
  have h : encVec 0x18 d a b p f ≠ 0 := ne_zero_of_major (by simp)
  simp only [decode, decodeBase, if_neg h]
  simp

theorem decode_reduce (d a b p : BitVec 5) (f : BitVec 6) : decode (encVec 0x19 d a b p f) = decodeReduce d a b p f := by
  have h : encVec 0x19 d a b p f ≠ 0 := ne_zero_of_major (by simp)
  simp only [decode, decodeBase, if_neg h]
  simp

theorem decode_pred (d a b p : BitVec 5) (f : BitVec 6) : decode (encVec 0x1A d a b p f) = decodePred d a b p f := by
  have h : encVec 0x1A d a b p f ≠ 0 := ne_zero_of_major (by simp)
  simp only [decode, decodeBase, if_neg h]
  simp

theorem decode_vload (d a b p : BitVec 5) (f : BitVec 6) : decode (encVec 0x1B d a b p f) = decodeVLoad d a b p f := by
  have h : encVec 0x1B d a b p f ≠ 0 := ne_zero_of_major (by simp)
  simp only [decode, decodeBase, if_neg h]
  simp

theorem decode_vstore (d a b p : BitVec 5) (f : BitVec 6) : decode (encVec 0x1C d a b p f) = decodeVStore d a b p f := by
  have h : encVec 0x1C d a b p f ≠ 0 := ne_zero_of_major (by simp)
  simp only [decode, decodeBase, if_neg h]
  simp

theorem decode_vamo (d a b p : BitVec 5) (f : BitVec 6) : decode (encVec 0x1D d a b p f) = decodeVamo d a b p f := by
  have h : encVec 0x1D d a b p f ≠ 0 := ne_zero_of_major (by simp)
  simp only [decode, decodeBase, if_neg h]
  simp

theorem decode_bind (d a b p : BitVec 5) (f : BitVec 6) : decode (encVec 0x1E d a b p f) = decodeBind d a b p f := by
  have h : encVec 0x1E d a b p f ≠ 0 := ne_zero_of_major (by simp)
  simp only [decode, decodeBase, if_neg h]
  simp

theorem decode_matrix (d a b p : BitVec 5) (f : BitVec 6) : decode (encVec 0x1F d a b p f) = decodeMatrix d a b p f := by
  have h : encVec 0x1F d a b p f ≠ 0 := ne_zero_of_major (by simp)
  simp only [decode, decodeBase, if_neg h]
  simp

theorem decode_engine (d a b p : BitVec 5) (f : BitVec 6) : decode (encVec 0x21 d a b p f) = decodeEngine d a b p f := by
  have h : encVec 0x21 d a b p f ≠ 0 := ne_zero_of_major (by simp)
  simp only [decode, decodeBase, if_neg h]
  simp

theorem decode_collective (d a b p : BitVec 5) (f : BitVec 6) : decode (encVec 0x22 d a b p f) = decodeCollective d a b p f := by
  have h : encVec 0x22 d a b p f ≠ 0 := ne_zero_of_major (by simp)
  simp only [decode, decodeBase, if_neg h]
  simp

theorem decode_sync (d a : BitVec 5) (i : BitVec 10) (f : BitVec 6) : decode (encSync 0x20 d a i f) = decodeSync d a i f := by
  have h : encSync 0x20 d a i f ≠ 0 := ne_zero_of_major (by simp)
  simp only [decode, decodeBase, if_neg h]
  simp

/-- A word of major 0x15 that passes the tests of its class (R64). -/
theorem decode_linkInt (d a b p : BitVec 5) (f : BitVec 6) (c : LinkClass) (i : Instr) (hc : linkClassInt f = some c)
    (hr : c.reject d a b p = none) (hi : linkInstrInt d a b p f = some i) : decode (encVec 0x15 d a b p f) = .ok i := by
  have h : encVec 0x15 d a b p f ≠ 0 := ne_zero_of_major (by simp)
  simp only [decode, decodeBase, if_neg h]
  simp [linkReject, hc, hr, hi]

/-- A word of major 0x17 below 0x38 that passes the tests of its class (R64). -/
theorem decode_linkFp (d a b p : BitVec 5) (f : BitVec 6) (c : LinkClass) (i : Instr) (hf : f.toNat < 0x38)
    (hc : linkClassFp f = some c) (hr : c.reject d a b p = none) (hi : linkInstrFp d a b p f = some i) :
    decode (encVec 0x17 d a b p f) = .ok i := by
  have h : encVec 0x17 d a b p f ≠ 0 := ne_zero_of_major (by simp)
  simp only [decode, decodeBase, if_neg h]
  simp [hf, linkReject, hc, hr, hi]

/-- A word of major 0x17 from 0x38 (R66). -/
theorem decode_convert (d a b p : BitVec 5) (f : BitVec 6) (hf : ¬ f.toNat < 0x38) :
    decode (encVec 0x17 d a b p f) = decodeConvert d a b p f := by
  have h : encVec 0x17 d a b p f ≠ 0 := ne_zero_of_major (by simp)
  simp only [decode, decodeBase, if_neg h]
  simp [hf]

end Sys2Proof.Laws
end

