-- ==== Sys2Proof/Laws/Front.lean ====
section
/-! SUPPORT. What the front end does when it runs ahead, and what its turn leaves alone. -/

namespace Sys2Proof.Machine

/-- One more word of the front end: it counts, and the vector queue stays or takes one word more at its end, of the
queue's majors and while there is room (R181). -/
theorem RunAhead.next_cases {x y : RunAhead} (h : x.next = some y) :
    y.words = x.words + 1 ∧
    (y.queue = x.queue ∨
      ∃ w vl vty sb, queueMajor w = true ∧ x.queue.length ≠ queueDepth ∧ y.queue = x.queue ++ [⟨x.words, w, vl, vty, sb⟩]) := by
  unfold RunAhead.next at h
  split at h
  · simp at h
  · next w s _ =>
    split at h
    · simp at h
    · next hg =>
      have room : queueMajor w = true → x.queue.length ≠ queueDepth := fun hq hl => hg (by simp [hq, hl])
      have pushed : ∀ i t, queueMajor w = true → x.push w i s t = y →
          y.words = x.words + 1 ∧ (y.queue = x.queue ∨
            ∃ w vl vty sb, queueMajor w = true ∧ x.queue.length ≠ queueDepth ∧ y.queue = x.queue ++ [⟨x.words, w, vl, vty, sb⟩]) :=
        fun i t hq e => e ▸ ⟨rfl, .inr ⟨w, _, _, _, hq, room hq, rfl⟩⟩
      split at h
      · split at h
        · next hq => exact pushed _ _ hq (by simpa using h)
        · simp at h
      · simp at h
      · split at h
        · split at h
          · simp at h
          · split at h
            · next hq => exact pushed _ _ hq (by simpa using h)
            · simp only [Option.some.injEq] at h
              exact h ▸ ⟨rfl, .inl rfl⟩
        · simp at h
        · split at h
          · next hq => exact pushed _ _ hq (by simpa using h)
          · simp at h

/-- The vector queue never holds more than 32 words (R181). -/
theorem RunAhead.next_depth {x y : RunAhead} (h : x.next = some y) (hx : x.queue.length ≤ queueDepth) :
    y.queue.length ≤ queueDepth := by
  obtain ⟨-, e | ⟨w, vl, vty, sb, -, hl, e⟩⟩ := RunAhead.next_cases h
  · exact e ▸ hx
  · rw [e, List.length_append, List.length_singleton]
    omega

/-- A front end that waits, or has no hart, does nothing. -/
theorem State.runFront_idle {s : State} {h : HartId} (hi : (s.hartAt h).run = .free ∨ s.frontWaits h = true) :
    s.runFront h = s := by
  unfold State.runFront
  rcases hi with hi | hi
  · simp [Hart.placed, hi]
  · obtain ⟨hn, hf⟩ : (s.runAhead h).next = none ∧ (s.runAhead h).flowHere = none := by simpa [State.frontWaits] using hi
    simp [hn, hf]

/-- The turn of a front end that stands at no `flow` changes hart contexts only. -/
theorem State.runFront_only {s : State} {h : HartId} (hf : (s.runAhead h).flowHere = none) :
    s.runFront h = { s with hart := (s.runFront h).hart, parked := (s.runFront h).parked } := by
  unfold State.runFront State.putHart
  simp only [hf]
  split
  · rfl
  · split
    · split
      · rfl
      · split <;> rfl
    · contradiction
    · rfl

end Sys2Proof.Machine
end

