-- ==== Sys2Proof/Laws/Tables.lean ====
section
/-! SUPPORT. Tables by key and memory as data: what is read after a write, and the canonical form that writes keep. -/

namespace Sys2Proof.Machine

/-! ### Tables -/

/-- A record stored is found under its key. -/
@[simp] theorem Tab.find_put_same {α : Type} (t : Tab α) (k : Nat) (x : α) : (t.put k x).find k = some x := by
  induction t with
  | nil => simp [Tab.put, Tab.find]
  | cons c t ih =>
    obtain ⟨j, y⟩ := c
    simp only [Tab.put]
    split
    · simp [Tab.find]
    · split
      · simp [Tab.find]
      · rename_i h; simp [Tab.find, h, ih]

/-- A record stored changes no other key. -/
theorem Tab.find_put_other {α : Type} (t : Tab α) {k j : Nat} (x : α) (h : j ≠ k) : (t.put k x).find j = t.find j := by
  induction t with
  | nil => simp [Tab.put, Tab.find, Ne.symm h]
  | cons c t ih =>
    obtain ⟨i, y⟩ := c
    simp only [Tab.put]
    split
    · simp [Tab.find, Ne.symm h]
    · split
      · rename_i hi; subst hi; simp [Tab.find, Ne.symm h]
      · simp [Tab.find, ih]

/-- A key dropped is absent. -/
@[simp] theorem Tab.find_drop_same {α : Type} (t : Tab α) (k : Nat) : (t.drop k).find k = none := by
  unfold Tab.drop
  induction t with
  | nil => rfl
  | cons c t ih =>
    obtain ⟨j, y⟩ := c
    rw [List.filter_cons]
    split
    · rename_i h; simp at h; simp [Tab.find, h, ih]
    · exact ih

/-- A key dropped leaves the others. -/
theorem Tab.find_drop_other {α : Type} (t : Tab α) {k j : Nat} (h : j ≠ k) : (t.drop k).find j = t.find j := by
  unfold Tab.drop
  induction t with
  | nil => rfl
  | cons c t ih =>
    obtain ⟨i, y⟩ := c
    rw [List.filter_cons]
    split
    · simp [Tab.find, ih]
    · rename_i hi
      simp only [bne_iff_ne, ne_eq, Decidable.not_not] at hi
      subst hi
      simp [Tab.find, Ne.symm h, ih]

@[simp] theorem Tab.getD_put_same {α : Type} (t : Tab α) (k : Nat) (x d : α) : (t.put k x).getD k d = x := by
  simp [Tab.getD]

theorem Tab.getD_put_other {α : Type} (t : Tab α) {k j : Nat} (x d : α) (h : j ≠ k) :
    (t.put k x).getD j d = t.getD j d := by simp [Tab.getD, Tab.find_put_other t x h]

/-! ### Records of the state -/

@[simp] theorem State.core_setCore (s : State) (c : CoreId) (x : Core) : (s.setCore c x).core c = x := by
  simp [State.core, State.setCore]

theorem State.core_setCore_other (s : State) {c e : CoreId} (x : Core) (h : e ≠ c) :
    (s.setCore c x).core e = s.core e := by
  unfold State.core State.setCore
  exact Tab.getD_put_other _ _ _ fun hk => h (BitVec.eq_of_toNat_eq hk)

@[simp] theorem State.die_setDie (s : State) (d : DieId) (x : Die) : (s.setDie d x).die d = x := by
  simp [State.die, State.setDie]

theorem State.die_setDie_other (s : State) {d e : DieId} (x : Die) (h : e ≠ d) : (s.setDie d x).die e = s.die e := by
  unfold State.die State.setDie
  exact Tab.getD_put_other _ _ _ fun hk => h (BitVec.eq_of_toNat_eq hk)

@[simp] theorem State.pkg_setPkg (s : State) (p : PkgId) (x : Pkg) : (s.setPkg p x).pkg p = x := by
  simp [State.pkg, State.setPkg]

theorem State.pkg_setPkg_other (s : State) {p q : PkgId} (x : Pkg) (h : q ≠ p) : (s.setPkg p x).pkg q = s.pkg q := by
  unfold State.pkg State.setPkg
  exact Tab.getD_put_other _ _ _ fun hk => h (BitVec.eq_of_toNat_eq hk)

@[simp] theorem State.team_setTeam (s : State) (x : Team) : (s.setTeam x).team x.id = some x := by
  simp [State.team, State.setTeam]

theorem State.team_setTeam_other (s : State) {x : Team} {t : TeamId} (h : t ≠ x.id) :
    (s.setTeam x).team t = s.team t := by
  unfold State.team State.setTeam
  exact Tab.find_put_other _ _ fun hk => h (BitVec.eq_of_toNat_eq hk)

/-! ### Memory -/

@[simp] theorem memGet_nil (k : Nat) : memGet [] k = emptyByte := rfl

theorem memGet_cons (j : Nat) (y : Byte) (m : List Host.Cell) (k : Nat) :
    memGet ((j, y) :: m) k = if j = k then y else memGet m k := rfl

theorem memGet_memSet_same (m : List Host.Cell) (k : Nat) (x : Byte) : memGet (memSet m k x) k = x := by
  induction m with
  | nil => simp [memSet, memGet_cons]
  | cons c m ih =>
    obtain ⟨j, y⟩ := c
    simp only [memSet]
    split
    · simp [memGet_cons]
    · split
      · simp [memGet_cons]
      · rename_i h; simp [memGet_cons, h, ih]

theorem memGet_memSet_other (m : List Host.Cell) {k j : Nat} (x : Byte) (h : j ≠ k) :
    memGet (memSet m k x) j = memGet m j := by
  induction m with
  | nil => simp [memSet, memGet_cons, Ne.symm h]
  | cons c m ih =>
    obtain ⟨i, y⟩ := c
    simp only [memSet]
    split
    · simp [memGet_cons, Ne.symm h]
    · split
      · rename_i hi; subst hi; simp [memGet_cons, Ne.symm h]
      · simp [memGet_cons, ih]

theorem memGet_filter_same (m : List Host.Cell) (k : Nat) : memGet (m.filter fun c => c.1 != k) k = emptyByte := by
  induction m with
  | nil => rfl
  | cons c m ih =>
    obtain ⟨j, y⟩ := c
    rw [List.filter_cons]
    split
    · rename_i h; simp at h; simp [memGet_cons, h, ih]
    · exact ih

theorem memGet_filter_other (m : List Host.Cell) {k j : Nat} (h : j ≠ k) :
    memGet (m.filter fun c => c.1 != k) j = memGet m j := by
  induction m with
  | nil => rfl
  | cons c m ih =>
    obtain ⟨i, y⟩ := c
    rw [List.filter_cons]
    split
    · simp [memGet_cons, ih]
    · rename_i hi
      simp only [bne_iff_ne, ne_eq, Decidable.not_not] at hi
      subst hi
      simp [memGet_cons, Ne.symm h, ih]

/-- A byte written reads back. -/
@[simp] theorem memGet_memPut_same (m : List Host.Cell) (k : Nat) (x : Byte) : memGet (memPut m k x) k = x := by
  unfold memPut
  split
  · rename_i h; rw [memGet_filter_same, h]
  · exact memGet_memSet_same m k x

/-- A byte written changes no other. -/
theorem memGet_memPut_other (m : List Host.Cell) {k j : Nat} (x : Byte) (h : j ≠ k) :
    memGet (memPut m k x) j = memGet m j := by
  unfold memPut
  split
  · exact memGet_filter_other m h
  · exact memGet_memSet_other m x h

/-! ### The canonical form -/

/-- The canonical form, as a property of the list: addresses rise strictly, and no entry equals an unlisted byte. -/
theorem Memory.wf_iff (m : List Host.Cell) :
    Memory.wf m = true ↔ m.Pairwise (fun a b => a.1 < b.1) ∧ ∀ c ∈ m, c.2 ≠ emptyByte := by
  induction m with
  | nil => simp [Memory.wf]
  | cons c m ih =>
    obtain ⟨j, x⟩ := c
    cases m with
    | nil => simp [Memory.wf]
    | cons d rest =>
      obtain ⟨k, y⟩ := d
      simp only [Memory.wf, Bool.and_eq_true, decide_eq_true_eq, bne_iff_ne, ih, List.pairwise_cons, List.mem_cons]
      constructor
      · rintro ⟨⟨hjk, hx⟩, ⟨hk, hp⟩, hn⟩
        refine ⟨⟨?_, hk, hp⟩, ?_⟩
        · rintro a (rfl | ha)
          · exact hjk
          · exact Nat.lt_trans hjk (hk a ha)
        · rintro a (rfl | ha)
          · exact hx
          · exact hn a ha
      · rintro ⟨⟨hj, hk, hp⟩, hn⟩
        exact ⟨⟨hj (k, y) (.inl rfl), hn (j, x) (.inl rfl)⟩, ⟨hk, hp⟩, fun a ha => hn a (.inr ha)⟩

/-- Part of a canonical memory is canonical. -/
theorem Memory.wf_filter {m : List Host.Cell} (p : Host.Cell → Bool) (h : Memory.wf m = true) :
    Memory.wf (m.filter p) = true := by
  rw [Memory.wf_iff] at h ⊢
  exact ⟨h.1.filter p, fun c hc => h.2 c ((List.mem_filter.mp hc).1)⟩

/-- A key listed after a write is the one written or was listed before. -/
theorem mem_memSet {m : List Host.Cell} {k : Nat} {x : Byte} {c : Host.Cell} (h : c ∈ memSet m k x) : c = (k, x) ∨ c ∈ m := by
  induction m with
  | nil => simp [memSet] at h; exact .inl h
  | cons d m ih =>
    obtain ⟨j, y⟩ := d
    simp only [memSet] at h
    split at h
    · exact (List.mem_cons.mp h)
    · split at h
      · rcases List.mem_cons.mp h with h | h
        · exact .inl h
        · exact .inr (List.mem_cons_of_mem _ h)
      · rcases List.mem_cons.mp h with h | h
        · exact .inr (h ▸ List.mem_cons_self)
        · exact (ih h).imp_right (List.mem_cons_of_mem _)

theorem Memory.wf_memSet {m : List Host.Cell} {k : Nat} {x : Byte} (hx : x ≠ emptyByte) (h : Memory.wf m = true) :
    Memory.wf (memSet m k x) = true := by
  rw [Memory.wf_iff] at h ⊢
  obtain ⟨hp, hn⟩ := h
  refine ⟨?_, fun c hc => (mem_memSet hc).elim (fun e => e ▸ hx) (hn c)⟩
  induction m with
  | nil => simp [memSet]
  | cons d m ih =>
    obtain ⟨j, y⟩ := d
    rw [List.pairwise_cons] at hp
    simp only [memSet]
    split
    · rename_i hkj
      refine List.pairwise_cons.mpr ⟨fun c hc => ?_, List.pairwise_cons.mpr hp⟩
      rcases List.mem_cons.mp hc with rfl | hc
      · exact hkj
      · exact Nat.lt_trans hkj (hp.1 c hc)
    · split
      · rename_i hjk; subst hjk; exact List.pairwise_cons.mpr hp
      · rename_i h1 h2
        refine List.pairwise_cons.mpr ⟨fun c hc => ?_, ih hp.2 fun c hc => hn c (List.mem_cons_of_mem _ hc)⟩
        rcases mem_memSet hc with rfl | hc
        · exact Nat.lt_of_le_of_ne (Nat.le_of_not_lt h1) h2
        · exact hp.1 c hc

/-- A write keeps the canonical form. -/
theorem Memory.wf_memPut {m : List Host.Cell} (k : Nat) (x : Byte) (h : Memory.wf m = true) :
    Memory.wf (memPut m k x) = true := by
  unfold memPut
  split
  · exact Memory.wf_filter _ h
  · rename_i hx; exact Memory.wf_memSet hx h

/-- Writes one after another keep the canonical form. -/
theorem Memory.wf_puts (cs : List Host.Cell) {m : List Host.Cell} (h : Memory.wf m = true) :
    Memory.wf (cs.foldl (fun m c => memPut m c.1 c.2) m) = true := by
  induction cs generalizing m with
  | nil => exact h
  | cons c cs ih => exact ih (Memory.wf_memPut c.1 c.2 h)

/-! ### Stores -/

@[simp] theorem State.writeBack_mem (s : State) (l : Nat) : (s.writeBack l).mem = s.mem := by
  unfold State.writeBack
  simp only []
  split <;> rfl

theorem State.writeBacks_mem (s : State) (ls : List Nat) : (ls.foldl State.writeBack s).mem = s.mem := by
  induction ls generalizing s with
  | nil => rfl
  | cons l ls ih => simp [ih]

@[simp] theorem State.recall_mem (s : State) (ks : List Nat) : (s.recall ks).mem = s.mem := s.writeBacks_mem _

/-- Memory after a store: its bytes put at its homes, one after another. -/
theorem State.store_mem (s : State) (ks : List Nat) (bs : List Byte) :
    (s.store ks bs).mem = (ks.zip bs).foldl (fun m c => memPut m c.1 c.2) s.mem := by
  simp [State.store]

/-- A store keeps the canonical form. -/
theorem State.store_wf {s : State} (ks : List Nat) (bs : List Byte) (h : Memory.wf s.mem = true) :
    Memory.wf (s.store ks bs).mem = true := by
  rw [State.store_mem]
  exact Memory.wf_puts _ h

/-- A store leaves the bytes outside its homes. -/
theorem State.store_byte_other (s : State) (ks : List Nat) (bs : List Byte) {k : Nat} (h : k ∉ ks) :
    (s.store ks bs).byte k = s.byte k := by
  unfold State.byte
  rw [State.store_mem]
  generalize s.mem = m
  induction ks generalizing bs m with
  | nil => simp
  | cons a ks ih =>
    cases bs with
    | nil => simp
    | cons b bs =>
      simp only [List.mem_cons, not_or] at h
      simp only [List.zip_cons_cons, List.foldl_cons]
      rw [ih bs h.2, memGet_memPut_other _ _ h.1]

/-- A store puts its bytes at its homes, when these are different. -/
theorem State.store_bytes (s : State) (ks : List Nat) (bs : List Byte) (hk : ks.Nodup) (hl : bs.length = ks.length) :
    (s.store ks bs).bytes ks = bs := by
  unfold State.bytes State.byte
  rw [State.store_mem]
  generalize s.mem = m
  induction ks generalizing bs m with
  | nil => simpa using hl
  | cons a ks ih =>
    cases bs with
    | nil => simp at hl
    | cons b bs =>
      obtain ⟨ha, hk⟩ := List.nodup_cons.mp hk
      simp only [List.zip_cons_cons, List.foldl_cons, List.map_cons]
      have hother : ∀ (cs : List Nat) (ds : List Byte) (m : List Host.Cell), a ∉ cs →
          memGet ((cs.zip ds).foldl (fun m c => memPut m c.1 c.2) m) a = memGet m a := by
        intro cs
        induction cs with
        | nil => simp
        | cons e cs ihc =>
          intro ds m he
          cases ds with
          | nil => simp
          | cons d ds =>
            simp only [List.mem_cons, not_or] at he
            simp only [List.zip_cons_cons, List.foldl_cons]
            rw [ihc ds _ he.2, memGet_memPut_other _ _ he.1]
      rw [hother ks bs _ ha, memGet_memPut_same, ih bs hk (by simpa using hl)]

end Sys2Proof.Machine
end

