-- ==== Sys2Proof/Laws/Images.lean ====
section
/-! SUPPORT. Physical accesses look at neither memory nor poison, so an image whose words land one by one is written. -/

namespace Sys2Proof.Machine

/-- A physical access looks at neither memory nor poison, and changes nothing. -/
theorem check_physical {s t : State} {how : How} {a : Word} {n : Nat} {p : Place} (m : List Host.Cell)
    (po : Tab (BitVec 10)) (h : how.physical = true)
    (ok : s.check how a n = .ok (p, t)) :
    ({ s with mem := m, poison := po } : State).check how a n = .ok (p, { s with mem := m, poison := po }) := by
  have e1 (p) : State.podSize { s with mem := m, poison := po } p = s.podSize p := rfl
  have e2 (a b) : State.isLost { s with mem := m, poison := po } a b = s.isLost a b := rfl
  have e3 (a b) : State.present { s with mem := m, poison := po } a b = s.present a b := rfl
  have e4 (a b c d e) : State.admits { s with mem := m, poison := po } a b c d e = s.admits a b c d e := rfl
  have e5 (a b c) : State.rowCheck { s with mem := m, poison := po } a b c = s.rowCheck a b c := rfl
  have e6 (a b c d) : State.namesSpace { s with mem := m, poison := po } a b c d = s.namesSpace a b c d := rfl
  revert ok
  simp only [State.check, h, e1, e2, e3, e4, e5, e6, if_true]
  repeat' split
  all_goals first
    | (intro ok; injection ok with ok; injection ok with o; subst o; rfl)
    | (intro ok; injection ok)

/-- A store changes memory and poison alone, where no cache holds a dirty line. -/
theorem store_homes (s : State) (m : List Host.Cell) (po : Tab (BitVec 10)) (ks : List Nat) (bs : List Byte)
    (h : s.dies = []) :
    ∃ m' po', ({ s with mem := m, poison := po } : State).store ks bs = { s with mem := m', poison := po' } := by
  have w (ls : List Nat) : ls.foldl State.writeBack { s with mem := m, poison := po } = { s with mem := m, poison := po } := by
    induction ls with
    | nil => rfl
    | cons l ls ih =>
      rw [List.foldl_cons, show State.writeBack { s with mem := m, poison := po } l = { s with mem := m, poison := po } by
        simp [State.writeBack, State.die, h, Tab.getD, Tab.find]]
      exact ih
  exact ⟨(ks.zip bs).foldl (fun m c => memPut m c.1 c.2) m, clearPoison po ks, by simp only [State.store, State.recall, w]⟩

/-- An image whose words land one by one is written. -/
theorem writeImage_lands (s : State) (h : s.dies = []) : ∀ (ws : List Word) (a : Word) (m : List Host.Cell) (po : Tab (BitVec 10)),
    (∀ i < ws.length, (s.imagePlace true .store (a + BitVec.ofNat 64 (8 * i))).isOk = true) →
    ∃ u, writeImage true a ws { s with mem := m, poison := po } = .ok u := by
  intro ws
  induction ws with
  | nil => exact fun _ _ _ _ => ⟨_, rfl⟩
  | cons w ws ih =>
    intro a m po ok
    have o := ok 0 (by simp)
    simp only [Nat.mul_zero, BitVec.add_zero] at o
    have here : ∃ p, ({ s with mem := m, poison := po } : State).imagePlace true .store a =
        .ok (p, { s with mem := m, poison := po }) := by
      revert o
      simp only [State.imagePlace]
      split
      · exact fun o => absurd o (by simp [Except.isOk, Except.toBool])
      · exact fun o => absurd o (by simp [Except.isOk, Except.toBool])
      · next p t e =>
        rw [show ({ s with mem := m, poison := po } : State).imageHow true .store = s.imageHow true .store from rfl,
          check_physical m po rfl e]
        by_cases g : (p.space == .regs) = true
        · simp [g, Except.isOk, Except.toBool]
        · exact fun _ => ⟨p, by simp [g]⟩
    obtain ⟨p, e⟩ := here
    obtain ⟨m', po', e'⟩ := store_homes s m po p.keys (natToBytes 8 w.toNat) h
    simp only [writeImage, e, e']
    refine ih (a + 8) m' po' fun i l => ?_
    have := ok (i + 1) (by simp; omega)
    rwa [show a + BitVec.ofNat 64 (8 * (i + 1)) = a + 8 + BitVec.ofNat 64 (8 * i) by
      rw [Nat.mul_add, BitVec.ofNat_add, BitVec.add_assoc, BitVec.add_comm (8 : Word)]; rfl] at this

end Sys2Proof.Machine
end

