-- ==== Sys2Proof/Laws/PerInstr.lean ====
section
/-! SUPPORT. The round trip of the encoding, instruction by instruction. -/

set_option Elab.async false
set_option linter.unusedSimpArgs false

namespace Sys2Proof.Laws.RoundTrip

/-- The word of a well-formed instruction decodes to that instruction, with every operand at every value its encoding
admits (R49 to R70). An event has no word. -/
def Statement (i : Instr) : Prop := ∀ w, encode i = some w → i.wellFormed = true → decode w = .ok i

/-- An instruction with a word. -/
theorem ofWord {i : Instr} {w : BitVec 32} (he : encode i = some w) (h : i.wellFormed = true → decode w = .ok i) :
    Statement i := by
  intro w' he' hw
  rw [he] at he'
  cases he'
  exact h hw

/-- An event. -/
theorem ofEvent {i : Instr} (he : encode i = none) : Statement i := by
  intro w h
  rw [he] at h
  cases h

theorem add (d a b : SReg) : Statement (.add d a b) := ofWord rfl fun hw => by
  delta Instr.wellFormed at hw
  rw [decode_alu]
  simp_all [decodeAlu, zeros, legal, values, preds, narrow, narrow3_lt, narrow4_lt, extract_first, extract_last, extract_mid]
theorem sub (d a b : SReg) : Statement (.sub d a b) := ofWord rfl fun hw => by
  delta Instr.wellFormed at hw
  rw [decode_alu]
  simp_all [decodeAlu, zeros, legal, values, preds, narrow, narrow3_lt, narrow4_lt, extract_first, extract_last, extract_mid]
theorem mul (d a b : SReg) : Statement (.mul d a b) := ofWord rfl fun hw => by
  delta Instr.wellFormed at hw
  rw [decode_alu]
  simp_all [decodeAlu, zeros, legal, values, preds, narrow, narrow3_lt, narrow4_lt, extract_first, extract_last, extract_mid]
theorem mulh (d a b : SReg) : Statement (.mulh d a b) := ofWord rfl fun hw => by
  delta Instr.wellFormed at hw
  rw [decode_alu]
  simp_all [decodeAlu, zeros, legal, values, preds, narrow, narrow3_lt, narrow4_lt, extract_first, extract_last, extract_mid]
theorem mulhn (d a b : SReg) : Statement (.mulhn d a b) := ofWord rfl fun hw => by
  delta Instr.wellFormed at hw
  rw [decode_alu]
  simp_all [decodeAlu, zeros, legal, values, preds, narrow, narrow3_lt, narrow4_lt, extract_first, extract_last, extract_mid]
theorem div (d a b : SReg) : Statement (.div d a b) := ofWord rfl fun hw => by
  delta Instr.wellFormed at hw
  rw [decode_alu]
  simp_all [decodeAlu, zeros, legal, values, preds, narrow, narrow3_lt, narrow4_lt, extract_first, extract_last, extract_mid]
theorem divn (d a b : SReg) : Statement (.divn d a b) := ofWord rfl fun hw => by
  delta Instr.wellFormed at hw
  rw [decode_alu]
  simp_all [decodeAlu, zeros, legal, values, preds, narrow, narrow3_lt, narrow4_lt, extract_first, extract_last, extract_mid]
theorem rem (d a b : SReg) : Statement (.rem d a b) := ofWord rfl fun hw => by
  delta Instr.wellFormed at hw
  rw [decode_alu]
  simp_all [decodeAlu, zeros, legal, values, preds, narrow, narrow3_lt, narrow4_lt, extract_first, extract_last, extract_mid]
theorem remn (d a b : SReg) : Statement (.remn d a b) := ofWord rfl fun hw => by
  delta Instr.wellFormed at hw
  rw [decode_alu]
  simp_all [decodeAlu, zeros, legal, values, preds, narrow, narrow3_lt, narrow4_lt, extract_first, extract_last, extract_mid]
theorem and (d a b : SReg) : Statement (.and d a b) := ofWord rfl fun hw => by
  delta Instr.wellFormed at hw
  rw [decode_alu]
  simp_all [decodeAlu, zeros, legal, values, preds, narrow, narrow3_lt, narrow4_lt, extract_first, extract_last, extract_mid]
theorem or (d a b : SReg) : Statement (.or d a b) := ofWord rfl fun hw => by
  delta Instr.wellFormed at hw
  rw [decode_alu]
  simp_all [decodeAlu, zeros, legal, values, preds, narrow, narrow3_lt, narrow4_lt, extract_first, extract_last, extract_mid]
theorem xor (d a b : SReg) : Statement (.xor d a b) := ofWord rfl fun hw => by
  delta Instr.wellFormed at hw
  rw [decode_alu]
  simp_all [decodeAlu, zeros, legal, values, preds, narrow, narrow3_lt, narrow4_lt, extract_first, extract_last, extract_mid]
theorem andn (d a b : SReg) : Statement (.andn d a b) := ofWord rfl fun hw => by
  delta Instr.wellFormed at hw
  rw [decode_alu]
  simp_all [decodeAlu, zeros, legal, values, preds, narrow, narrow3_lt, narrow4_lt, extract_first, extract_last, extract_mid]
theorem shl (d a b : SReg) : Statement (.shl d a b) := ofWord rfl fun hw => by
  delta Instr.wellFormed at hw
  rw [decode_alu]
  simp_all [decodeAlu, zeros, legal, values, preds, narrow, narrow3_lt, narrow4_lt, extract_first, extract_last, extract_mid]
theorem shr (d a b : SReg) : Statement (.shr d a b) := ofWord rfl fun hw => by
  delta Instr.wellFormed at hw
  rw [decode_alu]
  simp_all [decodeAlu, zeros, legal, values, preds, narrow, narrow3_lt, narrow4_lt, extract_first, extract_last, extract_mid]
theorem sra (d a b : SReg) : Statement (.sra d a b) := ofWord rfl fun hw => by
  delta Instr.wellFormed at hw
  rw [decode_alu]
  simp_all [decodeAlu, zeros, legal, values, preds, narrow, narrow3_lt, narrow4_lt, extract_first, extract_last, extract_mid]
theorem rol (d a b : SReg) : Statement (.rol d a b) := ofWord rfl fun hw => by
  delta Instr.wellFormed at hw
  rw [decode_alu]
  simp_all [decodeAlu, zeros, legal, values, preds, narrow, narrow3_lt, narrow4_lt, extract_first, extract_last, extract_mid]
theorem slt (d a b : SReg) : Statement (.slt d a b) := ofWord rfl fun hw => by
  delta Instr.wellFormed at hw
  rw [decode_alu]
  simp_all [decodeAlu, zeros, legal, values, preds, narrow, narrow3_lt, narrow4_lt, extract_first, extract_last, extract_mid]
theorem sltn (d a b : SReg) : Statement (.sltn d a b) := ofWord rfl fun hw => by
  delta Instr.wellFormed at hw
  rw [decode_alu]
  simp_all [decodeAlu, zeros, legal, values, preds, narrow, narrow3_lt, narrow4_lt, extract_first, extract_last, extract_mid]
theorem min (d a b : SReg) : Statement (.min d a b) := ofWord rfl fun hw => by
  delta Instr.wellFormed at hw
  rw [decode_alu]
  simp_all [decodeAlu, zeros, legal, values, preds, narrow, narrow3_lt, narrow4_lt, extract_first, extract_last, extract_mid]
theorem max (d a b : SReg) : Statement (.max d a b) := ofWord rfl fun hw => by
  delta Instr.wellFormed at hw
  rw [decode_alu]
  simp_all [decodeAlu, zeros, legal, values, preds, narrow, narrow3_lt, narrow4_lt, extract_first, extract_last, extract_mid]
theorem minn (d a b : SReg) : Statement (.minn d a b) := ofWord rfl fun hw => by
  delta Instr.wellFormed at hw
  rw [decode_alu]
  simp_all [decodeAlu, zeros, legal, values, preds, narrow, narrow3_lt, narrow4_lt, extract_first, extract_last, extract_mid]
theorem maxn (d a b : SReg) : Statement (.maxn d a b) := ofWord rfl fun hw => by
  delta Instr.wellFormed at hw
  rw [decode_alu]
  simp_all [decodeAlu, zeros, legal, values, preds, narrow, narrow3_lt, narrow4_lt, extract_first, extract_last, extract_mid]
theorem clz (d a : SReg) : Statement (.clz d a) := ofWord rfl fun hw => by
  delta Instr.wellFormed at hw
  rw [decode_alu]
  simp_all [decodeAlu, zeros, legal, values, preds, narrow, narrow3_lt, narrow4_lt, extract_first, extract_last, extract_mid]
theorem ctz (d a : SReg) : Statement (.ctz d a) := ofWord rfl fun hw => by
  delta Instr.wellFormed at hw
  rw [decode_alu]
  simp_all [decodeAlu, zeros, legal, values, preds, narrow, narrow3_lt, narrow4_lt, extract_first, extract_last, extract_mid]
theorem popc (d a : SReg) : Statement (.popc d a) := ofWord rfl fun hw => by
  delta Instr.wellFormed at hw
  rw [decode_alu]
  simp_all [decodeAlu, zeros, legal, values, preds, narrow, narrow3_lt, narrow4_lt, extract_first, extract_last, extract_mid]
theorem sext (d a : SReg) (w : ExtW) : Statement (.sext d a w) := ofWord rfl fun hw => by
  delta Instr.wellFormed at hw
  rw [decode_alu]
  simp_all [decodeAlu, zeros, legal, values, preds, narrow, narrow3_lt, narrow4_lt, extract_first, extract_last, extract_mid]
theorem zext (d a : SReg) (w : ExtW) : Statement (.zext d a w) := ofWord rfl fun hw => by
  delta Instr.wellFormed at hw
  rw [decode_alu]
  simp_all [decodeAlu, zeros, legal, values, preds, narrow, narrow3_lt, narrow4_lt, extract_first, extract_last, extract_mid]
theorem sel (d a b : SReg) : Statement (.sel d a b) := ofWord rfl fun hw => by
  delta Instr.wellFormed at hw
  rw [decode_alu]
  simp_all [decodeAlu, zeros, legal, values, preds, narrow, narrow3_lt, narrow4_lt, extract_first, extract_last, extract_mid]
theorem addi (d a : SReg) (i : BitVec 16) : Statement (.addi d a i) := ofWord rfl fun _ => decode_addi ..
theorem andi (d a : SReg) (i : BitVec 16) : Statement (.andi d a i) := ofWord rfl fun _ => decode_andi ..
theorem ori (d a : SReg) (i : BitVec 16) : Statement (.ori d a i) := ofWord rfl fun _ => decode_ori ..
theorem xori (d a : SReg) (i : BitVec 16) : Statement (.xori d a i) := ofWord rfl fun _ => decode_xori ..
theorem shli (d a : SReg) (n : BitVec 6) : Statement (.shli d a n) := ofWord rfl fun hw => by
  delta Instr.wellFormed at hw
  rw [decode_shift]
  simp only [decodeShift, Scope.ofBits_toBits, extract_first, extract_last, extract_mid, extract_top, extract_cut]
  simp_all [decodeShift, zeros, legal, values, preds, narrow, narrow3_lt, narrow4_lt, extract_first, extract_last, extract_mid]
theorem shri (d a : SReg) (n : BitVec 6) : Statement (.shri d a n) := ofWord rfl fun hw => by
  delta Instr.wellFormed at hw
  rw [decode_shift]
  simp only [decodeShift, Scope.ofBits_toBits, extract_first, extract_last, extract_mid, extract_top, extract_cut]
  simp_all [decodeShift, zeros, legal, values, preds, narrow, narrow3_lt, narrow4_lt, extract_first, extract_last, extract_mid]
theorem srai (d a : SReg) (n : BitVec 6) : Statement (.srai d a n) := ofWord rfl fun hw => by
  delta Instr.wellFormed at hw
  rw [decode_shift]
  simp only [decodeShift, Scope.ofBits_toBits, extract_first, extract_last, extract_mid, extract_top, extract_cut]
  simp_all [decodeShift, zeros, legal, values, preds, narrow, narrow3_lt, narrow4_lt, extract_first, extract_last, extract_mid]
theorem slti (d a : SReg) (i : BitVec 16) : Statement (.slti d a i) := ofWord rfl fun _ => decode_slti ..
theorem kset (d : SReg) (h : BitVec 2) (i : BitVec 16) : Statement (.kset d h i) := ofWord rfl fun hw => by
  delta Instr.wellFormed at hw
  rw [decode_const]
  simp only [decodeConst, extract_last, extract_top, field_k]
  rfl
theorem kins (d : SReg) (h : BitVec 2) (i : BitVec 16) : Statement (.kins d h i) := ofWord rfl fun hw => by
  delta Instr.wellFormed at hw
  rw [decode_const]
  simp only [decodeConst, extract_last, extract_top, field_k]
  rfl
theorem ld (d a : SReg) (t : LdTy) (o : BitVec 13) : Statement (.ld d a t o) := ofWord rfl fun hw => by
  delta Instr.wellFormed at hw
  rw [decode_ld]
  simp_all [zeros, legal, values, preds, narrow, narrow3_lt, narrow4_lt, extract_first, extract_last, extract_mid]
theorem st (d a : SReg) (w : StW) (o : BitVec 13) : Statement (.st d a w o) := ofWord rfl fun hw => by
  delta Instr.wellFormed at hw
  rw [decode_st]
  simp_all [zeros, legal, values, preds, narrow, narrow3_lt, narrow4_lt, extract_first, extract_last, extract_mid]
theorem amo (d a b : SReg) (t : AmoTy) (op : AmoOp) : Statement (.amo d a b t op) := ofWord rfl fun hw => by
  delta Instr.wellFormed at hw
  rw [decode_amo]
  cases t <;> cases op <;> first | rfl | cases hw
theorem cln (a : SReg) : Statement (.cln a) := ofWord rfl fun hw => by
  delta Instr.wellFormed at hw
  rw [decode_amo]
  simp_all [decodeAmo, zeros, legal, values, preds, narrow, narrow3_lt, narrow4_lt, extract_first, extract_last, extract_mid]
theorem inv (a : SReg) : Statement (.inv a) := ofWord rfl fun hw => by
  delta Instr.wellFormed at hw
  rw [decode_amo]
  simp_all [decodeAmo, zeros, legal, values, preds, narrow, narrow3_lt, narrow4_lt, extract_first, extract_last, extract_mid]
theorem beq (d a : SReg) (o : BitVec 13) : Statement (.beq d a o) := ofWord rfl fun hw => by
  delta Instr.wellFormed at hw
  rw [decode_branch]
  simp_all [decodeBranch, zeros, legal, values, preds, narrow, narrow3_lt, narrow4_lt, extract_first, extract_last, extract_mid]
theorem bne (d a : SReg) (o : BitVec 13) : Statement (.bne d a o) := ofWord rfl fun hw => by
  delta Instr.wellFormed at hw
  rw [decode_branch]
  simp_all [decodeBranch, zeros, legal, values, preds, narrow, narrow3_lt, narrow4_lt, extract_first, extract_last, extract_mid]
theorem blt (d a : SReg) (o : BitVec 13) : Statement (.blt d a o) := ofWord rfl fun hw => by
  delta Instr.wellFormed at hw
  rw [decode_branch]
  simp_all [decodeBranch, zeros, legal, values, preds, narrow, narrow3_lt, narrow4_lt, extract_first, extract_last, extract_mid]
theorem bge (d a : SReg) (o : BitVec 13) : Statement (.bge d a o) := ofWord rfl fun hw => by
  delta Instr.wellFormed at hw
  rw [decode_branch]
  simp_all [decodeBranch, zeros, legal, values, preds, narrow, narrow3_lt, narrow4_lt, extract_first, extract_last, extract_mid]
theorem bltn (d a : SReg) (o : BitVec 13) : Statement (.bltn d a o) := ofWord rfl fun hw => by
  delta Instr.wellFormed at hw
  rw [decode_branch]
  simp_all [decodeBranch, zeros, legal, values, preds, narrow, narrow3_lt, narrow4_lt, extract_first, extract_last, extract_mid]
theorem bgen (d a : SReg) (o : BitVec 13) : Statement (.bgen d a o) := ofWord rfl fun hw => by
  delta Instr.wellFormed at hw
  rw [decode_branch]
  simp_all [decodeBranch, zeros, legal, values, preds, narrow, narrow3_lt, narrow4_lt, extract_first, extract_last, extract_mid]
theorem jal (d : SReg) (o : BitVec 21) : Statement (.jal d o) := ofWord rfl fun _ => decode_jal ..
theorem jalr (d a : SReg) (i : BitVec 16) : Statement (.jalr d a i) := ofWord rfl fun _ => decode_jalr ..
theorem smine (d a : SReg) (n : BitVec 3) (o : BitVec 13) : Statement (.smine d a n o) := ofWord rfl fun hw => by
  delta Instr.wellFormed at hw
  rw [decode_smine]
  simp_all [zeros, legal, values, preds, narrow, narrow3_lt, narrow4_lt, extract_first, extract_last, extract_mid]
theorem zol (a : SReg) (l : BitVec 5) : Statement (.zol a l) := ofWord rfl fun hw => by
  delta Instr.wellFormed at hw
  rw [decode_zol]
  simp_all [zeros, legal, values, preds, narrow, narrow3_lt, narrow4_lt, extract_first, extract_last, extract_mid]
theorem fadd (d a b : SReg) (f : FFmt) : Statement (.fadd d a b f) := ofWord rfl fun hw => by
  delta Instr.wellFormed at hw
  rw [decode_fp]
  cases f <;> first | rfl | cases hw
theorem fsub (d a b : SReg) (f : FFmt) : Statement (.fsub d a b f) := ofWord rfl fun hw => by
  delta Instr.wellFormed at hw
  rw [decode_fp]
  cases f <;> first | rfl | cases hw
theorem fmul (d a b : SReg) (f : FFmt) : Statement (.fmul d a b f) := ofWord rfl fun hw => by
  delta Instr.wellFormed at hw
  rw [decode_fp]
  cases f <;> first | rfl | cases hw
theorem ffma (d a b : SReg) (f : FFmt) : Statement (.ffma d a b f) := ofWord rfl fun hw => by
  delta Instr.wellFormed at hw
  rw [decode_fp]
  cases f <;> first | rfl | cases hw
theorem fdiv (d a b : SReg) (f : FFmt) : Statement (.fdiv d a b f) := ofWord rfl fun hw => by
  delta Instr.wellFormed at hw
  rw [decode_fp]
  cases f <;> first | rfl | cases hw
theorem fsqrt (d a : SReg) (f : FFmt) : Statement (.fsqrt d a f) := ofWord rfl fun hw => by
  delta Instr.wellFormed at hw
  rw [decode_fp]
  cases f <;> first | rfl | cases hw
theorem fmin (d a b : SReg) (f : FFmt) : Statement (.fmin d a b f) := ofWord rfl fun hw => by
  delta Instr.wellFormed at hw
  rw [decode_fp]
  cases f <;> first | rfl | cases hw
theorem fmax (d a b : SReg) (f : FFmt) : Statement (.fmax d a b f) := ofWord rfl fun hw => by
  delta Instr.wellFormed at hw
  rw [decode_fp]
  cases f <;> first | rfl | cases hw
theorem fcmp (d a b : SReg) (f : FFmt) (r : FRel) : Statement (.fcmp d a b f r) := ofWord rfl fun hw => by
  delta Instr.wellFormed at hw
  rw [decode_fp]
  cases f <;> cases r <;> first | rfl | cases hw
theorem fcvt (d a : SReg) (dst src : CvtTy) : Statement (.fcvt d a dst src) := ofWord rfl fun hw => by
  delta Instr.wellFormed at hw
  rw [decode_fp]
  cases dst <;> cases src <;> first | rfl | cases hw
theorem fmv (d a : SReg) (f : FFmt) : Statement (.fmv d a f) := ofWord rfl fun hw => by
  delta Instr.wellFormed at hw
  rw [decode_fp]
  cases f <;> first | rfl | cases hw
theorem csrr (d : SReg) (c : Csr) : Statement (.csrr d c) := ofWord rfl fun hw => by
  delta Instr.wellFormed at hw
  rw [decode_system]
  simp_all [decodeSystem, zeros, legal, values, preds, narrow, narrow3_lt, narrow4_lt, extract_first, extract_last, extract_mid]
theorem csrw (d : SReg) (c : Csr) : Statement (.csrw d c) := ofWord rfl fun hw => by
  delta Instr.wellFormed at hw
  rw [decode_system]
  simp_all [decodeSystem, zeros, legal, values, preds, narrow, narrow3_lt, narrow4_lt, extract_first, extract_last, extract_mid]
theorem csrs (d : SReg) (c : Csr) : Statement (.csrs d c) := ofWord rfl fun hw => by
  delta Instr.wellFormed at hw
  rw [decode_system]
  simp_all [decodeSystem, zeros, legal, values, preds, narrow, narrow3_lt, narrow4_lt, extract_first, extract_last, extract_mid]
theorem csrc (d : SReg) (c : Csr) : Statement (.csrc d c) := ofWord rfl fun hw => by
  delta Instr.wellFormed at hw
  rw [decode_system]
  simp_all [decodeSystem, zeros, legal, values, preds, narrow, narrow3_lt, narrow4_lt, extract_first, extract_last, extract_mid]
theorem sys (n : BitVec 16) : Statement (.sys n) := ofWord rfl fun hw => by
  delta Instr.wellFormed at hw
  rw [decode_system]
  simp_all [decodeSystem, zeros, legal, values, preds, narrow, narrow3_lt, narrow4_lt, extract_first, extract_last, extract_mid]
theorem bkpt (n : BitVec 16) : Statement (.bkpt n) := ofWord rfl fun hw => by
  delta Instr.wellFormed at hw
  rw [decode_system]
  simp_all [decodeSystem, zeros, legal, values, preds, narrow, narrow3_lt, narrow4_lt, extract_first, extract_last, extract_mid]
theorem eret : Statement .eret := ofWord rfl fun hw => by
  delta Instr.wellFormed at hw
  rw [decode_system]
  simp_all [decodeSystem, zeros, legal, values, preds, narrow, narrow3_lt, narrow4_lt, extract_first, extract_last, extract_mid]
theorem wfi : Statement .wfi := ofWord rfl fun hw => by
  delta Instr.wellFormed at hw
  rw [decode_system]
  simp_all [decodeSystem, zeros, legal, values, preds, narrow, narrow3_lt, narrow4_lt, extract_first, extract_last, extract_mid]
theorem fence (k : BitVec 7) (sc : Scope) : Statement (.fence k sc) := ofWord rfl fun hw => by
  delta Instr.wellFormed at hw
  rw [decode_system]
  simp only [decodeSystem, Scope.ofBits_toBits, extract_first, extract_last, extract_mid, extract_top, extract_cut]
  simp_all [decodeSystem, zeros, legal, values, preds, narrow, narrow3_lt, narrow4_lt, extract_first, extract_last, extract_mid]
theorem tick (d : SReg) : Statement (.tick d) := ofWord rfl fun hw => by
  delta Instr.wellFormed at hw
  rw [decode_system]
  simp_all [decodeSystem, zeros, legal, values, preds, narrow, narrow3_lt, narrow4_lt, extract_first, extract_last, extract_mid]
theorem tlbiPage (d : SReg) : Statement (.tlbiPage d) := ofWord rfl fun hw => by
  delta Instr.wellFormed at hw
  rw [decode_system]
  simp_all [decodeSystem, zeros, legal, values, preds, narrow, narrow3_lt, narrow4_lt, extract_first, extract_last, extract_mid]
theorem tlbiAsid (d : SReg) : Statement (.tlbiAsid d) := ofWord rfl fun hw => by
  delta Instr.wellFormed at hw
  rw [decode_system]
  simp_all [decodeSystem, zeros, legal, values, preds, narrow, narrow3_lt, narrow4_lt, extract_first, extract_last, extract_mid]
theorem tlbiAll (d : SReg) : Statement (.tlbiAll d) := ofWord rfl fun hw => by
  delta Instr.wellFormed at hw
  rw [decode_system]
  simp_all [decodeSystem, zeros, legal, values, preds, narrow, narrow3_lt, narrow4_lt, extract_first, extract_last, extract_mid]
theorem ifl : Statement .ifl := ofWord rfl fun hw => by
  delta Instr.wellFormed at hw
  rw [decode_system]
  simp_all [decodeSystem, zeros, legal, values, preds, narrow, narrow3_lt, narrow4_lt, extract_first, extract_last, extract_mid]
theorem ctxsv (d : SReg) : Statement (.ctxsv d) := ofWord rfl fun hw => by
  delta Instr.wellFormed at hw
  rw [decode_system]
  simp_all [decodeSystem, zeros, legal, values, preds, narrow, narrow3_lt, narrow4_lt, extract_first, extract_last, extract_mid]
theorem ctxld (d : SReg) : Statement (.ctxld d) := ofWord rfl fun hw => by
  delta Instr.wellFormed at hw
  rw [decode_system]
  simp_all [decodeSystem, zeros, legal, values, preds, narrow, narrow3_lt, narrow4_lt, extract_first, extract_last, extract_mid]
theorem flow (d : SReg) (c : BitVec 4) : Statement (.flow d c) := ofWord rfl fun hw => by
  delta Instr.wellFormed at hw
  rw [decode_system]
  simp only [decodeSystem, Scope.ofBits_toBits, extract_first, extract_last, extract_mid, extract_top, extract_cut]
  simp_all [decodeSystem, zeros, legal, values, preds, narrow, narrow3_lt, narrow4_lt, extract_first, extract_last, extract_mid]
theorem setvl (d a : SReg) : Statement (.setvl d a) := ofWord rfl fun hw => by
  delta Instr.wellFormed at hw
  rw [decode_config]
  simp_all [decodeConfig, zeros, legal, values, preds, narrow, narrow3_lt, narrow4_lt, extract_first, extract_last, extract_mid]
theorem setvt (d a : SReg) : Statement (.setvt d a) := ofWord rfl fun hw => by
  delta Instr.wellFormed at hw
  rw [decode_config]
  simp_all [decodeConfig, zeros, legal, values, preds, narrow, narrow3_lt, narrow4_lt, extract_first, extract_last, extract_mid]
theorem settl (d a : SReg) : Statement (.settl d a) := ofWord rfl fun hw => by
  delta Instr.wellFormed at hw
  rw [decode_config]
  simp_all [decodeConfig, zeros, legal, values, preds, narrow, narrow3_lt, narrow4_lt, extract_first, extract_last, extract_mid]
theorem vadd (d a b : VReg) (p : PSel) : Statement (.vadd d a b p) := ofWord rfl fun hw => (decode_vint ..).trans (if_pos hw)
theorem vsub (d a b : VReg) (p : PSel) : Statement (.vsub d a b p) := ofWord rfl fun hw => (decode_vint ..).trans (if_pos hw)
theorem vmul (d a b : VReg) (p : PSel) : Statement (.vmul d a b p) := ofWord rfl fun hw => (decode_vint ..).trans (if_pos hw)
theorem vmulh (d a b : VReg) (p : PSel) : Statement (.vmulh d a b p) := ofWord rfl fun hw => (decode_vint ..).trans (if_pos hw)
theorem vmulhn (d a b : VReg) (p : PSel) : Statement (.vmulhn d a b p) := ofWord rfl fun hw => (decode_vint ..).trans (if_pos hw)
theorem vmac (d a b : VReg) (p : PSel) : Statement (.vmac d a b p) := ofWord rfl fun hw => (decode_vint ..).trans (if_pos hw)
theorem vdiv (d a b : VReg) (p : PSel) : Statement (.vdiv d a b p) := ofWord rfl fun hw => (decode_vint ..).trans (if_pos hw)
theorem vdivn (d a b : VReg) (p : PSel) : Statement (.vdivn d a b p) := ofWord rfl fun hw => (decode_vint ..).trans (if_pos hw)
theorem vrem (d a b : VReg) (p : PSel) : Statement (.vrem d a b p) := ofWord rfl fun hw => (decode_vint ..).trans (if_pos hw)
theorem vremn (d a b : VReg) (p : PSel) : Statement (.vremn d a b p) := ofWord rfl fun hw => (decode_vint ..).trans (if_pos hw)
theorem vmin (d a b : VReg) (p : PSel) : Statement (.vmin d a b p) := ofWord rfl fun hw => (decode_vint ..).trans (if_pos hw)
theorem vminn (d a b : VReg) (p : PSel) : Statement (.vminn d a b p) := ofWord rfl fun hw => (decode_vint ..).trans (if_pos hw)
theorem vmax (d a b : VReg) (p : PSel) : Statement (.vmax d a b p) := ofWord rfl fun hw => (decode_vint ..).trans (if_pos hw)
theorem vmaxn (d a b : VReg) (p : PSel) : Statement (.vmaxn d a b p) := ofWord rfl fun hw => (decode_vint ..).trans (if_pos hw)
theorem vand (d a b : VReg) (p : PSel) : Statement (.vand d a b p) := ofWord rfl fun hw => (decode_vint ..).trans (if_pos hw)
theorem vor (d a b : VReg) (p : PSel) : Statement (.vor d a b p) := ofWord rfl fun hw => (decode_vint ..).trans (if_pos hw)
theorem vxor (d a b : VReg) (p : PSel) : Statement (.vxor d a b p) := ofWord rfl fun hw => (decode_vint ..).trans (if_pos hw)
theorem vandn (d a b : VReg) (p : PSel) : Statement (.vandn d a b p) := ofWord rfl fun hw => (decode_vint ..).trans (if_pos hw)
theorem vshl (d a b : VReg) (p : PSel) : Statement (.vshl d a b p) := ofWord rfl fun hw => (decode_vint ..).trans (if_pos hw)
theorem vshr (d a b : VReg) (p : PSel) : Statement (.vshr d a b p) := ofWord rfl fun hw => (decode_vint ..).trans (if_pos hw)
theorem vsra (d a b : VReg) (p : PSel) : Statement (.vsra d a b p) := ofWord rfl fun hw => (decode_vint ..).trans (if_pos hw)
theorem vadds (d a b : VReg) (p : PSel) : Statement (.vadds d a b p) := ofWord rfl fun hw => (decode_vint ..).trans (if_pos hw)
theorem vaddsn (d a b : VReg) (p : PSel) : Statement (.vaddsn d a b p) := ofWord rfl fun hw => (decode_vint ..).trans (if_pos hw)
theorem vsubs (d a b : VReg) (p : PSel) : Statement (.vsubs d a b p) := ofWord rfl fun hw => (decode_vint ..).trans (if_pos hw)
theorem vsubsn (d a b : VReg) (p : PSel) : Statement (.vsubsn d a b p) := ofWord rfl fun hw => (decode_vint ..).trans (if_pos hw)
theorem vabs (d a : VReg) (p : PSel) : Statement (.vabs d a p) := ofWord rfl fun hw => by
  delta Instr.wellFormed at hw
  rw [decode_vint]
  simp_all [decodeVInt, zeros, legal, values, preds, narrow, narrow3_lt, narrow4_lt, extract_first, extract_last, extract_mid]
theorem vneg (d a : VReg) (p : PSel) : Statement (.vneg d a p) := ofWord rfl fun hw => by
  delta Instr.wellFormed at hw
  rw [decode_vint]
  simp_all [decodeVInt, zeros, legal, values, preds, narrow, narrow3_lt, narrow4_lt, extract_first, extract_last, extract_mid]
theorem vclz (d a : VReg) (p : PSel) : Statement (.vclz d a p) := ofWord rfl fun hw => by
  delta Instr.wellFormed at hw
  rw [decode_vint]
  simp_all [decodeVInt, zeros, legal, values, preds, narrow, narrow3_lt, narrow4_lt, extract_first, extract_last, extract_mid]
theorem vpopc (d a : VReg) (p : PSel) : Statement (.vpopc d a p) := ofWord rfl fun hw => by
  delta Instr.wellFormed at hw
  rw [decode_vint]
  simp_all [decodeVInt, zeros, legal, values, preds, narrow, narrow3_lt, narrow4_lt, extract_first, extract_last, extract_mid]
theorem vcmpEq (d : PReg) (a b : VReg) (p : PSel) : Statement (.vcmpEq d a b p) := ofWord rfl fun hw => (decode_vint ..).trans (if_pos hw)
theorem vcmpNe (d : PReg) (a b : VReg) (p : PSel) : Statement (.vcmpNe d a b p) := ofWord rfl fun hw => (decode_vint ..).trans (if_pos hw)
theorem vcmpLt (d : PReg) (a b : VReg) (p : PSel) : Statement (.vcmpLt d a b p) := ofWord rfl fun hw => (decode_vint ..).trans (if_pos hw)
theorem vcmpGe (d : PReg) (a b : VReg) (p : PSel) : Statement (.vcmpGe d a b p) := ofWord rfl fun hw => (decode_vint ..).trans (if_pos hw)
theorem vcmpLtn (d : PReg) (a b : VReg) (p : PSel) : Statement (.vcmpLtn d a b p) := ofWord rfl fun hw => (decode_vint ..).trans (if_pos hw)
theorem vcmpGen (d : PReg) (a b : VReg) (p : PSel) : Statement (.vcmpGen d a b p) := ofWord rfl fun hw => (decode_vint ..).trans (if_pos hw)
theorem vsel (d a b : VReg) (p : PSel) : Statement (.vsel d a b p) := ofWord rfl fun hw => (decode_vint ..).trans (if_pos hw)
theorem vfadd (d a b : VReg) (p : PSel) : Statement (.vfadd d a b p) := ofWord rfl fun hw => (decode_vfp ..).trans (if_pos hw)
theorem vfsub (d a b : VReg) (p : PSel) : Statement (.vfsub d a b p) := ofWord rfl fun hw => (decode_vfp ..).trans (if_pos hw)
theorem vfmul (d a b : VReg) (p : PSel) : Statement (.vfmul d a b p) := ofWord rfl fun hw => (decode_vfp ..).trans (if_pos hw)
theorem vffma (d a b : VReg) (p : PSel) : Statement (.vffma d a b p) := ofWord rfl fun hw => (decode_vfp ..).trans (if_pos hw)
theorem vffms (d a b : VReg) (p : PSel) : Statement (.vffms d a b p) := ofWord rfl fun hw => (decode_vfp ..).trans (if_pos hw)
theorem vfnma (d a b : VReg) (p : PSel) : Statement (.vfnma d a b p) := ofWord rfl fun hw => (decode_vfp ..).trans (if_pos hw)
theorem vfdiv (d a b : VReg) (p : PSel) : Statement (.vfdiv d a b p) := ofWord rfl fun hw => (decode_vfp ..).trans (if_pos hw)
theorem vfsqrt (d a : VReg) (p : PSel) : Statement (.vfsqrt d a p) := ofWord rfl fun hw => by
  delta Instr.wellFormed at hw
  rw [decode_vfp]
  simp_all [decodeVFp, zeros, legal, values, preds, narrow, narrow3_lt, narrow4_lt, extract_first, extract_last, extract_mid]
theorem vfrsqa (d a : VReg) (p : PSel) : Statement (.vfrsqa d a p) := ofWord rfl fun hw => by
  delta Instr.wellFormed at hw
  rw [decode_vfp]
  simp_all [decodeVFp, zeros, legal, values, preds, narrow, narrow3_lt, narrow4_lt, extract_first, extract_last, extract_mid]
theorem vfrcpa (d a : VReg) (p : PSel) : Statement (.vfrcpa d a p) := ofWord rfl fun hw => by
  delta Instr.wellFormed at hw
  rw [decode_vfp]
  simp_all [decodeVFp, zeros, legal, values, preds, narrow, narrow3_lt, narrow4_lt, extract_first, extract_last, extract_mid]
theorem vfexa (d a : VReg) (p : PSel) : Statement (.vfexa d a p) := ofWord rfl fun hw => by
  delta Instr.wellFormed at hw
  rw [decode_vfp]
  simp_all [decodeVFp, zeros, legal, values, preds, narrow, narrow3_lt, narrow4_lt, extract_first, extract_last, extract_mid]
theorem vflga (d a : VReg) (p : PSel) : Statement (.vflga d a p) := ofWord rfl fun hw => by
  delta Instr.wellFormed at hw
  rw [decode_vfp]
  simp_all [decodeVFp, zeros, legal, values, preds, narrow, narrow3_lt, narrow4_lt, extract_first, extract_last, extract_mid]
theorem vfmin (d a b : VReg) (p : PSel) : Statement (.vfmin d a b p) := ofWord rfl fun hw => (decode_vfp ..).trans (if_pos hw)
theorem vfmax (d a b : VReg) (p : PSel) : Statement (.vfmax d a b p) := ofWord rfl fun hw => (decode_vfp ..).trans (if_pos hw)
theorem vfcmpEq (d : PReg) (a b : VReg) (p : PSel) : Statement (.vfcmpEq d a b p) := ofWord rfl fun hw => (decode_vfp ..).trans (if_pos hw)
theorem vfcmpLt (d : PReg) (a b : VReg) (p : PSel) : Statement (.vfcmpLt d a b p) := ofWord rfl fun hw => (decode_vfp ..).trans (if_pos hw)
theorem vfcmpLe (d : PReg) (a b : VReg) (p : PSel) : Statement (.vfcmpLe d a b p) := ofWord rfl fun hw => (decode_vfp ..).trans (if_pos hw)
theorem vfcmpUn (d : PReg) (a b : VReg) (p : PSel) : Statement (.vfcmpUn d a b p) := ofWord rfl fun hw => (decode_vfp ..).trans (if_pos hw)
theorem vfabs (d a : VReg) (p : PSel) : Statement (.vfabs d a p) := ofWord rfl fun hw => by
  delta Instr.wellFormed at hw
  rw [decode_vfp]
  simp_all [decodeVFp, zeros, legal, values, preds, narrow, narrow3_lt, narrow4_lt, extract_first, extract_last, extract_mid]
theorem vfneg (d a : VReg) (p : PSel) : Statement (.vfneg d a p) := ofWord rfl fun hw => by
  delta Instr.wellFormed at hw
  rw [decode_vfp]
  simp_all [decodeVFp, zeros, legal, values, preds, narrow, narrow3_lt, narrow4_lt, extract_first, extract_last, extract_mid]
theorem vfsgn (d a b : VReg) (p : PSel) : Statement (.vfsgn d a b p) := ofWord rfl fun hw => (decode_vfp ..).trans (if_pos hw)
theorem vfcls (d a : VReg) (p : PSel) : Statement (.vfcls d a p) := ofWord rfl fun hw => by
  delta Instr.wellFormed at hw
  rw [decode_vfp]
  simp_all [decodeVFp, zeros, legal, values, preds, narrow, narrow3_lt, narrow4_lt, extract_first, extract_last, extract_mid]
theorem vcvtH (d a : VReg) (b : CvtTo) : Statement (.vcvtH d a b) := ofWord rfl fun hw => by
  delta Instr.wellFormed at hw
  rw [decode_convert _ _ _ _ _ (by decide)]
  simp_all [decodeConvert, zeros, legal, values, preds, narrow, narrow3_lt, narrow4_lt]
theorem vcvtD (d a : VReg) (b : CvtTo) : Statement (.vcvtD d a b) := ofWord rfl fun hw => by
  delta Instr.wellFormed at hw
  rw [decode_convert _ _ _ _ _ (by decide)]
  simp_all [decodeConvert, zeros, legal, values, preds, narrow, narrow3_lt, narrow4_lt]
theorem vcvtFi (d a : VReg) (b : CvtTo) : Statement (.vcvtFi d a b) := ofWord rfl fun hw => by
  delta Instr.wellFormed at hw
  rw [decode_convert _ _ _ _ _ (by decide)]
  simp_all [decodeConvert, zeros, legal, values, preds, narrow, narrow3_lt, narrow4_lt]
theorem vcvtIf (d a : VReg) (b : CvtTo) : Statement (.vcvtIf d a b) := ofWord rfl fun hw => by
  delta Instr.wellFormed at hw
  rw [decode_convert _ _ _ _ _ (by decide)]
  simp_all [decodeConvert, zeros, legal, values, preds, narrow, narrow3_lt, narrow4_lt]
theorem vcvtQ (d a : VReg) (b : CvtTo) : Statement (.vcvtQ d a b) := ofWord rfl fun hw => by
  delta Instr.wellFormed at hw
  rw [decode_convert _ _ _ _ _ (by decide)]
  simp_all [decodeConvert, zeros, legal, values, preds, narrow, narrow3_lt, narrow4_lt]
theorem vcvtMx (d a : VReg) (b : CvtTo) : Statement (.vcvtMx d a b) := ofWord rfl fun hw => by
  delta Instr.wellFormed at hw
  rw [decode_convert _ _ _ _ _ (by decide)]
  simp_all [decodeConvert, zeros, legal, values, preds, narrow, narrow3_lt, narrow4_lt]
theorem vdeq (d a : VReg) (b : CvtTo) : Statement (.vdeq d a b) := ofWord rfl fun hw => by
  delta Instr.wellFormed at hw
  rw [decode_convert _ _ _ _ _ (by decide)]
  simp_all [decodeConvert, zeros, legal, values, preds, narrow, narrow3_lt, narrow4_lt]
theorem dlfl (d : BitVec 3) : Statement (.dlfl d) := ofWord rfl fun hw => by
  delta Instr.wellFormed at hw
  rw [decode_convert _ _ _ _ _ (by decide)]
  simp_all [decodeConvert, zeros, legal, values, preds, narrow, narrow3_lt, narrow4_lt]
theorem vslup (d a : VReg) (b : SReg) (p : PSel) : Statement (.vslup d a b p) := ofWord rfl fun hw => (decode_permute ..).trans (if_pos hw)
theorem vsldn (d a : VReg) (b : SReg) (p : PSel) : Statement (.vsldn d a b p) := ofWord rfl fun hw => (decode_permute ..).trans (if_pos hw)
theorem vperm (d a b : VReg) (p : PSel) : Statement (.vperm d a b p) := ofWord rfl fun hw => (decode_permute ..).trans (if_pos hw)
theorem vcomp (d a : VReg) (p : PSel) : Statement (.vcomp d a p) := ofWord rfl fun hw => by
  delta Instr.wellFormed at hw
  rw [decode_permute]
  simp_all [decodePermute, zeros, legal, values, preds, narrow, narrow3_lt, narrow4_lt, extract_first, extract_last, extract_mid]
theorem vexp (d a : VReg) (p : PSel) : Statement (.vexp d a p) := ofWord rfl fun hw => by
  delta Instr.wellFormed at hw
  rw [decode_permute]
  simp_all [decodePermute, zeros, legal, values, preds, narrow, narrow3_lt, narrow4_lt, extract_first, extract_last, extract_mid]
theorem vbc (d : VReg) (a : SReg) (p : PSel) : Statement (.vbc d a p) := ofWord rfl fun hw => by
  delta Instr.wellFormed at hw
  rw [decode_permute]
  simp_all [decodePermute, zeros, legal, values, preds, narrow, narrow3_lt, narrow4_lt, extract_first, extract_last, extract_mid]
theorem vid (d : VReg) (p : PSel) : Statement (.vid d p) := ofWord rfl fun hw => by
  delta Instr.wellFormed at hw
  rw [decode_permute]
  simp_all [decodePermute, zeros, legal, values, preds, narrow, narrow3_lt, narrow4_lt, extract_first, extract_last, extract_mid]
theorem vmvs (d : SReg) (a : VReg) (b : SReg) : Statement (.vmvs d a b) := ofWord rfl fun hw => by
  delta Instr.wellFormed at hw
  rw [decode_permute]
  simp_all [decodePermute, zeros, legal, values, preds, narrow, narrow3_lt, narrow4_lt, extract_first, extract_last, extract_mid]
theorem vmsv (d : VReg) (a b : SReg) : Statement (.vmsv d a b) := ofWord rfl fun hw => by
  delta Instr.wellFormed at hw
  rw [decode_permute]
  simp_all [decodePermute, zeros, legal, values, preds, narrow, narrow3_lt, narrow4_lt, extract_first, extract_last, extract_mid]
theorem vrsum (d a : VReg) (p : PSel) : Statement (.vrsum d a p) := ofWord rfl fun hw => by
  delta Instr.wellFormed at hw
  rw [decode_reduce]
  simp_all [decodeReduce, zeros, legal, values, preds, narrow, narrow3_lt, narrow4_lt, extract_first, extract_last, extract_mid]
theorem vrosum (d a : VReg) (p : PSel) : Statement (.vrosum d a p) := ofWord rfl fun hw => by
  delta Instr.wellFormed at hw
  rw [decode_reduce]
  simp_all [decodeReduce, zeros, legal, values, preds, narrow, narrow3_lt, narrow4_lt, extract_first, extract_last, extract_mid]
theorem vrmin (d a : VReg) (p : PSel) : Statement (.vrmin d a p) := ofWord rfl fun hw => by
  delta Instr.wellFormed at hw
  rw [decode_reduce]
  simp_all [decodeReduce, zeros, legal, values, preds, narrow, narrow3_lt, narrow4_lt, extract_first, extract_last, extract_mid]
theorem vrmax (d a : VReg) (p : PSel) : Statement (.vrmax d a p) := ofWord rfl fun hw => by
  delta Instr.wellFormed at hw
  rw [decode_reduce]
  simp_all [decodeReduce, zeros, legal, values, preds, narrow, narrow3_lt, narrow4_lt, extract_first, extract_last, extract_mid]
theorem vrand (d a : VReg) (p : PSel) : Statement (.vrand d a p) := ofWord rfl fun hw => by
  delta Instr.wellFormed at hw
  rw [decode_reduce]
  simp_all [decodeReduce, zeros, legal, values, preds, narrow, narrow3_lt, narrow4_lt, extract_first, extract_last, extract_mid]
theorem vror (d a : VReg) (p : PSel) : Statement (.vror d a p) := ofWord rfl fun hw => by
  delta Instr.wellFormed at hw
  rw [decode_reduce]
  simp_all [decodeReduce, zeros, legal, values, preds, narrow, narrow3_lt, narrow4_lt, extract_first, extract_last, extract_mid]
theorem vrxor (d a : VReg) (p : PSel) : Statement (.vrxor d a p) := ofWord rfl fun hw => by
  delta Instr.wellFormed at hw
  rw [decode_reduce]
  simp_all [decodeReduce, zeros, legal, values, preds, narrow, narrow3_lt, narrow4_lt, extract_first, extract_last, extract_mid]
theorem vscan (d a : VReg) (b : ScanOp) (p : PSel) : Statement (.vscan d a b p) := ofWord rfl fun hw => by
  delta Instr.wellFormed at hw
  rw [decode_reduce]
  simp_all [decodeReduce, zeros, legal, values, preds, narrow, narrow3_lt, narrow4_lt, extract_first, extract_last, extract_mid]
theorem pand (d a b : PReg) : Statement (.pand d a b) := ofWord rfl fun hw => by
  delta Instr.wellFormed at hw
  rw [decode_pred]
  simp_all [decodePred, zeros, legal, values, preds, narrow, narrow3_lt, narrow4_lt, extract_first, extract_last, extract_mid]
theorem por (d a b : PReg) : Statement (.por d a b) := ofWord rfl fun hw => by
  delta Instr.wellFormed at hw
  rw [decode_pred]
  simp_all [decodePred, zeros, legal, values, preds, narrow, narrow3_lt, narrow4_lt, extract_first, extract_last, extract_mid]
theorem pxor (d a b : PReg) : Statement (.pxor d a b) := ofWord rfl fun hw => by
  delta Instr.wellFormed at hw
  rw [decode_pred]
  simp_all [decodePred, zeros, legal, values, preds, narrow, narrow3_lt, narrow4_lt, extract_first, extract_last, extract_mid]
theorem pandn (d a b : PReg) : Statement (.pandn d a b) := ofWord rfl fun hw => by
  delta Instr.wellFormed at hw
  rw [decode_pred]
  simp_all [decodePred, zeros, legal, values, preds, narrow, narrow3_lt, narrow4_lt, extract_first, extract_last, extract_mid]
theorem pnot (d a : PReg) : Statement (.pnot d a) := ofWord rfl fun hw => by
  delta Instr.wellFormed at hw
  rw [decode_pred]
  simp_all [decodePred, zeros, legal, values, preds, narrow, narrow3_lt, narrow4_lt, extract_first, extract_last, extract_mid]
theorem pset (d : PReg) (a : SReg) : Statement (.pset d a) := ofWord rfl fun hw => by
  delta Instr.wellFormed at hw
  rw [decode_pred]
  simp_all [decodePred, zeros, legal, values, preds, narrow, narrow3_lt, narrow4_lt, extract_first, extract_last, extract_mid]
theorem pffs (d : SReg) (a : PReg) : Statement (.pffs d a) := ofWord rfl fun hw => by
  delta Instr.wellFormed at hw
  rw [decode_pred]
  simp_all [decodePred, zeros, legal, values, preds, narrow, narrow3_lt, narrow4_lt, extract_first, extract_last, extract_mid]
theorem pcnt (d : SReg) (a : PReg) : Statement (.pcnt d a) := ofWord rfl fun hw => by
  delta Instr.wellFormed at hw
  rw [decode_pred]
  simp_all [decodePred, zeros, legal, values, preds, narrow, narrow3_lt, narrow4_lt, extract_first, extract_last, extract_mid]
theorem pmvv (d : PReg) (a : VReg) : Statement (.pmvv d a) := ofWord rfl fun hw => by
  delta Instr.wellFormed at hw
  rw [decode_pred]
  simp_all [decodePred, zeros, legal, values, preds, narrow, narrow3_lt, narrow4_lt, extract_first, extract_last, extract_mid]
theorem vld (d : VReg) (a : SReg) (p : PSel) (nb : Bool) (t : Path) : Statement (.vld d a p nb t) := ofWord rfl fun hw => by
  delta Instr.wellFormed at hw
  rw [decode_vload]
  simp_all [decodeVLoad, zeros, legal, values, preds, narrow, narrow3_lt, narrow4_lt, extract_first, extract_last, extract_mid, field_nb, field_op, field_path]
theorem vlds (d : VReg) (a b : SReg) (p : PSel) (nb : Bool) (t : Path) : Statement (.vlds d a b p nb t) := ofWord rfl fun hw => by
  delta Instr.wellFormed at hw
  rw [decode_vload]
  simp_all [decodeVLoad, zeros, legal, values, preds, narrow, narrow3_lt, narrow4_lt, extract_first, extract_last, extract_mid, field_nb, field_op, field_path]
theorem vldx (d : VReg) (a : SReg) (b : VReg) (p : PSel) (nb : Bool) (t : Path) : Statement (.vldx d a b p nb t) := ofWord rfl fun hw => by
  delta Instr.wellFormed at hw
  rw [decode_vload]
  simp_all [decodeVLoad, zeros, legal, values, preds, narrow, narrow3_lt, narrow4_lt, extract_first, extract_last, extract_mid, field_nb, field_op, field_path]
theorem vldsg (d : VReg) (a : SReg) (n : BitVec 5) (p : PSel) (nb : Bool) (t : Path) : Statement (.vldsg d a n p nb t) := ofWord rfl fun hw => by
  delta Instr.wellFormed at hw
  rw [decode_vload]
  simp_all [decodeVLoad, zeros, legal, values, preds, narrow, narrow3_lt, narrow4_lt, extract_first, extract_last, extract_mid, field_nb, field_op, field_path]
theorem vldff (d : VReg) (a : SReg) (p : PSel) (t : Path) : Statement (.vldff d a p t) := ofWord rfl fun hw => by
  delta Instr.wellFormed at hw
  rw [decode_vload]
  cases t <;> exact if_pos hw
theorem vprobe (d : PReg) (a : SReg) (b : VReg) (p : PSel) : Statement (.vprobe d a b p) := ofWord rfl fun hw => by
  delta Instr.wellFormed at hw
  rw [decode_vload]
  exact if_pos hw
theorem vst (d : VReg) (a : SReg) (p : PSel) (nb : Bool) (t : Path) : Statement (.vst d a p nb t) := ofWord rfl fun hw => by
  delta Instr.wellFormed at hw
  rw [decode_vstore]
  simp_all [decodeVStore, zeros, legal, values, preds, narrow, narrow3_lt, narrow4_lt, extract_first, extract_last, extract_mid, field_nb, field_op, field_path]
theorem vsts (d : VReg) (a b : SReg) (p : PSel) (nb : Bool) (t : Path) : Statement (.vsts d a b p nb t) := ofWord rfl fun hw => by
  delta Instr.wellFormed at hw
  rw [decode_vstore]
  simp_all [decodeVStore, zeros, legal, values, preds, narrow, narrow3_lt, narrow4_lt, extract_first, extract_last, extract_mid, field_nb, field_op, field_path]
theorem vstx (d : VReg) (a : SReg) (b : VReg) (p : PSel) (nb : Bool) (t : Path) : Statement (.vstx d a b p nb t) := ofWord rfl fun hw => by
  delta Instr.wellFormed at hw
  rw [decode_vstore]
  simp_all [decodeVStore, zeros, legal, values, preds, narrow, narrow3_lt, narrow4_lt, extract_first, extract_last, extract_mid, field_nb, field_op, field_path]
theorem vstsg (d : VReg) (a : SReg) (n : BitVec 5) (p : PSel) (nb : Bool) (t : Path) : Statement (.vstsg d a n p nb t) := ofWord rfl fun hw => by
  delta Instr.wellFormed at hw
  rw [decode_vstore]
  simp_all [decodeVStore, zeros, legal, values, preds, narrow, narrow3_lt, narrow4_lt, extract_first, extract_last, extract_mid, field_nb, field_op, field_path]
theorem vstu (d : VReg) (a : SReg) (p : PSel) (nb : Bool) (t : Path) : Statement (.vstu d a p nb t) := ofWord rfl fun hw => by
  delta Instr.wellFormed at hw
  rw [decode_vstore]
  simp_all [decodeVStore, zeros, legal, values, preds, narrow, narrow3_lt, narrow4_lt, extract_first, extract_last, extract_mid, field_nb, field_op, field_path]
theorem vstxu (d : VReg) (a : SReg) (b : VReg) (p : PSel) (nb : Bool) (t : Path) : Statement (.vstxu d a b p nb t) := ofWord rfl fun hw => by
  delta Instr.wellFormed at hw
  rw [decode_vstore]
  simp_all [decodeVStore, zeros, legal, values, preds, narrow, narrow3_lt, narrow4_lt, extract_first, extract_last, extract_mid, field_nb, field_op, field_path]
theorem vamo (d : VReg) (a : SReg) (b : VReg) (p : PSel) (nb : Bool) (op : VamoOp) (t : Path) : Statement (.vamo d a b p nb op t) := ofWord rfl fun hw => by
  delta Instr.wellFormed at hw
  rw [decode_vamo]
  simp_all [decodeVamo, zeros, legal, values, preds, narrow, narrow3_lt, narrow4_lt, extract_first, extract_last, extract_mid, field_nb, field_op, field_path]
theorem bind (d : BitVec 3) (a : VReg) (b : SReg) : Statement (.bind d a b) := ofWord rfl fun hw => by
  delta Instr.wellFormed at hw
  rw [decode_bind]
  simp_all [decodeBind, zeros, legal, values, preds, narrow, narrow3_lt, narrow4_lt, extract_first, extract_last, extract_mid]
theorem unbind (d : BitVec 3) : Statement (.unbind d) := ofWord rfl fun hw => by
  delta Instr.wellFormed at hw
  rw [decode_bind]
  simp_all [decodeBind, zeros, legal, values, preds, narrow, narrow3_lt, narrow4_lt, extract_first, extract_last, extract_mid]
theorem bndq (d : SReg) (a : BitVec 3) : Statement (.bndq d a) := ofWord rfl fun hw => by
  delta Instr.wellFormed at hw
  rw [decode_bind]
  simp_all [decodeBind, zeros, legal, values, preds, narrow, narrow3_lt, narrow4_lt, extract_first, extract_last, extract_mid]
theorem rowpin (d a : SReg) : Statement (.rowpin d a) := ofWord rfl fun hw => by
  delta Instr.wellFormed at hw
  rw [decode_bind]
  simp_all [decodeBind, zeros, legal, values, preds, narrow, narrow3_lt, narrow4_lt, extract_first, extract_last, extract_mid]
theorem rowrel (a : SReg) : Statement (.rowrel a) := ofWord rfl fun hw => by
  delta Instr.wellFormed at hw
  rw [decode_bind]
  simp_all [decodeBind, zeros, legal, values, preds, narrow, narrow3_lt, narrow4_lt, extract_first, extract_last, extract_mid]
theorem rowq (d a : SReg) : Statement (.rowq d a) := ofWord rfl fun hw => by
  delta Instr.wellFormed at hw
  rw [decode_bind]
  simp_all [decodeBind, zeros, legal, values, preds, narrow, narrow3_lt, narrow4_lt, extract_first, extract_last, extract_mid]
theorem omcl (b : BitVec 4) : Statement (.omcl b) := ofWord rfl fun hw => by
  delta Instr.wellFormed at hw
  rw [decode_matrix]
  simp_all [decodeMatrix, zeros, legal, values, preds, narrow, narrow3_lt, narrow4_lt, extract_first, extract_last, extract_mid]
theorem omrl (b : BitVec 4) : Statement (.omrl b) := ofWord rfl fun hw => by
  delta Instr.wellFormed at hw
  rw [decode_matrix]
  simp_all [decodeMatrix, zeros, legal, values, preds, narrow, narrow3_lt, narrow4_lt, extract_first, extract_last, extract_mid]
theorem tld (d : SReg) (a : VReg) (b : BitVec 4) : Statement (.tld d a b) := ofWord rfl fun hw => by
  delta Instr.wellFormed at hw
  rw [decode_matrix]
  simp_all [decodeMatrix, zeros, legal, values, preds, narrow, narrow3_lt, narrow4_lt, extract_first, extract_last, extract_mid]
theorem mma (d : BitVec 3) (a : VReg) (b : BitVec 4) : Statement (.mma d a b) := ofWord rfl fun hw => by
  delta Instr.wellFormed at hw
  rw [decode_matrix]
  simp_all [decodeMatrix, zeros, legal, values, preds, narrow, narrow3_lt, narrow4_lt, extract_first, extract_last, extract_mid]
theorem accx (d : VReg) (a : BitVec 3) (b : SReg) (p : PSel) : Statement (.accx d a b p) := ofWord rfl fun hw => by
  delta Instr.wellFormed at hw
  rw [decode_matrix]
  simp_all [decodeMatrix, zeros, legal, values, preds, narrow, narrow3_lt, narrow4_lt, extract_first, extract_last, extract_mid]
theorem accxLink (d a : BitVec 3) (b : SReg) (p : PSel) : Statement (.accxLink d a b p) := ofWord rfl fun hw => by
  delta Instr.wellFormed at hw
  rw [decode_matrix]
  simp_all [decodeMatrix, zeros, legal, values, preds, narrow, narrow3_lt, narrow4_lt, extract_first, extract_last, extract_mid]
theorem accz (d : BitVec 3) : Statement (.accz d) := ofWord rfl fun hw => by
  delta Instr.wellFormed at hw
  rw [decode_matrix]
  simp_all [decodeMatrix, zeros, legal, values, preds, narrow, narrow3_lt, narrow4_lt, extract_first, extract_last, extract_mid]
theorem bar (sc : Scope) : Statement (.bar sc) := ofWord rfl fun hw => by
  delta Instr.wellFormed at hw
  rw [decode_sync]
  simp only [decodeSync, Scope.ofBits_toBits, extract_first, extract_last, extract_mid, extract_top, extract_cut]
  simp_all [decodeSync, zeros, legal, values, preds, narrow, narrow3_lt, narrow4_lt, extract_first, extract_last, extract_mid]
theorem ipost (a : SReg) (c : BitVec 3) : Statement (.ipost a c) := ofWord rfl fun hw => by
  delta Instr.wellFormed at hw
  rw [decode_sync]
  simp only [decodeSync, Scope.ofBits_toBits, extract_first, extract_last, extract_mid, extract_top, extract_cut]
  simp_all [decodeSync, zeros, legal, values, preds, narrow, narrow3_lt, narrow4_lt, extract_first, extract_last, extract_mid]
theorem iwait (a : SReg) (c : BitVec 3) : Statement (.iwait a c) := ofWord rfl fun hw => by
  delta Instr.wellFormed at hw
  rw [decode_sync]
  simp only [decodeSync, Scope.ofBits_toBits, extract_first, extract_last, extract_mid, extract_top, extract_cut]
  simp_all [decodeSync, zeros, legal, values, preds, narrow, narrow3_lt, narrow4_lt, extract_first, extract_last, extract_mid]
theorem sacq (a : SReg) (sc : Scope) (n : BitVec 6) : Statement (.sacq a sc n) := ofWord rfl fun hw => by
  delta Instr.wellFormed at hw
  rw [decode_sync]
  simp only [decodeSync, Scope.ofBits_toBits, extract_first, extract_last, extract_mid, extract_top, extract_cut]
  simp_all [decodeSync, zeros, legal, values, preds, narrow, narrow3_lt, narrow4_lt, extract_first, extract_last, extract_mid]
theorem srel (a : SReg) (sc : Scope) (n : BitVec 6) : Statement (.srel a sc n) := ofWord rfl fun hw => by
  delta Instr.wellFormed at hw
  rw [decode_sync]
  simp only [decodeSync, Scope.ofBits_toBits, extract_first, extract_last, extract_mid, extract_top, extract_cut]
  simp_all [decodeSync, zeros, legal, values, preds, narrow, narrow3_lt, narrow4_lt, extract_first, extract_last, extract_mid]
theorem stry (d a : SReg) (sc : Scope) (n : BitVec 6) : Statement (.stry d a sc n) := ofWord rfl fun hw => by
  delta Instr.wellFormed at hw
  rw [decode_sync]
  simp only [decodeSync, Scope.ofBits_toBits, extract_first, extract_last, extract_mid, extract_top, extract_cut]
  simp_all [decodeSync, zeros, legal, values, preds, narrow, narrow3_lt, narrow4_lt, extract_first, extract_last, extract_mid]
theorem qcnt (d : SReg) (q : BitVec 3) : Statement (.qcnt d q) := ofWord rfl fun hw => by
  delta Instr.wellFormed at hw
  rw [decode_sync]
  simp only [decodeSync, Scope.ofBits_toBits, extract_first, extract_last, extract_mid, extract_top, extract_cut]
  simp_all [decodeSync, zeros, legal, values, preds, narrow, narrow3_lt, narrow4_lt, extract_first, extract_last, extract_mid]
theorem qfl (q : BitVec 3) : Statement (.qfl q) := ofWord rfl fun hw => by
  delta Instr.wellFormed at hw
  rw [decode_sync]
  simp only [decodeSync, Scope.ofBits_toBits, extract_first, extract_last, extract_mid, extract_top, extract_cut]
  simp_all [decodeSync, zeros, legal, values, preds, narrow, narrow3_lt, narrow4_lt, extract_first, extract_last, extract_mid]
theorem tsplit (d a : SReg) : Statement (.tsplit d a) := ofWord rfl fun hw => by
  delta Instr.wellFormed at hw
  rw [decode_sync]
  simp only [decodeSync, Scope.ofBits_toBits, extract_first, extract_last, extract_mid, extract_top, extract_cut]
  simp_all [decodeSync, zeros, legal, values, preds, narrow, narrow3_lt, narrow4_lt, extract_first, extract_last, extract_mid]
theorem spawn (d a : SReg) : Statement (.spawn d a) := ofWord rfl fun hw => by
  delta Instr.wellFormed at hw
  rw [decode_sync]
  simp only [decodeSync, Scope.ofBits_toBits, extract_first, extract_last, extract_mid, extract_top, extract_cut]
  simp_all [decodeSync, zeros, legal, values, preds, narrow, narrow3_lt, narrow4_lt, extract_first, extract_last, extract_mid]
theorem exit : Statement .exit := ofWord rfl fun hw => by
  delta Instr.wellFormed at hw
  rw [decode_sync]
  simp only [decodeSync, Scope.ofBits_toBits, extract_first, extract_last, extract_mid, extract_top, extract_cut]
  simp_all [decodeSync, zeros, legal, values, preds, narrow, narrow3_lt, narrow4_lt, extract_first, extract_last, extract_mid]
theorem yield : Statement .yield := ofWord rfl fun hw => by
  delta Instr.wellFormed at hw
  rw [decode_sync]
  simp only [decodeSync, Scope.ofBits_toBits, extract_first, extract_last, extract_mid, extract_top, extract_cut]
  simp_all [decodeSync, zeros, legal, values, preds, narrow, narrow3_lt, narrow4_lt, extract_first, extract_last, extract_mid]
theorem cpy (d a b : SReg) : Statement (.cpy d a b) := ofWord rfl fun hw => by
  delta Instr.wellFormed at hw
  rw [decode_engine]
  simp_all [decodeEngine, zeros, legal, values, preds, narrow, narrow3_lt, narrow4_lt, extract_first, extract_last, extract_mid]
theorem gsp (d : VReg) (a b : SReg) (p : PSel) : Statement (.gsp d a b p) := ofWord rfl fun hw => (decode_engine ..).trans (if_pos hw)
theorem shp (d a : SReg) : Statement (.shp d a) := ofWord rfl fun hw => by
  delta Instr.wellFormed at hw
  rw [decode_engine]
  simp_all [decodeEngine, zeros, legal, values, preds, narrow, narrow3_lt, narrow4_lt, extract_first, extract_last, extract_mid]
theorem enq (a b : SReg) : Statement (.enq a b) := ofWord rfl fun hw => by
  delta Instr.wellFormed at hw
  rw [decode_engine]
  simp_all [decodeEngine, zeros, legal, values, preds, narrow, narrow3_lt, narrow4_lt, extract_first, extract_last, extract_mid]
theorem deq (d a : SReg) : Statement (.deq d a) := ofWord rfl fun hw => by
  delta Instr.wellFormed at hw
  rw [decode_engine]
  simp_all [decodeEngine, zeros, legal, values, preds, narrow, narrow3_lt, narrow4_lt, extract_first, extract_last, extract_mid]
theorem dnode (d a : SReg) : Statement (.dnode d a) := ofWord rfl fun hw => by
  delta Instr.wellFormed at hw
  rw [decode_engine]
  simp_all [decodeEngine, zeros, legal, values, preds, narrow, narrow3_lt, narrow4_lt, extract_first, extract_last, extract_mid]
theorem dgo (a : SReg) : Statement (.dgo a) := ofWord rfl fun hw => by
  delta Instr.wellFormed at hw
  rw [decode_engine]
  simp_all [decodeEngine, zeros, legal, values, preds, narrow, narrow3_lt, narrow4_lt, extract_first, extract_last, extract_mid]
theorem fgo (a : SReg) : Statement (.fgo a) := ofWord rfl fun hw => by
  delta Instr.wellFormed at hw
  rw [decode_engine]
  simp_all [decodeEngine, zeros, legal, values, preds, narrow, narrow3_lt, narrow4_lt, extract_first, extract_last, extract_mid]
theorem fwait : Statement .fwait := ofWord rfl fun hw => by
  delta Instr.wellFormed at hw
  rw [decode_engine]
  simp_all [decodeEngine, zeros, legal, values, preds, narrow, narrow3_lt, narrow4_lt, extract_first, extract_last, extract_mid]
theorem cred (d a : VReg) (b : BitVec 4) (p : PSel) (op : CollOp) : Statement (.cred d a b p op) := ofWord rfl fun hw => by
  delta Instr.wellFormed at hw
  rw [decode_collective]
  cases op <;> simp_all [CollOp.toBits, CollOp.ofBits, decodeCollective, zeros, legal, values, preds, narrow, narrow3_lt, narrow4_lt, extract_first, extract_last, extract_mid]
theorem call (d a : VReg) (b : BitVec 4) (p : PSel) (op : CollOp) : Statement (.call d a b p op) := ofWord rfl fun hw => by
  delta Instr.wellFormed at hw
  rw [decode_collective]
  cases op <;> simp_all [CollOp.toBits, CollOp.ofBits, decodeCollective, zeros, legal, values, preds, narrow, narrow3_lt, narrow4_lt, extract_first, extract_last, extract_mid]
theorem cgat (d a : VReg) (b : BitVec 4) (p : PSel) : Statement (.cgat d a b p) := ofWord rfl fun hw => by
  delta Instr.wellFormed at hw
  rw [decode_collective]
  simp_all [decodeCollective, zeros, legal, values, preds, narrow, narrow3_lt, narrow4_lt, extract_first, extract_last, extract_mid]
theorem csct (d a : VReg) (b : BitVec 4) (p : PSel) : Statement (.csct d a b p) := ofWord rfl fun hw => by
  delta Instr.wellFormed at hw
  rw [decode_collective]
  simp_all [decodeCollective, zeros, legal, values, preds, narrow, narrow3_lt, narrow4_lt, extract_first, extract_last, extract_mid]
theorem cbc (d a : VReg) (b : BitVec 4) (p : PSel) : Statement (.cbc d a b p) := ofWord rfl fun hw => by
  delta Instr.wellFormed at hw
  rw [decode_collective]
  simp_all [decodeCollective, zeros, legal, values, preds, narrow, narrow3_lt, narrow4_lt, extract_first, extract_last, extract_mid]
theorem cgrp (d : BitVec 4) (a : SReg) : Statement (.cgrp d a) := ofWord rfl fun hw => by
  delta Instr.wellFormed at hw
  rw [decode_collective]
  simp_all [decodeCollective, zeros, legal, values, preds, narrow, narrow3_lt, narrow4_lt, extract_first, extract_last, extract_mid]
theorem cgate (a : BitVec 4) : Statement (.cgate a) := ofWord rfl fun hw => by
  delta Instr.wellFormed at hw
  rw [decode_collective]
  simp_all [decodeCollective, zeros, legal, values, preds, narrow, narrow3_lt, narrow4_lt, extract_first, extract_last, extract_mid]
theorem rwin (d a b : SReg) : Statement (.rwin d a b) := ofWord rfl fun hw => by
  delta Instr.wellFormed at hw
  rw [decode_collective]
  simp_all [decodeCollective, zeros, legal, values, preds, narrow, narrow3_lt, narrow4_lt, extract_first, extract_last, extract_mid]
theorem runmap (a : SReg) : Statement (.runmap a) := ofWord rfl fun hw => by
  delta Instr.wellFormed at hw
  rw [decode_collective]
  simp_all [decodeCollective, zeros, legal, values, preds, narrow, narrow3_lt, narrow4_lt, extract_first, extract_last, extract_mid]
theorem vaddLink (d a b : LReg) (p : PSel) : Statement (.vaddLink d a b p) := ofWord rfl fun hw =>
  decode_linkInt _ _ _ _ _ .plain2 _ rfl (by delta Instr.wellFormed at hw; simp_all [LinkClass.reject]) rfl
theorem vsubLink (d a b : LReg) (p : PSel) : Statement (.vsubLink d a b p) := ofWord rfl fun hw =>
  decode_linkInt _ _ _ _ _ .plain2 _ rfl (by delta Instr.wellFormed at hw; simp_all [LinkClass.reject]) rfl
theorem vmulLink (d a b : LReg) (p : PSel) : Statement (.vmulLink d a b p) := ofWord rfl fun hw =>
  decode_linkInt _ _ _ _ _ .online2 _ rfl (by delta Instr.wellFormed at hw; simp_all [LinkClass.reject]) rfl
theorem vmulhLink (d a b : LReg) (p : PSel) : Statement (.vmulhLink d a b p) := ofWord rfl fun hw =>
  decode_linkInt _ _ _ _ _ .online2 _ rfl (by delta Instr.wellFormed at hw; simp_all [LinkClass.reject]) rfl
theorem vmulhnLink (d a b : LReg) (p : PSel) : Statement (.vmulhnLink d a b p) := ofWord rfl fun hw =>
  decode_linkInt _ _ _ _ _ .online2 _ rfl (by delta Instr.wellFormed at hw; simp_all [LinkClass.reject]) rfl
theorem vmacLink (d a b : LReg) (p : PSel) : Statement (.vmacLink d a b p) := ofWord rfl fun hw =>
  decode_linkInt _ _ _ _ _ .plain2 _ rfl (by delta Instr.wellFormed at hw; simp_all [LinkClass.reject]) rfl
theorem vdivLink (d a b : LReg) (p : PSel) : Statement (.vdivLink d a b p) := ofWord rfl fun hw =>
  decode_linkInt _ _ _ _ _ .online2 _ rfl (by delta Instr.wellFormed at hw; simp_all [LinkClass.reject]) rfl
theorem vdivnLink (d a b : LReg) (p : PSel) : Statement (.vdivnLink d a b p) := ofWord rfl fun hw =>
  decode_linkInt _ _ _ _ _ .online2 _ rfl (by delta Instr.wellFormed at hw; simp_all [LinkClass.reject]) rfl
theorem vremLink (d a b : LReg) (p : PSel) : Statement (.vremLink d a b p) := ofWord rfl fun hw =>
  decode_linkInt _ _ _ _ _ .online2 _ rfl (by delta Instr.wellFormed at hw; simp_all [LinkClass.reject]) rfl
theorem vremnLink (d a b : LReg) (p : PSel) : Statement (.vremnLink d a b p) := ofWord rfl fun hw =>
  decode_linkInt _ _ _ _ _ .online2 _ rfl (by delta Instr.wellFormed at hw; simp_all [LinkClass.reject]) rfl
theorem vminLink (d a b : LReg) (p : PSel) : Statement (.vminLink d a b p) := ofWord rfl fun hw =>
  decode_linkInt _ _ _ _ _ .plain2 _ rfl (by delta Instr.wellFormed at hw; simp_all [LinkClass.reject]) rfl
theorem vminnLink (d a b : LReg) (p : PSel) : Statement (.vminnLink d a b p) := ofWord rfl fun hw =>
  decode_linkInt _ _ _ _ _ .plain2 _ rfl (by delta Instr.wellFormed at hw; simp_all [LinkClass.reject]) rfl
theorem vmaxLink (d a b : LReg) (p : PSel) : Statement (.vmaxLink d a b p) := ofWord rfl fun hw =>
  decode_linkInt _ _ _ _ _ .plain2 _ rfl (by delta Instr.wellFormed at hw; simp_all [LinkClass.reject]) rfl
theorem vmaxnLink (d a b : LReg) (p : PSel) : Statement (.vmaxnLink d a b p) := ofWord rfl fun hw =>
  decode_linkInt _ _ _ _ _ .plain2 _ rfl (by delta Instr.wellFormed at hw; simp_all [LinkClass.reject]) rfl
theorem vandLink (d a b : LReg) (p : PSel) : Statement (.vandLink d a b p) := ofWord rfl fun hw =>
  decode_linkInt _ _ _ _ _ .plain2 _ rfl (by delta Instr.wellFormed at hw; simp_all [LinkClass.reject]) rfl
theorem vorLink (d a b : LReg) (p : PSel) : Statement (.vorLink d a b p) := ofWord rfl fun hw =>
  decode_linkInt _ _ _ _ _ .plain2 _ rfl (by delta Instr.wellFormed at hw; simp_all [LinkClass.reject]) rfl
theorem vxorLink (d a b : LReg) (p : PSel) : Statement (.vxorLink d a b p) := ofWord rfl fun hw =>
  decode_linkInt _ _ _ _ _ .plain2 _ rfl (by delta Instr.wellFormed at hw; simp_all [LinkClass.reject]) rfl
theorem vandnLink (d a b : LReg) (p : PSel) : Statement (.vandnLink d a b p) := ofWord rfl fun hw =>
  decode_linkInt _ _ _ _ _ .plain2 _ rfl (by delta Instr.wellFormed at hw; simp_all [LinkClass.reject]) rfl
theorem vshlLink (d a b : LReg) (p : PSel) : Statement (.vshlLink d a b p) := ofWord rfl fun hw =>
  decode_linkInt _ _ _ _ _ .plain2 _ rfl (by delta Instr.wellFormed at hw; simp_all [LinkClass.reject]) rfl
theorem vshrLink (d a b : LReg) (p : PSel) : Statement (.vshrLink d a b p) := ofWord rfl fun hw =>
  decode_linkInt _ _ _ _ _ .plain2 _ rfl (by delta Instr.wellFormed at hw; simp_all [LinkClass.reject]) rfl
theorem vsraLink (d a b : LReg) (p : PSel) : Statement (.vsraLink d a b p) := ofWord rfl fun hw =>
  decode_linkInt _ _ _ _ _ .plain2 _ rfl (by delta Instr.wellFormed at hw; simp_all [LinkClass.reject]) rfl
theorem vaddsLink (d a b : LReg) (p : PSel) : Statement (.vaddsLink d a b p) := ofWord rfl fun hw =>
  decode_linkInt _ _ _ _ _ .plain2 _ rfl (by delta Instr.wellFormed at hw; simp_all [LinkClass.reject]) rfl
theorem vaddsnLink (d a b : LReg) (p : PSel) : Statement (.vaddsnLink d a b p) := ofWord rfl fun hw =>
  decode_linkInt _ _ _ _ _ .plain2 _ rfl (by delta Instr.wellFormed at hw; simp_all [LinkClass.reject]) rfl
theorem vsubsLink (d a b : LReg) (p : PSel) : Statement (.vsubsLink d a b p) := ofWord rfl fun hw =>
  decode_linkInt _ _ _ _ _ .plain2 _ rfl (by delta Instr.wellFormed at hw; simp_all [LinkClass.reject]) rfl
theorem vsubsnLink (d a b : LReg) (p : PSel) : Statement (.vsubsnLink d a b p) := ofWord rfl fun hw =>
  decode_linkInt _ _ _ _ _ .plain2 _ rfl (by delta Instr.wellFormed at hw; simp_all [LinkClass.reject]) rfl
theorem vabsLink (d a : LReg) (p : PSel) : Statement (.vabsLink d a p) := ofWord rfl fun hw =>
  decode_linkInt _ _ _ _ _ .plain1 _ rfl (by delta Instr.wellFormed at hw; simp_all [LinkClass.reject]) rfl
theorem vnegLink (d a : LReg) (p : PSel) : Statement (.vnegLink d a p) := ofWord rfl fun hw =>
  decode_linkInt _ _ _ _ _ .plain1 _ rfl (by delta Instr.wellFormed at hw; simp_all [LinkClass.reject]) rfl
theorem vclzLink (d a : LReg) (p : PSel) : Statement (.vclzLink d a p) := ofWord rfl fun hw =>
  decode_linkInt _ _ _ _ _ .plain1 _ rfl (by delta Instr.wellFormed at hw; simp_all [LinkClass.reject]) rfl
theorem vpopcLink (d a : LReg) (p : PSel) : Statement (.vpopcLink d a p) := ofWord rfl fun hw =>
  decode_linkInt _ _ _ _ _ .plain1 _ rfl (by delta Instr.wellFormed at hw; simp_all [LinkClass.reject]) rfl
theorem vcmpEqLink (d : PReg) (a b : LReg) (p : PSel) : Statement (.vcmpEqLink d a b p) := ofWord rfl fun hw =>
  decode_linkInt _ _ _ _ _ .compare _ rfl (by delta Instr.wellFormed at hw; simp_all [LinkClass.reject]) rfl
theorem vcmpNeLink (d : PReg) (a b : LReg) (p : PSel) : Statement (.vcmpNeLink d a b p) := ofWord rfl fun hw =>
  decode_linkInt _ _ _ _ _ .compare _ rfl (by delta Instr.wellFormed at hw; simp_all [LinkClass.reject]) rfl
theorem vcmpLtLink (d : PReg) (a b : LReg) (p : PSel) : Statement (.vcmpLtLink d a b p) := ofWord rfl fun hw =>
  decode_linkInt _ _ _ _ _ .compare _ rfl (by delta Instr.wellFormed at hw; simp_all [LinkClass.reject]) rfl
theorem vcmpGeLink (d : PReg) (a b : LReg) (p : PSel) : Statement (.vcmpGeLink d a b p) := ofWord rfl fun hw =>
  decode_linkInt _ _ _ _ _ .compare _ rfl (by delta Instr.wellFormed at hw; simp_all [LinkClass.reject]) rfl
theorem vcmpLtnLink (d : PReg) (a b : LReg) (p : PSel) : Statement (.vcmpLtnLink d a b p) := ofWord rfl fun hw =>
  decode_linkInt _ _ _ _ _ .compare _ rfl (by delta Instr.wellFormed at hw; simp_all [LinkClass.reject]) rfl
theorem vcmpGenLink (d : PReg) (a b : LReg) (p : PSel) : Statement (.vcmpGenLink d a b p) := ofWord rfl fun hw =>
  decode_linkInt _ _ _ _ _ .compare _ rfl (by delta Instr.wellFormed at hw; simp_all [LinkClass.reject]) rfl
theorem vselLink (d a b : LReg) (p : PSel) : Statement (.vselLink d a b p) := ofWord rfl fun hw =>
  decode_linkInt _ _ _ _ _ .select _ rfl (by delta Instr.wellFormed at hw; simp_all [LinkClass.reject]) rfl
theorem vcmpEqK (d : PReg) (a b : LReg) (p : PSel) : Statement (.vcmpEqK d a b p) := ofWord rfl fun hw =>
  decode_linkInt _ _ _ _ _ .compareK _ rfl (by delta Instr.wellFormed at hw; simp_all [LinkClass.reject]) rfl
theorem vcmpNeK (d : PReg) (a b : LReg) (p : PSel) : Statement (.vcmpNeK d a b p) := ofWord rfl fun hw =>
  decode_linkInt _ _ _ _ _ .compareK _ rfl (by delta Instr.wellFormed at hw; simp_all [LinkClass.reject]) rfl
theorem vcmpLtK (d : PReg) (a b : LReg) (p : PSel) : Statement (.vcmpLtK d a b p) := ofWord rfl fun hw =>
  decode_linkInt _ _ _ _ _ .compareK _ rfl (by delta Instr.wellFormed at hw; simp_all [LinkClass.reject]) rfl
theorem vcmpGeK (d : PReg) (a b : LReg) (p : PSel) : Statement (.vcmpGeK d a b p) := ofWord rfl fun hw =>
  decode_linkInt _ _ _ _ _ .compareK _ rfl (by delta Instr.wellFormed at hw; simp_all [LinkClass.reject]) rfl
theorem vcmpLtnK (d : PReg) (a b : LReg) (p : PSel) : Statement (.vcmpLtnK d a b p) := ofWord rfl fun hw =>
  decode_linkInt _ _ _ _ _ .compareK _ rfl (by delta Instr.wellFormed at hw; simp_all [LinkClass.reject]) rfl
theorem vcmpGenK (d : PReg) (a b : LReg) (p : PSel) : Statement (.vcmpGenK d a b p) := ofWord rfl fun hw =>
  decode_linkInt _ _ _ _ _ .compareK _ rfl (by delta Instr.wellFormed at hw; simp_all [LinkClass.reject]) rfl
theorem vminK (d a b : LReg) (p : PSel) : Statement (.vminK d a b p) := ofWord rfl fun hw =>
  decode_linkInt _ _ _ _ _ .lesserK _ rfl (by delta Instr.wellFormed at hw; simp_all [LinkClass.reject]) rfl
theorem vminnK (d a b : LReg) (p : PSel) : Statement (.vminnK d a b p) := ofWord rfl fun hw =>
  decode_linkInt _ _ _ _ _ .lesserK _ rfl (by delta Instr.wellFormed at hw; simp_all [LinkClass.reject]) rfl
theorem vmaxK (d a b : LReg) (p : PSel) : Statement (.vmaxK d a b p) := ofWord rfl fun hw =>
  decode_linkInt _ _ _ _ _ .lesserK _ rfl (by delta Instr.wellFormed at hw; simp_all [LinkClass.reject]) rfl
theorem vmaxnK (d a b : LReg) (p : PSel) : Statement (.vmaxnK d a b p) := ofWord rfl fun hw =>
  decode_linkInt _ _ _ _ _ .lesserK _ rfl (by delta Instr.wellFormed at hw; simp_all [LinkClass.reject]) rfl
theorem vfaddLink (d a b : LReg) (p : PSel) : Statement (.vfaddLink d a b p) := ofWord rfl fun hw =>
  decode_linkFp _ _ _ _ _ .online2 _ (by decide) rfl (by delta Instr.wellFormed at hw; simp_all [LinkClass.reject]) rfl
theorem vfsubLink (d a b : LReg) (p : PSel) : Statement (.vfsubLink d a b p) := ofWord rfl fun hw =>
  decode_linkFp _ _ _ _ _ .online2 _ (by decide) rfl (by delta Instr.wellFormed at hw; simp_all [LinkClass.reject]) rfl
theorem vfmulLink (d a b : LReg) (p : PSel) : Statement (.vfmulLink d a b p) := ofWord rfl fun hw =>
  decode_linkFp _ _ _ _ _ .online2 _ (by decide) rfl (by delta Instr.wellFormed at hw; simp_all [LinkClass.reject]) rfl
theorem vffmaLink (d a b : LReg) (p : PSel) : Statement (.vffmaLink d a b p) := ofWord rfl fun hw =>
  decode_linkFp _ _ _ _ _ .plain2 _ (by decide) rfl (by delta Instr.wellFormed at hw; simp_all [LinkClass.reject]) rfl
theorem vffmsLink (d a b : LReg) (p : PSel) : Statement (.vffmsLink d a b p) := ofWord rfl fun hw =>
  decode_linkFp _ _ _ _ _ .plain2 _ (by decide) rfl (by delta Instr.wellFormed at hw; simp_all [LinkClass.reject]) rfl
theorem vfnmaLink (d a b : LReg) (p : PSel) : Statement (.vfnmaLink d a b p) := ofWord rfl fun hw =>
  decode_linkFp _ _ _ _ _ .plain2 _ (by decide) rfl (by delta Instr.wellFormed at hw; simp_all [LinkClass.reject]) rfl
theorem vfdivLink (d a b : LReg) (p : PSel) : Statement (.vfdivLink d a b p) := ofWord rfl fun hw =>
  decode_linkFp _ _ _ _ _ .online2 _ (by decide) rfl (by delta Instr.wellFormed at hw; simp_all [LinkClass.reject]) rfl
theorem vfsqrtLink (d a : LReg) (p : PSel) : Statement (.vfsqrtLink d a p) := ofWord rfl fun hw =>
  decode_linkFp _ _ _ _ _ .online1 _ (by decide) rfl (by delta Instr.wellFormed at hw; simp_all [LinkClass.reject]) rfl
theorem vfrsqaLink (d a : LReg) (p : PSel) : Statement (.vfrsqaLink d a p) := ofWord rfl fun hw =>
  decode_linkFp _ _ _ _ _ .online1 _ (by decide) rfl (by delta Instr.wellFormed at hw; simp_all [LinkClass.reject]) rfl
theorem vfrcpaLink (d a : LReg) (p : PSel) : Statement (.vfrcpaLink d a p) := ofWord rfl fun hw =>
  decode_linkFp _ _ _ _ _ .online1 _ (by decide) rfl (by delta Instr.wellFormed at hw; simp_all [LinkClass.reject]) rfl
theorem vfexaLink (d a : LReg) (p : PSel) : Statement (.vfexaLink d a p) := ofWord rfl fun hw =>
  decode_linkFp _ _ _ _ _ .online1 _ (by decide) rfl (by delta Instr.wellFormed at hw; simp_all [LinkClass.reject]) rfl
theorem vflgaLink (d a : LReg) (p : PSel) : Statement (.vflgaLink d a p) := ofWord rfl fun hw =>
  decode_linkFp _ _ _ _ _ .online1 _ (by decide) rfl (by delta Instr.wellFormed at hw; simp_all [LinkClass.reject]) rfl
theorem vfminLink (d a b : LReg) (p : PSel) : Statement (.vfminLink d a b p) := ofWord rfl fun hw =>
  decode_linkFp _ _ _ _ _ .online2 _ (by decide) rfl (by delta Instr.wellFormed at hw; simp_all [LinkClass.reject]) rfl
theorem vfmaxLink (d a b : LReg) (p : PSel) : Statement (.vfmaxLink d a b p) := ofWord rfl fun hw =>
  decode_linkFp _ _ _ _ _ .online2 _ (by decide) rfl (by delta Instr.wellFormed at hw; simp_all [LinkClass.reject]) rfl
theorem vfcmpEqLink (d : PReg) (a b : LReg) (p : PSel) : Statement (.vfcmpEqLink d a b p) := ofWord rfl fun hw =>
  decode_linkFp _ _ _ _ _ .compare _ (by decide) rfl (by delta Instr.wellFormed at hw; simp_all [LinkClass.reject]) rfl
theorem vfcmpLtLink (d : PReg) (a b : LReg) (p : PSel) : Statement (.vfcmpLtLink d a b p) := ofWord rfl fun hw =>
  decode_linkFp _ _ _ _ _ .compare _ (by decide) rfl (by delta Instr.wellFormed at hw; simp_all [LinkClass.reject]) rfl
theorem vfcmpLeLink (d : PReg) (a b : LReg) (p : PSel) : Statement (.vfcmpLeLink d a b p) := ofWord rfl fun hw =>
  decode_linkFp _ _ _ _ _ .compare _ (by decide) rfl (by delta Instr.wellFormed at hw; simp_all [LinkClass.reject]) rfl
theorem vfcmpUnLink (d : PReg) (a b : LReg) (p : PSel) : Statement (.vfcmpUnLink d a b p) := ofWord rfl fun hw =>
  decode_linkFp _ _ _ _ _ .compare _ (by decide) rfl (by delta Instr.wellFormed at hw; simp_all [LinkClass.reject]) rfl
theorem vfminK (d a b : LReg) (p : PSel) : Statement (.vfminK d a b p) := ofWord rfl fun hw =>
  decode_linkFp _ _ _ _ _ .lesserK _ (by decide) rfl (by delta Instr.wellFormed at hw; simp_all [LinkClass.reject]) rfl
theorem vfmaxK (d a b : LReg) (p : PSel) : Statement (.vfmaxK d a b p) := ofWord rfl fun hw =>
  decode_linkFp _ _ _ _ _ .lesserK _ (by decide) rfl (by delta Instr.wellFormed at hw; simp_all [LinkClass.reject]) rfl
theorem vfcmpEqK (d : PReg) (a b : LReg) (p : PSel) : Statement (.vfcmpEqK d a b p) := ofWord rfl fun hw =>
  decode_linkFp _ _ _ _ _ .compareK _ (by decide) rfl (by delta Instr.wellFormed at hw; simp_all [LinkClass.reject]) rfl
theorem vfcmpLtK (d : PReg) (a b : LReg) (p : PSel) : Statement (.vfcmpLtK d a b p) := ofWord rfl fun hw =>
  decode_linkFp _ _ _ _ _ .compareK _ (by decide) rfl (by delta Instr.wellFormed at hw; simp_all [LinkClass.reject]) rfl
theorem vfcmpLeK (d : PReg) (a b : LReg) (p : PSel) : Statement (.vfcmpLeK d a b p) := ofWord rfl fun hw =>
  decode_linkFp _ _ _ _ _ .compareK _ (by decide) rfl (by delta Instr.wellFormed at hw; simp_all [LinkClass.reject]) rfl
theorem vfcmpUnK (d : PReg) (a b : LReg) (p : PSel) : Statement (.vfcmpUnK d a b p) := ofWord rfl fun hw =>
  decode_linkFp _ _ _ _ _ .compareK _ (by decide) rfl (by delta Instr.wellFormed at hw; simp_all [LinkClass.reject]) rfl
theorem elementGroupIssue (core : CoreId) : Statement (.elementGroupIssue core) := ofEvent rfl
theorem urgentWordAging (core : CoreId) : Statement (.urgentWordAging core) := ofEvent rfl
theorem asyncTrapTake (h : HartId) : Statement (.asyncTrapTake h) := ofEvent rfl
theorem hartDeadlockDetect (h : HartId) : Statement (.hartDeadlockDetect h) := ofEvent rfl
theorem barrierMismatchDetect (t : TeamId) : Statement (.barrierMismatchDetect t) := ofEvent rfl
theorem barrierRelease (h : HartId) : Statement (.barrierRelease h) := ofEvent rfl
theorem sacqWaitComplete (h : HartId) : Statement (.sacqWaitComplete h) := ofEvent rfl
theorem ipostWaitComplete (h : HartId) : Statement (.ipostWaitComplete h) := ofEvent rfl
theorem iwaitWaitComplete (h : HartId) : Statement (.iwaitWaitComplete h) := ofEvent rfl
theorem queueWaitComplete (h : HartId) : Statement (.queueWaitComplete h) := ofEvent rfl
theorem semaphoreRelease (core : CoreId) (n : BitVec 6) : Statement (.semaphoreRelease core n) := ofEvent rfl
theorem nbAccessPost (h : HartId) (k : Nat) : Statement (.nbAccessPost h k) := ofEvent rfl
theorem slotClearComplete (core : CoreId) (n : BitVec 4) : Statement (.slotClearComplete core n) := ofEvent rfl
theorem tileClearComplete (core : CoreId) (n : BitVec 3) : Statement (.tileClearComplete core n) := ofEvent rfl
theorem ringPoll (pkg : PkgId) (asid : BitVec 9) (k : BitVec 2) : Statement (.ringPoll pkg asid k) := ofEvent rfl
theorem distributorChoice (pkg : PkgId) : Statement (.distributorChoice pkg) := ofEvent rfl
theorem teamPlace (team : TeamId) (places : List HartId) : Statement (.teamPlace team places) := ofEvent rfl
theorem tcmImageLoad (team : TeamId) : Statement (.tcmImageLoad team) := ofEvent rfl
theorem teamStart (team : TeamId) : Statement (.teamStart team) := ofEvent rfl
theorem teamComplete (team : TeamId) : Statement (.teamComplete team) := ofEvent rfl
theorem forcedPreemption (h : HartId) : Statement (.forcedPreemption h) := ofEvent rfl
theorem teamPreemptComplete (team : TeamId) : Statement (.teamPreemptComplete team) := ofEvent rfl
theorem gangStartProposal (team : TeamId) : Statement (.gangStartProposal team) := ofEvent rfl
theorem gangStartReply (team : TeamId) (pkg : PkgId) : Statement (.gangStartReply team pkg) := ofEvent rfl
theorem gangStartRetry (team : TeamId) : Statement (.gangStartRetry team) := ofEvent rfl
theorem rtinvPage (d : DieId) (x : Sent) : Statement (.rtinvPage d x) := ofEvent rfl
theorem rtinvAsid (d : DieId) (x : Sent) : Statement (.rtinvAsid d x) := ofEvent rfl
theorem rtinvAll (d : DieId) (x : Sent) : Statement (.rtinvAll d x) := ofEvent rfl
theorem leaseBounce (die : DieId) (ch : BitVec 6) : Statement (.leaseBounce die ch) := ofEvent rfl
theorem stripReadAhead (h : HartId) (k : BitVec 3) : Statement (.stripReadAhead h k) := ofEvent rfl
theorem fifeWord (core : CoreId) : Statement (.fifeWord core) := ofEvent rfl
theorem cpyqPush (h : HartId) (core : CoreId) (x : Word) : Statement (.cpyqPush h core x) := ofEvent rfl
theorem dgqPush (h : HartId) (core : CoreId) (x : Word) : Statement (.dgqPush h core x) := ofEvent rfl
theorem cresPop (core : CresRead) : Statement (.cresPop core) := ofEvent rfl
theorem qpPush (h : HartId) (q : BitVec 2) (x : Word) : Statement (.qpPush h q x) := ofEvent rfl
theorem qpPop (h : HartId) (q : BitVec 2) : Statement (.qpPop h q) := ofEvent rfl
theorem qceChunk (quad : QuadId) : Statement (.qceChunk quad) := ofEvent rfl
theorem copyComplete (core : CoreId) : Statement (.copyComplete core) := ofEvent rfl
theorem softError (h : HartId) (struct_ : BitVec 3) : Statement (.softError h struct_) := ofEvent rfl
theorem partFailure (kind : BitVec 2) (part : BitVec 19) : Statement (.partFailure kind part) := ofEvent rfl
theorem powerLimitApplied (pkg : PkgId) : Statement (.powerLimitApplied pkg) := ofEvent rfl
theorem dernyRead (f : BitVec 2048) : Statement (.dernyRead f) := ofEvent rfl
theorem dernyWrite (f : BitVec 2048) : Statement (.dernyWrite f) := ofEvent rfl
theorem dernyAtomic (f : BitVec 2048) : Statement (.dernyAtomic f) := ofEvent rfl
theorem dernyReadResponse (f : BitVec 2048) : Statement (.dernyReadResponse f) := ofEvent rfl
theorem dernyWriteResponse (f : BitVec 2048) : Statement (.dernyWriteResponse f) := ofEvent rfl
theorem dernyAck (f : BitVec 2048) : Statement (.dernyAck f) := ofEvent rfl
theorem dernyNack (f : BitVec 2048) : Statement (.dernyNack f) := ofEvent rfl
theorem dernyCredit (f : BitVec 2048) : Statement (.dernyCredit f) := ofEvent rfl
theorem dernyTimeLaunch (f : BitVec 2048) : Statement (.dernyTimeLaunch f) := ofEvent rfl
theorem dernyManagement (f : BitVec 2048) : Statement (.dernyManagement f) := ofEvent rfl
theorem flitResendTimeout (src dst : DieId) (c : BitVec 3) : Statement (.flitResendTimeout src dst c) := ofEvent rfl
theorem pcnxWrite (pkg : PkgId) (port : BitVec 8) (x : Sent) : Statement (.pcnxWrite pkg port x) := ofEvent rfl
theorem podBankReady (pkg : PkgId) : Statement (.podBankReady pkg) := ofEvent rfl
theorem pcswWrite (pkg : PkgId) (x : Sent) : Statement (.pcswWrite pkg x) := ofEvent rfl
theorem podStepSwitch (pkg : PkgId) : Statement (.podStepSwitch pkg) := ofEvent rfl
theorem packageRemovalRecognised (pkg gone : PkgId) : Statement (.packageRemovalRecognised pkg gone) := ofEvent rfl
theorem packageResponseTimeout (pkg gone : PkgId) : Statement (.packageResponseTimeout pkg gone) := ofEvent rfl
theorem collectiveInstanceComplete (h : HartId) : Statement (.collectiveInstanceComplete h) := ofEvent rfl
theorem collRingPoll (pkg : PkgId) (asid : BitVec 9) (k : BitVec 6) : Statement (.collRingPoll pkg asid k) := ofEvent rfl
theorem collRequestComplete (gid : BitVec 32) (tag : BitVec 16) (seq : BitVec 32) : Statement (.collRequestComplete gid tag seq) := ofEvent rfl
theorem ulPause (d : DieId) (m : BitVec 4) (x : Sent) : Statement (.ulPause d m x) := ofEvent rfl
theorem ulRetrain (d : DieId) (m : BitVec 4) (x : Sent) : Statement (.ulRetrain d m x) := ofEvent rfl
theorem ulResume (d : DieId) (m : BitVec 4) (x : Sent) : Statement (.ulResume d m x) := ofEvent rfl
theorem ulPauseDone (d : DieId) (m : BitVec 4) : Statement (.ulPauseDone d m) := ofEvent rfl
theorem ulRetrainDone (d : DieId) (m : BitVec 4) (failT failR : Word) : Statement (.ulRetrainDone d m failT failR) := ofEvent rfl
theorem ulRetryThreshold (d : DieId) (m : BitVec 4) : Statement (.ulRetryThreshold d m) := ofEvent rfl
theorem ulPacketFallback (d : DieId) (m : BitVec 4) : Statement (.ulPacketFallback d m) := ofEvent rfl
theorem portLaneSpare (pkg : PkgId) (p : BitVec 3) (lane : BitVec 2) : Statement (.portLaneSpare pkg p lane) := ofEvent rfl
theorem portDown (pkg : PkgId) (p : BitVec 3) : Statement (.portDown pkg p) := ofEvent rfl
theorem hostLinkDown (pkg : PkgId) : Statement (.hostLinkDown pkg) := ofEvent rfl
theorem hostLinkUp (pkg : PkgId) : Statement (.hostLinkUp pkg) := ofEvent rfl
theorem wavelengthFail (d : DieId) (g : BitVec 5) (w : BitVec 4) : Statement (.wavelengthFail d g w) := ofEvent rfl
theorem wavelengthPark (d : DieId) (g : BitVec 5) (w : BitVec 4) : Statement (.wavelengthPark d g w) := ofEvent rfl
theorem wavelengthWake (d : DieId) (g : BitVec 5) (w : BitVec 4) : Statement (.wavelengthWake d g w) := ofEvent rfl
theorem chanterWatchdogExpiry (d : DieId) : Statement (.chanterWatchdogExpiry d) := ofEvent rfl
theorem chanterReboot (d : DieId) : Statement (.chanterReboot d) := ofEvent rfl
theorem hostRequest (pkg : PkgId) (kind : BitVec 2) (op : AmoOp) (a : HostAddr) (x y : List (BitVec 8)) : Statement (.hostRequest pkg kind op a x y) := ofEvent rfl
theorem endpointRequest (die : DieId) (stack : BitVec 1) (by_ : DieId) (unit : BitVec 8) (asid : BitVec 9) (write : Bool) (ch : BitVec 5) (line : BitVec 25) (x : BitVec 512) : Statement (.endpointRequest die stack by_ unit asid write ch line x) := ofEvent rfl
theorem burupLockstepMismatch (pkg : PkgId) : Statement (.burupLockstepMismatch pkg) := ofEvent rfl
theorem burupReloadComplete (pkg : PkgId) : Statement (.burupReloadComplete pkg) := ofEvent rfl
theorem patrolScrubLine (die : DieId) (ch : BitVec 6) (line : BitVec 25) (found : BitVec 2) : Statement (.patrolScrubLine die ch line found) := ofEvent rfl
theorem keyRotationStart (pkg : PkgId) : Statement (.keyRotationStart pkg) := ofEvent rfl
theorem rowRepair (die : DieId) (ch bank : BitVec 6) (row : BitVec 17) : Statement (.rowRepair die ch bank row) := ofEvent rfl
theorem checkpointStart (pkg : PkgId) (x : Sent) : Statement (.checkpointStart pkg x) := ofEvent rfl
theorem restoreStart (pkg : PkgId) (x : Sent) : Statement (.restoreStart pkg x) := ofEvent rfl
theorem ckctlOperationEnd (pkg : PkgId) (served : Bool) : Statement (.ckctlOperationEnd pkg served) := ofEvent rfl
theorem packageReset (pkg : PkgId) : Statement (.packageReset pkg) := ofEvent rfl
theorem bringupStep (pkg : PkgId) : Statement (.bringupStep pkg) := ofEvent rfl
theorem getVersion (pkg : PkgId) : Statement (.getVersion pkg) := ofEvent rfl
theorem getCapabilities (pkg : PkgId) : Statement (.getCapabilities pkg) := ofEvent rfl
theorem negotiateAlgorithms (pkg : PkgId) : Statement (.negotiateAlgorithms pkg) := ofEvent rfl
theorem getDigests (pkg : PkgId) : Statement (.getDigests pkg) := ofEvent rfl
theorem getCertificate (pkg : PkgId) : Statement (.getCertificate pkg) := ofEvent rfl
theorem challenge (pkg : PkgId) : Statement (.challenge pkg) := ofEvent rfl
theorem getMeasurements (pkg : PkgId) : Statement (.getMeasurements pkg) := ofEvent rfl
theorem zoneSensorSample (pkg : PkgId) (z : BitVec 8) (flow dp : BitVec 16) (temp : BitVec 8) : Statement (.zoneSensorSample pkg z flow dp temp) := ofEvent rfl
theorem dryDetect (pkg : PkgId) (z : BitVec 8) : Statement (.dryDetect pkg z) := ofEvent rfl
theorem dryClear (pkg : PkgId) (z : BitVec 8) : Statement (.dryClear pkg z) := ofEvent rfl
theorem zoneMoveComplete (pkg : PkgId) (z : BitVec 8) : Statement (.zoneMoveComplete pkg z) := ofEvent rfl
theorem flcapWrite (pkg : PkgId) (x : Sent) : Statement (.flcapWrite pkg x) := ofEvent rfl
theorem zthrWrite (pkg : PkgId) (z : BitVec 8) (x : Sent) : Statement (.zthrWrite pkg z x) := ofEvent rfl
theorem zstEvClear (pkg : PkgId) (z : BitVec 8) (x : Sent) : Statement (.zstEvClear pkg z x) := ofEvent rfl
theorem flowGrant (team : TeamId) : Statement (.flowGrant team) := ofEvent rfl
theorem evacuationStart (a : Asked) : Statement (.evacuationStart a) := ofEvent rfl
theorem evacuationPhaseEnd (pkg : PkgId) : Statement (.evacuationPhaseEnd pkg) := ofEvent rfl
theorem registerWrite (d : DieId) (off : BitVec 44) (x : Sent) : Statement (.registerWrite d off x) := ofEvent rfl
theorem illegalInstruction (w : BitVec 32) : Statement (.illegalInstruction w) := ofEvent rfl
theorem fetchFault : Statement .fetchFault := ofEvent rfl
theorem linkLevelRetry (d : DieId) (m : BitVec 4) (dir : BitVec 1) (lane : BitVec 6) : Statement (.linkLevelRetry d m dir lane) := ofEvent rfl
theorem laneErrorDetected (pkg : PkgId) (p : BitVec 3) : Statement (.laneErrorDetected pkg p) := ofEvent rfl
theorem portRetrainComplete (pkg : PkgId) (p : BitVec 3) : Statement (.portRetrainComplete pkg p) := ofEvent rfl

end Sys2Proof.Laws.RoundTrip
end

