-- ==== Sys2Proof/Laws/State.lean ====
section
/-! SUPPORT. What an update of the state leaves alone, field by field: one lemma per update and field. -/

namespace Sys2Proof.Machine


/-! ### `State.setS` -/

@[simp] theorem State.setS_parked (s : State) (r : BitVec 5) (x : Word) : (s.setS r x).parked = s.parked := rfl
@[simp] theorem State.setS_cores (s : State) (r : BitVec 5) (x : Word) : (s.setS r x).cores = s.cores := rfl
@[simp] theorem State.setS_quads (s : State) (r : BitVec 5) (x : Word) : (s.setS r x).quads = s.quads := rfl
@[simp] theorem State.setS_dies (s : State) (r : BitVec 5) (x : Word) : (s.setS r x).dies = s.dies := rfl
@[simp] theorem State.setS_pkgs (s : State) (r : BitVec 5) (x : Word) : (s.setS r x).pkgs = s.pkgs := rfl
@[simp] theorem State.setS_teams (s : State) (r : BitVec 5) (x : Word) : (s.setS r x).teams = s.teams := rfl
@[simp] theorem State.setS_failedTeams (s : State) (r : BitVec 5) (x : Word) : (s.setS r x).failedTeams = s.failedTeams := rfl
@[simp] theorem State.setS_roster (s : State) (r : BitVec 5) (x : Word) : (s.setS r x).roster = s.roster := rfl
@[simp] theorem State.setS_mem (s : State) (r : BitVec 5) (x : Word) : (s.setS r x).mem = s.mem := rfl
@[simp] theorem State.setS_dev (s : State) (r : BitVec 5) (x : Word) : (s.setS r x).dev = s.dev := rfl
@[simp] theorem State.setS_poison (s : State) (r : BitVec 5) (x : Word) : (s.setS r x).poison = s.poison := rfl
@[simp] theorem State.setS_streams (s : State) (r : BitVec 5) (x : Word) : (s.setS r x).streams = s.streams := rfl
@[simp] theorem State.setS_wire (s : State) (r : BitVec 5) (x : Word) : (s.setS r x).wire = s.wire := rfl
@[simp] theorem State.setS_answer (s : State) (r : BitVec 5) (x : Word) : (s.setS r x).answer = s.answer := rfl
@[simp] theorem State.setS_tier (s : State) (r : BitVec 5) (x : Word) : (s.setS r x).tier = s.tier := rfl
@[simp] theorem State.setS_now (s : State) (r : BitVec 5) (x : Word) : (s.setS r x).now = s.now := rfl
@[simp] theorem State.setS_agenda (s : State) (r : BitVec 5) (x : Word) : (s.setS r x).agenda = s.agenda := rfl
@[simp] theorem State.setS_stop (s : State) (r : BitVec 5) (x : Word) : (s.setS r x).stop = s.stop := rfl
@[simp] theorem State.setS_free (s : State) (r : BitVec 5) (x : Word) : (s.setS r x).free = s.free := rfl
@[simp] theorem State.setS_teamCount (s : State) (r : BitVec 5) (x : Word) : (s.setS r x).teamCount = s.teamCount := rfl

/-! ### `State.setV` -/

@[simp] theorem State.setV_parked (s : State) (r : BitVec 5) (x : VecReg) : (s.setV r x).parked = s.parked := rfl
@[simp] theorem State.setV_cores (s : State) (r : BitVec 5) (x : VecReg) : (s.setV r x).cores = s.cores := rfl
@[simp] theorem State.setV_quads (s : State) (r : BitVec 5) (x : VecReg) : (s.setV r x).quads = s.quads := rfl
@[simp] theorem State.setV_dies (s : State) (r : BitVec 5) (x : VecReg) : (s.setV r x).dies = s.dies := rfl
@[simp] theorem State.setV_pkgs (s : State) (r : BitVec 5) (x : VecReg) : (s.setV r x).pkgs = s.pkgs := rfl
@[simp] theorem State.setV_teams (s : State) (r : BitVec 5) (x : VecReg) : (s.setV r x).teams = s.teams := rfl
@[simp] theorem State.setV_failedTeams (s : State) (r : BitVec 5) (x : VecReg) : (s.setV r x).failedTeams = s.failedTeams := rfl
@[simp] theorem State.setV_roster (s : State) (r : BitVec 5) (x : VecReg) : (s.setV r x).roster = s.roster := rfl
@[simp] theorem State.setV_mem (s : State) (r : BitVec 5) (x : VecReg) : (s.setV r x).mem = s.mem := rfl
@[simp] theorem State.setV_dev (s : State) (r : BitVec 5) (x : VecReg) : (s.setV r x).dev = s.dev := rfl
@[simp] theorem State.setV_poison (s : State) (r : BitVec 5) (x : VecReg) : (s.setV r x).poison = s.poison := rfl
@[simp] theorem State.setV_streams (s : State) (r : BitVec 5) (x : VecReg) : (s.setV r x).streams = s.streams := rfl
@[simp] theorem State.setV_wire (s : State) (r : BitVec 5) (x : VecReg) : (s.setV r x).wire = s.wire := rfl
@[simp] theorem State.setV_answer (s : State) (r : BitVec 5) (x : VecReg) : (s.setV r x).answer = s.answer := rfl
@[simp] theorem State.setV_tier (s : State) (r : BitVec 5) (x : VecReg) : (s.setV r x).tier = s.tier := rfl
@[simp] theorem State.setV_now (s : State) (r : BitVec 5) (x : VecReg) : (s.setV r x).now = s.now := rfl
@[simp] theorem State.setV_agenda (s : State) (r : BitVec 5) (x : VecReg) : (s.setV r x).agenda = s.agenda := rfl
@[simp] theorem State.setV_stop (s : State) (r : BitVec 5) (x : VecReg) : (s.setV r x).stop = s.stop := rfl
@[simp] theorem State.setV_free (s : State) (r : BitVec 5) (x : VecReg) : (s.setV r x).free = s.free := rfl
@[simp] theorem State.setV_teamCount (s : State) (r : BitVec 5) (x : VecReg) : (s.setV r x).teamCount = s.teamCount := rfl

/-! ### `State.setP` -/

@[simp] theorem State.setP_parked (s : State) (r : BitVec 5) (x : PredBits) : (s.setP r x).parked = s.parked := rfl
@[simp] theorem State.setP_cores (s : State) (r : BitVec 5) (x : PredBits) : (s.setP r x).cores = s.cores := rfl
@[simp] theorem State.setP_quads (s : State) (r : BitVec 5) (x : PredBits) : (s.setP r x).quads = s.quads := rfl
@[simp] theorem State.setP_dies (s : State) (r : BitVec 5) (x : PredBits) : (s.setP r x).dies = s.dies := rfl
@[simp] theorem State.setP_pkgs (s : State) (r : BitVec 5) (x : PredBits) : (s.setP r x).pkgs = s.pkgs := rfl
@[simp] theorem State.setP_teams (s : State) (r : BitVec 5) (x : PredBits) : (s.setP r x).teams = s.teams := rfl
@[simp] theorem State.setP_failedTeams (s : State) (r : BitVec 5) (x : PredBits) : (s.setP r x).failedTeams = s.failedTeams := rfl
@[simp] theorem State.setP_roster (s : State) (r : BitVec 5) (x : PredBits) : (s.setP r x).roster = s.roster := rfl
@[simp] theorem State.setP_mem (s : State) (r : BitVec 5) (x : PredBits) : (s.setP r x).mem = s.mem := rfl
@[simp] theorem State.setP_dev (s : State) (r : BitVec 5) (x : PredBits) : (s.setP r x).dev = s.dev := rfl
@[simp] theorem State.setP_poison (s : State) (r : BitVec 5) (x : PredBits) : (s.setP r x).poison = s.poison := rfl
@[simp] theorem State.setP_streams (s : State) (r : BitVec 5) (x : PredBits) : (s.setP r x).streams = s.streams := rfl
@[simp] theorem State.setP_wire (s : State) (r : BitVec 5) (x : PredBits) : (s.setP r x).wire = s.wire := rfl
@[simp] theorem State.setP_answer (s : State) (r : BitVec 5) (x : PredBits) : (s.setP r x).answer = s.answer := rfl
@[simp] theorem State.setP_tier (s : State) (r : BitVec 5) (x : PredBits) : (s.setP r x).tier = s.tier := rfl
@[simp] theorem State.setP_now (s : State) (r : BitVec 5) (x : PredBits) : (s.setP r x).now = s.now := rfl
@[simp] theorem State.setP_agenda (s : State) (r : BitVec 5) (x : PredBits) : (s.setP r x).agenda = s.agenda := rfl
@[simp] theorem State.setP_stop (s : State) (r : BitVec 5) (x : PredBits) : (s.setP r x).stop = s.stop := rfl
@[simp] theorem State.setP_free (s : State) (r : BitVec 5) (x : PredBits) : (s.setP r x).free = s.free := rfl
@[simp] theorem State.setP_teamCount (s : State) (r : BitVec 5) (x : PredBits) : (s.setP r x).teamCount = s.teamCount := rfl

/-! ### `State.advance` -/

@[simp] theorem State.advance_parked (s : State) : (s.advance).parked = s.parked := rfl
@[simp] theorem State.advance_cores (s : State) : (s.advance).cores = s.cores := rfl
@[simp] theorem State.advance_quads (s : State) : (s.advance).quads = s.quads := rfl
@[simp] theorem State.advance_dies (s : State) : (s.advance).dies = s.dies := rfl
@[simp] theorem State.advance_pkgs (s : State) : (s.advance).pkgs = s.pkgs := rfl
@[simp] theorem State.advance_teams (s : State) : (s.advance).teams = s.teams := rfl
@[simp] theorem State.advance_failedTeams (s : State) : (s.advance).failedTeams = s.failedTeams := rfl
@[simp] theorem State.advance_roster (s : State) : (s.advance).roster = s.roster := rfl
@[simp] theorem State.advance_mem (s : State) : (s.advance).mem = s.mem := rfl
@[simp] theorem State.advance_dev (s : State) : (s.advance).dev = s.dev := rfl
@[simp] theorem State.advance_poison (s : State) : (s.advance).poison = s.poison := rfl
@[simp] theorem State.advance_streams (s : State) : (s.advance).streams = s.streams := rfl
@[simp] theorem State.advance_wire (s : State) : (s.advance).wire = s.wire := rfl
@[simp] theorem State.advance_answer (s : State) : (s.advance).answer = s.answer := rfl
@[simp] theorem State.advance_tier (s : State) : (s.advance).tier = s.tier := rfl
@[simp] theorem State.advance_now (s : State) : (s.advance).now = s.now := rfl
@[simp] theorem State.advance_agenda (s : State) : (s.advance).agenda = s.agenda := rfl
@[simp] theorem State.advance_stop (s : State) : (s.advance).stop = s.stop := rfl
@[simp] theorem State.advance_free (s : State) : (s.advance).free = s.free := rfl
@[simp] theorem State.advance_teamCount (s : State) : (s.advance).teamCount = s.teamCount := rfl

/-! ### `State.retireV` -/

@[simp] theorem State.retireV_parked (s : State) : (s.retireV).parked = s.parked := rfl
@[simp] theorem State.retireV_cores (s : State) : (s.retireV).cores = s.cores := rfl
@[simp] theorem State.retireV_quads (s : State) : (s.retireV).quads = s.quads := rfl
@[simp] theorem State.retireV_dies (s : State) : (s.retireV).dies = s.dies := rfl
@[simp] theorem State.retireV_pkgs (s : State) : (s.retireV).pkgs = s.pkgs := rfl
@[simp] theorem State.retireV_teams (s : State) : (s.retireV).teams = s.teams := rfl
@[simp] theorem State.retireV_failedTeams (s : State) : (s.retireV).failedTeams = s.failedTeams := rfl
@[simp] theorem State.retireV_roster (s : State) : (s.retireV).roster = s.roster := rfl
@[simp] theorem State.retireV_mem (s : State) : (s.retireV).mem = s.mem := rfl
@[simp] theorem State.retireV_dev (s : State) : (s.retireV).dev = s.dev := rfl
@[simp] theorem State.retireV_poison (s : State) : (s.retireV).poison = s.poison := rfl
@[simp] theorem State.retireV_streams (s : State) : (s.retireV).streams = s.streams := rfl
@[simp] theorem State.retireV_wire (s : State) : (s.retireV).wire = s.wire := rfl
@[simp] theorem State.retireV_answer (s : State) : (s.retireV).answer = s.answer := rfl
@[simp] theorem State.retireV_tier (s : State) : (s.retireV).tier = s.tier := rfl
@[simp] theorem State.retireV_now (s : State) : (s.retireV).now = s.now := rfl
@[simp] theorem State.retireV_agenda (s : State) : (s.retireV).agenda = s.agenda := rfl
@[simp] theorem State.retireV_stop (s : State) : (s.retireV).stop = s.stop := rfl
@[simp] theorem State.retireV_free (s : State) : (s.retireV).free = s.free := rfl
@[simp] theorem State.retireV_teamCount (s : State) : (s.retireV).teamCount = s.teamCount := rfl

/-! ### `State.jump` -/

@[simp] theorem State.jump_parked (s : State) (a : Word) : (s.jump a).parked = s.parked := rfl
@[simp] theorem State.jump_cores (s : State) (a : Word) : (s.jump a).cores = s.cores := rfl
@[simp] theorem State.jump_quads (s : State) (a : Word) : (s.jump a).quads = s.quads := rfl
@[simp] theorem State.jump_dies (s : State) (a : Word) : (s.jump a).dies = s.dies := rfl
@[simp] theorem State.jump_pkgs (s : State) (a : Word) : (s.jump a).pkgs = s.pkgs := rfl
@[simp] theorem State.jump_teams (s : State) (a : Word) : (s.jump a).teams = s.teams := rfl
@[simp] theorem State.jump_failedTeams (s : State) (a : Word) : (s.jump a).failedTeams = s.failedTeams := rfl
@[simp] theorem State.jump_roster (s : State) (a : Word) : (s.jump a).roster = s.roster := rfl
@[simp] theorem State.jump_mem (s : State) (a : Word) : (s.jump a).mem = s.mem := rfl
@[simp] theorem State.jump_dev (s : State) (a : Word) : (s.jump a).dev = s.dev := rfl
@[simp] theorem State.jump_poison (s : State) (a : Word) : (s.jump a).poison = s.poison := rfl
@[simp] theorem State.jump_streams (s : State) (a : Word) : (s.jump a).streams = s.streams := rfl
@[simp] theorem State.jump_wire (s : State) (a : Word) : (s.jump a).wire = s.wire := rfl
@[simp] theorem State.jump_answer (s : State) (a : Word) : (s.jump a).answer = s.answer := rfl
@[simp] theorem State.jump_tier (s : State) (a : Word) : (s.jump a).tier = s.tier := rfl
@[simp] theorem State.jump_now (s : State) (a : Word) : (s.jump a).now = s.now := rfl
@[simp] theorem State.jump_agenda (s : State) (a : Word) : (s.jump a).agenda = s.agenda := rfl
@[simp] theorem State.jump_stop (s : State) (a : Word) : (s.jump a).stop = s.stop := rfl
@[simp] theorem State.jump_free (s : State) (a : Word) : (s.jump a).free = s.free := rfl
@[simp] theorem State.jump_teamCount (s : State) (a : Word) : (s.jump a).teamCount = s.teamCount := rfl

/-! ### `State.wait` -/

@[simp] theorem State.wait_parked (s : State) (w : Wait) : (s.wait w).parked = s.parked := rfl
@[simp] theorem State.wait_cores (s : State) (w : Wait) : (s.wait w).cores = s.cores := rfl
@[simp] theorem State.wait_quads (s : State) (w : Wait) : (s.wait w).quads = s.quads := rfl
@[simp] theorem State.wait_dies (s : State) (w : Wait) : (s.wait w).dies = s.dies := rfl
@[simp] theorem State.wait_pkgs (s : State) (w : Wait) : (s.wait w).pkgs = s.pkgs := rfl
@[simp] theorem State.wait_teams (s : State) (w : Wait) : (s.wait w).teams = s.teams := rfl
@[simp] theorem State.wait_failedTeams (s : State) (w : Wait) : (s.wait w).failedTeams = s.failedTeams := rfl
@[simp] theorem State.wait_roster (s : State) (w : Wait) : (s.wait w).roster = s.roster := rfl
@[simp] theorem State.wait_mem (s : State) (w : Wait) : (s.wait w).mem = s.mem := rfl
@[simp] theorem State.wait_dev (s : State) (w : Wait) : (s.wait w).dev = s.dev := rfl
@[simp] theorem State.wait_poison (s : State) (w : Wait) : (s.wait w).poison = s.poison := rfl
@[simp] theorem State.wait_streams (s : State) (w : Wait) : (s.wait w).streams = s.streams := rfl
@[simp] theorem State.wait_wire (s : State) (w : Wait) : (s.wait w).wire = s.wire := rfl
@[simp] theorem State.wait_answer (s : State) (w : Wait) : (s.wait w).answer = s.answer := rfl
@[simp] theorem State.wait_tier (s : State) (w : Wait) : (s.wait w).tier = s.tier := rfl
@[simp] theorem State.wait_now (s : State) (w : Wait) : (s.wait w).now = s.now := rfl
@[simp] theorem State.wait_agenda (s : State) (w : Wait) : (s.wait w).agenda = s.agenda := rfl
@[simp] theorem State.wait_stop (s : State) (w : Wait) : (s.wait w).stop = s.stop := rfl
@[simp] theorem State.wait_free (s : State) (w : Wait) : (s.wait w).free = s.free := rfl
@[simp] theorem State.wait_teamCount (s : State) (w : Wait) : (s.wait w).teamCount = s.teamCount := rfl

/-! ### `State.setCore` -/

@[simp] theorem State.setCore_hart (s : State) (k : CoreId) (x : Core) : (s.setCore k x).hart = s.hart := rfl
@[simp] theorem State.setCore_parked (s : State) (k : CoreId) (x : Core) : (s.setCore k x).parked = s.parked := rfl
@[simp] theorem State.setCore_quads (s : State) (k : CoreId) (x : Core) : (s.setCore k x).quads = s.quads := rfl
@[simp] theorem State.setCore_dies (s : State) (k : CoreId) (x : Core) : (s.setCore k x).dies = s.dies := rfl
@[simp] theorem State.setCore_pkgs (s : State) (k : CoreId) (x : Core) : (s.setCore k x).pkgs = s.pkgs := rfl
@[simp] theorem State.setCore_teams (s : State) (k : CoreId) (x : Core) : (s.setCore k x).teams = s.teams := rfl
@[simp] theorem State.setCore_failedTeams (s : State) (k : CoreId) (x : Core) : (s.setCore k x).failedTeams = s.failedTeams := rfl
@[simp] theorem State.setCore_roster (s : State) (k : CoreId) (x : Core) : (s.setCore k x).roster = s.roster := rfl
@[simp] theorem State.setCore_mem (s : State) (k : CoreId) (x : Core) : (s.setCore k x).mem = s.mem := rfl
@[simp] theorem State.setCore_dev (s : State) (k : CoreId) (x : Core) : (s.setCore k x).dev = s.dev := rfl
@[simp] theorem State.setCore_poison (s : State) (k : CoreId) (x : Core) : (s.setCore k x).poison = s.poison := rfl
@[simp] theorem State.setCore_streams (s : State) (k : CoreId) (x : Core) : (s.setCore k x).streams = s.streams := rfl
@[simp] theorem State.setCore_wire (s : State) (k : CoreId) (x : Core) : (s.setCore k x).wire = s.wire := rfl
@[simp] theorem State.setCore_answer (s : State) (k : CoreId) (x : Core) : (s.setCore k x).answer = s.answer := rfl
@[simp] theorem State.setCore_tier (s : State) (k : CoreId) (x : Core) : (s.setCore k x).tier = s.tier := rfl
@[simp] theorem State.setCore_now (s : State) (k : CoreId) (x : Core) : (s.setCore k x).now = s.now := rfl
@[simp] theorem State.setCore_agenda (s : State) (k : CoreId) (x : Core) : (s.setCore k x).agenda = s.agenda := rfl
@[simp] theorem State.setCore_stop (s : State) (k : CoreId) (x : Core) : (s.setCore k x).stop = s.stop := rfl
@[simp] theorem State.setCore_free (s : State) (k : CoreId) (x : Core) : (s.setCore k x).free = s.free := rfl
@[simp] theorem State.setCore_teamCount (s : State) (k : CoreId) (x : Core) : (s.setCore k x).teamCount = s.teamCount := rfl

/-! ### `State.setQuad` -/

@[simp] theorem State.setQuad_hart (s : State) (k : QuadId) (x : Quad) : (s.setQuad k x).hart = s.hart := rfl
@[simp] theorem State.setQuad_parked (s : State) (k : QuadId) (x : Quad) : (s.setQuad k x).parked = s.parked := rfl
@[simp] theorem State.setQuad_cores (s : State) (k : QuadId) (x : Quad) : (s.setQuad k x).cores = s.cores := rfl
@[simp] theorem State.setQuad_dies (s : State) (k : QuadId) (x : Quad) : (s.setQuad k x).dies = s.dies := rfl
@[simp] theorem State.setQuad_pkgs (s : State) (k : QuadId) (x : Quad) : (s.setQuad k x).pkgs = s.pkgs := rfl
@[simp] theorem State.setQuad_teams (s : State) (k : QuadId) (x : Quad) : (s.setQuad k x).teams = s.teams := rfl
@[simp] theorem State.setQuad_failedTeams (s : State) (k : QuadId) (x : Quad) : (s.setQuad k x).failedTeams = s.failedTeams := rfl
@[simp] theorem State.setQuad_roster (s : State) (k : QuadId) (x : Quad) : (s.setQuad k x).roster = s.roster := rfl
@[simp] theorem State.setQuad_mem (s : State) (k : QuadId) (x : Quad) : (s.setQuad k x).mem = s.mem := rfl
@[simp] theorem State.setQuad_dev (s : State) (k : QuadId) (x : Quad) : (s.setQuad k x).dev = s.dev := rfl
@[simp] theorem State.setQuad_poison (s : State) (k : QuadId) (x : Quad) : (s.setQuad k x).poison = s.poison := rfl
@[simp] theorem State.setQuad_streams (s : State) (k : QuadId) (x : Quad) : (s.setQuad k x).streams = s.streams := rfl
@[simp] theorem State.setQuad_wire (s : State) (k : QuadId) (x : Quad) : (s.setQuad k x).wire = s.wire := rfl
@[simp] theorem State.setQuad_answer (s : State) (k : QuadId) (x : Quad) : (s.setQuad k x).answer = s.answer := rfl
@[simp] theorem State.setQuad_tier (s : State) (k : QuadId) (x : Quad) : (s.setQuad k x).tier = s.tier := rfl
@[simp] theorem State.setQuad_now (s : State) (k : QuadId) (x : Quad) : (s.setQuad k x).now = s.now := rfl
@[simp] theorem State.setQuad_agenda (s : State) (k : QuadId) (x : Quad) : (s.setQuad k x).agenda = s.agenda := rfl
@[simp] theorem State.setQuad_stop (s : State) (k : QuadId) (x : Quad) : (s.setQuad k x).stop = s.stop := rfl
@[simp] theorem State.setQuad_free (s : State) (k : QuadId) (x : Quad) : (s.setQuad k x).free = s.free := rfl
@[simp] theorem State.setQuad_teamCount (s : State) (k : QuadId) (x : Quad) : (s.setQuad k x).teamCount = s.teamCount := rfl

/-! ### `State.setDie` -/

@[simp] theorem State.setDie_hart (s : State) (k : DieId) (x : Die) : (s.setDie k x).hart = s.hart := rfl
@[simp] theorem State.setDie_parked (s : State) (k : DieId) (x : Die) : (s.setDie k x).parked = s.parked := rfl
@[simp] theorem State.setDie_cores (s : State) (k : DieId) (x : Die) : (s.setDie k x).cores = s.cores := rfl
@[simp] theorem State.setDie_quads (s : State) (k : DieId) (x : Die) : (s.setDie k x).quads = s.quads := rfl
@[simp] theorem State.setDie_pkgs (s : State) (k : DieId) (x : Die) : (s.setDie k x).pkgs = s.pkgs := rfl
@[simp] theorem State.setDie_teams (s : State) (k : DieId) (x : Die) : (s.setDie k x).teams = s.teams := rfl
@[simp] theorem State.setDie_failedTeams (s : State) (k : DieId) (x : Die) : (s.setDie k x).failedTeams = s.failedTeams := rfl
@[simp] theorem State.setDie_roster (s : State) (k : DieId) (x : Die) : (s.setDie k x).roster = s.roster := rfl
@[simp] theorem State.setDie_mem (s : State) (k : DieId) (x : Die) : (s.setDie k x).mem = s.mem := rfl
@[simp] theorem State.setDie_dev (s : State) (k : DieId) (x : Die) : (s.setDie k x).dev = s.dev := rfl
@[simp] theorem State.setDie_poison (s : State) (k : DieId) (x : Die) : (s.setDie k x).poison = s.poison := rfl
@[simp] theorem State.setDie_streams (s : State) (k : DieId) (x : Die) : (s.setDie k x).streams = s.streams := rfl
@[simp] theorem State.setDie_wire (s : State) (k : DieId) (x : Die) : (s.setDie k x).wire = s.wire := rfl
@[simp] theorem State.setDie_answer (s : State) (k : DieId) (x : Die) : (s.setDie k x).answer = s.answer := rfl
@[simp] theorem State.setDie_tier (s : State) (k : DieId) (x : Die) : (s.setDie k x).tier = s.tier := rfl
@[simp] theorem State.setDie_now (s : State) (k : DieId) (x : Die) : (s.setDie k x).now = s.now := rfl
@[simp] theorem State.setDie_agenda (s : State) (k : DieId) (x : Die) : (s.setDie k x).agenda = s.agenda := rfl
@[simp] theorem State.setDie_stop (s : State) (k : DieId) (x : Die) : (s.setDie k x).stop = s.stop := rfl
@[simp] theorem State.setDie_free (s : State) (k : DieId) (x : Die) : (s.setDie k x).free = s.free := rfl
@[simp] theorem State.setDie_teamCount (s : State) (k : DieId) (x : Die) : (s.setDie k x).teamCount = s.teamCount := rfl

/-! ### `State.setPkg` -/

@[simp] theorem State.setPkg_hart (s : State) (k : PkgId) (x : Pkg) : (s.setPkg k x).hart = s.hart := rfl
@[simp] theorem State.setPkg_parked (s : State) (k : PkgId) (x : Pkg) : (s.setPkg k x).parked = s.parked := rfl
@[simp] theorem State.setPkg_cores (s : State) (k : PkgId) (x : Pkg) : (s.setPkg k x).cores = s.cores := rfl
@[simp] theorem State.setPkg_quads (s : State) (k : PkgId) (x : Pkg) : (s.setPkg k x).quads = s.quads := rfl
@[simp] theorem State.setPkg_dies (s : State) (k : PkgId) (x : Pkg) : (s.setPkg k x).dies = s.dies := rfl
@[simp] theorem State.setPkg_teams (s : State) (k : PkgId) (x : Pkg) : (s.setPkg k x).teams = s.teams := rfl
@[simp] theorem State.setPkg_failedTeams (s : State) (k : PkgId) (x : Pkg) : (s.setPkg k x).failedTeams = s.failedTeams := rfl
@[simp] theorem State.setPkg_roster (s : State) (k : PkgId) (x : Pkg) : (s.setPkg k x).roster = s.roster := rfl
@[simp] theorem State.setPkg_mem (s : State) (k : PkgId) (x : Pkg) : (s.setPkg k x).mem = s.mem := rfl
@[simp] theorem State.setPkg_dev (s : State) (k : PkgId) (x : Pkg) : (s.setPkg k x).dev = s.dev := rfl
@[simp] theorem State.setPkg_poison (s : State) (k : PkgId) (x : Pkg) : (s.setPkg k x).poison = s.poison := rfl
@[simp] theorem State.setPkg_streams (s : State) (k : PkgId) (x : Pkg) : (s.setPkg k x).streams = s.streams := rfl
@[simp] theorem State.setPkg_wire (s : State) (k : PkgId) (x : Pkg) : (s.setPkg k x).wire = s.wire := rfl
@[simp] theorem State.setPkg_answer (s : State) (k : PkgId) (x : Pkg) : (s.setPkg k x).answer = s.answer := rfl
@[simp] theorem State.setPkg_tier (s : State) (k : PkgId) (x : Pkg) : (s.setPkg k x).tier = s.tier := rfl
@[simp] theorem State.setPkg_now (s : State) (k : PkgId) (x : Pkg) : (s.setPkg k x).now = s.now := rfl
@[simp] theorem State.setPkg_agenda (s : State) (k : PkgId) (x : Pkg) : (s.setPkg k x).agenda = s.agenda := rfl
@[simp] theorem State.setPkg_stop (s : State) (k : PkgId) (x : Pkg) : (s.setPkg k x).stop = s.stop := rfl
@[simp] theorem State.setPkg_free (s : State) (k : PkgId) (x : Pkg) : (s.setPkg k x).free = s.free := rfl
@[simp] theorem State.setPkg_teamCount (s : State) (k : PkgId) (x : Pkg) : (s.setPkg k x).teamCount = s.teamCount := rfl

/-! ### `State.setTeam` -/

@[simp] theorem State.setTeam_hart (s : State) (x : Team) : (s.setTeam x).hart = s.hart := rfl
@[simp] theorem State.setTeam_parked (s : State) (x : Team) : (s.setTeam x).parked = s.parked := rfl
@[simp] theorem State.setTeam_cores (s : State) (x : Team) : (s.setTeam x).cores = s.cores := rfl
@[simp] theorem State.setTeam_quads (s : State) (x : Team) : (s.setTeam x).quads = s.quads := rfl
@[simp] theorem State.setTeam_dies (s : State) (x : Team) : (s.setTeam x).dies = s.dies := rfl
@[simp] theorem State.setTeam_pkgs (s : State) (x : Team) : (s.setTeam x).pkgs = s.pkgs := rfl
@[simp] theorem State.setTeam_failedTeams (s : State) (x : Team) : (s.setTeam x).failedTeams = s.failedTeams := rfl
@[simp] theorem State.setTeam_roster (s : State) (x : Team) : (s.setTeam x).roster = s.roster := rfl
@[simp] theorem State.setTeam_mem (s : State) (x : Team) : (s.setTeam x).mem = s.mem := rfl
@[simp] theorem State.setTeam_dev (s : State) (x : Team) : (s.setTeam x).dev = s.dev := rfl
@[simp] theorem State.setTeam_poison (s : State) (x : Team) : (s.setTeam x).poison = s.poison := rfl
@[simp] theorem State.setTeam_streams (s : State) (x : Team) : (s.setTeam x).streams = s.streams := rfl
@[simp] theorem State.setTeam_wire (s : State) (x : Team) : (s.setTeam x).wire = s.wire := rfl
@[simp] theorem State.setTeam_answer (s : State) (x : Team) : (s.setTeam x).answer = s.answer := rfl
@[simp] theorem State.setTeam_tier (s : State) (x : Team) : (s.setTeam x).tier = s.tier := rfl
@[simp] theorem State.setTeam_now (s : State) (x : Team) : (s.setTeam x).now = s.now := rfl
@[simp] theorem State.setTeam_agenda (s : State) (x : Team) : (s.setTeam x).agenda = s.agenda := rfl
@[simp] theorem State.setTeam_stop (s : State) (x : Team) : (s.setTeam x).stop = s.stop := rfl
@[simp] theorem State.setTeam_free (s : State) (x : Team) : (s.setTeam x).free = s.free := rfl
@[simp] theorem State.setTeam_teamCount (s : State) (x : Team) : (s.setTeam x).teamCount = s.teamCount := rfl

/-! ### `State.setReg` -/

@[simp] theorem State.setReg_hart (s : State) (d : DieId) (off : Nat) (x : Word) : (s.setReg d off x).hart = s.hart := rfl
@[simp] theorem State.setReg_parked (s : State) (d : DieId) (off : Nat) (x : Word) : (s.setReg d off x).parked = s.parked := rfl
@[simp] theorem State.setReg_cores (s : State) (d : DieId) (off : Nat) (x : Word) : (s.setReg d off x).cores = s.cores := rfl
@[simp] theorem State.setReg_quads (s : State) (d : DieId) (off : Nat) (x : Word) : (s.setReg d off x).quads = s.quads := rfl
@[simp] theorem State.setReg_dies (s : State) (d : DieId) (off : Nat) (x : Word) : (s.setReg d off x).dies = s.dies := rfl
@[simp] theorem State.setReg_pkgs (s : State) (d : DieId) (off : Nat) (x : Word) : (s.setReg d off x).pkgs = s.pkgs := rfl
@[simp] theorem State.setReg_teams (s : State) (d : DieId) (off : Nat) (x : Word) : (s.setReg d off x).teams = s.teams := rfl
@[simp] theorem State.setReg_failedTeams (s : State) (d : DieId) (off : Nat) (x : Word) : (s.setReg d off x).failedTeams = s.failedTeams := rfl
@[simp] theorem State.setReg_roster (s : State) (d : DieId) (off : Nat) (x : Word) : (s.setReg d off x).roster = s.roster := rfl
@[simp] theorem State.setReg_mem (s : State) (d : DieId) (off : Nat) (x : Word) : (s.setReg d off x).mem = s.mem := rfl
@[simp] theorem State.setReg_poison (s : State) (d : DieId) (off : Nat) (x : Word) : (s.setReg d off x).poison = s.poison := rfl
@[simp] theorem State.setReg_streams (s : State) (d : DieId) (off : Nat) (x : Word) : (s.setReg d off x).streams = s.streams := rfl
@[simp] theorem State.setReg_wire (s : State) (d : DieId) (off : Nat) (x : Word) : (s.setReg d off x).wire = s.wire := rfl
@[simp] theorem State.setReg_answer (s : State) (d : DieId) (off : Nat) (x : Word) : (s.setReg d off x).answer = s.answer := rfl
@[simp] theorem State.setReg_tier (s : State) (d : DieId) (off : Nat) (x : Word) : (s.setReg d off x).tier = s.tier := rfl
@[simp] theorem State.setReg_now (s : State) (d : DieId) (off : Nat) (x : Word) : (s.setReg d off x).now = s.now := rfl
@[simp] theorem State.setReg_agenda (s : State) (d : DieId) (off : Nat) (x : Word) : (s.setReg d off x).agenda = s.agenda := rfl
@[simp] theorem State.setReg_stop (s : State) (d : DieId) (off : Nat) (x : Word) : (s.setReg d off x).stop = s.stop := rfl
@[simp] theorem State.setReg_free (s : State) (d : DieId) (off : Nat) (x : Word) : (s.setReg d off x).free = s.free := rfl
@[simp] theorem State.setReg_teamCount (s : State) (d : DieId) (off : Nat) (x : Word) : (s.setReg d off x).teamCount = s.teamCount := rfl

/-! ### `State.setStream` -/

@[simp] theorem State.setStream_hart (s : State) (k : Nat) (x : Stream) : (s.setStream k x).hart = s.hart := rfl
@[simp] theorem State.setStream_parked (s : State) (k : Nat) (x : Stream) : (s.setStream k x).parked = s.parked := rfl
@[simp] theorem State.setStream_cores (s : State) (k : Nat) (x : Stream) : (s.setStream k x).cores = s.cores := rfl
@[simp] theorem State.setStream_quads (s : State) (k : Nat) (x : Stream) : (s.setStream k x).quads = s.quads := rfl
@[simp] theorem State.setStream_dies (s : State) (k : Nat) (x : Stream) : (s.setStream k x).dies = s.dies := rfl
@[simp] theorem State.setStream_pkgs (s : State) (k : Nat) (x : Stream) : (s.setStream k x).pkgs = s.pkgs := rfl
@[simp] theorem State.setStream_teams (s : State) (k : Nat) (x : Stream) : (s.setStream k x).teams = s.teams := rfl
@[simp] theorem State.setStream_failedTeams (s : State) (k : Nat) (x : Stream) : (s.setStream k x).failedTeams = s.failedTeams := rfl
@[simp] theorem State.setStream_roster (s : State) (k : Nat) (x : Stream) : (s.setStream k x).roster = s.roster := rfl
@[simp] theorem State.setStream_mem (s : State) (k : Nat) (x : Stream) : (s.setStream k x).mem = s.mem := rfl
@[simp] theorem State.setStream_dev (s : State) (k : Nat) (x : Stream) : (s.setStream k x).dev = s.dev := rfl
@[simp] theorem State.setStream_poison (s : State) (k : Nat) (x : Stream) : (s.setStream k x).poison = s.poison := rfl
@[simp] theorem State.setStream_wire (s : State) (k : Nat) (x : Stream) : (s.setStream k x).wire = s.wire := rfl
@[simp] theorem State.setStream_answer (s : State) (k : Nat) (x : Stream) : (s.setStream k x).answer = s.answer := rfl
@[simp] theorem State.setStream_tier (s : State) (k : Nat) (x : Stream) : (s.setStream k x).tier = s.tier := rfl
@[simp] theorem State.setStream_now (s : State) (k : Nat) (x : Stream) : (s.setStream k x).now = s.now := rfl
@[simp] theorem State.setStream_agenda (s : State) (k : Nat) (x : Stream) : (s.setStream k x).agenda = s.agenda := rfl
@[simp] theorem State.setStream_stop (s : State) (k : Nat) (x : Stream) : (s.setStream k x).stop = s.stop := rfl
@[simp] theorem State.setStream_free (s : State) (k : Nat) (x : Stream) : (s.setStream k x).free = s.free := rfl
@[simp] theorem State.setStream_teamCount (s : State) (k : Nat) (x : Stream) : (s.setStream k x).teamCount = s.teamCount := rfl

/-! ### `State.take` -/

@[simp] theorem State.take_hart (s : State) : (s.take).hart = s.hart := rfl
@[simp] theorem State.take_parked (s : State) : (s.take).parked = s.parked := rfl
@[simp] theorem State.take_cores (s : State) : (s.take).cores = s.cores := rfl
@[simp] theorem State.take_quads (s : State) : (s.take).quads = s.quads := rfl
@[simp] theorem State.take_dies (s : State) : (s.take).dies = s.dies := rfl
@[simp] theorem State.take_pkgs (s : State) : (s.take).pkgs = s.pkgs := rfl
@[simp] theorem State.take_teams (s : State) : (s.take).teams = s.teams := rfl
@[simp] theorem State.take_failedTeams (s : State) : (s.take).failedTeams = s.failedTeams := rfl
@[simp] theorem State.take_roster (s : State) : (s.take).roster = s.roster := rfl
@[simp] theorem State.take_mem (s : State) : (s.take).mem = s.mem := rfl
@[simp] theorem State.take_dev (s : State) : (s.take).dev = s.dev := rfl
@[simp] theorem State.take_poison (s : State) : (s.take).poison = s.poison := rfl
@[simp] theorem State.take_streams (s : State) : (s.take).streams = s.streams := rfl
@[simp] theorem State.take_wire (s : State) : (s.take).wire = s.wire := rfl
@[simp] theorem State.take_answer (s : State) : (s.take).answer = s.answer := rfl
@[simp] theorem State.take_tier (s : State) : (s.take).tier = s.tier := rfl
@[simp] theorem State.take_now (s : State) : (s.take).now = s.now := rfl
@[simp] theorem State.take_agenda (s : State) : (s.take).agenda = s.agenda := rfl
@[simp] theorem State.take_stop (s : State) : (s.take).stop = s.stop := rfl
@[simp] theorem State.take_teamCount (s : State) : (s.take).teamCount = s.teamCount := rfl

/-! ### `State.setMyCore` -/

@[simp] theorem State.setMyCore_hart (s : State) (x : Core) : (s.setMyCore x).hart = s.hart := rfl
@[simp] theorem State.setMyCore_parked (s : State) (x : Core) : (s.setMyCore x).parked = s.parked := rfl
@[simp] theorem State.setMyCore_quads (s : State) (x : Core) : (s.setMyCore x).quads = s.quads := rfl
@[simp] theorem State.setMyCore_dies (s : State) (x : Core) : (s.setMyCore x).dies = s.dies := rfl
@[simp] theorem State.setMyCore_pkgs (s : State) (x : Core) : (s.setMyCore x).pkgs = s.pkgs := rfl
@[simp] theorem State.setMyCore_teams (s : State) (x : Core) : (s.setMyCore x).teams = s.teams := rfl
@[simp] theorem State.setMyCore_failedTeams (s : State) (x : Core) : (s.setMyCore x).failedTeams = s.failedTeams := rfl
@[simp] theorem State.setMyCore_roster (s : State) (x : Core) : (s.setMyCore x).roster = s.roster := rfl
@[simp] theorem State.setMyCore_mem (s : State) (x : Core) : (s.setMyCore x).mem = s.mem := rfl
@[simp] theorem State.setMyCore_dev (s : State) (x : Core) : (s.setMyCore x).dev = s.dev := rfl
@[simp] theorem State.setMyCore_poison (s : State) (x : Core) : (s.setMyCore x).poison = s.poison := rfl
@[simp] theorem State.setMyCore_streams (s : State) (x : Core) : (s.setMyCore x).streams = s.streams := rfl
@[simp] theorem State.setMyCore_wire (s : State) (x : Core) : (s.setMyCore x).wire = s.wire := rfl
@[simp] theorem State.setMyCore_answer (s : State) (x : Core) : (s.setMyCore x).answer = s.answer := rfl
@[simp] theorem State.setMyCore_tier (s : State) (x : Core) : (s.setMyCore x).tier = s.tier := rfl
@[simp] theorem State.setMyCore_now (s : State) (x : Core) : (s.setMyCore x).now = s.now := rfl
@[simp] theorem State.setMyCore_agenda (s : State) (x : Core) : (s.setMyCore x).agenda = s.agenda := rfl
@[simp] theorem State.setMyCore_stop (s : State) (x : Core) : (s.setMyCore x).stop = s.stop := rfl
@[simp] theorem State.setMyCore_free (s : State) (x : Core) : (s.setMyCore x).free = s.free := rfl
@[simp] theorem State.setMyCore_teamCount (s : State) (x : Core) : (s.setMyCore x).teamCount = s.teamCount := rfl

/-! ### `State.toTick` and `State.passTime` -/

@[simp] theorem State.toTick_hart (s : State) (x : Word) : (s.toTick x).hart = s.hart := by unfold State.toTick; simp only []; split <;> rfl
@[simp] theorem State.toTick_parked (s : State) (x : Word) : (s.toTick x).parked = s.parked := by unfold State.toTick; simp only []; split <;> rfl
@[simp] theorem State.toTick_cores (s : State) (x : Word) : (s.toTick x).cores = s.cores := by unfold State.toTick; simp only []; split <;> rfl
@[simp] theorem State.toTick_quads (s : State) (x : Word) : (s.toTick x).quads = s.quads := by unfold State.toTick; simp only []; split <;> rfl
@[simp] theorem State.toTick_dies (s : State) (x : Word) : (s.toTick x).dies = s.dies := by unfold State.toTick; simp only []; split <;> rfl
@[simp] theorem State.toTick_pkgs (s : State) (x : Word) : (s.toTick x).pkgs = s.pkgs := by unfold State.toTick; simp only []; split <;> rfl
@[simp] theorem State.toTick_teams (s : State) (x : Word) : (s.toTick x).teams = s.teams := by unfold State.toTick; simp only []; split <;> rfl
@[simp] theorem State.toTick_failedTeams (s : State) (x : Word) : (s.toTick x).failedTeams = s.failedTeams := by unfold State.toTick; simp only []; split <;> rfl
@[simp] theorem State.toTick_roster (s : State) (x : Word) : (s.toTick x).roster = s.roster := by unfold State.toTick; simp only []; split <;> rfl
@[simp] theorem State.toTick_mem (s : State) (x : Word) : (s.toTick x).mem = s.mem := by unfold State.toTick; simp only []; split <;> rfl
@[simp] theorem State.toTick_dev (s : State) (x : Word) : (s.toTick x).dev = s.dev := by unfold State.toTick; simp only []; split <;> rfl
@[simp] theorem State.toTick_poison (s : State) (x : Word) : (s.toTick x).poison = s.poison := by unfold State.toTick; simp only []; split <;> rfl
@[simp] theorem State.toTick_streams (s : State) (x : Word) : (s.toTick x).streams = s.streams := by unfold State.toTick; simp only []; split <;> rfl
@[simp] theorem State.toTick_wire (s : State) (x : Word) : (s.toTick x).wire = s.wire := by unfold State.toTick; simp only []; split <;> rfl
@[simp] theorem State.toTick_answer (s : State) (x : Word) : (s.toTick x).answer = s.answer := by unfold State.toTick; simp only []; split <;> rfl
@[simp] theorem State.toTick_tier (s : State) (x : Word) : (s.toTick x).tier = s.tier := by unfold State.toTick; simp only []; split <;> rfl
@[simp] theorem State.toTick_agenda (s : State) (x : Word) : (s.toTick x).agenda = s.agenda := by unfold State.toTick; simp only []; split <;> rfl
@[simp] theorem State.toTick_stop (s : State) (x : Word) : (s.toTick x).stop = s.stop := by unfold State.toTick; simp only []; split <;> rfl
@[simp] theorem State.toTick_free (s : State) (x : Word) : (s.toTick x).free = s.free := by unfold State.toTick; simp only []; split <;> rfl
@[simp] theorem State.toTick_teamCount (s : State) (x : Word) : (s.toTick x).teamCount = s.teamCount := by unfold State.toTick; simp only []; split <;> rfl
@[simp] theorem State.passTime_hart (s : State) : s.passTime.hart = s.hart := s.toTick_hart _
@[simp] theorem State.passTime_parked (s : State) : s.passTime.parked = s.parked := s.toTick_parked _
@[simp] theorem State.passTime_cores (s : State) : s.passTime.cores = s.cores := s.toTick_cores _
@[simp] theorem State.passTime_quads (s : State) : s.passTime.quads = s.quads := s.toTick_quads _
@[simp] theorem State.passTime_dies (s : State) : s.passTime.dies = s.dies := s.toTick_dies _
@[simp] theorem State.passTime_pkgs (s : State) : s.passTime.pkgs = s.pkgs := s.toTick_pkgs _
@[simp] theorem State.passTime_teams (s : State) : s.passTime.teams = s.teams := s.toTick_teams _
@[simp] theorem State.passTime_failedTeams (s : State) : s.passTime.failedTeams = s.failedTeams := s.toTick_failedTeams _
@[simp] theorem State.passTime_roster (s : State) : s.passTime.roster = s.roster := s.toTick_roster _
@[simp] theorem State.passTime_mem (s : State) : s.passTime.mem = s.mem := s.toTick_mem _
@[simp] theorem State.passTime_dev (s : State) : s.passTime.dev = s.dev := s.toTick_dev _
@[simp] theorem State.passTime_poison (s : State) : s.passTime.poison = s.poison := s.toTick_poison _
@[simp] theorem State.passTime_streams (s : State) : s.passTime.streams = s.streams := s.toTick_streams _
@[simp] theorem State.passTime_wire (s : State) : s.passTime.wire = s.wire := s.toTick_wire _
@[simp] theorem State.passTime_answer (s : State) : s.passTime.answer = s.answer := s.toTick_answer _
@[simp] theorem State.passTime_tier (s : State) : s.passTime.tier = s.tier := s.toTick_tier _
@[simp] theorem State.passTime_agenda (s : State) : s.passTime.agenda = s.agenda := s.toTick_agenda _
@[simp] theorem State.passTime_stop (s : State) : s.passTime.stop = s.stop := s.toTick_stop _
@[simp] theorem State.passTime_teamCount (s : State) : s.passTime.teamCount = s.teamCount := s.toTick_teamCount _

/-- What a step of the time base can do: only the tick changes, and a free value is used. -/
theorem State.passTime_eq (s : State) : s.passTime = { s with now := s.passTime.now, free := s.free + 1 } := by
  unfold State.passTime State.toTick; simp only []; split <;> rfl

/-- The time base never steps backward (R103, R344). -/
theorem State.now_le_toTick (s : State) (x : Word) : s.now.toNat ≤ (s.toTick x).now.toNat := by
  unfold State.toTick; simp only []; split
  · next h => exact Nat.le_of_lt (by simpa [BitVec.ult] using h)
  · exact Nat.le_refl _

theorem State.now_le_passTime (s : State) : s.now.toNat ≤ s.passTime.now.toNat := s.now_le_toTick _

/-- The least start tick agreed, or `m`: not above `m`, nor above any of them. -/
theorem State.limit_le (ts : Tab Team) (m : Word) :
    let f := fun (m : Word) (y : Nat × Team) => if y.2.st == .placed && y.2.committed && y.2.start.ult m then y.2.start else m
    (ts.foldl f m).toNat ≤ m.toNat ∧
      ∀ y ∈ ts, y.2.st = .placed → y.2.committed = true → (ts.foldl f m).toNat ≤ y.2.start.toNat := by
  intro f
  induction ts generalizing m with
  | nil => exact ⟨Nat.le_refl _, fun y h => absurd h (List.not_mem_nil)⟩
  | cons z ts ih =>
    have hz : (f m z).toNat ≤ m.toNat ∧ (z.2.st = .placed → z.2.committed = true → (f m z).toNat ≤ z.2.start.toNat) := by
      simp only [f]
      split
      · next h => simp [BitVec.ult] at h; exact ⟨by omega, fun _ _ => Nat.le_refl _⟩
      · next h => refine ⟨Nat.le_refl _, fun a b => ?_⟩; simp [BitVec.ult, a, b] at h; omega
    obtain ⟨h1, h2⟩ := ih (f m z)
    refine ⟨Nat.le_trans h1 hz.1, fun y hy a b => ?_⟩
    rcases List.mem_cons.mp hy with rfl | hy
    · exact Nat.le_trans h1 (hz.2 a b)
    · exact h2 y hy a b

/-- The time base does not pass the tick on which a team that has not started yet has agreed (R345). -/
theorem State.toTick_le_start (s : State) (x : Word) (y : Nat × Team) (hy : y ∈ s.teams) (hp : y.2.st = .placed)
    (hc : y.2.committed = true) (h : s.now.toNat ≤ y.2.start.toNat) : (s.toTick x).now.toNat ≤ y.2.start.toNat := by
  unfold State.toTick; simp only []; split
  · exact (State.limit_le s.teams x).2 y hy hp hc
  · exact h

theorem State.passTime_le_start (s : State) (y : Nat × Team) (hy : y ∈ s.teams) (hp : y.2.st = .placed)
    (hc : y.2.committed = true) (h : s.now.toNat ≤ y.2.start.toNat) : s.passTime.now.toNat ≤ y.2.start.toNat :=
  s.toTick_le_start _ y hy hp hc h

/-! ### A hart: `setS`, `setV`, `setP` -/

@[simp] theorem Hart.setS_pos (h : Hart) (r : BitVec 5) (x : Word) : (h.setS r x).pos = h.pos := by unfold Hart.setS; split <;> rfl
@[simp] theorem Hart.setS_run (h : Hart) (r : BitVec 5) (x : Word) : (h.setS r x).run = h.run := by unfold Hart.setS; split <;> rfl
@[simp] theorem Hart.setS_team (h : Hart) (r : BitVec 5) (x : Word) : (h.setS r x).team = h.team := by unfold Hart.setS; split <;> rfl
@[simp] theorem Hart.setS_v (h : Hart) (r : BitVec 5) (x : Word) : (h.setS r x).v = h.v := by unfold Hart.setS; split <;> rfl
@[simp] theorem Hart.setS_p (h : Hart) (r : BitVec 5) (x : Word) : (h.setS r x).p = h.p := by unfold Hart.setS; split <;> rfl
@[simp] theorem Hart.setS_vq (h : Hart) (r : BitVec 5) (x : Word) : (h.setS r x).vq = h.vq := by unfold Hart.setS; split <;> rfl
@[simp] theorem Hart.setS_sq (h : Hart) (r : BitVec 5) (x : Word) : (h.setS r x).sq = h.sq := by unfold Hart.setS; split <;> rfl
@[simp] theorem Hart.setS_dl (h : Hart) (r : BitVec 5) (x : Word) : (h.setS r x).dl = h.dl := by unfold Hart.setS; split <;> rfl
@[simp] theorem Hart.setS_g (h : Hart) (r : BitVec 5) (x : Word) : (h.setS r x).g = h.g := by unfold Hart.setS; split <;> rfl
@[simp] theorem Hart.setS_b (h : Hart) (r : BitVec 5) (x : Word) : (h.setS r x).b = h.b := by unfold Hart.setS; split <;> rfl
@[simp] theorem Hart.setS_pc (h : Hart) (r : BitVec 5) (x : Word) : (h.setS r x).pc = h.pc := by unfold Hart.setS; split <;> rfl
@[simp] theorem Hart.setS_vl (h : Hart) (r : BitVec 5) (x : Word) : (h.setS r x).vl = h.vl := by unfold Hart.setS; split <;> rfl
@[simp] theorem Hart.setS_vty (h : Hart) (r : BitVec 5) (x : Word) : (h.setS r x).vty = h.vty := by unfold Hart.setS; split <;> rfl
@[simp] theorem Hart.setS_vix (h : Hart) (r : BitVec 5) (x : Word) : (h.setS r x).vix = h.vix := by unfold Hart.setS; split <;> rfl
@[simp] theorem Hart.setS_fcsr (h : Hart) (r : BitVec 5) (x : Word) : (h.setS r x).fcsr = h.fcsr := by unfold Hart.setS; split <;> rfl
@[simp] theorem Hart.setS_xlm (h : Hart) (r : BitVec 5) (x : Word) : (h.setS r x).xlm = h.xlm := by unfold Hart.setS; split <;> rfl
@[simp] theorem Hart.setS_fm (h : Hart) (r : BitVec 5) (x : Word) : (h.setS r x).fm = h.fm := by unfold Hart.setS; split <;> rfl
@[simp] theorem Hart.setS_rerr (h : Hart) (r : BitVec 5) (x : Word) : (h.setS r x).rerr = h.rerr := by unfold Hart.setS; split <;> rfl
@[simp] theorem Hart.setS_fthr (h : Hart) (r : BitVec 5) (x : Word) : (h.setS r x).fthr = h.fthr := by unfold Hart.setS; split <;> rfl
@[simp] theorem Hart.setS_zol (h : Hart) (r : BitVec 5) (x : Word) : (h.setS r x).zol = h.zol := by unfold Hart.setS; split <;> rfl
@[simp] theorem Hart.setS_hrk (h : Hart) (r : BitVec 5) (x : Word) : (h.setS r x).hrk = h.hrk := by unfold Hart.setS; split <;> rfl
@[simp] theorem Hart.setS_depth (h : Hart) (r : BitVec 5) (x : Word) : (h.setS r x).depth = h.depth := by unfold Hart.setS; split <;> rfl
@[simp] theorem Hart.setS_levels (h : Hart) (r : BitVec 5) (x : Word) : (h.setS r x).levels = h.levels := by unfold Hart.setS; split <;> rfl
@[simp] theorem Hart.setS_qmap (h : Hart) (r : BitVec 5) (x : Word) : (h.setS r x).qmap = h.qmap := by unfold Hart.setS; split <;> rfl
@[simp] theorem Hart.setS_flw (h : Hart) (r : BitVec 5) (x : Word) : (h.setS r x).flw = h.flw := by unfold Hart.setS; split <;> rfl
@[simp] theorem Hart.setS_tcause (h : Hart) (r : BitVec 5) (x : Word) : (h.setS r x).tcause = h.tcause := by unfold Hart.setS; split <;> rfl
@[simp] theorem Hart.setS_tval (h : Hart) (r : BitVec 5) (x : Word) : (h.setS r x).tval = h.tval := by unfold Hart.setS; split <;> rfl
@[simp] theorem Hart.setS_tepc (h : Hart) (r : BitVec 5) (x : Word) : (h.setS r x).tepc = h.tepc := by unfold Hart.setS; split <;> rfl
@[simp] theorem Hart.setS_tvec (h : Hart) (r : BitVec 5) (x : Word) : (h.setS r x).tvec = h.tvec := by unfold Hart.setS; split <;> rfl
@[simp] theorem Hart.setS_hs (h : Hart) (r : BitVec 5) (x : Word) : (h.setS r x).hs = h.hs := by unfold Hart.setS; split <;> rfl
@[simp] theorem Hart.setS_phs (h : Hart) (r : BitVec 5) (x : Word) : (h.setS r x).phs = h.phs := by unfold Hart.setS; split <;> rfl
@[simp] theorem Hart.setS_asy (h : Hart) (r : BitVec 5) (x : Word) : (h.setS r x).asy = h.asy := by unfold Hart.setS; split <;> rfl
@[simp] theorem Hart.setS_nest (h : Hart) (r : BitVec 5) (x : Word) : (h.setS r x).nest = h.nest := by unfold Hart.setS; split <;> rfl
@[simp] theorem Hart.setS_prq (h : Hart) (r : BitVec 5) (x : Word) : (h.setS r x).prq = h.prq := by unfold Hart.setS; split <;> rfl
@[simp] theorem Hart.setS_tscr (h : Hart) (r : BitVec 5) (x : Word) : (h.setS r x).tscr = h.tscr := by unfold Hart.setS; split <;> rfl
@[simp] theorem Hart.setS_psa (h : Hart) (r : BitVec 5) (x : Word) : (h.setS r x).psa = h.psa := by unfold Hart.setS; split <;> rfl
@[simp] theorem Hart.setS_sg (h : Hart) (r : BitVec 5) (x : Word) : (h.setS r x).sg = h.sg := by unfold Hart.setS; split <;> rfl
@[simp] theorem Hart.setS_pending (h : Hart) (r : BitVec 5) (x : Word) : (h.setS r x).pending = h.pending := by unfold Hart.setS; split <;> rfl
@[simp] theorem Hart.setS_tickets (h : Hart) (r : BitVec 5) (x : Word) : (h.setS r x).tickets = h.tickets := by unfold Hart.setS; split <;> rfl
@[simp] theorem Hart.setS_handles (h : Hart) (r : BitVec 5) (x : Word) : (h.setS r x).handles = h.handles := by unfold Hart.setS; split <;> rfl
@[simp] theorem Hart.setS_nb (h : Hart) (r : BitVec 5) (x : Word) : (h.setS r x).nb = h.nb := by unfold Hart.setS; split <;> rfl
@[simp] theorem Hart.setS_ibuf (h : Hart) (r : BitVec 5) (x : Word) : (h.setS r x).ibuf = h.ibuf := by unfold Hart.setS; split <;> rfl
@[simp] theorem Hart.setS_front (h : Hart) (r : BitVec 5) (x : Word) : (h.setS r x).front = h.front := by unfold Hart.setS; split <;> rfl
@[simp] theorem Hart.setS_coll (h : Hart) (r : BitVec 5) (x : Word) : (h.setS r x).coll = h.coll := by unfold Hart.setS; split <;> rfl
@[simp] theorem Hart.setV_pos (h : Hart) (r : BitVec 5) (x : VecReg) : (h.setV r x).pos = h.pos := rfl
@[simp] theorem Hart.setV_run (h : Hart) (r : BitVec 5) (x : VecReg) : (h.setV r x).run = h.run := rfl
@[simp] theorem Hart.setV_team (h : Hart) (r : BitVec 5) (x : VecReg) : (h.setV r x).team = h.team := rfl
@[simp] theorem Hart.setV_s (h : Hart) (r : BitVec 5) (x : VecReg) : (h.setV r x).s = h.s := rfl
@[simp] theorem Hart.setV_p (h : Hart) (r : BitVec 5) (x : VecReg) : (h.setV r x).p = h.p := rfl
@[simp] theorem Hart.setV_vq (h : Hart) (r : BitVec 5) (x : VecReg) : (h.setV r x).vq = h.vq := rfl
@[simp] theorem Hart.setV_sq (h : Hart) (r : BitVec 5) (x : VecReg) : (h.setV r x).sq = h.sq := rfl
@[simp] theorem Hart.setV_dl (h : Hart) (r : BitVec 5) (x : VecReg) : (h.setV r x).dl = h.dl := rfl
@[simp] theorem Hart.setV_g (h : Hart) (r : BitVec 5) (x : VecReg) : (h.setV r x).g = h.g := rfl
@[simp] theorem Hart.setV_b (h : Hart) (r : BitVec 5) (x : VecReg) : (h.setV r x).b = h.b := rfl
@[simp] theorem Hart.setV_pc (h : Hart) (r : BitVec 5) (x : VecReg) : (h.setV r x).pc = h.pc := rfl
@[simp] theorem Hart.setV_vl (h : Hart) (r : BitVec 5) (x : VecReg) : (h.setV r x).vl = h.vl := rfl
@[simp] theorem Hart.setV_vty (h : Hart) (r : BitVec 5) (x : VecReg) : (h.setV r x).vty = h.vty := rfl
@[simp] theorem Hart.setV_vix (h : Hart) (r : BitVec 5) (x : VecReg) : (h.setV r x).vix = h.vix := rfl
@[simp] theorem Hart.setV_fcsr (h : Hart) (r : BitVec 5) (x : VecReg) : (h.setV r x).fcsr = h.fcsr := rfl
@[simp] theorem Hart.setV_xlm (h : Hart) (r : BitVec 5) (x : VecReg) : (h.setV r x).xlm = h.xlm := rfl
@[simp] theorem Hart.setV_fm (h : Hart) (r : BitVec 5) (x : VecReg) : (h.setV r x).fm = h.fm := rfl
@[simp] theorem Hart.setV_rerr (h : Hart) (r : BitVec 5) (x : VecReg) : (h.setV r x).rerr = h.rerr := rfl
@[simp] theorem Hart.setV_fthr (h : Hart) (r : BitVec 5) (x : VecReg) : (h.setV r x).fthr = h.fthr := rfl
@[simp] theorem Hart.setV_zol (h : Hart) (r : BitVec 5) (x : VecReg) : (h.setV r x).zol = h.zol := rfl
@[simp] theorem Hart.setV_hrk (h : Hart) (r : BitVec 5) (x : VecReg) : (h.setV r x).hrk = h.hrk := rfl
@[simp] theorem Hart.setV_depth (h : Hart) (r : BitVec 5) (x : VecReg) : (h.setV r x).depth = h.depth := rfl
@[simp] theorem Hart.setV_levels (h : Hart) (r : BitVec 5) (x : VecReg) : (h.setV r x).levels = h.levels := rfl
@[simp] theorem Hart.setV_qmap (h : Hart) (r : BitVec 5) (x : VecReg) : (h.setV r x).qmap = h.qmap := rfl
@[simp] theorem Hart.setV_flw (h : Hart) (r : BitVec 5) (x : VecReg) : (h.setV r x).flw = h.flw := rfl
@[simp] theorem Hart.setV_tcause (h : Hart) (r : BitVec 5) (x : VecReg) : (h.setV r x).tcause = h.tcause := rfl
@[simp] theorem Hart.setV_tval (h : Hart) (r : BitVec 5) (x : VecReg) : (h.setV r x).tval = h.tval := rfl
@[simp] theorem Hart.setV_tepc (h : Hart) (r : BitVec 5) (x : VecReg) : (h.setV r x).tepc = h.tepc := rfl
@[simp] theorem Hart.setV_tvec (h : Hart) (r : BitVec 5) (x : VecReg) : (h.setV r x).tvec = h.tvec := rfl
@[simp] theorem Hart.setV_hs (h : Hart) (r : BitVec 5) (x : VecReg) : (h.setV r x).hs = h.hs := rfl
@[simp] theorem Hart.setV_phs (h : Hart) (r : BitVec 5) (x : VecReg) : (h.setV r x).phs = h.phs := rfl
@[simp] theorem Hart.setV_asy (h : Hart) (r : BitVec 5) (x : VecReg) : (h.setV r x).asy = h.asy := rfl
@[simp] theorem Hart.setV_nest (h : Hart) (r : BitVec 5) (x : VecReg) : (h.setV r x).nest = h.nest := rfl
@[simp] theorem Hart.setV_prq (h : Hart) (r : BitVec 5) (x : VecReg) : (h.setV r x).prq = h.prq := rfl
@[simp] theorem Hart.setV_tscr (h : Hart) (r : BitVec 5) (x : VecReg) : (h.setV r x).tscr = h.tscr := rfl
@[simp] theorem Hart.setV_psa (h : Hart) (r : BitVec 5) (x : VecReg) : (h.setV r x).psa = h.psa := rfl
@[simp] theorem Hart.setV_sg (h : Hart) (r : BitVec 5) (x : VecReg) : (h.setV r x).sg = h.sg := rfl
@[simp] theorem Hart.setV_pending (h : Hart) (r : BitVec 5) (x : VecReg) : (h.setV r x).pending = h.pending := rfl
@[simp] theorem Hart.setV_tickets (h : Hart) (r : BitVec 5) (x : VecReg) : (h.setV r x).tickets = h.tickets := rfl
@[simp] theorem Hart.setV_handles (h : Hart) (r : BitVec 5) (x : VecReg) : (h.setV r x).handles = h.handles := rfl
@[simp] theorem Hart.setV_nb (h : Hart) (r : BitVec 5) (x : VecReg) : (h.setV r x).nb = h.nb := rfl
@[simp] theorem Hart.setV_ibuf (h : Hart) (r : BitVec 5) (x : VecReg) : (h.setV r x).ibuf = h.ibuf := rfl
@[simp] theorem Hart.setV_front (h : Hart) (r : BitVec 5) (x : VecReg) : (h.setV r x).front = h.front := rfl
@[simp] theorem Hart.setV_coll (h : Hart) (r : BitVec 5) (x : VecReg) : (h.setV r x).coll = h.coll := rfl
@[simp] theorem Hart.setP_pos (h : Hart) (r : BitVec 5) (x : PredBits) : (h.setP r x).pos = h.pos := by unfold Hart.setP; split <;> rfl
@[simp] theorem Hart.setP_run (h : Hart) (r : BitVec 5) (x : PredBits) : (h.setP r x).run = h.run := by unfold Hart.setP; split <;> rfl
@[simp] theorem Hart.setP_team (h : Hart) (r : BitVec 5) (x : PredBits) : (h.setP r x).team = h.team := by unfold Hart.setP; split <;> rfl
@[simp] theorem Hart.setP_s (h : Hart) (r : BitVec 5) (x : PredBits) : (h.setP r x).s = h.s := by unfold Hart.setP; split <;> rfl
@[simp] theorem Hart.setP_v (h : Hart) (r : BitVec 5) (x : PredBits) : (h.setP r x).v = h.v := by unfold Hart.setP; split <;> rfl
@[simp] theorem Hart.setP_vq (h : Hart) (r : BitVec 5) (x : PredBits) : (h.setP r x).vq = h.vq := by unfold Hart.setP; split <;> rfl
@[simp] theorem Hart.setP_sq (h : Hart) (r : BitVec 5) (x : PredBits) : (h.setP r x).sq = h.sq := by unfold Hart.setP; split <;> rfl
@[simp] theorem Hart.setP_dl (h : Hart) (r : BitVec 5) (x : PredBits) : (h.setP r x).dl = h.dl := by unfold Hart.setP; split <;> rfl
@[simp] theorem Hart.setP_g (h : Hart) (r : BitVec 5) (x : PredBits) : (h.setP r x).g = h.g := by unfold Hart.setP; split <;> rfl
@[simp] theorem Hart.setP_b (h : Hart) (r : BitVec 5) (x : PredBits) : (h.setP r x).b = h.b := by unfold Hart.setP; split <;> rfl
@[simp] theorem Hart.setP_pc (h : Hart) (r : BitVec 5) (x : PredBits) : (h.setP r x).pc = h.pc := by unfold Hart.setP; split <;> rfl
@[simp] theorem Hart.setP_vl (h : Hart) (r : BitVec 5) (x : PredBits) : (h.setP r x).vl = h.vl := by unfold Hart.setP; split <;> rfl
@[simp] theorem Hart.setP_vty (h : Hart) (r : BitVec 5) (x : PredBits) : (h.setP r x).vty = h.vty := by unfold Hart.setP; split <;> rfl
@[simp] theorem Hart.setP_vix (h : Hart) (r : BitVec 5) (x : PredBits) : (h.setP r x).vix = h.vix := by unfold Hart.setP; split <;> rfl
@[simp] theorem Hart.setP_fcsr (h : Hart) (r : BitVec 5) (x : PredBits) : (h.setP r x).fcsr = h.fcsr := by unfold Hart.setP; split <;> rfl
@[simp] theorem Hart.setP_xlm (h : Hart) (r : BitVec 5) (x : PredBits) : (h.setP r x).xlm = h.xlm := by unfold Hart.setP; split <;> rfl
@[simp] theorem Hart.setP_fm (h : Hart) (r : BitVec 5) (x : PredBits) : (h.setP r x).fm = h.fm := by unfold Hart.setP; split <;> rfl
@[simp] theorem Hart.setP_rerr (h : Hart) (r : BitVec 5) (x : PredBits) : (h.setP r x).rerr = h.rerr := by unfold Hart.setP; split <;> rfl
@[simp] theorem Hart.setP_fthr (h : Hart) (r : BitVec 5) (x : PredBits) : (h.setP r x).fthr = h.fthr := by unfold Hart.setP; split <;> rfl
@[simp] theorem Hart.setP_zol (h : Hart) (r : BitVec 5) (x : PredBits) : (h.setP r x).zol = h.zol := by unfold Hart.setP; split <;> rfl
@[simp] theorem Hart.setP_hrk (h : Hart) (r : BitVec 5) (x : PredBits) : (h.setP r x).hrk = h.hrk := by unfold Hart.setP; split <;> rfl
@[simp] theorem Hart.setP_depth (h : Hart) (r : BitVec 5) (x : PredBits) : (h.setP r x).depth = h.depth := by unfold Hart.setP; split <;> rfl
@[simp] theorem Hart.setP_levels (h : Hart) (r : BitVec 5) (x : PredBits) : (h.setP r x).levels = h.levels := by unfold Hart.setP; split <;> rfl
@[simp] theorem Hart.setP_qmap (h : Hart) (r : BitVec 5) (x : PredBits) : (h.setP r x).qmap = h.qmap := by unfold Hart.setP; split <;> rfl
@[simp] theorem Hart.setP_flw (h : Hart) (r : BitVec 5) (x : PredBits) : (h.setP r x).flw = h.flw := by unfold Hart.setP; split <;> rfl
@[simp] theorem Hart.setP_tcause (h : Hart) (r : BitVec 5) (x : PredBits) : (h.setP r x).tcause = h.tcause := by unfold Hart.setP; split <;> rfl
@[simp] theorem Hart.setP_tval (h : Hart) (r : BitVec 5) (x : PredBits) : (h.setP r x).tval = h.tval := by unfold Hart.setP; split <;> rfl
@[simp] theorem Hart.setP_tepc (h : Hart) (r : BitVec 5) (x : PredBits) : (h.setP r x).tepc = h.tepc := by unfold Hart.setP; split <;> rfl
@[simp] theorem Hart.setP_tvec (h : Hart) (r : BitVec 5) (x : PredBits) : (h.setP r x).tvec = h.tvec := by unfold Hart.setP; split <;> rfl
@[simp] theorem Hart.setP_hs (h : Hart) (r : BitVec 5) (x : PredBits) : (h.setP r x).hs = h.hs := by unfold Hart.setP; split <;> rfl
@[simp] theorem Hart.setP_phs (h : Hart) (r : BitVec 5) (x : PredBits) : (h.setP r x).phs = h.phs := by unfold Hart.setP; split <;> rfl
@[simp] theorem Hart.setP_asy (h : Hart) (r : BitVec 5) (x : PredBits) : (h.setP r x).asy = h.asy := by unfold Hart.setP; split <;> rfl
@[simp] theorem Hart.setP_nest (h : Hart) (r : BitVec 5) (x : PredBits) : (h.setP r x).nest = h.nest := by unfold Hart.setP; split <;> rfl
@[simp] theorem Hart.setP_prq (h : Hart) (r : BitVec 5) (x : PredBits) : (h.setP r x).prq = h.prq := by unfold Hart.setP; split <;> rfl
@[simp] theorem Hart.setP_tscr (h : Hart) (r : BitVec 5) (x : PredBits) : (h.setP r x).tscr = h.tscr := by unfold Hart.setP; split <;> rfl
@[simp] theorem Hart.setP_psa (h : Hart) (r : BitVec 5) (x : PredBits) : (h.setP r x).psa = h.psa := by unfold Hart.setP; split <;> rfl
@[simp] theorem Hart.setP_sg (h : Hart) (r : BitVec 5) (x : PredBits) : (h.setP r x).sg = h.sg := by unfold Hart.setP; split <;> rfl
@[simp] theorem Hart.setP_pending (h : Hart) (r : BitVec 5) (x : PredBits) : (h.setP r x).pending = h.pending := by unfold Hart.setP; split <;> rfl
@[simp] theorem Hart.setP_tickets (h : Hart) (r : BitVec 5) (x : PredBits) : (h.setP r x).tickets = h.tickets := by unfold Hart.setP; split <;> rfl
@[simp] theorem Hart.setP_handles (h : Hart) (r : BitVec 5) (x : PredBits) : (h.setP r x).handles = h.handles := by unfold Hart.setP; split <;> rfl
@[simp] theorem Hart.setP_nb (h : Hart) (r : BitVec 5) (x : PredBits) : (h.setP r x).nb = h.nb := by unfold Hart.setP; split <;> rfl
@[simp] theorem Hart.setP_ibuf (h : Hart) (r : BitVec 5) (x : PredBits) : (h.setP r x).ibuf = h.ibuf := by unfold Hart.setP; split <;> rfl
@[simp] theorem Hart.setP_front (h : Hart) (r : BitVec 5) (x : PredBits) : (h.setP r x).front = h.front := by unfold Hart.setP; split <;> rfl
@[simp] theorem Hart.setP_coll (h : Hart) (r : BitVec 5) (x : PredBits) : (h.setP r x).coll = h.coll := by unfold Hart.setP; split <;> rfl

/-! ### The hart of an updated state -/

@[simp] theorem State.setS_hart (s : State) (r : BitVec 5) (x : Word) : (s.setS r x).hart = s.hart.setS r x := rfl
@[simp] theorem State.setV_hart (s : State) (r : BitVec 5) (x : VecReg) : (s.setV r x).hart = s.hart.setV r x := rfl
@[simp] theorem State.setP_hart (s : State) (r : BitVec 5) (x : PredBits) : (s.setP r x).hart = s.hart.setP r x := rfl
@[simp] theorem State.advance_hart (s : State) : s.advance.hart = s.hart.advance := rfl
@[simp] theorem State.retireV_hart (s : State) : s.retireV.hart = { s.hart with vix := 0 }.advance := rfl
@[simp] theorem State.jump_hart (s : State) (a : Word) :
    (s.jump a).hart = { s.hart with run := .running, pc := a, front := s.hart.front.passed } := rfl
@[simp] theorem State.wait_hart (s : State) (w : Wait) : (s.wait w).hart = { s.hart with run := .waiting w } := rfl

end Sys2Proof.Machine
end

