-- ==== Sys2Proof/Laws/Words.lean ====
section
/-! SUPPORT. Elements of vector registers, and the run of a vector word whose operands are registers: no binding, no queue,
no outstanding access. -/

namespace Sys2Proof.Machine

/-! ### Elements -/

/-- A bit of a field of a register. -/
theorem field_testBit (v : VecReg) (o ew j : Nat) :
    ((v.toNat >>> o) % 2 ^ ew).testBit j = (decide (j < ew) && v.getLsbD (o + j)) := by
  rw [Nat.testBit_mod_two_pow, Nat.testBit_shiftRight]
  rfl

/-- A bit of a register with one field replaced. -/
theorem insert_getLsbD (v : VecReg) (o ew x j : Nat) (hx : x < 2 ^ ew) (he : o + ew ≤ 8192) (hj : j < 8192) :
    ((v &&& ~~~(BitVec.ofNat 8192 (2 ^ ew - 1) <<< o)) ||| BitVec.ofNat 8192 x <<< o).getLsbD j =
      if o ≤ j ∧ j < o + ew then x.testBit (j - o) else v.getLsbD j := by
  simp only [BitVec.getLsbD_or, BitVec.getLsbD_and, BitVec.getLsbD_not, BitVec.getLsbD_shiftLeft, BitVec.getLsbD_ofNat,
    Nat.testBit_two_pow_sub_one, hj, decide_true, Bool.true_and]
  by_cases h1 : o ≤ j
  · by_cases h2 : j < o + ew
    · have h3 : j - o < ew := by omega
      have h4 : j - o < 8192 := by omega
      simp [h1, h2, h3, h4, Nat.not_lt.mpr h1]
    · have h3 : ¬ j - o < ew := by omega
      have h4 : j - o < 8192 := by omega
      have h5 : x.testBit (j - o) = false := Nat.testBit_lt_two_pow (Nat.lt_of_lt_of_le hx (Nat.pow_le_pow_right (by omega) (by omega)))
      simp [h1, h2, h3, h4, h5, Nat.not_lt.mpr h1]
  · have h2 : j < o := by omega
    simp [h1, h2]

/-- An element reads what was written to it, cut to its width. -/
theorem Hart.elem_setElem (h : Hart) (r : BitVec 5) (ew i x : Nat) (he : i * ew % 8192 + ew ≤ 8192) :
    (h.setElem r ew i x).elem r ew i = x % 2 ^ ew := by
  unfold Hart.elem Hart.setElem
  simp only [Hart.getV_setV]
  refine Nat.eq_of_testBit_eq fun j => ?_
  rw [field_testBit]
  by_cases hj : j < ew
  · rw [insert_getLsbD _ _ _ _ _ (Nat.mod_lt _ (Nat.two_pow_pos ew)) he (by omega)]
    simp [hj]
  · have : (x % 2 ^ ew).testBit j = false := by
      rw [Nat.testBit_mod_two_pow]; simp [hj]
    simp [hj, this]

/-- An element keeps its value when another of the group is written. -/
theorem Hart.elem_setElem_other (h : Hart) (r : BitVec 5) (ew i j x : Nat) (he : i * ew % 8192 + ew ≤ 8192)
    (hj : j * ew % 8192 + ew ≤ 8192) (hq : i * ew / 8192 < 32) (hq' : j * ew / 8192 < 32) (hij : j ≠ i) :
    (h.setElem r ew i x).elem r ew j = h.elem r ew j := by
  unfold Hart.elem Hart.setElem
  simp only []
  by_cases hr : i * ew / 8192 = j * ew / 8192
  · rw [hr, Hart.getV_setV]
    refine Nat.eq_of_testBit_eq fun k => ?_
    rw [field_testBit, field_testBit]
    by_cases hk : k < ew
    · rw [insert_getLsbD _ _ _ _ _ (Nat.mod_lt _ (Nat.two_pow_pos ew)) he (by omega), if_neg]
      have h1 := Nat.div_add_mod (i * ew) 8192
      have h2 := Nat.div_add_mod (j * ew) 8192
      rw [hr] at h1
      rcases Nat.lt_or_gt_of_ne hij with hlt | hlt
      · have : (j + 1) * ew ≤ i * ew := Nat.mul_le_mul_right ew hlt
        rw [Nat.add_mul, Nat.one_mul] at this
        omega
      · have : (i + 1) * ew ≤ j * ew := Nat.mul_le_mul_right ew hlt
        rw [Nat.add_mul, Nat.one_mul] at this
        omega
    · simp [hk]
  · rw [Hart.getV_setV_other]
    intro e
    have e := congrArg BitVec.toNat e
    simp only [BitVec.toNat_add, BitVec.toNat_ofNat] at e
    have := r.isLt
    omega

/-- An element written leaves the registers outside its own. -/
theorem Hart.getV_setElem_other (h : Hart) (r q : BitVec 5) (ew i x : Nat) (hq : q ≠ r + BitVec.ofNat 5 (i * ew / 8192)) :
    (h.setElem r ew i x).getV q = h.getV q := by
  unfold Hart.setElem
  exact Hart.getV_setV_other _ _ hq

/-! ### Tests -/

/-- The late tests pass for a legal type, aligned groups that fit, an admitted format with its companions, and no reserved
rounding mode. -/
theorem lateTests_pass (v : VWord) (s : State) (k : Res) (h0 : bit s.hart.vty 63 = false)
    (h1 : v.groups.any (fun g => g.1.toNat % g.2 != 0) = false)
    (h2 : (v.groups.any (fun g => decide (32 < g.1.toNat + g.2)) || v.ends.any fun e => decide (32 < e)) = false)
    (h3 : v.companions.any (decide <| 31 < ·) = false) (h4 : v.admits = true) (h5 : s.rmReserved = false) :
    lateTests v s k = k := by
  simp [lateTests, h0, h1, h2, h3, h4, h5]

/-- The length test passes up to VLMAX. -/
theorem lengthTest_pass (s : State) (k : Res) (h : s.hart.vl.toNat ≤ s.vtype.vlmax) : lengthTest s k = k := by
  simp [lengthTest, Nat.not_lt.mpr h]

/-! ### The run of a word -/

/-- A hart with nothing bound has no bindings. -/
theorem Hart.bindings_none (h : Hart) (hb : h.b = Vector.replicate 8 none) : h.bindings = [] := by
  unfold Hart.bindings
  rw [hb, List.filterMap_eq_nil_iff]
  intro k hk
  have hk : k < 8 := List.mem_range.mp hk
  simp [hk]

@[simp] theorem finish_retire (s t : State) : finish s {} (.retire t) = .next t.retireV := rfl
@[simp] theorem finish_stop (s t : State) : finish s {} (.stop t) = .next t := rfl

/-- A word whose operands are registers: its body runs at once. -/
theorem runWord_ready (word : BitVec 32) (resumes : Bool) (reads writes : List Nat) (s : State) (body : State → Ended)
    (hb : s.hart.b = Vector.replicate 8 none) (hq : ∀ k < 4, s.hart.mapped k = false) (hn : s.hart.nb = []) :
    runWord word resumes reads writes s body = finish s {} (body s) := by
  have hm : (List.range 4).any (fun k => s.hart.mapped k && writes.contains (s.hart.mappedReg k)) = false := by
    rw [List.any_eq_false]
    intro k hk
    simp [hq k (List.mem_range.mp hk)]
  have hf : (List.range 4).filter (fun k => s.hart.mapped k && reads.contains (s.hart.mappedReg k)) = [] := by
    rw [List.filter_eq_nil_iff]
    intro k hk
    simp [hq k (List.mem_range.mp hk)]
  have hheld : s.hart.heldBack reads writes = false := by simp [Hart.heldBack, hn]
  simp only [runWord, runWordTaking, Hart.bindings_none s.hart hb, hm, hf, hheld]
  rfl

end Sys2Proof.Machine
end

