-- ==== Sys2Proof/Tests/Slice0.lean ====
section
/-! SUPPORT. The model's own tests: ill-formed terms that the check refuses, words written out from the encodings of the
specification, single steps whose result the specification gives, and for every statement with hypotheses a state and
operands that meet them. -/

set_option Elab.async false

open Sys2Proof Sys2Proof.Machine

namespace Sys2Proof.Tests

/-! ### States -/

/-- The value of a result that is one. -/
def got {ε α : Type} (e : Except ε α) (d : α) : α := match e with
  | .ok x => x
  | .error _ => d

theorem got_eq {ε α : Type} {e : Except ε α} {d : α} (h : e.isOk = true) : e = .ok (got e d) := by
  cases e with
  | ok x => rfl
  | error x => simp [Except.isOk, Except.toBool] at h

/-- Hart 0 of the pod runs, at an address of its TCM, its handler elsewhere. -/
def running : State :=
  { State.reset with hart := { Hart.reset with run := .running, pc := 0x0006300000000100, tvec := 0x0006300000000800 } }

/-- That hart with a change. -/
def with_ (f : Hart → Hart) : State := { running with hart := f running.hart }

/-- That hart in handler state. -/
def handler : State := with_ fun h => { h with hs := true }

/-- That hart under a vector type and a length. -/
def vec (vty : Word) (vl : BitVec 12) : State := with_ fun h => { h with vty := vty, vl := vl }

/-- `vty` of 32-bit integers, of FP32, and of MXFP8, at GF 1. -/
def i32 : Word := 0x18
def f32 : Word := 0xD8
def mx8 : Word := 0x208

/-- A nest record of one dimension of three passes, that advances two pointers from s8 by 64. -/
def nestRec : List Word := [0x241, 0x0000004000000003, 0, 0, 0, 0, 0, 0]

/-- The word at `pc` is the last of the body of a loop over that record. -/
def looping : State :=
  with_ fun h => { h with zol := { zlr := 0, zlb := h.pc - 4, act := true, sav := false, len := 1, pass := 0, nest := nestRec } }

/-- The pod has one package, and a page of the TCM of core 0 is mapped. -/
def mapped : State := (running.withFetchWord 32 0).setReg (ioDie 0) 0x80000 1

/-- That state with a change of the hart. -/
def mappedWith (f : Hart → Hart) : State := { mapped with hart := f mapped.hart }

/-- Where a scalar access of that hart lands. -/
def land (s : State) (acc : Acc) (a : Word) (n : Nat) : Place × State :=
  got (s.check (s.scalarHow acc) a n) (⟨.tcm, 0, []⟩, s)

theorem land_eq {s : State} {acc : Acc} {a : Word} {n : Nat} (h : (s.check (s.scalarHow acc) a n).isOk = true) :
    s.check (s.scalarHow acc) a n = .ok ((land s acc a n).1, (land s acc a n).2) := got_eq h

/-! ### Hypotheses that are met: the scalar words -/

theorem witness_RetirementCountsPasses_plain : ¬ running.hart.atPassEnd := by decide +kernel
theorem witness_RetirementCountsPasses_body :
    let z := looping.hart.zol
    looping.hart.atPassEnd ∧ z.nest.length = 8 ∧ bits (wordAt z.nest 0) 0 3 ≤ 6 ∧
      bits (wordAt z.nest 0) 3 5 + bits (wordAt z.nest 0) 8 3 ≤ 32 ∧ (z.pass + 1).toNat ≠ 3 := by decide +kernel
theorem witness_RetirementCountsPasses_end :
    let s : State := { looping with hart := { looping.hart with zol := { looping.hart.zol with pass := 2 } } }
    s.hart.atPassEnd ∧ (s.hart.zol.pass + 1).toNat =
      ((List.range 1).map fun i => bits (wordAt s.hart.zol.nest (1 + i)) 0 32).foldl (· * ·) 1 := by decide +kernel

theorem witness_ScalarFloatResults : running.roundable := by decide +kernel
theorem witness_ReservedRoundingTraps :
    ¬ (with_ fun h => { h with fcsr := 0x500 }).roundable ∧
      ∃ w, encode (.fadd 1 2 3 .f64) = some w ∧ majorOf w = 0x11 := by
  refine ⟨by decide +kernel, ?_⟩
  have h : (encode (.fadd 1 2 3 .f64)).map majorOf = some 0x11 := by decide +kernel
  revert h; cases encode (.fadd 1 2 3 .f64) with
  | none => simp
  | some w => intro h; exact ⟨w, rfl, by simpa using h⟩

theorem runs_of {i : Instr} {s : State} (h : ∃ t, exec i s = .next t) : ∃ t, Runs i s t := h

/-- The state of an outcome. -/
def after (o : Host.Outcome State Fault Refusal) : State := match o with
  | .next t => t
  | .fault _ => State.reset
  | .refused _ => State.reset

/-- An outcome is a next state. -/
def goesOn (o : Host.Outcome State Fault Refusal) : Bool := match o with
  | .next _ => true
  | .fault _ => false
  | .refused _ => false

theorem runs_after {i : Instr} {s : State} (h : goesOn (exec i s) = true) : Runs i s (after (exec i s)) := by
  revert h; show goesOn (exec i s) = true → exec i s = .next (after (exec i s))
  generalize exec i s = o
  cases o with
  | next t => intro _; rfl
  | fault f => intro h; cases h
  | refused r => intro h; cases h

theorem witness_ScalarArithmeticFrame : scalarDest (.add 1 2 3) = some 1 ∧ ∃ t, Runs (.add 1 2 3) running t :=
  ⟨rfl, _, runs_after (by decide +kernel)⟩
theorem witness_ScalarFloatFrame :
    floatDest (.fadd 1 2 3 .f64) = some 1 ∧ running.roundable ∧ ∃ t, Runs (.fadd 1 2 3 .f64) running t :=
  ⟨rfl, by decide +kernel, _, runs_after (by decide +kernel)⟩

/-- Base register s1 at the last 8 bytes of the mapped page, of 64 KiB. -/
def atTop : State := mappedWith fun h => h.setS 1 (fetchBase + 0xFFF8)

theorem witness_LoadResults_memory : ∃ p u, atTop.passes .load (atTop.getS 1 + (0 : BitVec 13).signExtend 64) (loadBytes .i64) p u ∧
    p.space ≠ .regs ∧ u.sound p ∧ atTop.inWindow (dieOf atTop.hart.pos) atTop.hart.team (atTop.getS 1) = false :=
  ⟨_, _, ⟨⟨by decide +kernel, land_eq (by decide +kernel)⟩, by decide +kernel⟩, by decide +kernel, by decide +kernel, by decide +kernel⟩

/-- Base register s1 at PRTB of die 0. -/
def atReg : State :=
  (mappedWith fun h => h.setS 1 0x0006400000001000).setReg 0 (0x200000 + 0x2000 * 98 + 16) 0x3C0000000

theorem witness_LoadResults_register : ∃ p u, atReg.passes .load (atReg.getS 1 + (0 : BitVec 13).signExtend 64) (loadBytes .i64) p u ∧
    p.space = .regs ∧ portAt (coreOf atReg.hart.pos) (atReg.getS 1) = none :=
  ⟨_, _, ⟨⟨by decide +kernel, land_eq (by decide +kernel)⟩, by decide +kernel⟩, by decide +kernel, by decide +kernel⟩

/-- Package 0 is in the present set. -/
def present : State := State.reset.setReg (ioDie 0) 0x80008 1

/-- s1 at the last 8 bytes of a window of team 1 on channel 63 of die 7, mapped there and open to every master. -/
def windowed : State :=
  let s := ((present.setReg (ioDie 0) 0x80000 1).setReg 7 (0x200000 + 0x2000 * 63 + 16) 0x3C0000000).setDie 7
    { remote := [⟨0, 63, 1, 1, 0x40000000, true, true, true⟩] }
  { s.setDie 0 { windows := [(63, ⟨1, 0x003BF0007FFF0000, 0x10000, []⟩)] } with
    hart := { (Hart.reset.setS 1 0x003BF0007FFFFFF8) with run := .running, team := 1, pc := 0x100 } }

theorem witness_LoadResults_window :
    windowed.inWindow (dieOf windowed.hart.pos) windowed.hart.team (windowed.getS 1) = true ∧
    (windowed.getS 1).toNat % loadBytes .i64 = 0 ∧ ∃ bs u, windowed.scalarRead (windowed.getS 1) (loadBytes .i64) = .ok (bs, u) :=
  ⟨by decide +kernel, by decide +kernel, (got (windowed.scalarRead (windowed.getS 1) 8) ([], mapped)).1,
   (got (windowed.scalarRead (windowed.getS 1) 8) ([], mapped)).2, got_eq (d := ([], mapped)) (by decide +kernel)⟩

theorem witness_StoreResults_memory : ∃ p u, atTop.passes .store (atTop.getS 1 + (0 : BitVec 13).signExtend 64) (storeBytes .w64) p u ∧
    p.space ≠ .regs :=
  ⟨_, _, ⟨⟨by decide +kernel, land_eq (by decide +kernel)⟩, by decide +kernel⟩, by decide +kernel⟩

theorem witness_StoreResults_register : ∃ p u, atReg.passes .store (atReg.getS 1 + (0 : BitVec 13).signExtend 64) (storeBytes .w64) p u ∧
    p.space = .regs ∧ portAt (coreOf atReg.hart.pos) (atReg.getS 1) = none ∧
    (burupReg (aDieId (atReg.getS 1)) (aOff (atReg.getS 1)) && (u.pkg (aPkg (atReg.getS 1))).reload) = false :=
  ⟨_, _, ⟨⟨by decide +kernel, land_eq (by decide +kernel)⟩, by decide +kernel⟩, by decide +kernel, by decide +kernel, by decide +kernel⟩

theorem witness_AtomicResults : ∃ p u, atTop.passes .atomic (atTop.getS 1) 8 p u ∧ noAmo (atTop.getS 1) = false ∧ u.sound p :=
  ⟨_, _, ⟨⟨by decide +kernel, land_eq (by decide +kernel)⟩, by decide +kernel⟩, by decide +kernel, by decide +kernel⟩

theorem witness_CleanAndInvalidate : spaceOf (atTop.getS 1) ≠ some .regs ∧
    ∃ p u, atTop.reaches .load (atTop.getS 1) 1 p u :=
  ⟨by decide +kernel, _, _, ⟨by decide +kernel, land_eq (by decide +kernel)⟩⟩

/-- A state with one dirty line of die 0, in the page of s1 at the TCM base. -/
theorem witness_CleanAndInvalidate_cached :
    let s := { mapped with hart := mapped.hart.setS 1 0 }
    ¬ (s.cached ⟨.tcm, 0, [0]⟩ = true) ∧ s.cached ⟨.channel 0, 0, [64]⟩ = true := by decide +kernel

theorem witness_ScalarAccessTraps_misaligned :
    (atTop.getS 1 + (0x1FFF : BitVec 13).signExtend 64).toNat % loadBytes .i64 ≠ 0 := by decide +kernel
theorem witness_ScalarAccessTraps_cause :
    let s := mappedWith fun h => h.setS 1 (fetchBase + 0x10000)
    (s.getS 1 + (0 : BitVec 13).signExtend 64).toNat % loadBytes .i64 = 0 ∧
      (match s.check (s.scalarHow .load) (s.getS 1 + (0 : BitVec 13).signExtend 64) 8 with
        | .error x => x == .cause 0x0C0 | .ok _ => false) = true := by decide +kernel
theorem witness_ScalarAccessTraps_lost :
    let s := (mappedWith fun h => h.setS 1 0x0080000000000000).setReg (ioDie 0) 0x80000 2
    (match s.check (s.scalarHow .store) (s.getS 1 + (0 : BitVec 13).signExtend 64) 8 with
        | .error x => x == .lost | .ok _ => false) = true := by decide +kernel
/-- The line of s1 is poisoned. -/
def poisoned : State := { atTop with poison := [(lineOf ((land atTop .load (atTop.getS 1) 8).1.keys.headD 0), 0x0E1)] }

theorem witness_ScalarAccessTraps_poison : ∀ acc, acc = .load ∨ acc = .atomic → ∃ p u, poisoned.passes acc (poisoned.getS 1) 8 p u ∧
    p.space ≠ .regs ∧ noAmo (poisoned.getS 1) = false ∧ u.poisonCause p.keys = some 0x0E1 := by
  rintro acc (rfl | rfl)
  · exact ⟨_, _, ⟨⟨by decide +kernel, land_eq (by decide +kernel)⟩, by decide +kernel⟩, by decide +kernel, by decide +kernel, by decide +kernel⟩
  · exact ⟨_, _, ⟨⟨by decide +kernel, land_eq (by decide +kernel)⟩, by decide +kernel⟩, by decide +kernel, by decide +kernel, by decide +kernel⟩

/-- s1 in package 1, which is not present; and s1 on die 7, which has failed. -/
def lostPackage : State := (mappedWith fun h => h.setS 1 0x0080000000000000).setReg (ioDie 0) 0x80000 2
def lostDie : State := (mappedWith fun h => h.setS 1 0x0038000000000000).setDie 7 { failed := true }

/-- The check of an atomic finds its target lost. -/
def amoLost (s : State) : Bool := match s.check (s.scalarHow .atomic) (s.getS 1) 8 with
  | .error x => x == .lost
  | .ok _ => false

theorem amoLost_eq {s : State} (h : amoLost s = true) : s.check (s.scalarHow .atomic) (s.getS 1) 8 = .error .lost := by
  revert h; unfold amoLost
  cases s.check (s.scalarHow .atomic) (s.getS 1) 8 with
  | error x => intro h; simpa using h
  | ok r => intro h; cases h

theorem witness_ScalarAccessTraps_amo :
    (∀ s, s = lostPackage ∨ s = lostDie → (s.getS 1).toNat % 8 = 0 ∧ noAmo (s.getS 1) = false ∧
      s.check (s.scalarHow .atomic) (s.getS 1) 8 = .error .lost) ∧
    lostPackage.lossUnknown (lostPackage.scalarHow .atomic).master (lostPackage.getS 1) = false ∧
    lostDie.lossUnknown (lostDie.scalarHow .atomic).master (lostDie.getS 1) = true := by
  refine ⟨?_, by decide +kernel, by decide +kernel⟩
  rintro s (rfl | rfl)
  · exact ⟨by decide +kernel, by decide +kernel, amoLost_eq (by decide +kernel)⟩
  · exact ⟨by decide +kernel, by decide +kernel, amoLost_eq (by decide +kernel)⟩

theorem witness_ScalarAccessTraps_amoCause :
    let s := mappedWith fun h => h.setS 1 (fetchBase + 0x10000)
    (s.getS 1).toNat % 8 = 0 ∧ noAmo (s.getS 1) = false ∧
      (match s.check (s.scalarHow .atomic) (s.getS 1) 8 with
        | .error x => x == .cause 0x0C0 | .ok _ => false) = true := by decide +kernel

/-- A non-blocking access of the hart at the bytes of s1 is outstanding. -/
def behindNb (acc : Acc) : State := { atTop with hart := { atTop.hart with nb :=
  [{ kind := .store, sem := 63, bytes := 4, d := 31, ew := 32, fmt := 0, gf := 1, rm := 0, mask := 1, data := [], noTouch := [],
     noWrite := [31], caught := [], items := [(⟨0, [atTop.getS 1]⟩, some [(land atTop acc (atTop.getS 1) 8).1.keys.take 4])] }] } }

theorem witness_ScalarAccessTraps_waits : ∀ acc, acc = .load ∨ acc = .store ∨ acc = .atomic → ∃ p u,
    (behindNb acc).reaches acc ((behindNb acc).getS 1 + (0 : BitVec 13).signExtend 64) 8 p u ∧ noAmo ((behindNb acc).getS 1) = false ∧
    (behindNb acc).inWindow (dieOf (behindNb acc).hart.pos) (behindNb acc).hart.team ((behindNb acc).getS 1) = false ∧
    (behindNb acc).afterNb (behindNb acc).hart.nb acc p.keys = true := by
  rintro acc (rfl | rfl | rfl) <;>
    exact ⟨_, _, ⟨by decide +kernel, land_eq (by decide +kernel)⟩, by decide +kernel, by decide +kernel, by decide +kernel⟩

theorem witness_ScalarAccessTraps_port : noAmo 0x0006400000080000 = true ∧ (0x0006400000080000 : Word).toNat % 8 = 0 := by
  decide +kernel

/-- What the check of an access refuses it for. -/
def denied (s : State) (how : How) (a : Word) (n : Nat) : Option Deny := match s.check how a n with
  | .error e => some e
  | .ok _ => none

/-- That state with another entry in the bank of scalar accesses. -/
def entered (t : TlbEntry) : State := mapped.setCore 0 { mapped.core 0 with tlb := (mapped.core 0).tlb.put 0 [t] }

/-- The entry that maps the first page of the TCM. -/
def tcmEntry : TlbEntry := ⟨0, 99, 3, 0, 0, true, true, true⟩

/-- A package outside the pod of one package; a die that no package has; a compute die that a package of one lacks; a unit that
no die has; and the TCM of another die. -/
theorem witness_AccessCheckOrder_names :
    let how := mapped.scalarHow .load
    let few := mapped.setPkg 0 { mapped.pkg 0 with form := .d1 0 }
    mapped.podSize (pkgOfDie how.master.die) = 1 ∧ aPkg 0x0080000000000000 = 1 ∧
    denied mapped how 0x0080000000000000 8 = some (.cause 0x142) ∧
    (aDie 0x0048000000000000).toNat = 9 ∧ denied mapped how 0x0048000000000000 8 = some (.cause 0x0C1) ∧
    (aDie 0x0008000000000000).toNat = 1 ∧ few.computeDies 0 = 1 ∧ denied few how 0x0008000000000000 8 = some (.cause 0x0C1) ∧
    spaceOf 0x0007100000000000 = none ∧ denied mapped how 0x0007100000000000 8 = some (.cause 0x0C1) ∧
    spaceOf 0x000E300000000000 = some .tcm ∧ mapped.namesSpace how.master false 0x000E300000000000 8 = none := by decide +kernel

/-- The device registers of a vector access and of an atomic; a lost package; a handle of no row; and a register whose table
admits nobody. -/
theorem witness_AccessCheckOrder_targets :
    denied mapped (mapped.vectorHow .load 0) 0x0006400000001000 8 = some (.cause 0x105) ∧
    denied mapped (mapped.scalarHow .atomic) 0x0006400000001000 8 = some (.cause 0x104) ∧
    (let how := lostPackage.scalarHow .store
     lostPackage.isLost how.master (lostPackage.getS 1) = true ∧ denied lostPackage how (lostPackage.getS 1) 8 = some .lost) ∧
    (let how := mapped.scalarHow .load
     mapped.isLost how.master 0x0006100000000000 = false ∧ mapped.namesSpace how.master false 0x0006100000000000 8 = some .rows ∧
     denied mapped how 0x0006100000000000 8 = some (.cause 0x280) ∧
     mapped.namesSpace how.master false 0x0006400000001000 8 = some .regs ∧ Space.regs.index = none ∧
     denied mapped how 0x0006400000001000 8 = some (.cause 0x103)) := by decide +kernel

/-- No valid table; a frame past the unit; a page that may not be written; a channel whose table admits nobody; and a page that
an access reaches. -/
theorem witness_AccessCheckOrder_translated :
    bit (mapped.reg 0 0x1000) 0 = false ∧ denied mapped (mapped.scalarHow .load) (fetchBase + 0x10000) 8 = some (.cause 0x0C0) ∧
    (let s := entered { tcmEntry with frame := Config.tcmBytes }
     denied s (s.scalarHow .load) fetchBase 8 = some (.cause 0x0C0)) ∧
    (let s := entered { tcmEntry with w := false }
     denied s (s.scalarHow .store) fetchBase 8 = some (.cause 0x100)) ∧
    (let s := entered { tcmEntry with unit := 0 }
     tableTarget (.channel 0) 0 0 = some 0 ∧ denied s (s.scalarHow .load) 0 8 = some (.cause 0x103)) ∧
    (let s := entered tcmEntry
     denied s (s.scalarHow .load) (fetchBase + 0xFFF8) 8 = none) := by decide +kernel

theorem witness_CleanAndInvalidate_lost : spaceOf (lostPackage.getS 1) ≠ some .regs ∧
    denied lostPackage (lostPackage.scalarHow .load) (lostPackage.getS 1) 1 = some .lost := by decide +kernel

theorem witness_AccessCheckFrame : ∃ p u, atTop.check (atTop.scalarHow .load) (atTop.getS 1) 8 = .ok (p, u) :=
  ⟨_, _, land_eq (by decide +kernel)⟩

theorem witness_ControlTransfers : running.outsideLoop ∧ running.getS 1 = running.getS 2 ∧
    (with_ fun h => h.setS 1 1).outsideLoop ∧ (with_ fun h => h.setS 1 1).getS 1 ≠ (with_ fun h => h.setS 1 1).getS 2 ∧
    (running.getS 1 + (4 : BitVec 16).signExtend 64).toNat % 4 = 0 ∧
    (running.getS 1 + (2 : BitVec 16).signExtend 64).toNat % 4 ≠ 0 := by decide +kernel

theorem some_of {i : Instr} {p : BitVec 32 → Prop} (h : ∀ w, encode i = some w → p w) (e : (encode i).isSome = true) :
    ∃ w, encode i = some w ∧ p w := by
  revert h e; cases encode i with
  | none => intro _ e; simp at e
  | some w => intro h _; exact ⟨w, rfl, h w rfl⟩

/-- The word of an instruction. -/
def word (i : Instr) : BitVec 32 := (encode i).getD 0

theorem word_eq {i : Instr} (e : (encode i).isSome = true) : encode i = some (word i) := by
  revert e; unfold word; cases encode i with
  | none => intro e; simp at e
  | some w => intro _; rfl

theorem witness_TransferInLoopBodyTraps :
    ¬ looping.outsideLoop ∧ looping.hart.zol.act = true ∧
    (∃ w, encode (.beq 1 2 3) = some w ∧ majorOf w = 0x0C) ∧ (∃ w, encode (.zol 1 2) = some w ∧ majorOf w = 0x10) ∧
    (∃ w, encode (.smine 1 2 3 4) = some w ∧ majorOf w = 0x0F) :=
  ⟨by decide +kernel, by decide +kernel, ⟨_, word_eq (by decide +kernel), by decide +kernel⟩,
   ⟨_, word_eq (by decide +kernel), by decide +kernel⟩, ⟨_, word_eq (by decide +kernel), by decide +kernel⟩⟩

theorem witness_StripMining :
    let s := vec i32 256
    smineOk 28 4 = true ∧ smineOk 0 0 = true ∧ bit s.hart.vty 63 = false ∧ s.outsideLoop ∧ s.grantable := by decide +kernel

/-- The nest record stands at the top of the mapped page, and s1 points to it. -/
def atNest : State :=
  let a : Word := fetchBase + 0xFFC0
  { mapped with hart := mapped.hart.setS 1 a }.store ((List.range 64).map (a.toNat + ·)) (nestRec.flatMap fun w : Word => natToBytes 8 w.toNat)

theorem witness_LoopStarts : atNest.hart.zol.act = false ∧ (atNest.getS 1).toNat % 64 = 0 ∧
    ∃ bs u, atNest.scalarRead (atNest.getS 1) 64 = .ok (bs, u) ∧ nestMalformed (bytesToWords 8 bs) = false :=
  ⟨by decide +kernel, by decide +kernel,
   (got (atNest.scalarRead (atNest.getS 1) 64) ([], mapped)).1, (got (atNest.scalarRead (atNest.getS 1) 64) ([], mapped)).2,
   got_eq (d := ([], mapped)) (by decide +kernel), by decide +kernel⟩

theorem witness_LengthAndTypeWords :
    (vec i32 0).grantable ∧ vtyLegal (vec i32 0).hart.vty = true ∧ bit (vec (i32 ||| 0x80000) 0).hart.vty 19 = true ∧
    vtyLegal (i32 ||| 0x80000) = true ∧ ¬ (vec i32 0).hart.atPassEnd := by decide +kernel

theorem witness_GrantPointTraps :
    running.hart.nb = [] ∧ running.outsideLoop ∧ bit running.hart.vty 63 = true ∧
    (let s := with_ fun h => { h with dl := h.dl.set 0 (some ⟨1, 0, 3, some 0, [.final 1]⟩), vty := i32 }
     s.hart.nb = [] ∧ s.outsideLoop ∧ bit s.hart.vty 63 = false ∧ ∃ k : Fin 8, s.hart.dl[k] ≠ none) ∧
    (let s := with_ fun h => { h with prq := true, vty := i32 }
     s.hart.nb = [] ∧ s.outsideLoop ∧ (∀ k : Fin 8, s.hart.dl[k] = none) ∧ s.hart.prq = true ∧ s.hart.hs = false) := by
  decide +kernel

theorem witness_CsrReadResults : Csr.vl ≠ .tick := by decide
theorem witness_CsrWriteResults :
    (csrGuarded .tvec = true → handler.hart.hs = true) ∧ (csrGuarded .vix = true → running.hart.hs = true) ∧
    Csr.vix ≠ .vty ∧ Csr.vix ≠ .xlm ∧ Csr.vix ≠ .fst ∧ Csr.vix ≠ .fpc := by decide +kernel

/-- The hart holds the Fife, which has faulted; it resumes as paused (R271). -/
theorem witness_CsrWriteResults_fife :
    let s := handler.setCore 0 { handler.core 0 with fife := { st := .faulted } }
    (csrGuarded .fst = true → s.hart.hs = true) ∧ s.myCore.fife.heldBy s.hart.pos = true ∧ s.myCore.fife.st = .faulted ∧
    bits (0x8000000000000000 : Word) 62 2 = 2 ∧ (s.writeCsr .fst 0x8000000000000000).myCore.fife.st = .paused ∧
    (s.writeCsr .fpc 7).myCore.fife.fpc = 4 := by decide +kernel

theorem witness_HandlerWordsTrapInProgramState :
    running.hart.hs = false ∧ ∃ w, encode (.csrw 1 .fva) = some w := ⟨by decide +kernel, _, word_eq (by decide +kernel)⟩

theorem witness_TrapEntry : running.hart.run = .running ∧ ¬ (running.hart.nest = true ∧ running.hart.pc = running.hart.tvec) := by
  decide +kernel

/-- A record of the team that hart 0 runs, team 1. -/
def teamOf (places : List HartId) : Team where
  id := 1
  pkg := 0
  asid := 0
  prio := 0
  record := (List.replicate 16 0).set 13 0x9101
  source := .ring 0 0
  st := .running
  places := places
  live := List.range places.length
  hc := 3
  flow := none
  order := 0
  start := 0
  replies := []
  images := true
  status := 0
  cause := none
  frames := []
  saved := []
  kept := {}

/-- Hart 0 runs as the one hart of team 1. -/
def teamed : State := { running with hart := { running.hart with team := 1 }, teams := [(1, teamOf [0])] }

/-- That state with a change of the hart. -/
def teamedWith (f : Hart → Hart) : State := { teamed with hart := f teamed.hart }

theorem witness_DoubleFaultFailsTeam :
    let s := teamedWith fun h => { h with nest := true, tvec := h.pc }
    s.hart.nest = true ∧ s.hart.pc = s.hart.tvec ∧ s.hart.run = .running ∧ s.team s.hart.team = some (teamOf [0]) ∧
      (teamOf [0]).id = s.hart.team := by decide +kernel

theorem witness_ExceptionReturn :
    handler.hart.hs = true ∧ handler.hart.zol.sav = false ∧ handler.leave.hart.nextPending = none ∧
    (let s := with_ fun h => { h with hs := true, pending := [⟨0x201, 5⟩] }
     s.hart.hs = true ∧ s.leave.hart.nextPending = some ⟨0x201, 5⟩) := by decide +kernel

/-- Handler state, with a suspended loop whose record stands in memory. -/
def suspended : State :=
  { atNest with hart := { atNest.hart with hs := true, zol := { atNest.hart.zol with sav := true, zlr := fetchBase + 0xFFC0 } } }

theorem witness_ExceptionReturn_loop : ∃ u bs, suspended.hart.hs = true ∧ suspended.leave.hart.nextPending = none ∧
    suspended.hart.zol.sav = true ∧ suspended.hart.zol.zlr.toNat % 64 = 0 ∧ suspended.leave.scalarRead suspended.hart.zol.zlr 64 = .ok (bs, u) ∧
    nestMalformed (bytesToWords 8 bs) = false :=
  ⟨(got (suspended.leave.scalarRead suspended.hart.zol.zlr 64) ([], mapped)).2,
   (got (suspended.leave.scalarRead suspended.hart.zol.zlr 64) ([], mapped)).1,
   by decide +kernel, by decide +kernel, by decide +kernel, by decide +kernel, got_eq (d := ([], mapped)) (by decide +kernel),
   by decide +kernel⟩

theorem witness_ServiceAndBreak : ¬ running.hart.atPassEnd ∧
    ¬ (running.hart.nest = true ∧ running.hart.pc + 4 = running.hart.tvec) ∧ ∃ t, Runs (.sys 0xFFFF) running t :=
  ⟨by decide +kernel, by decide +kernel, _, runs_after (by decide +kernel)⟩

/-- Handler state, with a non-blocking access of the core outstanding to a home that a bank has translated. -/
def untranslated : State := { behindNb .load with hart := { (behindNb .load).hart with hs := true } }

theorem witness_SystemWordResults_tlbi :
    untranslated.hart.hs = true ∧ untranslated.usesTlb (coreOf untranslated.hart.pos) = true := by decide +kernel

theorem witness_TlbiAll : handler.hart.hs = true ∧ handler.usesTlb (coreOf handler.hart.pos) = false ∧ ∃ t, Runs (.tlbiAll 0) handler t :=
  ⟨by decide +kernel, by decide +kernel, _, runs_after (by decide +kernel)⟩

/-- A command that hart 0 has pushed is outstanding. -/
def engaged : State :=
  running.setCore 0 { running.core 0 with cpyq := [newCmd (.rows 0 0 1 [(0, 0)]) [] [] 0 0 0 0 0 none 0 false (some 0)] }

theorem witness_SystemWordResults :
    (31 : BitVec 7).getLsbD 5 = false ∧ (33 : BitVec 7).getLsbD 5 = true ∧ (33 : BitVec 7).extractLsb' 0 4 ≠ 0 ∧
      running.engineBusy running.hart.pos = false ∧ engaged.engineBusy engaged.hart.pos = true := by decide +kernel

theorem witness_FlowRequests :
    teamed.hart.flowDone = none ∧ (teamedWith fun h => { h with front := { h.front with flows := [(0, 0)] } }).hart.flowDone = some 0 ∧
    teamed.team teamed.hart.team = some (teamOf [0]) ∧ (teamOf [0]).id = teamed.hart.team ∧
    (3 : BitVec 4) ≤ (teamOf [0]).hc ∧ ¬ (15 : BitVec 4) ≤ (teamOf [0]).hc := by decide +kernel

/-- A team whose class of 15 its package's cap allows, and one with no cap. -/
theorem witness_FlowRequests_caps :
    let s := teamed.setReg (ioDie 0) 0xE4000 0
    (teamOf [0]).pkgs.any (teamed.beyondCap (teamOf [0]) 15) = false ∧ (teamOf [0]).pkgs.any (s.beyondCap (teamOf [0]) 15) = true := by
  decide +kernel

/-- Handler state, entered for a request to pre-empt, with a save area in channel 0 of die 0, whose access table admits
every master. -/
def saver : State :=
  { running with hart := { running.hart with team := 1, hs := true, prq := true, tcause := 0x340, psa := 0x10000 }
                 teams := [(1, teamOf [0])]
                 dev := [(regKey 0 0x200010, 0x3C0000000), (regKey (ioDie 0) 0x80000, 1), (regKey (ioDie 0) 0x80008, 1)] }

theorem saver_entry : saver.reg 0 (tableOff (isIo 0) 0 + 32 * 0) = 1 ∧
    saver.reg 0 (tableOff (isIo 0) 0 + 32 * 0 + 8) = 0xFFFFFFFFFFFF0000 ∧
    saver.reg 0 (tableOff (isIo 0) 0 + 32 * 0 + 16) = 0x3C0000000 ∧
    saver.reg 0 (tableOff (isIo 0) 0 + 32 * 0 + 24) = 0xF := by decide +kernel

theorem saver_admits (a : Word) (m : Master) : saver.admits 0 0 m .store a = true := by
  have e : entryMatches 1 0xFFFFFFFFFFFF0000 0x3C0000000 0xF m a = true := by
    simp [entryMatches, bit, bits]; omega
  have f : (List.range 256).find? (fun i => entryMatches (saver.reg 0 (tableOff (isIo 0) 0 + 32 * i)) (saver.reg 0 (tableOff (isIo 0) 0 + 32 * i + 8))
      (saver.reg 0 (tableOff (isIo 0) 0 + 32 * i + 16)) (saver.reg 0 (tableOff (isIo 0) 0 + 32 * i + 24)) m a) = some 0 := by
    rw [show List.range 256 = 0 :: List.range' 1 255 from by rw [List.range_eq_range']; rfl, List.find?_cons]
    obtain ⟨a1, a2, a3, a4⟩ := saver_entry
    simp only [a1, a2, a3, a4, e]
  simp only [State.admits, f, saver_entry]
  rfl

theorem saver_lands (a : Word) (h : a.toNat < 2 ^ 31) : (saver.imagePlace true .store a).isOk = true := by
  have h1 : aPkg a = 0 := by
    apply BitVec.eq_of_toNat_eq; simp [aPkg, Nat.shiftRight_eq_div_pow]; omega
  have h2 : aDie a = 0 := by
    apply BitVec.eq_of_toNat_eq; simp [aDie, Nat.shiftRight_eq_div_pow]; omega
  have h3 : aDieId a = 0 := by
    apply BitVec.eq_of_toNat_eq; simp [aDieId, Nat.shiftRight_eq_div_pow]; omega
  have h4 : aSp a = false := by
    rw [aSp, BitVec.getLsbD, Nat.testBit_lt_two_pow]; omega
  have h5 : aUnit a = 0 := by
    simp [aUnit, Nat.shiftRight_eq_div_pow]; omega
  have h6 : aOff a = a.toNat := by
    simp [aOff]; omega
  have h7 : (a &&& 0xFFFFF00000000000 ||| BitVec.ofNat 64 a.toNat) = a := by
    have z : a &&& 0xFFFFF00000000000 = 0 := by
      apply BitVec.eq_of_toNat_eq
      refine Nat.eq_of_testBit_eq fun i => ?_
      rw [BitVec.toNat_and, Nat.testBit_and, show (0xFFFFF00000000000 : Word).toNat = 2 ^ 44 * 0xFFFFF from rfl,
        Nat.testBit_two_pow_mul]
      by_cases g : 44 ≤ i
      · rw [Nat.testBit_lt_two_pow (Nat.lt_of_lt_of_le h (Nat.pow_le_pow_right (by decide) (by omega)))]; simp
      · simp [g]
    rw [z]; simp
  have h8 : spaceOf a = some (.channel 0) := by simp [spaceOf, h2, h4, h5]
  have n : saver.namesSpace (distributor 0 0) false a 8 = some (.channel 0) := by
    simp only [State.namesSpace, h1, h2, h8]; decide +kernel
  have l : saver.isLost (distributor 0 0) a = false := by
    simp only [State.isLost, h1, h3, h8]; decide +kernel
  have hh : saver.imageHow true .store = { master := distributor 0 0, team := 1, acc := .store, bank := 0, physical := true } := by
    decide +kernel
  simp only [State.imagePlace, State.check, hh, h1, n, l, Space.index, tableTarget, h3, h6, h7, saver_admits]
  have c : ¬ (Space.channel 0).capacity ≤ a.toNat := by simp [Space.capacity, Config.channelBytes]; omega
  have q : saver.podSize 0#9 ≠ 0 := by decide +kernel
  simp [pkgOfDie, distributor, ioDie, c, q, Except.isOk, Except.toBool]

theorem witness_ContextSaved : ∃ u, saver.hart.hs = true ∧ saver.hart.nb = [] ∧ saver.copiesOut saver.hart.pos = false ∧
    saver.imageAddr 0 = (0x10000, true) ∧ (0x10000 : Word).toNat % 4096 = 0 ∧ saver.hart.prq = true ∧
    writeImage true 0x10000 (saver.imageWords (if saver.hart.tcause = 0x340 then 0 else 1)) saver = .ok u := by
  have n : (saver.imageWords 0).length < 2500 := by decide +kernel
  obtain ⟨u, h⟩ := writeImage_lands saver (by decide +kernel) (saver.imageWords 0) 0x10000 saver.mem saver.poison fun i l =>
    saver_lands _ (by simp; omega)
  exact ⟨u, by decide +kernel, by decide +kernel, by decide +kernel, by decide +kernel, by decide +kernel, by decide +kernel, h⟩

/-- Handler state, with s1 at an image that holds its header alone. -/
def loader : State :=
  { mapped with hart := { mapped.hart.setS 1 fetchBase with hs := true }
                mem := [(fetchBase.toNat, 1), (fetchBase.toNat + 9, 4)] }

theorem witness_ContextLoaded : ∃ u x, loader.hart.hs = true ∧ loader.hart.nb = [] ∧ loader.imageAddr 1 = (fetchBase, false) ∧
    fetchBase.toNat % 4096 = 0 ∧ loader.fetchImage fetchBase false = .ok (x, u) ∧ u.imageFault x fetchBase = none ∧
    u.imageBlocked x = none ∧ (x.has 9 = false → bit (x.csr 8) 62 = false ∧ (u.appliedImage x).leave.hart.nextPending = none) :=
  ⟨(got (loader.fetchImage fetchBase false) (⟨[], []⟩, mapped)).2, (got (loader.fetchImage fetchBase false) (⟨[], []⟩, mapped)).1,
   by decide +kernel, by decide +kernel, by decide +kernel, by decide +kernel, got_eq (d := (⟨[], []⟩, mapped)) (by decide +kernel),
   by decide +kernel, by decide +kernel, fun _ => by decide +kernel⟩

/-! ### Hypotheses that are met: the vector words -/

/-- A full length of 32-bit integers, of FP32, and of MXFP8. -/
def ints : State := vec i32 256
def floats : State := vec f32 256
def blocks : State := vec mx8 1024

theorem vectorReady_ints : ints.vectorReady ∧ floats.vectorReady ∧ blocks.vectorReady := by decide +kernel

/-- Link 2 holds the finished elements of a producer of one position. -/
def linked : State :=
  let s := vec i32 1
  { s with hart := { s.hart with dl := s.hart.dl.set 2 (some ⟨1, 0, 3, some 0x100, [.final 7]⟩) } }

theorem linked_ready : linked.vectorReady ∧ linked.vtype.isInt = true := by decide +kernel

theorem linked_canRead : linked.canRead (.link 2) :=
  ⟨⟨1, 0, 3, some 0x100, [.final 7]⟩, by decide +kernel⟩

theorem witness_VectorIntegerResults :
    (∃ o, intWord (.vadd 31 0 1 31) = some o ∧ Instr.wellFormed (.vadd 31 0 1 31) = true ∧ ints.vectorReady ∧
      ints.vtype.isInt = true ∧ ints.canRead o.a ∧ ints.canRead o.b ∧ ints.canWrite o.d) ∧
    (∃ o, intWord (.vaddLink 23 26 1 31) = some o ∧ Instr.wellFormed (.vaddLink 23 26 1 31) = true ∧ linked.vectorReady ∧
      linked.canRead o.a ∧ linked.canRead o.b ∧ linked.canWrite o.d) :=
  ⟨⟨_, rfl, by decide +kernel, by decide +kernel, by decide +kernel, show ints.groupOk 0 by decide +kernel,
     show ints.groupOk 1 by decide +kernel, show ints.groupOk 31 by decide +kernel⟩,
   ⟨_, rfl, by decide +kernel, by decide +kernel, linked_canRead, show linked.groupOk 1 by decide +kernel,
     show linked.groupOk 23 by decide +kernel⟩⟩

theorem witness_VectorIntegerResults_toLink : ∃ o, intWord (.vmulLink 31 26 1 31) = some o ∧
    Instr.wellFormed (.vmulLink 31 26 1 31) = true ∧ linked.canRead o.a ∧ linked.canRead o.b ∧ linked.canWrite o.d :=
  ⟨_, rfl, by decide +kernel, linked_canRead, show linked.groupOk 1 by decide +kernel,
   show linked.hart.link 7 = none by decide +kernel⟩

theorem witness_VectorIntegerResults_bitwise :
    floats.vtype.isBlock = false ∧ bitwiseWord (.vand 31 0 1 31) := ⟨by decide +kernel, _, _, _, _, .inl rfl⟩

theorem witness_VectorFloatResults : ∃ o, floatWord (.vffma 31 0 1 23) = some o ∧ Instr.wellFormed (.vffma 31 0 1 23) = true ∧
    floats.vectorReady ∧ floats.vtype.isFp = true ∧ floats.canRead o.a ∧ floats.canRead o.b ∧ floats.canWrite o.d :=
  ⟨_, rfl, by decide +kernel, by decide +kernel, by decide +kernel, show floats.groupOk 0 by decide +kernel,
   show floats.groupOk 1 by decide +kernel, show floats.groupOk 31 by decide +kernel⟩

theorem witness_VectorArithmeticFrame : ∃ t, Instr.wellFormed (.vadd 31 0 1 31) = true ∧
    (∃ o, intWord (.vadd 31 0 1 31) = some o ∧ o.d = .reg 31 ∧ o.a = .reg 0 ∧ o.b = .reg 1 ∧ (vec i32 1).vtype.isInt = true) ∧
    (vec i32 1).vectorReady ∧ (vec i32 1).canRead (.reg 0) ∧ (vec i32 1).canRead (.reg 1) ∧ (vec i32 1).canWrite (.reg 31) ∧
    Runs (.vadd 31 0 1 31) (vec i32 1) t :=
  ⟨_, by decide +kernel, ⟨_, rfl, rfl, rfl, rfl, by decide +kernel⟩, by decide +kernel, show (vec i32 1).groupOk 0 by decide +kernel,
   show (vec i32 1).groupOk 1 by decide +kernel, show (vec i32 1).groupOk 31 by decide +kernel, runs_after (by decide +kernel)⟩

/-- Words that the tests of R52 refuse: under no legal type, of a group that is not aligned, and of a type not admitted. -/
theorem witness_VectorDecodeTests :
    laneOperands (.vaddLink 25 26 1 31) = some (.link 1, .link 2, .reg 1) ∧ (encode (.vaddLink 25 26 1 31)).isSome = true ∧
    bit running.hart.vty 63 = true ∧
    (let s := vec (i32 ||| 0x400) 1
     bit s.hart.vty 63 = false ∧ vtyLegal s.hart.vty = true ∧ ¬ s.groupOk 31) ∧
    (bit floats.hart.vty 63 = false ∧ vtyLegal floats.hart.vty = true ∧ floats.groupOk 31 ∧ floats.vtype.isInt = false ∧
      ints.vtype.isFp = false ∧ blocks.vtype.isBlock = true) := by
  decide +kernel

/-- A reserved rounding mode under DYN; a length above VLMAX. -/
theorem witness_VectorDecodeTests_last :
    (let s := with_ fun h => { h with vty := f32 ||| 0x8000, vl := 256, fcsr := 0x500 }
     roundsWord (.vfadd 31 0 1 31) = true ∧ bit s.hart.vty 63 = false ∧ vtyLegal s.hart.vty = true ∧ bit s.hart.vty 15 = true ∧
     s.hart.fcsrRm.toNat = 5 ∧ s.vtype.isFp = true) ∧
    (let s := vec i32 257
     bit s.hart.vty 63 = false ∧ vtyLegal s.hart.vty = true ∧ s.vtype.vlmax + 1 = s.hart.vl.toNat) := by decide +kernel

/-- A segment of two groups at v31; and blocks at v31. -/
theorem witness_VectorDecodeTests_memory :
    (bit ints.hart.vty 63 = false ∧ vtyLegal ints.hart.vty = true ∧ ints.groupOk 31 ∧ ints.vtype.isBlock = false ∧
      (31 : VReg).toNat + ((1 : BitVec 5).toNat + 1) * ints.vtype.gf = 33 ∧ (encode (.vldsg 31 1 1 31 false .thr)).isSome = true) ∧
    (blocks.vtype.isBlock = true ∧ vtyLegal blocks.hart.vty = true ∧ (31 : VReg).toNat + blocks.vtype.gf = 32 ∧
      (encode (.vldff 31 1 31 .thr)).isSome = true) := by decide +kernel

/-- A link that its producer, interrupted at its last position, has not filled; links of another length, format and width; and a
word that names a link three times. -/
theorem witness_DigitLinkTraps :
    laneOperands (.vmulLink 26 27 28 31) = some (.link 2, .link 3, .link 4) ∧ Instr.wellFormed (.vmulLink 26 27 28 31) = true ∧
    linked.vectorReady ∧ linked.vtype.isInt = true ∧ linked.hart.link 7 = none ∧
    (let l : Link := ⟨1, 0, 3, some 0x100, [.final 7]⟩
     linked.hart.link 2 = some l ∧ l.interrupted = false ∧ linked.hart.vl = 1 ∧
     l.fmt = linked.hart.vty.extractLsb' 6 4 ∧ l.ew = linked.hart.vty.extractLsb' 3 3) ∧
    (let l : Link := ⟨2, 0, 3, some 0x100, [.final 7, .unproduced]⟩
     let s : State := { linked with hart := { linked.hart with vl := 2, dl := linked.hart.dl.set 2 (some l) } }
     s.vectorReady ∧ s.hart.link 2 = some l ∧ l.interrupted = true ∧ l.produced + 1 = s.hart.vl.toNat) ∧
    (∀ l ∈ [(⟨2, 0, 3, some 0x100, [.final 7, .final 7]⟩ : Link), ⟨1, 1, 3, some 0x100, [.final 7]⟩, ⟨1, 0, 2, some 0x100, [.final 7]⟩],
      l.interrupted = false ∧ (l.vl ≠ linked.hart.vl ∨ l.fmt ≠ linked.hart.vty.extractLsb' 6 4 ∨ l.ew ≠ linked.hart.vty.extractLsb' 3 3)) := by
  decide +kernel

/-- The hart holds tile 7, and link 2 is full. -/
theorem witness_DigitLinkTraps_accx :
    let s := linked.setCore 0 { linked.core 0 with tiles := (linked.core 0).tiles.set 7 { own := some 0 } }
    s.vectorReady ∧ s.vtype.isBlock = false ∧ s.vtype.ew = 32 ∧ bits (s.getS 1) 13 51 = 0 ∧ bit (s.getS 1) 12 = false ∧
    (s.myCore.tile 7).own = some s.hart.pos ∧ bits (s.getS 1) 0 11 + s.hart.vl.toNat ≤ 2048 ∧
    s.hart.link 2 = some ⟨1, 0, 3, some 0x100, [.final 7]⟩ := by decide +kernel

/-- A word goes on at position 200, is cut short at 201, and reads A through `xlm` as a broadcast from position 3. -/
theorem witness_ModifiedOperands :
    let s : State := { (with_ fun h => { h with vty := i32, vl := 256, vix := 200, xlm := 0x40000 + 0x8000 + 0x2000 + 3 }) with stop := some 201 }
    Instr.wellFormed (.vadd 31 0 1 31) = true ∧ s.vectorRuns ∧ s.vtype.isInt = true ∧ s.groupOk 31 ∧ s.hart.selA = true ∧ s.hart.selB = false ∧
    overlaps (groupRegs 31 1) (groupRegs 0 1) = false ∧ xlmMap s.hart.xlm 200 = some 203 := by decide +kernel

/-- Queue 3 is mapped onto v0, and holds one entry. -/
def mappedQueue (xs : List VecReg) : State :=
  { ints with hart := { ints.hart with qmap := 0x80000000, vq := ints.hart.vq.set 3 xs } }

theorem witness_QueuedOperands : ∀ xs, xs = [] ∨ xs = [5] → let s := mappedQueue xs
    Instr.wellFormed (.vadd 31 0 1 31) = true ∧ (encode (.vadd 31 0 1 31)).isSome = true ∧ (encode (.vadd 0 1 1 31)).isSome = true ∧
    s.vtype.isInt = true ∧ s.vtype.gf = 1 ∧ s.hart.b = Vector.replicate 8 none ∧ s.hart.nb = [] ∧ s.stop = none ∧ s.hart.vix = 0 ∧
    vtyLegal s.hart.vty = true ∧ s.hart.vl.toNat ≤ s.vtype.vlmax ∧ s.hart.selA = false ∧ s.hart.selB = false ∧
    s.hart.mapped 3 = true ∧ s.hart.mappedReg 3 = 0 ∧ (∀ j < 4, j ≠ 3 → s.hart.mapped j = false) ∧ s.groupOk 31 ∧
    s.hart.vqueue 3 = xs := by
  rintro xs (rfl | rfl) <;> decide +kernel

/-- v0 is bound to a stream of strips at the last twelve bytes of the mapped page. -/
def strip (ew : BitVec 3) (count : BitVec 24) : Binding :=
  ⟨0, 0, 0, ew, fetchBase + 0xFFF4, 12, 0, 0, count, false, 0, []⟩
def bound (x : Binding) : State :=
  mappedWith fun h => { h with vty := i32, vl := 3, b := (Vector.replicate 8 none).set 7 (some x) }

theorem witness_BoundOperands :
    (∀ x ∈ [strip 3 1, strip 3 0, strip 2 1], let s := bound x
      s.vtype.isInt = true ∧ (∀ j < 4, s.hart.mapped j = false) ∧ s.hart.nb = [] ∧ s.stop = none ∧ s.hart.vix = 0 ∧
      vtyLegal s.hart.vty = true ∧ s.hart.vl.toNat ≤ s.vtype.vlmax ∧ s.hart.selA = false ∧ s.hart.selB = false ∧ s.groupOk 31 ∧
      overlaps x.regs (groupRegs 31 1) = false ∧ overlaps x.regs (groupRegs 0 1) = true) ∧
    (let s := bound (strip 3 1)
     (strip 3 1).ew = s.hart.vty.extractLsb' 3 3 ∧ (strip 3 1).fmt = s.hart.vty.extractLsb' 6 4 ∧ (strip 3 1).gf = s.hart.vty.extractLsb' 10 2 ∧
     (strip 2 1).ew ≠ s.hart.vty.extractLsb' 3 3) ∧
    ∃ out u, (bound (strip 3 1)).readStrip (strip 3 1) ((strip 3 1).ahead.headD []) [] ((bound (strip 3 1)).stripItems (strip 3 1)) = (out, none, u) := by
  have e : ∀ {α β γ : Type} (x : α × Option β × γ), x.2.1.isNone = true → x = (x.1, none, x.2.2) := by
    rintro α β γ ⟨a, b, c⟩ h; cases b <;> simp_all
  exact ⟨by decide +kernel, by decide +kernel, _, _, e _ (by decide +kernel)⟩

theorem witness_PredicateWordResults : ints.vectorReady ∧ ints.vtype.isBlock = false ∧ (23 : PReg).toNat < 24 ∧ ints.groupOk 31 := by
  decide +kernel
theorem witness_PermutationResults :
    ints.vectorReady ∧ ints.vtype.isBlock = false ∧ ints.vtype.isInt = true ∧ ints.groupOk 31 ∧ ints.groupOk 0 ∧
    (23 : PReg).toNat < 24 ∧ (31 : VReg) ≠ 0 ∧ ∃ w, encode (.vperm 31 31 1 31) = some w :=
  ⟨by decide +kernel, by decide +kernel, by decide +kernel, by decide +kernel, by decide +kernel, by decide +kernel,
   by decide +kernel, _, word_eq (by decide +kernel)⟩
theorem witness_ElementMoves :
    ints.vectorReady ∧ ints.groupOk 31 ∧ blocks.vectorReady ∧ blocks.groupOk 30 ∧ blocks.vtype.isBlock = true ∧
    (30 : VReg).toNat + blocks.vtype.gf ≤ 31 ∧ blocks.vtype.fmt = 8 ∧ floats.vtype.fmt = 3 ∧ ints.vtype.fmt = 0 := by decide +kernel
/-- `vl` is above VLMAX, `vix` is not 0, and `xlm` is illegal. -/
theorem witness_ElementMoves_whatever :
    let s := with_ fun h => { h with vty := i32, vl := 257, vix := 5, xlm := 0x8000000000000000 }
    s.hart.b = Vector.replicate 8 none ∧ (∀ k < 4, s.hart.mapped k = false) ∧ s.hart.nb = [] ∧ bit s.hart.vty 63 = false ∧
    vtyLegal s.hart.vty = true ∧ s.groupOk 31 ∧ ¬ s.vectorReady := by decide +kernel

theorem witness_ReductionResults : floats.vectorReady ∧ floats.vtype.isBlock = false ∧ floats.groupOk 31 ∧ floats.groupOk 0 := by
  decide +kernel

/-- The pair's destination width, and that its group is aligned, in range and apart from the source. -/
def pairMeets (s : State) (pair : Option Nat) (d a : VReg) : Bool :=
  match pair with
  | some w => decide (s.vtype.gf * w ≤ 8 * s.vtype.ew) && d.toNat % destRegs s.vtype w == 0 &&
      decide (d.toNat + destRegs s.vtype w ≤ 32) && !overlaps (groupRegs d (destRegs s.vtype w)) (groupAll a s.vtype)
  | none => false

theorem witness_ConversionResults :
    pairMeets ints (pairHalf ints.vtype 0) 31 0 = true ∧ pairMeets ints (pairDouble ints.vtype 1) 30 0 = true ∧
    pairMeets floats (pairToInt floats.vtype 0) 31 0 = true ∧ pairMeets ints (pairFromInt ints.vtype 3) 31 0 = true ∧
    pairMeets floats (pairQuant floats.vtype 12) 31 0 = true ∧
    (∃ c, pairMeets blocks (pairDeq blocks.vtype c) 28 30 = true ∧ (30 : VReg).toNat + blocks.vtype.gf ≤ 31) ∧
    ints.vectorReady ∧ floats.vectorReady ∧ blocks.vectorReady :=
  ⟨by decide +kernel, by decide +kernel, by decide +kernel, by decide +kernel, by decide +kernel, ⟨4, by decide +kernel⟩,
   by decide +kernel⟩

/-- A full length of BF16. -/
def halves : State := vec 0x110 512

theorem witness_BlockConversionResults :
    halves.vectorReady ∧ halves.groupOk 0 ∧ floats.vectorReady ∧ floats.groupOk 0 ∧
    pairMx halves.vtype 8 = some 8 ∧ pairQuant floats.vtype 11 = some 4 ∧
    (30 : VReg).toNat % destRegs halves.vtype 8 = 0 ∧ (30 : VReg).toNat + destRegs halves.vtype 8 ≤ 31 ∧
    overlaps (groupRegs 30 (destRegs halves.vtype 8 + 1)) (groupRegs 0 halves.vtype.gf) = false ∧
    (30 : VReg).toNat % destRegs floats.vtype 4 = 0 ∧ (30 : VReg).toNat + destRegs floats.vtype 4 ≤ 31 ∧
    overlaps (groupRegs 30 (destRegs floats.vtype 4 + 1)) (groupRegs 0 floats.vtype.gf) = false := by decide +kernel

theorem witness_LinkFlush : bit ints.hart.vty 63 = false ∧ bit running.hart.vty 63 = true := by decide +kernel

/-- Link 2 holds the first of two elements of an interrupted producer. -/
theorem witness_LinkFlush_interrupted :
    let l : Link := ⟨2, 0, 3, some 0x100, [.final 7, .unproduced]⟩
    let s : State := { linked with hart := { linked.hart with vl := 2, dl := linked.hart.dl.set 2 (some l) } }
    let h : Hart := { (after (exec (.dlfl 2) s)).hart with pc := 0x100, vix := 1 }
    s.hart.link 2 = some l ∧ l.interrupted = true ∧ l.pc = some h.pc ∧ h.vix ≠ 0 ∧
    h.vix = BitVec.ofNat 11 (l.elems.findIdx fun e => e == .unproduced) := by decide +kernel

/-! ### Hypotheses that are met: vector memory -/

/-- Three positions of 32-bit integers, their base at the last twelve bytes of the mapped page. -/
def lastThree : State := mappedWith fun h => { h.setS 1 (fetchBase + 0xFFF4) with vty := i32, vl := 3 }

/-- Items that pass their checks, with where they land. -/
def landed (xs : List (VItem × Except VFault (List Landing))) : List (VItem × List Landing) :=
  xs.filterMap fun x => match x.2 with
    | .ok l => some (x.1, l)
    | .error _ => none

theorem landed_all : ∀ {xs : List (VItem × Except VFault (List Landing))}, (xs.all fun x => x.2.isOk) = true →
    xs = (landed xs).map fun x => (x.1, .ok x.2)
  | [], _ => rfl
  | (x, .ok l) :: xs, h =>
    congrArg ((x, Except.ok l) :: ·) (landed_all (xs := xs) (by simpa [Except.isOk, Except.toBool] using h))
  | (x, .error e) :: xs, h => by simp [Except.isOk, Except.toBool] at h

theorem lands_of {m : MemForm} {s : State} {xs : List VItem}
    (h : ((s.probe (match m.kind with | .load => .load | .store => .store | .amo _ => .atomic) s.vtype
        (match m.mode with | .indexed _ => false | _ => true) [] xs).1.all fun x => x.2.isOk) = true) :
    ∃ outs u, m.lands s xs outs u :=
  ⟨_, _, Prod.ext (landed_all h) rfl⟩

theorem witness_VectorLoadResults : ∃ m outs u, memForm lastThree (.vld 31 1 31 false .thr) = some m ∧ m.kind = .load ∧ m.nb = false ∧
    lastThree.vectorReady ∧ lastThree.hart.fm = 0 ∧ m.fits lastThree ∧ m.lands lastThree (m.list lastThree) outs u := by
  obtain ⟨outs, u, h⟩ := lands_of (m := ⟨.load, .unit, 31, 1, 31, false, true⟩) (s := lastThree)
    (xs := MemForm.list ⟨.load, .unit, 31, 1, 31, false, true⟩ lastThree) (by decide +kernel)
  exact ⟨_, outs, u, rfl, rfl, rfl, by decide +kernel, by decide +kernel,
    ⟨rfl, by decide +kernel, by decide +kernel, trivial⟩, h⟩

theorem witness_VectorStoreResults : ∃ m outs u, memForm lastThree (.vst 31 1 31 false .thr) = some m ∧ m.kind = .store ∧ m.nb = false ∧
    lastThree.vectorReady ∧ lastThree.hart.fm = 0 ∧ m.fits lastThree ∧ m.lands lastThree (m.list lastThree) outs u := by
  obtain ⟨outs, u, h⟩ := lands_of (m := ⟨.store, .unit, 31, 1, 31, false, true⟩) (s := lastThree)
    (xs := MemForm.list ⟨.store, .unit, 31, 1, 31, false, true⟩ lastThree) (by decide +kernel)
  exact ⟨_, outs, u, rfl, rfl, rfl, by decide +kernel, by decide +kernel,
    ⟨rfl, by decide +kernel, by decide +kernel, trivial⟩, h⟩

/-- The first of those positions. -/
def one : State := { lastThree with hart := { lastThree.hart with vl := 1 } }

theorem witness_VectorAtomicResults : ∃ m outs u, memForm one (.vamo 31 1 0 31 false .add .thr) = some m ∧
    one.vectorReady ∧ one.hart.fm = 0 ∧ m.fits one ∧ m.lands one (m.list one) outs u := by
  obtain ⟨outs, u, h⟩ := lands_of (m := ⟨.amo .add, .indexed 0, 31, 1, 31, false, true⟩) (s := one)
    (xs := MemForm.list ⟨.amo .add, .indexed 0, 31, 1, 31, false, true⟩ one) (by decide +kernel)
  exact ⟨_, outs, u, rfl, by decide +kernel, by decide +kernel,
    ⟨by decide +kernel, by decide +kernel, by decide +kernel, by decide +kernel, fun _ => by decide +kernel⟩, h⟩

/-- That position at a base whose target is lost, known to its master or not. -/
def oneLost (s : State) : State := { s with hart := { s.hart with vty := i32, vl := 1 } }

/-- The checks of that word's element. -/
def lostProbe (s : State) : List (VItem × Except VFault (List Landing)) × State :=
  s.probe .atomic s.vtype false [] (MemForm.list ⟨.amo .add, .indexed 0, 31, 1, 31, false, true⟩ s)

theorem lostLands {s : State} (h : ((lostProbe s).1.all fun x => x.2.isOk) = true) :
    MemForm.lands ⟨.amo .add, .indexed 0, 31, 1, 31, false, true⟩ s
      (MemForm.list ⟨.amo .add, .indexed 0, 31, 1, 31, false, true⟩ s) (landed (lostProbe s).1) (lostProbe s).2 :=
  Prod.ext (landed_all (xs := (lostProbe s).1) h) rfl

/-- A landed item that no target answers. -/
def anyLost (s : State) (unknown : Bool) : Bool := (landed (lostProbe s).1).any fun y => y.2.headD none == none &&
  s.lossUnknown (s.scalarHow .atomic).master (y.1.addrs.headD 0) == unknown

theorem anyLost_spec {s : State} {b : Bool} (h : anyLost s b = true) : ∃ y ∈ landed (lostProbe s).1, y.2.headD none = none ∧
    s.lossUnknown (s.scalarHow .atomic).master (y.1.addrs.headD 0) = b := by
  obtain ⟨y, m, h⟩ := List.any_eq_true.mp h
  rw [Bool.and_eq_true, beq_iff_eq, beq_iff_eq] at h
  exact ⟨y, m, h⟩

theorem witness_VectorAtomicResults_lost : ∀ s b, s = oneLost lostPackage ∧ b = false ∨ s = oneLost lostDie ∧ b = true →
    ∃ outs u, s.vectorReady ∧ s.hart.fm = 0 ∧ MemForm.fits ⟨.amo .add, .indexed 0, 31, 1, 31, false, true⟩ s ∧
      MemForm.lands ⟨.amo .add, .indexed 0, 31, 1, 31, false, true⟩ s
        (MemForm.list ⟨.amo .add, .indexed 0, 31, 1, 31, false, true⟩ s) outs u ∧
      ∃ y ∈ outs, y.2.headD none = none ∧ s.lossUnknown (s.scalarHow .atomic).master (y.1.addrs.headD 0) = b := by
  rintro s b (⟨rfl, rfl⟩ | ⟨rfl, rfl⟩)
  · exact ⟨_, _, by decide +kernel, by decide +kernel,
      ⟨by decide +kernel, by decide +kernel, by decide +kernel, by decide +kernel, fun _ => by decide +kernel⟩,
      lostLands (by decide +kernel), anyLost_spec (by decide +kernel)⟩
  · exact ⟨_, _, by decide +kernel, by decide +kernel,
      ⟨by decide +kernel, by decide +kernel, by decide +kernel, by decide +kernel, fun _ => by decide +kernel⟩,
      lostLands (by decide +kernel), anyLost_spec (by decide +kernel)⟩

/-- Four positions, the last of them past the mapped page. -/
def overTheEdge : State := { lastThree with hart := { lastThree.hart with vl := 4 } }

/-- The items of a unit-stride word of every position, and the checks of a load of them. -/
def unitItems (s : State) : List VItem := s.items s.vtype .unit (s.getS 1) (s.hart.active 31)
def unitProbe (s : State) : List (VItem × Except VFault (List Landing)) × State := s.probe .load s.vtype true [] (unitItems s)

theorem fault_of {xs : List (VItem × Except VFault (List Landing))} {n : Nat}
    (h : (match xs.find? fun y => match y.2 with | .error _ => true | .ok _ => false with
      | some x => x.1.pos == n
      | none => false) = true) :
    ∃ x f, (xs.find? fun y => match y.2 with | .error _ => true | .ok _ => false) = some (x, .error f) ∧ x.pos = n := by
  revert h
  split
  · next y e =>
    intro h
    have := List.find?_some e
    obtain ⟨x, r⟩ := y
    cases r with
    | error f => exact ⟨x, f, e, by simpa using h⟩
    | ok l => simp at this
  · exact fun h => absurd h (by simp)

theorem witness_FirstFaultTrims : overTheEdge.vectorReady ∧ overTheEdge.hart.fm = 0 ∧ overTheEdge.groupOk 31 ∧
    overTheEdge.vtype.isBlock = false ∧ (∀ y ∈ unitItems overTheEdge, overTheEdge.remote y = false) ∧
    (∃ x f, ((unitProbe overTheEdge).1.find? fun y => match y.2 with | .error _ => true | .ok _ => false) =
      some (x, .error f) ∧ ((unitItems overTheEdge).headD x).pos < x.pos) ∧
    (let s : State := { overTheEdge with hart := overTheEdge.hart.setS 1 (fetchBase + 0x10000) }
     ∃ x f, ((unitProbe s).1.find? fun y => match y.2 with | .error _ => true | .ok _ => false) =
       some (x, .error f) ∧ ((unitItems s).headD x).pos = x.pos) := by
  obtain ⟨x, f, e, h⟩ := fault_of (xs := (unitProbe overTheEdge).1) (n := 3) (by decide +kernel)
  let s : State := { overTheEdge with hart := overTheEdge.hart.setS 1 (fetchBase + 0x10000) }
  obtain ⟨y, g, e', h'⟩ := fault_of (xs := (unitProbe s).1) (n := 0) (by decide +kernel)
  have p : ∀ z : VItem, ((unitItems overTheEdge).headD z).pos = 0 := fun z => by
    rw [show unitItems overTheEdge = ⟨0, [fetchBase + 0xFFF4]⟩ :: (unitItems overTheEdge).tail by decide +kernel]; rfl
  have q : ∀ z : VItem, ((unitItems s).headD z).pos = 0 := fun z => by
    rw [show unitItems s = ⟨0, [fetchBase + 0x10000]⟩ :: (unitItems s).tail by decide +kernel]; rfl
  exact ⟨by decide +kernel, by decide +kernel, by decide +kernel, by decide +kernel, by decide +kernel,
    ⟨x, f, e, by rw [p, h]; decide⟩, ⟨y, g, e', by rw [q, h']⟩⟩

/-- The form of a non-blocking load of the same three positions, on semaphore 23. -/
theorem witness_NonBlockingIssues : ∃ m c outs u, memForm lastThree (.vld 31 1 23 true .thr) = some m ∧ m.nb = true ∧
    lastThree.vectorReady ∧ lastThree.hart.fm = 0 ∧ m.fits lastThree ∧
    lastThree.claimSema (coreOf lastThree.hart.pos) (m.p.setWidth 6) lastThree.hart.team = some c ∧
    m.lands c ((m.list c).filter fun x => !c.remote x) outs u := by
  have e : (lastThree.claimSema (coreOf lastThree.hart.pos) 23 lastThree.hart.team).isSome = true := by decide +kernel
  obtain ⟨c, hc⟩ := Option.isSome_iff_exists.mp e
  have hc' : c = (lastThree.claimSema (coreOf lastThree.hart.pos) 23 lastThree.hart.team).getD mapped := by rw [hc]; rfl
  obtain ⟨outs, u, h⟩ := lands_of (m := ⟨.load, .unit, 31, 1, 23, true, true⟩) (s := c)
    (xs := (MemForm.list ⟨.load, .unit, 31, 1, 23, true, true⟩ c).filter fun x => !c.remote x) (by rw [hc']; clear hc' hc e; decide +kernel)
  exact ⟨_, c, outs, u, rfl, rfl, by decide +kernel, by decide +kernel, ⟨rfl, by decide +kernel, by decide +kernel, trivial⟩, hc, h⟩

theorem witness_ProbeResults : lastThree.vectorReady ∧ lastThree.vtype.isBlock = false ∧ 8 ≤ lastThree.vtype.ew ∧
    lastThree.groupOk 31 ∧ (23 : PReg).toNat < 24 := by decide +kernel

/-- One position at a base: misaligned, remote, and local. -/
theorem witness_ProbeResults_items :
    let at_ (a : Word) : State := { one with hart := one.hart.setS 1 a }
    let items (s : State) := s.items s.vtype (.indexed 31) (s.getS 1) (s.hart.active 31)
    (∃ x ∈ items (at_ (fetchBase + 2)), (x.addrs.headD 0).toNat % 4 ≠ 0) ∧
    (∃ x ∈ items (at_ 0x003BF0007FFFFFF8), (x.addrs.headD 0).toNat % 4 = 0 ∧ (at_ 0x003BF0007FFFFFF8).remote x = true) ∧
    (items (at_ fetchBase)).length = 1 ∧
    (∀ x ∈ items (at_ fetchBase), (x.addrs.headD 0).toNat % 4 = 0 ∧ (at_ fetchBase).remote x = false) := by decide +kernel

/-! ### Hypotheses that are met: streams, rows, the matrix unit -/

/-- The mapped hart as the one hart of team 1, whose record grants 16 slots, 8 tiles and 4 rows. -/
def crew : State := { mapped with hart := { mapped.hart with team := 1 }, teams := [(1, teamOf [0])] }

/-- That state with a change of the hart. -/
def crewWith (f : Hart → Hart) : State := { crew with hart := f crew.hart }

/-- What a scalar read of some bytes gives. -/
def reads (s : State) (a : Word) (n : Nat) : List Byte × State := got (s.scalarRead a n) ([], s)

theorem reads_eq {s : State} {a : Word} {n : Nat} (h : (s.scalarRead a n).isOk = true) :
    s.scalarRead a n = .ok ((reads s a n).1, (reads s a n).2) := got_eq h

/-- Bytes stored at an address of the TCM. -/
def placed (s : State) (a : Word) (bs : List Byte) : State := s.store ((List.range bs.length).map (a.toNat + ·)) bs

/-- Words of eight bytes. -/
def asBytes (ws : List Word) : List Byte := ws.flatMap fun w : Word => natToBytes 8 w.toNat

/-- A stream descriptor of 32-bit integers at the end of the page, and a bound group apart from it. -/
def binder : State :=
  let s := placed (crewWith fun h => { h.setS 1 (fetchBase + 0xFFE0) with vty := i32, vl := 1 }) (fetchBase + 0xFFE0)
    (asBytes [fetchBase, 0, 0, 0x10000000000])
  { s with hart := { s.hart with b := s.hart.b.set 7 (some ⟨30, 0, 0, 3, 0, 0, 0, 0, 1, false, 0, []⟩) } }

theorem witness_StreamBindingResults :
    let r := binder.getS 1
    let w := bytesToWords 4 (reads binder r 32).1
    bit binder.hart.vty 63 = false ∧ binder.groupOk 31 ∧ binder.hart.b.get (0 : BitVec 3).toFin = none ∧
    (∀ x ∈ binder.hart.bindings, overlaps (groupAll 31 binder.vtype) x.2.regs = false) ∧ r.toNat % 32 = 0 ∧
    binder.scalarRead r 32 = .ok ((reads binder r 32).1, (reads binder r 32).2) ∧
    bits (wordAt w 3) 9 7 = 0 ∧ bits (wordAt w 3) 4 4 = 0 ∧ bits (wordAt w 3) 40 24 ≠ 0 ∧ bits (wordAt w 3) 0 4 = binder.vtype.fmt ∧
    (if bit (wordAt w 3) 8 then 8 ≤ binder.vtype.fmt else wordAt w 2 = 0 ∧ bits (wordAt w 3) 16 24 = 0) :=
  ⟨by decide +kernel, by decide +kernel, by decide +kernel, by decide +kernel, by decide +kernel, reads_eq (by decide +kernel),
   by decide +kernel, by decide +kernel, by decide +kernel, by decide +kernel, by decide +kernel⟩

/-- s1 points to the last row of channel 63 of die 0, which a page of the lane TLB maps; the access table admits the hart. -/
def rowState : State :=
  let a : Word := 0x0003F0007FFFFC00
  let s := (crewWith fun h => { h.setS 1 a with vty := i32, vl := 1 }).setReg 0 (0x200000 + 0x2000 * 63 + 16) 0x3C0000000
  s.setCore 0 { s.core 0 with tlb := (s.core 0).tlb.put 0 [⟨0, 63, 1, 1, 0x40000000, true, true, true⟩] }

/-- The same with the row pinned in slot 7 by the team, generation 5. -/
def pinned : State :=
  rowState.setDie 0 { rowState.die 0 with rows := [(8 * 63 + 7, { gen := 5, row := some 0x1FFFFF, team := 1, w := true })] }

theorem witness_RowBufferResults_pin :
    let x := rowState.getS 1
    let p := (land rowState .load x 1).1
    let ch := p.keys.headD 0 / 2 ^ 44 % 64
    x.toNat % 1024 = 0 ∧ aPkg x = pkgOf rowState.hart.pos ∧ aSp x = false ∧ (rowState.die (aDieId x)).failed = false ∧
    rowState.check (rowState.scalarHow .load) x 1 = .ok (p, (land rowState .load x 1).2) ∧
    (∀ sl < 8, ((rowState.die (aDieId x)).rows.getD (8 * ch + sl) {}).row ≠ some (p.keys.headD 0 % 2 ^ 44 / 1024)) ∧
    rowState.heldRows rowState.hart.team < rowState.rowQuota ∧
    (∃ sl < 8, ((rowState.die (aDieId x)).rows.getD (8 * ch + sl) {}).row = none) :=
  ⟨by decide +kernel, by decide +kernel, by decide +kernel, by decide +kernel, land_eq (by decide +kernel), by decide +kernel,
   by decide +kernel, by decide +kernel⟩

theorem witness_RowBufferResults_again :
    let x := pinned.getS 1
    let p := (land pinned .load x 1).1
    pinned.check (pinned.scalarHow .load) x 1 = .ok (p, (land pinned .load x 1).2) ∧
    ((pinned.die (aDieId x)).rows.getD (8 * (p.keys.headD 0 / 2 ^ 44 % 64) + 7) {}).row = some (p.keys.headD 0 % 2 ^ 44 / 1024) ∧
    ((pinned.die (aDieId x)).rows.getD (8 * (p.keys.headD 0 / 2 ^ 44 % 64) + 7) {}).team = pinned.hart.team ∧
    (∀ k < 7, ((pinned.die (aDieId x)).rows.getD (8 * (p.keys.headD 0 / 2 ^ 44 % 64) + k) {}).row ≠
      some (p.keys.headD 0 % 2 ^ 44 / 1024)) :=
  ⟨land_eq (by decide +kernel), by decide +kernel, by decide +kernel, by decide +kernel⟩

/-- s1 holds the handle of that row. -/
def holder : State :=
  { pinned with hart := pinned.hart.setS 1 (BitVec.ofNat 64 (2 ^ 50 + 33 * 2 ^ 44 + 5 * 2 ^ 19 + 63 * 2 ^ 13 + 7 * 2 ^ 10)) }

theorem witness_RowBufferResults_release :
    let x := holder.getS 1
    holder.rowWindow x = true ∧ holder.hart.usesHandle x = false ∧ x.toNat % 1024 = 0 ∧ x ≠ 0 ∧ holder.getS 2 = 0 ∧
    ∃ p u, holder.check (holder.scalarHow .load) x 1 = .ok (p, u) :=
  ⟨by decide +kernel, by decide +kernel, by decide +kernel, by decide +kernel, by decide +kernel, _, _, land_eq (by decide +kernel)⟩

/-- The hart under a type of the matrix table: BF16 at M 1, and MXFP8 at M 1. -/
def bf16 : State := crewWith fun h => { h with vty := 0x110, vl := 4 }
def mx : State := crewWith fun h => { h with vty := mx8, vl := 32 }

/-- Core 0 with slot 15 held by hart 0 and ready, of depth 4 and one column, and tile 7 held. -/
def loaded : State :=
  bf16.setCore 0 { bf16.core 0 with
    slots := (bf16.core 0).slots.set 15 { own := some 0, st := .ready, fmt := 4, ew := 2, kr := 4, n := 1 }
    tiles := (bf16.core 0).tiles.set 7 { own := some 0 } }

theorem witness_SlotAndTileClaims :
    bit loaded.hart.vty 63 = false ∧ (loaded.myCore.slot 15).own = some loaded.hart.pos ∧ (loaded.myCore.slot 0).own = none ∧
    (loaded.myCore.slot 0).clearing = false ∧
    (loaded.myCore.slots.toList.filter fun y => y.own == some loaded.hart.pos).length < loaded.quota 4 5 ∧
    (loaded.myCore.tile 7).own = some loaded.hart.pos ∧ (loaded.myCore.tile 7).clearing = false ∧
    (loaded.myCore.tile 0).own = none ∧ (loaded.myCore.tile 0).clearing = false ∧
    (loaded.myCore.tiles.toList.filter fun y => y.own == some loaded.hart.pos).length < loaded.quota 9 4 := by decide +kernel

theorem witness_TileGrants :
    bit bf16.hart.vty 63 = false ∧ bf16.vtype.matrix.isSome = true ∧ bf16.vtype.gf * 2 ^ bits bf16.hart.vty 12 3 ≤ 32 ∧
    (let s := crewWith fun h => { h with vty := 0x5110 }
     s.vtype.matrix.isSome = true ∧ s.vtype.gf * 2 ^ bits s.hart.vty 12 3 = 32) := by decide +kernel

/-- s1 holds a control word that fills the last column, to the last depth, and finishes. -/
def filler : State := { loaded with hart := loaded.hart.setS 1 (BitVec.ofNat 64 (2 ^ 24 + 63 * 2 ^ 18 + 3 * 2 ^ 9 + 124)) }

theorem witness_SlotFillResults :
    let ctl := filler.getS 1
    let x := filler.myCore.slot 15
    filler.vectorReady ∧ filler.groupOk 31 ∧ filler.vtype.matrix.isSome = true ∧ filler.vtype.isBlock = false ∧
    ctl.toNat < 2 ^ 25 ∧ x.own = some filler.hart.pos ∧ x.copies = 0 ∧ x.st ≠ .filling ∧
    filler.hart.vl.toNat % (bits ctl 9 9 + 1) = 0 ∧ bits ctl 0 9 + (bits ctl 9 9 + 1) ≤ 128 ∧
    bits ctl 18 6 + filler.hart.vl.toNat / (bits ctl 9 9 + 1) ≤ 64 ∧ 0 < bits ctl 18 6 := by decide +kernel

theorem witness_SlotFillResults_block :
    mx.vectorReady ∧ mx.groupOk 30 ∧ mx.vtype.isBlock = true ∧ (30 : VReg).toNat + mx.vtype.gf ≤ 31 ∧
    mx.hart.vl.toNat % 32 = 0 ∧ mx.vtype.matrix.isSome = true := by decide +kernel

theorem witness_MultiplyAccumulateResults :
    loaded.vectorReady ∧ loaded.groupOk 31 ∧ loaded.vtype.matrix.isSome = true ∧ loaded.vtype.isBlock = false ∧
    loaded.rowsOfA ≤ 32 ∧ (loaded.myCore.tile 7).own = some loaded.hart.pos ∧
    (loaded.myCore.slot 15).own = some loaded.hart.pos ∧ (loaded.myCore.slot 15).st = .ready ∧
    (loaded.myCore.slot 15).fmt = loaded.hart.vty.extractLsb' 6 4 ∧ (loaded.myCore.slot 15).ew = loaded.hart.vty.extractLsb' 3 3 ∧
    (loaded.myCore.slot 15).n ≤ 64 ∧ 0 < loaded.hart.vl.toNat ∧ loaded.hart.vl.toNat % loaded.rowsOfA = 0 ∧
    (loaded.myCore.slot 15).kc + loaded.hart.vl.toNat / loaded.rowsOfA ≤ (loaded.myCore.slot 15).kr := by decide +kernel

theorem witness_MultiplyAccumulateResults_empty :
    let s : State := { loaded with hart := { loaded.hart with vl := 0 } }
    s.vectorReady ∧ s.hart.vl.toNat = 0 := by decide +kernel

/-- Tile 7 held, with s1 naming its last four entries, and under INT64 the halves of its last image with IMG. -/
def extracting : State := { loaded with hart := loaded.hart.setS 1 2044 }
def imaging : State := { loaded with hart := { loaded.hart.setS 1 (2047 + 0x1000) with vty := 0x20, vl := 2 } }

theorem witness_ExtractionResults :
    extracting.vectorReady ∧ extracting.groupOk 31 ∧ extracting.vtype.isBlock = false ∧ 8 ≤ extracting.vtype.ew ∧
    (extracting.getS 1).toNat < 2 ^ 13 ∧ (extracting.myCore.tile 7).own = some extracting.hart.pos ∧
    bit (extracting.getS 1) 12 = false ∧ bits (extracting.getS 1) 0 11 + extracting.hart.vl.toNat ≤ 2048 ∧
    extracting.hart.link 7 = none := by decide +kernel

theorem witness_ExtractionResults_images :
    imaging.vectorReady ∧ imaging.groupOk 31 ∧ (imaging.getS 1).toNat < 2 ^ 13 ∧ bit (imaging.getS 1) 12 = true ∧
    imaging.vtype.fmt ≤ 1 ∧ imaging.vtype.ew = 64 ∧ imaging.hart.vl.toNat % 2 = 0 ∧
    bits (imaging.getS 1) 0 11 + imaging.hart.vl.toNat / 2 ≤ 2048 := by decide +kernel

/-- Slot 15 and tile 7 of another hart of the core; and a team that may hold none. -/
def others_ : State := loaded.setCore 0 { loaded.core 0 with
  slots := (loaded.core 0).slots.set 15 { own := some 1 }, tiles := (loaded.core 0).tiles.set 7 { own := some 1 } }
def unquoted : State := { bf16 with teams := [(1, { teamOf [0] with record := List.replicate 16 0 })] }

theorem witness_MatrixTraps_claims :
    others_.vectorReady ∧ (others_.myCore.slot 15).own = some 1 ∧ (others_.myCore.tile 7).own = some 1 ∧ others_.hart.pos = 0 ∧
    unquoted.vectorReady ∧ (unquoted.myCore.slot 0).own = none ∧ (unquoted.myCore.tile 0).own = none ∧
    unquoted.quota 4 5 = 0 ∧ unquoted.quota 9 4 = 0 := by decide +kernel

/-- M 64; and words of slots and tiles whose operands are a group of the matrix table. -/
theorem witness_MatrixTraps_groups :
    (let s := crewWith fun h => { h with vty := 0x5510 }
     s.vectorReady ∧ s.vtype.matrix.isSome = true ∧ s.vtype.gf * 2 ^ bits s.hart.vty 12 3 = 64 ∧ s.groupOk 30 ∧
     (encode (.settl 1 4)).isSome = true ∧ (encode (.mma 7 30 15)).isSome = true) ∧
    loaded.groupOk 31 ∧ loaded.vtype.matrix.isSome = true ∧ loaded.vtype.isBlock = false ∧
    (let x := loaded.myCore.slot 15
     x.own = some loaded.hart.pos ∧ x.st = .ready ∧ x.copies = 0 ∧
     x.fmt = loaded.hart.vty.extractLsb' 6 4 ∧ x.ew = loaded.hart.vty.extractLsb' 3 3 ∧ x.kr = 4 ∧ x.kc = 0) := by decide +kernel

/-- That slot under fill in another format, or in the current one. -/
def filling (fmt : BitVec 4) (ctl : Word) : State :=
  let s := loaded.setCore 0 { loaded.core 0 with slots := (loaded.core 0).slots.set 15 { own := some 0, st := .filling, fmt := fmt, ew := 2 } }
  { s with hart := s.hart.setS 1 ctl }

theorem witness_MatrixTraps_fill :
    (2 ^ 25 : Nat) ≤ (0x2000000 : Word).toNat ∧
    (let s := filling 5 0
     (s.myCore.slot 15).copies = 0 ∧ (s.myCore.slot 15).st = .filling ∧ (s.myCore.slot 15).fmt ≠ s.hart.vty.extractLsb' 6 4) ∧
    (let s := filling 4 (BitVec.ofNat 64 (3 * 2 ^ 9 + 125))
     s.vectorReady ∧ (s.myCore.slot 15).fmt = s.hart.vty.extractLsb' 6 4 ∧ (s.myCore.slot 15).ew = s.hart.vty.extractLsb' 3 3 ∧
     bits (s.getS 1) 0 9 + (bits (s.getS 1) 9 9 + 1) = 129 ∧ (s.getS 1).toNat < 2 ^ 25) ∧
    (let s := filling 4 (BitVec.ofNat 64 (63 * 2 ^ 18 + 1 * 2 ^ 9))
     64 < bits (s.getS 1) 18 6 + s.hart.vl.toNat / (bits (s.getS 1) 9 9 + 1)) := by decide +kernel

/-- `mma` of an empty slot, of one in another format, and of more rows than it has left; and `accx` past the last entry. -/
theorem witness_MatrixTraps_products :
    (let s := loaded.setCore 0 { loaded.core 0 with slots := (loaded.core 0).slots.set 15 { own := some 0 } }
     s.vectorReady ∧ (s.myCore.slot 15).own = some s.hart.pos ∧ (s.myCore.slot 15).st ≠ .ready ∧ (s.myCore.tile 7).own = some s.hart.pos ∧
     s.vtype.gf * 2 ^ bits s.hart.vty 12 3 ≤ 32) ∧
    (let s : State := { loaded with hart := { loaded.hart with vl := 5 } }
     s.vectorReady ∧ s.vtype.gf * 2 ^ bits s.hart.vty 12 3 = 1 ∧ (s.myCore.slot 15).kr < (s.myCore.slot 15).kc + s.hart.vl.toNat) ∧
    (let s : State := { loaded with hart := loaded.hart.setS 1 2045 }
     s.vectorReady ∧ (s.getS 1).toNat < 2 ^ 13 ∧ bit (s.getS 1) 12 = false ∧ 2048 < bits (s.getS 1) 0 11 + s.hart.vl.toNat ∧
     (s.myCore.tile 7).own = some s.hart.pos ∧ s.vtype.ew = 16) ∧
    (let s : State := { loaded with hart := loaded.hart.setS 1 0x2000 }
     2 ^ 13 ≤ (s.getS 1).toNat) ∧
    (let s : State := { loaded with hart := loaded.hart.setS 1 0x1000 }
     bit (s.getS 1) 12 = true ∧ s.vtype.ew ≠ 64) := by decide +kernel

/-- Entries of the wide format: the whole numbers 0 and 1, and a K-group below 2^96. -/
theorem witness_WideFormatValues :
    (let x : AccEntry := { m := 2 ^ 95, e := 95 }
     x.cls = .finite ∧ 0 ≤ x.e ∧ (x.m.toNat : Int) * 2 ^ x.e.toNat = (2 ^ 95 : Int) * 2 ^ 95) ∧
    ((2 ^ 95 : Int) + (([(1, 3), (-2, 2)] : List (Int × Int)).map fun y => y.1 * y.2).sum).natAbs < 2 ^ 96 := by decide +kernel

/-! ### Hypotheses that are met: barriers, semaphores, queues, channels and teams -/

/-- Hart 1 of core 0, of the same team, in a run state. -/
def peer (r : Run) : Hart := { Hart.reset with pos := 1, team := 1, run := r, hrk := BitVec.ofNat 64 (2 ^ 21 + 1) }

/-- Harts 0 and 1 of core 0 are team 1; hart 1 is in a run state. -/
def pair (r : Run) : State := { crew with parked := [peer r], teams := [(1, teamOf [0, 1])] }

/-- That with a change of hart 0. -/
def pairWith (r : Run) (f : Hart → Hart) : State := { pair r with hart := f (pair r).hart }

theorem witness_BarrierResults :
    ((pair .running).harts.map Hart.pos).Nodup ∧ (pair .running).hart.placed = true ∧ Scope.core ≠ .lane ∧
    (let s := pair .running
     ((s.participants .core s.hart).filter fun x => x.pos != s.hart.pos).all
       (fun x => x.run == .waiting (.bar .core) && x.path == s.hart.path) = false) ∧
    (let s := pair (.waiting (.bar .core))
     ((s.participants .core s.hart).filter fun x => x.pos != s.hart.pos).all
       (fun x => x.run == .waiting (.bar .core) && x.path == s.hart.path) = true ∧
     ((s.participants .core s.hart).filter fun x => x.pos != s.hart.pos).length = 1) := by decide +kernel

/-- A third hart of the team has left its context under pre-emption. -/
def pairLess (r : Run) : State :=
  { pair r with teams := [(1, { teamOf [0, 1, 2] with saved := [⟨2, 0x10000, false, { peer .running with pos := 2 }, none⟩] })] }

theorem witness_BarrierResults_away :
    ((pair .running).gone 1).any (fun x => x.inTeam 1 [] && sameUnit .core x.pos 0) = false ∧
    ((pairLess (.waiting (.bar .core))).gone 1).any (fun x => x.inTeam 1 [] && sameUnit .core x.pos 0) = true ∧
    ((pair .running).hart.path = []) := by decide +kernel

/-- Every participant waits, and a command that hart 0 has pushed is outstanding. -/
theorem witness_BarrierResults_busy :
    let s := pair (.waiting (.bar .core))
    let t := s.setCore 0 { s.core 0 with cpyq := (engaged.core 0).cpyq }
    s.engineBusy s.hart.pos = false ∧ t.engineBusy t.hart.pos = true ∧
    ((s.participants .core s.hart).any fun x => s.engineBusy x.pos) = false ∧
    ((t.participants .core t.hart).any fun x => t.engineBusy x.pos) = true := by decide +kernel

/-- Semaphore 63 of core 0, held by team 1. -/
def semaState (m : Sema) (a : Word) : State :=
  (crewWith fun h => h.setS 1 a).setCore 0 ((crew.core 0).setSema 63 { m with team := some 1 })

theorem witness_SemaphoreResults_claimed :
    let s := semaState { count := 7 } 7
    s.claimSema (coreOf s.hart.pos) 63 s.hart.team = some s := by decide +kernel

theorem witness_SemaphoreResults_claims : ∃ c, (crew.claimSema (coreOf crew.hart.pos) 63 crew.hart.team) = some c :=
  Option.isSome_iff_exists.mp (by decide +kernel)

theorem witness_SemaphoreResults :
    (let s := semaState { count := 7 } 7
     (s.getS 1).toNat < 2 ^ 48 ∧ (s.getS 1).toNat % 2 ^ 48 ≤ (s.myCore.sema 63).count.toNat ∧ (s.myCore.sema 63).waiters = []) ∧
    (let s := semaState { count := 7 } 8
     (s.getS 1).toNat < 2 ^ 48 ∧ (s.getS 1).toNat % 2 ^ 48 ≠ 0 ∧ (s.myCore.sema 63).count.toNat < (s.getS 1).toNat % 2 ^ 48) ∧
    (let s := semaState { count := 0xFFFFFFFFFFFE } 1
     (s.myCore.sema 63).count.toNat + (s.getS 1).toNat % 2 ^ 48 < 2 ^ 48) ∧
    (let s := semaState { count := 0xFFFFFFFFFFFF } 1
     2 ^ 48 ≤ (s.myCore.sema 63).count.toNat + (s.getS 1).toNat % 2 ^ 48) ∧
    (let s := semaState { count := 7, waiters := [3] } 1
     (∃ h, (s.myCore.sema 63).waiters.head? = some h ∧ h ≠ s.hart.pos)) ∧
    (let s := semaState {} 0x8000000000000001
     (s.getS 1).toNat % 2 ^ 63 < 2 ^ 48 ∧ 2 ^ 48 ≤ (s.getS 1).toNat) :=
  ⟨by decide +kernel, by decide +kernel, by decide +kernel, by decide +kernel, ⟨3, by decide +kernel, by decide +kernel⟩,
   by decide +kernel⟩

theorem witness_SemaphoreOfAnotherTeamTraps :
    let s : State := { semaState {} 1 with hart := { (semaState {} 1).hart with team := 2 }, parked := [peer .running] }
    (s.myCore.sema 63).team = some 1 ∧ (1 : TeamId) ≠ s.hart.team ∧ s.semaHeld (coreOf s.hart.pos) 63 1 = true ∧
      (s.getS 1).toNat < 2 ^ 48 := by decide +kernel

theorem witness_QueueAndChannelResults :
    (let s := crewWith fun h => h.setS 1 0
     (s.channel 7).team = none ∧ (s.getS 1).toNat = (s.getS 1).toNat % 2 ^ 47) ∧
    (let s := crewWith fun h => h.setS 1 0x7FFFFFFFFFFF
     (s.getS 1).toNat = (s.getS 1).toNat % 2 ^ 47 ∧ 0 < (s.getS 1).toNat % 2 ^ 47) ∧
    (let s := (crewWith fun h => h.setS 1 4).setDie 0 { iters := (Vector.replicate 8 {}).set 7 ⟨some 1, 5⟩ }
     (s.channel 7).team = some s.hart.team ∧ (s.getS 1).toNat % 2 ^ 47 < (s.channel 7).count ∧ s.hart.run = .running) ∧
    (let s := crewWith fun h => h.setS 1 0x8000000000000001
     (s.getS 1).toNat = 2 ^ 63 + (s.getS 1).toNat % 2 ^ 47) := by decide +kernel

/-- The channel is claimed by a team of which no hart is live on the die, or of which one is. -/
theorem witness_QueueAndChannelResults_claimed :
    let s := (crewWith fun h => h.setS 1 0x7FFFFFFFFFFF).setDie 0 { iters := (Vector.replicate 8 {}).set 7 ⟨some 2, 5⟩ }
    let t : State := { s with parked := [{ peer .running with team := 2 }], teams := [(1, teamOf [0]), (2, { teamOf [1] with id := 2 })] }
    (s.channel 7).team = some 2 ∧ (2 : TeamId) ≠ s.hart.team ∧ s.liveOnDie 2 (dieOf s.hart.pos) = false ∧
    (t.channel 7).team = some 2 ∧ t.liveOnDie 2 (dieOf t.hart.pos) = true ∧ (t.getS 1).toNat < 2 ^ 47 := by decide +kernel

/-- Hart 0 splits with the greatest key, or rejoins from level 1, beside hart 1. -/
theorem witness_SplitAndRejoin :
    (let s := pairWith .running fun h => h.setS 1 0xFFFFFFFF
     (s.harts.map Hart.pos).Nodup ∧ s.hart.placed = true ∧ s.hart.depth.toNat < 15 ∧ (s.getS 1).toNat < 2 ^ 32 ∧
     (s.parked.filter fun x => x.inTeam s.hart.team s.hart.path).length = 1) ∧
    (let s := pairWith (.waiting (.split 0xFFFFFFFF 2)) fun h => h.setS 1 0xFFFFFFFF
     (s.parked.filter fun x => x.inTeam s.hart.team s.hart.path).all (fun x => x.path == s.hart.path &&
       match x.run with | .waiting (.split _ _) => true | _ => false) = true) ∧
    (let s := pairWith .running fun h => h.setS 1 0x100000000
     2 ^ 32 ≤ (s.getS 1).toNat ∧ s.getS 1 ≠ 0xFFFFFFFFFFFFFFFF) ∧
    (let s := pairWith .running fun h => h.setS 1 0xFFFFFFFFFFFFFFFF
     s.getS 1 = 0xFFFFFFFFFFFFFFFF ∧ s.hart.depth = 0) ∧
    (let s := pairWith .running fun h => { h.setS 1 0xFFFFFFFFFFFFFFFF with depth := 1, levels := [(5, 9)] }
     s.getS 1 = 0xFFFFFFFFFFFFFFFF ∧ 0 < s.hart.depth.toNat ∧ s.hart.levels = (5, 9) :: [] ∧
     (s.parked.filter fun x => x.inTeam s.hart.team (s.hart.path.drop 1)).all (fun x => x.path.length == s.hart.path.length &&
       match x.run with | .waiting (.rejoin _) => true | _ => false) = false ∧
     (let t : State := { s with parked := [{ peer (.waiting (.rejoin 2)) with depth := 1, levels := [(6, 9)] }] }
      (t.parked.filter fun x => x.inTeam t.hart.team (t.hart.path.drop 1)).all (fun x => x.path.length == t.hart.path.length &&
       match x.run with | .waiting (.rejoin _) => true | _ => false) = true)) := by decide +kernel

/-- Every other member of the subteam waits, and one that has left its context has not; its level is 1 for a rejoin. -/
theorem witness_SplitAndRejoin_away :
    ((pairLess (.waiting (.split 0xFFFFFFFF 2))).gone 1).any (fun x => x.inTeam 1 []) = true ∧
    ((pair (.waiting (.split 0xFFFFFFFF 2))).gone 1).any (fun x => x.inTeam 1 []) = false ∧
    (let s : State := { pairLess (.waiting (.rejoin 2)) with
        hart := { (pairLess (.waiting (.rejoin 2))).hart with depth := 1, levels := [(5, 9)] } }
     (s.gone 1).any (fun x => x.inTeam 1 (s.hart.path.drop 1)) = true) := by decide +kernel

/-- The deepest level; and a hart with a command outstanding. -/
theorem witness_SplitAndRejoin_last :
    (let s := pairWith .running fun h => { h.setS 1 0xFFFFFFFF with depth := 15, levels := List.replicate 15 (5, 9) }
     (s.getS 1).toNat < 2 ^ 32 ∧ s.hart.depth = 15) ∧
    (let s := pairWith (.waiting (.rejoin 2)) fun h => { h.setS 1 0xFFFFFFFFFFFFFFFF with depth := 15, levels := List.replicate 15 (5, 9) }
     let t : State := { s with parked := [{ peer (.waiting (.rejoin 2)) with depth := 15, levels := (6, 9) :: List.replicate 14 (5, 9) }] }
     0 < t.hart.depth.toNat ∧ t.hart.levels = (5, 9) :: List.replicate 14 (5, 9) ∧
     (t.parked.filter fun x => x.inTeam t.hart.team (t.hart.path.drop 1)).all (fun x => x.path.length == t.hart.path.length &&
       match x.run with | .waiting (.rejoin _) => true | _ => false) = true ∧
     ((t.gone 1).any fun x => x.inTeam 1 (t.hart.path.drop 1)) = false ∧
     ((t.hart :: t.parked).any fun x => t.engineBusy x.pos) = false) ∧
    (let s := pair .running
     let t := s.setCore 0 { s.core 0 with cpyq := (engaged.core 0).cpyq }
     ((t.hart :: t.parked).any fun x => t.engineBusy x.pos) = true) := by decide +kernel

/-- A record of one hart at the end of the page, and s1 points to it. -/
def spawner : State :=
  placed (crewWith fun h => h.setS 1 (fetchBase + 0xFF80)) (fetchBase + 0xFF80) (asBytes ((List.replicate 16 0).set 13 1))

theorem witness_TeamWordResults_spawn :
    let x := spawner.getS 1
    let r := bytesToWords 16 (reads spawner x 128).1
    let u := (reads spawner x 128).2
    x.toNat % 128 = 0 ∧ spawner.scalarRead x 128 = .ok ((reads spawner x 128).1, u) ∧ recMalformed r false = false ∧
    u.neverPlaced (pkgOf spawner.hart.pos) r = false ∧ bits (wordAt r 13) 28 1 = 0 ∧
    (u.die (dieOf spawner.hart.pos)).spawnq.length < 64 ∧ u.team spawner.hart.team = some (teamOf [0]) :=
  ⟨by decide +kernel, reads_eq (by decide +kernel), by decide +kernel, by decide +kernel, by decide +kernel, by decide +kernel,
   by decide +kernel⟩

/-- That record with semaphore 63 named. -/
def spawnerPost : State :=
  placed (crewWith fun h => h.setS 1 (fetchBase + 0xFF80)) (fetchBase + 0xFF80)
    (asBytes ((List.replicate 16 0).set 13 (BitVec.ofNat 64 (1 + 2 ^ 28 + 63 * 2 ^ 30))))

theorem witness_TeamWordResults_spawnPost :
    let x := spawnerPost.getS 1
    let r := bytesToWords 16 (reads spawnerPost x 128).1
    let u := (reads spawnerPost x 128).2
    x.toNat % 128 = 0 ∧ spawnerPost.scalarRead x 128 = .ok ((reads spawnerPost x 128).1, u) ∧ recMalformed r false = false ∧
    u.neverPlaced (pkgOf spawnerPost.hart.pos) r = false ∧ bits (wordAt r 13) 28 1 = 1 ∧
    (∃ v, u.claimSema (coreOf spawnerPost.hart.pos) (BitVec.ofNat 6 (bits (wordAt r 13) 30 6)) spawnerPost.hart.team = some v) ∧
    (u.die (dieOf spawnerPost.hart.pos)).spawnq.length < 64 ∧ u.team spawnerPost.hart.team = some (teamOf [0]) :=
  ⟨by decide +kernel, reads_eq (by decide +kernel), by decide +kernel, by decide +kernel, by decide +kernel,
   Option.isSome_iff_exists.mp (by decide +kernel), by decide +kernel, by decide +kernel⟩

theorem witness_TeamWordResults_exit :
    let s := pair .running
    s.hart.nb = [] ∧ (s.harts.map Hart.pos).Nodup ∧ (∀ h ∈ s.parked, h.team = s.hart.team → h.run = .free ∨ h.run = .running) ∧
    s.team s.hart.team = some (teamOf [0, 1]) ∧ (teamOf [0, 1]).id = s.hart.team ∧
    (∀ k : Fin 8, s.hart.dl[k] = none) ∧ s.hart.prq = false := by decide +kernel

/-! ### Hypotheses that are met: engines, windows and collectives -/

/-- A shape descriptor of eight-byte elements in one dimension of four, number 63; and the same in two dimensions. -/
def shape1 : List Word := [0x1000, 0x3F13, 0, 0, 8, 4, 0, 0, 0, 0, 0, 0, 0, 0, 0, 0]
def shape2 : List Word := [0x1000, 0x3F23, 0, 0, 8, 4, 32, 2, 0, 0, 0, 0, 0, 0, 0, 0]

/-- The descriptor at the end of the page, and s1 points to it. -/
def shaper : State :=
  placed (crewWith fun h => { h.setS 1 (fetchBase + 0xFF80) with vty := i32, vl := 1 }) (fetchBase + 0xFF80) (asBytes shape1)

theorem witness_ShapeDefinition :
    let x := shaper.getS 1
    let w := bytesToWords 16 (reads shaper x 128).1
    let u := (reads shaper x 128).2
    let c := coreOf shaper.hart.pos
    bit shaper.hart.vty 63 = false ∧ x.toNat % 128 = 0 ∧ shaper.scalarRead x 128 = .ok ((reads shaper x 128).1, u) ∧
    shapeMalformed w = false ∧ (wordAt w 0).toNat % shEs w = 0 ∧ (∀ k < shNd w, (wordAt w (4 + 2 * k)).toNat % shEs w = 0) ∧
    u.shapeAt c (bits (wordAt w 1) 8 6) = none ∧ (u.core c).shapeBusy (bits (wordAt w 1) 8 6) = false :=
  ⟨by decide +kernel, by decide +kernel, reads_eq (by decide +kernel), by decide +kernel, by decide +kernel, by decide +kernel,
   by decide +kernel, by decide +kernel⟩

/-- A copy of four elements from record 63 to record 62. -/
def block : List Word := [0xFBF, 0, 4, 0, 1, 0, 1, 0, 1, 0, 1, 0, 1, 0, 0, 0]

/-- Both records defined, and the block at the end of the page. -/
def copier : State :=
  let s := placed (crewWith fun h => { h.setS 1 (fetchBase + 0xFF80) with vty := i32, vl := 1 }) (fetchBase + 0xFF80) (asBytes block)
  s.setCore 0 { s.core 0 with shapes := [(62, ⟨some 1, some (shape1.set 0 0x2000)⟩), (63, ⟨some 1, some shape1⟩)] }

/-- What the checks of that block give. -/
def copyGot (s : State) : List Word × List Word × State :=
  let r := reads s (s.getS 1) 128
  got (r.2.copyChecks 0 s.hart.pos s.hart.team (s.getS 1) (bytesToWords 16 r.1) (s.getS 2)) ([], [], s)

theorem copyGot_eq {s : State}
    (h : ((reads s (s.getS 1) 128).2.copyChecks 0 s.hart.pos s.hart.team (s.getS 1) (bytesToWords 16 (reads s (s.getS 1) 128).1)
      (s.getS 2)).isOk = true) :
    (reads s (s.getS 1) 128).2.copyChecks 0 s.hart.pos s.hart.team (s.getS 1) (bytesToWords 16 (reads s (s.getS 1) 128).1)
      (s.getS 2) = .ok ((copyGot s).1, (copyGot s).2.1, (copyGot s).2.2) := got_eq h

theorem witness_CopyAccepted :
    let x := copier.getS 1
    let r := reads copier x 128
    bit copier.hart.vty 63 = false ∧ x.toNat % 128 = 0 ∧ copier.scalarRead x 128 = .ok (r.1, r.2) ∧
    r.2.copyChecks 0 copier.hart.pos copier.hart.team x (bytesToWords 16 r.1) (copier.getS 2) =
      .ok ((copyGot copier).1, (copyGot copier).2.1, (copyGot copier).2.2) ∧
    ((copyGot copier).2.2.core 0).cpyq.length < 16 :=
  ⟨by decide +kernel, by decide +kernel, reads_eq (by decide +kernel), copyGot_eq (by decide +kernel), by decide +kernel⟩

/-- The same with sixteen commands in the queue. -/
def copierFull : State :=
  copier.setCore 0 { copier.core 0 with
    cpyq := List.replicate 16 (copyCmd block shape1 (shape1.set 0 0x2000) 0 0 0 1 none none) }

theorem witness_CopyAccepted_full :
    let x := copierFull.getS 1
    let r := reads copierFull x 128
    r.2.copyChecks 0 copierFull.hart.pos copierFull.hart.team x (bytesToWords 16 r.1) (copierFull.getS 2) =
      .ok ((copyGot copierFull).1, (copyGot copierFull).2.1, (copyGot copierFull).2.2) ∧
    16 ≤ ((copyGot copierFull).2.2.core 0).cpyq.length :=
  ⟨copyGot_eq (by decide +kernel), by decide +kernel⟩

/-- 64 positions of 32-bit row numbers, a control word of record 63, and a scratchpad destination; 64 rows of room. -/
def gatherer : State :=
  let s := crewWith fun h => { (h.setS 1 63).setS 2 0x0004000000000000 with vty := i32, vl := 64 }
  (s.setCore 0 { s.core 0 with shapes := [(63, ⟨some 1, some shape2⟩)] }).setQuad 0 { rows := 448 }

theorem witness_GatheredRowsAccepted :
    let ctl := gatherer.getS 1
    let dst := gatherer.getS 2
    gatherer.vectorReady ∧ gatherer.vtype.isInt = true ∧ 16 ≤ gatherer.vtype.ew ∧ gatherer.groupOk 31 ∧ ctl.toNat < 2 ^ 14 ∧
    bit ctl 12 = false ∧ gatherer.needShape 0 gatherer.hart.team (bits ctl 0 6) = .ok shape2 ∧ shNd shape2 = 2 ∧
    dst.toNat % 32 = 0 ∧ spaceOf dst = some (.scratch 0) ∧
    min gatherer.hart.vl.toNat 64 ≤ 512 - (gatherer.quad (quadOf 0)).rows ∧ (gatherer.core 0).cpyq.length < 16 :=
  ⟨by decide +kernel, by decide +kernel, by decide +kernel, by decide +kernel, by decide +kernel, by decide +kernel,
   by
    have h : gatherer.shapeAt 0 (bits (gatherer.getS 1) 0 6) = some (1, shape2) := by decide +kernel
    have t : gatherer.hart.team = 1 := by decide +kernel
    rw [State.needShape, h, t]; rfl,
   by decide +kernel, by decide +kernel, by decide +kernel, by decide +kernel, by decide +kernel⟩

/-- The same with the number accepted to be posted to semaphore 63. -/
theorem witness_GatheredRowsAccepted_post :
    let s : State := { gatherer with hart := gatherer.hart.setS 1 (BitVec.ofNat 64 (63 + 63 * 64 + 2 ^ 12)) }
    bit (s.getS 1) 12 = true ∧ (s.getS 1).toNat < 2 ^ 14 ∧
    (s.claimSema 0 (BitVec.ofNat 6 (bits (s.getS 1) 6 6)) s.hart.team).isSome = true := by decide +kernel

theorem witness_EnginePortResults :
    (let s := crewWith fun h => { h.setS 1 0x58 with vty := i32, sq := h.sq.set 3 (List.replicate 15 7) }
     bit s.hart.vty 63 = false ∧ (s.getS 1).toNat = 0x40 + 8 * (3 : BitVec 2).toNat ∧ (s.hart.sq.get (3 : BitVec 2).toFin).length < 16 ∧
     s.hart.sq.get (3 : BitVec 2).toFin = 7 :: List.replicate 14 7) ∧
    (let s := crewWith fun h => { h.setS 1 0x58 with vty := i32, sq := h.sq.set 3 (List.replicate 16 7) }
     16 ≤ (s.hart.sq.get (3 : BitVec 2).toFin).length) ∧
    (let s := crewWith fun h => { h.setS 1 0x40 with vty := i32 }
     (s.getS 1).toNat = 0x40 + 8 * (0 : BitVec 2).toNat ∧ s.hart.sq.get (0 : BitVec 2).toFin = []) ∧
    (let s := (crewWith fun h => h.setS 1 8).setCore 0 { crew.core 0 with cres := [5] }
     (s.getS 1).toNat = 8 ∧ (s.core (coreOf s.hart.pos)).cres = 5 :: [] ∧ (crew.core 0).cres = []) ∧
    (let s := crewWith fun h => h.setS 1 0xFFF
     (s.getS 1).toNat % 8 ≠ 0) ∧
    (let s := crewWith fun h => h.setS 1 0xFF8
     (s.getS 1).toNat < 0x1000 ∧ (s.getS 1).toNat % 8 = 0 ∧ (s.getS 1).toNat ∉ [0, 8, 0x10, 0x40, 0x48, 0x50, 0x58]) := by
  decide +kernel

/-- The Fife of core 0 in a state, held by hart 0. -/
def fifeIn (st : FifeSt) (a : Word) : State :=
  let s := crewWith fun h => { h.setS 1 a with vty := i32 }
  s.setCore 0 { s.core 0 with fife := { st := st } }

theorem witness_FifeStartAndWait :
    (let s := fifeIn .idle 4
     bit s.hart.vty 63 = false ∧ s.getS 1 ≠ 0 ∧ (s.getS 1).toNat % 4 = 0 ∧ (s.core (coreOf s.hart.pos)).fife.st = .idle ∧
     (s.core (coreOf s.hart.pos)).fife.heldBy s.hart.pos = false) ∧
    (let s := fifeIn .idle 2
     s.getS 1 ≠ 0 ∧ (s.getS 1).toNat % 4 ≠ 0) ∧
    (let s := fifeIn .running 4
     s.getS 1 ≠ 0 ∧ (s.getS 1).toNat % 4 = 0 ∧ (s.core (coreOf s.hart.pos)).fife.st ≠ .idle) ∧
    (let s := fifeIn .faulted 0
     s.getS 1 = 0 ∧ (s.core (coreOf s.hart.pos)).fife.heldBy s.hart.pos = true ∧ (s.core (coreOf s.hart.pos)).fife.node = none ∧
     (s.core (coreOf s.hart.pos)).launch = []) ∧
    (let s := fifeIn .idle 0
     s.getS 1 = 0 ∧ (s.core (coreOf s.hart.pos)).fife.heldBy s.hart.pos = false) := by decide +kernel

/-- A node descriptor of number 255: a post of 9 to semaphore 63, two predecessors. -/
def nodeDesc : List Word := [9, 0x2FEFF, 0, 0]

/-- The descriptor at the end of the page. -/
def grapher : State :=
  placed (crewWith fun h => { h.setS 1 (fetchBase + 0xFFE0) with vty := i32 }) (fetchBase + 0xFFE0) (asBytes nodeDesc)

theorem witness_GraphNodeResults_define :
    let x := grapher.getS 1
    let r := reads grapher x 32
    let v := bytesToWords 4 r.1
    bit grapher.hart.vty 63 = false ∧ x.toNat % 32 = 0 ∧ grapher.scalarRead x 32 = .ok (r.1, r.2) ∧ nodeMalformed v = false ∧
    nodePred v ≠ 0 ∧ r.2.nodeAt (coreOf grapher.hart.pos) (bits (wordAt v 1) 0 8) = none :=
  ⟨by decide +kernel, by decide +kernel, reads_eq (by decide +kernel), by decide +kernel, by decide +kernel, by decide +kernel⟩

/-- The same descriptor with no predecessor. -/
def rooted : State :=
  placed (crewWith fun h => { h.setS 1 (fetchBase + 0xFFE0) with vty := i32 }) (fetchBase + 0xFFE0) (asBytes [9, 0xFEFF, 0, 0])

theorem witness_GraphNodeResults_root :
    let x := rooted.getS 1
    let r := reads rooted x 32
    let v := bytesToWords 4 r.1
    x.toNat % 32 = 0 ∧ rooted.scalarRead x 32 = .ok (r.1, r.2) ∧ nodeMalformed v = false ∧
    nodePred v = 0 ∧ r.2.nodeAt (coreOf rooted.hart.pos) (bits (wordAt v 1) 0 8) = none :=
  ⟨by decide +kernel, reads_eq (by decide +kernel), by decide +kernel, by decide +kernel, by decide +kernel⟩

/-- Node 255 of core 0 defined, with a count, and s1 names a node. -/
def noded (count : Nat) (a : Word) : State :=
  let s := crewWith fun h => { h.setS 1 a with vty := i32 }
  s.setCore 0 { s.core 0 with nodes := [(255, { team := some 1, desc := some nodeDesc, count := count })] }

theorem witness_GraphNodeResults_go :
    (let s := noded 1 254
     (s.getS 1).toNat < 256 ∧ s.nodeAt 0 (s.getS 1).toNat = none) ∧
    (let s := noded 2 255
     (s.getS 1).toNat < 256 ∧
     s.nodeAt 0 (s.getS 1).toNat = some { team := some 1, desc := some nodeDesc, count := 2 } ∧ some (1 : TeamId) = some s.hart.team) ∧
    (let s := noded 1 255
     s.nodeAt 0 (s.getS 1).toNat = some { team := some 1, desc := some nodeDesc, count := 1 } ∧
     (s.core 0).launch = [] ∧ nodeKind nodeDesc = 2 ∧ nodeSuccs nodeDesc = [] ∧
     (s.claimSema 0 (BitVec.ofNat 6 (bits (wordAt nodeDesc 1) 10 6)) s.hart.team).isSome = true) := by decide +kernel

/-- s1 names queue port 3 in the hart's own engine page by its global address, which the access table opens. -/
def globalPort : State :=
  (crewWith fun h => { h.setS 1 (0x0006400000080000 + 0x58) with vty := i32 }).setReg 0 (0x200000 + 0x2000 * 97 + 16) 0x3C0000000

theorem witness_EnginePortResults_global : ∀ acc, acc = Acc.store ∨ acc = Acc.load →
    0x1000 ≤ (globalPort.getS 1).toNat ∧ (globalPort.getS 1).toNat % 8 = 0 ∧
    ∃ p u, globalPort.check (globalPort.scalarHow acc) (globalPort.getS 1) 8 = .ok (p, u) ∧ p.space = .regs ∧
      portAt (coreOf globalPort.hart.pos) (globalPort.getS 1) = some (0, 0x40 + 8 * (3 : BitVec 2).toNat) := by
  rintro acc (rfl | rfl) <;>
    exact ⟨by decide +kernel, by decide +kernel, _, _, land_eq (by decide +kernel), by decide +kernel, by decide +kernel⟩

/-- The block of a copy is pushed to CPYQ by its port, with an address of a block, and with room or none. -/
def pushing (s : State) (a : Word) : State := { s with hart := (s.hart.setS 2 a).setS 1 0 }
def pushGot (s : State) : List Word × List Word × State :=
  let r := reads s (s.getS 2) 128
  got (r.2.copyChecks 0 s.hart.pos s.hart.team (s.getS 2) (bytesToWords 16 r.1) 0) ([], [], s)

theorem pushGot_eq {s : State}
    (h : ((reads s (s.getS 2) 128).2.copyChecks 0 s.hart.pos s.hart.team (s.getS 2) (bytesToWords 16 (reads s (s.getS 2) 128).1) 0).isOk = true) :
    (reads s (s.getS 2) 128).2.copyChecks 0 s.hart.pos s.hart.team (s.getS 2) (bytesToWords 16 (reads s (s.getS 2) 128).1) 0 =
      .ok ((pushGot s).1, (pushGot s).2.1, (pushGot s).2.2) := got_eq h

theorem witness_EnginePortResults_copy : ∀ s, s = pushing copier (copier.getS 1) ∨ s = pushing copierFull (copier.getS 1) →
    bit s.hart.vty 63 = false ∧ s.getS 1 = 0 ∧ (s.getS 2).toNat % 128 = 0 ∧
    s.scalarRead (s.getS 2) 128 = .ok ((reads s (s.getS 2) 128).1, (reads s (s.getS 2) 128).2) ∧
    (reads s (s.getS 2) 128).2.copyChecks 0 s.hart.pos s.hart.team (s.getS 2) (bytesToWords 16 (reads s (s.getS 2) 128).1) 0 =
      .ok ((pushGot s).1, (pushGot s).2.1, (pushGot s).2.2) ∧
    ((s = pushing copier (copier.getS 1) → ((pushGot s).2.2.core 0).cpyq.length < 16) ∧
      (s = pushing copierFull (copier.getS 1) → 16 ≤ ((pushGot s).2.2.core 0).cpyq.length)) := by
  have e : ((pushGot (pushing copier (copier.getS 1))).2.2.core 0).cpyq.length < 16 := by decide +kernel
  have f : 16 ≤ ((pushGot (pushing copierFull (copier.getS 1))).2.2.core 0).cpyq.length := by decide +kernel
  rintro s (rfl | rfl)
  · refine ⟨by decide +kernel, by decide +kernel, by decide +kernel, reads_eq (by decide +kernel), pushGot_eq (by decide +kernel),
      fun _ => e, fun h => ?_⟩
    rw [h]; exact f
  · refine ⟨by decide +kernel, by decide +kernel, by decide +kernel, reads_eq (by decide +kernel), pushGot_eq (by decide +kernel),
      fun h => ?_, fun _ => f⟩
    rw [h]; exact e

/-- What the checks of a pushed block find. -/
def pushError (s : State) : Option (BitVec 10 × Word) :=
  let r := reads s (s.getS 2) 128
  match r.2.copyChecks 0 s.hart.pos s.hart.team (s.getS 2) (bytesToWords 16 r.1) 0 with
  | .error e => some e
  | .ok _ => none

/-- An address that is no multiple of 128; and a block of zeros, that names a record nobody has defined. -/
theorem witness_EnginePortResults_copyTraps :
    ((pushing copier (fetchBase + 64)).getS 2).toNat % 128 ≠ 0 ∧
    (pushError (pushing copier fetchBase)).isSome = true ∧ ((pushing copier fetchBase).getS 2).toNat % 128 = 0 := by decide +kernel

/-- The port of DGQ with a number that no node has; of no node; of a node of another team; and with the launch queue full. -/
theorem witness_EnginePortResults_node :
    let at_ (s : State) (n : Word) : State := { s with hart := (s.hart.setS 2 n).setS 1 0x10 }
    let full (s : State) : State := s.setCore 0 { s.core 0 with launch := List.replicate 16 ⟨255, some 0⟩ }
    (256 ≤ ((at_ crew 256).getS 2).toNat) ∧
    (at_ (noded 1 0) 254).nodeAt 0 254 = none ∧ ((at_ (noded 1 0) 254).getS 1).toNat = 0x10 ∧
    (let s : State := { at_ (noded 1 0) 255 with hart := { (at_ (noded 1 0) 255).hart with team := 2 }, parked := [peer .running] }
     (s.nodeAt 0 255).bind Node.team = some 1 ∧ some (1 : TeamId) ≠ some s.hart.team) ∧
    (at_ (noded 2 0) 255).nodeAt 0 255 = some { team := some 1, desc := some nodeDesc, count := 2 } ∧
    (full (at_ (noded 1 0) 255)).nodeAt 0 255 = some { team := some 1, desc := some nodeDesc, count := 1 } ∧
    16 ≤ ((full (at_ (noded 1 0) 255)).core 0).launch.length := by decide +kernel

/-- Ports in the wrong direction; and global addresses that fail a check, whose target is lost, and that are no port. -/
theorem witness_EnginePortResults_traps :
    (8 : Nat) ∈ [0, 8, 0x10, 0x40, 0x48, 0x50, 0x58] ∧
    denied crew (crew.scalarHow .store) (fetchBase + 0x10000) 8 = some (.cause 0x0C0) ∧
    denied lostPackage (lostPackage.scalarHow .store) (lostPackage.getS 1) 8 = some .lost ∧
    denied crew (crew.scalarHow .load) fetchBase 8 = none ∧ portAt 0 fetchBase = none ∧ 0x1000 ≤ (fetchBase : Word).toNat := by
  decide +kernel

/-- A node of another team; one that runs with no predecessor left; and the launch queue full. -/
theorem witness_GraphNodeResults_traps :
    (let s : State := { noded 1 255 with hart := { (noded 1 255).hart with team := 2 }, parked := [peer .running] }
     (s.getS 1).toNat < 256 ∧ (s.nodeAt 0 (s.getS 1).toNat).bind Node.team = some 1 ∧ some (1 : TeamId) ≠ some s.hart.team) ∧
    (let y : Node := { team := some 1, desc := some nodeDesc, count := 0, runs := 1 }
     let s := (noded 1 255).setCore 0 { (noded 1 255).core 0 with nodes := [(255, y)] }
     s.nodeAt 0 (s.getS 1).toNat = some y ∧ y.count = 0 ∧ y.runs ≠ 0) ∧
    (let s := (noded 1 255).setCore 0 { (noded 1 255).core 0 with launch := List.replicate 16 ⟨255, some 0⟩ }
     (s.nodeAt 0 255).map Node.count = some 1 ∧ 16 ≤ (s.core 0).launch.length) := by decide +kernel

/-- Node 255 with a kind and an argument, at count 1, in a core whose Fife and copy queue are as given. -/
def launcher (kind : Nat) (arg : Word) (st : FifeSt) (q : List Cmd) : State :=
  let s := crewWith fun h => { h.setS 1 255 with vty := i32 }
  s.setCore 0 { s.core 0 with
    fife := { st := st }
    cpyq := q
    nodes := [(255, { team := some 1, desc := some [arg, BitVec.ofNat 64 (0x100FF + kind * 256), 0, 0], count := 1 })] }

theorem witness_GraphNodeResults_launches :
    let desc (s : State) : List Word := ((s.nodeAt 0 255).bind Node.desc).getD []
    let full := List.replicate 16 (copyCmd block shape1 (shape1.set 0 0x2000) 0 0 0 1 none none)
    (∀ s ∈ [launcher 0 fetchBase .idle [], launcher 0 fetchBase .idle full], nodeKind (desc s) = 0 ∧ (s.core 0).launch = [] ∧
      (s.nodeAt 0 255).map Node.count = some 1) ∧
    (∀ s ∈ [launcher 1 4 .idle [], launcher 1 2 .idle [], launcher 1 0 .idle [], launcher 1 4 .running []],
      nodeKind (desc s) = 1 ∧ (s.hartAt 0).placed = true ∧ (s.hartAt 0).team = 1 ∧ nodeSuccs (desc s) = [] ∧ (s.core 0).launch = []) ∧
    (let s := launcher 2 9 .idle []
     nodeKind (desc s) = 2 ∧ nodeSuccs (desc s) = [] ∧ (s.core 0).launch = []) := by decide +kernel

/-- s1 and s2 name the last 64 KiB of channel 63 of die 7, seen from die 0. -/
def windower : State := crewWith fun h => ((h.setS 1 0x003BF0007FFF0000).setS 2 0x10000)

theorem witness_RemoteWindowResults :
    let x := windower.getS 1
    let n := windower.getS 2
    let die := dieOf windower.hart.pos
    x.toNat % 65536 = 0 ∧ 0 < n.toNat ∧ n.toNat % 65536 = 0 ∧ x.toNat / 2 ^ 44 = (x.toNat + n.toNat - 1) / 2 ^ 44 ∧ aDieId x ≠ die ∧
    aDie x ≠ 8 ∧ spaceOf x ≠ some .rows ∧ spaceOf x ≠ some .regs ∧ windower.liveWindows die = [] ∧
    (aPkg x).toNat < windower.podSize (pkgOf windower.hart.pos) ∧
    (windower.namesSpace (windower.scalarHow .load).master false x 1).isSome = true ∧
    (windower.liveWindows die).find? (fun z => z.1 == x.toNat && z.2.team == windower.hart.team) = none := by decide +kernel

theorem witness_RemoteWindowResults_unmap :
    let s := (crewWith fun h => h.setS 1 63).setDie 0 { windows := [(63, ⟨1, 0x003BF0007FFF0000, 0x10000, []⟩)] }
    (s.liveWindows (dieOf s.hart.pos)).find? (fun z => z.1 == (s.getS 1).toNat && z.2.team == s.hart.team) =
      some (63, ⟨1, 0x003BF0007FFF0000, 0x10000, []⟩) := by decide +kernel

theorem witness_ReductionTreeShape : [7] ≠ ([] : List Nat) := by decide

/-- Member `r` of a group of two on group register 15, two elements. -/
def member (r : Nat) : Hart :=
  { Hart.reset with
    pos := BitVec.ofNat 21 r, run := .running, team := 1, vl := 2, vty := f32
    hrk := 2 * 2 ^ 21 + BitVec.ofNat 64 r
    g := Hart.reset.g.set 15 { valid := true, scope := 1, gid := 0x51, nm1 := 1, rank := BitVec.ofNat 21 r, mtab := 0x1000 } }

/-- That member, arrived with `cbc`. -/
def memberArrived (r : Nat) : Hart :=
  let h := member r
  { h with run := .waiting .collective,
           coll := some { f6 := 0x20, group := 15, reg := h.g.get 15, d := 31, a := 0, p := 31, vl := 2, fmt := 3, ew := 32, xs := [0, 0], queues := [], records := [] } }

/-- Member 0 runs; member 1 is as given. Their member table stands in channel 0 of die 0, which a page of the remote
translation cache maps and the access table opens. -/
def twoMembers (h : Hart) : State :=
  let s := ((present.setReg (ioDie 0) 0x80000 1).setReg 0 (0x200000 + 16) 0x3C0000000).setDie 0
    { remote := [⟨0, 0, 1, 0, 0, true, true, true⟩] }
  { s.store ((List.range 16).map (0x1000 + ·)) (asBytes [0x100000000, 0x100000001]) with hart := member 0, parked := [h] }

/-- A state with the arrival of its hart at the instance of a `cbc`. -/
def joined (s : State) : State :=
  { s with hart := { s.hart with run := .waiting .collective, coll := some (s.arrival 0x20 31 0 15 31) } }

theorem witness_CollectiveResults :
    (let s := twoMembers (memberArrived 1)
     let g := s.hart.g.get (15 : BitVec 4).toFin
     let w := joined s
     let xs := w.arrived w.hart (s.arrival 0x20 31 0 15 31)
     s.vectorReady ∧ s.vtype.isBlock = false ∧ s.groupOk 31 ∧ s.groupOk 0 ∧ (s.harts.map Hart.pos).Nodup ∧ g.valid = true ∧
     s.hart.vl.toNat % (g.nm1.toNat + 1) = 0 ∧ w.groupLost (pkgOf s.hart.pos) (w.asidOf w.hart) g.mtab (g.nm1.toNat + 1) = false ∧
     (∀ x ∈ xs, x.2.reg.nm1 = g.nm1) ∧ xs.map (fun x => x.2.reg.rank.toNat) = List.range (g.nm1.toNat + 1) ∧
     (∃ x ∈ xs, x.1.pos = s.hart.pos) ∧
     (∀ x ∈ xs, x.2.f6 = 0x20 ∧ x.2.vl = s.hart.vl ∧ x.2.fmt = s.vtype.fmt ∧ x.2.ew = s.vtype.ew ∧ x.2.reg.scope = g.scope ∧
       ∀ y ∈ xs, sameScope g.scope.toNat x.1.pos y.1.pos = true)) ∧
    (let s := twoMembers (member 1)
     let g := s.hart.g.get (15 : BitVec 4).toFin
     let w := joined s
     (w.arrived w.hart (s.arrival 0x20 31 0 15 31)).length < g.nm1.toNat + 1 ∧
     w.groupLost (pkgOf s.hart.pos) (w.asidOf w.hart) g.mtab (g.nm1.toNat + 1) = false) := by decide +kernel

/-- Its team has failed. -/
theorem witness_CollectiveResults_lost :
    let s : State := { twoMembers (memberArrived 1) with failedTeams := [⟨1, [0, 1]⟩] }
    let g := s.hart.g.get (15 : BitVec 4).toFin
    let w := joined s
    let xs := w.arrived w.hart (s.arrival 0x20 31 0 15 31)
    s.vectorReady ∧ w.groupLost (pkgOf s.hart.pos) (w.asidOf w.hart) g.mtab (g.nm1.toNat + 1) = true ∧
    (∀ x ∈ xs, x.2.reg.nm1 = g.nm1) ∧ ∃ x ∈ xs, x.1.pos = s.hart.pos := by decide +kernel

/-- Members of two lengths at one instance; and of a member count that another member does not hold. -/
def twoLengths : State :=
  let h := memberArrived 1
  twoMembers { h with coll := h.coll.map fun c => { c with vl := 1 } }

theorem witness_CollectiveResults_disagree :
    (let s := twoLengths
     let g := s.hart.g.get (15 : BitVec 4).toFin
     let w := joined s
     let xs := w.arrived w.hart (s.arrival 0x20 31 0 15 31)
     let least := xs.foldl (fun m x => min m (x.2.reg.nm1.toNat + 1)) (g.nm1.toNat + 1)
     s.vectorReady ∧ g.valid = true ∧ w.groupLost (pkgOf s.hart.pos) (w.asidOf w.hart) g.mtab (g.nm1.toNat + 1) = false ∧
     least ≤ xs.length ∧ (∃ x ∈ xs, x.1.pos = s.hart.pos) ∧ (∀ x ∈ xs, ¬ x.1.atHandler) ∧
     (∃ x ∈ xs, x.2.vl ≠ s.hart.vl)) ∧
    ((twoMembers (member 1)).hart.g.get (0 : BitVec 4).toFin).valid = false ∧
    (let s : State := { twoMembers (member 1) with hart := { member 0 with vl := 3 } }
     s.vectorReady ∧ (s.hart.g.get (15 : BitVec 4).toFin).valid = true ∧
     s.hart.vl.toNat % ((s.hart.g.get (15 : BitVec 4).toFin).nm1.toNat + 1) = 1) := by decide +kernel

/-- A load of 8 bytes that passes: what it gives and the state after it. -/
def loadGot (s : State) (a : Word) : Word × State :=
  let r := land s .load a 8
  (BitVec.ofNat 64 (bytesToNat (r.2.bytes r.1.keys)), r.2)

/-- The load passes. -/
def loadPasses (s : State) (a : Word) : Bool :=
  a.toNat % 8 == 0 && (s.windowOf a).isNone && (s.check (s.scalarHow .load) a 8).isOk && (land s .load a 8).1.space != .regs &&
    ((land s .load a 8).2.poisonCause (land s .load a 8).1.keys).isNone && !s.afterNb s.hart.nb .load (land s .load a 8).1.keys

theorem loadAt_passes {s : State} {a : Word} (h : loadPasses s a = true) (k : Word → State → Res) :
    loadAt a 8 s k = k (loadGot s a).1 (loadGot s a).2 := by
  simp only [loadPasses, Bool.and_eq_true, beq_iff_eq, bne_iff_ne, Bool.not_eq_true'] at h
  obtain ⟨⟨⟨⟨⟨h1, h0⟩, h2⟩, h3⟩, h4⟩, h7⟩ := h
  have h5 : ((land s .load a 8).2.poisonCause (land s .load a 8).1.keys) = none := by simpa using h4
  have h6 : s.windowOf a = none := by simpa using h0
  simp [loadAt, trapIf, h1, h6, land_eq h2, h3, h5, loadGot, afterOwnNb, h7]

/-- A descriptor of one member at the end of the page, its member table below, and s1 at the descriptor. -/
def grouped (entry : Word) : State :=
  placed (placed (crewWith fun h => h.setS 1 (fetchBase + 0xFFE0)) (fetchBase + 0xFFE0)
    (asBytes [0x51, 1 * 2 ^ 42, 3, fetchBase + 0xFFD8])) (fetchBase + 0xFFD8) (asBytes [entry])

/-- The words of the descriptor in order, and the states after them. -/
def groupLoads (s : State) : List (Word × State) :=
  let a := s.getS 1
  let x0 := loadGot s a
  let x1 := loadGot x0.2 (a + 8)
  let x2 := loadGot x1.2 (a + 8 + 8)
  let x3 := loadGot x2.2 (a + 8 + 8 + 8)
  [x0, x1, x2, x3]

theorem witness_GroupRegisterResults :
    let s := grouped 0x100000000
    let x := s.getS 1
    let xs := groupLoads s
    let w := xs.map Prod.fst
    let u := (xs.getD 3 (0, s)).2
    let m := wordAt w 3 + BitVec.ofNat 64 (8 * bits (wordAt w 1) 0 21)
    x ≠ 0 ∧ x.toNat % 8 = 0 ∧ (∀ k, loadWords 4 x [] s k = k w u) ∧ descriptorBad w = false ∧
    (∀ k, loadAt m 8 u k = k (loadGot u m).1 (loadGot u m).2) ∧
    (loadGot u m).1 = BitVec.ofNat 64 ((loadGot u m).2.hart.team.toNat * 2 ^ 32) ||| BitVec.ofNat 64 (loadGot u m).2.hart.launchRank := by
  refine ⟨by decide +kernel, by decide +kernel, fun k => ?_, by decide +kernel, fun k => loadAt_passes (by decide +kernel) k,
    by decide +kernel⟩
  simp only [loadWords]
  rw [loadAt_passes (by decide +kernel), loadAt_passes (by decide +kernel), loadAt_passes (by decide +kernel),
    loadAt_passes (by decide +kernel)]
  rfl

theorem witness_GroupRegisterResults_other :
    let s := grouped 0x200000000
    let xs := groupLoads s
    let w := xs.map Prod.fst
    let u := (xs.getD 3 (0, s)).2
    let m := wordAt w 3 + BitVec.ofNat 64 (8 * bits (wordAt w 1) 0 21)
    (loadGot u m).1 ≠ BitVec.ofNat 64 ((loadGot u m).2.hart.team.toNat * 2 ^ 32) ||| BitVec.ofNat 64 (loadGot u m).2.hart.launchRank ∧
    (s.hart.g.get (15 : BitVec 4).toFin).valid = false ∧ ((member 0).g.get (15 : BitVec 4).toFin).valid = true ∧
    (crew.getS 2 = 0) := by decide +kernel

/-! ### Hypotheses that are met: events at harts, cores and distributors -/

theorem some_eq {α : Type} {o : Option α} {d : α} (h : o.isSome = true) : o = some (o.getD d) := by
  cases o with
  | none => simp at h
  | some x => rfl

/-- Two head words with positions left, the second urgent. -/
def heads : List Candidate := [⟨0, 0, 0, 0, 4, 32, 0, 4⟩, ⟨3, 0, 0, 255, 2048, 32, 2047, 2048⟩]

theorem witness_SequencerEvents_choice :
    chooseFor [(0, 1, 2), (3, 1, 2)] 0 heads = some ⟨3, 0, 0, 255, 2048, 32, 2047, 2048⟩ ∧
    chooseFor [(0, 1, 2), (3, 1, 2)] 3 [⟨0, 0, 0, 0, 4, 32, 0, 4⟩, ⟨3, 2, 1, 0, 2048, 32, 0, 2048⟩] =
      some ⟨3, 2, 1, 0, 2048, 32, 0, 2048⟩ ∧
    chooseFor [(0, 1, 2), (3, 1, 2)] 3 [⟨0, 0, 0, 0, 4, 32, 0, 4⟩, ⟨3, 2, 1, 0, 2048, 32, 0, 31⟩] =
      some ⟨0, 0, 0, 0, 4, 32, 0, 4⟩ := by decide +kernel

/-- A hart of core 0 that stands at the first of some words, its front end at the last of them. -/
def queueing (pos : HartId) (t : TeamId) (vty : Word) (vl : BitVec 12) (is : List Instr) : Hart :=
  { running.hart with
    pos := pos, team := t, vty := vty, vl := vl, s := (Vector.replicate 32 0).set 10 16, front := { ahead := is.length - 1 }
    ibuf := (List.range is.length).zipWith (fun k i => (running.hart.pc.toNat + 4 * k, word i)) is }

/-- The harts of R186's worked example, of weights 3 and 1: A under FP64, and B and C under `i64` with `setvl` between. -/
def sharing : State :=
  let i64 := 0x20#64 ||| place 1 19
  { running with
    hart := queueing 0 1 0xA0 128 [.vfadd 4 8 12 31]
    parked := [queueing 1 2 i64 32 [.vadd 1 2 3 31, .setvl 7 10, .vadd 5 6 7 31]]
    teams := [(1, { teamOf [0] with record := (teamOf [0]).record.set 13 3 }),
              (2, { teamOf [1] with id := 2, record := (teamOf [1]).record.set 13 1 })] }

/-- The remaining counts of A, B and C after each of three cycles (R186's table). -/
theorem test_three_words_on_two_harts :
    let cycle := issueCycle (sharing.shares 0)
    let cs := sharing.candidates 0
    (cycle cs).map Candidate.left = [80, 32, 0] ∧ (cycle (cycle cs)).map Candidate.left = [32, 16, 0] ∧
    (cycle (cycle (cycle cs))).map Candidate.left = [0, 0, 0] ∧
    (sharing.vectorQueue 1).map Queued.vl = [32, 32, 16] := by decide +kernel

/-- A word that reads what an older one of the window writes has no operands before that one issues (R44, R185). -/
theorem test_dependent_word_waits :
    let s : State := { sharing with hart := queueing 0 1 0xA0 128 [.vfadd 4 8 12 31, .vfmul 5 4 4 31], parked := [] }
    (s.candidates 0).map (fun c => (c.slot, c.open_)) = [(0, true), (1, false)] := by decide +kernel

/-- The mapped hart stands at `vadd` with four positions. -/
def issuing : State :=
  let s := running.withFetchWord 32 (word (.vadd 1 2 3 31)).toNat
  { s with hart := { s.hart with vty := i32, vl := 4 } }

theorem witness_SequencerEvents : issuing.distinct ∧ issuing.candidates 0 = [⟨0, 0, 0, 0, 4, 32, 0, 4⟩] ∧ State.reset.candidates 0 = [] := by
  decide +kernel

/-- A hart at `vadd`, with one more word to run ahead of it. -/
def aheadOf (i : Instr) : State :=
  { running with hart := { queueing 0 1 i32 4 [.vadd 1 2 3 31, i] with front := {} } }

theorem witness_FrontRunsAhead :
    (aheadOf (.addi 1 2 5)).hart.run ≠ .free ∧ ((aheadOf (.addi 1 2 5)).runAhead 0).next ≠ none ∧
    ((aheadOf (.st 1 2 .w64 0)).runAhead 0).next = none ∧ (State.reset.hartAt 0).run = .free := by decide +kernel

/-- The front end stands at a `flow` behind a vector word, which it performs. -/
theorem witness_FrontRunsAhead_flow :
    (aheadOf (.flow 1 3)).distinct ∧ (aheadOf (.flow 1 3)).hart.run ≠ .free ∧ ((aheadOf (.flow 1 3)).hartAt 0).stopped = false ∧
    ((aheadOf (.flow 1 3)).runAhead 0).next = none ∧ ((aheadOf (.flow 1 3)).runAhead 0).flowHere = some 3 := by decide +kernel

/-- With 32 words in the vector queue the front end waits at the next (R181). -/
theorem test_full_vector_queue :
    let s : State := { running with hart := { queueing 0 1 i32 4 (List.replicate 33 (.vadd 1 2 3 31)) with front := { ahead := 31 } } }
    (s.vectorQueue 0).length = 32 ∧ s.frontWaits 0 = true := by decide +kernel

/-- Hart 0 waits for something. -/
def waitsFor (w : Wait) : State := crewWith fun h => { h with run := .waiting w }

theorem witness_WaitsComplete :
    (let s : State := { waitsFor (.bar .core) with parked := [peer (.waiting (.bar .core))] }
     s.distinct ∧ (s.hartAt 0).run = .waiting (.bar .core) ∧
     (∀ y ∈ s.participants .core (s.hartAt 0), y.run = .waiting (.bar .core) ∧ y.path = (s.hartAt 0).path) ∧
     (s.gone (s.hartAt 0).team).any (fun y => y.inTeam (s.hartAt 0).team (s.hartAt 0).path && sameUnit .core y.pos 0) = false) ∧
    (let s := (waitsFor (.sem 63 7)).setCore 0 ((crew.core 0).setSema 63 { team := some 1, count := 7, waiters := [0] })
     s.distinct ∧ (s.hartAt 0).run = .waiting (.sem 63 7) ∧ ((s.core 0).sema 63).waiters.head? = some 0 ∧
     7 ≤ ((s.core 0).sema 63).count) ∧
    (let s := (waitsFor (.ipost 7 5)).setDie 0 { iters := (Vector.replicate 8 {}).set 7 ⟨some 1, 5⟩ }
     s.distinct ∧ (s.hartAt 0).run = .waiting (.ipost 7 5) ∧ ((s.die 0).iters.get (7 : BitVec 3).toFin).count = 5) ∧
    (let s := (waitsFor (.iwait 7 5)).setDie 0 { iters := (Vector.replicate 8 {}).set 7 ⟨some 1, 5⟩ }
     s.distinct ∧ (s.hartAt 0).run = .waiting (.iwait 7 5) ∧ 5 ≤ ((s.die 0).iters.get (7 : BitVec 3).toFin).count) ∧
    (let s := crewWith fun h => { h with run := .waiting (.queuePop 7), sq := h.sq.set 3 [1] }
     s.distinct ∧ (s.hartAt 0).run = .waiting (.queuePop 7) ∧ 0 < (s.hartAt 0).queueCount 7) ∧
    (let s := crewWith fun h => { h with run := .waiting (.queuePush 7), sq := h.sq.set 3 (List.replicate 15 1) }
     s.distinct ∧ (s.hartAt 0).run = .waiting (.queuePush 7) ∧ (s.hartAt 0).queueCount 7 < queueRoom 7) := by decide +kernel

/-- The hart waits on a queue with no data, or with no room. -/
theorem witness_WaitsComplete_not :
    (waitsFor (.queuePop 7)).distinct ∧ ((waitsFor (.queuePop 7)).hartAt 0).queueCount 7 = 0 ∧
    (let s := crewWith fun h => { h with run := .waiting (.queuePush 7), sq := h.sq.set 3 (List.replicate 16 1) }
     queueRoom 7 ≤ (s.hartAt 0).queueCount 7) ∧
    (let s : State := { waitsFor (.bar .core) with parked := [peer (.waiting (.bar .core))] }
     ∀ y ∈ s.participants .core (s.hartAt 0), s.engineBusy y.pos = false) := by decide +kernel

/-- An outstanding load that will post four bytes to semaphore 63. -/
def access : NbAccess :=
  { kind := .load, sem := 63, bytes := 4, d := 31, ew := 32, fmt := 0, gf := 1, rm := 0, items := [(⟨0, [fetchBase]⟩, none)], mask := 1
    data := [], noTouch := [31], noWrite := [], caught := [] }

theorem witness_ReleasesAndPosts :
    (let s := crewWith fun h => { h with nb := [access] }
     s.distinct ∧ (s.hartAt 0).nb[0]? = some access) ∧
    (let s := crewWith fun h => { h with nb := [{ access with items := [] }] }
     s.distinct ∧ (s.hartAt 0).nb[0]? = some { access with items := [] }) ∧
    (let s : State := { (crew.setCore 0 ((crew.core 0).setSema 63 { team := some 1 })) with hart := running.hart }
     s.distinct ∧ ((s.core 0).sema 63).team = some 1 ∧ s.semaHeld 0 63 1 = false) ∧
    (let s := crew.setCore 0 ((crew.core 0).setSema 63 { team := some 1 })
     ((s.core 0).sema 63).team = some 1 ∧ s.semaHeld 0 63 1 = true) := by decide +kernel

/-- A hart of a failed team left that access at the place of hart 0. -/
theorem witness_ReleasesAndPosts_left :
    let y : Hart := { Hart.reset with team := 2, nb := [access] }
    let s := crew.setCore 0 { crew.core 0 with orphans := [y] }
    s.distinct ∧ (s.hartAt 0).nb.length ≤ 0 ∧ (s.orphansAt 0)[0 - (s.hartAt 0).nb.length]? = some y ∧ y.nb = [access] := by
  decide +kernel

/-- A store whose one element has landed, behind a load of the same bytes, of the hart or of one that has left. -/
def landedStore : NbAccess :=
  { access with kind := .store, items := [(⟨0, [fetchBase]⟩, some [(land crew .load fetchBase 4).1.keys])], noTouch := [], noWrite := [31] }
def landedLoad : NbAccess := { landedStore with kind := .load }

theorem witness_ReleasesAndPosts_behind :
    (let s := crewWith fun h => { h with nb := [landedLoad, landedStore] }
     s.distinct ∧ (s.hartAt 0).nb[1]? = some landedStore ∧
     (s.select 0).nbBehind ((s.select 0).hart.nb.take 1) landedStore = true ∧ (s.select 0).nbBehind ((s.select 0).hart.nb.take 0) landedLoad = false) ∧
    (let y : Hart := { Hart.reset with team := 2, nb := [landedLoad] }
     let z : Hart := { Hart.reset with team := 2, nb := [landedStore] }
     let s := crew.setCore 0 { crew.core 0 with orphans := [y, z] }
     (s.orphansAt 0)[1]? = some z ∧
     ({ s with hart := z } : State).nbBehind (((s.orphansAt 0).take 1).flatMap fun z => z.nb) landedStore = true ∧
     ({ s with hart := y } : State).nbBehind (((s.orphansAt 0).take 0).flatMap fun z => z.nb) landedLoad = false) := by decide +kernel

/-- The last position of v31, where it landed; and one whose target is lost. -/
theorem witness_ReleasesAndPosts_items :
    (let ks := (land crew .load fetchBase 4).1.keys
     access.fmt < 8 ∧ access.ew = 32 ∧ ks.length = access.ew / 8 ∧ ks.Nodup ∧ (255 + 1) * access.ew ≤ 8192 * access.gf ∧
     access.d.toNat + access.gf ≤ 32 ∧ access.kind = .load ∧ access.data = [] ∧ landedStore.kind = .store) ∧
    (let v := lostPackage.withCaught access.caught
     (match v.checkFields (v.vectorHow .load 255) false (access.ew / 8) [v.getS 1] with
      | .ok (l, u) => l == [none] && u == v
      | .error _ => false) = true) := by decide +kernel

theorem error_of {ε α : Type} {e : Except ε α} (h : e.isOk = false) : ∃ x, e = .error x := by
  cases e with
  | ok x => simp [Except.isOk, Except.toBool] at h
  | error x => exact ⟨x, rfl⟩

theorem witness_AsynchronousEvents_words :
    (∃ c, running.fetch = .error c) ∧ (∃ r, decodeBase 0 = some (.error r)) := by
  refine ⟨error_of (by decide +kernel), ?_⟩
  have h : (match decodeBase 0 with | some (.error _) => true | _ => false) = true := by decide +kernel
  revert h; split
  · next r e => exact fun _ => ⟨r, e⟩
  · exact fun h => absurd h (by simp)

theorem witness_AsynchronousEvents :
    (let s := crewWith fun h => { h with hs := true, pending := [⟨0x300, 1⟩, ⟨0x382, 2⟩] }
     s.distinct ∧ (s.hartAt 0).run ≠ .free ∧ s.satisfied (s.hartAt 0) = false ∧ (⟨0x382, 2⟩ : Pending) ∈ (s.hartAt 0).pending ∧ (⟨0x382, 2⟩ : Pending).machine = true ∧
     (∀ y ∈ (s.hartAt 0).pending, ((s.hartAt 0).hs = true → y.machine = true) → y ≠ ⟨0x382, 2⟩ →
       (⟨0x382, 2⟩ : Pending).order < y.order)) ∧
    (let s := waitsFor (.queuePop 7)
     s.distinct ∧ ¬ (s.hartAt 0).atHandler ∧ (s.hartAt 0).run = .waiting (.queuePop 7) ∧ (s.hartAt 0).queueCount 7 = 0 ∧
     (s.core (coreOf 0)).fife.heldBy 0 = false ∧ s.frontWaits 0 = true) ∧
    (aheadOf (.addi 1 2 5)).frontWaits 0 = false ∧
    (let s : State := { waitsFor (.bar .core) with parked := [peer (.waiting (.bar .quad))] }
     let xs := s.harts.filter fun y => y.placed && y.team == 1
     s.distinct ∧ xs ≠ [] ∧ (teamOf [0]).saved = [] ∧ s.team 1 = some (teamOf [0]) ∧
     (∀ y ∈ xs, (waitKind y.run).isSome = true ∧ s.allArrived y = false ∧ ¬ y.atHandler)) := by decide +kernel

/-- The Fife of hart 0 waits on the same queue, running or paused. -/
theorem witness_AsynchronousEvents_fife :
    ∀ st ∈ [FifeSt.running, .paused],
      let s := waitsFor (.queuePush 7)
      let s : State := { s with hart := { s.hart with sq := s.hart.sq.set 3 (List.replicate 16 1) } }
      let s := s.setCore 0 { s.core 0 with fife := { st := st, wait := some (.queuePush 7), onQueue := true } }
      s.distinct ∧ ¬ (s.hartAt 0).atHandler ∧ (s.hartAt 0).run = .waiting (.queuePush 7) ∧
      queueRoom 7 ≤ (s.hartAt 0).queueCount 7 ∧ (s.core 0).fife.heldBy 0 = true ∧
      ((s.hartAt 0).queueBlocked (.queuePush 7)).isSome = true ∧ (s.core 0).fife.onQueue = true ∧ s.frontWaits 0 = true := by decide +kernel

/-- Causes of each class in their order; a word whose wait is satisfied; and a hart that a forced pre-emption has stopped. -/
theorem witness_AsynchronousEvents_others :
    ((⟨0x382, 2⟩ : Pending).machine = true ∧ (⟨0x2C0, 1⟩ : Pending).cause.toNat / 64 = 11 ∧ (⟨0x300, 1⟩ : Pending).cause.toNat / 64 ≠ 11) ∧
    (let s := crewWith fun h => { h with run := .waiting (.queuePop 7), sq := h.sq.set 3 [1] }
     s.satisfied (s.hartAt 0) = true) ∧
    (waitsFor .stopped).hart.stopped = true := by decide +kernel

theorem witness_SoftErrors : crew.distinct ∧ (crew.hartAt 0).run ≠ .free := by decide +kernel

/-- Package 0 is brought up; its distributor reads and writes channel 0 of die 0 through one page. -/
def hosted : State :=
  { State.reset with
    dev := [(regKey 0 0x200010, 0x3C0000000), (regKey (ioDie 0) 0x80000, 1), (regKey (ioDie 0) 0x80008, 1)]
    dies := [(0, { remote := [⟨0, 0, 3, 0, 0, true, true, true⟩] })]
    pkgs := [(0, { step := 7 })] }

/-- Words at an address of channel 0 of die 0. -/
def written (s : State) (a : Nat) (ws : List Word) : State := s.store ((List.range (8 * ws.length)).map (a + ·)) (asBytes ws)

/-- Ring 3 of context 0, of sixteen entries, its records up to the page's last byte, one record ahead of HEAD 15. -/
def ringed : State :=
  let s := (hosted.setReg (ioDie 0) (0x90000 + 48) 0xF001).setReg (ioDie 0) (0x90000 + 16) 0x80000000000F0000
  written (written s 0xF000 [16, 15, 0x1004, 0, 0]) (0xF000 + 128 + 128 * 15) ((List.replicate 16 0).set 13 1)

def ringHead : List Byte × State := got (ringed.distRead 0 0 0xF000 40) ([], ringed)
def ringMoved : State := (ringHead.2.distWrite 0 0 0xF008 16).getD ringed
def ringRecord : List Byte × State := got (ringMoved.distRead 0 0 (0xF000 + 2048) 128) ([], ringed)

theorem witness_RingRecordAccepted :
    let h := bytesToWords 5 ringHead.1
    let cfg := wordAt h 2
    ringed.enabled 0 = true ∧ bit (ringed.ringReg 0 3) 0 = true ∧ bit (ringed.ctxReg 0 0 16) 63 = true ∧
    ringed.ringBase 0 3 = 0xF000 ∧ ringed.distRead 0 0 0xF000 40 = .ok (ringHead.1, ringHead.2) ∧
    ringCfgOk cfg 0xFFFFFFFFFFFFE0E0 = true ∧ wordAt h 4 = 0 ∧ bit cfg 12 = true ∧ 0 < (wordAt h 0 - wordAt h 1).toNat ∧
    (wordAt h 0 - wordAt h 1).toNat ≤ 2 ^ bits cfg 0 5 ∧ wordAt h 1 = 15 ∧
    (∀ t ∈ ringHead.2.teamList, t.st = .accepted → t.pkg = 0 → ∀ n, t.source ≠ .ring 3 n) ∧
    ringHead.2.distWrite 0 0 0xF008 16 = some ringMoved ∧
    ringMoved.distRead 0 0 (0xF000 + 2048) 128 = .ok (ringRecord.1, ringRecord.2) ∧
    recMalformed (bytesToWords 16 ringRecord.1) true = false ∧ ringMoved.neverPlaced 0 (bytesToWords 16 ringRecord.1) = false :=
  ⟨by decide +kernel, by decide +kernel, by decide +kernel, by decide +kernel, got_eq (d := ([], ringed)) (by decide +kernel), by decide +kernel,
   by decide +kernel, by decide +kernel, by decide +kernel, by decide +kernel, by decide +kernel,
   by
    have e : ringHead.2.teamList = [] := by decide +kernel
    intro t m; rw [e] at m; simp at m,
   some_eq (by decide +kernel), got_eq (d := ([], ringed)) (by decide +kernel), by decide +kernel, by decide +kernel⟩

/-- A launch from ring 0 and one spawned on core 0, both accepted on package 0, the spawned one of higher priority. -/
def queued : State :=
  { hosted with
    teams := [(1, { teamOf [] with st := .accepted }), (2, { teamOf [] with id := 2, st := .accepted, prio := 1, source := .spawn 0 1 })]
    dies := [(0, { spawnq := [2] })] }

theorem witness_DistributorChooses :
    let x : Team := { teamOf [] with id := 2, st := .accepted, prio := 1, source := .spawn 0 1 }
    queued.teamsKeyed ∧ queued.enabled 0 = true ∧ (∀ y ∈ queued.teamList, y.pkg = 0 → y.st ≠ .chosen) ∧
    x ∈ queued.teamList ∧ x.pkg = 0 ∧ x.status = 0 ∧ x.st = .accepted ∧ queued.atHead x = true ∧
    (∀ y ∈ queued.teamList, y ≠ x → keyLt (queued.choiceKey 0 x) (queued.choiceKey 0 y) = true) := by decide +kernel

/-- The launch of one hart, chosen, and then placed at the last context of die 0. -/
def chosen : State := { hosted with teams := [(1, { teamOf [] with st := .chosen, hc := 0 })] }
def placedTeam : Team := { teamOf [0x1FF] with st := .placed, hc := 0 }

/-- The team as placed there. -/
def placing (x : Team) : Team := { x with st := .placed, places := [0x1FF], replies := [], start := 0, live := [0] }

theorem witness_TeamPlacement :
    let x : Team := { teamOf [] with st := .chosen, hc := 0 }
    chosen.team 1 = some x ∧ x.id = 1 ∧ x.st = .chosen ∧ chosen.placementFits x [0x1FF] = true ∧ chosen.placementFits x [] = false ∧
    chosen.numbersFree x [0x1FF] = true ∧ chosen.leavesRoom (placing x) = true ∧ x.kept = {} ∧
    (∀ h ∈ [(0x1FF : HartId)], x.hc.toNat ≤ chosen.cls (pkgOf h) (zoneOf h) ∧ chosen.moving (pkgOf h) (zoneOf h) = false) ∧
    (let s : State := { chosen with teams := [(1, { x with hc := 15 })] }
     s.placementFits { x with hc := 15 } [0x1FF] = true ∧ s.numbersFree { x with hc := 15 } [0x1FF] = true ∧
     s.leavesRoom (placing { x with hc := 15 }) = true ∧ ¬ 15 ≤ s.cls (pkgOf 0x1FF) (zoneOf 0x1FF)) :=
  ⟨by decide +kernel, by decide +kernel, by decide +kernel, by decide +kernel, by decide +kernel, by decide +kernel, by decide +kernel,
   by decide +kernel, fun h m => by rw [List.mem_singleton.mp m]; decide +kernel, by decide +kernel⟩

/-- A launch that resumes with a semaphore in custody. -/
theorem witness_TeamPlacement_resumed :
    let x : Team := { teamOf [] with
      st := .chosen, hc := 0, live := [0], saved := [⟨0, 0x10000, true, Hart.reset, none⟩]
      kept := { places := [3], sems := [(0, 63, { team := some 1, count := 5 })] } }
    let s : State := { chosen with teams := [(1, x)] }
    s.team 1 = some x ∧ x.st = .chosen ∧ s.placementFits x [0x1FF] = true ∧ s.numbersFree x [0x1FF] = true ∧
    s.leavesRoom (placing x) = true ∧ x.kept.places ≠ [] ∧ x.kept.tcm = [] ∧
    unitAt ((placing x).coresAt [0x1FF]) 0 = some 0x7F := by decide +kernel

/-- A placed launch whose image descriptor stands at 0x1000: four bytes from 0x2000 to the end of the TCM. -/
def imaged (len : Word) : State :=
  let s : State := { hosted with
    teams := [(1, { placedTeam with record := (placedTeam.record.set 8 0x1000).set 13 0x1000009101, images := false })]
    cores := [(0x7F, { tlb := [(0, [⟨0, 99, 3, 3, 0x30000, true, true, true⟩])] })] }
  written s 0x1000 [0x2000, len, 0x3FFFC, 0]

def imageHead (s : State) : List Byte × State := got (s.distRead 0 0 0x1000 32) ([], s)

theorem witness_TcmImages :
    let s := imaged 4
    let x : Team := { placedTeam with record := (placedTeam.record.set 8 0x1000).set 13 0x1000009101, images := false }
    let r := imageHead s
    s.team 1 = some x ∧ x.id = 1 ∧ x.st = .placed ∧ x.ctl 36 1 = 1 ∧ x.images = false ∧ x.saved = [] ∧
    s.distRead 0 0 0x1000 32 = .ok (r.1, r.2) ∧ x.pkg = 0 ∧ x.asid = 0 ∧ wordAt x.record 8 = 0x1000 ∧ imageMalformed (bytesToWords 4 r.1) = false ∧
    (∃ v, ([(0x7F, 0)] : List (CoreId × Nat)).foldlM (fun a (c, i) => a.imageWord x c (0x2000 + BitVec.ofNat 64 (4 * i)) (0x3FFFC + 4 * i)) r.2
      = .ok v) ∧
    imageMalformed (bytesToWords 4 (imageHead (imaged 8)).1) = true :=
  ⟨by decide +kernel, by decide +kernel, by decide +kernel, by decide +kernel, by decide +kernel, by decide +kernel,
   got_eq (d := ([], imaged 4)) (by decide +kernel), by decide +kernel, by decide +kernel, by decide +kernel, by decide +kernel,
   ⟨_, got_eq (d := State.reset) (by decide +kernel)⟩, by decide +kernel⟩

theorem witness_TcmImages_word :
    let s := imaged 4
    let c := got (s.imageBytes { placedTeam with record := (placedTeam.record.set 8 0x1000).set 13 0x1000009101, images := false } 0x2000 4) ([], s)
    let how : How := { distHow 0 0 .store with master := { distributor 0 0 with die := dieOfCore 0x7F, core := some 0x7F } }
    s.imageBytes { placedTeam with record := (placedTeam.record.set 8 0x1000).set 13 0x1000009101, images := false } 0x2000 4 = .ok (c.1, c.2) ∧
    ∃ q d, c.2.check how (BitVec.ofNat 64 (homeKey (dieOfCore 0x7F) true 35 0x3FFFC)) 4 = .ok (q, d) :=
  ⟨got_eq (d := ([], imaged 4)) (by decide +kernel), _, _, got_eq (d := (⟨.sram, 0, []⟩, State.reset)) (by decide +kernel)⟩

theorem witness_TeamStarts :
    let s : State := { hosted with teams := [(1, placedTeam)] }
    s.team 1 = some placedTeam ∧ placedTeam.id = 1 ∧ placedTeam.saved = [] ∧ placedTeam.places.Nodup ∧
    s.mayStart placedTeam = true ∧ 0 < placedTeam.places.length ∧ placedTeam.owed = [] ∧ placedTeam.asked = false ∧
    (let x : Team := { placedTeam with owed := [(0x1FF, ⟨0x382, 2⟩)] }
     ({ hosted with teams := [(1, x)] } : State).mayStart x = true ∧ x.owed = [(x.places.getD 0 0, ⟨0x382, 2⟩)]) := by decide +kernel

/-- A team that has run to its end, with a CMP field and a source. -/
def ended (cmp : Nat) (src : Source) : Team :=
  { teamOf [0] with live := [], source := src, record := ((teamOf [0]).record.set 13 (BitVec.ofNat 64 (0x9101 + cmp * 2 ^ 28))).set 14 0x3000 }

def recordWrite (o : Option State) (a x : Word) : Option State := o.bind fun s => s.distWrite 0 0 a x

theorem witness_TeamCompletes :
    (let x := ended 0 (.ring 3 9)
     let s : State := { hosted with teams := [(1, x)] }
     s.team 1 = some x ∧ x.id = 1 ∧ x.st = .running ∧ x.live = [] ∧ x.status = 0 ∧ x.cause = none ∧
     (∀ k ∈ s.cores, (∀ y ∈ k.2.cpyq, y.team ≠ 1) ∧ ∀ h ∈ k.2.orphans, h.team ≠ 1) ∧ x.source = .ring 3 9 ∧ x.ctl 28 2 = 0) ∧
    (let x := ended 1 (.spawn 0 2)
     let s : State := { hosted with teams := [(1, x), (2, { teamOf [4] with id := 2 })] }
     s.team 1 = some x ∧ x.source = .spawn 0 2 ∧ x.ctl 28 2 = 1 ∧ (s.team 2).isSome = true ∧
     (∀ y, s.team 2 = some y → y.kept.places = [])) ∧
    (let x := ended 2 (.ring 3 9)
     x.source = .ring 3 9 ∧ x.ctl 28 2 = 2) := by
  refine ⟨by decide +kernel, ?_, by decide +kernel⟩
  refine ⟨by decide +kernel, by decide +kernel, by decide +kernel, by decide +kernel, fun y h => ?_⟩
  have e : State.team { hosted with teams := [(1, ended 1 (.spawn 0 2)), (2, { teamOf [4] with id := 2 })] } 2 =
    some { teamOf [4] with id := 2 } := by decide +kernel
  rw [e] at h; cases h; rfl

theorem witness_TeamCompletes_record :
    let s : State := { hosted with teams := [(1, ended 2 (.ring 3 9))] }
    let t := s.passTime.now
    ∃ a b c d, s.passTime.distWrite 0 0 0x3000 9 = some a ∧ a.distWrite 0 0 (0x3000 + 8) 0 = some b ∧
      b.distWrite 0 0 (0x3000 + 16) t = some c ∧ c.distWrite 0 0 (0x3000 + 24) 1 = some d := by
  refine ⟨_, _, _, _, some_eq (d := State.reset) ?_, some_eq (d := State.reset) ?_, some_eq (d := State.reset) ?_,
    some_eq (d := State.reset) ?_⟩ <;> (rw [State.passTime_eq]; decide +kernel)

/-- A placed team of one hart on each of two packages. -/
def gang : Team :=
  { teamOf [0, 0x1000] with st := .placed, record := (teamOf [0]).record.set 15 5000 }

theorem witness_GangStart :
    (let s : State := { hosted with teams := [(1, gang)] }
     s.team 1 = some gang ∧ gang.id = 1 ∧ gang.st = .placed ∧ gang.spans = true ∧ gang.committed = false ∧ gang.start = 0 ∧
     gang.saved = []) ∧
    (let x : Team := { gang with start := 5000, replies := [0] }
     x.start ≠ 0 ∧ (1 : PkgId) ∉ x.replies ∧ (∃ h ∈ x.places, pkgOf h = 1) ∧ hosted.now.toNat + 1000 < x.start.toNat ∧
     (let s : State := { hosted with now := 4000 }
      x.start.toNat ≤ s.now.toNat + 1000)) :=
  ⟨by decide +kernel, by decide +kernel, by decide +kernel, ⟨0x1000, by decide +kernel, by decide +kernel⟩, by decide +kernel,
   by decide +kernel⟩

/-- The time base is past the deadline; and it cannot pass tick 9, on which another team has agreed. -/
theorem witness_GangStart_retry :
    (let s : State := { hosted with teams := [(1, { gang with start := 5000 })], now := 4000 }
     s.team 1 = some { gang with start := 5000 } ∧ (5000 : Word).toNat ≤ s.passTime.now.toNat + 1000) ∧
    (let s : State := { hosted with
       teams := [(1, { gang with start := 5000 }), (2, { gang with id := 2, start := 9, committed := true })] }
     s.team 1 = some { gang with start := 5000 } ∧ s.passTime.now.toNat + 1000 < (5000 : Word).toNat) := by
  refine ⟨⟨by decide +kernel, ?_⟩, by decide +kernel, ?_⟩
  · exact Nat.add_le_add_right (State.now_le_passTime { hosted with teams := [(1, { gang with start := 5000 })], now := 4000 }) 1000
  · have h := State.passTime_le_start { hosted with
      teams := [(1, { gang with start := 5000 }), (2, { gang with id := 2, start := 9, committed := true })] }
      (2, { gang with id := 2, start := 9, committed := true }) (by simp) rfl rfl (by decide +kernel)
    exact Nat.lt_of_le_of_lt (Nat.add_le_add_right h 1000) (by decide)

theorem witness_PreemptionEvents_forced :
    let b : State := { saver.withdraw with hart := { saver.withdraw.hart with run := .running } }
    saver.distinct ∧ (saver.hartAt 0).run ≠ .free ∧ (saver.hartAt 0).prq = true ∧ (saver.hartAt 0).psa = 0x10000 ∧
    (saver.hartAt 0).nb = [] ∧ saver.copiesOut 0 = false ∧ saver.satisfied (saver.hartAt 0) = false ∧ saver.team (saver.hartAt 0).team = some (teamOf [0]) ∧ (teamOf [0]).id = (saver.hartAt 0).team ∧
    saver.select 0 = saver ∧ ∃ u, writeImage true 0x10000 (b.imageWords 2) b = .ok u := by
  have e : ({ saver.withdraw with hart := { saver.withdraw.hart with run := .running } } : State) = saver := by rfl
  have n : (saver.imageWords 2).length < 12000 := by decide +kernel
  obtain ⟨u, h⟩ := writeImage_lands saver (by decide +kernel) (saver.imageWords 2) 0x10000 saver.mem saver.poison fun i l =>
    saver_lands _ (by simp; omega)
  exact ⟨by decide +kernel, by decide +kernel, by decide +kernel, by decide +kernel, by decide +kernel, by decide +kernel,
    by decide +kernel, by decide +kernel, by decide +kernel, rfl, u, by rw [e]; exact h⟩

/-- A hart asked to leave with an access outstanding; and one whose wait is satisfied. -/
theorem witness_PreemptionEvents_stays :
    (let s := crewWith fun h => { h with prq := true, psa := 0x10000, nb := [access] }
     s.distinct ∧ (s.hartAt 0).run ≠ .free ∧ (s.hartAt 0).prq = true ∧ (s.hartAt 0).psa ≠ 0 ∧ (s.hartAt 0).nb ≠ [] ∧
     s.satisfied (s.hartAt 0) = false) ∧
    (let s := crewWith fun h => { h with run := .waiting (.queuePop 7), sq := h.sq.set 3 [1], prq := true, psa := 0x10000 }
     s.satisfied (s.hartAt 0) = true) := by decide +kernel

/-- The context has no frame for the TCM of the core that a live hart occupied, or has one. -/
theorem witness_PreemptionEvents_frames :
    let x : Team := { teamOf [0] with st := .preempting, saved := [⟨0, 0x10000, true, saver.hart, none⟩] }
    let s : State := { hosted with teams := [(1, x)] }
    let t := (s.setReg (ioDie 0) (0x90000 + 8) (0x100000 ||| 1)).setReg (ioDie 0) (0x90000 + 16) (s.reg (ioDie 0) (0x90000 + 16) ||| 1)
    x.coresLive = [(0, 0)] ∧ s.withTcmFrames x = none ∧ (t.withTcmFrames x).isSome = true := by decide +kernel

theorem witness_PreemptionEvents_complete :
    let x : Team := { teamOf [0] with st := .preempting, saved := [⟨0, 0x10000, true, saver.hart, none⟩] }
    let s : State := { hosted with teams := [(1, x)] }
    s.team x.id = some x ∧ x.st = .preempting ∧ x.live ≠ [] ∧ (∀ r ∈ x.live, ∃ z ∈ x.saved, z.rank = r) ∧
    (∀ z ∈ x.coresAt x.places, s.coreQuiet x z.2 = true) := by decide +kernel

/-! ### Hypotheses that are met: events of engines, rings, the fabric, links, coolant and packages -/

/-- The instruction of a word, where it has one. -/
def decoded (w : BitVec 32) : Instr := match decodeBase w with
  | some (.ok i) => i
  | _ => .eret

theorem decoded_eq {w : BitVec 32} (h : (match decodeBase w with | some (.ok _) => true | _ => false) = true) :
    decodeBase w = some (.ok (decoded w)) := by
  revert h; unfold decoded; split
  · exact fun _ => by assumption
  · exact fun h => absurd h (by simp)

/-- The Fife of core 0 runs at a word, held by hart 0. -/
def fifeAt (i : Instr) : State :=
  let s := running.withFetchWord 32 (word i).toNat
  s.setCore 0 { s.core 0 with fife := { st := .running, fpc := fetchBase, vty := i32 } }

/-- The state in which its word runs, and what it fetches. -/
def fifeSeen (s : State) : State := { s with hart := ((s.core 0).fife).asHart s.hart }
def fifeFetch (s : State) : BitVec 32 × State := got ((fifeSeen s).fetchAt ((fifeSeen s).scalarHow .fetch) fetchBase) (0, s)

theorem fifeFetch_eq {s : State} (h : ((fifeSeen s).fetchAt ((fifeSeen s).scalarHow .fetch) fetchBase).isOk = true) :
    (fifeSeen s).fetchAt ((fifeSeen s).scalarHow .fetch) fetchBase = .ok ((fifeFetch s).1, (fifeFetch s).2) := got_eq h

/-- The state after a Fife word that runs. -/
def fifeRun (s : State) : State := match runFifeWord (decoded (fifeFetch s).1) (fifeFetch s).2 with
  | some o => after o
  | none => s

theorem fifeRun_eq {s : State} (h : (match runFifeWord (decoded (fifeFetch s).1) (fifeFetch s).2 with
    | some o => goesOn o
    | none => false) = true) :
    runFifeWord (decoded (fifeFetch s).1) (fifeFetch s).2 = some (.next (fifeRun s)) := by
  revert h; unfold fifeRun; split
  · next o e =>
    intro h
    rw [e]
    cases o with
    | next t => rfl
    | fault f => cases h
    | refused r => cases h
  · exact fun h => absurd h (by simp)

theorem witness_FifeWords :
    let s := fifeAt (.addi 1 2 5)
    s.distinct ∧ (s.core 0).fife.st = .running ∧ (s.core 0).fife.zol.act = false ∧
    (fifeSeen s).fetchAt ((fifeSeen s).scalarHow .fetch) fetchBase = .ok ((fifeFetch s).1, (fifeFetch s).2) ∧
    decodeBase (fifeFetch s).1 = some (.ok (decoded (fifeFetch s).1)) ∧ decoded (fifeFetch s).1 = .addi 1 2 5 ∧
    runFifeWord (decoded (fifeFetch s).1) (fifeFetch s).2 = some (.next (fifeRun s)) ∧ (fifeRun s).hart.run = .running ∧
    (fifeRun s).hart.hs = false ∧ (fifeRun s).hart.pos = 0 ∧ (fifeRun s).parked = s.parked :=
  ⟨by decide +kernel, by decide +kernel, by decide +kernel, fifeFetch_eq (by decide +kernel),
   decoded_eq (by decide +kernel), by decide +kernel, fifeRun_eq (by decide +kernel), by decide +kernel, by decide +kernel,
   by decide +kernel, by decide +kernel⟩

theorem witness_FifeWords_others :
    decoded (fifeFetch (fifeAt .fwait)).1 = .fwait ∧ bit ((fifeAt .fwait).core 0).fife.vty 63 = false ∧
    ((fifeAt .fwait).core 0).fife.node = none ∧ ((fifeAt .fwait).core 0).launch = [] ∧
    decoded (fifeFetch (fifeAt (.vadd 1 2 3 31))).1 = .vadd 1 2 3 31 ∧
    (runFifeWord (.vadd 1 2 3 31) (fifeFetch (fifeAt (.vadd 1 2 3 31))).2).isNone = true ∧
    ((State.reset.core 0).fife.st ≠ .running) := by decide +kernel

/-- The access table of the engine pages of die 0 admits the hart. -/
def opened (s : State) : State := s.setReg 0 (0x200000 + 0x2000 * 97 + 16) 0x3C0000000

theorem witness_EnginePortEvents_reach : ∀ o, o = 0 ∨ o = 8 ∨ o = 0x10 ∨ o = 0x58 → ∀ acc, acc = Acc.store ∨ acc = Acc.load →
    ∃ p u, globalPort.check (globalPort.scalarHow acc) (portAddr 0 o) 8 = .ok (p, u) ∧ p.space = .regs ∧
      portAt (coreOf 0) (portAddr 0 o) = some (0, o) := by
  rintro o (rfl | rfl | rfl | rfl) acc (rfl | rfl) <;>
    exact ⟨_, _, got_eq (d := (⟨.tcm, 0, []⟩, mapped)) (by decide +kernel), by decide +kernel, by decide +kernel⟩

theorem witness_EnginePortEvents :
    let s := opened copier
    s.distinct ∧ (s.hartAt 0).run ≠ .free ∧ s.select 0 = s ∧ (s.hartAt 0).team = s.hart.team ∧ ¬ (s.hartAt 0).atHandler ∧
    (let s := noded 2 255
     (s.getS 1).toNat < 256 ∧ s.nodeAt 0 255 = some { team := some 1, desc := some nodeDesc, count := 2 } ∧
     (some nodeDesc).isSome = true ∧ some (s.hartAt 0).team = some 1 ∧ ((s.hartAt 0).sq.get (3 : BitVec 2).toFin).length < 16) ∧
    denied copier (copier.scalarHow .store) (portAddr 0 0) 8 = some (.cause 0x103) ∧
    denied copier (copier.scalarHow .load) (portAddr 0 8) 8 = some (.cause 0x103) ∧
    (((opened crew).setCore 0 { crew.core 0 with cres := [5] }).core 0).cres = 5 :: [] :=
  ⟨by decide +kernel, by decide +kernel, by decide +kernel, by decide +kernel, by decide +kernel, by decide +kernel,
   by decide +kernel, by decide +kernel, by decide +kernel⟩

theorem witness_EnginePortEvents_copy :
    let s := opened copier
    let r := reads s (s.getS 1) 128
    (s.getS 1).toNat % 128 = 0 ∧ s.scalarRead (s.getS 1) 128 = .ok (r.1, r.2) ∧ s.getS 2 = 0 ∧ s.hart.pos = 0 ∧
    r.2.copyChecks 0 s.hart.pos s.hart.team (s.getS 1) (bytesToWords 16 r.1) (s.getS 2) =
      .ok ((copyGot s).1, (copyGot s).2.1, (copyGot s).2.2) ∧ ((copyGot s).2.2.core 0).cpyq.length < 16 :=
  ⟨by decide +kernel, reads_eq (by decide +kernel), by decide +kernel, by decide +kernel, copyGot_eq (by decide +kernel),
   by decide +kernel⟩

/-- Two records in channel 0 of die 0, of four elements of eight bytes, the second of three, and the copy between them. -/
def place1 : List Word := [0x1000, 0x13, 0, 0, 8, 4, 0, 0, 0, 0, 0, 0, 0, 0, 0, 0]
def place2 : List Word := [0x2000, 0x13, 0, 0, 8, 3, 0, 0, 0, 0, 0, 0, 0, 0, 0, 0]
def copying (next : Nat) : Cmd := { copyCmd block place1 place2 0 5 0 1 none none with next := next, cmp := 2 }

/-- That command is the oldest of core 0 of die 1. -/
def engine (x : Cmd) : State :=
  { hosted with teams := [(1, teamOf [0])], cores := [(128, { cpyq := [x] })] }

/-- What the engine reads for position j, and where it writes. -/
def engineRead (s : State) (x : Cmd) (a : Word) : List Nat × State := got (s.qceRead 128 x.team a (shEs x.src)) ([], s)
theorem engineRead_eq {s : State} {x : Cmd} {a : Word} (h : (s.qceRead 128 x.team a (shEs x.src)).isOk = true) :
    s.qceRead 128 x.team a (shEs x.src) = .ok ((engineRead s x a).1, (engineRead s x a).2) := got_eq h
def engineWrite (s : State) (x : Cmd) (a : Word) : List Nat × State := got (s.qceWrite 128 x.team a (shEs x.src)) ([], s)
theorem engineWrite_eq {s : State} {x : Cmd} {a : Word} (h : (s.qceWrite 128 x.team a (shEs x.src)).isOk = true) :
    s.qceWrite 128 x.team a (shEs x.src) = .ok ((engineWrite s x a).1, (engineWrite s x a).2) := got_eq h

theorem witness_CopyEngineEvents :
    let s := engine (copying 0)
    let x := copying 0
    let r := engineRead s x 0x1010
    let w := engineWrite r.2 x 0x2010
    (s.quad 32).failed = false ∧ (s.core ((32 : QuadId) ++ ((s.quad 32).turn + (0 : BitVec 2)))).cpyq = x :: [] ∧ x.ended = false ∧
    x.col < shExt x.src 0 ∧ (∀ n : BitVec 2, ¬ n.toNat < (0 : BitVec 2).toNat) ∧ x.oob = false ∧ inside x.src [2, 0, 0, 0, 0, 0] = true ∧
    blkToSlot block = false ∧ elemAddr x.src [2, 0, 0, 0, 0, 0] = 0x1010 ∧
    s.qceRead 128 x.team 0x1010 (shEs x.src) = .ok (r.1, r.2) ∧
    inside x.dst [2, 0, 0, 0, 0, 0] = true ∧ elemAddr x.dst [2, 0, 0, 0, 0, 0] = 0x2010 ∧
    r.2.qceWrite 128 x.team 0x2010 (shEs x.src) = .ok (w.1, w.2) ∧ inside x.dst [3, 0, 0, 0, 0, 0] = false :=
  ⟨by decide +kernel, by decide +kernel, by decide +kernel, by decide +kernel, by decide +kernel, by decide +kernel, by decide +kernel,
   by decide +kernel, by decide +kernel, engineRead_eq (by decide +kernel), by decide +kernel, by decide +kernel,
   engineWrite_eq (by decide +kernel), by decide +kernel⟩

/-- A position outside the source record, inside the destination, and a failed engine. -/
theorem witness_CopyEngineEvents_pad :
    let s := engine (copying 0)
    let x := copying 0
    let w := engineWrite s x 0x2010
    inside x.src [-1, 0, 0, 0, 0, 0] = false ∧ inside x.dst [2, 0, 0, 0, 0, 0] = true ∧
    s.qceWrite 128 x.team 0x2010 (shEs x.src) = .ok (w.1, w.2) ∧
    ((s.setQuad 32 { failed := true }).quad 32).failed = true :=
  ⟨by decide +kernel, by decide +kernel, engineWrite_eq (by decide +kernel), by decide +kernel⟩

/-- The same block to slot 15, of 64-bit codes, and its command; and the rows of a `gsp` from the same record. -/
def slotBlock : List Word := block.set 0 0x5F03F
def gathering : Cmd := { copying 0 with kind := .rows 0 0x2000 1 [(0, 0)], dst := [] }

theorem witness_CopyEngineEvents_slot :
    let s := engine (copying 0)
    let x := copying 0
    let r := engineRead s x 0x1010
    blkToSlot slotBlock = true ∧ x.loose = false ∧ s.qceRead 128 x.team 0x1010 (shEs x.src) = .ok (r.1, r.2) ∧
    (let ts := tileCoords ((List.range 6).map (blkTl slotBlock)) 2
     let cd : List Int := (ts.zip (List.range 6)).map fun (t, d) => blkDst slotBlock d + t
     0 ≤ cd.getD 1 0 ∧ cd.getD 1 0 < (2048 / slotWidth (blkCtl slotBlock 17 4) (shEs x.src) : Nat) ∧ 0 ≤ cd.getD 0 0 ∧ cd.getD 0 0 < 64) :=
  ⟨by decide +kernel, by decide +kernel, engineRead_eq (by decide +kernel), by decide +kernel⟩

theorem witness_CopyEngineEvents_rows :
    let s := engine gathering
    let x := gathering
    let r := engineRead s x (elemAddr x.src [(x.col : Int), (0 : Int)])
    let w := engineWrite r.2 x 0x2000
    0 < shExt x.src 1 ∧ s.qceRead 128 x.team (elemAddr x.src [(x.col : Int), (0 : Int)]) (shEs x.src) = .ok (r.1, r.2) ∧
    r.2.qceWrite 128 x.team 0x2000 (shEs x.src) = .ok (w.1, w.2) ∧ shExt x.src 1 ≤ 9 ∧
    (∃ u, s.qceWrite 128 x.team 0x2000 (shEs x.src) = .ok u) :=
  ⟨by decide +kernel, engineRead_eq (by decide +kernel), engineWrite_eq (by decide +kernel), by decide +kernel,
   _, engineWrite_eq (by decide +kernel)⟩

theorem witness_CopyEngineEvents_staged :
    (([(0x2000, [(0x2000, 1), (0x2001, 2)])] : List (Word × List Host.Cell)).flatMap Prod.snd).map Prod.fst = [0x2000, 0x2001] ∧
    [0x2000, 0x2001].Nodup := by decide

theorem witness_CopyCompletes :
    let s := engine (copying 4)
    let x := copying 4
    (s.core 128).cpyq = x :: [] ∧ x.ended = true ∧ (x.cmp.getLsbD 1 = true → (s.core 128).cres.length < 64) ∧ (s.core 128).launch = [] ∧
    (∀ n ∈ (s.core 128).nodes, nodeKind (n.2.desc.getD []) ≠ 1) ∧ x.node = none := by decide +kernel

theorem witness_CopyCompletes_slot :
    let x : Cmd := { copying 4 with kind := .copy slotBlock 0 }
    let s := (engine x).setCore 128 { (engine x).core 128 with
      slots := (Vector.replicate 16 {}).set 15 { st := .filling, copies := 1, maxKr := 4, maxN := 1 } }
    (s.core 128).cpyq = x :: [] ∧ x.ended = true ∧ blkToSlot slotBlock = true ∧ x.loose = false ∧ x.src ≠ [] ∧
    blkCtl slotBlock 13 4 = 15 ∧ ((s.core 128).slot 15).st = .filling ∧ 0 < ((s.core 128).slot 15).copies := by decide +kernel

theorem witness_ReadAheadAndLeases :
    binder.distinct ∧ ∃ b, (binder.hartAt 0).b.get (7 : BitVec 3).toFin = some b ∧ b.ahead.length < 4 ∧ b.ahead.length < b.count.toNat ∧
      (binder.hartAt 0).b.get (0 : BitVec 3).toFin = none :=
  ⟨by decide +kernel, ⟨30, 0, 0, 3, 0, 0, 0, 0, 1, false, 0, []⟩, by decide +kernel⟩

/-- The strip to be read ahead lies where an outstanding store of the hart has still to write, or not. -/
theorem witness_ReadAheadAndLeases_behind :
    let s := bound (strip 3 1)
    let b := strip 3 1
    let t : State := { s with hart := { s.hart with nb := [{ access with kind := .store, items := [(⟨0, [b.base]⟩, some [(land s .load b.base 4).1.keys])] }] } }
    s.distinct ∧ (s.hartAt 0).b.get (7 : BitVec 3).toFin = some b ∧ b.ahead.length < 4 ∧ b.ahead.length < b.count.toNat ∧
    (s.select 0).stripBehind b [] ((s.select 0).stripItems (forUpTo b.ahead.length (fun _ y => y.advance) b)) = false ∧
    t.distinct ∧ (t.hartAt 0).b.get (7 : BitVec 3).toFin = some b ∧
    (t.select 0).stripBehind b [] ((t.select 0).stripItems (forUpTo b.ahead.length (fun _ y => y.advance) b)) = true := by decide +kernel

/-- A request for the sum of one integer in a group of one, and its descriptor. -/
def request : List Word := [0, 0x1000, 0, 1, 0x1100, 0x1108, 0, 0, 0, 0, 0, 0, 0, 0, 0, 0]
def groupDesc : List Word := [0x51, 0x40000000000, 0, 0x1040]

/-- Collective ring 63 of context 0 holds the request at its last slot. -/
def collRinged : State :=
  let s := (hosted.setReg (ioDie 0) (0x100000 + 504) 0xF001).setReg (ioDie 0) (0x90000 + 16) 0x8000000000000000
  written (written (written s 0xF000 [16, 15, 0x1004, 0, 0, 0]) (0xF000 + 128 + 128 * 15) request) 0x1000 groupDesc

/-- Words that the collective engine reads. -/
def collGot (s : State) (a : Word) (n : Nat) : List Word := got (s.collRead 0 0 a n) []
def collMoved : State := (collRinged.collWrite 0 0 0xF008 16).getD collRinged

theorem witness_CollectiveRingAccepted :
    let h := collGot collRinged 0xF000 6
    let w := collGot collRinged (0xF000 + 2048) 16
    let d := collGot collMoved 0x1000 4
    bit (collRinged.reg (ioDie 0) (0x100000 + 504)) 0 = true ∧ bit (collRinged.ctxReg 0 0 16) 63 = true ∧
    collRinged.clocksStopped 0 = false ∧
    collRinged.collRead 0 0 0xF000 6 = .ok h ∧ ringCfgOk (wordAt h 2) 0xFFFFFFFFFFFFEFE0 = true ∧ bit (wordAt h 5) 0 = false ∧
    bit (wordAt h 2) 12 = true ∧ wordAt h 0 ≠ wordAt h 1 ∧ (wordAt h 0 - wordAt h 3).toNat ≤ 2 ^ bits (wordAt h 2) 0 5 ∧
    collRinged.collRead 0 0 (0xF000 + 2048) 16 = .ok w ∧ collRinged.collWrite 0 0 0xF008 16 = some collMoved ∧
    requestBad w = false ∧ wordAt w 1 = 0x1000 ∧ collMoved.collRead 0 0 0x1000 4 = .ok d ∧ descriptorBad d = false ∧
    entryAddr (wordAt d 3) (groupOf d).rank.toNat = 0x1040 ∧ (∃ e, collMoved.collRead 0 0 0x1040 1 = .ok e) ∧
    collMoved.requests = [] :=
  ⟨by decide +kernel, by decide +kernel, by decide +kernel, got_eq (by decide +kernel), by decide +kernel, by decide +kernel, by decide +kernel,
   by decide +kernel, by decide +kernel, got_eq (by decide +kernel), some_eq (by decide +kernel), by decide +kernel,
   by decide +kernel, got_eq (by decide +kernel), by decide +kernel, by decide +kernel,
   ⟨_, got_eq (d := []) (by decide +kernel)⟩, by decide +kernel⟩

/-- That request outstanding, of a member of a group of one or of two. -/
def outstanding (d : List Word) : State :=
  let s := written hosted 0x1000 d
  s.setPkg 0 { s.pkg 0 with reqs := [{ asid := 0, base := 0xF000, n := 15, ln := 4, req := request, desc := d, opened := true, batch := 0 }] }

/-- The only member's share. -/
def shareGot : List Share :=
  ((outstanding groupDesc).instanceRequests (0x51, 0)).map fun x => got ((outstanding groupDesc).shareOf x.1 x.2) ⟨[], [], [], []⟩

theorem witness_CollectiveRequestsComplete :
    let s := outstanding groupDesc
    let xs := s.instanceRequests (0x51, 0)
    (∀ x ∈ xs, s.groupLost x.1 x.2.asid (wordAt x.2.desc 3) x.2.members = false) ∧ fullSet xs = true ∧ s.requestsAgree xs = true ∧
    (0x51, 0) ∈ s.started ∧ xs.map (fun x => s.shareOf x.1 x.2) = shareGot.map Except.ok ∧
    (shareGot.flatMap fun z => (z.dst ++ z.out).flatten).Nodup ∧ 0 < reqCount request ∧
    fullSet ((outstanding [0x51, 0x40000200000, 0, 0x1040]).instanceRequests (0x51, 0)) = false := by
  refine ⟨by decide +kernel, by decide +kernel, by decide +kernel, by decide +kernel, ?_, by decide +kernel, by decide +kernel,
    by decide +kernel⟩
  have e : (outstanding groupDesc).instanceRequests (0x51, 0) =
      [(0, { asid := 0, base := 0xF000, n := 15, ln := 4, req := request, desc := groupDesc, opened := true, batch := 0 })] := by
    decide +kernel
  rw [shareGot, e]
  exact congrArg (· :: []) (got_eq (d := ⟨[], [], [], []⟩) (by decide +kernel))

theorem witness_CollectiveRequestsComplete_disagree :
    let d : List Word := [0x51, 0x40000200001, 0, 0x1040]
    let s := outstanding groupDesc
    let s := s.setPkg 1 { (outstanding d).pkg 0 with step := 7 }
    fullSet (s.instanceRequests (0x51, 0)) = true ∧ s.requestsAgree (s.instanceRequests (0x51, 0)) = false := by decide +kernel

/-- A team of that group has failed. -/
theorem witness_CollectiveRequestsComplete_lost :
    let s : State := { written (outstanding groupDesc) 0x1040 [0x100000000] with failedTeams := [⟨1, [0, 1]⟩] }
    let xs := s.instanceRequests (0x51, 0)
    xs ≠ [] ∧ ∀ x ∈ xs, s.groupLost x.1 x.2.asid (wordAt x.2.desc 3) x.2.members = true := by decide +kernel

/-- A flit of a type and class from die 1 to die 0 of package 0, with SEQ, one record of eight bytes at an address; of an
atomic the operation is `add`. -/
def flit (type : Nat) (c : BitVec 3) (seq : BitVec 32) (a : Nat) : Flit :=
  Flit.make type c 1 0 0 seq 0 0x100 0 (natToBytes 8 a ++ if type = 0 then [] else natToBytes 8 7)

/-- The state as that flit is performed, and where its record lands. -/
def flitState (f : Flit) : State :=
  let a := hosted.acked f
  let k := streamKey f.src f.dst f.cls
  a.setStream k { a.stream k with expect := (a.stream k).expect + 1 }
def flitGot (f : Flit) : List (Word × Place × List Byte) × State := got ((flitState f).flitPlaces f f.records) ([], hosted)
theorem flitGot_eq {f : Flit} (h : ((flitState f).flitPlaces f f.records).isOk = true) :
    (flitState f).flitPlaces f f.records = .ok ((flitGot f).1, (flitGot f).2) := got_eq h

/-- A request flit of a hart, in the class of its traffic, taken and next in its stream, whose record lands at the end of the page. -/
def performed (f : Flit) (n : Nat) : Bool :=
  let a := hosted.acked f
  let x := a.stream (streamKey f.src f.dst f.cls)
  f.type == n && f.intact && f.classOk && hosted.present (pkgOfDie f.dst) (pkgOfDie f.src) &&
  !(hosted.die f.src).failed && decide (x.replay.length < 4096) && !a.awaitsBurup f && f.seq == x.expect &&
  x.held.isEmpty && ((flitState f).flitPlaces f f.records).isOk && (flitGot f).1.length == 1 &&
  decide ((flitGot f).1.flatMap fun z => z.2.1.keys).Nodup &&
  (flitGot f).1.all fun z => z.2.1.space != .regs && z.2.1.keys.length == f.width && (n != 1 || z.2.2.length == f.width)

theorem witness_DernyRequests : performed (flit 0 2 0 0xFFF8) 0 = true ∧ performed (flit 1 3 0 0xFFF8) 1 = true ∧
    performed (flit 2 3 0 0xFFF8) 2 = true ∧ Flit.intact 0 = false :=
  ⟨by decide +kernel, by decide +kernel, by decide +kernel, by decide +kernel⟩

/-- A write of a register that Burup serves, while it reloads. -/
theorem witness_DernyRequests_blocked :
    let f := flit 1 2 0 (homeKey (ioDie 0) true 36 0xE4000)
    let s := hosted.setPkg 0 { hosted.pkg 0 with reload := true }
    let x := (s.acked f).stream (streamKey f.src f.dst f.cls)
    (f.intact && f.classOk && f.seq == x.expect && (s.acked f).awaitsBurup f && x.held.isEmpty) = true := by decide +kernel

/-- One that has been performed, with its response; one ahead of its turn; one of a class of responses; one beyond the page;
and one at a register of a die that the pod does not have. -/
theorem witness_DernyRequests_others :
    (let f := flit 1 2 0 0xFFF8
     let k := streamKey f.src f.dst f.cls
     let r := Flit.make 4 1 0 1 0 0 0 0 0 []
     let s := hosted.setStream k { expect := 1, replay := [(0, r)] }
     let x := (s.acked f).stream k
     f.intact = true ∧ f.seq ≠ x.expect ∧ covers (x.expect - 1) f.seq = true ∧
       x.replay.find? (fun z => z.1 == f.seq) = some (f.seq, r)) ∧
    (let f := flit 0 3 1 0xFFF8
     let x := (hosted.acked f).stream (streamKey f.src f.dst f.cls)
     (f.intact && f.seq != x.expect && !covers (x.expect - 1) f.seq && x.held.isEmpty) = true) ∧
    (let f := flit 0 1 0 0xFFF8
     f.intact = true ∧ f.classOk = false) ∧
    (let f := flit 0 2 0 0x10000
     ∃ e, (flitState f).flitPlaces f f.records = .error e) ∧
    (let f := flit 0 2 0 0x10000
     ∃ d, (flitState f).check { master := originMaster f.origin, team := 0, acc := .load, bank := 0, vector := f.cls != 2 } 0x10000 f.width =
       .error d) :=
  ⟨by decide +kernel, by decide +kernel, by decide +kernel, error_of (by decide +kernel), error_of (by decide +kernel)⟩

/-- A flit of that type and class is next in its stream. -/
def nextIn (n : Nat) (c : BitVec 3) : Bool :=
  let f := Flit.make n c 1 0 0 0 0 0 0 []
  let x := (hosted.acked f).stream (streamKey f.src f.dst f.cls)
  f.intact && hosted.present (pkgOfDie f.dst) (pkgOfDie f.src) && f.type == n && f.cls == c && f.seq == x.expect && x.held.isEmpty

theorem witness_DernyControl : nextIn 3 1 = true ∧ nextIn 4 1 = true ∧ nextIn 9 7 = true ∧ nextIn 8 6 = true ∧
    nextIn 5 0 = true ∧ nextIn 6 0 = true ∧ nextIn 7 0 = true :=
  ⟨by decide +kernel, by decide +kernel, by decide +kernel, by decide +kernel, by decide +kernel, by decide +kernel, by decide +kernel⟩

/-- A flit damaged on the way; one of another type, or class. -/
theorem witness_DernyControl_others :
    Flit.intact 0 = false ∧ (Flit.make 5 1 1 0 0 0 0 0 0 []).intact = true ∧ (Flit.make 5 1 1 0 0 0 0 0 0 []).type ≠ 6 ∧
    (Flit.make 5 1 1 0 0 0 0 0 0 []).cls ≠ 0 := by decide +kernel

/-- The package manager of package 0, and its host. -/
def burup : Origin := ⟨8, 240, 0⟩
def theHost : Origin := ⟨8, 241, 0⟩

theorem chanters_up (n : Nat) (h : n < 8) :
    let s := (List.range 8).foldl (fun s d => State.setDie s (dieAt 0 d) { chanter := { up := true } }) hosted
    (s.die (dieAt 0 n)).chanter.up = true := by
  revert n; decide +kernel

theorem witness_PodCircuits :
    hosted.podArm 0 = false ∧ hosted.mayStore burup (ioDie 0) (0x20000 + 8 * 255) = true ∧ hosted.mayStore burup (ioDie 0) 0x21000 = true ∧
    hosted.mayStore theHost (ioDie 0) 0x21000 = false ∧ bit (0x201 : Word) 9 = true ∧ hosted.chantersUp 0 = false ∧
    (let s := (List.range 8).foldl (fun s d => State.setDie s (dieAt 0 d) { chanter := { up := true } }) hosted
     s.podArm 0 = false ∧ s.chantersUp 0 = true) ∧
    (hosted.setReg (ioDie 0) 0x21008 2).podArm 0 = true ∧ bit ((hosted.setReg (ioDie 0) 0x21008 1).reg (ioDie 0) 0x21008) 0 = true ∧
    bit (hosted.reg (ioDie 0) 0x21008) 0 = false ∧ hosted.teams = [] := by decide +kernel

/-- A pod of two packages, a port lit from the first to the second, with a flit on its way. -/
theorem witness_PodCircuits_circuit :
    let f := flit 0 2 0 0xFFF8
    let s := (((hosted.setReg (ioDie 0) 0x80008 3).setReg (ioDie 0) 0x20800 0x201).setStream (streamKey 0 16 2) { sent := [f] }).setReg (ioDie 0) 0x21008 2
    s.podArm 0 = true ∧ pkgOfDie 0 = 0 ∧ pkgOfDie 16 ≠ 0 ∧ s.circuit 0 (pkgOfDie 16) = true ∧ (s.stream (streamKey 0 16 2)).sent = [f] ∧
    bit (s.reg (ioDie 0) 0x20800) 9 = true := by decide +kernel

theorem witness_LostPackages :
    let s := State.reset.setReg (ioDie 0) 0x80008 3
    (0 : PkgId) ≠ 1 ∧ (s.pkg 0).reload = false ∧ s.present 0 1 = true ∧ ((s.setPkg 0 { reload := true }).pkg 0).reload = true := by
  decide +kernel

theorem witness_EventLog : (State.reset.pkg (pkgOfDie 8)).reload = false ∧
    ((State.reset.setPkg 0 { reload := true }).pkg (pkgOfDie 8)).reload = true := by decide +kernel

/-- Module 11 of die 0 with a control word and a state. -/
def moduleIn (ctl sts : Word) : State := (hosted.setReg 0 (ulOff 11) ctl).setReg 0 (ulOff 11 + 8) sts

/-- That module under the hardware sequence, or with a window. -/
def moduleAuto (sts : Word) : State := (moduleIn 0x20 sts).setDie 0 { (moduleIn 0x20 sts).die 0 with auto := [11] }
def moduleWindow (ctl : Word) (w : Word × Nat) : State :=
  (moduleIn ctl 2).setDie 0 { (moduleIn ctl 2).die 0 with window := [(11, w)], moved := [11] }

theorem witness_UcieModules :
    (11 : BitVec 4).toNat < 12 ∧
    (let s := moduleIn 0 2
     s.mayStore burup 0 (ulOff 11) = true ∧ s.ulAuto 0 11 = false ∧ s.ulState 0 11 = 2 ∧ bit (2 : Word) 1 = true) ∧
    (let s := moduleIn 0 4
     s.ulAuto 0 11 = false ∧ s.ulState 0 11 = 4 ∧ bit (4 : Word) 2 = true ∧ bit (0 : Word) 1 = false ∧ bit (0 : Word) 2 = false ∧
     11 ∉ (s.die 0).moved) ∧
    (moduleAuto 3).ulAuto 0 11 = true ∧ (moduleAuto 3).mayStore burup 0 (ulOff 11) = true ∧
    (moduleIn 2 3).ulState 0 11 = 3 ∧ (moduleIn 0 5).ulState 0 11 = 5 ∧ (moduleAuto 5).ulState 0 11 = 5 ∧
    (moduleIn 0 2).mayStore theHost 0 (ulOff 11) = false ∧
    (let c : Word := 0x0000000100010020
     bits c 16 16 ≠ 0 ∧ bits c 32 8 ≠ 0 ∧ bit c 5 = true ∧ (moduleWindow c (0, 1)).reg 0 (ulOff 11) = c ∧
     ((moduleWindow c (0, 1)).die 0).window.find 11 = some (0, 1) ∧ bits c 16 16 ≤ 1 ∧
     (moduleWindow c (0, 1)).ulState 0 11 = 2 ∧ ((moduleWindow c (0, 0)).die 0).window.find 11 = some (0, 0) ∧ 0 < bits c 16 16 ∧
     ((moduleIn c 2).die 0).window.find 11 = none ∧ 11 ∈ ((moduleWindow c (0, 1)).die 0).moved) ∧
    bit (0x0000000100010000 : Word) 5 = false ∧ ((moduleIn 0 2).pkg 0).reload = false := by decide +kernel

/-- The window of a retry is still open: the time base cannot pass its first tick, on which a team has agreed. -/
theorem witness_UcieModules_window :
    let s : State := { moduleWindow 0x0000000100010020 (0, 1) with teams := [(2, { gang with id := 2, start := 9, committed := true })] }
    (s.die 0).window.find 11 = some (0, 1) ∧ (s.passTime.now - 0).toNat < 1000 * bits (0x0000000100010020 : Word) 32 8 := by
  refine ⟨by decide +kernel, ?_⟩
  have h := State.passTime_le_start
    { moduleWindow 0x0000000100010020 (0, 1) with teams := [(2, { gang with id := 2, start := 9, committed := true })] }
    (2, { gang with id := 2, start := 9, committed := true }) (by simp) rfl rfl (by decide +kernel)
  exact Nat.lt_of_le_of_lt (Nat.le_of_eq (congrArg BitVec.toNat (BitVec.sub_zero _))) (Nat.lt_of_le_of_lt h (by decide))

/-- A retraining that trains, with a lane failed; and one that does not. -/
theorem witness_UcieModules_trains :
    trains 0 0 false false = true ∧ trains 1 0 false false = true ∧ trains 0xFFFFFFFF 0 false false = false ∧
    (0 : Nat) ∉ (State.reset.die 0).moved := by decide +kernel

/-- Packet port 7 of package 0 with a status. -/
def portIn (x : Word) : State := State.reset.setReg (ioDie 0) (ppOff 7) x

theorem witness_PortsAndHostLink :
    (bits ((portIn 2).reg (ioDie 0) (ppOff 7)) 0 2 = 2 ∧ bit ((portIn 2).reg (ioDie 0) (ppOff 7)) 7 = false) ∧
    bits ((portIn 3).reg (ioDie 0) (ppOff 7)) 0 2 = 3 ∧
    (bits ((portIn 0x82).reg (ioDie 0) (ppOff 7)) 0 2 ≠ 0 ∧ bit ((portIn 0x82).reg (ioDie 0) (ppOff 7)) 7 = true) ∧
    ((State.reset.setPkg 0 { hostUp := true }).pkg 0).hostUp = true ∧ 4 ≤ (hosted.pkg 0).step ∧
    (State.reset.pkg 0).step < 4 := by decide +kernel

/-- Group 11 of die 0, and group 3, under EN, two of whose wavelengths the pod's first port lights. -/
theorem witness_Wavelengths :
    State.reset.waveGroupOk 0 11 = true ∧ State.reset.waveGroupOk 0 3 = true ∧
    (let x := State.reset.waves 0 11
     (7 : BitVec 4).toNat < 8 ∧ (7 : BitVec 4) ∉ x.failed ∧ (8 : BitVec 4) ∉ x.failed ∧ x.spare = false ∧ x.failed.length < 8) ∧
    (let s := State.reset.setWaves 0 11 { spare := true, failed := [0, 1, 2, 3, 4, 5, 6, 8], serves := 0, parked := [] }
     (7 : BitVec 4).toNat ≤ 8 ∧ (7 : BitVec 4) ∉ (s.waves 0 11).failed ∧ (s.waves 0 11).spare = true ∧
     8 ≤ (s.waves 0 11).failed.length ∧ (s.waves 0 11).awake.filter (· != 7) = []) ∧
    (let s := State.reset.setReg 0 0x31000 0x100000000
     bit (s.reg 0 0x31000) 32 = true ∧ (7 : BitVec 4).toNat ∈ (s.waves 0 11).awake ∧
     (s.waves 0 11).awake.filter (· != (7 : BitVec 4).toNat) ≠ []) ∧
    bit (State.reset.reg 0 0x31000) 32 = false := by decide +kernel

theorem witness_Wavelengths_port :
    let s := ((State.reset.setReg 0 0x31000 0x100000000).setReg (ioDie 0) 0x20800 0x201).setReg (ioDie 0) 0x20808 0x201
    let x := s.waves 0 0
    bit (s.reg 0 0x31000) 32 = true ∧ (1 : BitVec 4).toNat ∈ x.awake ∧ (s.lit 0 0 1).isSome = true ∧
    ∃ v ∈ x.awake.filter (· != 1), s.lit 0 0 (x.wave v) = s.lit 0 0 1 :=
  ⟨by decide +kernel, by decide +kernel, by decide +kernel, 0, by decide +kernel, by decide +kernel⟩

/-- Under EN the first wavelengths of two dies of package 0 are lit to package 1. -/
theorem witness_Wavelengths_path :
    let s := ((State.reset.setReg 0 0x31000 0x100000000).setReg (ioDie 0) 0x20800 0x201).setReg (ioDie 0) (0x20800 + 8 * 32) 0x201
    bit (s.reg 0 0x31000) 32 = true ∧ (0 : BitVec 4).toNat ∈ (s.waves 0 0).awake ∧ (s.lit 0 0 0).isSome = true ∧
    1 < s.computeDies (pkgOfDie 0) ∧ 0 ∈ (s.waves (dieAt 0 1) 0).awake ∧ (dieAt 0 1, 0, 0) ≠ ((0 : DieId), 0, 0) ∧
    s.lit (dieAt 0 1) 0 ((s.waves (dieAt 0 1) 0).wave 0) = s.lit 0 0 0 := by decide +kernel

theorem witness_ChanterReset :
    ((State.reset.setDie 0 { chanter := { up := true } }).die 0).chanter.up = true ∧
    ((hosted.die 0).chanter.up = false ∧ (hosted.die 0).chanter.stuck = false ∧ (hosted.die 0).chanter.held = false ∧
      3 ≤ (hosted.pkg 0).step ∧ (hosted.pkg 0).boot.chanter.signer = (hosted.pkg 0).boot.keyHash ∧
      (hosted.pkg 0).boot.chanter.signed = (hosted.pkg 0).boot.chanter.digest) ∧
    (let b : Boot := { chanter := { signed := 1 } }
     ¬ b.chanter.signed = b.chanter.digest) ∧
    (let c : Chanter := { up := false, last := [10000000000, 5, 1] }
     c.stuck = true) := by decide +kernel

theorem witness_ZoneSensors :
    (145 : BitVec 8).toNat < 146 ∧ (State.reset).teamsKeyed ∧ bit (State.reset.zoneEv 0 145) 0 = false ∧
    (109 : BitVec 8).toNat < 110 ∧ 110 ≤ (110 : BitVec 8).toNat ∧
    (let s : State := { hosted with teams := [(1, teamOf [0])] }
     s.teamsKeyed ∧ teamOf [0] ∈ s.zoneTeams 0 0 ∧ s.team (teamOf [0]).id = some (teamOf [0]) ∧ (teamOf [0]).status = 0) ∧
    (let s : State := { hosted with teams := [(1, { teamOf [0] with st := .placed })] }
     { teamOf [0] with st := .placed } ∈ s.zoneTeams 0 0 ∧ s.team 1 = some { teamOf [0] with st := .placed } ∧
     (0 : HartId) ∈ ({ teamOf [0] with st := .placed } : Team).coming) ∧
    State.reset.evacuating 0 = false := by decide +kernel

theorem witness_CoolantEvents :
    (let s := State.reset.setReg (ioDie 0) (zoneOff 127) 0x102
     s.moving 0 127 = true ∧ s.zreq 0 127 ≤ s.cls 0 127) ∧
    (let s := State.reset.setReg (ioDie 0) (zoneOff 127) 0x2002
     s.moving 0 127 = true ∧ s.cls 0 127 < s.zreq 0 127 ∧
     bits (s.reg (ioDie 0) (zoneOff 127 + 16)) 24 16 < 10 * (3 * s.zreq 0 127 + 3) ∧
     10 * (3 * s.zreq 0 127 + 3) ≤ bits (0x5A000000 : Word) 24 16) ∧
    (hosted.pkg 0).reload = false ∧ hosted.mayStore burup (ioDie 0) 0xE4000 = true ∧ hosted.mayStore theHost (ioDie 0) 0xE4000 = false ∧
    hosted.mayStore burup (ioDie 0) (zoneOff 145 + 8) = true ∧ hosted.mayStore burup (ioDie 0) (zoneOff 145 + 24) = true ∧
    (let x : Word := 0x0000006400326932
     bits x 0 8 < bits x 8 8 ∧ bits x 8 8 ≤ 105 ∧ bits x 16 16 < bits x 32 16) ∧
    (let x : Word := 0x0000006400326A32
     ¬ (bits x 0 8 < bits x 8 8 ∧ bits x 8 8 ≤ 105 ∧ bits x 16 16 < bits x 32 16)) ∧ State.reset.teamsKeyed := by decide +kernel

theorem witness_CoolantEvents_grant :
    let y : Team := { teamOf [0] with flow := some (0, 0) }
    let s : State := { hosted with teams := [(1, y)] }
    s.team 1 = some y ∧ y.id = 1 ∧ y.st = .running ∧
    (∀ p ∈ y.pkgs, ∀ k ∈ y.zones p, (0 : BitVec 4).toNat ≤ s.cls p k ∧ s.moving p k = false) := by
  refine ⟨by decide +kernel, by decide +kernel, by decide +kernel, fun p m k l => ?_⟩
  have e : Team.pkgs { teamOf [0] with flow := some (0, 0) } = [0] := by decide +kernel
  have z : Team.zones { teamOf [0] with flow := some (0, 0) } 0 = [0] := by decide +kernel
  rw [e] at m; rw [List.mem_singleton.mp m, z] at l
  rw [List.mem_singleton.mp m, List.mem_singleton.mp l]; decide +kernel

/-- Package 0, an RLD-M8, in a phase of its evacuation. -/
def leavingIn (phase : Word) : State :=
  (hosted.setPkg 0 { hosted.pkg 0 with form := .m8 }).setReg (ioDie 0) 0xE4010 phase

theorem witness_Evacuation :
    ((leavingIn 0).pkg 0).form = .m8 ∧ (hosted.pkg 0).form ≠ .m8 ∧ ((leavingIn 0).pkg 0).reload = false ∧
    (leavingIn 0).mayStore burup (ioDie 0) 0xE4008 = true ∧ (leavingIn 0).mayStore theHost (ioDie 0) 0xE4008 = false ∧
    (leavingIn 0).evacuating 0 = false ∧ (leavingIn 1).evacuating 0 = true ∧ bits ((leavingIn 1).reg (ioDie 0) 0xE4010) 0 4 = 1 ∧
    (leavingIn 5).evacuating 0 = true ∧ bits ((leavingIn 5).reg (ioDie 0) 0xE4010) 0 4 = 5 ∧
    (leavingIn 4).evacuating 0 = true ∧ bits ((leavingIn 4).reg (ioDie 0) 0xE4010) 0 4 = 4 ∧
    ((List.range 146).filter fun z => !bit ((leavingIn 5).reg (ioDie 0) (zoneOff z + 16)) 40).length ≠ 0 ∧
    (let s := (List.range 146).foldl (fun s z => s.setReg (ioDie 0) (zoneOff z + 16) 0x10000000000) (leavingIn 5)
     s.evacuating 0 = true ∧ ((List.range 146).filter fun z => !bit (s.reg (ioDie 0) (zoneOff z + 16)) 40).length = 0) := by
  decide +kernel

theorem witness_Evacuation_peers : ∀ q, ((leavingIn 1).pkg q).reload = false := by decide +kernel

/-- A zone that the package has, and one that it has not. -/
theorem witness_ZoneSensors_held :
    State.reset.zoneHeld 0 145 = true ∧ State.reset.zoneHeld 0 127 = true ∧ State.reset.zoneHeld 0 146 = false ∧
    (hosted.setPkg 0 { hosted.pkg 0 with form := .d1 0 }).zoneHeld 0 16 = false ∧
    (leavingIn 5).evacuating 0 = true ∧
    (teamOf [0]).holding = [0] ∧ (hosted.quad (quadOf (coreOf 0))).halted = false ∧ (dieInPkg (dieOf 0)).toNat < hosted.computeDies 0 ∧
    zoneCovers 0 (dieInPkg (dieOfQuad (quadOf (coreOf 0)))).toNat ((quadOf (coreOf 0)).toNat % 32) = true := by decide +kernel

/-- Evacuations that have been refused, have failed, or have ended. -/
theorem witness_Evacuation_phases :
    bits ((leavingIn 7).reg (ioDie 0) 0xE4010) 0 4 = 7 ∧ bits ((leavingIn 8).reg (ioDie 0) 0xE4010) 0 4 = 8 ∧
    bits ((leavingIn 6).reg (ioDie 0) 0xE4010) 0 4 = 6 ∧
    ((List.range 146).filter fun z => (leavingIn 5).zoneHeld 0 z && !bit ((leavingIn 5).reg (ioDie 0) (zoneOff z + 16)) 40).length = 146 := by
  decide +kernel

theorem witness_PartFailures : crew.distinct ∧ crew.teamsKeyed ∧ (crew.teams.map Prod.fst).Nodup ∧ (crew.die 0).spare = false ∧
    ((crew.setDie 0 { spare := true }).die 0).spare = true ∧ teamOf [0] ∈ crew.teamList ∧
    (0 : HartId) ∈ (teamOf [0]).holding := by decide +kernel

/-- Channel 63 of die 7 rotates, at a line. -/
def rotating (line : Word) : State :=
  (State.reset.setReg 7 (scrubOff 63 + 16) 1).setReg 7 (scrubOff 63 + 8) line

theorem eraseDups_nodup {l : List Nat} (h : l.Nodup) : l.eraseDups = l := by
  induction l with
  | nil => rfl
  | cons a l ih =>
    obtain ⟨h1, h2⟩ := List.nodup_cons.mp h
    rw [List.eraseDups_cons, List.filter_eq_self.mpr, ih h2]
    intro b hb
    simpa using fun e : b = a => h1 (e ▸ hb)

/-- Every line of channel 63 of die 7 but the last has been taken. -/
def scrubbedBut (xs : List Nat) : State := State.reset.setDie 7 { scrubbed := [(63, xs)] }

theorem witness_PatrolScrub_whole :
    let s := scrubbedBut (List.range 0x1FFFFFF)
    (s.die 7).failed = false ∧
    ((0x1FFFFFF : BitVec 25).toNat :: ((s.die 7).scrubbed.getD 63 [])).eraseDups.length = channelLines := by
  refine ⟨rfl, ?_⟩
  have e : ∀ xs, ((scrubbedBut xs).die 7).scrubbed.getD 63 [] = xs := fun _ => rfl
  have n : (0x1FFFFFF :: List.range 0x1FFFFFF).Nodup := by
    rw [List.nodup_cons]; exact ⟨by simp, List.nodup_range⟩
  show (0x1FFFFFF :: ((scrubbedBut (List.range 0x1FFFFFF)).die 7).scrubbed.getD 63 []).eraseDups.length = channelLines
  rw [e, eraseDups_nodup n, List.length_cons, List.length_range]
  decide

theorem witness_PatrolScrub :
    bit (State.reset.reg 7 (scrubOff 63 + 16)) 0 = false ∧ State.reset.rowBusy 7 63 0x1FFFFFF = false ∧
    (State.reset.die 7).failed = false ∧ ([0x1FFFFFF] : List Nat).eraseDups.length ≠ channelLines ∧
    (bit ((rotating 0x1FFFFFF).reg 7 (scrubOff 63 + 16)) 0 = true ∧
      (0x1FFFFFF : BitVec 25).toNat = ((rotating 0x1FFFFFF).reg 7 (scrubOff 63 + 8)).toNat ∧
      (0x1FFFFFE : BitVec 25).toNat ≠ ((rotating 0x1FFFFFF).reg 7 (scrubOff 63 + 8)).toNat) ∧
    (let s := State.reset.setDie 7 { rows := [(8 * 63 + 7, { row := some 0x1FFFFF, team := 1 })] }
     s.rowBusy 7 63 0x1FFFFFF = true ∧
     (let s := s.setDie 7 { s.die 7 with bounces := [63] }
      s.linePinned 7 63 0x1FFFFFF = true ∧ s.rowBusy 7 63 0x1FFFFFF = false)) ∧
    ((List.range (State.reset.computeDies 0)).flatMap fun e => (List.range 64).map fun c => (dieAt 0 e, scrubOff (BitVec.ofNat 6 c))).all
      (fun c => !bit (State.reset.reg c.1 (c.2 + 16)) 0) = true ∧
    ((List.range ((rotating 0).computeDies 0)).flatMap fun e => (List.range 64).map fun c => (dieAt 0 e, scrubOff (BitVec.ofNat 6 c))).any
      (fun c => bit ((rotating 0).reg c.1 (c.2 + 16)) 0) = true := by decide +kernel

theorem witness_ErrorsAndRepair :
    State.reset.rowBusy 7 63 0x1FFFFFF = false ∧
    (let s := State.reset.setDie 7 { corrected := [(rowKey 63 63 0x1FFFF, 3)], repairs := [(63 * 64 + 63, 16)] }
     3 ≤ (s.die 7).corrected.getD (rowKey 63 63 0x1FFFF) 0 ∧ 16 ≤ (s.die 7).repairs.getD (63 * 64 + 63) 0) ∧
    (State.reset.die 7).corrected.getD (rowKey 63 63 0x1FFFF) 0 < 3 ∧ (State.reset.die 7).repairs.getD (63 * 64 + 63) 0 < 16 := by
  decide +kernel

/-- A checkpoint image of package 0 at the start of appliance 0, and an operation that runs on it. -/
def anImage (torn : List (Nat × Nat)) : TierImage :=
  { dest := 0, pkg := 0, size := 64, bytes := [(5, 1)], poison := [], keys := [], torn := torn }
def operating (restore : Bool) (torn : List (Nat × Nat)) : State :=
  let s := hosted.setReg (ioDie 0) 0x81010 1
  { s.setPkg 0 { s.pkg 0 with op := some ⟨0, restore, true⟩ } with tier := [anImage torn] }

theorem witness_CheckpointAndRestore :
    bit (hosted.ckctl 0) 0 = false ∧ bit (2 : Word) 1 = true ∧ bit (2 : Word) 2 = false ∧ bit (6 : Word) 2 = true ∧
    hosted.mayStore burup (ioDie 0) 0x81000 = true ∧ hosted.mayStore theHost (ioDie 0) 0x81000 = false ∧
    bit ((hosted.setReg (ioDie 0) 0x81000 1).ckctl 0) 0 = true ∧
    (hosted.teamsWith 0 || hosted.ringEnabled 0) = false ∧ (crew.teamsWith 0 || crew.ringEnabled 0) = true ∧
    (∀ restore, ((operating restore []).pkg 0).op = some ⟨0, restore, true⟩) ∧ (operating true []).reachable 0 0 = true ∧
    hosted.reachable 0 0 = false ∧ (operating true []).tier.find? (fun j => j.dest == 0) = some (anImage []) ∧
    (operating false [(0, 8)]).tier.find? (fun j => j.dest == 0) = some (anImage [(0, 8)]) ∧
    ((anImage []).bytes.map Prod.fst).Nodup ∧ (∀ k ∈ (anImage []).bytes, k.1 < 2 ^ 55) ∧ (hosted.pkg 0).op = none := by decide +kernel

theorem witness_ResetAndBringUp : (State.reset.pkg 0).step = 0 ∧
    (let b := (State.reset.pkg 0).boot
     b.burup.signer = b.keyHash ∧ b.burup.signed = b.burup.digest ∧ b.least ≤ b.burup.version) ∧
    (let b : Boot := { keyHash := 1 }
     ¬ b.burup.signer = b.keyHash ∧ ¬ b.fallback.signer = b.keyHash) ∧
    ((State.reset.setPkg 0 { step := 2 }).pkg 0).step = 2 ∧ ((State.reset.setPkg 0 { step := 3 }).pkg 0).step = 3 ∧
    ((State.reset.setPkg 0 { step := 6 }).pkg 0).step < 7 ∧ 7 ≤ (hosted.pkg 0).step := by decide +kernel

theorem witness_Attestation : Instr.challenge 3 ∈ ([.getVersion 3, .getCapabilities 3, .negotiateAlgorithms 3, .getDigests 3,
    .getCertificate 3, .challenge 3, .getMeasurements 3] : List Instr) := by decide

theorem witness_RegisterWrites :
    hosted.mayStore burup 0 0x1008 = true ∧ hosted.mayStore burup 0 0x1000 = true ∧ hosted.mayStore theHost 0 0x1008 = false ∧
    hosted.mayStore burup (ioDie 0) 0x80000 = true ∧ hosted.mayStore burup (ioDie 0) 0x80040 = true ∧ (hosted.pkg 0).reload = false ∧
    burup.unit = 240 ∧ theHost.unit ≠ 240 ∧
    bits (0 : Word) 62 2 = 0 ∧ bits (0x4000000000000000 : Word) 62 2 = 1 ∧ bits (0x8000000000000000 : Word) 62 2 = 2 ∧
    regKnown (isIo 0) (0x1004 : BitVec 44).toNat = false ∧ isIo 0 = false ∧ enginePage (0x100000 : BitVec 44).toNat = true := by
  decide +kernel

/-- The host link is up, and the access tables of channel 0 and of the registers of die 0 admit the host. -/
def hostState : State := (hosted.setPkg 0 { step := 7, hostUp := true }).setReg 0 (0x200000 + 0x2000 * 98 + 16) 0x3C0000000
def hostMaster : Master := { die := ioDie 0, unit := 241, asid := 0, core := none }
/-- The last bytes of channel 0 of die 0. -/
def hostFound (acc : Acc) : List Nat := (hostState.hostKeys hostMaster acc 0x7FFFFFF8 8).getD []

theorem witness_HostRequests :
    (hostState.pkg 0).hostUp = true ∧ spaceOf 0x7FFFFFF8 ≠ some .regs ∧
    (∀ acc ∈ [Acc.load, .store, .atomic], hostState.hostKeys hostMaster acc 0x7FFFFFF8 8 = some (hostFound acc) ∧
      (hostFound acc).Nodup ∧ hostState.poisonCause (hostFound acc) = none) ∧
    hostState.hostKeys hostMaster .load 0x80000000 8 = none ∧ (hosted.pkg 0).hostUp = false ∧
    (let s : State := { hostState with poison := [(lineOf 0x7FFFFFF8, 0x380)] }
     s.hostKeys hostMaster .load 0x7FFFFFF8 8 = some (hostFound .load) ∧ s.poisonCause (hostFound .load) ≠ none) ∧
    (let a : Word := 0x0006400000001000
     spaceOf a = some .regs ∧ regKnown (isIo (aDieId a)) (aOff a) = true ∧ portAt 0 a = none ∧ hostState.isLost hostMaster a = false ∧
     hostState.admits (aDieId a) 98 hostMaster .load a = true ∧ isIo (aDieId a) = false ∧ enginePage (aOff a) = false ∧
     engineAlias (aOff a) = false) ∧
    hostState.namesSpace hostMaster false 0x7FFFFFF8 1 = some (.channel 0) ∧ aOff 0x7FFFFFF8 < Config.channelBytes ∧
    hostState.isLost hostMaster 0x7FFFFFF8 = false := by decide +kernel

theorem witness_EndpointRequests :
    let m : Master := { die := 0, unit := 7, asid := 0, core := none }
    let a : Word := BitVec.ofNat 64 (homeKey 0 false 63 0x7FFFFFC0)
    let s := hosted.setReg 0 (0x200000 + 0x2000 * 100 + 16) 0x3C0000000
    let b := (s.pkg 0).boot
    b.endpoint.signer = b.keyHash ∧ b.endpoint.signed = b.endpoint.digest ∧
    (∀ acc ∈ [Acc.load, .store], s.admits 0 100 m acc a = true ∧ s.admits 0 100 { m with die := 16 } acc a = true) ∧
    (s.die 0).failed = false ∧ pkgOfDie 16 ≠ pkgOfDie 0 ∧ s.poisonCause ((List.range 64).map (a.toNat + ·)) = none ∧
    ({ s with poison := [(lineOf a.toNat, 0x381)] } : State).poisonCause ((List.range 64).map (a.toNat + ·)) = some 0x381 ∧
    hosted.admits 0 100 m .store a = false ∧ ((s.setDie 0 { failed := true }).die 0).failed = true ∧
    (let b : Boot := { keyHash := 1 }
     ¬ b.endpoint.signer = b.keyHash) := by decide +kernel

/-! ### Hypotheses that are met: the whole machine -/

theorem witness_DecodeEncodeAgree : ∃ w, Instr.wellFormed (.smine 28 28 4 0x1FFF) = true ∧ encode (.smine 28 28 4 0x1FFF) = some w :=
  ⟨_, by decide +kernel, word_eq (by decide +kernel)⟩
/-- What step fetches. -/
def seen (s : State) : BitVec 32 × State := got s.fetch (0, s)
theorem seen_eq {s : State} (h : s.fetch.isOk = true) : s.fetch = .ok ((seen s).1, (seen s).2) := got_eq h

theorem witness_StepRunsDecoded :
    let s := fifeAt (.addi 1 2 5)
    s.agenda = [] ∧ s.hart.run ≠ .free ∧ s.fetch = .ok ((seen s).1, (seen s).2) ∧ decode (seen s).1 = .ok (.addi 1 2 5) ∧
    State.reset.hart.run = .free :=
  ⟨by decide +kernel, by decide +kernel, seen_eq (by decide +kernel), by decide +kernel, by decide +kernel⟩
theorem witness_StepKeepsForm : ∃ t, State.reset.formed ∧ step State.reset = .next t :=
  ⟨_, ⟨by decide +kernel, by decide +kernel⟩, rfl⟩

/-- An operation whose transfer never began; one that is not served; and its destination out of reach. -/
theorem witness_CheckpointAndRestore_ends :
    (let s := hosted.setPkg 0 { hosted.pkg 0 with op := some ⟨0, false, false⟩ }
     (s.pkg 0).op = some ⟨0, false, false⟩ ∧ s.reachable 0 0 = false) ∧
    (operating false []).tier.find? (fun j => j.dest == 0) = some (anImage []) := by decide +kernel

/-- Both images of Burup verify; or one does not. -/
theorem witness_ResetAndBringUp_starts :
    let starts (b : Boot) (x : Firmware) : Prop := x.signer = b.keyHash ∧ x.signed = x.digest ∧ b.least ≤ x.version
    (starts (State.reset.pkg 0).boot (State.reset.pkg 0).boot.burup ∧ starts (State.reset.pkg 0).boot (State.reset.pkg 0).boot.fallback) ∧
    (let b : Boot := { fallback := { signed := 1 } }
     starts b b.burup ∧ ¬ starts b b.fallback) := by decide +kernel

/-- Registers that a die has, and has not; and of a die that its package has not. -/
theorem witness_RegisterWrites_held :
    hosted.hasReg 0 0x1000 = true ∧ hosted.hasReg 0 0x1004 = false ∧
    (let s := hosted.setPkg 0 { hosted.pkg 0 with form := .d1 0 }
     s.hasReg 0 0x1000 = true ∧ s.hasReg 1 0x1000 = false) ∧
    (let a : Word := 0x0006400000001000
     spaceOf a = some .regs ∧ hostState.hasReg (aDieId a) (aOff a) = true ∧ hostState.hasReg (aDieId (a + 4)) (aOff (a + 4)) = false) := by
  decide +kernel

/-- A die that its package has, and one that it has not. -/
theorem witness_EndpointRequests_held :
    hosted.dieHeld 7 = true ∧ isIo 7 = false ∧ hosted.dieHeld 9 = false ∧
    (hosted.setPkg 0 { hosted.pkg 0 with form := .d1 0 }).dieHeld 7 = false := by decide +kernel

/-- A hart that a forced pre-emption has stopped; and one of a package whose clocks stand still. -/
theorem witness_StepRunsDecoded_stopped :
    (waitsFor .stopped).hart.run ≠ .free ∧ (waitsFor .stopped).hart.stopped = true ∧
    (let s : State := { leavingIn 3 with hart := running.hart }
     s.hart.run ≠ .free ∧ s.hart.stopped = false ∧ s.clocksStopped (pkgOf s.hart.pos) = true) ∧
    (let s := running.withFetchWord 32 (word (.addi 1 2 5)).toNat
     s.agenda = [] ∧ s.hart.run ≠ .free ∧ s.hart.stopped = false ∧ s.clocksStopped (pkgOf s.hart.pos) = false ∧
     (∃ u, s.fetch = .ok (word (.addi 1 2 5), u))) := by
  refine ⟨by decide +kernel, by decide +kernel, by decide +kernel, by decide +kernel, by decide +kernel, by decide +kernel,
    by decide +kernel, ?_⟩
  have e : ∀ {x : Except (BitVec 10) (BitVec 32 × State)} {w}, (match x with | .ok y => y.1 == w | .error _ => false) = true →
      ∃ u, x = .ok (w, u) := by
    intro x w h
    cases x with
    | error c => simp at h
    | ok y => exact ⟨y.2, by simp at h; rw [← h]⟩
  exact e (by decide +kernel)

/-! ### Words of every instruction, laid out by hand from R49 to R70 -/

/-- Each word decodes to the instruction beside it. -/
noncomputable def decodesAll (l : List (BitVec 32 × Instr)) : Bool := l.all fun x => decide (decode x.1 = .ok x.2)

theorem test_decode_scalar : decodesAll [
  (0x06AA2800, .add 21 10 5), (0x06AA2801, .sub 21 10 5), (0x06AA2802, .mul 21 10 5), (0x06AA2803, .mulh 21 10 5),
  (0x06AA2804, .mulhn 21 10 5), (0x06AA2805, .div 21 10 5), (0x06AA2806, .divn 21 10 5), (0x06AA2807, .rem 21 10 5),
  (0x06AA2808, .remn 21 10 5), (0x06AA2810, .and 21 10 5), (0x06AA2811, .or 21 10 5), (0x06AA2812, .xor 21 10 5),
  (0x06AA2813, .andn 21 10 5), (0x06AA2818, .shl 21 10 5), (0x06AA2819, .shr 21 10 5), (0x06AA281A, .sra 21 10 5),
  (0x06AA281B, .rol 21 10 5), (0x06AA2820, .slt 21 10 5), (0x06AA2821, .sltn 21 10 5), (0x06AA2822, .min 21 10 5),
  (0x06AA2823, .max 21 10 5), (0x06AA2824, .minn 21 10 5), (0x06AA2825, .maxn 21 10 5), (0x06AA2830, .sel 21 10 5),
  (0x06AA0028, .clz 21 10), (0x06AA0029, .ctz 21 10), (0x06AA002A, .popc 21 10), (0x06AA002C, .sext 21 10 .w8),
  (0x06AA002D, .zext 21 10 .w8), (0x06AA082C, .sext 21 10 .w16), (0x06AA082D, .zext 21 10 .w16),
  (0x06AA102C, .sext 21 10 .w32), (0x06AA102D, .zext 21 10 .w32)] = true := by decide +kernel

theorem test_decode_immediate : decodesAll [
  (0x0AAA9ABC, .addi 21 10 0x9ABC), (0x0EAA9ABC, .andi 21 10 0x9ABC), (0x12AA9ABC, .ori 21 10 0x9ABC),
  (0x16AA9ABC, .xori 21 10 0x9ABC), (0x1EAA9ABC, .slti 21 10 0x9ABC), (0x1AAA0035, .shli 21 10 0x35),
  (0x1AAA0075, .shri 21 10 0x35), (0x1AAA00B5, .srai 21 10 0x35), (0x22A29ABC, .kset 21 2 0x9ABC),
  (0x22A79ABC, .kins 21 3 0x9ABC)] = true := by decide +kernel

theorem test_decode_memory : decodesAll [
  (0x26AA1ABC, .ld 21 10 .i8 0x1ABC), (0x26AA3ABC, .ld 21 10 .i16 0x1ABC), (0x26AA5ABC, .ld 21 10 .i32 0x1ABC),
  (0x26AA7ABC, .ld 21 10 .i64 0x1ABC), (0x26AA9ABC, .ld 21 10 .n8 0x1ABC), (0x26AABABC, .ld 21 10 .n16 0x1ABC),
  (0x26AADABC, .ld 21 10 .n32 0x1ABC), (0x2AAA1ABC, .st 21 10 .w8 0x1ABC), (0x2AAA3ABC, .st 21 10 .w16 0x1ABC),
  (0x2AAA5ABC, .st 21 10 .w32 0x1ABC), (0x2AAA7ABC, .st 21 10 .w64 0x1ABC), (0x2EAA2800, .amo 21 10 5 .i32 .add),
  (0x2EAA2804, .amo 21 10 5 .i32 .min), (0x2EAA2807, .amo 21 10 5 .i32 .cas), (0x2EAA2841, .amo 21 10 5 .i64 .and),
  (0x2EAA2845, .amo 21 10 5 .i64 .max), (0x2EAA2882, .amo 21 10 5 .n32 .or), (0x2EAA2886, .amo 21 10 5 .n32 .swap),
  (0x2EAA28C3, .amo 21 10 5 .n64 .xor), (0x2EAA28C7, .amo 21 10 5 .n64 .cas), (0x2C0A0400, .cln 10), (0x2C0A0401, .inv 10)] = true := by decide +kernel

theorem test_decode_control : decodesAll [
  (0x32AA1ABC, .beq 21 10 0x1ABC), (0x32AA3ABC, .bne 21 10 0x1ABC), (0x32AA5ABC, .blt 21 10 0x1ABC),
  (0x32AA7ABC, .bge 21 10 0x1ABC), (0x32AA9ABC, .bltn 21 10 0x1ABC), (0x32AABABC, .bgen 21 10 0x1ABC),
  (0x36B2ABCD, .jal 21 0x12ABCD), (0x3AAA9ABC, .jalr 21 10 0x9ABC), (0x3EAA9ABC, .smine 21 10 4 0x1ABC),
  (0x400AA800, .zol 10 21)] = true := by decide +kernel

theorem test_decode_float : decodesAll [
  (0x46AA2800, .fadd 21 10 5 .f64), (0x46AA2910, .fsub 21 10 5 .f32), (0x46AA2A20, .fmul 21 10 5 .bf16),
  (0x46AA2B30, .ffma 21 10 5 .f16), (0x46AA2840, .fdiv 21 10 5 .f64), (0x46AA0150, .fsqrt 21 10 .f32),
  (0x46AA2A60, .fmin 21 10 5 .bf16), (0x46AA2B70, .fmax 21 10 5 .f16), (0x46AA2880, .fcmp 21 10 5 .f64 .eq),
  (0x46AA2981, .fcmp 21 10 5 .f32 .lt), (0x46AA2A82, .fcmp 21 10 5 .bf16 .le), (0x46AA2B83, .fcmp 21 10 5 .f16 .un),
  (0x46AA0492, .fcvt 21 10 .i64 .bf16), (0x46AA0195, .fcvt 21 10 .f32 .n64), (0x46AA00A0, .fmv 21 10 .f64)] = true := by decide +kernel

theorem test_decode_system : decodesAll [
  (0x4AA00001, .csrr 21 .vl), (0x4AA00002, .csrr 21 .vty), (0x4AA00003, .csrr 21 .vix), (0x4AA00004, .csrr 21 .fcsr),
  (0x4AA00005, .csrr 21 .xlm), (0x4AA00006, .csrr 21 .rerr), (0x4AA00007, .csrr 21 .fthr), (0x4AA00008, .csrr 21 .zlr),
  (0x4AA00009, .csrr 21 .zlb), (0x4AA0000A, .csrr 21 .zls), (0x4AA0000C, .csrr 21 .tick), (0x4AA0000D, .csrr 21 .flw),
  (0x4AA00010, .csrr 21 .hrk), (0x4AA00011, .csrr 21 .htm), (0x4AA00012, .csrr 21 .hpos), (0x4AA00014, .csrr 21 .qmap),
  (0x4AA00018, .csrr 21 .fst), (0x4AA00019, .csrr 21 .fpc), (0x4AA0001A, .csrr 21 .fva), (0x4AA00020, .csrr 21 .tcause),
  (0x4AA00021, .csrr 21 .tval), (0x4AA00022, .csrr 21 .tepc), (0x4AA00023, .csrr 21 .tvec), (0x4AA00024, .csrr 21 .tsr),
  (0x4AA00025, .csrr 21 .tscr), (0x4AA00026, .csrr 21 .psa), (0x4AA00055, .csrr 21 (.fm 21)), (0x4AA10004, .csrw 21 .fcsr),
  (0x4AA10005, .csrw 21 .xlm), (0x4AA10055, .csrw 21 (.fm 21)), (0x4AA20007, .csrs 21 .fthr), (0x4AA20008, .csrs 21 .zlr),
  (0x4AA20055, .csrs 21 (.fm 21)), (0x4AA3000A, .csrc 21 .zls), (0x4AA3000C, .csrc 21 .tick),
  (0x4AA30055, .csrc 21 (.fm 21)), (0x4804ABCD, .sys 0xABCD), (0x4805ABCD, .bkpt 0xABCD), (0x48060000, .eret),
  (0x48070000, .wfi), (0x4808015D, .fence 0x2B .pod), (0x4AA90000, .tick 21), (0x4AAA0000, .tlbiPage 21),
  (0x4AAA0001, .tlbiAsid 21), (0x4AAA0002, .tlbiAll 21), (0x480B0000, .ifl), (0x4AAC0000, .ctxsv 21),
  (0x4AAD0000, .ctxld 21), (0x4AAE000B, .flow 21 11), (0x4EAA0000, .setvl 21 10), (0x4EAA0001, .setvt 21 10),
  (0x4EAA0002, .settl 21 10)] = true := by decide +kernel

theorem test_decode_vector_integer : decodesAll [
  (0x52AA2CC0, .vadd 21 10 5 19), (0x52AA2CC1, .vsub 21 10 5 19), (0x52AA2CC2, .vmul 21 10 5 19),
  (0x52AA2CC3, .vmulh 21 10 5 19), (0x52AA2CC4, .vmulhn 21 10 5 19), (0x52AA2CC5, .vmac 21 10 5 19),
  (0x52AA2CC6, .vdiv 21 10 5 19), (0x52AA2CC7, .vdivn 21 10 5 19), (0x52AA2CC8, .vrem 21 10 5 19),
  (0x52AA2CC9, .vremn 21 10 5 19), (0x52AA2CCA, .vmin 21 10 5 19), (0x52AA2CCB, .vminn 21 10 5 19),
  (0x52AA2CCC, .vmax 21 10 5 19), (0x52AA2CCD, .vmaxn 21 10 5 19), (0x52AA2CD0, .vand 21 10 5 19),
  (0x52AA2CD1, .vor 21 10 5 19), (0x52AA2CD2, .vxor 21 10 5 19), (0x52AA2CD3, .vandn 21 10 5 19),
  (0x52AA2CD4, .vshl 21 10 5 19), (0x52AA2CD5, .vshr 21 10 5 19), (0x52AA2CD6, .vsra 21 10 5 19),
  (0x52AA2CD8, .vadds 21 10 5 19), (0x52AA2CD9, .vaddsn 21 10 5 19), (0x52AA2CDA, .vsubs 21 10 5 19),
  (0x52AA2CDB, .vsubsn 21 10 5 19), (0x52AA2CEE, .vsel 21 10 5 19), (0x52AA2CE8, .vcmpEq 21 10 5 19),
  (0x52AA2CE9, .vcmpNe 21 10 5 19), (0x52AA2CEA, .vcmpLt 21 10 5 19), (0x52AA2CEB, .vcmpGe 21 10 5 19),
  (0x52AA2CEC, .vcmpLtn 21 10 5 19), (0x52AA2CED, .vcmpGen 21 10 5 19), (0x52AA04E0, .vabs 21 10 19),
  (0x52AA04E1, .vneg 21 10 19), (0x52AA04E2, .vclz 21 10 19), (0x52AA04E3, .vpopc 21 10 19)] = true := by decide +kernel

theorem test_decode_vector_integer_link : decodesAll [
  (0x56BA2CC0, .vaddLink 21 26 5 19), (0x56BA2CC1, .vsubLink 21 26 5 19), (0x56BA2CC2, .vmulLink 21 26 5 19),
  (0x56BA2CC3, .vmulhLink 21 26 5 19), (0x56BA2CC4, .vmulhnLink 21 26 5 19), (0x56BA2CC5, .vmacLink 21 26 5 19),
  (0x56BA2CC6, .vdivLink 21 26 5 19), (0x56BA2CC7, .vdivnLink 21 26 5 19), (0x56BA2CC8, .vremLink 21 26 5 19),
  (0x56BA2CC9, .vremnLink 21 26 5 19), (0x56BA2CCA, .vminLink 21 26 5 19), (0x56BA2CCB, .vminnLink 21 26 5 19),
  (0x56BA2CCC, .vmaxLink 21 26 5 19), (0x56BA2CCD, .vmaxnLink 21 26 5 19), (0x56BA2CD0, .vandLink 21 26 5 19),
  (0x56BA2CD1, .vorLink 21 26 5 19), (0x56BA2CD2, .vxorLink 21 26 5 19), (0x56BA2CD3, .vandnLink 21 26 5 19),
  (0x56BA2CD4, .vshlLink 21 26 5 19), (0x56BA2CD5, .vshrLink 21 26 5 19), (0x56BA2CD6, .vsraLink 21 26 5 19),
  (0x56BA2CD8, .vaddsLink 21 26 5 19), (0x56BA2CD9, .vaddsnLink 21 26 5 19), (0x56BA2CDA, .vsubsLink 21 26 5 19),
  (0x56BA2CDB, .vsubsnLink 21 26 5 19), (0x56BA2CEE, .vselLink 21 26 5 19), (0x56BA2CE8, .vcmpEqLink 21 26 5 19),
  (0x56BA2CE9, .vcmpNeLink 21 26 5 19), (0x56BA2CEA, .vcmpLtLink 21 26 5 19), (0x56BA2CEB, .vcmpGeLink 21 26 5 19),
  (0x56BA2CEC, .vcmpLtnLink 21 26 5 19), (0x56BA2CED, .vcmpGenLink 21 26 5 19), (0x56BA04E0, .vabsLink 21 26 19),
  (0x56BA04E1, .vnegLink 21 26 19), (0x56BA04E2, .vclzLink 21 26 19), (0x56BA04E3, .vpopcLink 21 26 19),
  (0x56BA2CF0, .vcmpEqK 21 26 5 19), (0x56BA2CF1, .vcmpNeK 21 26 5 19), (0x56BA2CF2, .vcmpLtK 21 26 5 19),
  (0x56BA2CF3, .vcmpGeK 21 26 5 19), (0x56BA2CF4, .vcmpLtnK 21 26 5 19), (0x56BA2CF5, .vcmpGenK 21 26 5 19),
  (0x56BA2CF8, .vminK 21 26 5 19), (0x56BA2CF9, .vminnK 21 26 5 19), (0x56BA2CFA, .vmaxK 21 26 5 19),
  (0x56BA2CFB, .vmaxnK 21 26 5 19)] = true := by decide +kernel

theorem test_decode_vector_float : decodesAll [
  (0x5AAA2CC0, .vfadd 21 10 5 19), (0x5AAA2CC1, .vfsub 21 10 5 19), (0x5AAA2CC2, .vfmul 21 10 5 19),
  (0x5AAA2CC3, .vffma 21 10 5 19), (0x5AAA2CC4, .vffms 21 10 5 19), (0x5AAA2CC5, .vfnma 21 10 5 19),
  (0x5AAA2CC6, .vfdiv 21 10 5 19), (0x5AAA2CCC, .vfmin 21 10 5 19), (0x5AAA2CCD, .vfmax 21 10 5 19),
  (0x5AAA2CD0, .vfcmpEq 21 10 5 19), (0x5AAA2CD1, .vfcmpLt 21 10 5 19), (0x5AAA2CD2, .vfcmpLe 21 10 5 19),
  (0x5AAA2CD3, .vfcmpUn 21 10 5 19), (0x5AAA04C7, .vfsqrt 21 10 19), (0x5AAA04C8, .vfrsqa 21 10 19),
  (0x5AAA04C9, .vfrcpa 21 10 19), (0x5AAA04CA, .vfexa 21 10 19), (0x5AAA04CB, .vflga 21 10 19),
  (0x5AAA04D8, .vfabs 21 10 19), (0x5AAA04D9, .vfneg 21 10 19), (0x5AAA04DB, .vfcls 21 10 19), (0x5AAA2CDA, .vfsgn 21 10 5 19)] = true := by decide +kernel

theorem test_decode_vector_float_link : decodesAll [
  (0x5EAADCC0, .vfaddLink 21 10 27 19), (0x5EAADCC1, .vfsubLink 21 10 27 19), (0x5EAADCC2, .vfmulLink 21 10 27 19),
  (0x5EAADCC3, .vffmaLink 21 10 27 19), (0x5EAADCC4, .vffmsLink 21 10 27 19), (0x5EAADCC5, .vfnmaLink 21 10 27 19),
  (0x5EAADCC6, .vfdivLink 21 10 27 19), (0x5EAADCCC, .vfminLink 21 10 27 19), (0x5EAADCCD, .vfmaxLink 21 10 27 19),
  (0x5EAADCD0, .vfcmpEqLink 21 10 27 19), (0x5EAADCD1, .vfcmpLtLink 21 10 27 19), (0x5EAADCD2, .vfcmpLeLink 21 10 27 19),
  (0x5EAADCD3, .vfcmpUnLink 21 10 27 19), (0x5F6A04C7, .vfsqrtLink 27 10 19), (0x5F6A04C8, .vfrsqaLink 27 10 19),
  (0x5F6A04C9, .vfrcpaLink 27 10 19), (0x5F6A04CA, .vfexaLink 27 10 19), (0x5F6A04CB, .vflgaLink 27 10 19),
  (0x5EAADCEC, .vfminK 21 10 27 19), (0x5EAADCED, .vfmaxK 21 10 27 19), (0x5EAADCF0, .vfcmpEqK 21 10 27 19),
  (0x5EAADCF1, .vfcmpLtK 21 10 27 19), (0x5EAADCF2, .vfcmpLeK 21 10 27 19), (0x5EAADCF3, .vfcmpUnK 21 10 27 19),
  (0x5FDD37F8, .vcvtH 30 29 ⟨.e4m3, 31⟩), (0x5FDD17F9, .vcvtD 30 29 ⟨.f64, 31⟩), (0x5FDD07FA, .vcvtFi 30 29 ⟨.i, 31⟩),
  (0x5FDD1FFB, .vcvtIf 30 29 ⟨.f32, 31⟩), (0x5FDD67FC, .vcvtQ 30 29 ⟨.e2m1, 31⟩), (0x5FDD4FFD, .vcvtMx 30 29 ⟨.mxfp6, 31⟩),
  (0x5FDD27FE, .vdeq 30 29 ⟨.bf16, 31⟩), (0x5FDD34F8, .vcvtH 30 29 ⟨.e4m3, 19⟩), (0x5FDD4DFD, .vcvtMx 30 29 ⟨.mxfp6, 23⟩), (0x5CC007FF, .dlfl 6)] = true := by decide +kernel

theorem test_decode_permute_reduce_predicate : decodesAll [
  (0x62AA2CC0, .vslup 21 10 5 19), (0x62AA2CC1, .vsldn 21 10 5 19), (0x62AA2CC2, .vperm 21 10 5 19),
  (0x62AA04C3, .vcomp 21 10 19), (0x62AA04C4, .vexp 21 10 19), (0x62AA04C5, .vbc 21 10 19), (0x62A004C6, .vid 21 19),
  (0x62AA2FC7, .vmvs 21 10 5), (0x62AA2FC8, .vmsv 21 10 5), (0x66AA04C0, .vrsum 21 10 19), (0x66AA04C1, .vrosum 21 10 19),
  (0x66AA04C2, .vrmin 21 10 19), (0x66AA04C3, .vrmax 21 10 19), (0x66AA04C4, .vrand 21 10 19), (0x66AA04C5, .vror 21 10 19),
  (0x66AA04C6, .vrxor 21 10 19), (0x66AA04C7, .vscan 21 10 .add 19), (0x66AA0CC7, .vscan 21 10 .min 19),
  (0x66AA14C7, .vscan 21 10 .max 19), (0x66AA1CC7, .vscan 21 10 .and 19), (0x66AA24C7, .vscan 21 10 .or 19),
  (0x66AA2CC7, .vscan 21 10 .xor 19), (0x6AAA2FC0, .pand 21 10 5), (0x6AAA2FC1, .por 21 10 5), (0x6AAA2FC2, .pxor 21 10 5),
  (0x6AAA2FC3, .pandn 21 10 5), (0x6AAA07C4, .pnot 21 10), (0x6AAA07C5, .pset 21 10), (0x6AAA07C6, .pffs 21 10),
  (0x6AAA07C7, .pcnt 21 10), (0x6AAA07C8, .pmvv 21 10)] = true := by decide +kernel

theorem test_decode_vector_memory : decodesAll [
  (0x6EAA04C0, .vld 21 10 19 false .thr), (0x6EAA2CC5, .vlds 21 10 5 19 false .pkt),
  (0x6EAA2CCA, .vldx 21 10 5 19 false .ckt), (0x6EAA3CCC, .vldsg 21 10 7 19 false .thr),
  (0x72AA04C0, .vst 21 10 19 false .thr), (0x72AA2CC5, .vsts 21 10 5 19 false .pkt),
  (0x72AA2CCA, .vstx 21 10 5 19 false .ckt), (0x72AA3CCC, .vstsg 21 10 7 19 false .thr),
  (0x72AA04D1, .vstu 21 10 19 false .pkt), (0x72AA2CD6, .vstxu 21 10 5 19 false .ckt),
  (0x76AA2CC0, .vamo 21 10 5 19 false .add .thr), (0x76AA2CC5, .vamo 21 10 5 19 false .min .pkt),
  (0x76AA2CCA, .vamo 21 10 5 19 false .max .ckt), (0x76AA2CCC, .vamo 21 10 5 19 false .and .thr),
  (0x76AA2CD1, .vamo 21 10 5 19 false .or .pkt), (0x76AA2CD6, .vamo 21 10 5 19 false .xor .ckt),
  (0x76AA2CD8, .vamo 21 10 5 19 false .swap .thr), (0x76AA2CDD, .vamo 21 10 5 19 false .fadd .pkt),
  (0x6EAA07A0, .vld 21 10 30 true .thr), (0x6EAA2FA5, .vlds 21 10 5 30 true .pkt), (0x6EAA2FAA, .vldx 21 10 5 30 true .ckt),
  (0x6EAA3FAC, .vldsg 21 10 7 30 true .thr), (0x72AA07A0, .vst 21 10 30 true .thr), (0x72AA2FA5, .vsts 21 10 5 30 true .pkt),
  (0x72AA2FAA, .vstx 21 10 5 30 true .ckt), (0x72AA3FAC, .vstsg 21 10 7 30 true .thr),
  (0x72AA07B1, .vstu 21 10 30 true .pkt), (0x72AA2FB6, .vstxu 21 10 5 30 true .ckt),
  (0x76AA2FA0, .vamo 21 10 5 30 true .add .thr), (0x76AA2FA5, .vamo 21 10 5 30 true .min .pkt),
  (0x76AA2FAA, .vamo 21 10 5 30 true .max .ckt), (0x76AA2FAC, .vamo 21 10 5 30 true .and .thr),
  (0x76AA2FB1, .vamo 21 10 5 30 true .or .pkt), (0x76AA2FB6, .vamo 21 10 5 30 true .xor .ckt),
  (0x76AA2FB8, .vamo 21 10 5 30 true .swap .thr), (0x76AA2FBD, .vamo 21 10 5 30 true .fadd .pkt),
  (0x6EAA04D2, .vldff 21 10 19 .ckt), (0x6EAA2CD4, .vprobe 21 10 5 19)] = true := by decide +kernel

theorem test_decode_binding_rows_matrix : decodesAll [
  (0x78CA2FC0, .bind 6 10 5), (0x78C007C1, .unbind 6), (0x7AA607C2, .bndq 21 6), (0x7AAA07C3, .rowpin 21 10),
  (0x780A07C4, .rowrel 10), (0x7AAA07C5, .rowq 21 10), (0x7C006FC0, .omcl 13), (0x7C006FC1, .omrl 13),
  (0x7EAA6FC2, .tld 21 10 13), (0x7CCA6FC3, .mma 6 10 13), (0x7EA62CC4, .accx 21 6 5 19), (0x7C662CC5, .accxLink 3 6 5 19),
  (0x7CC007C6, .accz 6)] = true := by decide +kernel

theorem test_decode_synchronisation_teams : decodesAll [
  (0x800000C0, .bar .die), (0x800A0181, .ipost 10 6), (0x800A0182, .iwait 10 6), (0x800A4AC3, .sacq 10 .pkg 43),
  (0x800A5AC4, .srel 10 .pod 43), (0x82AA2AC5, .stry 21 10 .quad 43), (0x82A00186, .qcnt 21 6), (0x80000187, .qfl 6),
  (0x82AA0008, .tsplit 21 10), (0x82AA0009, .spawn 21 10), (0x8000000A, .exit), (0x8000000B, .yield)] = true := by decide +kernel

theorem test_decode_engines : decodesAll [
  (0x86AA2FC0, .cpy 21 10 5), (0x86AA2CC1, .gsp 21 10 5 19), (0x86AA07C2, .shp 21 10), (0x840A2FC3, .enq 10 5),
  (0x86AA07C4, .deq 21 10), (0x86AA07C5, .dnode 21 10), (0x840A07C6, .dgo 10), (0x840A07C7, .fgo 10), (0x840007C8, .fwait)] = true := by decide +kernel

theorem test_decode_collectives_windows : decodesAll [
  (0x8AAA6CC0, .cred 21 10 13 19 .sum), (0x8AAA6CC8, .call 21 10 13 19 .sum), (0x8AAA6CC1, .cred 21 10 13 19 .prod),
  (0x8AAA6CC9, .call 21 10 13 19 .prod), (0x8AAA6CC2, .cred 21 10 13 19 .min), (0x8AAA6CCA, .call 21 10 13 19 .min),
  (0x8AAA6CC3, .cred 21 10 13 19 .max), (0x8AAA6CCB, .call 21 10 13 19 .max), (0x8AAA6CC4, .cred 21 10 13 19 .and),
  (0x8AAA6CCC, .call 21 10 13 19 .and), (0x8AAA6CC5, .cred 21 10 13 19 .or), (0x8AAA6CCD, .call 21 10 13 19 .or),
  (0x8AAA6CC6, .cred 21 10 13 19 .xor), (0x8AAA6CCE, .call 21 10 13 19 .xor), (0x8AAA6CD0, .cgat 21 10 13 19),
  (0x8AAA6CD8, .csct 21 10 13 19), (0x8AAA6CE0, .cbc 21 10 13 19), (0x89AA07E8, .cgrp 13 10), (0x880D07E9, .cgate 13),
  (0x8AAA2FEA, .rwin 21 10 5), (0x880A07EB, .runmap 10)] = true := by decide +kernel

/-- The words of the worked examples of the specification. -/
theorem test_decode_worked_examples : decodesAll [
  (0x08A00550, .addi 5 0 0x0550), (0x4CC50001, .setvt 6 5), (0x4CEA0000, .setvl 7 10), (0x6D0B07C0, .vld 8 11 31 false .thr),
  (0x588867C0, .vfadd 4 8 12 31), (0x708D07C0, .vst 4 13 31 false .thr), (0x38010000, .jalr 0 1 0),
  (0x5F4117C2, .vfmulLink 26 1 2 31), (0x5C7A2FF1, .vfcmpLtK 3 26 5 31), (0x50611140, .vadd 3 1 2 5),
  (0x74A437C0, .vamo 5 4 6 31 false .add .thr), (0x7C001FC0, .omcl 3), (0x7C4007C6, .accz 2), (0x7D041FC2, .tld 8 4 3),
  (0x7C421FC3, .mma 2 2 3), (0x7C224FC5, .accxLink 1 2 9 31), (0x4D940002, .settl 12 20), (0x782467C0, .bind 1 4 12),
  (0x80000080, .bar .quad), (0x858A07C0, .cpy 12 10 0), (0x840007C8, .fwait), (0x8000000A, .exit), (0x8000000B, .yield)] = true := by
  decide +kernel

/-- Words that are no instruction, each failing one test of R52. -/
theorem test_decode_rejects :
    decode 0 = .error .allZeroWord ∧ decode 0xFFFFFFFF = .error .permanentlyIllegal ∧ decode 0x00000001 = .error .unassignedMajor ∧
    decode 0x04000009 = .error .unassignedFunction ∧ decode 0x04000828 = .error .reservedField ∧
    decode 0x0400182C = .error .reservedValue ∧ decode 0x588866C0 = .error .reservedPredicate := by decide +kernel

/-! ### Terms that no word encodes, one for each check -/

theorem test_illformed_scalar :
    Instr.wellFormed (.smine 1 1 5 0) = false ∧ Instr.wellFormed (.smine 1 0 1 0) = false ∧
    Instr.wellFormed (.smine 1 30 3 0) = false ∧ Instr.wellFormed (.smine 1 29 3 0) = true ∧
    Instr.wellFormed (.fcvt 1 2 .f32 .f32) = false ∧ Instr.wellFormed (.fcvt 1 2 .i64 .n64) = false ∧
    Instr.wellFormed (.fence 0 .die) = false ∧ Instr.wellFormed (.settl 30 1) = false ∧ Instr.wellFormed (.settl 1 30) = false ∧
    Instr.wellFormed (.settl 0 1) = false ∧ Instr.wellFormed (.settl 29 0) = true := by decide
theorem test_illformed_predicate :
    Instr.wellFormed (.vadd 1 2 3 24) = false ∧ Instr.wellFormed (.vadd 1 2 3 31) = true ∧ Instr.wellFormed (.pand 24 0 0) = false ∧
    Instr.wellFormed (.pnot 0 31) = false ∧ Instr.wellFormed (.vsel 1 2 3 31) = false ∧
    Instr.wellFormed (.vld 1 2 24 true .thr) = true ∧ Instr.wellFormed (.vld 1 2 24 false .thr) = false := by decide
theorem test_illformed_link :
    Instr.wellFormed (.vaddLink 24 1 2 31) = false ∧ Instr.wellFormed (.vaddLink 1 26 26 31) = false ∧
    Instr.wellFormed (.vmulLink 26 26 2 31) = false ∧ Instr.wellFormed (.vmulLink 26 27 2 31) = true ∧
    Instr.wellFormed (.vminK 1 2 3 31) = false := by decide
theorem test_illformed_segment : Instr.wellFormed (.vldsg 1 2 0 31 false .thr) = false ∧
    Instr.wellFormed (.vstsg 1 2 8 31 false .thr) = false ∧ Instr.wellFormed (.vldsg 1 2 7 31 false .thr) = true := by decide
theorem test_event_has_no_word : encode .fetchFault = none := by decide +kernel

/-! ### Single steps, with the results that the specification gives -/

/-- Scalar registers 1 to 3 of the running hart. -/
def scalars (x y z : Word) : State := with_ fun h => ((h.setS 1 x).setS 2 y).setS 3 z

/-- A scalar register after an instruction. -/
noncomputable def sAfter (i : Instr) (s : State) (r : SReg) : Word := (after (exec i s)).hart.getS r

/-- Elements from position 0 of a vector register after an instruction. -/
noncomputable def vAfter (i : Instr) (s : State) (r : VReg) (ew n : Nat) : List Nat :=
  (List.range n).map fun j => (after (exec i s)).hart.elem r ew j

/-- Elements put from position 0 into a register. -/
def Hart.put (h : Hart) (r : VReg) (ew : Nat) (xs : List Nat) : Hart :=
  (xs.zip (List.range xs.length)).foldl (fun h x => h.setElem r ew x.2 x.1) h

/-- R28: division by zero, and the most negative value by -1. -/
theorem test_div_corners :
    sAfter (.div 3 1 2) (scalars 7 0 0) 3 = 0xFFFFFFFFFFFFFFFF ∧ sAfter (.rem 3 1 2) (scalars 7 0 0) 3 = 7 ∧
    sAfter (.div 3 1 2) (scalars 0x8000000000000000 0xFFFFFFFFFFFFFFFF 0) 3 = 0x8000000000000000 ∧
    sAfter (.rem 3 1 2) (scalars 0x8000000000000000 0xFFFFFFFFFFFFFFFF 0) 3 = 0 ∧
    sAfter (.divn 3 1 2) (scalars 7 0 0) 3 = 0xFFFFFFFFFFFFFFFF ∧ sAfter (.remn 3 1 2) (scalars 7 0 0) 3 = 7 := by decide +kernel
/-- R28: a quotient rounds toward zero and a remainder takes the sign of the dividend. -/
theorem test_div_signs :
    sAfter (.div 3 1 2) (scalars 0xFFFFFFFFFFFFFFF9 2 0) 3 = 0xFFFFFFFFFFFFFFFD ∧
    sAfter (.rem 3 1 2) (scalars 0xFFFFFFFFFFFFFFF9 2 0) 3 = 0xFFFFFFFFFFFFFFFF := by decide +kernel
/-- R78: -1 times -1, high halves. -/
theorem test_mulh : sAfter (.mulh 3 1 2) (scalars 0xFFFFFFFFFFFFFFFF 0xFFFFFFFFFFFFFFFF 0) 3 = 0 ∧
    sAfter (.mulhn 3 1 2) (scalars 0xFFFFFFFFFFFFFFFF 0xFFFFFFFFFFFFFFFF 0) 3 = 0xFFFFFFFFFFFFFFFE := by decide +kernel
/-- R78: the count of a zero, and a shift amount of 64 is one of 0. -/
theorem test_counts_and_shifts : sAfter (.clz 3 1) (scalars 0 0 0) 3 = 64 ∧ sAfter (.ctz 3 1) (scalars 0 0 0) 3 = 64 ∧
    sAfter (.sra 3 1 2) (scalars 0x8000000000000000 64 0) 3 = 0x8000000000000000 ∧
    sAfter (.sra 3 1 2) (scalars 0x8000000000000000 63 0) 3 = 0xFFFFFFFFFFFFFFFF := by decide +kernel
/-- R78: `sel` reads its prior destination. -/
theorem test_sel : sAfter (.sel 3 1 2) (scalars 5 6 1) 3 = 5 ∧ sAfter (.sel 3 1 2) (scalars 5 6 0) 3 = 6 := by decide +kernel
/-- R81: `kset` clears the other halves, `kins` keeps them. -/
theorem test_constants : sAfter (.kset 1 1 0xABCD) (scalars 0xFFFFFFFFFFFFFFFF 0 0) 1 = 0xABCD0000 ∧
    sAfter (.kins 1 3 0xABCD) (scalars 0xFFFFFFFFFFFFFFFF 0 0) 1 = 0xABCDFFFFFFFFFFFF := by decide +kernel
/-- R10: `s0` reads as zero whatever is written. -/
theorem test_zero_register : sAfter (.addi 0 1 5) (scalars 9 0 0) 0 = 0 := by decide +kernel
/-- R59: `jalr` reads its base before it writes the return address, also of one register. -/
theorem test_jalr_one_register : (after (exec (.jalr 1 1 4) (scalars 0x1000 0 0))).hart.pc = 0x1004 ∧
    sAfter (.jalr 1 1 4) (scalars 0x1000 0 0) 1 = running.hart.pc + 4 := by decide +kernel
/-- R21: a misaligned target traps at the transferring instruction, with the target in `tval`. -/
theorem test_jalr_misaligned :
    let t := after (exec (.jalr 1 1 2) (scalars 0x1000 0 0))
    t.hart.hs = true ∧ t.hart.tval = 0x1002 ∧ t.hart.tepc = running.hart.pc ∧ t.hart.pc = running.hart.tvec ∧ t.getS 1 = 0x1000 := by
  decide +kernel

/-- The worked example of R54: one word under four types. -/
theorem test_word_under_types :
    let cause (vty : Word) := (after (exec (.vfadd 4 8 12 31) (vec vty 4))).hart.tcause
    (after (exec (.vfadd 4 8 12 31) (vec 0x550 4))).hart.hs = false ∧ cause 0xCD8 = 0x041 ∧ cause 0x18 = 0x044 ∧
    cause 0x8000000000000000 = 0x040 := by decide +kernel

/-- The operands of the worked example of R129. -/
def threshold : State :=
  let s := vec f32 4
  { s with hart := ((Hart.put (Hart.put (Hart.put s.hart 1 32 [0x40000000, 0xBFC00000, 0x3F800001, 0x7F7FFFFF])
      2 32 [0x40400000, 0x40800000, 0x3F800001, 0x40000000]) 5 32 [0x40A00000, 0xC0E00000, 0x40000000, 0])) }
/-- The products go into `dl2`, the comparison reads them and empties it; only OF is raised. -/
theorem test_cancelling_threshold :
    let t := after (exec (.vfcmpLtK 3 26 5 31) (after (exec (.vfmulLink 26 1 2 31) threshold)))
    (t.getP 3).extractLsb' 0 4 = 4 ∧ t.hart.fcsr = 4 ∧ t.hart.dl[2] = none ∧ t.hart.hs = false ∧ t.hart.vix = 0 := by decide +kernel

/-- The worked example of R137: shift down within groups of four. -/
theorem test_cross_lane_shift :
    let s := vec i32 7
    let h := (Hart.put (Hart.put s.hart 1 32 [10, 11, 12, 13, 14, 15, 16, 17]) 2 32 (List.replicate 8 100)).setP 5 0x7B
    vAfter (.vadd 3 1 2 5) { s with hart := { h with xlm := 0x5A001 } } 3 32 8 = [111, 112, 0, 100, 115, 116, 117, 0] := by
  decide +kernel

/-- The operands of the worked example of R144. -/
def summands : State :=
  let s := vec f32 130
  { s with hart := Hart.put s.hart 8 32 (0x4B800000 :: List.replicate 129 0x3F800000) }
/-- The unordered sum takes the fixed tree, the ordered one ascends. -/
theorem test_vrsum : vAfter (.vrsum 4 8 31) summands 4 32 2 = [0x4B800040, 0] ∧
    (after (exec (.vrsum 4 8 31) summands)).hart.fcsr = 1 := by decide +kernel
theorem test_vrosum : vAfter (.vrosum 4 8 31) summands 4 32 2 = [0x4B800000, 0] ∧
    (after (exec (.vrosum 4 8 31) summands)).hart.fcsr = 1 := by decide +kernel

/-- The worked example of R166: merged atomics, on a page of the TCM that holds 7 in word 1 and 1 in word 3. -/
def counters : State :=
  let s := mappedWith fun h =>
    { Hart.put (Hart.put (h.setS 4 (fetchBase + 0x100)) 6 32 [3, 1, 3, 3]) 5 32 [10, 20, 30, 40] with vty := i32, vl := 4 }
  let s := placed s (fetchBase + 0x100) (asBytes [0x700000000, 0x100000000])
  let page := (s.core 0).tlb.getD 0 []
  s.setCore 0 { s.core 0 with tlb := [(0, page), (1, page), (2, page), (3, page)] }
/-- What a word of the page holds after the atomics. -/
noncomputable def counted (i : Nat) : Nat :=
  let t := after (exec (.vamo 5 4 6 31 false .add .thr) counters)
  bytesToNat ((List.range 4).map fun j => t.byte ((fetchBase + 0x100 : Word).toNat + 4 * i + j))
theorem test_vamo_merges : vAfter (.vamo 5 4 6 31 false .add .thr) counters 5 32 4 = [1, 7, 11, 41] := by decide +kernel
theorem test_vamo_stores : counted 1 = 27 ∧ counted 3 = 81 ∧ counted 0 = 0 ∧ counted 2 = 0 := by decide +kernel

end Sys2Proof.Tests
end

section
/-! PROOFS. Scalar integer words: what each writes, and what a scalar register written reads as (R10, R28, R78 to R81). -/

namespace Sys2Proof.Machine

/-! ### A scalar register written (R10, R79) -/

theorem State.getS_setS (s : State) (d r : SReg) (x : Word) :
    (s.setS d x).getS r = if r = d ∧ d ≠ 0 then x else s.getS r := by
  by_cases hr : r = d
  · subst hr
    by_cases h0 : r = 0
    · subst h0; rfl
    · rw [if_pos ⟨rfl, h0⟩]
      exact Hart.getS_setS s.hart x h0
  · rw [if_neg fun h => hr h.1]
    exact Hart.getS_setS_other s.hart x hr

theorem scalarRegisterReadsBack : Rules.ScalarRegisterReadsBack :=
  fun s d r x => ⟨rfl, rfl, s.getS_setS d r x⟩

/-! ### Products, quotients and remainders (R28, R78) -/

theorem mul_eq_ofNat (x y : Word) : x * y = BitVec.ofNat 64 (x.toNat * y.toNat) := by
  rw [BitVec.ofNat_mul, BitVec.ofNat_toNat, BitVec.ofNat_toNat, BitVec.setWidth_eq, BitVec.setWidth_eq]

theorem extractHigh_ofInt (p : Int) :
    (BitVec.ofInt 128 p).extractLsb' 64 64 = BitVec.ofInt 64 (p / 2 ^ 64) := by
  apply BitVec.eq_of_toNat_eq
  simp only [BitVec.extractLsb'_toNat, BitVec.toNat_ofInt, Nat.shiftRight_eq_div_pow]
  omega

theorem extractHigh_ofNat (p : Nat) :
    (BitVec.ofNat 128 p).extractLsb' 64 64 = BitVec.ofNat 64 (p / 2 ^ 64) := by
  apply BitVec.eq_of_toNat_eq
  simp only [BitVec.extractLsb'_toNat, BitVec.toNat_ofNat, Nat.shiftRight_eq_div_pow]
  omega

theorem mulHighSigned_eq (x y : Word) :
    BitVec.ofInt 64 (x.toInt * y.toInt / 2 ^ 64) = (x.signExtend 128 * y.signExtend 128).extractLsb' 64 64 := by
  have hx : BitVec.ofInt 128 x.toInt = x.signExtend 128 := rfl
  have hy : BitVec.ofInt 128 y.toInt = y.signExtend 128 := rfl
  rw [← extractHigh_ofInt, BitVec.ofInt_mul, hx, hy]

theorem mulHighUnsigned_eq (x y : Word) :
    BitVec.ofNat 64 (x.toNat * y.toNat / 2 ^ 64) = (x.setWidth 128 * y.setWidth 128).extractLsb' 64 64 := by
  rw [← extractHigh_ofNat, BitVec.ofNat_mul, BitVec.ofNat_toNat, BitVec.ofNat_toNat]

/-- The overflow of R28, the least number by −1, is the wrap of `ofInt`. -/
theorem quotS_eq (x y : Word) :
    quotS x y = if y = 0 then BitVec.allOnes 64 else BitVec.ofInt 64 (x.toInt.tdiv y.toInt) := by
  have h : x.sdiv y = BitVec.ofInt 64 (x.toInt.tdiv y.toInt) :=
    BitVec.eq_of_toInt_eq (by rw [BitVec.toInt_sdiv, BitVec.toInt_ofInt])
  rw [quotS, h]

theorem quotN_eq (x y : Word) :
    quotN x y = if y = 0 then BitVec.allOnes 64 else BitVec.ofNat 64 (x.toNat / y.toNat) := by
  rw [quotN, ← BitVec.toNat_udiv, BitVec.ofNat_toNat, BitVec.setWidth_eq]
  rfl

theorem remS_eq (x y : Word) :
    remS x y = if y = 0 then x else BitVec.ofInt 64 (x.toInt.tmod y.toInt) := by
  rw [remS, ← BitVec.toInt_srem, BitVec.ofInt_toInt]

theorem remN_eq (x y : Word) :
    remN x y = if y = 0 then x else BitVec.ofNat 64 (x.toNat % y.toNat) := by
  rw [remN, ← BitVec.toNat_umod, BitVec.ofNat_toNat, BitVec.setWidth_eq]
  rfl

/-! ### Shifts and rotates (R78, R80) -/

theorem shiftLeft_eq_ofNat (x : Word) (n : Nat) : x <<< n = BitVec.ofNat 64 (x.toNat * 2 ^ n) := by
  rw [← Nat.shiftLeft_eq]
  exact BitVec.eq_of_toNat_eq (by rw [BitVec.toNat_shiftLeft, BitVec.toNat_ofNat])

theorem ushiftRight_eq_ofNat (x : Word) (n : Nat) : x >>> n = BitVec.ofNat 64 (x.toNat / 2 ^ n) := by
  rw [← Nat.shiftRight_eq_div_pow, ← BitVec.toNat_ushiftRight, BitVec.ofNat_toNat, BitVec.setWidth_eq]

theorem sshiftRight_eq_ofInt (x : Word) (n : Nat) : x.sshiftRight n = BitVec.ofInt 64 (x.toInt / 2 ^ n) := by
  rw [BitVec.sshiftRight_eq, Int.shiftRight_eq_div_pow]
  norm_cast

/-- A rotate by the amount of R78; by 0 its two parts are the word and zero. -/
theorem rotateLeft_bits (x y : Word) :
    x.rotateLeft (bits y 0 6) = (x <<< (y.toNat % 64)) ||| (x >>> (64 - y.toNat % 64)) := by
  rw [BitVec.rotateLeft, BitVec.rotateLeftAux, show bits y 0 6 = y.toNat % 64 from rfl, Nat.mod_mod]

/-! ### Comparisons and choices (R78) -/

theorem slt_iff (x y : Word) : x.slt y = true ↔ x.toInt < y.toInt := by
  rw [BitVec.slt, decide_eq_true_iff]

theorem ult_iff (x y : Word) : x.ult y = true ↔ x.toNat < y.toNat := by
  rw [BitVec.ult, decide_eq_true_iff]

theorem flag_slt (x y : Word) : flag (x.slt y) = if x.toInt < y.toInt then 1 else 0 := by
  simp only [flag, slt_iff]

theorem flag_ult (x y : Word) : flag (x.ult y) = if x.toNat < y.toNat then 1 else 0 := by
  simp only [flag, ult_iff]

theorem flag_slt_signExtend (x : Word) (i : BitVec 16) :
    flag (x.slt (i.signExtend 64)) = if x.toInt < i.toInt then 1 else 0 := by
  rw [flag_slt, BitVec.toInt_signExtend_of_le (by omega)]

theorem minSigned_eq (x y : Word) : (if y.slt x then y else x) = if x.toInt ≤ y.toInt then x else y := by
  simp only [slt_iff]
  by_cases h : x.toInt ≤ y.toInt
  · rw [if_neg (Int.not_lt.mpr h), if_pos h]
  · rw [if_pos (Int.not_le.mp h), if_neg h]

theorem minUnsigned_eq (x y : Word) : (if y.ult x then y else x) = if x.toNat ≤ y.toNat then x else y := by
  simp only [ult_iff]
  by_cases h : x.toNat ≤ y.toNat
  · rw [if_neg (Nat.not_lt.mpr h), if_pos h]
  · rw [if_pos (Nat.not_le.mp h), if_neg h]

/-- Words that compare equal are one word, so either may be the greater. -/
theorem maxSigned_eq (x y : Word) : (if x.slt y then y else x) = if x.toInt ≤ y.toInt then y else x := by
  simp only [slt_iff]
  rcases Int.lt_trichotomy x.toInt y.toInt with h | h | h
  · rw [if_pos h, if_pos (Int.le_of_lt h)]
  · rw [BitVec.eq_of_toInt_eq h, ite_self, ite_self]
  · rw [if_neg (Int.not_lt.mpr (Int.le_of_lt h)), if_neg (Int.not_le.mpr h)]

theorem maxUnsigned_eq (x y : Word) : (if x.ult y then y else x) = if x.toNat ≤ y.toNat then y else x := by
  simp only [ult_iff]
  rcases Nat.lt_trichotomy x.toNat y.toNat with h | h | h
  · rw [if_pos h, if_pos (Nat.le_of_lt h)]
  · rw [BitVec.eq_of_toNat_eq h, ite_self, ite_self]
  · rw [if_neg (Nat.not_lt.mpr (Nat.le_of_lt h)), if_neg (Nat.not_le.mpr h)]

theorem ite_bne_zero (c x y : Word) : (if c != 0 then x else y) = if c ≠ 0 then x else y := by
  simp only [bne_iff_ne]

/-! ### Counts of bits (R78) -/

section
variable {w : Nat} (x : BitVec w)

theorem leadingZeros_le : leadingZeros x ≤ w := by
  unfold leadingZeros
  split <;> omega

theorem toNat_lt_of_leadingZeros : x.toNat < 2 ^ (w - leadingZeros x) := by
  by_cases h : x = 0
  · simp [leadingZeros, h]
  · have hx : x.toNat ≠ 0 := fun e => h (BitVec.eq_of_toNat_eq e)
    have hl : x.toNat.log2 < w := (Nat.log2_lt hx).mpr x.isLt
    rw [leadingZeros, if_neg h, show w - (w - 1 - x.toNat.log2) = x.toNat.log2 + 1 by omega]
    exact Nat.lt_log2_self

theorem le_toNat_of_leadingZeros (hk : leadingZeros x < w) : 2 ^ (w - 1 - leadingZeros x) ≤ x.toNat := by
  by_cases h : x = 0
  · simp [leadingZeros, h] at hk
  · have hx : x.toNat ≠ 0 := fun e => h (BitVec.eq_of_toNat_eq e)
    have hl : x.toNat.log2 < w := (Nat.log2_lt hx).mpr x.isLt
    rw [leadingZeros, if_neg h, show w - 1 - (w - 1 - x.toNat.log2) = x.toNat.log2 by omega]
    exact Nat.log2_self_le hx

/-- The bits below the count are zero, and the bit at it, when there is one, is not. -/
theorem trailingZeros_spec : trailingZeros x ≤ w ∧ (∀ j < trailingZeros x, x.getLsbD j = false) ∧
    (trailingZeros x < w → x.getLsbD (trailingZeros x) = true) := by
  unfold trailingZeros
  split
  · next k hk =>
    obtain ⟨hbit, hmem, hlow⟩ := List.find?_range_eq_some.mp hk
    exact ⟨Nat.le_of_lt (List.mem_range.mp hmem), fun j hj => by simpa using hlow j hj, fun _ => hbit⟩
  · next hnone =>
    refine ⟨Nat.le_refl w, fun j hj => ?_, fun h => absurd h (Nat.lt_irrefl w)⟩
    simpa using List.find?_eq_none.mp hnone j (List.mem_range.mpr hj)

theorem toNat_mod_of_low_zero {k : Nat} (h : ∀ j < k, x.getLsbD j = false) : x.toNat % 2 ^ k = 0 := by
  refine Nat.eq_of_testBit_eq fun j => ?_
  rw [Nat.testBit_mod_two_pow, Nat.zero_testBit, Bool.and_eq_false_iff]
  by_cases hj : j < k
  · exact .inr (h j hj)
  · exact .inl (decide_eq_false hj)

theorem popCount_eq_length : popCount x = ((List.range w).filter x.getLsbD).length :=
  List.countP_eq_length_filter

end

/-! ### Extensions and constants (R78, R81) -/

theorem zext_eq_and (x : Word) (n : Nat) : zext x n = x &&& BitVec.ofNat 64 (2 ^ n - 1) := by
  apply BitVec.eq_of_getLsbD_eq
  intro i hi
  have hz : (zext x n).getLsbD i = (decide (i < n) && x.getLsbD i) := by simp [zext, hi]
  rw [hz, BitVec.getLsbD_and, BitVec.getLsbD_ofNat, Nat.testBit_two_pow_sub_one, decide_eq_true hi, Bool.true_and,
    Bool.and_comm]

theorem kset_value (h : BitVec 2) (i : BitVec 16) :
    i.setWidth 64 <<< (16 * h.toNat) = BitVec.ofNat 64 (i.toNat * 2 ^ (16 * h.toNat)) := by
  rw [shiftLeft_eq_ofNat, BitVec.toNat_setWidth_of_le (by omega)]

/-- A bit of the mask of one half, shifted to its place. -/
theorem getLsbD_halfMask (h k : Nat) (hk : k < 64) :
    ((0xFFFF : Word) <<< (16 * h)).getLsbD k = decide (k / 16 = h) := by
  have hm : (0xFFFF : Word) = BitVec.ofNat 64 (2 ^ 16 - 1) := rfl
  rw [BitVec.getLsbD_shiftLeft, hm, BitVec.getLsbD_ofNat, Nat.testBit_two_pow_sub_one, Bool.eq_iff_iff]
  simp only [Bool.and_eq_true, Bool.not_eq_true', decide_eq_true_eq, decide_eq_false_iff_not]
  omega

/-- R81: a bit of the half named comes from the immediate, any other from the register. -/
theorem kins_getLsbD (x : Word) (h : BitVec 2) (i : BitVec 16) {k : Nat} (hk : k < 64) :
    ((x &&& ~~~((0xFFFF : Word) <<< (16 * h.toNat))) ||| i.setWidth 64 <<< (16 * h.toNat)).getLsbD k =
      if k / 16 = h.toNat then i.getLsbD (k % 16) else x.getLsbD k := by
  rw [BitVec.getLsbD_or, BitVec.getLsbD_and, BitVec.getLsbD_not, getLsbD_halfMask _ _ hk, BitVec.getLsbD_shiftLeft,
    BitVec.getLsbD_setWidth]
  by_cases hh : k / 16 = h.toNat
  · have hlo : ¬ k < 16 * h.toNat := by omega
    have hsub : k - 16 * h.toNat = k % 16 := by omega
    have hlt : k % 16 < 64 := by omega
    simp [hh, hk, hlo, hsub, hlt]
  · have hout : k < 16 * h.toNat ∨ i.getLsbD (k - 16 * h.toNat) = false := by
      rcases Nat.lt_or_ge k (16 * h.toNat) with hlt | hge
      · exact .inl hlt
      · exact .inr (BitVec.getLsbD_of_ge i _ (by omega))
    rcases hout with hout | hout <;> simp [hh, hk, hout]

/-! ### The words of majors 0x01 to 0x08 -/

/-- A word whose meaning is a result writes any value equal to it. -/
theorem writes_of_result {i : Instr} {s : State} {d : SReg} {x v : Word} (hi : exec i s = s.result d x) (hv : x = v) :
    Writes i s d v := hv ▸ hi

theorem clz_result (s : State) (d a : SReg) : ∃ k ≤ 64, Writes (.clz d a) s d (BitVec.ofNat 64 k) ∧
    (s.getS a).toNat < 2 ^ (64 - k) ∧ (k < 64 → 2 ^ (63 - k) ≤ (s.getS a).toNat) :=
  ⟨leadingZeros (s.getS a), leadingZeros_le _, writes_of_result rfl rfl, toNat_lt_of_leadingZeros _,
    le_toNat_of_leadingZeros _⟩

theorem ctz_result (s : State) (d a : SReg) : ∃ k ≤ 64, Writes (.ctz d a) s d (BitVec.ofNat 64 k) ∧
    (s.getS a).toNat % 2 ^ k = 0 ∧ (k < 64 → (s.getS a).getLsbD k = true) := by
  obtain ⟨hle, hlow, hbit⟩ := trailingZeros_spec (s.getS a)
  exact ⟨_, hle, writes_of_result rfl rfl, toNat_mod_of_low_zero _ hlow, hbit⟩

theorem aluRegisterResults : Rules.AluRegisterResults := by
  intro s d a b x y n
  exact ⟨
    writes_of_result rfl rfl,  -- add
    writes_of_result rfl rfl,  -- sub
    writes_of_result rfl (mul_eq_ofNat x y),
    writes_of_result rfl (mulHighSigned_eq x y),
    writes_of_result rfl (mulHighUnsigned_eq x y),
    writes_of_result rfl (quotS_eq x y),
    writes_of_result rfl (quotN_eq x y),
    writes_of_result rfl (remS_eq x y),
    writes_of_result rfl (remN_eq x y),
    writes_of_result rfl rfl,  -- and
    writes_of_result rfl rfl,  -- or
    writes_of_result rfl rfl,  -- xor
    writes_of_result rfl rfl,  -- andn
    writes_of_result rfl (shiftLeft_eq_ofNat x n),
    writes_of_result rfl (ushiftRight_eq_ofNat x n),
    writes_of_result rfl (sshiftRight_eq_ofInt x n),
    writes_of_result rfl (rotateLeft_bits x y),
    writes_of_result rfl (flag_slt x y),
    writes_of_result rfl (flag_ult x y),
    writes_of_result rfl (minSigned_eq x y),
    writes_of_result rfl (maxSigned_eq x y),
    writes_of_result rfl (minUnsigned_eq x y),
    writes_of_result rfl (maxUnsigned_eq x y),
    clz_result s d a,
    ctz_result s d a,
    writes_of_result rfl (congrArg (BitVec.ofNat 64) (popCount_eq_length x)),
    writes_of_result rfl rfl,  -- sext, from each width
    writes_of_result rfl rfl,
    writes_of_result rfl rfl,
    writes_of_result rfl (zext_eq_and x 8),
    writes_of_result rfl (zext_eq_and x 16),
    writes_of_result rfl (zext_eq_and x 32),
    writes_of_result rfl (ite_bne_zero (s.getS d) x y)⟩

theorem immediateResults : Rules.ImmediateResults := by
  intro s d a i n h x
  exact ⟨
    writes_of_result rfl rfl,  -- addi
    writes_of_result rfl rfl,  -- andi
    writes_of_result rfl rfl,  -- ori
    writes_of_result rfl rfl,  -- xori
    writes_of_result rfl (flag_slt_signExtend x i),
    writes_of_result rfl (shiftLeft_eq_ofNat x n.toNat),
    writes_of_result rfl (ushiftRight_eq_ofNat x n.toNat),
    writes_of_result rfl (sshiftRight_eq_ofInt x n.toNat),
    writes_of_result rfl (kset_value h i),
    _, writes_of_result rfl rfl, fun _ hk => kins_getLsbD (s.getS d) h i hk⟩

/-- Settles O1: the meaning of each word is a result, and its value is the one that the rule states. -/
theorem scalarIntegerResults : Obligations.ScalarIntegerResults :=
  ⟨scalarRegisterReadsBack, aluRegisterResults, immediateResults⟩

end Sys2Proof.Machine
end

section
/-! PROOFS. Control transfer: where a branch or jump goes, and its trap in an active loop body (R88, R93, R94). -/

namespace Sys2Proof.Machine

/-! ### Control transfer outside an active loop body (R88) -/

theorem transfer_outside {s : State} (hs : s.outsideLoop) (w : BitVec 32) (k : Res) : transfer w s k = k := by
  rw [transfer, hs, trapIf_false]

/-- The last word of an active body lies in the body. -/
theorem Hart.inBody_of_atPassEnd {h : Hart} (he : h.atPassEnd) : h.inBody = true := by
  obtain ⟨hact, hpc⟩ := he
  have hoff : (h.pc - h.zol.zlb).toNat = 4 * h.zol.len.toNat := by
    have hlen := h.zol.len.isLt
    rw [hpc, BitVec.add_comm, BitVec.add_sub_cancel, BitVec.toNat_mul, BitVec.toNat_setWidth]
    change 4 * _ % _ = _
    omega
  simp [Hart.inBody, hact, hoff]

/-- Outside an active body no pass ends, so the next word follows. -/
theorem State.advance_outside {s : State} (hs : s.outsideLoop) : s.advance = s.jump (s.hart.pc + 4) := by
  have hplain : s.hart.zol.act = false ∨ s.hart.pc ≠ s.hart.zol.zlb + 4 * s.hart.zol.len.setWidth 64 := by
    by_cases hact : s.hart.zol.act = true
    · refine .inr fun hpc => ?_
      have hin := Hart.inBody_of_atPassEnd ⟨hact, hpc⟩
      exact Bool.false_ne_true (hs.symm.trans hin)
    · exact .inl (eq_false_of_ne_true hact)
  rw [State.advance, Hart.advance_plain _ hplain, State.jump]

/-- Where a branch goes, for any relation that its test decides. -/
theorem branch_outside {i : Instr} {s : State} {cn : BitVec 3} {d a : SReg} {o : BitVec 13} {taken : Bool} {p : Prop}
    (hs : s.outsideLoop) (hi : exec i s = branch cn d a o taken s) (hp : taken = true ↔ p) :
    (p → exec i s = .next (s.jump (s.hart.pc + o.signExtend 64 * 4))) ∧
    (¬ p → exec i s = .next (s.jump (s.hart.pc + 4))) := by
  rw [hi, branch, transfer_outside hs]
  constructor
  · intro h
    rw [if_pos (hp.mpr h)]
  · intro h
    rw [if_neg (mt hp.mp h), State.advance_outside hs]

theorem not_slt_iff (x y : Word) : (!x.slt y) = true ↔ y.toInt ≤ x.toInt := by
  rw [Bool.not_eq_true', ← Bool.not_eq_true, slt_iff, Int.not_lt]

theorem not_ult_iff (x y : Word) : (!x.ult y) = true ↔ y.toNat ≤ x.toNat := by
  rw [Bool.not_eq_true', ← Bool.not_eq_true, ult_iff, Nat.not_lt]

theorem jal_outside {s : State} (hs : s.outsideLoop) (d : SReg) (o : BitVec 21) :
    exec (.jal d o) s = .next ((s.setS d (s.hart.pc + 4)).jump (s.hart.pc + o.signExtend 64 * 4)) :=
  transfer_outside hs _ _

theorem jalr_outside {s : State} (hs : s.outsideLoop) (d a : SReg) (i : BitVec 16) :
    exec (.jalr d a i) s =
      trapIf ((s.getS a + i.signExtend 64).toNat % 4 != 0) 0x080 (s.getS a + i.signExtend 64) s
        (.next ((s.setS d (s.hart.pc + 4)).jump (s.getS a + i.signExtend 64))) :=
  transfer_outside hs _ _

theorem controlTransfers_outside : Rules.ControlTransfers := by
  intro s d a o j i hs h x y goes
  refine ⟨branch_outside hs rfl beq_iff_eq, branch_outside hs rfl bne_iff_ne, branch_outside hs rfl (slt_iff x y),
    branch_outside hs rfl (not_slt_iff x y), branch_outside hs rfl (ult_iff x y),
    branch_outside hs rfl (not_ult_iff x y), jal_outside hs d j, ?_, ?_⟩
  · intro haligned
    rw [jalr_outside hs, bne_eq_false_iff_eq.mpr haligned, trapIf_false]
  · intro hmisaligned
    rw [Traps, jalr_outside hs, bne_iff_ne.mpr hmisaligned, trapIf_true]

/-! ### The guard of majors 0x0C to 0x10 in a loop (R52, R93, R94) -/

/-- The first tests of an instruction whose word is in one of these majors: what follows them is some `k`. -/
structure LoopGuarded (i : Instr) (w : BitVec 32) : Prop where
  transfers : majorOf w = 0x0C ∨ majorOf w = 0x0D ∨ majorOf w = 0x0E → ∀ s, ∃ k, exec i s = transfer w s k
  strips : majorOf w = 0x0F →
    ∀ s, ∃ k, exec i s = trapIf (bit s.hart.vty 63) 0x040 (wordVal w) s (transfer w s k)
  loops : majorOf w = 0x10 → ∀ s, ∃ k, exec i s = trapIf s.hart.zol.act 0x007 (wordVal w) s k

/-- A word of any other major has no such test to make. -/
theorem LoopGuarded.of_other {i : Instr} {w : BitVec 32} (hm : majorOf w < 0x0C ∨ 0x10 < majorOf w) :
    LoopGuarded i w where
  transfers h := by rcases h with h | h | h <;> simp [h] at hm
  strips h := by simp [h] at hm
  loops h := by simp [h] at hm

/-- Each of these majors belongs to the instructions of one group. -/
theorem loopGuarded_of_encode {i : Instr} {w : BitVec 32} (e : encode i = some w) : LoopGuarded i w := by
  cases i with
  | beq | bne | blt | bge | bltn | bgen | jal | jalr =>
    cases e
    exact ⟨fun _ _ => ⟨_, rfl⟩, by simp, by simp⟩
  | smine =>
    cases e
    exact ⟨by simp, fun _ _ => ⟨_, rfl⟩, by simp⟩
  | zol =>
    cases e
    exact ⟨by simp, by simp, fun _ _ => ⟨_, rfl⟩⟩
  | _ => cases e <;> exact .of_other (by simp)

theorem transfer_inside {s : State} (hs : ¬ s.outsideLoop) (w : BitVec 32) (k : Res) :
    transfer w s k = .next (s.trap 0x007 (wordVal w)) := by
  rw [transfer, eq_true_of_ne_false hs, trapIf_true]

theorem transferInLoopBodyTraps : Rules.TransferInLoopBodyTraps := by
  intro s i w e
  obtain ⟨transfers, strips, loops⟩ := loopGuarded_of_encode e
  refine ⟨fun hs hm => ?_, fun hs hlegal hm => ?_, fun hact hm => ?_⟩
  · obtain ⟨k, hk⟩ := transfers hm s
    exact hk.trans (transfer_inside hs w k)
  · obtain ⟨k, hk⟩ := strips hm s
    rw [hlegal, trapIf_false] at hk
    exact hk.trans (transfer_inside hs w k)
  · obtain ⟨k, hk⟩ := loops hm s
    rw [hact, trapIf_true] at hk
    exact hk

/-- Settles O8: outside a loop body the transfer is what is left of the meaning, and in one the guard traps first. -/
theorem controlTransfers : Obligations.ControlTransfers :=
  ⟨controlTransfers_outside, transferInLoopBodyTraps⟩

end Sys2Proof.Machine
end
